-- ==== Sys2Proof/Word.lean ====
section
/-! DEFINITION. The machine's words and the plainest arithmetic on them (R6, R13). -/

namespace Sys2Proof

/-- A 32-bit word. -/
abbrev Word := BitVec 32

/-- A byte, the smallest addressable unit (R6). -/
abbrev Byte := BitVec 8

/-- One row of 256 bytes (R57). Byte k holds bits [8k+7:8k] (R6). -/
abbrev Bits256 := BitVec 2048

/-- A 64-bit word: range entries, table entries, bus addresses. -/
abbrev DWord := BitVec 64

end Sys2Proof
end

