-- ==== Sys2Proof/Syntax.lean ====
section
/-! DEFINITION. The instructions, one constructor for each row of spec/opcode_table.json: the headers and slot instructions of the
Zitric set (R36 to R87), the effects of csrw the table names, the events of the hardware, and the host's commands (R380).
An operand holds its lent bits (R44, R67). -/

namespace Sys2Proof

/-- Every step of the opcode table. -/
inductive Instr where
  -- headers (R43, R45, R48)
  | hdrLend (l2 l3 l4 : BitVec 9)
  | hdrTree (n0 : Bool) (p0 : BitVec 3) (n1 : Bool) (p1 : BitVec 3) (n2 : Bool) (p2 : BitVec 3) (n3 : Bool) (p3 : BitVec 3)
      (ls2 ls3 ls4 : BitVec 4)
  | hdrRep (cnt : BitVec 6) (st2 st3 st4 : BitVec 4)
  -- S kind (R70): D, A, B are scalar register numbers
  | add (d a b : BitVec 6)
  | sub (d a b : BitVec 6)
  | and (d a b : BitVec 6)
  | or (d a b : BitVec 6)
  | xor (d a b : BitVec 6)
  | andn (d a b : BitVec 6)
  | shl (d a b : BitVec 6)
  | shr (d a b : BitVec 6)
  | sar (d a b : BitVec 6)
  | rol (d a b : BitVec 6)
  | min (d a b : BitVec 6)
  | max (d a b : BitVec 6)
  | minu (d a b : BitVec 6)
  | maxu (d a b : BitVec 6)
  | adds (d a b : BitVec 6)
  | subs (d a b : BitVec 6)
  | mul (d a b : BitVec 6)
  | mulh (d a b : BitVec 6)
  | mulhu (d a b : BitVec 6)
  | div (d a b : BitVec 6)
  | divu (d a b : BitVec 6)
  | rem (d a b : BitVec 6)
  | remu (d a b : BitVec 6)
  | abs (d a : BitVec 6)
  | clz (d a : BitVec 6)
  | popc (d a : BitVec 6)
  | extB (d a : BitVec 6)
  | extH (d a : BitVec 6)
  | extBu (d a : BitVec 6)
  | extHu (d a : BitVec 6)
  | sel (d a b : BitVec 6) (p : BitVec 3)
  | addi (d a : BitVec 6) (i : BitVec 18)
  | andImm (d a : BitVec 6) (i : BitVec 18)
  | orImm (d a : BitVec 6) (i : BitVec 18)
  | xorImm (d a : BitVec 6) (i : BitVec 18)
  | andnImm (d a : BitVec 6) (i : BitVec 18)
  | shlImm (d a : BitVec 6) (i : BitVec 18)
  | shrImm (d a : BitVec 6) (i : BitVec 18)
  | sarImm (d a : BitVec 6) (i : BitVec 18)
  | rolImm (d a : BitVec 6) (i : BitVec 18)
  | movi (d : BitVec 6) (i : BitVec 24)
  | movhi (d : BitVec 6) (i : BitVec 16)
  | cmp (pd cc : BitVec 3) (a b : BitVec 6)
  | cmpImm (pd cc : BitVec 3) (a : BitVec 6) (i : BitVec 15)
  | pand (pd pa pb : BitVec 3) (na nb : Bool)
  | por (pd pa pb : BitVec 3) (na nb : Bool)
  | pxor (pd pa pb : BitVec 3) (na nb : Bool)
  | pnot (pd pa : BitVec 3) (na : Bool)
  | fadd (d a b : BitVec 6) (rm : BitVec 2)
  | fsub (d a b : BitVec 6) (rm : BitVec 2)
  | fmul (d a b : BitVec 6) (rm : BitVec 2)
  | ffma (d a b c : BitVec 6) (rm : BitVec 2)
  | fmin (d a b : BitVec 6)
  | fmax (d a b : BitVec 6)
  | fminn (d a b : BitVec 6)
  | fmaxn (d a b : BitVec 6)
  | fcmp (pd cc : BitVec 3) (a b : BitVec 6)
  | fcvt (d a : BitVec 6) (code : BitVec 3) (rm : BitVec 2)
  | fsgn (d a b : BitVec 6)
  | fsgnN (d a b : BitVec 6)
  | fsgnX (d a b : BitVec 6)
  -- A kind (R73): OFF as R72 counts it; PI is the post-increment bit; START of R84
  | ldB (ar : BitVec 4) (pi : Bool) (off : BitVec 24)
  | ldH (ar : BitVec 4) (pi : Bool) (off : BitVec 24)
  | ldW (ar : BitVec 4) (pi : Bool) (off : BitVec 24)
  | ldV (ar : BitVec 4) (pi : Bool) (off : BitVec 24)
  | stB (ar : BitVec 4) (pi : Bool) (off : BitVec 24)
  | stH (ar : BitVec 4) (pi : Bool) (off : BitVec 24)
  | stW (ar : BitVec 4) (pi : Bool) (off : BitVec 24)
  | stV (ar : BitVec 4) (pi : Bool) (off : BitVec 24)
  | ldDs (v : BitVec 7) (ar : BitVec 4) (pi : Bool) (off : BitVec 18)
  | stDs (v : BitVec 7) (ar : BitVec 4) (pi : Bool) (off : BitVec 18)
  | amoAdd (ar : BitVec 4) (s : BitVec 6) (off : BitVec 14)
  | amoMin (ar : BitVec 4) (s : BitVec 6) (off : BitVec 14)
  | amoMax (ar : BitVec 4) (s : BitVec 6) (off : BitVec 14)
  | amoSwap (ar : BitVec 4) (s : BitVec 6) (off : BitVec 14)
  | amoCas (ar : BitVec 4) (s c : BitVec 6) (off : BitVec 14)
  | aaddImm (ad aa : BitVec 4) (i : BitVec 22)
  | aadd (ad aa : BitVec 4) (s : BitVec 6)
  | amovA (ad : BitVec 4) (s : BitVec 6)
  | amovS (sd : BitVec 6) (aa : BitVec 4)
  | streamRd (k : BitVec 5) (ar : BitVec 4) (off : BitVec 12) (start : BitVec 9)
  | streamWr (k : BitVec 5) (ar : BitVec 4) (off : BitVec 12) (start : BitVec 9)
  -- V kind (R76): vector register numbers with their lent bit 6, TY of R75, RM of R71
  | vadd (d a b : BitVec 7) (mk ty : BitVec 3) (rm : BitVec 2)
  | vsub (d a b : BitVec 7) (mk ty : BitVec 3) (rm : BitVec 2)
  | vmul (d a b : BitVec 7) (mk ty : BitVec 3) (rm : BitVec 2)
  | vfma (d a b : BitVec 7) (mk ty : BitVec 3) (rm : BitVec 2)
  | vfms (d a b : BitVec 7) (mk ty : BitVec 3) (rm : BitVec 2)
  | vmin (d a b : BitVec 7) (mk ty : BitVec 3)
  | vmax (d a b : BitVec 7) (mk ty : BitVec 3)
  | vminn (d a b : BitVec 7) (mk ty : BitVec 3)
  | vmaxn (d a b : BitVec 7) (mk ty : BitVec 3)
  | vabs (d a : BitVec 7) (mk ty : BitVec 3)
  | vneg (d a : BitVec 7) (mk ty : BitVec 3)
  | vadds (d a b : BitVec 7) (mk ty : BitVec 3)
  | vsubs (d a b : BitVec 7) (mk ty : BitVec 3)
  | vand (d a b : BitVec 7) (mk ty : BitVec 3)
  | vor (d a b : BitVec 7) (mk ty : BitVec 3)
  | vxor (d a b : BitVec 7) (mk ty : BitVec 3)
  | vshl (d a b : BitVec 7) (mk ty : BitVec 3)
  | vshr (d a b : BitVec 7) (mk ty : BitVec 3)
  | vsar (d a b : BitVec 7) (mk ty : BitVec 3)
  | vshlImm (d a : BitVec 7) (cnt : BitVec 6) (mk ty : BitVec 3)
  | vshrImm (d a : BitVec 7) (cnt : BitVec 6) (mk ty : BitVec 3)
  | vsarImm (d a : BitVec 7) (cnt : BitVec 6) (mk ty : BitVec 3)
  | vcmp (cc md : BitVec 3) (a b : BitVec 7) (mk ty : BitVec 3)
  | vsel (d a b : BitVec 7) (mk ty : BitVec 3)
  | vclamp (d : BitVec 7) (lo hi : BitVec 6) (mk ty : BitVec 3)
  | vmov (d a : BitVec 7) (mk ty : BitVec 3)
  | vbcast (d : BitVec 7) (s : BitVec 6) (mk ty : BitVec 3)
  | vext (d : BitVec 6) (a : BitVec 7) (lane : BitVec 7) (ty : BitVec 3)
  | vperm (d a b : BitVec 7) (mk ty : BitVec 3)
  | vrot (d a : BitVec 7) (cnt : BitVec 7) (mk ty : BitVec 3)
  | vslide (d a f : BitVec 7) (cnt ty : BitVec 3)
  | vredAdd (d : BitVec 6) (a : BitVec 7) (mk ty : BitVec 3) (rm : BitVec 2)
  | vredMax (d : BitVec 6) (a : BitVec 7) (mk ty : BitVec 3)
  | vredMin (d : BitVec 6) (a : BitVec 7) (mk ty : BitVec 3)
  | vcvt (d a : BitVec 7) (dst src mk : BitVec 3) (rm : BitVec 2) (sat : Bool)
  | vpackSb (d a : BitVec 7) (mw : BitVec 6) (ty : BitVec 3) (rm : BitVec 2)
  | vunpackSb (d a : BitVec 7) (ty : BitVec 3) (rm : BitVec 2)
  -- M kind (R77)
  | lease (k : BitVec 5)
  | unlease
  | lwt (w : BitVec 2) (ar : BitVec 4) (bt : BitVec 7) (start : BitVec 9)
  | mma (acc : Bool) (w : BitVec 2) (ar : BitVec 4) (bt : BitVec 7) (ty : BitVec 4) (start : BitVec 9)
  | mmaz (acc : Bool) (w : BitVec 2) (ar : BitVec 4) (bt : BitVec 7) (ty : BitVec 4) (start : BitVec 9)
  | gmma (acc : Bool) (w : BitVec 2) (ar : BitVec 4) (bt : BitVec 7) (ty : BitVec 4) (start : BitVec 9)
  | accz (acc : Bool)
  | accld (acc : Bool) (ar : BitVec 4) (cv : BitVec 4) (rw : BitVec 6) (start : BitVec 9)
  | accret (acc : Bool) (ar : BitVec 4) (cv : BitVec 4) (rw : BitVec 6) (start : BitVec 9)
  | amodeWrap
  | amodeSat
  -- E kind (R80)
  | tev (d a : BitVec 7) (fn : BitVec 4) (ty : BitVec 2) (mk : BitVec 3)
  | tld (tb : BitVec 2) (ar : BitVec 4) (k : BitVec 5)
  | tcfg (tb : BitVec 2) (s : BitVec 6)
  | skinitQs (z : BitVec 3) (size : BitVec 2) (k : BitVec 5)
  | skinitHh (z : BitVec 3) (size : BitVec 2) (k : BitVec 5)
  | skinitDc (z : BitVec 3) (size : BitVec 2) (k : BitVec 5)
  | skseed (s : BitVec 6) (k : BitVec 5)
  | skfold (z : BitVec 3) (v : BitVec 7) (mk : BitVec 3) (k : BitVec 5)
  | skmerge (zd zs : BitVec 3) (k : BitVec 5)
  | skq (d : BitVec 6) (z : BitVec 3) (s : BitVec 6) (k : BitVec 5)
  | skrank (d : BitVec 6) (z : BitVec 3) (s : BitVec 6) (k : BitVec 5)
  | skcard (d : BitVec 6) (z : BitVec 3) (k : BitVec 5)
  | sktop (z : BitVec 3) (ar : BitVec 4) (k : BitVec 5)
  | skld (z : BitVec 3) (ar : BitVec 4) (k : BitVec 5)
  | skst (z : BitVec 3) (ar : BitVec 4) (k : BitVec 5)
  | skclr (z : BitVec 3) (k : BitVec 5)
  | cpyTd (k : BitVec 5) (ad asr : BitVec 4) (ln : BitVec 6) (start : BitVec 9)
  | cpyDt (k : BitVec 5) (ad asr : BitVec 4) (ln : BitVec 6) (start : BitVec 9)
  | cpyRedF32 (k : BitVec 5) (ad asr : BitVec 4) (ln : BitVec 6) (dt : Bool) (start : BitVec 9)
  | cpyRedBf16 (k : BitVec 5) (ad asr : BitVec 4) (ln : BitVec 6) (dt : Bool) (start : BitVec 9)
  | cpyRedI32 (k : BitVec 5) (ad asr : BitVec 4) (ln : BitVec 6) (dt : Bool) (start : BitVec 9)
  -- N kind (R81)
  | send (ch : BitVec 8) (ar : BitVec 4) (ln : BitVec 9) (start : BitVec 9)
  | sendRel (ch : BitVec 8) (ar : BitVec 4) (ln : BitVec 9) (start : BitVec 9)
  | sendM (g : BitVec 6) (ar : BitVec 4) (ln : BitVec 9) (start : BitVec 9)
  | sendr (ch : BitVec 8) (ar : BitVec 4) (ln : BitVec 9) (start : BitVec 9)
  | recvArm (ch : BitVec 8) (s : BitVec 6)
  | qpost (e : BitVec 8)
  | qarm (e : BitVec 8) (k : BitVec 5) (s : BitVec 6)
  | sideAdd (id : BitVec 6) (ar : BitVec 4) (sl : BitVec 6)
  | sideRel (id : BitVec 6)
  | decCfg (ar : BitVec 4)
  | barArr (b : BitVec 6)
  | nxt (d : BitVec 6)
  | route (cl : BitVec 2) (si sv : BitVec 6)
  -- C kind (R82): OFF in words from the bundle's PC
  | br (off : BitVec 24)
  | call (off : BitVec 24)
  | brC (n : Bool) (p : BitVec 3) (off : BitVec 24)
  | brTree (off : BitVec 21)
  | ret
  | loop (s : BitVec 6) (len : BitVec 10) (mx : BitVec 14)
  | loopP (s : BitVec 6) (len : BitVec 10) (mx : BitVec 14)
  | loopW (n : Bool) (p : BitVec 3) (len : BitVec 10) (mx : BitVec 14)
  | brk (n : Bool) (p : BitVec 3)
  | dly (cnt : BitVec 16)
  | nop
  | wait (k : BitVec 5) (n : BitVec 16)
  | barWait (b : BitVec 6)
  | exit
  | phase (n : BitVec 8)
  -- Y kind (R83)
  | csrr (d : BitVec 6) (csr : BitVec 12)
  | csrw (a : BitVec 6) (csr : BitVec 12)
  | trap (n : BitVec 8)
  | tret
  | tks (k : BitVec 5) (s : BitVec 6)
  | tkr (k : BitVec 5) (s : BitVec 6)
  | tkz (k : BitVec 5)
  | tkp (k : BitVec 5) (n : BitVec 16)
  | cycGl (d : BitVec 6)
  | cycGh (d : BitVec 6)
  | cycTl (d : BitVec 6)
  | cycTh (d : BitVec 6)
  | sig (c : BitVec 16)
  | bkpt (n : BitVec 8)
  | pwr (h : BitVec 4)
  | ent (d : BitVec 6)
  -- the effects of csrw that the table names as steps of their own (R346, R357, R359, R360)
  | crgadd (sa : BitVec 32)
  | crgclr
  | mctlKill
  | mctlSave
  | mctlCont
  -- host commands (R380, R384): port (false A, true B), TAG, arguments
  | loadImage (port : Bool) (tag : Word) (list : BitVec 64) (count : Word)
  | launchStart (port : Bool) (tag : Word) (x0 y0 w h : BitVec 16) (mb : BitVec 256)
  | launchPost (port : Bool) (tag : Word) (x0 y0 w h : BitVec 16) (mb : BitVec 256)
  | stream (port : Bool) (tag : Word) (host dva : BitVec 64) (len : Word) (toHost : Bool)
  | mapRangeEntry (port : Bool) (tag : Word) (entry : BitVec 8) (w0 w1 w2 : BitVec 64)
  | mapTableRoot (port : Bool) (tag : Word) (ta : BitVec 64)
  | mapInvalidate (port : Bool) (tag : Word) (dva len : BitVec 64)
  | queryModuleState (port : Bool) (tag : Word) (buf : BitVec 64) (len : Word)
  | queryMirage (port : Bool) (tag : Word) (buf : BitVec 64) (len : Word)
  | queryTileReport (port : Bool) (tag : Word) (name : Word) (buf : BitVec 64) (len : Word)
  | queryEnergy (port : Bool) (tag : Word) (buf : BitVec 64) (len : Word)
  | queryDebugChallenge (port : Bool) (tag : Word) (buf : BitVec 64) (len : Word)
  | queryRouterCounters (port : Bool) (tag : Word) (name : Word) (buf : BitVec 64) (len : Word)
  | queryOpticalPorts (port : Bool) (tag : Word) (buf : BitVec 64) (len : Word)
  | checkpoint (port : Bool) (tag : Word) (at' dva dlen list : BitVec 64) (count : BitVec 16)
  | restore (port : Bool) (tag : Word) (dva : BitVec 64)
  | preempt (port : Bool) (tag : Word) (name : Word) (node : BitVec 8)
  | resume (port : Bool) (tag : Word) (u : BitVec 64) (scope : BitVec 8) (name : Word)
  | haltAt (port : Bool) (tag : Word) (at' : BitVec 64)
  | stepTile (port : Bool) (tag : Word) (n : Word) (name : Word)
  | stepWafer (port : Bool) (tag : Word) (n : Word)
  | readState (port : Bool) (tag : Word) (name : Word) (space core : BitVec 8) (off len : Word) (buf : BitVec 64)
  | powerCap (port : Bool) (tag : Word) (cap : BitVec 16) (point : BitVec 8) (marks : BitVec 256)
  | powerDebugOpen (port : Bool) (tag : Word) (cert : BitVec 64) (len : Word)
  | powerDebugClose (port : Bool) (tag : Word)
  | powerRetentionEnter (port : Bool) (tag : Word) (name : Word)
  | powerRetentionExit (port : Bool) (tag : Word) (name : Word)
  | attest (port : Bool) (tag : Word) (nonce buf : BitVec 64)
  | scrub (port : Bool) (tag : Word)
  | semaphoreAcquire (port : Bool) (tag : Word) (word : BitVec 8) (semTag : BitVec 16) (otmo : Word)
  | semaphoreRelease (port : Bool) (tag : Word) (word : BitVec 8) (semTag : BitVec 16)
  | semaphoreRead (port : Bool) (tag : Word) (word : BitVec 8) (semTag : BitVec 16)
  | badOpcode (port : Bool) (tag : Word)
  -- what happens without an issue slot: on the tile and the core whose turn it is (State.curT, State.curC), with State.curArg
  -- where the event names a node, an entry, a class, a mark or a reason
  | resultLanding | deferredStart | staticBankAccess | asyncBankAccess | leaseGrant | leaseExpiry | gangRowArrival
  | summaryCommandStart | summaryCommandComplete | copyCommandStart | copyComplete | busLaneTest | streamPiece | streamComplete
  | sendSourceRead | leeExit | fenceRelease | headFlitRoute | pairingWindowExpiry | heldPacketFlush | ringDeposit
  | reduceDeposit | directWrite | contributionArrival | reduceTargetCombine | cqEntryFire | acknowledgementArrival
  | creditArrival | caravanAccept | caravanDecode | coderAckArrival | decCfgTakesEffect | launchDelivery | triggerFire
  | taskDispatch | coreIdle | nodeComplete | successorDecrement | barrierRelease | gangBarrierRelease | deadlineFault
  | trapEntry | preemptRequest | preemptOverrun | contextSave | seal | tileCheckpoint | strikeReport | replayEnd
  | undoFreezeEnd | correctedWriteback | taskReplay | jobRestore | migration | overlayApply | retentionExit | balanceWindow
  | freezeEnd | powerWindow | electricalLimit | markConsidered | clockChange | energyUpdate | boot | ownershipTimeout
  | scrubEnd | domainHalt | domainResume | stepEnd
  deriving DecidableEq, Repr

end Sys2Proof
end

