-- ==== Sys2Proof/WellFormed.lean ====
section
/-! DEFINITION. Which instructions are well formed: the operand limits and class rules of R70 to R83, decided on operands alone. An
encoding whose operands break one is an illegal instruction (R86). For a host command: the ranges of R384. -/

namespace Sys2Proof

/-- TY names an F type (R75). -/
def tyIsF (ty : BitVec 3) : Bool := ty == 0#3 || ty == 1#3 || ty == 2#3

/-- TY names an I type (R75). -/
def tyIsI (ty : BitVec 3) : Bool := ty == 3#3 || ty == 4#3 || ty == 5#3 || ty == 6#3

/-- TY is not reserved (R75). -/
def tyOk (ty : BitVec 3) : Bool := ty != 7#3

/-- The lane width of TY: 32 for f32, i32, n32, else 16 (R75). -/
def tyWidth (ty : BitVec 3) : Nat := if ty == 0#3 || ty == 3#3 || ty == 5#3 then 32 else 16

/-- The lanes of TY (R75). -/
def tyLanes (ty : BitVec 3) : Nat := if ty == 0#3 || ty == 3#3 || ty == 5#3 then 64 else 128

/-- A format code of vcvt that is an integer format: i32, i16, i8 (R76). -/
def cvtIsInt (f : BitVec 3) : Bool := f == 3#3 || f == 4#3 || f == 7#3

/-- A non-zero RM is legal only with an F type (R75). -/
def rmOk (ty : BitVec 3) (rm : BitVec 2) : Bool := tyIsF ty || (tyIsI ty && rm == 0#2)

/-- Matrix TY codes that are not reserved (R78). -/
def mmaTyOk (ty : BitVec 4) : Bool := ty != 6#4 && ty != 7#4 && ty != 15#4

/-- Matrix TY codes of the SB classes (R78). -/
def mmaTySb (ty : BitVec 4) : Bool := decide (8 ≤ ty.toNat) && decide (ty.toNat ≤ 14)

/-- BT limits of the array commands (R77, R78, R151). -/
def mmaBtOk (ty : BitVec 4) (bt : BitVec 7) : Bool :=
  decide (1 ≤ bt.toNat) && decide (bt.toNat ≤ 64) && (!mmaTySb ty || bt.toNat % 8 == 0)

/-- A tile name of a host command: a core name with C = 0 and zero reserved bits (R32, R384). -/
def nameOk (n : Word) : Bool := n.extractLsb' 0 2 == 0#2 && n.extractLsb' 22 10 == 0#10

/-- An assigned CSR number (R350). -/
def csrAssigned (n : Nat) : Bool :=
  decide (n ≤ 6) || (decide (8 ≤ n) && decide (n ≤ 0xA)) || (decide (0x10 ≤ n) && decide (n ≤ 0x17)) || (decide (0x20 ≤ n) && decide (n ≤ 0x2F))
  || (decide (0x30 ≤ n) && decide (n ≤ 0x35)) || (decide (0x40 ≤ n) && decide (n ≤ 0x47)) || n == 0x50 || n == 0x51
  || (decide (0x60 ≤ n) && decide (n ≤ 0x62)) || (decide (0x800 ≤ n) && decide (n ≤ 0x80E)) || (decide (0xC00 ≤ n) && decide (n ≤ 0xC50))
/-- ix0 to ix5, which csrw may not name (R58, R324). -/
def csrIx (n : Nat) : Bool := decide (0x30 ≤ n) && decide (n ≤ 0x35)

namespace Instr

/-- The operand rules of an instruction, the argument ranges of a host command. -/
def wf : Instr → Bool
  | .shlImm _ _ i | .shrImm _ _ i | .sarImm _ _ i | .rolImm _ _ i => decide (i.toNat < 32)
  | .cmp _ cc _ _ => decide (cc.toNat < 6)
  | .cmpImm _ cc _ _ => decide (cc.toNat < 6)
  | .fcmp _ cc _ _ => decide (cc.toNat < 4)
  | .vadd _ _ _ _ ty rm | .vsub _ _ _ _ ty rm | .vmul _ _ _ _ ty rm => rmOk ty rm
  | .vfma _ _ _ _ ty _ | .vfms _ _ _ _ ty _ => tyIsF ty
  | .vmin _ _ _ _ ty | .vmax _ _ _ _ ty => tyOk ty
  | .vminn _ _ _ _ ty | .vmaxn _ _ _ _ ty => tyIsF ty
  | .vabs _ _ _ ty | .vneg _ _ _ ty => tyOk ty
  | .vadds _ _ _ _ ty | .vsubs _ _ _ _ ty | .vand _ _ _ _ ty | .vor _ _ _ _ ty | .vxor _ _ _ _ ty => tyIsI ty
  | .vshl _ _ _ _ ty | .vshr _ _ _ _ ty | .vsar _ _ _ _ ty => tyIsI ty
  | .vshlImm _ _ c _ ty | .vshrImm _ _ c _ ty | .vsarImm _ _ c _ ty => tyIsI ty && decide (c.toNat < tyWidth ty)
  | .vcmp cc _ _ _ _ ty => tyOk ty && cc != 7#3 && (cc != 6#3 || tyIsF ty)
  | .vsel _ _ _ _ ty | .vclamp _ _ _ _ ty | .vperm _ _ _ _ ty => tyOk ty
  | .vmov _ _ _ ty | .vbcast _ _ _ ty => tyOk ty
  | .vext _ _ lane ty => tyOk ty && decide (lane.toNat < tyLanes ty)
  | .vrot _ _ cnt _ ty => tyOk ty && decide (cnt.toNat < tyLanes ty)
  | .vslide _ _ _ _ ty => tyOk ty
  | .vredAdd _ _ _ ty rm => rmOk ty rm
  | .vredMax _ _ _ ty | .vredMin _ _ _ ty => tyOk ty
  | .vcvt _ _ dst src _ rm _ => dst != src && (rm == 0#2 || !(cvtIsInt dst && cvtIsInt src))
  | .vpackSb _ a mw ty _ =>
    tyIsF ty && decide (2 ≤ mw.toNat) && decide (mw.toNat ≤ 8) && !(ty == 0#3 && decide (mw.toNat ≤ 5) && a.extractLsb' 0 6 == 63#6)
  | .vunpackSb d _ ty _ => tyIsF ty && !(ty == 0#3 && d.extractLsb' 0 6 == 63#6)
  | .lwt _ _ bt _ => decide (1 ≤ bt.toNat) && decide (bt.toNat ≤ 6)
  | .mma _ _ _ bt ty _ | .mmaz _ _ _ bt ty _ | .gmma _ _ _ bt ty _ => mmaTyOk ty && mmaBtOk ty bt
  | .accld _ _ cv _ _ | .accret _ _ cv _ _ => decide (cv.toNat < 8)
  | .tev _ _ fn ty _ => fn != 10#4 && fn != 11#4 && ty != 3#2
  | .skinitHh _ size _ => size != 3#2
  | .skinitDc _ size _ => decide (size.toNat < 2)
  | .send _ _ ln _ | .sendRel _ _ ln _ | .sendM _ _ ln _ | .sendr _ _ ln _ => ln != 0#9
  | .loop _ len mx | .loopP _ len mx | .loopW _ _ len mx => len != 0#10 && mx != 0#14
  | .loadImage _ _ list count => list.extractLsb' 0 4 == 0#4 && decide (1 ≤ count.toNat) && decide (count.toNat ≤ 6912)
  | .launchStart _ _ x0 y0 w h _ | .launchPost _ _ x0 y0 w h _ =>
    decide (x0.toNat < 96) && decide (y0.toNat < 72) && decide (w.toNat < 96) && decide (h.toNat < 72)
  | .stream _ _ _ _ len _ => len.extractLsb' 0 6 == 0#6 && decide (64 ≤ len.toNat)
  | .mapRangeEntry _ _ e w0 w1 _ => decide (e.toNat < 64) && w0.extractLsb' 0 12 == 0#12 && w1.extractLsb' 0 12 == 0#12
  | .mapTableRoot _ _ ta => ta.extractLsb' 0 12 == 0#12 && decide (ta.toNat < 6144000000000)
  | .checkpoint _ _ _ _ dlen _ count => dlen.extractLsb' 0 12 == 0#12 && decide (count.toNat ≤ 64)
  | .queryTileReport _ _ n _ _ | .queryRouterCounters _ _ n _ _ => nameOk n
  | .preempt _ _ n _ => nameOk n
  | .resume _ _ _ sc n => (sc == 0#8 && n == 0#32) || (sc == 1#8 && nameOk n)
  | .stepTile _ _ n name => decide (1 ≤ n.toNat) && decide (n.toNat ≤ 65535) && nameOk name
  | .stepWafer _ _ n => decide (1 ≤ n.toNat) && decide (n.toNat ≤ 65535)
  | .readState _ _ n sp c _ len _ =>
    nameOk n && decide (sp.toNat ≤ 7) && decide (c.toNat < 4) && len.extractLsb' 0 2 == 0#2 && decide (len.toNat ≤ 1048576)
  | .powerCap _ _ cap pt _ => decide (8000 ≤ cap.toNat) && decide (cap.toNat ≤ 28000) && decide (pt.toNat ≤ 4)
  | .powerRetentionEnter _ _ n | .powerRetentionExit _ _ n => nameOk n
  | .semaphoreAcquire _ _ w _ otmo =>
    decide (w.toNat < 16) && (if w == 0#8 then decide (1 ≤ otmo.toNat) && decide (otmo.toNat ≤ 3600) else otmo == 0#32)
  | .semaphoreRelease _ _ w _ | .semaphoreRead _ _ w _ => decide (w.toNat < 16)
  | .hdrLend .. | .hdrTree .. | .hdrRep .. => true
  | .add .. | .sub .. | .and .. | .or .. | .xor .. | .andn .. | .shl .. | .shr .. | .sar .. | .rol .. => true
  | .min .. | .max .. | .minu .. | .maxu .. | .adds .. | .subs .. | .mul .. | .mulh .. | .mulhu .. => true
  | .div .. | .divu .. | .rem .. | .remu .. | .abs .. | .clz .. | .popc .. => true
  | .extB .. | .extH .. | .extBu .. | .extHu .. | .sel .. | .addi .. | .andImm .. | .orImm .. | .xorImm .. | .andnImm .. => true
  | .movi .. | .movhi .. | .pand .. | .por .. | .pxor .. | .pnot .. => true
  | .fadd .. | .fsub .. | .fmul .. | .ffma .. | .fmin .. | .fmax .. | .fminn .. | .fmaxn .. => true
  | .fcvt .. | .fsgn .. | .fsgnN .. | .fsgnX .. => true
  | .ldB .. | .ldH .. | .ldW .. | .ldV .. | .stB .. | .stH .. | .stW .. | .stV .. | .ldDs .. | .stDs .. => true
  | .amoAdd .. | .amoMin .. | .amoMax .. | .amoSwap .. | .amoCas .. | .aaddImm .. | .aadd .. | .amovA .. | .amovS .. => true
  | .streamRd .. | .streamWr .. | .lease .. | .unlease | .accz .. | .amodeWrap | .amodeSat | .tld .. | .tcfg .. => true
  | .skinitQs .. | .skseed .. | .skfold .. | .skmerge .. | .skq .. | .skrank .. | .skcard .. | .sktop .. | .skld .. => true
  | .skst .. | .skclr .. | .cpyTd .. | .cpyDt .. | .cpyRedF32 .. | .cpyRedBf16 .. | .cpyRedI32 .. => true
  | .recvArm .. | .qpost .. | .qarm .. | .sideAdd .. | .sideRel .. | .decCfg .. | .barArr .. | .nxt .. | .route .. => true
  | .br .. | .call .. | .brC .. | .brTree .. | .ret | .brk .. | .dly .. | .nop | .wait .. | .barWait .. | .exit | .phase .. => true
  | .csrr _ n => csrAssigned n.toNat
  | .csrw _ n => csrAssigned n.toNat && !csrIx n.toNat
  | .trap .. | .tret | .tks .. | .tkr .. | .tkz .. | .tkp .. => true
  | .cycGl .. | .cycGh .. | .cycTl .. | .cycTh .. | .sig .. | .bkpt .. | .pwr .. | .ent .. => true
  | .crgadd .. | .crgclr | .mctlKill | .mctlSave | .mctlCont | .resultLanding | .deferredStart | .staticBankAccess
  | .asyncBankAccess | .leaseGrant | .leaseExpiry | .gangRowArrival | .summaryCommandStart | .summaryCommandComplete
  | .copyCommandStart | .copyComplete | .busLaneTest | .streamPiece | .streamComplete | .sendSourceRead | .leeExit
  | .fenceRelease | .headFlitRoute | .pairingWindowExpiry | .heldPacketFlush | .ringDeposit | .reduceDeposit
  | .directWrite | .contributionArrival | .reduceTargetCombine | .cqEntryFire | .acknowledgementArrival | .creditArrival
  | .caravanAccept | .caravanDecode | .coderAckArrival | .decCfgTakesEffect | .launchDelivery | .triggerFire
  | .taskDispatch | .coreIdle | .nodeComplete | .successorDecrement | .barrierRelease | .gangBarrierRelease
  | .deadlineFault | .trapEntry | .preemptRequest | .preemptOverrun | .contextSave | .seal | .tileCheckpoint
  | .strikeReport | .replayEnd | .undoFreezeEnd | .correctedWriteback | .taskReplay | .jobRestore | .migration
  | .overlayApply | .retentionExit | .balanceWindow | .freezeEnd | .powerWindow | .electricalLimit | .markConsidered
  | .clockChange | .energyUpdate | .boot | .ownershipTimeout | .scrubEnd | .domainHalt | .domainResume | .stepEnd => true
  | .mapInvalidate .. | .queryModuleState .. | .queryMirage .. | .queryEnergy .. | .queryDebugChallenge .. => true
  | .queryOpticalPorts .. | .restore .. | .haltAt .. | .powerDebugOpen .. | .powerDebugClose .. | .attest .. | .scrub .. => true
  | .badOpcode .. => true

end Instr
end Sys2Proof
end

