-- ==== Sys2Proof/Decode.lean ====
section
/-! DEFINITION. The decoder and the encoder, written from the format tables of R36 to R87: slot words with their lent bits, headers,
the legality of a bundle (R39 to R50), repeat stepping (R68). -/

namespace Sys2Proof

/-- Outcome of decoding one slot: its instruction, or which of the two decode faults its bits raise (R44, R86). -/
inductive SlotDecode where
  | ok (i : Instr)
  | illegalBundle
  | illegalInstruction
  deriving DecidableEq, Repr

/-- Bits lo to lo+n-1 of a body. -/
abbrev fld (b : BitVec 21) (lo n : Nat) : BitVec n := b.extractLsb' lo n

/-- One bit of a body. -/
abbrev bit (b : BitVec 21) (k : Nat) : Bool := b.getLsbD k

/-- An unsigned field: lent bits above body bits (R67). -/
abbrev lendU {nl nb : Nat} (l : BitVec nl) (b : BitVec nb) : BitVec (nl + nb) := l ++ b

/-- A signed field: the lent bits say how it differs from its sign-extended body (R67). -/
def lendS (nl : Nat) {nb : Nat} (l : BitVec nl) (b : BitVec nb) : BitVec (nl + nb) := b.signExtend (nl + nb) ^^^ (l ++ 0#nb)

/-- The lent bits of a signed field's value. -/
def lentOf (nl : Nat) (nb : Nat) (v : BitVec (nl + nb)) : BitVec nl :=
  (v ^^^ (v.extractLsb' 0 nb).signExtend (nl + nb)).extractLsb' nb nl

/-- The instruction when its fixed fields stand as the format has them. -/
def ck (c : Bool) (i : Instr) : Option Instr := if c then some i else none

/-- Low lent bits of L. -/
abbrev lb (l : BitVec 9) (lo n : Nat) : BitVec n := l.extractLsb' lo n

/-- A vector register number: lent bit 6 above the body field (R74). -/
abbrev vreg (l : BitVec 9) (k : Nat) (b : BitVec 6) : BitVec 7 := lb l k 1 ++ b

/-- S kind (R69 to R71). -/
def decodeS (m : Nat) (b : BitVec 21) (l : BitVec 9) : Option Instr :=
  let d := fld b 15 6; let a := fld b 9 6; let c := fld b 3 6; let mn := fld b 0 3; let rm := fld b 0 2
  let mn0 := mn == 0#3
  let b0 := mn0 && c == 0#6
  let i18 := lendS 9 l (fld b 0 9)
  let pd := fld b 18 3; let cc := fld b 15 3
  let sp0 := fld b 0 3 == 0#3
  -- predicate logic: PA in A[14:12], PB in B[8:6], the rest of A, B and CC zero
  let lg := fld b 15 3 == 0#3 && fld b 9 3 == 0#3 && fld b 3 3 == 0#3 && fld b 0 1 == 0#1
  let pa := fld b 12 3; let pb := fld b 6 3; let na := bit b 2; let nb := bit b 1
  let m2 := !bit b 2
  match m with
  | 0x00 => ck mn0 (.add d a c) | 0x01 => ck mn0 (.sub d a c) | 0x02 => ck mn0 (.and d a c) | 0x03 => ck mn0 (.or d a c)
  | 0x04 => ck mn0 (.xor d a c) | 0x05 => ck mn0 (.andn d a c) | 0x06 => ck mn0 (.shl d a c) | 0x07 => ck mn0 (.shr d a c)
  | 0x08 => ck mn0 (.sar d a c) | 0x09 => ck mn0 (.rol d a c) | 0x0A => ck mn0 (.min d a c) | 0x0B => ck mn0 (.max d a c)
  | 0x0C => ck mn0 (.minu d a c) | 0x0D => ck mn0 (.maxu d a c) | 0x0E => ck mn0 (.adds d a c) | 0x0F => ck mn0 (.subs d a c)
  | 0x10 => ck mn0 (.mul d a c) | 0x11 => ck mn0 (.mulh d a c) | 0x12 => ck mn0 (.mulhu d a c) | 0x13 => ck mn0 (.div d a c)
  | 0x14 => ck mn0 (.divu d a c) | 0x15 => ck mn0 (.rem d a c) | 0x16 => ck mn0 (.remu d a c)
  | 0x17 => ck b0 (.abs d a) | 0x18 => ck b0 (.clz d a) | 0x19 => ck b0 (.popc d a)
  | 0x1A =>
    if c == 0#6 then
      (if mn == 0#3 then some (.extB d a) else if mn == 1#3 then some (.extH d a)
       else if mn == 2#3 then some (.extBu d a) else if mn == 3#3 then some (.extHu d a) else none)
    else none
  | 0x1B => some (.sel d a c mn)
  | 0x20 => some (.addi d a i18) | 0x21 => some (.andImm d a i18) | 0x22 => some (.orImm d a i18) | 0x23 => some (.xorImm d a i18)
  | 0x24 => some (.andnImm d a i18) | 0x25 => some (.shlImm d a i18) | 0x26 => some (.shrImm d a i18)
  | 0x27 => some (.sarImm d a i18) | 0x28 => some (.rolImm d a i18)
  | 0x2C => some (.movi d (lendS 9 l (fld b 0 15)))
  | 0x2D => some (.movhi d (lendU (lb l 0 1) (fld b 0 15)))
  | 0x2E => ck sp0 (.cmp pd cc a c)
  | 0x2F => ck sp0 (.cmpImm pd cc a (lendS 9 l c))
  | 0x30 => ck lg (.pand pd pa pb na nb) | 0x31 => ck lg (.por pd pa pb na nb) | 0x32 => ck lg (.pxor pd pa pb na nb)
  | 0x33 => ck (lg && pb == 0#3 && !nb) (.pnot pd pa na)
  | 0x34 => ck m2 (.fadd d a c rm) | 0x35 => ck m2 (.fsub d a c rm) | 0x36 => ck m2 (.fmul d a c rm)
  | 0x37 => ck m2 (.ffma d a c (lb l 0 6) rm)
  | 0x38 => ck mn0 (.fmin d a c) | 0x39 => ck mn0 (.fmax d a c) | 0x3A => ck mn0 (.fminn d a c) | 0x3B => ck mn0 (.fmaxn d a c)
  | 0x3C => ck sp0 (.fcmp pd cc a c)
  | 0x3D => ck (m2 && fld b 6 3 == 0#3) (.fcvt d a (fld b 3 3) rm)
  | 0x3E => if mn == 0#3 then some (.fsgn d a c) else if mn == 1#3 then some (.fsgnN d a c)
            else if mn == 2#3 then some (.fsgnX d a c) else none
  | _ => none

/-- A kind (R72, R73). -/
def decodeA (m : Nat) (b : BitVec 21) (l : BitVec 9) : Option Instr :=
  let ar := fld b 17 4; let pi := bit b 16
  let off24 := lendS 8 (lb l 0 8) (fld b 0 16)
  let v := vreg l 0 (fld b 10 6); let off18 := lendS 8 (lb l 1 8) (fld b 0 10)
  let s := fld b 11 6; let c := fld b 5 6; let off14 := lendS 9 l (fld b 0 5); let c0 := c == 0#6
  let aa := fld b 13 4
  match m with
  | 0x00 => some (.ldB ar pi off24) | 0x01 => some (.ldH ar pi off24) | 0x02 => some (.ldW ar pi off24) | 0x03 => some (.ldV ar pi off24)
  | 0x04 => some (.stB ar pi off24) | 0x05 => some (.stH ar pi off24) | 0x06 => some (.stW ar pi off24) | 0x07 => some (.stV ar pi off24)
  | 0x08 => some (.ldDs v ar pi off18) | 0x09 => some (.stDs v ar pi off18)
  | 0x0A => ck c0 (.amoAdd ar s off14) | 0x0B => ck c0 (.amoMin ar s off14) | 0x0C => ck c0 (.amoMax ar s off14)
  | 0x0D => ck c0 (.amoSwap ar s off14) | 0x0E => some (.amoCas ar s c off14)
  | 0x10 => some (.aaddImm ar aa (lendS 9 l (fld b 0 13)))
  | 0x11 => ck (fld b 0 7 == 0#7) (.aadd ar aa (fld b 7 6))
  | 0x12 => ck (fld b 0 7 == 0#7 && aa == 0#4) (.amovA ar (fld b 7 6))
  | 0x13 => ck (fld b 0 11 == 0#11) (.amovS (fld b 15 6) (fld b 11 4))
  | 0x14 => some (.streamRd (fld b 16 5) (fld b 12 4) (fld b 0 12) l)
  | 0x15 => some (.streamWr (fld b 16 5) (fld b 12 4) (fld b 0 12) l)
  | _ => none

/-- V kind (R74 to R76). A RM outside the rounding instructions is an illegal instruction. -/
def decodeV (m : Nat) (b : BitVec 21) (l : BitVec 9) : Option Instr :=
  let d6 := fld b 15 6; let a6 := fld b 9 6; let b6 := fld b 3 6; let mk := fld b 0 3
  let d := vreg l 0 d6; let a := vreg l 1 a6; let c := vreg l 2 b6
  let rm := lb l 3 2; let ty := lb l 5 3
  let r0 := rm == 0#2; let bz := b6 == 0#6; let mz := mk == 0#3
  match m with
  | 0x00 => some (.vadd d a c mk ty rm) | 0x01 => some (.vsub d a c mk ty rm) | 0x02 => some (.vmul d a c mk ty rm)
  | 0x03 => some (.vfma d a c mk ty rm) | 0x04 => some (.vfms d a c mk ty rm)
  | 0x05 => ck r0 (.vmin d a c mk ty) | 0x06 => ck r0 (.vmax d a c mk ty) | 0x07 => ck r0 (.vminn d a c mk ty) | 0x08 => ck r0 (.vmaxn d a c mk ty)
  | 0x09 => ck (r0 && bz) (.vabs d a mk ty) | 0x0A => ck (r0 && bz) (.vneg d a mk ty)
  | 0x0B => ck r0 (.vadds d a c mk ty) | 0x0C => ck r0 (.vsubs d a c mk ty)
  | 0x0D => ck r0 (.vand d a c mk ty) | 0x0E => ck r0 (.vor d a c mk ty) | 0x0F => ck r0 (.vxor d a c mk ty)
  | 0x10 => ck r0 (.vshl d a c mk ty) | 0x11 => ck r0 (.vshr d a c mk ty) | 0x12 => ck r0 (.vsar d a c mk ty)
  | 0x13 => ck r0 (.vshlImm d a b6 mk ty) | 0x14 => ck r0 (.vshrImm d a b6 mk ty) | 0x15 => ck r0 (.vsarImm d a b6 mk ty)
  | 0x16 => ck r0 (.vcmp (fld b 18 3) (fld b 15 3) a c mk ty)
  | 0x17 => ck r0 (.vsel d a c mk ty)
  | 0x18 => ck r0 (.vclamp d a6 b6 mk ty)
  | 0x19 => ck (r0 && bz) (.vmov d a mk ty)
  | 0x1A => ck (r0 && bz) (.vbcast d a6 mk ty)
  | 0x1B => ck (r0 && mz) (.vext d6 a c ty)
  | 0x1C => ck r0 (.vperm d a c mk ty) | 0x1D => ck r0 (.vrot d a c mk ty) | 0x1E => ck r0 (.vslide d a c mk ty)
  | 0x1F => ck bz (.vredAdd d6 a mk ty rm) | 0x20 => ck (r0 && bz) (.vredMax d6 a mk ty) | 0x21 => ck (r0 && bz) (.vredMin d6 a mk ty)
  | 0x22 => some (.vcvt d a (fld b 6 3) (fld b 3 3) mk rm (l.getLsbD 8))
  | 0x23 => ck mz (.vpackSb d a b6 ty rm)
  | 0x24 => ck (mz && bz) (.vunpackSb d a ty rm)
  | _ => none

/-- M kind (R77). -/
def decodeM (m : Nat) (b : BitVec 21) (l : BitVec 9) : Option Instr :=
  let acc := bit b 20
  let w := fld b 18 2; let ar := fld b 14 4; let bt := fld b 7 7; let ty := fld b 3 4; let z3 := fld b 0 3 == 0#3
  match m with
  | 0x00 => ck (fld b 0 16 == 0#16) (.lease (fld b 16 5))
  | 0x01 => ck (b == 0#21) .unlease
  | 0x02 => ck (fld b 0 8 == 0#8) (.lwt (fld b 19 2) (fld b 15 4) (fld b 8 7) l)
  | 0x03 => ck z3 (.mma acc w ar bt ty l) | 0x04 => ck z3 (.mmaz acc w ar bt ty l) | 0x05 => ck z3 (.gmma acc w ar bt ty l)
  | 0x06 => ck (fld b 0 20 == 0#20) (.accz acc)
  | 0x07 => ck (fld b 0 6 == 0#6) (.accld acc (fld b 16 4) (fld b 12 4) (fld b 6 6) l)
  | 0x08 => ck (fld b 0 6 == 0#6) (.accret acc (fld b 16 4) (fld b 12 4) (fld b 6 6) l)
  | 0x09 => ck (fld b 0 20 == 0#20) (if acc then .amodeSat else .amodeWrap)
  | _ => none

/-- E kind (R79, R80). -/
def decodeE (m : Nat) (b : BitVec 21) (l : BitVec 9) : Option Instr :=
  let z := fld b 18 3; let k := fld b 13 5; let x := fld b 7 6; let y := fld b 1 6; let o := fld b 0 1 == 0#1
  let z0 := z == 0#3; let x0 := x == 0#6; let y0 := y == 0#6
  let xz := x.extractLsb' 0 2 == 0#2; let xa := x.extractLsb' 0 4; let xa0 := x.extractLsb' 4 2 == 0#2
  let size := x.extractLsb' 2 2
  let ck' := fld b 16 5; let ad := fld b 12 4; let asr := fld b 8 4; let ln := fld b 2 6; let dt := bit b 1
  match m with
  | 0x00 => some (.tev (vreg l 0 (fld b 15 6)) (vreg l 1 (fld b 9 6)) (fld b 5 4) (fld b 3 2) (fld b 0 3))
  | 0x01 => ck (fld b 0 10 == 0#10) (.tld (fld b 19 2) (fld b 15 4) (fld b 10 5))
  | 0x02 => ck (fld b 0 13 == 0#13) (.tcfg (fld b 19 2) (fld b 13 6))
  | 0x10 =>
    if o && y0 && xz then
      (if x.extractLsb' 4 2 == 1#2 then some (.skinitQs z size k) else if x.extractLsb' 4 2 == 2#2 then some (.skinitHh z size k)
       else if x.extractLsb' 4 2 == 3#2 then some (.skinitDc z size k) else none)
    else none
  | 0x11 => ck (o && z0 && y0) (.skseed x k)
  | 0x12 => ck (o && y.extractLsb' 3 3 == 0#3) (.skfold z (vreg l 0 x) (y.extractLsb' 0 3) k)
  | 0x13 => ck (o && x0 && y.extractLsb' 3 3 == 0#3) (.skmerge z (y.extractLsb' 0 3) k)
  | 0x14 => ck o (.skq x z y k) | 0x15 => ck o (.skrank x z y k)
  | 0x16 => ck (o && y0) (.skcard x z k)
  | 0x17 => ck (o && y0 && xa0) (.sktop z xa k) | 0x18 => ck (o && y0 && xa0) (.skld z xa k) | 0x19 => ck (o && y0 && xa0) (.skst z xa k)
  | 0x1A => ck (o && x0 && y0) (.skclr z k)
  | 0x20 => ck o (if dt then .cpyDt ck' ad asr ln l else .cpyTd ck' ad asr ln l)
  | 0x21 => ck o (.cpyRedF32 ck' ad asr ln dt l) | 0x22 => ck o (.cpyRedBf16 ck' ad asr ln dt l) | 0x23 => ck o (.cpyRedI32 ck' ad asr ln dt l)
  | _ => none

/-- N kind (R81). A group number above 63 is an illegal instruction. -/
def decodeN (m : Nat) (b : BitVec 21) (l : BitVec 9) : Option Instr :=
  let ch := fld b 13 8; let ar := fld b 9 4; let ln := fld b 0 9
  match m with
  | 0x00 => some (.send ch ar ln l) | 0x01 => some (.sendRel ch ar ln l)
  | 0x02 => ck (fld b 19 2 == 0#2) (.sendM (fld b 13 6) ar ln l)
  | 0x03 => some (.sendr ch ar ln l)
  | 0x04 => ck (fld b 0 7 == 0#7) (.recvArm ch (fld b 7 6))
  | 0x05 => ck (fld b 0 13 == 0#13) (.qpost ch)
  | 0x06 => ck (fld b 0 2 == 0#2) (.qarm ch (fld b 8 5) (fld b 2 6))
  | 0x07 => ck (fld b 0 5 == 0#5) (.sideAdd (fld b 15 6) (fld b 11 4) (fld b 5 6))
  | 0x08 => ck (fld b 0 15 == 0#15) (.sideRel (fld b 15 6))
  | 0x09 => ck (fld b 0 17 == 0#17) (.decCfg (fld b 17 4))
  | 0x0A => ck (fld b 0 15 == 0#15) (.barArr (fld b 15 6))
  | 0x0B => ck (fld b 0 15 == 0#15) (.nxt (fld b 15 6))
  | 0x0C => ck (fld b 0 7 == 0#7) (.route (fld b 19 2) (fld b 13 6) (fld b 7 6))
  | _ => none

/-- C kind (R82). -/
def decodeC (m : Nat) (b : BitVec 21) (l : BitVec 9) : Option Instr :=
  let n := bit b 20; let p := fld b 17 3
  let off24 := lendS 3 (lb l 0 3) b
  let len := fld b 5 10; let mx := lendU l (fld b 0 5)
  match m with
  | 0x00 => some (.br off24)
  | 0x01 => some (.brC n p (lendS 7 (lb l 0 7) (fld b 0 17)))
  | 0x02 => some (.brTree b)
  | 0x03 => some (.call off24)
  | 0x04 => ck (b == 0#21) .ret
  | 0x05 => some (.loop (fld b 15 6) len mx)
  | 0x06 => ck (fld b 15 2 == 0#2) (.loopW n p len mx)
  | 0x07 => some (.loopP (fld b 15 6) len mx)
  | 0x08 => ck (fld b 0 17 == 0#17) (.brk n p)
  | 0x09 => ck (fld b 16 5 == 0#5) (.dly (fld b 0 16))
  | 0x0A => ck (b == 0#21) .nop
  | 0x0B => some (.wait (fld b 16 5) (fld b 0 16))
  | 0x0C => ck (fld b 0 15 == 0#15) (.barWait (fld b 15 6))
  | 0x0D => ck (b == 0#21) .exit
  | 0x0E => ck (fld b 8 13 == 0#13) (.phase (fld b 0 8))
  | _ => none

/-- Y kind (R83). -/
def decodeY (m : Nat) (b : BitVec 21) (_l : BitVec 9) : Option Instr :=
  let d := fld b 15 6; let k := fld b 16 5
  match m with
  | 0x00 => ck (fld b 12 3 == 0#3) (.csrr d (fld b 0 12))
  | 0x01 => ck (fld b 12 3 == 0#3) (.csrw d (fld b 0 12))
  | 0x02 => ck (fld b 8 13 == 0#13) (.trap (fld b 0 8))
  | 0x03 => ck (b == 0#21) .tret
  | 0x04 => ck (fld b 0 10 == 0#10) (.tks k (fld b 10 6))
  | 0x05 => ck (fld b 0 10 == 0#10) (.tkr k (fld b 10 6))
  | 0x06 => ck (fld b 0 16 == 0#16) (.tkz k)
  | 0x07 => some (.tkp k (fld b 0 16))
  | 0x08 =>
    if fld b 2 13 == 0#13 then
      (if fld b 0 2 == 0#2 then some (.cycGl d) else if fld b 0 2 == 1#2 then some (.cycGh d)
       else if fld b 0 2 == 2#2 then some (.cycTl d) else some (.cycTh d))
    else none
  | 0x09 => ck (fld b 16 5 == 0#5) (.sig (fld b 0 16))
  | 0x0A => ck (fld b 8 13 == 0#13) (.bkpt (fld b 0 8))
  | 0x0B => ck (fld b 4 17 == 0#17) (.pwr (fld b 0 4))
  | 0x0C => ck (fld b 0 15 == 0#15) (.ent d)
  | _ => none

/-- The lent bits a slot's format consumes, as a mask over L (R69 to R83). A reserved major consumes none (R44). -/
def lentMask (kind m : Nat) : BitVec 9 :=
  match kind with
  | 0 => if (0x20 ≤ m && m ≤ 0x28) || m == 0x2C || m == 0x2F then 0x1FF#9 else if m == 0x2D then 1#9 else if m == 0x37 then 0x3F#9 else 0#9
  | 1 => if m ≤ 7 then 0xFF#9 else if m == 0x0F then 0#9 else if m ≤ 0x10 then 0x1FF#9 else if m == 0x14 || m == 0x15 then 0x1FF#9 else 0#9
  | 2 =>
    if m ≤ 8 || (0x0B ≤ m && m ≤ 0x12) || m == 0x17 || m == 0x1C || m == 0x1D || m == 0x1E then 0xFF#9      -- L0, L1, L2, RM, TY
    else if m == 0x09 || m == 0x0A || (0x13 ≤ m && m ≤ 0x15) || m == 0x19 || m == 0x23 || m == 0x24 then 0xFB#9
    else if m == 0x16 || m == 0x1B then 0xFE#9
    else if m == 0x18 || m == 0x1A then 0xF9#9
    else if m == 0x1F || m == 0x20 || m == 0x21 then 0xFA#9
    else if m == 0x22 then 0x11B#9
    else 0#9
  | 3 => if (2 ≤ m && m ≤ 5) || m == 7 || m == 8 then 0x1FF#9 else 0#9
  | 4 => if m == 0 then 3#9 else if m == 0x12 then 1#9 else if 0x20 ≤ m && m ≤ 0x23 then 0x1FF#9 else 0#9
  | 5 => if m ≤ 3 then 0x1FF#9 else 0#9
  | 6 => if m == 0 || m == 3 then 7#9 else if m == 1 then 0x7F#9 else if 5 ≤ m && m ≤ 7 then 0x1FF#9 else 0#9
  | _ => 0#9

/-- KIND of a slot word (R36). -/
def kindOf (w : BitVec 32) : Nat := (w.extractLsb' 27 3).toNat

/-- MAJ of a slot word (R66). -/
def majOf (w : BitVec 32) : Nat := (w.extractLsb' 21 6).toNat

/-- The instruction that a slot's bits hold, before the operand rules. -/
def decodeBody (w : BitVec 32) (l : BitVec 9) : Option Instr :=
  let b := w.extractLsb' 0 21
  match kindOf w with
  | 0 => decodeS (majOf w) b l | 1 => decodeA (majOf w) b l | 2 => decodeV (majOf w) b l | 3 => decodeM (majOf w) b l
  | 4 => decodeE (majOf w) b l | 5 => decodeN (majOf w) b l | 6 => decodeC (majOf w) b l | _ => decodeY (majOf w) b l

/-- Decodes a slot word with its lent bits. The stop bit is no part of the instruction. -/
def decodeSlot (w : BitVec 32) (l : BitVec 9) : SlotDecode :=
  if l &&& ~~~lentMask (kindOf w) (majOf w) != 0#9 then .illegalBundle
  else match decodeBody w l with
    | some i => if i.wf then .ok i else .illegalInstruction
    | none => .illegalInstruction

/-- Decodes a header word (R43, R45, R48). `none` is an illegal bundle. -/
def decodeHeader (w : BitVec 32) : Option Instr :=
  if w.getLsbD 31 || !w.getLsbD 30 then none
  else if w.extractLsb' 28 2 == 0#2 then
    (if w.getLsbD 27 then none else some (.hdrLend (w.extractLsb' 18 9) (w.extractLsb' 9 9) (w.extractLsb' 0 9)))
  else if w.extractLsb' 28 2 == 1#2 then
    some (.hdrTree (w.getLsbD 27) (w.extractLsb' 24 3) (w.getLsbD 23) (w.extractLsb' 20 3) (w.getLsbD 19) (w.extractLsb' 16 3)
      (w.getLsbD 15) (w.extractLsb' 12 3) (w.extractLsb' 8 4) (w.extractLsb' 4 4) (w.extractLsb' 0 4))
  else if w.extractLsb' 28 2 == 2#2 then
    (if w.extractLsb' 0 10 == 0#10 then
      some (.hdrRep (w.extractLsb' 22 6) (w.extractLsb' 18 4) (w.extractLsb' 14 4) (w.extractLsb' 10 4)) else none)
  else none

/-- The table's numbering: one 32-bit word, lent bits zero. A header is read as a header. -/
def decodeTableWord (nbits w : Nat) : Option Instr :=
  if nbits = 32 then
    let x := BitVec.ofNat 32 w
    if x.getLsbD 30 then decodeHeader x else match decodeSlot x 0#9 with | .ok i => some i | _ => none
  else none

/-! ### Bundles -/

/-- An instruction slot of a bundle: its position 2 to 4 (1 to 4 without a header), its word and its lent bits. -/
structure Slot where
  pos : Nat
  word : BitVec 32
  lent : BitVec 9
  deriving DecidableEq, Repr

/-- A legal bundle: its header if any, and its instruction slots. -/
structure Bundle where
  hdr : Option Instr
  slots : List Slot
  deriving DecidableEq, Repr

/-- The instruction slots without a header are numbered from 1. -/
def numberSlots (pos : Nat) (lents : List (BitVec 9)) : List (BitVec 32) → List Slot
  | [] => []
  | w :: r => ⟨pos, w, lents.headD 0#9⟩ :: numberSlots (pos + 1) lents.tail r

/-- A scalar FP slot: S kind, majors 0x34 to 0x3E (R70). -/
def isScalarFp (w : BitVec 32) : Bool := kindOf w == 0 && decide (0x34 ≤ majOf w) && decide (majOf w ≤ 0x3E)

/-- Kinds do not decrease (R39). -/
def kindsRise : List (BitVec 32) → Bool
  | w :: x :: r => decide (kindOf w ≤ kindOf x) && kindsRise (x :: r)
  | _ => true

/-- At most two S slots, one of them scalar FP, and at most one slot of each other kind (R39). -/
def slotCounts (ws : List (BitVec 32)) : Bool :=
  decide ((ws.filter fun w => kindOf w == 0).length ≤ 2) && decide ((ws.filter isScalarFp).length ≤ 1) &&
  [1, 2, 3, 4, 5, 6, 7].all fun k => decide ((ws.filter fun w => kindOf w == k).length ≤ 1)

/-- A field of a slot word that a repeat may step: lowest bit, width, numbers in its file, whether it is a vector register. -/
structure StepField where
  lo : Nat
  len : Nat
  file : Nat
  vec : Option Nat
  deriving DecidableEq, Repr

/-- The steppable fields d, a, b of a format (R68, R69, R72, R74, R79; log 24 for a field that holds no register). -/
def stepFields (kind m : Nat) : Option StepField × Option StepField × Option StepField :=
  let s (lo : Nat) : Option StepField := some ⟨lo, 6, 64, none⟩
  let p (lo : Nat) : Option StepField := some ⟨lo, 3, 8, none⟩
  let a (lo : Nat) : Option StepField := some ⟨lo, 4, 16, none⟩
  let v (lo k : Nat) : Option StepField := some ⟨lo, 6, 128, some k⟩
  match kind with
  | 0 =>
    if m ≤ 0x1B || (0x34 ≤ m && m ≤ 0x3B) || m == 0x3E then (s 15, s 9, s 3)
    else if (0x20 ≤ m && m ≤ 0x28) || m == 0x3D then (s 15, s 9, none)
    else if m == 0x2C || m == 0x2D then (s 15, none, none)
    else if m == 0x2E || m == 0x3C then (p 18, s 9, s 3)
    else if m == 0x2F then (p 18, s 9, none)
    else if 0x30 ≤ m && m ≤ 0x33 then (p 18, p 12, p 6)
    else (none, none, none)
  | 1 =>
    if m ≤ 7 then (a 17, none, none)
    else if m == 8 || m == 9 then (v 10 0, a 17, none)
    else if 0x0A ≤ m && m ≤ 0x0E then (a 17, s 11, s 5)
    else if m == 0x10 then (a 17, a 13, none)
    else if m == 0x11 || m == 0x12 then (a 17, a 13, s 7)
    else if m == 0x13 then (s 15, a 11, none)
    else if m == 0x14 || m == 0x15 then (a 12, none, none)
    else (none, none, none)
  | 2 =>
    if m ≤ 8 || (0x0B ≤ m && m ≤ 0x12) || m == 0x17 || m == 0x1C || m == 0x1E then (v 15 0, v 9 1, v 3 2)
    else if m == 0x09 || m == 0x0A || (0x13 ≤ m && m ≤ 0x15) || m == 0x19 || (0x22 ≤ m && m ≤ 0x24) || m == 0x1D then (v 15 0, v 9 1, none)
    else if m == 0x16 then (p 15, v 9 1, v 3 2)
    else if m == 0x18 then (v 15 0, s 9, s 3)
    else if m == 0x1A then (v 15 0, s 9, none)
    else if m == 0x1B || (0x1F ≤ m && m ≤ 0x21) then (s 15, v 9 1, none)
    else (none, none, none)
  | 4 =>
    if m == 0 then (v 15 0, v 9 1, none)
    else if m == 0x10 || m == 0x13 || m == 0x1A then (p 18, none, none)
    else if m == 0x11 then (none, s 7, none)
    else if m == 0x12 then (p 18, v 7 0, none)
    else if 0x14 ≤ m && m ≤ 0x16 then (p 18, s 7, none)
    else if 0x17 ≤ m && m ≤ 0x19 then (p 18, a 7, none)
    else (none, none, none)
  | _ => (none, none, none)

/-- The stride a step field names: bit 0 is 0 for 1, 1 for 2 (R48). -/
def strideOf (st : BitVec 4) : Nat := if st.getLsbD 0 then 2 else 1

/-- The register number a field holds. -/
def fieldNum (w : BitVec 32) (f : StepField) : Nat := (w.toNat / 2 ^ f.lo) % 2 ^ f.len

/-- A set step bit names a field, and its number stays within its file at the last repetition (R50). -/
def stepOk (w : BitVec 32) (f : Option StepField) (set : Bool) (stride last : Nat) : Bool :=
  !set || (match f with | none => false | some f => decide (fieldNum w f + last * stride < f.file))

/-- The step rules of one slot of a repeat bundle (R50). -/
def slotStepOk (w : BitVec 32) (st : BitVec 4) (cnt : BitVec 6) : Bool :=
  let f := stepFields (kindOf w) (majOf w); let s := strideOf st; let n := cnt.toNat
  stepOk w f.1 (st.getLsbD 3) s n && stepOk w f.2.1 (st.getLsbD 2) s n && stepOk w f.2.2 (st.getLsbD 1) s n

/-- A slot with one field stepped to repetition j. A vector number past 63 sets its lent bit (R49, R50). -/
def stepField (sl : Slot) (f : Option StepField) (set : Bool) (d : Nat) : Slot :=
  match f with
  | some f =>
    if set then
      let n := fieldNum sl.word f + d
      let w := (sl.word.toNat - (fieldNum sl.word f) * 2 ^ f.lo) + (n % 2 ^ f.len) * 2 ^ f.lo
      { sl with word := BitVec.ofNat 32 w
                lent := match f.vec with | some k => (if 64 ≤ n then sl.lent ||| (1#9 <<< k) else sl.lent) | none => sl.lent }
    else sl
  | none => sl

/-- The steppable fields that a form reads. The B of abs, clz, popc, ext and pnot, the C of an atomic other than amo.cas and the AA of
amov ad, s are 0 and unread (R70, R73). -/
def readFields (kind m : Nat) : Option StepField × Option StepField × Option StepField :=
  let f := stepFields kind m
  if kind == 0 && ((0x17 ≤ m && m ≤ 0x1A) || m == 0x33) || kind == 1 && 0x0A ≤ m && m ≤ 0x0D then (f.1, f.2.1, none)
  else if kind == 1 && m == 0x12 then (f.1, none, f.2.2) else f

/-- A slot as repetition j reads it (R49). -/
def stepSlot (sl : Slot) (st : BitVec 4) (j : Nat) : Slot :=
  let f := readFields (kindOf sl.word) (majOf sl.word); let d := j * strideOf st
  stepField (stepField (stepField sl f.1 (st.getLsbD 3) d) f.2.1 (st.getLsbD 2) d) f.2.2 (st.getLsbD 1) d

/-- An absent slot's field is zero (R44, R47, R50). -/
def absentZero {n : Nat} (present : Nat) (x2 x3 x4 : BitVec n) : Bool :=
  (decide (1 ≤ present) || x2 == 0#n) && (decide (2 ≤ present) || x3 == 0#n) && (decide (3 ≤ present) || x4 == 0#n)

/-- The words of a bundle that do not depend on a header (R39, R40). -/
def wordsLegal (ws : List (BitVec 32)) : Bool := kindsRise ws && slotCounts ws && ws.all fun w => !w.getLsbD 30

/-- The words of one bundle, up to its stop bit: the bundle, or `none` for an illegal bundle (R39 to R50). -/
def decodeBundle (ws : List (BitVec 32)) : Option Bundle :=
  if decide (ws.length = 0) || decide (4 < ws.length) || !((ws.getLast?.map fun w => w.getLsbD 31) == some true)
      || (ws.dropLast.any fun w => w.getLsbD 31) then none
  else match ws with
    | [] => none
    | h :: r =>
      if h.getLsbD 30 then
        if r.isEmpty || !wordsLegal r then none
        else match decodeHeader h with
          | some (.hdrLend l2 l3 l4) =>
            let sl := numberSlots 2 [l2, l3, l4] r
            if absentZero r.length l2 l3 l4 && sl.all (fun s => s.lent &&& ~~~lentMask (kindOf s.word) (majOf s.word) == 0#9)
            then some ⟨some (.hdrLend l2 l3 l4), sl⟩ else none
          | some (.hdrTree n0 p0 n1 p1 n2 p2 n3 p3 s2 s3 s4) =>
            let ls := [s2, s3, s4]
            let treeOk := (r.zip ls).any fun x => kindOf x.1 == 6 && majOf x.1 == 2 && x.2 == 0#4
            if absentZero r.length s2 s3 s4 && treeOk then
              some ⟨some (.hdrTree n0 p0 n1 p1 n2 p2 n3 p3 s2 s3 s4), numberSlots 2 [] r⟩ else none
          | some (.hdrRep cnt t2 t3 t4) =>
            if absentZero r.length t2 t3 t4 && r.all (fun w => decide (kindOf w ≠ 6) && decide (kindOf w ≠ 7))
              && (r.zip [t2, t3, t4]).all (fun x => slotStepOk x.1 x.2 cnt)
            then some ⟨some (.hdrRep cnt t2 t3 t4), numberSlots 2 [] r⟩ else none
          | _ => none
      else if wordsLegal (h :: r) then some ⟨none, numberSlots 1 [] (h :: r)⟩ else none

/-- The leaves a leaf-set code names (R46, R85). -/
def leafSet (code : BitVec 4) : List Nat :=
  match code.toNat with
  | 0 => [0, 1, 2, 3, 4] | 1 => [0] | 2 => [1] | 3 => [2] | 4 => [3] | 5 => [4] | 6 => [1, 2, 3, 4] | 7 => [0, 2, 3, 4]
  | 8 => [0, 1, 3, 4] | 9 => [0, 1, 2, 4] | 10 => [0, 1, 2, 3] | 11 => [0, 1] | 12 => [0, 1, 2] | 13 => [2, 3, 4]
  | 14 => [3, 4] | _ => [1, 3]

/-- The leaf-set code a tree header gives the slot at a position (R45). -/
def leafCodeAt (h : Option Instr) (pos : Nat) : BitVec 4 :=
  match h with
  | some (.hdrTree _ _ _ _ _ _ _ _ s2 s3 s4) => if pos = 2 then s2 else if pos = 3 then s3 else s4
  | _ => 0#4

/-- The step field a repeat header gives the slot at a position (R48). -/
def stepCodeAt (h : Instr) (pos : Nat) : BitVec 4 :=
  match h with
  | .hdrRep _ s2 s3 s4 => if pos = 2 then s2 else if pos = 3 then s3 else s4
  | _ => 0#4

/-! ### The encoder -/

/-- A slot word with its stop bit set (R36). -/
def slotWord (kind : BitVec 3) (maj : BitVec 6) (body : BitVec 21) : BitVec 32 := 1#1 ++ 0#1 ++ kind ++ maj ++ body

/-- A Bool as a bit. -/
abbrev b1 (b : Bool) : BitVec 1 := BitVec.ofBool b

/-- Bodies of the formats of R69. -/
def bodyS3 (d a c : BitVec 6) (mn : BitVec 3) : BitVec 21 := d ++ a ++ c ++ mn
def bodySI (d a : BitVec 6) (i : BitVec 18) : BitVec 21 := d ++ a ++ i.extractLsb' 0 9
def bodySP (pd cc : BitVec 3) (a c : BitVec 6) (na nb : Bool) : BitVec 21 := pd ++ cc ++ a ++ c ++ b1 na ++ b1 nb ++ 0#1
def encS3 (maj : BitVec 6) (d a c : BitVec 6) (mn : BitVec 3) : Option (BitVec 9 × BitVec 32) :=
  some (0#9, slotWord 0#3 maj (bodyS3 d a c mn))
def encFp (maj : BitVec 6) (d a c : BitVec 6) (rm : BitVec 2) : Option (BitVec 9 × BitVec 32) := encS3 maj d a c (0#1 ++ rm)
def encSI (maj : BitVec 6) (d a : BitVec 6) (i : BitVec 18) : Option (BitVec 9 × BitVec 32) :=
  some (lentOf 9 9 i, slotWord 0#3 maj (bodySI d a i))
def encPl (maj : BitVec 6) (pd pa pb : BitVec 3) (na nb : Bool) : Option (BitVec 9 × BitVec 32) :=
  some (0#9, slotWord 0#3 maj (bodySP pd 0#3 (pa ++ 0#3) (pb ++ 0#3) na nb))
/-- Formats AM, AD, AO of R72. -/
def encAM (maj : BitVec 6) (ar : BitVec 4) (pi : Bool) (off : BitVec 24) : Option (BitVec 9 × BitVec 32) :=
  some (0#1 ++ lentOf 8 16 off, slotWord 1#3 maj (ar ++ b1 pi ++ off.extractLsb' 0 16))
def encAD (maj : BitVec 6) (v : BitVec 7) (ar : BitVec 4) (pi : Bool) (off : BitVec 18) : Option (BitVec 9 × BitVec 32) :=
  some (lentOf 8 10 off ++ v.extractLsb' 6 1, slotWord 1#3 maj (ar ++ b1 pi ++ v.extractLsb' 0 6 ++ off.extractLsb' 0 10))
def encAO (maj : BitVec 6) (ar : BitVec 4) (s c : BitVec 6) (off : BitVec 14) : Option (BitVec 9 × BitVec 32) :=
  some (lentOf 9 5 off, slotWord 1#3 maj (ar ++ s ++ c ++ off.extractLsb' 0 5))
/-- Format V3 of R74: the fields, and the lent bits SAT or TY, RM, L2, L1, L0. -/
def encV (maj : BitVec 6) (d a c : BitVec 6) (mk : BitVec 3) (l2 l1 l0 : BitVec 1) (ty : BitVec 3) (rm : BitVec 2) :
    Option (BitVec 9 × BitVec 32) :=
  some (0#1 ++ ty ++ rm ++ l2 ++ l1 ++ l0, slotWord 2#3 maj (d ++ a ++ c ++ mk))
def encV3 (maj : BitVec 6) (d a c : BitVec 7) (mk ty : BitVec 3) (rm : BitVec 2) : Option (BitVec 9 × BitVec 32) :=
  encV maj (d.extractLsb' 0 6) (a.extractLsb' 0 6) (c.extractLsb' 0 6) mk (c.extractLsb' 6 1) (a.extractLsb' 6 1) (d.extractLsb' 6 1) ty rm
def encV2 (maj : BitVec 6) (d a : BitVec 7) (c : BitVec 6) (mk ty : BitVec 3) (rm : BitVec 2) : Option (BitVec 9 × BitVec 32) :=
  encV maj (d.extractLsb' 0 6) (a.extractLsb' 0 6) c mk 0#1 (a.extractLsb' 6 1) (d.extractLsb' 6 1) ty rm
def encRed (maj : BitVec 6) (d : BitVec 6) (a : BitVec 7) (mk ty : BitVec 3) (rm : BitVec 2) : Option (BitVec 9 × BitVec 32) :=
  encV maj d (a.extractLsb' 0 6) 0#6 mk 0#1 (a.extractLsb' 6 1) 0#1 ty rm
/-- Formats of R77, R79, R81 to R83. -/
def encMma (maj : BitVec 6) (acc : Bool) (w : BitVec 2) (ar : BitVec 4) (bt : BitVec 7) (ty : BitVec 4) (st : BitVec 9) :
    Option (BitVec 9 × BitVec 32) :=
  some (st, slotWord 3#3 maj (b1 acc ++ w ++ ar ++ bt ++ ty ++ 0#3))
def encAcc (maj : BitVec 6) (acc : Bool) (ar cv : BitVec 4) (rw : BitVec 6) (st : BitVec 9) : Option (BitVec 9 × BitVec 32) :=
  some (st, slotWord 3#3 maj (b1 acc ++ ar ++ cv ++ rw ++ 0#6))
def encES (maj : BitVec 6) (z : BitVec 3) (k : BitVec 5) (x y : BitVec 6) (l : BitVec 9) : Option (BitVec 9 × BitVec 32) :=
  some (l, slotWord 4#3 maj (z ++ k ++ x ++ y ++ 0#1))
def encEC (maj : BitVec 6) (k : BitVec 5) (ad asr : BitVec 4) (ln : BitVec 6) (dt : Bool) (st : BitVec 9) : Option (BitVec 9 × BitVec 32) :=
  some (st, slotWord 4#3 maj (k ++ ad ++ asr ++ ln ++ b1 dt ++ 0#1))
def encSend (maj : BitVec 6) (ch : BitVec 8) (ar : BitVec 4) (ln st : BitVec 9) : Option (BitVec 9 × BitVec 32) :=
  some (st, slotWord 5#3 maj (ch ++ ar ++ ln))
def encN (maj : BitVec 6) (body : BitVec 21) : Option (BitVec 9 × BitVec 32) := some (0#9, slotWord 5#3 maj body)
def encC (maj : BitVec 6) (l : BitVec 9) (body : BitVec 21) : Option (BitVec 9 × BitVec 32) := some (l, slotWord 6#3 maj body)
def encY (maj : BitVec 6) (body : BitVec 21) : Option (BitVec 9 × BitVec 32) := some (0#9, slotWord 7#3 maj body)
def encHdr (w : BitVec 32) : Option (BitVec 9 × BitVec 32) := some (0#9, w)

/-- The lent bits and the word of an instruction: a slot word has its stop bit set, a header word has not. An event or a host
command has no encoding. -/
def encode : Instr → Option (BitVec 9 × BitVec 32)
  | .hdrLend l2 l3 l4 => encHdr (0#1 ++ 1#1 ++ 0#2 ++ 0#1 ++ l2 ++ l3 ++ l4)
  | .hdrTree n0 p0 n1 p1 n2 p2 n3 p3 s2 s3 s4 =>
    encHdr (0#1 ++ 1#1 ++ 1#2 ++ b1 n0 ++ p0 ++ b1 n1 ++ p1 ++ b1 n2 ++ p2 ++ b1 n3 ++ p3 ++ s2 ++ s3 ++ s4)
  | .hdrRep c s2 s3 s4 => encHdr (0#1 ++ 1#1 ++ 2#2 ++ c ++ s2 ++ s3 ++ s4 ++ 0#10)
  | .add d a b => encS3 0x00#6 d a b 0#3
  | .sub d a b => encS3 0x01#6 d a b 0#3
  | .and d a b => encS3 0x02#6 d a b 0#3
  | .or d a b => encS3 0x03#6 d a b 0#3
  | .xor d a b => encS3 0x04#6 d a b 0#3
  | .andn d a b => encS3 0x05#6 d a b 0#3
  | .shl d a b => encS3 0x06#6 d a b 0#3
  | .shr d a b => encS3 0x07#6 d a b 0#3
  | .sar d a b => encS3 0x08#6 d a b 0#3
  | .rol d a b => encS3 0x09#6 d a b 0#3
  | .min d a b => encS3 0x0A#6 d a b 0#3
  | .max d a b => encS3 0x0B#6 d a b 0#3
  | .minu d a b => encS3 0x0C#6 d a b 0#3
  | .maxu d a b => encS3 0x0D#6 d a b 0#3
  | .adds d a b => encS3 0x0E#6 d a b 0#3
  | .subs d a b => encS3 0x0F#6 d a b 0#3
  | .mul d a b => encS3 0x10#6 d a b 0#3
  | .mulh d a b => encS3 0x11#6 d a b 0#3
  | .mulhu d a b => encS3 0x12#6 d a b 0#3
  | .div d a b => encS3 0x13#6 d a b 0#3
  | .divu d a b => encS3 0x14#6 d a b 0#3
  | .rem d a b => encS3 0x15#6 d a b 0#3
  | .remu d a b => encS3 0x16#6 d a b 0#3
  | .abs d a => encS3 0x17#6 d a 0#6 0#3
  | .clz d a => encS3 0x18#6 d a 0#6 0#3
  | .popc d a => encS3 0x19#6 d a 0#6 0#3
  | .extB d a => encS3 0x1A#6 d a 0#6 0#3
  | .extH d a => encS3 0x1A#6 d a 0#6 1#3
  | .extBu d a => encS3 0x1A#6 d a 0#6 2#3
  | .extHu d a => encS3 0x1A#6 d a 0#6 3#3
  | .sel d a b p => encS3 0x1B#6 d a b p
  | .addi d a i => encSI 0x20#6 d a i
  | .andImm d a i => encSI 0x21#6 d a i
  | .orImm d a i => encSI 0x22#6 d a i
  | .xorImm d a i => encSI 0x23#6 d a i
  | .andnImm d a i => encSI 0x24#6 d a i
  | .shlImm d a i => encSI 0x25#6 d a i
  | .shrImm d a i => encSI 0x26#6 d a i
  | .sarImm d a i => encSI 0x27#6 d a i
  | .rolImm d a i => encSI 0x28#6 d a i
  | .movi d i => some (lentOf 9 15 i, slotWord 0#3 0x2C#6 (d ++ i.extractLsb' 0 15))
  | .movhi d i => some (0#8 ++ i.extractLsb' 15 1, slotWord 0#3 0x2D#6 (d ++ i.extractLsb' 0 15))
  | .cmp pd cc a b => some (0#9, slotWord 0#3 0x2E#6 (bodySP pd cc a b false false))
  | .cmpImm pd cc a i => some (lentOf 9 6 i, slotWord 0#3 0x2F#6 (bodySP pd cc a (i.extractLsb' 0 6) false false))
  | .pand pd pa pb na nb => encPl 0x30#6 pd pa pb na nb
  | .por pd pa pb na nb => encPl 0x31#6 pd pa pb na nb
  | .pxor pd pa pb na nb => encPl 0x32#6 pd pa pb na nb
  | .pnot pd pa na => encPl 0x33#6 pd pa 0#3 na false
  | .fadd d a b rm => encFp 0x34#6 d a b rm
  | .fsub d a b rm => encFp 0x35#6 d a b rm
  | .fmul d a b rm => encFp 0x36#6 d a b rm
  | .ffma d a b c rm => some (0#3 ++ c, slotWord 0#3 0x37#6 (bodyS3 d a b (0#1 ++ rm)))
  | .fmin d a b => encFp 0x38#6 d a b 0#2
  | .fmax d a b => encFp 0x39#6 d a b 0#2
  | .fminn d a b => encFp 0x3A#6 d a b 0#2
  | .fmaxn d a b => encFp 0x3B#6 d a b 0#2
  | .fcmp pd cc a b => some (0#9, slotWord 0#3 0x3C#6 (bodySP pd cc a b false false))
  | .fcvt d a c rm => encFp 0x3D#6 d a (0#3 ++ c) rm
  | .fsgn d a b => encS3 0x3E#6 d a b 0#3
  | .fsgnN d a b => encS3 0x3E#6 d a b 1#3
  | .fsgnX d a b => encS3 0x3E#6 d a b 2#3
  | .ldB ar pi off => encAM 0x00#6 ar pi off
  | .ldH ar pi off => encAM 0x01#6 ar pi off
  | .ldW ar pi off => encAM 0x02#6 ar pi off
  | .ldV ar pi off => encAM 0x03#6 ar pi off
  | .stB ar pi off => encAM 0x04#6 ar pi off
  | .stH ar pi off => encAM 0x05#6 ar pi off
  | .stW ar pi off => encAM 0x06#6 ar pi off
  | .stV ar pi off => encAM 0x07#6 ar pi off
  | .ldDs v ar pi off => encAD 0x08#6 v ar pi off
  | .stDs v ar pi off => encAD 0x09#6 v ar pi off
  | .amoAdd ar s off => encAO 0x0A#6 ar s 0#6 off
  | .amoMin ar s off => encAO 0x0B#6 ar s 0#6 off
  | .amoMax ar s off => encAO 0x0C#6 ar s 0#6 off
  | .amoSwap ar s off => encAO 0x0D#6 ar s 0#6 off
  | .amoCas ar s c off => encAO 0x0E#6 ar s c off
  | .aaddImm ad aa i => some (lentOf 9 13 i, slotWord 1#3 0x10#6 (ad ++ aa ++ i.extractLsb' 0 13))
  | .aadd ad aa s => some (0#9, slotWord 1#3 0x11#6 (ad ++ aa ++ s ++ 0#7))
  | .amovA ad s => some (0#9, slotWord 1#3 0x12#6 (ad ++ 0#4 ++ s ++ 0#7))
  | .amovS sd aa => some (0#9, slotWord 1#3 0x13#6 (sd ++ aa ++ 0#11))
  | .streamRd k ar off st => some (st, slotWord 1#3 0x14#6 (k ++ ar ++ off))
  | .streamWr k ar off st => some (st, slotWord 1#3 0x15#6 (k ++ ar ++ off))
  | .vadd d a b mk ty rm => encV3 0x00#6 d a b mk ty rm
  | .vsub d a b mk ty rm => encV3 0x01#6 d a b mk ty rm
  | .vmul d a b mk ty rm => encV3 0x02#6 d a b mk ty rm
  | .vfma d a b mk ty rm => encV3 0x03#6 d a b mk ty rm
  | .vfms d a b mk ty rm => encV3 0x04#6 d a b mk ty rm
  | .vmin d a b mk ty => encV3 0x05#6 d a b mk ty 0#2
  | .vmax d a b mk ty => encV3 0x06#6 d a b mk ty 0#2
  | .vminn d a b mk ty => encV3 0x07#6 d a b mk ty 0#2
  | .vmaxn d a b mk ty => encV3 0x08#6 d a b mk ty 0#2
  | .vadds d a b mk ty => encV3 0x0B#6 d a b mk ty 0#2
  | .vsubs d a b mk ty => encV3 0x0C#6 d a b mk ty 0#2
  | .vand d a b mk ty => encV3 0x0D#6 d a b mk ty 0#2
  | .vor d a b mk ty => encV3 0x0E#6 d a b mk ty 0#2
  | .vxor d a b mk ty => encV3 0x0F#6 d a b mk ty 0#2
  | .vshl d a b mk ty => encV3 0x10#6 d a b mk ty 0#2
  | .vshr d a b mk ty => encV3 0x11#6 d a b mk ty 0#2
  | .vsar d a b mk ty => encV3 0x12#6 d a b mk ty 0#2
  | .vsel d a b mk ty => encV3 0x17#6 d a b mk ty 0#2
  | .vperm d a b mk ty => encV3 0x1C#6 d a b mk ty 0#2
  | .vrot d a b mk ty => encV3 0x1D#6 d a b mk ty 0#2
  | .vslide d a b mk ty => encV3 0x1E#6 d a b mk ty 0#2
  | .vabs d a mk ty => encV2 0x09#6 d a 0#6 mk ty 0#2
  | .vneg d a mk ty => encV2 0x0A#6 d a 0#6 mk ty 0#2
  | .vmov d a mk ty => encV2 0x19#6 d a 0#6 mk ty 0#2
  | .vshlImm d a c mk ty => encV2 0x13#6 d a c mk ty 0#2
  | .vshrImm d a c mk ty => encV2 0x14#6 d a c mk ty 0#2
  | .vsarImm d a c mk ty => encV2 0x15#6 d a c mk ty 0#2
  | .vcmp cc md a b mk ty =>
    encV 0x16#6 (cc ++ md) (a.extractLsb' 0 6) (b.extractLsb' 0 6) mk (b.extractLsb' 6 1) (a.extractLsb' 6 1) 0#1 ty 0#2
  | .vclamp d lo hi mk ty => encV 0x18#6 (d.extractLsb' 0 6) lo hi mk 0#1 0#1 (d.extractLsb' 6 1) ty 0#2
  | .vbcast d s mk ty => encV 0x1A#6 (d.extractLsb' 0 6) s 0#6 mk 0#1 0#1 (d.extractLsb' 6 1) ty 0#2
  | .vext d a lane ty => encV 0x1B#6 d (a.extractLsb' 0 6) (lane.extractLsb' 0 6) 0#3 (lane.extractLsb' 6 1) (a.extractLsb' 6 1) 0#1 ty 0#2
  | .vredAdd d a mk ty rm => encRed 0x1F#6 d a mk ty rm
  | .vredMax d a mk ty => encRed 0x20#6 d a mk ty 0#2
  | .vredMin d a mk ty => encRed 0x21#6 d a mk ty 0#2
  | .vcvt d a dst src mk rm sat =>
    some (b1 sat ++ 0#3 ++ rm ++ 0#1 ++ a.extractLsb' 6 1 ++ d.extractLsb' 6 1,
      slotWord 2#3 0x22#6 (d.extractLsb' 0 6 ++ a.extractLsb' 0 6 ++ dst ++ src ++ mk))
  | .vpackSb d a mw ty rm => encV2 0x23#6 d a mw 0#3 ty rm
  | .vunpackSb d a ty rm => encV2 0x24#6 d a 0#6 0#3 ty rm
  | .lease k => some (0#9, slotWord 3#3 0x00#6 (k ++ 0#16))
  | .unlease => some (0#9, slotWord 3#3 0x01#6 0#21)
  | .lwt w ar bt st => some (st, slotWord 3#3 0x02#6 (w ++ ar ++ bt ++ 0#8))
  | .mma acc w ar bt ty st => encMma 0x03#6 acc w ar bt ty st
  | .mmaz acc w ar bt ty st => encMma 0x04#6 acc w ar bt ty st
  | .gmma acc w ar bt ty st => encMma 0x05#6 acc w ar bt ty st
  | .accz acc => some (0#9, slotWord 3#3 0x06#6 (b1 acc ++ 0#20))
  | .accld acc ar cv rw st => encAcc 0x07#6 acc ar cv rw st
  | .accret acc ar cv rw st => encAcc 0x08#6 acc ar cv rw st
  | .amodeWrap => some (0#9, slotWord 3#3 0x09#6 (0#1 ++ 0#20))
  | .amodeSat => some (0#9, slotWord 3#3 0x09#6 (1#1 ++ 0#20))
  | .tev d a fn ty mk => some (0#7 ++ a.extractLsb' 6 1 ++ d.extractLsb' 6 1,
      slotWord 4#3 0x00#6 (d.extractLsb' 0 6 ++ a.extractLsb' 0 6 ++ fn ++ ty ++ mk))
  | .tld tb ar k => some (0#9, slotWord 4#3 0x01#6 (tb ++ ar ++ k ++ 0#10))
  | .tcfg tb s => some (0#9, slotWord 4#3 0x02#6 (tb ++ s ++ 0#13))
  | .skinitQs z size k => encES 0x10#6 z k (1#2 ++ size ++ 0#2) 0#6 0#9
  | .skinitHh z size k => encES 0x10#6 z k (2#2 ++ size ++ 0#2) 0#6 0#9
  | .skinitDc z size k => encES 0x10#6 z k (3#2 ++ size ++ 0#2) 0#6 0#9
  | .skseed s k => encES 0x11#6 0#3 k s 0#6 0#9
  | .skfold z v mk k => encES 0x12#6 z k (v.extractLsb' 0 6) (0#3 ++ mk) (0#8 ++ v.extractLsb' 6 1)
  | .skmerge zd zs k => encES 0x13#6 zd k 0#6 (0#3 ++ zs) 0#9
  | .skq d z s k => encES 0x14#6 z k d s 0#9
  | .skrank d z s k => encES 0x15#6 z k d s 0#9
  | .skcard d z k => encES 0x16#6 z k d 0#6 0#9
  | .sktop z ar k => encES 0x17#6 z k (0#2 ++ ar) 0#6 0#9
  | .skld z ar k => encES 0x18#6 z k (0#2 ++ ar) 0#6 0#9
  | .skst z ar k => encES 0x19#6 z k (0#2 ++ ar) 0#6 0#9
  | .skclr z k => encES 0x1A#6 z k 0#6 0#6 0#9
  | .cpyTd k ad asr ln st => encEC 0x20#6 k ad asr ln false st
  | .cpyDt k ad asr ln st => encEC 0x20#6 k ad asr ln true st
  | .cpyRedF32 k ad asr ln dt st => encEC 0x21#6 k ad asr ln dt st
  | .cpyRedBf16 k ad asr ln dt st => encEC 0x22#6 k ad asr ln dt st
  | .cpyRedI32 k ad asr ln dt st => encEC 0x23#6 k ad asr ln dt st
  | .send ch ar ln st => encSend 0x00#6 ch ar ln st
  | .sendRel ch ar ln st => encSend 0x01#6 ch ar ln st
  | .sendM g ar ln st => encSend 0x02#6 (0#2 ++ g) ar ln st
  | .sendr ch ar ln st => encSend 0x03#6 ch ar ln st
  | .recvArm ch s => encN 0x04#6 (ch ++ s ++ 0#7)
  | .qpost e => encN 0x05#6 (e ++ 0#13)
  | .qarm e k s => encN 0x06#6 (e ++ k ++ s ++ 0#2)
  | .sideAdd id ar sl => encN 0x07#6 (id ++ ar ++ sl ++ 0#5)
  | .sideRel id => encN 0x08#6 (id ++ 0#15)
  | .decCfg ar => encN 0x09#6 (ar ++ 0#17)
  | .barArr b => encN 0x0A#6 (b ++ 0#15)
  | .nxt d => encN 0x0B#6 (d ++ 0#15)
  | .route cl si sv => encN 0x0C#6 (cl ++ si ++ sv ++ 0#7)
  | .br off => encC 0x00#6 (0#6 ++ lentOf 3 21 off) (off.extractLsb' 0 21)
  | .call off => encC 0x03#6 (0#6 ++ lentOf 3 21 off) (off.extractLsb' 0 21)
  | .brC n p off => encC 0x01#6 (0#2 ++ lentOf 7 17 off) (b1 n ++ p ++ off.extractLsb' 0 17)
  | .brTree off => encC 0x02#6 0#9 off
  | .ret => encC 0x04#6 0#9 0#21
  | .loop s len mx => encC 0x05#6 (mx.extractLsb' 5 9) (s ++ len ++ mx.extractLsb' 0 5)
  | .loopW n p len mx => encC 0x06#6 (mx.extractLsb' 5 9) (b1 n ++ p ++ 0#2 ++ len ++ mx.extractLsb' 0 5)
  | .loopP s len mx => encC 0x07#6 (mx.extractLsb' 5 9) (s ++ len ++ mx.extractLsb' 0 5)
  | .brk n p => encC 0x08#6 0#9 (b1 n ++ p ++ 0#17)
  | .dly c => encC 0x09#6 0#9 (0#5 ++ c)
  | .nop => encC 0x0A#6 0#9 0#21
  | .wait k n => encC 0x0B#6 0#9 (k ++ n)
  | .barWait b => encC 0x0C#6 0#9 (b ++ 0#15)
  | .exit => encC 0x0D#6 0#9 0#21
  | .phase n => encC 0x0E#6 0#9 (0#13 ++ n)
  | .csrr d c => encY 0x00#6 (d ++ 0#3 ++ c)
  | .csrw a c => encY 0x01#6 (a ++ 0#3 ++ c)
  | .trap n => encY 0x02#6 (0#13 ++ n)
  | .tret => encY 0x03#6 0#21
  | .tks k s => encY 0x04#6 (k ++ s ++ 0#10)
  | .tkr k s => encY 0x05#6 (k ++ s ++ 0#10)
  | .tkz k => encY 0x06#6 (k ++ 0#16)
  | .tkp k n => encY 0x07#6 (k ++ n)
  | .cycGl d => encY 0x08#6 (d ++ 0#13 ++ 0#2)
  | .cycGh d => encY 0x08#6 (d ++ 0#13 ++ 1#2)
  | .cycTl d => encY 0x08#6 (d ++ 0#13 ++ 2#2)
  | .cycTh d => encY 0x08#6 (d ++ 0#13 ++ 3#2)
  | .sig c => encY 0x09#6 (0#5 ++ c)
  | .bkpt n => encY 0x0A#6 (0#13 ++ n)
  | .pwr h => encY 0x0B#6 (0#17 ++ h)
  | .ent d => encY 0x0C#6 (d ++ 0#15)
  | .crgadd .. | .crgclr | .mctlKill | .mctlSave | .mctlCont | .loadImage .. | .launchStart .. | .launchPost ..
  | .stream .. | .mapRangeEntry .. | .mapTableRoot .. | .mapInvalidate .. | .queryModuleState .. | .queryMirage ..
  | .queryTileReport .. | .queryEnergy .. | .queryDebugChallenge .. | .queryRouterCounters .. | .queryOpticalPorts ..
  | .checkpoint .. | .restore .. | .preempt .. | .resume .. | .haltAt .. | .stepTile .. | .stepWafer .. | .readState ..
  | .powerCap .. | .powerDebugOpen .. | .powerDebugClose .. | .powerRetentionEnter .. | .powerRetentionExit .. | .attest ..
  | .scrub .. | .semaphoreAcquire .. | .semaphoreRelease .. | .semaphoreRead .. | .badOpcode .. | .resultLanding
  | .deferredStart | .staticBankAccess | .asyncBankAccess | .leaseGrant | .leaseExpiry | .gangRowArrival
  | .summaryCommandStart | .summaryCommandComplete | .copyCommandStart | .copyComplete | .busLaneTest | .streamPiece
  | .streamComplete | .sendSourceRead | .leeExit | .fenceRelease | .headFlitRoute | .pairingWindowExpiry | .heldPacketFlush
  | .ringDeposit | .reduceDeposit | .directWrite | .contributionArrival | .reduceTargetCombine | .cqEntryFire
  | .acknowledgementArrival | .creditArrival | .caravanAccept | .caravanDecode | .coderAckArrival | .decCfgTakesEffect
  | .launchDelivery | .triggerFire | .taskDispatch | .coreIdle | .nodeComplete | .successorDecrement | .barrierRelease
  | .gangBarrierRelease | .deadlineFault | .trapEntry | .preemptRequest | .preemptOverrun | .contextSave | .seal
  | .tileCheckpoint | .strikeReport | .replayEnd | .undoFreezeEnd | .correctedWriteback | .taskReplay | .jobRestore
  | .migration | .overlayApply | .retentionExit | .balanceWindow | .freezeEnd | .powerWindow | .electricalLimit
  | .markConsidered | .clockChange | .energyUpdate | .boot | .ownershipTimeout | .scrubEnd | .domainHalt | .domainResume
  | .stepEnd => none

/-! ### Submission entries (R380, R384) -/

/-- Bytes lo to lo+n-1 of a submission entry, whose byte k is bits 8k+7 to 8k. -/
def entryField (e : BitVec 512) (lo n : Nat) : BitVec (8 * n) := e.extractLsb' (8 * lo) (8 * n)

/-- Every byte is zero but the opcode, the TAG and the named arguments. -/
def entryClean (e : BitVec 512) (named : List (Nat × Nat)) : Bool :=
  (List.range 64).all fun k =>
    k == 0 || (decide (4 ≤ k) && decide (k < 8)) || named.any (fun r => decide (r.1 ≤ k) && decide (k < r.1 + r.2)) || entryField e k 1 == 0#8

/-- The command of an entry and the argument bytes it names, before their ranges are checked. -/
def entryCommand (port : Bool) (e : BitVec 512) : Option (Instr × List (Nat × Nat)) :=
  let t : Word := entryField e 4 4
  let w (lo : Nat) : Word := entryField e lo 4
  let d (lo : Nat) : BitVec 64 := entryField e lo 8
  let h (lo : Nat) : BitVec 16 := entryField e lo 2
  let b (lo : Nat) : BitVec 8 := entryField e lo 1
  let sel := (b 8).toNat
  match (b 0).toNat with
  | 0x01 => some (.loadImage port t (d 8) (w 16), [(8, 12)])
  | 0x02 =>
    let l : List (Nat × Nat) := [(8, 1), (12, 8), (24, 32)]
    if sel = 0 then some (.launchStart port t (h 12) (h 14) (h 16) (h 18) (entryField e 24 32), l)
    else if sel = 1 then some (.launchPost port t (h 12) (h 14) (h 16) (h 18) (entryField e 24 32), l) else none
  | 0x03 => if b 28 == 0#8 || b 28 == 1#8 then some (.stream port t (d 8) (d 16) (w 24) (b 28 == 1#8), [(8, 21)]) else none
  | 0x04 =>
    if sel = 0 then some (.mapRangeEntry port t (b 12) (d 16) (d 24) (d 32), [(8, 1), (12, 1), (16, 24)])
    else if sel = 1 then some (.mapTableRoot port t (d 16), [(8, 1), (16, 8)])
    else if sel = 2 then some (.mapInvalidate port t (d 16) (d 24), [(8, 1), (16, 16)]) else none
  | 0x05 =>
    let l : List (Nat × Nat) := [(8, 1), (16, 12)]
    match sel with
    | 0 => some (.queryModuleState port t (d 16) (w 24), l)
    | 1 => some (.queryMirage port t (d 16) (w 24), l)
    | 2 => some (.queryTileReport port t (w 12) (d 16) (w 24), (12, 4) :: l)
    | 3 => some (.queryEnergy port t (d 16) (w 24), l)
    | 4 => some (.queryDebugChallenge port t (d 16) (w 24), l)
    | 5 => some (.queryRouterCounters port t (w 12) (d 16) (w 24), (12, 4) :: l)
    | 6 => some (.queryOpticalPorts port t (d 16) (w 24), l)
    | _ => none
  | 0x06 => some (.checkpoint port t (d 8) (d 16) (d 24) (d 32) (h 40), [(8, 34)])
  | 0x07 => some (.restore port t (d 16), [(16, 8)])
  | 0x08 => some (.preempt port t (w 8) (b 12), [(8, 5)])
  | 0x09 => some (.resume port t (d 8) (b 16) (w 20), [(8, 9), (20, 4)])
  | 0x0A => some (.haltAt port t (d 8), [(8, 8)])
  | 0x0B =>
    if sel = 0 then some (.stepTile port t (w 12) (w 16), [(8, 1), (12, 8)])
    else if sel = 1 then some (.stepWafer port t (w 12), [(8, 1), (12, 4)]) else none
  | 0x0C => some (.readState port t (w 8) (b 12) (b 13) (w 16) (w 20) (d 24), [(8, 6), (16, 16)])
  | 0x0D =>
    (match sel with
     | 0 => some (.powerCap port t (h 12) (b 14) (entryField e 16 32), [(8, 1), (12, 3), (16, 32)])
     | 1 => some (.powerDebugOpen port t (d 16) (w 24), [(8, 1), (16, 12)])
     | 2 => some (.powerDebugClose port t, [(8, 1)])
     | 3 => some (.powerRetentionEnter port t (w 12), [(8, 1), (12, 4)])
     | 4 => some (.powerRetentionExit port t (w 12), [(8, 1), (12, 4)])
     | _ => none)
  | 0x0E => some (.attest port t (d 8) (d 16), [(8, 16)])
  | 0x0F => some (.scrub port t, [])
  | 0x10 =>
    let l : List (Nat × Nat) := [(8, 2), (12, 2)]
    if sel = 0 then some (.semaphoreAcquire port t (b 9) (h 12) (w 16), (16, 4) :: l)
    else if sel = 1 then some (.semaphoreRelease port t (b 9) (h 12), l)
    else if sel = 2 then some (.semaphoreRead port t (b 9) (h 12), l) else none
  | _ => none

/-- The command that a submission entry holds. A wrong opcode, flag, unnamed byte or field is the command that completes with status 0x01. -/
def decodeCommand (port : Bool) (e : BitVec 512) : Instr :=
  match entryCommand port e with
  | some (i, l) => if entryClean e l && i.wf then i else .badOpcode port (entryField e 4 4)
  | none => .badOpcode port (entryField e 4 4)

/-- A field placed at byte lo of an entry. -/
def entryPut {n : Nat} (lo : Nat) (x : BitVec n) : BitVec 512 := x.setWidth 512 <<< (8 * lo)

/-- Opcode and TAG of an entry. -/
def entryHead (op : BitVec 8) (tag : Word) : BitVec 512 := entryPut 0 op ||| entryPut 4 tag

/-- The submission entry of a well-formed host command. -/
def encodeCommand : Instr → Option (BitVec 512)
  | .loadImage _ t list count => some (entryHead 0x01#8 t ||| entryPut 8 list ||| entryPut 16 count)
  | .launchStart _ t x0 y0 w h mb =>
    some (entryHead 0x02#8 t ||| entryPut 12 x0 ||| entryPut 14 y0 ||| entryPut 16 w ||| entryPut 18 h ||| entryPut 24 mb)
  | .launchPost _ t x0 y0 w h mb =>
    some (entryHead 0x02#8 t ||| entryPut 8 1#8 ||| entryPut 12 x0 ||| entryPut 14 y0 ||| entryPut 16 w ||| entryPut 18 h ||| entryPut 24 mb)
  | .stream _ t host dva len dir =>
    some (entryHead 0x03#8 t ||| entryPut 8 host ||| entryPut 16 dva ||| entryPut 24 len ||| entryPut 28 (BitVec.ofBool dir))
  | .mapRangeEntry _ t e w0 w1 w2 => some (entryHead 0x04#8 t ||| entryPut 12 e ||| entryPut 16 w0 ||| entryPut 24 w1 ||| entryPut 32 w2)
  | .mapTableRoot _ t ta => some (entryHead 0x04#8 t ||| entryPut 8 1#8 ||| entryPut 16 ta)
  | .mapInvalidate _ t dva len => some (entryHead 0x04#8 t ||| entryPut 8 2#8 ||| entryPut 16 dva ||| entryPut 24 len)
  | .queryModuleState _ t buf len => some (entryHead 0x05#8 t ||| entryPut 16 buf ||| entryPut 24 len)
  | .queryMirage _ t buf len => some (entryHead 0x05#8 t ||| entryPut 8 1#8 ||| entryPut 16 buf ||| entryPut 24 len)
  | .queryTileReport _ t n buf len => some (entryHead 0x05#8 t ||| entryPut 8 2#8 ||| entryPut 12 n ||| entryPut 16 buf ||| entryPut 24 len)
  | .queryEnergy _ t buf len => some (entryHead 0x05#8 t ||| entryPut 8 3#8 ||| entryPut 16 buf ||| entryPut 24 len)
  | .queryDebugChallenge _ t buf len => some (entryHead 0x05#8 t ||| entryPut 8 4#8 ||| entryPut 16 buf ||| entryPut 24 len)
  | .queryRouterCounters _ t n buf len => some (entryHead 0x05#8 t ||| entryPut 8 5#8 ||| entryPut 12 n ||| entryPut 16 buf ||| entryPut 24 len)
  | .queryOpticalPorts _ t buf len => some (entryHead 0x05#8 t ||| entryPut 8 6#8 ||| entryPut 16 buf ||| entryPut 24 len)
  | .checkpoint _ t at' dva dlen list count =>
    some (entryHead 0x06#8 t ||| entryPut 8 at' ||| entryPut 16 dva ||| entryPut 24 dlen ||| entryPut 32 list ||| entryPut 40 count)
  | .restore _ t dva => some (entryHead 0x07#8 t ||| entryPut 16 dva)
  | .preempt _ t n node => some (entryHead 0x08#8 t ||| entryPut 8 n ||| entryPut 12 node)
  | .resume _ t u sc n => some (entryHead 0x09#8 t ||| entryPut 8 u ||| entryPut 16 sc ||| entryPut 20 n)
  | .haltAt _ t at' => some (entryHead 0x0A#8 t ||| entryPut 8 at')
  | .stepTile _ t n name => some (entryHead 0x0B#8 t ||| entryPut 12 n ||| entryPut 16 name)
  | .stepWafer _ t n => some (entryHead 0x0B#8 t ||| entryPut 8 1#8 ||| entryPut 12 n)
  | .readState _ t n sp c off len buf =>
    some (entryHead 0x0C#8 t ||| entryPut 8 n ||| entryPut 12 sp ||| entryPut 13 c ||| entryPut 16 off ||| entryPut 20 len ||| entryPut 24 buf)
  | .powerCap _ t cap pt marks => some (entryHead 0x0D#8 t ||| entryPut 12 cap ||| entryPut 14 pt ||| entryPut 16 marks)
  | .powerDebugOpen _ t cert len => some (entryHead 0x0D#8 t ||| entryPut 8 1#8 ||| entryPut 16 cert ||| entryPut 24 len)
  | .powerDebugClose _ t => some (entryHead 0x0D#8 t ||| entryPut 8 2#8)
  | .powerRetentionEnter _ t n => some (entryHead 0x0D#8 t ||| entryPut 8 3#8 ||| entryPut 12 n)
  | .powerRetentionExit _ t n => some (entryHead 0x0D#8 t ||| entryPut 8 4#8 ||| entryPut 12 n)
  | .attest _ t nonce buf => some (entryHead 0x0E#8 t ||| entryPut 8 nonce ||| entryPut 16 buf)
  | .scrub _ t => some (entryHead 0x0F#8 t)
  | .semaphoreAcquire _ t w tag otmo => some (entryHead 0x10#8 t ||| entryPut 9 w ||| entryPut 12 tag ||| entryPut 16 otmo)
  | .semaphoreRelease _ t w tag => some (entryHead 0x10#8 t ||| entryPut 8 1#8 ||| entryPut 9 w ||| entryPut 12 tag)
  | .semaphoreRead _ t w tag => some (entryHead 0x10#8 t ||| entryPut 8 2#8 ||| entryPut 9 w ||| entryPut 12 tag)
  | _ => none

end Sys2Proof
end

