-- ==== Sys2Proof/Config.lean ====
section
/-! DEFINITION. What an implementation fixes, and the free values. A constant here that has no body is a free value: a statement
holds whatever it is. Its counter is State.free, or its operands are named. -/

namespace Sys2Proof.Config

/-- Free value (log 3): how long a piece of work takes whose timing is not architectural (R177, R231, R265, R295). The user
of a draw applies the bound of the rule. -/
opaque delay : Nat → Nat

/-- Free value (log 14): what the entropy source gives at the n-th draw (R352, R391). -/
opaque entropy : Nat → Word

/-- Free value (log 15): a `tev` result that no working precision of the model resolves (R168). Arguments: FN, TY, input. -/
opaque tevUnresolved : BitVec 4 → BitVec 2 → Word → Word

/-- Free value (log 16): what `skq` and `skrank` return when N is above 0 and no item is held (R188 states no result): a function of the
command, the slot's bytes and the operand (R196). -/
opaque sketchEmpty : Nat → List (Nat × Byte) → Word → Word

/-- Free value (log 17): energy, in microjoule, billed to a tag in the n-th update (R371, R372). -/
opaque energy : Nat → Nat → Nat

/-- Free value (log 17): energy of the n-th update that is billed to no tag: 0 ballast, 1 leakage, 2 idle (R371). -/
opaque energyOff : Nat → Nat → Nat

/-- Free value (log 17): current of a physical row of a field in the n-th window of 32 global cycles (R362). -/
opaque rowCurrent : Nat → Nat → Nat

/-- Free value (log 17): current of a tile in that window (R363). -/
opaque tileCurrent : Nat → Nat → Nat

/-- Free value (log 17): average module input power, in milliwatt, of the n-th window of 1 ms (R366). -/
opaque windowPower : Nat → Nat

/-- Free value (log 18): the home hub of a tile (R245), the optical port of an edge tile (R30). -/
opaque homeHub : Nat → Nat
opaque opticalPort : Nat → Nat

/-- Free value (log 19): digests of the mask ROM, of the patch bundle and of the configuration record (R388). -/
opaque romDigest : BitVec 512
opaque patchDigest : BitVec 512
opaque recordDigest : BitVec 512

/-- Free value (log 19): the signature the device identity key makes over a report (R387, R388). 4,627 bytes. -/
opaque identitySignature : List Byte → List Byte

/-- Free value (log 19): whether a debug certificate's signature verifies (R392). -/
opaque certificateVerifies : List Byte → Bool

/-- Free value (log 19): the identity public key digest a certificate must name (R391). -/
opaque identityDigest : BitVec 512

/-- Free value (log 19): the identity digest, the permission mask and the challenge that a certificate names; its layout is not given (R391). -/
opaque certificateFields : List Byte → BitVec 512 × BitVec 4 × BitVec 512

/-- Free value (log 20): the bytes of a part of a report or a saved image whose layout the spec does not give. -/
opaque reportByte : Nat → Nat → Byte

/-- Free value (log 43): the save area that Rotrum assigns to the n-th save, and its length in units of 4 KiB (R358). -/
opaque saveArea : Nat → BitVec 48
opaque saveLength : Nat → Nat

/-- Free value (log 21): the value a block decoded against a changed side block takes (R293). -/
opaque undefinedBlock : Nat → Byte

/-- Free value (log 22): D_b of a gang barrier under a map, not above the bound of R333. Arguments: gang words, bound. -/
opaque gangDelay : Nat → Nat → Nat

/-- Free value (log 111): what the queue entry of an instruction that takes an arithmetic trap holds (R99, R236). -/
opaque trappedEntry : Nat → Bits256

end Sys2Proof.Config
end

