-- ==== Sys2Proof/Machine/Store.lean ====
section
/-! DEFINITION. Sparse data by key: a list of (key, value) pairs, keys strictly rising, no pair holding the value that an unlisted
key reads as. Registers, memories and tables are all held so. A memory is a list of Host.Cell. -/

namespace Sys2Proof

/-- A sparse map from Nat keys. -/
abbrev SMap (α : Type) := List (Nat × α)

namespace Machine

/-- The value at key k; `d` is what an unlisted key reads as. -/
def sget {α : Type} (d : α) (m : SMap α) (k : Nat) : α :=
  match m with
  | [] => d
  | (k', v) :: r => if k' = k then v else sget d r k

/-- Puts a pair in its place by key, before the first larger key. -/
def sinsert {α : Type} (k : Nat) (v : α) (m : SMap α) : SMap α :=
  match m with
  | [] => [(k, v)]
  | (k', v') :: r => if k < k' then (k, v) :: (k', v') :: r else (k', v') :: sinsert k v r

/-- Takes every pair of key k away. -/
def serase {α : Type} (k : Nat) (m : SMap α) : SMap α :=
  match m with
  | [] => []
  | (k', v') :: r => if k' = k then serase k r else (k', v') :: serase k r

/-- Writes v at key k. Writing what an unlisted key reads as removes the pair. -/
def sset {α : Type} [DecidableEq α] (d : α) (m : SMap α) (k : Nat) (v : α) : SMap α :=
  if v = d then serase k m else sinsert k v (serase k m)

/-- Whether the keys after `lo` rise strictly and no value is the default. -/
def swfFrom {α : Type} [DecidableEq α] (d : α) (lo : Option Nat) (m : SMap α) : Bool :=
  match m with
  | [] => true
  | (k, v) :: r => (match lo with | none => true | some l => decide (l < k)) && decide (v ≠ d) && swfFrom d (some k) r

/-- The canonical form of a sparse map. -/
def swf {α : Type} [DecidableEq α] (d : α) (m : SMap α) : Bool := swfFrom d none m

/-- A memory: its bytes by address. What an unlisted address reads as is `sget 0#8`'s default, zero (log 2). -/
abbrev Memory := List Host.Cell
/-- The canonical form of a memory. -/
def Memory.wf (m : Memory) : Bool := swf 0#8 m

/-- Bytes k, k+1, …, k+n-1, as one little-endian number (R6). -/
def sgetBytes (m : SMap Byte) (k : Nat) : Nat → Nat
  | 0 => 0
  | n + 1 => (sget 0#8 m k).toNat + 256 * sgetBytes m (k + 1) n

/-- Writes the n low bytes of v at k, k+1, … (R6). -/
def ssetBytes (m : SMap Byte) (k : Nat) (n : Nat) (v : Nat) : SMap Byte :=
  match n with
  | 0 => m
  | n + 1 => ssetBytes (sset 0#8 m k (BitVec.ofNat 8 v)) (k + 1) n (v / 256)

/-- Writes the value v at each of the n keys from k on. -/
def sfill {α : Type} [DecidableEq α] (d : α) (m : SMap α) (k n : Nat) (v : α) : SMap α :=
  match n with
  | 0 => m
  | n + 1 => sfill d (sset d m k v) (k + 1) n v

/-- The first n naturals from k, in order. -/
def upto (k : Nat) : Nat → List Nat
  | 0 => []
  | n + 1 => k :: upto (k + 1) n

end Machine
end Sys2Proof
end

