-- ==== Sys2Proof/Machine/State.lean ====
section
/-! DEFINITION. The state of the module as plain data: cores, tiles, fabric, second tier, the serai, and the model's own bookkeeping.
Sparse maps hold what differs from reset. Registers keep the manual's names. -/

namespace Sys2Proof.Machine

/-- Why the machine stops with a fault. No fault of the manual is one of these: every trap cause of R339 is a next state. -/
inductive Fault where
  /-- Raised by no meaning of this model: the manual gives every event an effect. Safe. -/
  | stuck
  deriving DecidableEq, Repr

/-- Why an instruction is refused. -/
inductive Refusal where
  /-- Raised by a dispatch arm whose meaning is not written yet. Safe. -/
  | notModelled (mnemonic : String)
  deriving DecidableEq, Repr

/-! ### Registers -/

/-- A 32-bit word with its poison bit (R112). -/
structure PWord where
  val : Word := 0#32
  poi : Bool := false
  deriving DecidableEq, Repr

/-- A predicate with its poison bit (R57, R112). -/
structure PBit where
  val : Bool := false
  poi : Bool := false
  deriving DecidableEq, Repr

/-- A lane mask: 128 bits with one poison bit each (R57, R112). -/
structure MaskReg where
  val : BitVec 128 := 0#128
  poi : BitVec 128 := 0#128
  deriving DecidableEq, Repr

/-- A vector register: 256 bytes with one poison bit for each 32-bit word (R57, R112). -/
structure VRow where
  val : Bits256 := 0#2048
  poi : BitVec 64 := 0#64
  deriving DecidableEq, Repr

/-- A completion token (R209). -/
structure Token where
  arr : Nat := 0
  infl : Nat := 0
  errn : Nat := 0
  errc : Nat := 0
  deriving DecidableEq, Repr

/-- An entry of the load-data or store-data queue (R236): its number in issue order, whether it is a vector entry, whether it landed. -/
structure QEntry where
  seq : Nat
  vec : Bool := false
  landed : Bool := false
  val : Bits256 := 0#2048
  poi : BitVec 64 := 0#64
  deriving DecidableEq, Repr

/-- The registers that monitor mode has of its own (R338). -/
structure Bank where
  s : SMap PWord := []
  a : SMap PWord := []
  p : SMap PBit := []
  ldq : List QEntry := []
  sdq : List QEntry := []
  ldqSeq : Nat := 0
  sdqSeq : Nat := 0
  deriving DecidableEq, Repr

/-! ### Traps and pending work of a core -/

/-- A cause with its slot position and information words (R339, R345). -/
structure Info where
  cause : Nat
  slot : Nat := 0
  flg : BitVec 6 := 0#6
  defd : Bool := false
  mult : Nat := 0
  i0 : Word := 0#32
  i1 : Word := 0#32
  i2 : Word := 0#32
  i3 : Word := 0#32
  /-- The token whose error a `wait` reports: the trap clears its error count and class (R212). -/
  tok : Option Nat := none
  deriving DecidableEq, Repr

/-- One effect of issued work. Registers are those of the bank of the entry that holds the effect. -/
inductive Eff where
  | sreg (d : Nat) (v : PWord)
  | areg (d : Nat) (v : PWord)
  | preg (d : Nat) (v : PBit)
  | mreg (d : Nat) (sel val poi : BitVec 128)
  /-- Row d: the bytes of `en`, and for each word whether the part written into it is poisoned. -/
  | vrow (d : Nat) (en : BitVec 256) (val : Bits256) (poi : BitVec 64)
  | sdq (seq : Nat) (val : Bits256) (poi : BitVec 64)
  | ldq (seq : Nat) (val : Bits256) (poi : BitVec 64)
  | load (bytes : Nat) (ea : Nat) (seq : Nat)
  | store (bytes : Nat) (ea : Nat) (val : Bits256) (poi : BitVec 64)
  /-- An atomic's read; `lost` after it lost its bank (R233). op: 0 add, 1 min, 2 max, 3 swap, 4 cas. -/
  | amoRead (op : Nat) (ea : Nat) (s c : PWord) (seq : Nat)
  | amoWrite (ea : Nat) (v : PWord) (old : PWord) (seq : Nat) (lost : Bool)
  | csr (n : Nat) (v : PWord)
  | tkz (k : Nat)
  | tkr (k : Nat) (w : Word)
  | tkp (k : Nat) (n : Nat)
  /-- An arrival from outside the core's own commands, with an error class or 0. -/
  | arrival (k : Nat) (cls : Nat)
  | post (k : Nat) (cls : Nat)
  | wnext (v : Word)
  | tcfg (tb : Nat) (v : PWord)
  | tldLine (tb : Nat) (line : Nat) (addr : Nat)
  | tldSwitch (tb : Nat) (k : Nat)
  /-- The end of a `tld` that a bank conflict stopped: its token posts, the table stays (R233). -/
  | tldDone (tb : Nat) (k : Nat)
  | accz (acc : Bool)
  | amode (sat : Bool)
  | unlease
  | route (cl : Nat) (ix : Nat) (v : Word)
  | armRing (ch : Nat) (count : Nat)
  | qarm (e : Nat) (k : Nat) (addr : Word)
  | qpost (e : Nat)
  | sideAdd (id : Word) (addr len : Nat)
  | sideRel (id : Word)
  /-- An L cause (R339): a trap, a breakpoint, or a fault of a tile path that lands on the task's timeline. -/
  | cause (i : Info)
  /-- A row of an `accret`, with its number (R161). -/
  | retRow (row bytes ea : Nat) (val : Bits256) (poi : BitVec 64)
  /-- The last row of an `accret` closes what it covers (R164): accumulator, the command's number, its rows. -/
  | accClose (acc : Bool) (n rows : Nat)
  | monExit
  | mctl (w : Word)
  /-- The end of the task, after the other slots of the bundle of its `exit` (R316). -/
  | exit
  /-- The start of a token-posted command that a start offset holds (R206): a copy, a stream, a send by its number. -/
  | startCopy (n : Nat)
  | startStream (n : Nat)
  | startSend (n : Nat)
  deriving DecidableEq, Repr

/-- A pending effect: what lands in cycle `at`, a task cycle of the core, or a tile cycle where the monitor issued it. -/
structure Pend where
  at' : Nat
  mon : Bool := false
  /-- Number of the issuing bundle repetition on its core (R60). -/
  id : Nat := 0
  slot : Nat := 0
  pc : Nat := 0
  /-- Tile cycle of issue (R232). -/
  issue : Nat := 0
  /-- Whether it is an entry of the pending-write record, and the cycle of its last effect (R221). -/
  counts : Bool := false
  last : Nat := 0
  flags : BitVec 11 := 0#11
  /-- An enabled flag traps: S kind, V kind, tev (R99). -/
  traps : Bool := false
  effs : List Eff := []
  deriving DecidableEq, Repr

/-- A loop-stack entry (R324). -/
structure LoopE where
  start : Nat
  stop : Nat
  /-- The loop bundle's own address, for the trap state (R345). -/
  pc : Nat
  n : Nat
  j : Nat := 0
  mx : Nat
  /-- The tested predicate and its negate bit of `loop.w`. -/
  whl : Option (Nat × Bool) := none
  pre : Bool := false
  depth : Nat := 0
  deriving DecidableEq, Repr

/-- What a core is doing (R317, R337, R338). `draining`: its `exit` has issued, or its task was killed. -/
inductive Mode where
  | idle | task | draining | monitor | stopped
  deriving DecidableEq, Repr

/-- A pending destination of strict token mode (R226). space 0 tile memory, 1 dune store, 2 the scalar `lo`, 3 the monitor's. `n`: the
number of its stream or sktop as log 56 has it, 0 for others. -/
structure PRange where
  space : Nat
  lo : Nat
  len : Nat
  k : Nat
  target : Nat
  n : Nat := 0
  deriving DecidableEq, Repr

/-- A summary command in its core's queue (R176). `op` is its major; the operands were read at issue. -/
structure SumCmd where
  op : Nat
  z : Nat := 0
  k : Nat := 0
  x : Nat := 0
  y : Nat := 0
  vrow : VRow := {}
  mask : MaskReg := {}
  scal : PWord := {}
  addr : Nat := 0
  mon : Bool := false
  id : Nat := 0
  slot : Nat := 0
  pc : Nat := 0
  /-- Tile cycle of issue; the SDQ entry that takes the result, where the destination is the queue. -/
  issue : Nat := 0
  q : Option Nat := none
  started : Bool := false
  /-- The tile cycle in which it completes, once no tile-memory line is left. -/
  done : Nat := 0
  /-- Tile-memory lines moved and the bytes and poison of an image read so far. -/
  pos : Nat := 0
  buf : List Nat := []
  bufPoi : Bool := false
  headPoi : Bool := false
  deriving DecidableEq, Repr

/-- A context-region entry: its descriptor, unread until `desc` is given (R357). -/
structure CrgE where
  addr : Nat
  desc : Option (List Byte) := none
  deriving DecidableEq, Repr

/-- A pre-emption request that has reached a core: whether Rotrum made it, the task cycle of R355. -/
structure PreReq where
  host : Bool
  q : Nat
  deriving DecidableEq, Repr

/-- One core (R57 and the registers of R350). -/
structure Core where
  task : Bank := {}
  mon : Bank := {}
  m : SMap MaskReg := []
  v : SMap VRow := []
  /-- Accumulator rows written since the newer checkpoint, and between the two, as they were at the interval's start (R407). -/
  shadow : List (Nat × VRow) := []
  shadowOld : List (Nat × VRow) := []
  tok : SMap Token := []
  aflags : Word := 0#32
  satm : Bool := false
  cmds : Nat := 0
  lcyc : Nat := 0
  strict : Bool := false
  ranges : List PRange := []
  qs : Bool := false
  qv : Bool := false
  tsk : Nat := 0
  mode : Mode := .idle
  node : Nat := 0
  /-- Budget in task cycles; none is no budget (R304). -/
  budget : Option Nat := none
  pc : Nat := 0
  npc : Nat := 0
  due : Nat := 0
  /-- The header word of the due repeat bundle and its remaining repetitions (R345). -/
  repHdr : Word := 0#32
  repRem : Nat := 0
  loops : List LoopE := []
  calls : List (Nat × Nat) := []
  /-- The issuing bundle has set its successor; tile cycles to the next bundle (R207, R320). -/
  jumped : Bool := false
  gap : Nat := 1
  /-- The `loop.w` whose test is read when the next bundle is due (R326). -/
  loopTest : Bool := false
  /-- The task's, while the core is in the monitor. -/
  taskTest : Bool := false
  /-- The due boundary lies between iterations of a `loop.p`, or after one that popped (R353). -/
  preBoundary : Bool := false
  pend : List Pend := []
  seq : Nat := 0
  /-- L causes that landed in this cycle, keyed by issue number and slot (R342). -/
  lcause : List (Nat × Info) := []
  deferred : List (Nat × Info) := []
  decFault : List Info := []
  preReq : Option PreReq := none
  /-- The request for which it has stopped was withdrawn: it returns to its boundary (R356). -/
  recalled : Bool := false
  /-- It is being stepped: it takes cause 0x23 when the step ends (R393). -/
  dbgStep : Bool := false
  crc : BitVec 16 := 0xFFFF#16
  lastEnd : Nat := 0
  z : SMap Byte := []
  seed : PWord := ⟨0x2545_F491#32, false⟩
  sumQ : List SumCmd := []
  /-- Table entry e of table tb at key 256·tb + e, with its poison. -/
  tab : SMap DWord := []
  tabPoi : SMap Bool := []
  tshadow : SMap DWord := []
  tshadowPoi : SMap Bool := []
  tcfg : SMap PWord := []
  /-- Commands that opened an accumulator (R164): the command's number, 8·bundle + slot, and its rows. -/
  acc0 : List (Nat × Nat) := []
  acc1 : List (Nat × Nat) := []
  /-- Busy spans of the retire path, in tile cycles (R161). -/
  retSpans : List (Nat × Nat) := []
  wnext : Word := 0#32
  wlim : Word := 0#32
  wcfg : Word := 0#32
  mb : SMap PWord := []
  snapG : Word := 0#32
  snapT : Word := 0#32
  tpc : Word := 0#32
  tcause : Word := 0#32
  tinfo : SMap Word := []
  ttask : Word := 0#32
  trep : Word := 0#32
  tdlr : Word := 0#32
  /-- The bits of `mctl` last written (R346). -/
  mctl : Word := 0#32
  tdisp : Word := 6#32
  tlast : Word := 0#32
  svlo : Word := 0#32
  svhi : Word := 0#32
  svlen : Word := 0#32
  svcur : Word := 0#32
  svst : Word := 0#32
  crg : List CrgE := []
  /-- Barrier states: 0 NONE, 1 ARRIVED, 2 RELEASED (R332). -/
  bars : SMap Nat := []
  /-- Expected load in fifteenths, and the tile cycle in which the hint ends (R370). -/
  hint : Nat := 0
  hintEnd : Nat := 0
  trapLog : List (List Word) := []
  /-- The task was killed, for this cause; 0 for a kill without one (R346, R381). -/
  killed : Option Nat := none
  /-- The task has issued something a replay could not repeat (R420). -/
  sideEff : Bool := false
  /-- When the abstract monitor acts (log 10): a tile cycle. -/
  monAt : Option Nat := none
  deriving DecidableEq, Repr

/-! ### Tiles -/

/-- A command on a tile path, timed in tile cycles fixed at its issue (R446). kind: 0 mma, 1 mmaz, 2 gmma, 3 lwt, 4 accld, 5 accret,
6 ld.ds, 7 st.ds. -/
structure Path where
  kind : Nat
  core : Nat
  mon : Bool := false
  id : Nat := 0
  slot : Nat := 0
  pc : Nat := 0
  /-- Tile cycle of issue (R232), start cycle in tile cycles and in the cycles of the issuer's clock. -/
  issue : Nat := 0
  s : Nat
  s0 : Nat
  /-- Clock cycle of its last effect (R221). -/
  last : Nat
  acc : Bool := false
  w : Nat := 0
  addr : Nat := 0
  bt : Nat := 0
  /-- TY, or CV; the vector register of ld.ds and st.ds. -/
  ty : Nat := 0
  /-- The SDQ entry an `ld.ds` writes where its destination is the queue. -/
  q : Option Nat := none
  /-- It has started: the mode is read and the latch is captured. -/
  started : Bool := false
  sat : Bool := false
  dg : Nat := 0
  /-- Number among the tile's gmma commands (R157). -/
  gn : Nat := 0
  /-- A receiver of a gang takes no row from tile memory (R156). -/
  recv : Bool := false
  latch : SMap Byte := []
  latchPoi : SMap Bool := []
  latchOk : Bool := true
  data : VRow := {}
  /-- Rows read and not yet used: the row, its bytes, its poison bit for each word. -/
  rows : List (Nat × Nat × Nat) := []
  /-- Rows that were absent from the gang buffer (R157). -/
  absent : List Nat := []
  /-- First row not performed (R154, R233). -/
  stop : Option Nat := none
  deriving DecidableEq, Repr

/-- A copy-engine command (R244). DIR dt, RED 0 plain, 1 f32, 2 bf16, 3 i32; `node` for a copy node of the graph. -/
structure CopyCmd where
  dt : Bool
  red : Nat
  dst : Nat
  src : Nat
  len : Nat
  core : Nat := 0
  k : Nat := 0
  node : Option Nat := none
  /-- A number of its own; held by a start offset until its start. -/
  n : Nat := 0
  held : Bool := false
  start : Nat
  issue : Nat := 0
  slot : Nat := 0
  /-- Blocks performed, flags gathered, attempts at the present block that failed, whether the command failed (R244, R414). -/
  pos : Nat := 0
  flags : BitVec 11 := 0#11
  tries : Nat := 0
  bad : Bool := false
  /-- It has started, and does nothing before this tile cycle. -/
  going : Bool := false
  wake : Nat := 0
  mon : Bool := false
  deriving DecidableEq, Repr

/-- A row on its way down a gang column, or waiting in the gang buffer (R156, R157). -/
structure GangRow where
  due : Nat
  /-- It has arrived and holds its place in the buffer (R156). -/
  inBuf : Bool := false
  n : Nat
  row : Nat
  bt : Nat
  ty : Nat
  data : Nat
  poi : Nat
  deriving DecidableEq, Repr

/-- Node states (R305). -/
inductive NState where
  | wait | ready | running | armed | done
  deriving DecidableEq, Repr

/-- Run state of a graph node: state, count, ITER, ready cycle (R305, R307, R310); `iterSet` once its count has landed at zero. -/
structure NodeRt where
  st : NState := .wait
  count : Nat := 0
  iter : Nat := 0
  ready : Nat := 0
  iterSet : Bool := false
  /-- It has been replayed in this run; it was killed and will not be replayed (R420). -/
  replayed : Bool := false
  lost : Bool := false
  /-- Cores whose tasks of this dispatch were killed and have become idle, with the cause; whether a task that has ended issued what a replay
  could not repeat (R420). -/
  kills : List (Nat × Nat) := []
  sideEff : Bool := false
  /-- How Rotrum's last request for it ended, where it was withdrawn: 2 an overrun, 1 the end of the task (R355, R384). -/
  asked : Option Nat := none
  /-- Saved context to restore at dispatch (R361): the save area's DVA and length. -/
  saved : Option (Nat × Nat) := none
  /-- The saved cores, for what the save area's layout leaves unsaid of them (log 44). -/
  ctx : List (Nat × Core) := []
  /-- Its dispatch waits for a restore to finish (R361). -/
  restoring : Option Nat := none
  deriving DecidableEq, Repr


/-! ### Fabric -/

/-- What a caravan carries beside its flow-1 header (R286). -/
structure Caravan where
  dest2 : Nat
  orig2 : Nat
  ofs2 : Nat
  bid1 : Word
  bid2 : Word
  /-- Flow 2's SEQ; the header holds its low 16 bits. -/
  seq2 : Nat
  slen2 : Nat
  dch2 : Nat
  tag2 : Nat
  pix2 : Nat
  nfl1 : Nat
  nfl2 : Nat
  /-- Coding router's tile and coder-store entry. -/
  cx : Nat
  cent : Nat
  deriving DecidableEq, Repr

/-- A packet (R258). KIND as the header codes it. Payload bytes as one little-endian number, one poison bit for each word. -/
structure Packet where
  kind : Nat
  dest : Nat
  orig : Nat
  cls : Nat
  rel : Bool := false
  nfl : Nat := 0
  dch : Nat := 0
  tag : Nat := 0
  seq : Nat := 0
  ofs : Nat := 0
  slen : Nat := 0
  pix : Nat := 0
  data : Nat := 0
  poi : Nat := 0
  /-- The destinations a copy of a `send.m` still serves (R267); empty for other packets. -/
  dests : List Nat := []
  car : Option Caravan := none
  /-- What an acknowledgement answers: a collective-queue entry of the origin, and whether it is negative (R274). -/
  entry : Option Nat := none
  nak : Bool := false
  /-- A resend is never paired again (R298). -/
  resent : Bool := false
  /-- Ring size at which the offsets wrap, where a group's is not the receiver's (R256); 0 for the receiver's. -/
  wrap : Nat := 0
  /-- A caravan's half, decoded at its receiver (R295). -/
  decoded : Bool := false
  /-- The router input at which it reached its tile, as Flight.via (R275, R294). -/
  via : Nat := 4
  deriving DecidableEq, Repr

/-- A packet on its way: its head arrives, or has waited since it arrived, at the router of a tile on a global cycle. -/
structure Flight where
  p : Packet
  tile : Nat
  at' : Nat
  /-- The link it came in by: 0 east, 1 west, 2 south, 3 north, 4 its own tile; 5 from the router's coder, where it is not coded again. -/
  via : Nat := 4
  /-- The physical tile, 104·py + px, whose router an overlay write has left it at or bound for (R26). -/
  old : Option Nat := none
  deriving DecidableEq, Repr

/-- A packet in the lee buffer, the tile cycle on which it leaves, and the send token it then posts (R262, R265). -/
structure LeeE where
  p : Packet
  out : Nat
  tok : Option (Nat × Nat) := none
  /-- The number of its send, for the packets of a `send.rel` (R266). -/
  n : Nat := 0
  deriving DecidableEq, Repr

/-- A send, or a fired collective-queue entry, with source still to read (R265, R273). -/
structure SendJob where
  n : Nat
  held : Bool := false
  core : Nat
  kind : Nat
  cls : Nat
  dch : Nat
  dest : Nat
  dests : List Nat := []
  rel : Bool := false
  tok : Option Nat := none
  entry : Option Nat := none
  addr : Nat
  len : Nat
  seq : Nat := 0
  so : Nat := 0
  ring : Nat := 0
  /-- Contribution: target entry and index; direct write: the remote address. -/
  raddr : Nat := 0
  pix : Nat := 0
  wake : Nat
  /-- The free time before its first read has been drawn; packets made. -/
  going : Bool := false
  pos : Nat := 0
  deriving DecidableEq, Repr

/-- A `send.rel` whose packets have not all been acknowledged (R262): core, token, channel, SEQ, packets left. -/
structure RelWait where
  core : Nat
  k : Nat
  dch : Nat
  dest : Nat
  seq : Nat
  left : Nat
  deriving DecidableEq, Repr

/-- A channel: its descriptor (R255) and its run-time state (R256). -/
structure Chan where
  sv : Bool := false
  score : Nat := 0
  cls : Nat := 0
  grp : Bool := false
  stok : Nat := 0
  win : Nat := 0
  dch : Nat := 0
  smode : Nat := 0
  dest : Nat := 0
  rv : Bool := false
  rcore : Nat := 0
  mode : Nat := 0
  rop : Nat := 0
  atok : Nat := 0
  rsz : Nat := 0
  rbase : Nat := 0
  orig : Nat := 0
  /-- Ring or buffer size of the receive side that the send side names, as LOAD_IMAGE found it (R254, R256). -/
  ring : Nat := 0
  cr : Nat := 0
  sq : Nat := 0
  so : Nat := 0
  eq : Nat := 0
  u : Nat := 0
  /-- Packets performed of sends that have not posted: SEQ (in direct mode 2^32·origin + SEQ), PIX; and flags of reduce deposits. -/
  got : List (Nat × Nat) := []
  /-- SLEN of each such send. -/
  slens : List (Nat × Nat) := []
  flags : BitVec 11 := 0#11
  /-- TAG and class of the packet that arrived last, which a credit carries (R371). -/
  tag : Nat := 0
  acls : Nat := 4
  deriving DecidableEq, Repr

/-- A group entry (R268) with its shared SQ and SO and a credit for each destination (R256). -/
structure Group where
  v : Bool := false
  core : Nat := 0
  cls : Nat := 0
  stok : Nat := 0
  win : Nat := 0
  dch : Nat := 0
  dsts : List Nat := []
  ring : Nat := 0
  cr : List Nat := []
  sq : Nat := 0
  so : Nat := 0
  deriving DecidableEq, Repr

/-- A collective-queue entry (R272) with a target's full slots and combining position (R275). -/
structure CqE where
  v : Bool := false
  kind : Nat := 0
  core : Nat := 0
  atok : Nat := 0
  ctok : Nat := 0
  op : Nat := 0
  idx : Nat := 0
  st : Nat := 0
  ch : Nat := 0
  loc : Nat := 0
  raddr : Nat := 0
  len : Nat := 0
  thr : Nat := 0
  full : List Nat := []
  /-- Packets received of each contribution: its index + 64·(2^32·origin + SEQ), packets. -/
  parts : List (Nat × Nat) := []
  j : Nat := 0
  /-- 64-byte blocks of slot j combined. -/
  pos : Nat := 0
  flags : BitVec 11 := 0#11
  /-- A `qpost` has armed it without a threshold, or the threshold has been met. -/
  forced : Bool := false
  /-- Packets of a fired entry not yet acknowledged, and whether one was refused. -/
  left : Nat := 0
  bad : Bool := false
  deriving DecidableEq, Repr

/-- A side-table entry (R291). -/
structure SideE where
  held : Bool := false
  gen : Nat := 0
  addr : Nat := 0
  bid : Word := 0#32
  len : Nat := 0
  /-- Lines of the block written while it is held (R293). -/
  dirty : List Nat := []
  deriving DecidableEq, Repr

/-- A packet held for pairing (R285): its plan, its flow, the global cycle in which its head was routed. -/
structure HoldE where
  p : Packet
  plan : Nat
  flow : Nat
  since : Nat
  deriving DecidableEq, Repr

/-- A coder-store entry: the originals of a caravan whose halves are not yet freed (R288). -/
structure StoreE where
  cent : Nat
  h1 : Option Packet
  h2 : Option Packet
  deriving DecidableEq, Repr

/-- The caravan being decoded (R295): after its lookup, the side entry, its generation and STRICT; then the side bytes, their poison, and
the blocks that a write under the block has spoilt. -/
structure DecCur where
  p : Packet
  wake : Nat
  look : Option (Nat × Nat) := none
  strict : Bool := false
  side : Option (Nat × Nat) := none
  deriving DecidableEq, Repr

/-- What a hub answers to a request: a code of R251 or 0, the block it is about, where the piece lies, its bytes, and the blocks there that
came back poisoned. -/
structure HubAns where
  code : Nat := 0
  blk : Nat := 0
  tgt : Nat := 0
  addr : Nat := 0
  data : Nat := 0
  bad : List Nat := []
  deriving DecidableEq, Repr

/-- A stream in progress (R250). -/
structure StreamJob where
  n : Nat
  held : Bool := false
  core : Nat
  k : Nat
  issue : Nat := 0
  slot : Nat := 0
  id : Nat := 0
  /-- The control block has been read. -/
  read : Bool := false
  wr : Bool
  cb : Nat
  pc : Nat := 0
  /-- Control-block fields, once read. -/
  dva : Nat := 0
  loc : Nat := 0
  len : Nat := 0
  rows : Nat := 0
  op : Nat := 0
  rstr : Nat := 0
  lstr : Nat := 0
  row : Nat := 0
  off : Nat := 0
  /-- Its pieces have been translated at the hub; the hub's answer to the present piece. -/
  going : Bool := false
  ans : Option HubAns := none
  /-- First failing block and its status (R251). -/
  status : Nat := 0
  fail : Nat := 0
  /-- Every piece has been performed, or the stream stopped. -/
  fin : Bool := false
  /-- Attempts at the present piece's bus transfer that failed, and whether the last did (R414). -/
  tries : Nat := 0
  bad : Bool := false
  killed : Bool := false
  wake : Nat := 0
  mon : Bool := false
  deriving DecidableEq, Repr

/-- A context save or restore in progress on a tile (R359, R361). -/
structure SaveEng where
  restore : Bool
  node : Nat
  cmask : Nat
  area : Nat
  len : Nat
  pos : Nat := 0
  /-- The contents of the area by offset, once they have been taken, and where they end. -/
  going : Bool := false
  image : SMap Byte := []
  bodyEnd : Nat := 0
  /-- Regions still to be moved between the tile's memories and the image: whether it is STAGED, the region with its place in it, and where
  its bytes begin. -/
  regs : List (Bool × StreamJob × Nat) := []
  wake : Nat := 0
  /-- It has met a fault and waits for CONT (R360). -/
  stopped : Bool := false
  deriving DecidableEq, Repr

/-- Why a tile is frozen (R201). -/
inductive Frz where
  | replay | undo | migrate | debug | balance
  deriving DecidableEq, Repr

/-- Power state of a tile (R396). -/
inductive PState where
  | active | retention
  deriving DecidableEq, Repr

/-- A memory or bus error waiting to be met (R412 to R414). space 0 tile memory, 1 dune store (word addresses). -/
structure LatentErr where
  space : Nat
  addr : Nat
  double : Bool
  deriving DecidableEq, Repr

/-- An error event (R417, R418). -/
structure ErrEvt where
  ue : Bool
  src : Nat
  addr : Word
  core : Option Nat := none
  deriving DecidableEq, Repr

/-- A static requester of tile-memory banks in one cycle (R230): tile cycle of issue, core, bundle number, slot, kind (R234), PC. -/
structure Req where
  issue : Nat
  core : Nat
  id : Nat
  slot : Nat
  kind : Nat
  pc : Nat
  addr : Nat
  len : Nat
  deriving DecidableEq, Repr

/-- A line's contents before its first write in an interval, 64 bytes and their poison bits (R406). -/
structure Undo where
  space : Nat
  line : Nat
  old : Nat
  poi : Nat
  deriving DecidableEq, Repr

/-- What reaches a tile from outside and is journalled with its tile cycle (R406): a packet, a gang row, the release of a gang barrier to cores
of the tile, a launch, Rotrum's request for a node. -/
inductive Outside where
  | packet (p : Packet)
  | row (r : GangRow)
  | release (cores : List Nat) (b : Nat)
  | launch (l : Nat × Bool × Nat × BitVec 256)
  | request (n : Nat)
  deriving DecidableEq, Repr

/-- The identity of a packet that has left (R408): class, kind, channel, entry, destination, sequence number, packet index. -/
structure PacketId where
  cls : Nat
  kind : Nat
  dch : Nat
  entry : Option Nat
  dest : Nat
  seq : Nat
  pix : Nat
  deriving DecidableEq, Repr

/-- One logical tile with its router. -/
structure Tile where
  held : Bool := false
  stage : Nat := 0
  cores : SMap Core := []
  /-- GCYC − TCYC: the global cycles this tile has stood frozen (R3, R200). -/
  lag : Nat := 0
  /-- Freezes in force: cause, and the global cycle on which each ends, if fixed. -/
  frz : List (Frz × Option Nat) := []
  lastBal : Option Nat := none
  nBal : Nat := 0
  ps : PState := .active
  retLoss : Nat := 0
  /-- What retention has lost, as the environment gives it (R421): 4 KiB blocks of space 0 tile memory, 1 dune store, 2 summary memory
  (64·core + slot), 3 code store; register groups of core c in space 8 + c. -/
  retBad : List (Nat × Nat) := []
  tm : SMap Byte := []
  tmPoi : SMap Bool := []
  ds : SMap Byte := []
  dsPoi : SMap Bool := []
  errs : List LatentErr := []
  seen : List LatentErr := []
  code : SMap Byte := []
  cmap : SMap Word := []
  /-- CODE pages the image holds: VPN, bytes (R341). -/
  pages : List (Nat × List Byte) := []
  monRom : Bool := false
  /-- Image byte b of column j of latch w at key 12,288·w + 192·j + b; poison of 8 bytes at key/8. -/
  latch : SMap Byte := []
  latchPoi : SMap Bool := []
  leaseCore : Option Nat := none
  leaseLast : Option Nat := none
  /-- Tile cycle of the last grant (R139). -/
  leaseAt : Nat := 0
  leaseReq : List (Nat × Nat) := []
  /-- Busy spans of the array and of the lwt path: first and last tile cycle (R162). -/
  arrSpans : List (Nat × Nat) := []
  lwtSpans : List (Nat × Nat) := []
  /-- Latch w: first start cycle an array command may have, and last busy cycle of a reader plus one. -/
  latchRdy : SMap Nat := []
  latchRead : SMap Nat := []
  paths : List Path := []
  /-- Banks in use by static requesters in this cycle, each with the requester that counts there (R232). -/
  banks : List (Nat × Req) := []
  /-- Numbers of copies, streams and sends. -/
  cmdSeq : Nat := 0
  gang : Word := 0#32
  gangN : Nat := 0
  gangBuf : List GangRow := []
  copyQ : List CopyCmd := []
  busLog : SMap Word := []
  /-- Lanes whose beats fail parity, as the environment gives them (R413, R414): column, lane, and how many beats are still to fail, or none for
  a stuck lane. -/
  badBus : List (Nat × Nat × Option Nat) := []
  /-- A lane test under way: its column and the global cycle in which it ends; the column whose last test has named no lane (R414). -/
  laneTest : Option (Nat × Nat) := none
  laneNone : Option Nat := none
  streams : List StreamJob := []
  chans : SMap Chan := []
  groups : SMap Group := []
  cq : SMap CqE := []
  /-- Word 0 and the plan words of class c at key 1,024·c + index (R260, R283). -/
  routes : SMap Word := []
  sends : List SendJob := []
  lee : List LeeE := []
  fence : SMap Nat := []
  /-- The packets that the fence counts, one for each replica: class, channel, destination, SEQ, PIX (R266, R299). -/
  outst : List (Nat × Nat × Nat × Nat × Nat) := []
  /-- The `send.rel` whose packets may leave on each class: its number plus one (R266). -/
  relOpen : SMap Nat := []
  rels : List RelWait := []
  arrq : List Packet := []
  hold : List HoldE := []
  store : List StoreE := []
  linkFree : SMap Nat := []
  rr : SMap Nat := []
  noCode : Bool := false
  side : SMap SideE := []
  /-- Blocks whose side.add has issued and not yet taken effect (R293). -/
  adding : List SideE := []
  decEn : Bool := true
  decStrict : Bool := false
  decBad : Bool := false
  decCfgQ : List (Nat × Nat) := []
  decQ : List Packet := []
  decCur : Option DecCur := none
  dcar : Nat := 0
  dflt : Nat := 0
  dnak : Nat := 0
  dres : Nat := 0
  ccar : Nat := 0
  cunc : Nat := 0
  cres : Nat := 0
  nodes : SMap (List Word) := []
  succ : SMap Nat := []
  nrt : SMap NodeRt := []
  running : Bool := false
  /-- What the walker applies in a coming tile cycle: the cycle; 0 for a decrement, 1 for a while-body reset, 2 for a while bound's graph
  fault; the node (R306, R310). -/
  comp : List (Nat × Nat × Nat) := []
  lcnt : Nat := 0
  /-- Launches on their way: the global cycle in which each arrives, whether it is a START, the command's number, the arguments (R313). -/
  launchQ : List (Nat × Bool × Nat × BitVec 256) := []
  barE : SMap Word := []
  gangE : SMap (List Word) := []
  cw : SMap PWord := []
  replays : SMap (List Byte) := []
  marks : List Nat := []
  errbank : SMap Word := []
  /-- The error events of a global cycle, that cycle, and the bank before them (R417). -/
  errEvts : List ErrEvt := []
  errAt : Nat := 0
  errBase : SMap Word := []
  /-- Corrected words waiting to be written back (R412). -/
  back : List LatentErr := []
  /-- GCYC of the corrected errors recorded, and whether Rotrum is to migrate the tile (R422). -/
  corr : List Nat := []
  wantMig : Bool := false
  strikes : List Nat := []
  /-- The two retained checkpoints, newer first: TCYC, GCYC, lines logged since (R405, R406). -/
  ck : List (Nat × Nat × Nat) := []
  /-- The records of the current interval, newest first, its count of journalled lines, and the records of the interval before (R406). -/
  undo : List Undo := []
  journal : Nat := 0
  undoOld : List Undo := []
  /-- The journal of both intervals: tile cycle and effect. -/
  outside : List (Nat × Outside) := []
  outsideOld : List (Nat × Outside) := []
  /-- GCYC − TCYC, the halted cycles before it and the job restores, from each tile cycle on in which they changed: what `cyc.gl` and `cyc.gh`
  return, and which free values `ent` draws (R406). -/
  clock : List (Nat × Nat × Nat × Nat) := []
  /-- Free values drawn by the tile's own turns. -/
  draws : Nat := 0
  /-- Packets that have left since the older checkpoint, and when (R408). -/
  gone : List (Nat × PacketId) := []
  /-- The columns on which a fixed-latency beat failed parity, until they are reported (R413). -/
  parity : List Nat := []
  save : Option SaveEng := none
  /-- Context regions that the last save ignored: core and entry (R357). -/
  crgIgn : List (Nat × Nat) := []
  /-- Token arrivals to saved cores: node, core, token, error class (R220). -/
  savedArr : List (Nat × Nat × Nat × Nat) := []
  /-- Debug step: tile cycles left (R393). -/
  stepLeft : Nat := 0
  /-- The last TCYC of a replay under way (R410); the journal that it has yet to apply; what waits outside; the barrier states of the cores as
  they stood at the report. -/
  replayTo : Option Nat := none
  toRedo : List (Nat × Outside) := []
  late : List Outside := []
  barsAt : List (SMap Nat) := []
  /-- Hub answers since the older checkpoint with their tile cycles, and those a replay has yet to be given. -/
  answers : List (Nat × HubAns) := []
  redo : List HubAns := []
  deriving DecidableEq, Repr

/-! ### The module -/

/-- Boot state (R386). -/
inductive Boot where
  | pending | normal | defectLimit | bootFail
  deriving DecidableEq, Repr

/-- What acts next: an event or a host command on a tile and core; an event that is a part of the tile's own tile cycle, which a replay runs
again (R410); the issue turn of a core. -/
inductive Turn where
  | event (t c arg : Nat) (i : Instr)
  | own (t c arg : Nat) (i : Instr)
  | issue (t c : Nat)
  deriving DecidableEq, Repr

/-- A host command that has started and whose record is not yet written (R381). -/
structure HostJob where
  /-- Its number on its port. -/
  n : Nat
  tag : Word
  i : Instr
  /-- Whether its conditions have been checked; step of the command, a cycle or a number it waits for, and progress. -/
  started : Bool := false
  stage : Nat := 0
  at' : Nat := 0
  pos : Nat := 0
  /-- The named ranges of a CHECKPOINT: DVA, length. -/
  ranges : List (Nat × Nat) := []
  /-- Status and result, once it has ended. -/
  fin : Option (Nat × Nat) := none
  deriving DecidableEq, Repr

/-- A write by a host: its global cycle, port B or A, into the register window or host memory, the offset or address, the bytes. -/
structure HostWrite where
  at' : Nat
  port : Bool
  window : Bool
  addr : Nat
  bytes : List Byte
  deriving DecidableEq, Repr

/-- A port's register window (R379) with the model's place in the completion ring. -/
structure Port where
  sqb : DWord := 0#64
  sqn : Nat := 0
  sqt : Nat := 0
  cqb : DWord := 0#64
  cqn : Nat := 0
  cqh : Nat := 0
  head : Nat := 0
  cqt : Nat := 0
  phase : Bool := true
  enabled : Bool := false
  mem : SMap Byte := []
  /-- 64-byte blocks of host memory whose completions come back poisoned, as the environment gives them (R251). -/
  poisoned : List Nat := []
  /-- Commands started, in order, and how many ever were. -/
  jobs : List HostJob := []
  jobSeq : Nat := 0
  /-- Records waiting for room in the completion ring. -/
  outRec : List (List Byte) := []
  deriving DecidableEq, Repr

/-- A sealed job checkpoint (R426): the tiles and the bytes of the named ranges. -/
structure Ckpt where
  dva : Nat
  len : Nat
  /-- Its global cycle, in cycles the domain had run. -/
  gcyc : Nat
  tiles : SMap Tile
  flights : List Flight
  runs : List (List Nat)
  gangRel : List (Nat × Nat × Nat × Nat)
  snaps : SMap (List Tile) := []
  ranges : List (Nat × List Byte)
  deriving DecidableEq, Repr

/-- The machine. -/
structure State where
  /-- Global cycles in which the domain has run, and those in which it has stood halted: GCYC is their sum (R3, R394). -/
  gcyc : Nat := 0
  haltSum : Nat := 0
  agenda : List Turn := []
  curT : Nat := 0
  curC : Nat := 0
  curArg : Nat := 0
  slot : Nat := 1
  /-- The bundle that is issuing: its tree leaf if any, its words, and its address after the last word. -/
  leaf : Option Nat := none
  words : List Word := []
  /-- The tile as it stood before the issuing bundle, which is what its reads of status see (R12, R42). -/
  before : Option Tile := none
  /-- The cause a slot of the issuing bundle raised. -/
  raised : Option Info := none
  free : Nat := 0
  inputs : List (Nat × Turn) := []
  hostIn : List HostWrite := []
  domW : Nat := 1
  domH : Nat := 1
  wx : Nat := 0
  wy : Nat := 0
  boot : Boot := .pending
  selfFail : List Nat := []
  recFail : List Nat := []
  flashOk : Bool := true
  pufOk : Bool := true
  defectCause : Nat := 0
  seg : SMap Word := []
  ovl : SMap Word := []
  pendOvl : List (Nat × Nat × Word) := []
  /-- A rebuilt map on its way: the global cycle it names, segment words, overlay (R26, R429). -/
  pendMap : Option (Nat × SMap Word × SMap Word) := none
  physFail : List Nat := []
  /-- Migrations under way: tile, step, the global cycle of its next step, the oasis (R423). -/
  migs : List (Nat × Nat × Nat × Nat) := []
  tiles : SMap Tile := []
  flights : List Flight := []
  /-- What has left by an optical port: the port, the wafer it leads to, the packet (R30). -/
  optOut : List (Nat × Nat × Nat × Packet) := []
  /-- The memory modules (R248): byte o of hub h's at key 128·10^9·h + o. The environment gives the 64-byte blocks with media errors and the
  512-byte sectors whose tag does not match, by key / 64 and key / 512 (R389). -/
  t2 : SMap Byte := []
  t2media : List Nat := []
  t2tag : List Nat := []
  range : SMap (List DWord) := []
  ptRoot : Nat := 0
  tlb : List (Nat × Nat) := []
  portA : Port := {}
  portB : Port := {}
  sem : SMap Word := []
  semTie : Bool := false
  otmo : Nat := 0
  idleSince : Nat := 0
  scrubEnd : Option Nat := none
  scrubFree : Bool := false
  keysEpoch : Nat := 0
  imgHash : BitVec 512 := 0#512
  dbgAuth : Bool := false
  dbgEver : Bool := false
  dbgMask : BitVec 4 := 0#4
  challenge : Option (BitVec 512) := none
  haltAt : Option Nat := none
  halted : Bool := false
  haltLeft : Nat := 0
  resumeAt : Option Nat := none
  cap : Nat := 28000
  reqPoint : Nat := 4
  chosen : Nat := 4
  point : Nat := 4
  markSet : BitVec 256 := 0#256
  /-- The marks that all tiles with an image on the other wafers of the domain have reached; data of the environment (log 42). -/
  marksOut : BitVec 256 := 0#256
  /-- The clock change under way, its point; the global cycle of the next power window. -/
  clkAt : Option Nat := none
  clkTo : Nat := 4
  winAt : Nat := 1100000
  /-- Row pairs with ballast in place, and the global cycle in which each is looked at again (R363). -/
  balAt : SMap Nat := []
  lowWin : Nat := 0
  nWin : Nat := 0
  energy : SMap Nat := []
  /-- Tags for which something was done since the last update; the module totals: 0 ballast, 1 leakage, 2 idle (R371, R372). -/
  worked : List Nat := []
  energyOff : SMap Nat := []
  ckpts : List Ckpt := []
  aborted : Bool := false
  /-- The copied part of each tile's checkpoints, newer first (R405). -/
  snaps : SMap (List Tile) := []
  /-- Job restores so far. -/
  restores : Nat := 0
  /-- For each START, the tiles that have not reported their end (R311, R381). -/
  runs : List (List Nat) := []
  /-- Releases of gang barriers under way: global cycle, tile, barrier, cores (R333). -/
  gangRel : List (Nat × Nat × Nat × Nat) := []
  /-- The job is being restored: the global cycle on which the domain restarts; the checkpoint's place among them. -/
  restoreAt : Option (Nat × Nat) := none
  deriving DecidableEq, Repr

/-- The machine right after reset (log entries 1 to 11, 13 and 23 name the values that the spec leaves open). Boot is what happens first (R386). -/
def State.reset : State := { agenda := [.event 0 0 0 .boot] }

end Sys2Proof.Machine
end

