-- ==== Sys2Proof/Machine/Ops.lean ====
section
/-! DEFINITION. The named operations over registers, memories, tokens and the pending-write record; taking a trap and returning
from one. Every read and write of the machine's state by an instruction goes through these. -/

namespace Sys2Proof.Machine

/-! ### Homes -/

def State.tile (s : State) (t : Nat) : Tile := sget {} s.tiles t
def State.setTile (s : State) (t : Nat) (x : Tile) : State := { s with tiles := sset {} s.tiles t x }
def State.upT (s : State) (t : Nat) (f : Tile → Tile) : State := s.setTile t (f (s.tile t))
def Tile.core (x : Tile) (c : Nat) : Core := sget {} x.cores c
def Tile.setCore (x : Tile) (c : Nat) (y : Core) : Tile := { x with cores := sset {} x.cores c y }
def Tile.upC (x : Tile) (c : Nat) (f : Core → Core) : Tile := x.setCore c (f (x.core c))

/-- The tile and the core whose turn it is. -/
def State.here (s : State) : Tile := s.tile s.curT
def State.core (s : State) : Core := s.here.core s.curC
def State.upHere (s : State) (f : Tile → Tile) : State := s.upT s.curT f
def State.upCore (s : State) (f : Core → Core) : State := s.upHere fun x => x.upC s.curC f
def State.coreAt (s : State) (t c : Nat) : Core := (s.tile t).core c
def State.upCoreAt (s : State) (t c : Nat) (f : Core → Core) : State := s.upT t fun x => x.upC c f

/-- GCYC (R3). -/
def State.glob (s : State) : Nat := s.gcyc + s.haltSum
/-- The domain stands halted in this global cycle, and no STEP runs it (R394). -/
def State.still (s : State) : Bool := s.halted && s.haltLeft == 0
/-- TCYC of a tile (R3, R200). -/
def State.tcyc (s : State) (t : Nat) : Nat := s.gcyc - (s.tile t).lag

/-- Tile t stands frozen for another cause than a replay, whose own turns run (R201, R410). -/
def State.stands (s : State) (t : Nat) : Bool :=
  (s.tile t).frz.any fun f => f.1 != .replay && match f.2 with | some g => decide ((if f.1 = .debug then s.glob else s.gcyc) < g) | none => true
/-- Tile t stands frozen in this global cycle (R201). The end of a debug stop counts halted cycles too, for U is a GCYC (R394). -/
def State.frozen (s : State) (t : Nat) : Bool :=
  (s.tile t).frz.any fun f => match f.2 with | some g => decide ((if f.1 = .debug then s.glob else s.gcyc) < g) | none => true

/-- The tile that a read of status in the issuing bundle sees (R12, R42). -/
def State.seen (s : State) : Tile := s.before.getD s.here
def State.seenCore (s : State) : Core := s.seen.core s.curC

/-- Whether a core runs in the monitor (R338). -/
def Core.inMon (c : Core) : Bool := c.mode == .monitor

/-- The register bank an instruction of the core names (R338). -/
def Core.bank (c : Core) : Bank := if c.inMon then c.mon else c.task
def Core.setBank (c : Core) (b : Bank) : Core := if c.inMon then { c with mon := b } else { c with task := b }

/-- The cycle count offsets of new work are measured in: task cycles, or tile cycles in the monitor. -/
def State.clock (s : State) : Nat := if s.core.inMon then s.tcyc s.curT else s.core.tsk

/-- A free value for this step: the counter moves on (log 3). -/
def State.draw (s : State) : State := { s with free := s.free + 1 }

/-! ### Registers (R57) -/

/-- s0 reads zero. -/
def Bank.sreg (b : Bank) (n : Nat) : PWord := if n = 0 then {} else sget {} b.s n
/-- A write to s0 is discarded. -/
def Bank.setS (b : Bank) (n : Nat) (v : PWord) : Bank := if n = 0 then b else { b with s := sset {} b.s n v }
def Bank.areg (b : Bank) (n : Nat) : PWord := sget {} b.a n
def Bank.setA (b : Bank) (n : Nat) (v : PWord) : Bank := { b with a := sset {} b.a n v }
/-- p0 reads true. -/
def Bank.preg (b : Bank) (n : Nat) : PBit := if n = 0 then ⟨true, false⟩ else sget {} b.p n
/-- A write to p0 is discarded. -/
def Bank.setP (b : Bank) (n : Nat) (v : PBit) : Bank := if n = 0 then b else { b with p := sset {} b.p n v }
/-- m0 reads all ones. -/
def Core.mreg (c : Core) (n : Nat) : MaskReg := if n = 0 then ⟨BitVec.allOnes 128, 0#128⟩ else sget {} c.m n
/-- The bits of `sel` of a mask; a write to m0 is discarded. -/
def Core.setM (c : Core) (n : Nat) (sel v p : BitVec 128) : Core :=
  if n = 0 then c
  else
    let o := c.mreg n
    { c with m := sset {} c.m n ⟨(o.val &&& ~~~sel) ||| (v &&& sel), (o.poi &&& ~~~sel) ||| (p &&& sel)⟩ }
def Core.vreg (c : Core) (n : Nat) : VRow := sget {} c.v n
/-- Row n is about to be written: its old value goes to the interval's shadow at the first write (R407). -/
def Core.shade (c : Core) (n : Nat) : Core := { c with shadow := if c.shadow.any fun e => e.1 == n then c.shadow else (n, c.vreg n) :: c.shadow }
def Core.setV (c : Core) (n : Nat) (r : VRow) : Core := { c.shade n with v := sset {} c.v n r }
def Core.token (c : Core) (k : Nat) : Token := sget {} c.tok k
def Core.setTok (c : Core) (k : Nat) (t : Token) : Core := { c with tok := sset {} c.tok k t }

/-- A mask of the low n bits. -/
def ones (w n : Nat) : BitVec w := BitVec.ofNat w (2 ^ n - 1)

/-- Each bit of x spread over k bits. -/
def spread (k : Nat) (bits : List Bool) : Nat :=
  match bits with
  | [] => 0
  | b :: r => (if b then 2 ^ k - 1 else 0) + 2 ^ k * spread k r

/-- The bits of a vector, low first. -/
def bitsOf {w : Nat} (n : Nat) (x : BitVec w) : List Bool := (upto 0 n).map fun i => x.getLsbD i

/-- A row write: enabled bytes are replaced. A word keeps its old poison where part of it keeps its old contents (R112). -/
def VRow.write (r : VRow) (en : BitVec 256) (val : Bits256) (poi : BitVec 64) : VRow :=
  let m : Bits256 := BitVec.ofNat 2048 (spread 8 (bitsOf 256 en))
  let word (i : Nat) : Bool :=
    let e := (en.toNat / 2 ^ (4 * i)) % 16
    if e = 0 then r.poi.getLsbD i else poi.getLsbD i || (decide (e ≠ 15) && r.poi.getLsbD i)
  ⟨(r.val &&& ~~~m) ||| (val &&& m), BitVec.ofNat 64 (spread 1 ((upto 0 64).map word))⟩

/-! ### Tokens (R210) -/

/-- Adds to the arrived count. Past 0xFFFF it saturates and records class 6. -/
def Token.arrive (t : Token) (n : Nat) : Token :=
  if t.arr + n ≤ 0xFFFF then { t with arr := t.arr + n }
  else { t with arr := 0xFFFF, errn := Nat.min 15 (t.errn + 1), errc := if t.errc = 0 then 6 else t.errc }

/-- Records an error class. -/
def Token.fail (t : Token) (cls : Nat) : Token :=
  if cls = 0 then t else { t with errn := Nat.min 15 (t.errn + 1), errc := if t.errc = 0 then cls else t.errc }

/-- A post: one from in-flight to arrived, with an error class or 0. -/
def Token.post (t : Token) (cls : Nat) : Token := ({ t with infl := t.infl - 1 }.fail cls).arrive 1

/-- Posts k; a tracked destination whose target is reached is released (R226). -/
def Core.post (c : Core) (k cls : Nat) : Core :=
  let t := (c.token k).post cls
  { c.setTok k t with ranges := c.ranges.filter fun r => !(r.k == k && decide (r.target ≤ t.arr)) }
/-- An arrival on k, from outside the core's own commands. -/
def Core.arrive (c : Core) (k n : Nat) : Core :=
  let t := (c.token k).arrive n
  { c.setTok k t with ranges := c.ranges.filter fun r => !(r.k == k && decide (r.target ≤ t.arr)) }
def Core.fail (c : Core) (k cls : Nat) : Core := c.setTok k ((c.token k).fail cls)
def Core.inflight (c : Core) (k : Nat) : Core := let t := c.token k; c.setTok k { t with infl := t.infl + 1 }
/-- Every in-flight count is zero. -/
def Core.quiet (c : Core) : Bool := c.tok.all fun x => x.2.infl == 0

/-- Sets sticky flags of `aflags` (R96). -/
def Core.flag (c : Core) (f : BitVec 11) : Core := { c with aflags := c.aflags ||| f.setWidth 32 }

/-! ### Order -/

/-- Puts x before the first element that comes after it: a stable insertion. -/
def insertBy {α : Type} (before : α → α → Bool) (x : α) : List α → List α
  | [] => [x]
  | y :: r => if before x y then x :: y :: r else y :: insertBy before x r
/-- A stable sort. -/
def orderBy {α : Type} (before : α → α → Bool) (l : List α) : List α := l.foldl (fun a x => insertBy before x a) []

/-! ### Error bank (R416, R417) -/

/-- One event against the bank, in global cycle `glo` (R417). -/
def bankEvent (glo : Nat) (b : SMap Word) (e : ErrEvt) : SMap Word :=
  let w (i : Nat) : Word := sget 0#32 b i
  let hdr : Word := BitVec.ofNat 32 (2 ^ 31 + (if e.ue then 2 ^ 30 else 0) + e.src * 2 ^ 24
    + (match e.core with | some c => c * 2 ^ 22 + 2 ^ 21 | none => 0))
  let put : SMap Word := sset 0#32 (sset 0#32 (sset 0#32 b 0 hdr) 1 e.addr) 2 (BitVec.ofNat 32 glo)
  let cnt := (w 3).extractLsb' 16 16; let lost := (w 3).extractLsb' 0 16
  let inc (v : BitVec 16) : BitVec 16 := if v == 0xFFFF#16 then v else v + 1#16
  if e.ue then
    (if (w 0).getLsbD 31 && (w 0).getLsbD 30 then sset 0#32 (sset 0#32 b 0 (w 0 ||| 0x2000_0000#32)) 3 (cnt ++ inc lost) else put)
  else sset 0#32 (if (w 0).getLsbD 31 then b else put) 3 (inc cnt ++ lost)
/-- The order of the events of one global cycle: uncorrectable first, then by source and address. -/
def ErrEvt.before (a b : ErrEvt) : Bool :=
  (a.ue && !b.ue) || (a.ue == b.ue && (decide (a.src < b.src) || (a.src == b.src && decide (a.addr.toNat < b.addr.toNat))))
/-- An error event: the bank is what the events of this global cycle make, in their order, of the bank before them. -/
def Tile.record (x : Tile) (glo : Nat) (ue : Bool) (src : Nat) (addr : Word) (core : Option Nat) : Tile :=
  let base := if x.errAt = glo then x.errBase else x.errbank
  let l := insertBy ErrEvt.before ⟨ue, src, addr, core⟩ (if x.errAt = glo then x.errEvts else [])
  { x with errAt := glo, errBase := base, errEvts := l, errbank := l.foldl (bankEvent glo) base, corr := if ue then x.corr else glo :: x.corr }
/-- Rotrum clears V, and words 0 to 2 with it (R416). -/
def Tile.clearBank (x : Tile) : Tile :=
  let f (b : SMap Word) : SMap Word := sset 0#32 (sset 0#32 (sset 0#32 b 0 0#32) 1 0#32) 2 0#32
  { x with errbank := f x.errbank, errEvts := [], errBase := f x.errbank }

/-! ### Memories of a tile -/

/-- Poison of the words that bytes a to a+n-1 touch; `g` bytes share one poison bit. Bit i is the i-th such word. -/
def poiBits (m : SMap Bool) (g a n : Nat) : Nat :=
  if n = 0 then 0 else spread 1 ((upto (a / g) ((a + n - 1) / g + 1 - a / g)).map fun w => sget false m w)

/-- The 64 bytes of a line and their poison. Spaces: 0 tile memory, 1 dune store, 2 to 5 summary memory of a core, 6 latches, 7 to 10 tables of
a core. -/
def Tile.line (x : Tile) (space l : Nat) : Nat × Nat :=
  if space = 0 then (sgetBytes x.tm (64 * l) 64, poiBits x.tmPoi 4 (64 * l) 64)
  else if space = 1 then (sgetBytes x.ds (64 * l) 64, poiBits x.dsPoi 8 (64 * l) 64)
  else if space < 6 then (sgetBytes (x.core (space - 2)).z (64 * l) 64, 0)
  else if space = 6 then (sgetBytes x.latch (64 * l) 64, poiBits x.latchPoi 8 (64 * l) 64)
  else
    let y := x.core (space - 7)
    ((upto 0 8).foldr (fun k v => (sget 0#64 y.tab (8 * l + k)).toNat + 2 ^ 64 * v) 0, poiBits y.tabPoi 1 (16 * l) 16)
/-- A line is written: it takes a record of the undo log at its first write in the interval (R406). -/
def Tile.touch (x : Tile) (space line : Nat) : Tile :=
  if x.undo.any fun u => u.space == space && u.line == line then x
  else let o := x.line space line; { x with undo := ⟨space, line, o.1, o.2⟩ :: x.undo }

/-- Touches the lines of n bytes from a. -/
def Tile.touchRange (x : Tile) (space a n : Nat) : Tile :=
  if n = 0 then x else (upto (a / 64) ((a + n - 1) / 64 + 1 - a / 64)).foldl (fun y l => y.touch space l) x

/-- Sets poison for bytes a to a+n-1 from one bit for each word: a word written in part keeps its old poison too (R112, R238). -/
def setPoiBits (m : SMap Bool) (g a n p : Nat) : SMap Bool :=
  if n = 0 then m
  else
    let w0 := a / g
    (upto w0 ((a + n - 1) / g + 1 - w0)).foldl (fun m w =>
      let whole := decide (a ≤ w * g) && decide (w * g + g ≤ a + n)
      sset false m w (p.testBit (w - w0) || (!whole && sget false m w))) m

/-- Bytes of the word that an error-correcting code covers (R412). -/
def eccWord (space : Nat) : Nat := if space = 0 then 4 else 8
/-- The word at w is touched by n bytes at a, or written by them as a whole. -/
def wordTouched (g a n w : Nat) : Bool := decide (a < w + g) && decide (w < a + n)
def wordFilled (g a n w : Nat) : Bool := decide (a ≤ w) && decide (w + g ≤ a + n)
/-- The errors of the words that satisfy f are met: double errors become poison, and all wait for their record and write-back (R412). -/
def Tile.meetWords (x : Tile) (space : Nat) (f : Nat → Bool) : Tile :=
  if x.errs.isEmpty then x
  else
    let g := eccWord space
    let hit := x.errs.filter fun e => e.space == space && f (e.addr / g * g)
    let bad := hit.filter (·.double)
    let x := bad.foldl (fun x e => x.touch space (e.addr / 64)) x
    let x := { x with errs := x.errs.filter fun e => !hit.contains e, seen := x.seen ++ hit }
    bad.foldl (fun x e => if space = 0 then { x with tmPoi := sset false x.tmPoi (e.addr / 4) true }
      else { x with dsPoi := sset false x.dsPoi (e.addr / 8) true }) x
/-- A read of bytes a to a+n-1 meets the errors of their words. -/
def Tile.meet (x : Tile) (space a n : Nat) : Tile := x.meetWords space (wordTouched (eccWord space) a n)
/-- A write of these bytes reads the words of which it writes a part (R238, R412). -/
def Tile.meetParts (x : Tile) (space a n : Nat) : Tile :=
  x.meetWords space fun w => wordTouched (eccWord space) a n w && !wordFilled (eccWord space) a n w
/-- The errors that a write of these bytes leaves: those of the words it fills are gone. -/
def errsAfter (l : List LatentErr) (space a n : Nat) : List LatentErr :=
  l.filter fun e => !(e.space == space && wordFilled (eccWord space) a n (e.addr / eccWord space * eccWord space))

def Tile.tmRead (x : Tile) (a n : Nat) : Nat := sgetBytes x.tm a n
def Tile.tmPoiR (x : Tile) (a n : Nat) : Nat := poiBits x.tmPoi 4 a n
/-- A held side block notes the lines of it that a write of n bytes at a touches (R293). -/
def SideE.note (e : SideE) (a n : Nat) : SideE :=
  if e.held && decide (a < e.addr + 64 * e.len) && decide (e.addr < a + n) then
    { e with dirty := e.dirty ++ (upto (a / 64) ((a + n - 1) / 64 + 1 - a / 64)).filter fun l => !e.dirty.contains l }
  else e
/-- Writes n bytes of v at tile-memory address a with poison p, one bit for each word touched. -/
def Tile.tmWrite (x : Tile) (a n v p : Nat) : Tile :=
  let x := x.meetParts 0 a n
  { x.touchRange 0 a n with side := x.side.map fun e => (e.1, e.2.note a n), adding := x.adding.map fun e => e.note a n
                            tm := ssetBytes x.tm a n v, tmPoi := setPoiBits x.tmPoi 4 a n p, errs := errsAfter x.errs 0 a n }
def Tile.dsRead (x : Tile) (a n : Nat) : Nat := sgetBytes x.ds a n
/-- Poison of the dune store, one bit for each 32-bit word: both words of a poisoned 64-bit word are poisoned (R241). -/
def Tile.dsPoiR (x : Tile) (a n : Nat) : Nat :=
  if n = 0 then 0 else spread 1 ((upto (a / 4) ((a + n - 1) / 4 + 1 - a / 4)).map fun w => sget false x.dsPoi (w / 2))
/-- Halves of a poison number: bit i is bit 2i or bit 2i+1. -/
def pairUp (p : Nat) : Nat → Nat
  | 0 => 0
  | n + 1 => (if p % 4 = 0 then 0 else 1) + 2 * pairUp (p / 4) n
def Tile.dsWrite (x : Tile) (a n v p : Nat) : Tile :=
  let x := x.meetParts 1 a n
  { x.touchRange 1 a n with ds := ssetBytes x.ds a n v, dsPoi := setPoiBits x.dsPoi 8 a n (pairUp p (n / 8 + 1)), errs := errsAfter x.errs 1 a n }

/-- The lines that a map lists, `per` keys to a line. -/
def mapLines {α : Type} (per : Nat) (m : SMap α) : List Nat :=
  m.foldl (fun l e => if l.head? = some (e.1 / per) then l else (e.1 / per) :: l) []
/-- A core's summary memory, tables and accumulators are written as a whole: their lines and rows are logged first (R406, R407). -/
def Tile.upWhole (x : Tile) (c : Nat) (f : Core → Core) : Tile :=
  let y := x.core c
  let z := f y
  let x := (mapLines 64 y.z ++ mapLines 64 z.z).foldl (fun x l => x.touch (2 + c) l) x
  let x := (mapLines 8 y.tab ++ mapLines 8 z.tab ++ mapLines 16 y.tabPoi ++ mapLines 16 z.tabPoi).foldl (fun x l => x.touch (7 + c) l) x
  let y := (y.v.map Prod.fst ++ z.v.map Prod.fst).foldl Core.shade y
  x.upC c fun _ => { z with shadow := y.shadow, shadowOld := y.shadowOld }

/-- The tile cycle to which an effect from outside belongs: the present one, or, where the tile stands frozen, its next. -/
def State.nextCyc (s : State) (t : Nat) : Nat := if s.stands t then s.tcyc t + 1 else s.tcyc t
/-- Effects from outside (R406). -/
def Tile.takePacket (x : Tile) (p : Packet) : Tile := { x with arrq := x.arrq ++ [p] }
def Tile.takeRow (x : Tile) (r : GangRow) : Tile := { x with gangBuf := x.gangBuf ++ [r] }
/-- A launch is on its way. A START numbers the tile's gmma commands anew (R157): when Rotrum takes it, for a tile may begin before another has
its launch. -/
def Tile.takeLaunch (x : Tile) (l : Nat × Bool × Nat × BitVec 256) : Tile :=
  { x with launchQ := x.launchQ ++ [l], gangN := if l.2.1 then 0 else x.gangN, gangBuf := if l.2.1 then [] else x.gangBuf }
/-- An effect from outside in tile cycle tc: it is journalled and takes effect, or it waits for the end of a replay (R202, R406, R410). -/
def Tile.reached (x : Tile) (tc : Nat) (e : Outside) (f : Tile → Tile) : Tile :=
  if x.replayTo.isSome then { x with late := x.late ++ [e] } else f { x with outside := x.outside ++ [(tc, e)] }

/-- Tile memory and the dune store end here (R228). -/
def tmSize : Nat := 0x600000
def dsSize : Nat := 0x1800000
/-- Bytes of one dune-store slice (R229). -/
def sliceSize : Nat := 393216

/-! ### Names (R32, R16) -/

/-- Global core name of core c of tile t of this wafer. -/
def State.nameOf (s : State) (t c : Nat) : Nat := (s.wx * 96 + t % 96) * 4096 + (s.wy * 72 + t / 96) * 4 + c
def nameX (n : Nat) : Nat := n / 4096 % 1024
def nameY (n : Nat) : Nat := n / 4 % 1024
def nameCore (n : Nat) : Nat := n % 4
/-- A name names a core of the domain (R32). -/
def State.nameIn (s : State) (n : Nat) : Bool :=
  decide (n < 2 ^ 22) && decide (nameX n < 96 * s.domW) && decide (nameY n < 72 * s.domH)
/-- The tile of this wafer that a name names. -/
def State.tileOf (s : State) (n : Nat) : Option Nat :=
  if s.nameIn n && nameX n / 96 == s.wx && nameY n / 72 == s.wy then some (nameY n % 72 * 96 + nameX n % 96) else none

/-! ### Code (R53, R54) -/

/-- Why a word could not be fetched. -/
inductive FetchFault where
  | page (a : Nat)
  | privilege (a : Nat)
  deriving DecidableEq, Repr

/-- The code-map entry i: entries 120 to 127 are the monitor pages, fixed (R53). -/
def Tile.cmapAt (x : Tile) (i : Nat) : Word :=
  if 120 ≤ i then BitVec.ofNat 32 (0xC000_0000 + (0xFF8 + (i - 120)) * 4096) else sget 0#32 x.cmap i

/-- The lowest valid entry that serves a VPN. -/
def Tile.pageOf (x : Tile) (vpn : Nat) : Option Nat :=
  (upto 0 128).find? fun i => (x.cmapAt i).getLsbD 31 && decide (((x.cmapAt i).extractLsb' 12 12).toNat = vpn)

/-- One word of code, for a task or for the monitor (R54). -/
def Tile.fetch (x : Tile) (mon : Bool) (a : Nat) : Except FetchFault Word :=
  match x.pageOf (a / 4096 % 4096) with
  | none => .error (.page a)
  | some i =>
    if (x.cmapAt i).getLsbD 30 && !mon then .error (.privilege a)
    else .ok (BitVec.ofNat 32 (sgetBytes x.code (i * 4096 + a % 4096) 4))

/-- The words of the bundle at a: up to the first stop bit, at most n of them (R40, R54). -/
def Tile.fetchBundle (x : Tile) (mon : Bool) (a : Nat) : Nat → Except FetchFault (List Word)
  | 0 => .ok []
  | n + 1 =>
    match x.fetch mon (a % 2 ^ 24) with
    | .error e => .error e
    | .ok w => if w.getLsbD 31 then .ok [w] else
      match x.fetchBundle mon (a + 4) n with
      | .error e => .error e
      | .ok r => .ok (w :: r)

/-- A due repeat bundle of which no repetition has issued has all of them left, and its header (R345). -/
def Tile.prime (x : Tile) (c : Nat) : Tile :=
  let y := x.core c
  if y.repRem ≠ 0 || y.loopTest then x
  else match x.fetchBundle y.inMon y.pc 4 with
    | .error _ => x
    | .ok ws => match decodeBundle ws with
      | some ⟨some (.hdrRep cnt _ _ _), _⟩ => x.upC c fun y => { y with repRem := cnt.toNat + 1, repHdr := ws.headD 0#32 }
      | _ => x

/-! ### The pending-write record -/

/-- Writes that come before the other landings of their cycle: the work generator's own step, then csrw, tkz and tkr (R98, R215,
R216, R319). -/
def Eff.early : Eff → Nat
  | .wnext _ => 0
  | .csr .. => 1
  | .tkz _ => 1
  | .tkr .. => 1
  | _ => 2
def Pend.early (p : Pend) : Nat := p.effs.foldl (fun m e => min m e.early) 2

/-- In the order of landing: early writes, then issue order and slot position (R60). -/
def Pend.before (a b : Pend) : Bool :=
  decide (a.early < b.early) || (a.early == b.early && decide (8 * a.id + a.slot < 8 * b.id + b.slot))

/-- Appends one pending effect. -/
def Core.push (c : Core) (p : Pend) : Core := { c with pend := c.pend ++ [p] }

/-- Work of the present slot that lands `lat` cycles after issue. What the monitor issues sets no flag and never traps (R338). -/
def State.later (s : State) (lat : Nat) (effs : List Eff) (flags : BitVec 11 := 0#11) (traps : Bool := false) : State :=
  let m := s.core.inMon
  s.upCore fun c => c.push
    { at' := s.clock + lat, mon := m, id := c.seq, slot := s.slot, pc := c.pc, issue := s.tcyc s.curT, counts := decide (2 ≤ lat), last := s.clock + lat
      flags := if m then 0#11 else flags, traps := traps && !m, effs := effs }

/-- A further effect of the slot, outside the count of R221: a post-increment, or a part of an entry already counted. -/
def State.laterPart (s : State) (lat : Nat) (effs : List Eff) : State :=
  s.upCore fun c => c.push
    { at' := s.clock + lat, mon := c.inMon, id := c.seq, slot := s.slot, pc := c.pc, issue := s.tcyc s.curT
      last := s.clock + lat, effs := effs }

/-- An entry whose first effect is at `at'` and whose last is at `last`. -/
def State.laterUntil (s : State) (at' last : Nat) (effs : List Eff) : State :=
  s.upCore fun c => c.push
    { at' := s.clock + at', mon := c.inMon, id := c.seq, slot := s.slot, pc := c.pc, issue := s.tcyc s.curT, counts := true
      last := s.clock + last, effs := effs }

/-! ### Taking a trap (R337, R338, R345) -/

/-- `tcause` (R345). -/
def Info.word (i : Info) (rem : Nat) : Word :=
  BitVec.ofNat 32 (i.cause % 256 * 2 ^ 24 + i.slot % 8 * 2 ^ 21 + (if i.defd then 2 ^ 20 else 0) + i.mult % 8 * 2 ^ 17
    + i.flg.toNat * 2 ^ 11 + rem % 128 * 2 ^ 4)

/-- A core enters monitor mode with a cause, in tile cycle tc: the trap state is written, the PC becomes 0xFF_8000, the task's
registers stay in their bank. L causes that are not the one taken are deferred to this task cycle (R343). -/
def Core.enter (c : Core) (tc : Nat) (i : Info) : Core :=
  let isLater := c.due - c.tsk
  let c := match i.tok with | some k => c.setTok k { c.token k with errn := 0, errc := 0 } | none => c
  { c with
    mode := .monitor
    tpc := BitVec.ofNat 32 c.pc
    tcause := i.word c.repRem
    tinfo := sset 0#32 (sset 0#32 (sset 0#32 (sset 0#32 [] 0 i.i0) 1 i.i1) 2 i.i2) 3 i.i3
    ttask := BitVec.ofNat 32 c.tsk
    trep := if c.repRem = 0 then 0#32 else c.repHdr
    tdlr := BitVec.ofNat 32 (isLater % 65536)
    taskTest := c.loopTest
    loopTest := false
    pc := 0xFF8000
    npc := 0xFF8000
    due := tc
    repRem := 0
    repHdr := 0#32
    monAt := none }

/-- The words of the trap state (R345). -/
def Core.trapState (c : Core) : List Word :=
  [c.tpc, c.tcause] ++ ((upto 0 4).map fun i => sget 0#32 c.tinfo i) ++ [c.ttask, c.trep, c.tdlr]
/-- What the trap log records of a cause that no trap takes: the trap state as this core stands (R297, R340, R400). -/
def Core.logged (c : Core) (i : Info) : List Word := (c.enter 0 i).trapState

/-- A synchronous fault in monitor mode: the core stops and the error bank records it (R347). The job restore follows as an event. -/
def State.monitorFault (s : State) : State :=
  let pc := s.core.pc
  { s.upHere (fun x => (x.upC s.curC fun c => { c with mode := .stopped }).record s.glob true 0x08 (BitVec.ofNat 32 pc) (some s.curC)) with
    inputs := s.inputs ++ [(s.gcyc, .event s.curT s.curC 0 .jobRestore)] }

/-- The cycle of a trap does not count for the lease, unless it is that of the grant (R139). A lease that this cycle would have ended by time goes
on (log 100). -/
def Tile.uncount (x : Tile) (c : Nat) : Tile :=
  if x.leaseCore = some c then x.upC c fun y => { y with lcyc := max 1 (y.lcyc - 1) }
  else if x.leaseCore = none ∧ x.leaseLast = some c ∧ (x.core c).lcyc = 4097 then { x.upC c fun y => { y with lcyc := 4096 } with leaseCore := some c }
  else x

/-- The present slot, or the present core, takes a synchronous cause: the trap, or a monitor fault. -/
def State.raise (s : State) (i : Info) : State :=
  if s.core.inMon then { s.monitorFault with raised := some i }
  else { s.upHere (fun x => (x.uncount s.curC).upC s.curC fun c => c.enter (s.tcyc s.curT) i) with raised := some i }

/-! ### Issue: the form of every meaning -/

/-- What a slot does at its issue: it goes on with a state, or it raises a cause. -/
abbrev Iss := StateT State (Except Info)

/-- The outcome of a meaning: a raised cause is taken as a trap. -/
def issue (m : Iss Unit) (s : State) : Host.Outcome State Fault Refusal :=
  match m s with
  | .ok (_, s') => .next s'
  | .error i => .next (s.raise i)

/-- Raises a cause with the present slot position. -/
def trapI {α : Type} (cause : Nat) (i0 : Word := 0#32) (i1 : Word := 0#32) : Iss α := fun s =>
  .error { cause := cause, slot := s.slot, i0 := i0, i1 := i1 }

/-- Raises a cause unless a condition holds. -/
def need (ok : Bool) (cause : Nat) (i0 : Word := 0#32) (i1 : Word := 0#32) : Iss Unit :=
  if ok then pure () else trapI cause i0 i1

/-- Changes the state. -/
def act (f : State → State) : Iss Unit := fun s => .ok ((), f s)

/-- Cause codes (R339). -/
def cPage : Nat := 0x01
def cPriv : Nat := 0x02
def cBundle : Nat := 0x03
def cInstr : Nat := 0x04
def cDeadline : Nat := 0x05
def cLease : Nat := 0x06
def cGang : Nat := 0x07
def cAddr : Nat := 0x08
def cFormat : Nat := 0x09
def cQueue : Nat := 0x0A
def cSched : Nat := 0x0B
def cTiming : Nat := 0x0C
def cToken : Nat := 0x0D
def cUnder : Nat := 0x0E
def cBank : Nat := 0x0F
def cArith : Nat := 0x10
def cStream : Nat := 0x11
def cSummary : Nat := 0x12
def cCopy : Nat := 0x13
def cColl : Nat := 0x14
def cChan : Nat := 0x15
def cRoute : Nat := 0x16
def cSide : Nat := 0x17
def cDecode : Nat := 0x18
def cTable : Nat := 0x19
def cCall : Nat := 0x1A
def cLoop : Nat := 0x1B
def cBound : Nat := 0x1C
def cBarrier : Nat := 0x1D
def cPoison : Nat := 0x1E
def cFlow : Nat := 0x1F
def cUser : Nat := 0x20
def cBkpt : Nat := 0x21
def cPreempt : Nat := 0x22
def cStep : Nat := 0x23

end Sys2Proof.Machine
end

