-- ==== Sys2Proof/Machine/Flags.lean ====
section
/-! DEFINITION. The flag bits of aflags (R96). -/

namespace Sys2Proof.Machine

def fNX : BitVec 11 := 0x001#11
def fUF : BitVec 11 := 0x002#11
def fOF : BitVec 11 := 0x004#11
def fDZ : BitVec 11 := 0x008#11
def fNV : BitVec 11 := 0x010#11
def fRG : BitVec 11 := 0x020#11
def fSAT : BitVec 11 := 0x100#11
def fAOV : BitVec 11 := 0x200#11
def fIDZ : BitVec 11 := 0x400#11

/-- A flag where a condition holds. -/
def flagIf (c : Bool) (f : BitVec 11) : BitVec 11 := if c then f else 0#11

/-- A poisoned result raises no flag (R97). -/
def cleanFlags (poi : Bool) (f : BitVec 11) : BitVec 11 := if poi then 0#11 else f

/-- The flags whose trap enable is set: TEN is aflags[21:16], for flag bits [5:0] (R96). -/
def enabled (aflags : Word) (f : BitVec 11) : BitVec 6 := f.extractLsb' 0 6 &&& aflags.extractLsb' 16 6

/-- A write of aflags: TEN is written, W1C bits clear, the rest is read-only (R96). -/
def aflagsWrite (old new : Word) : Word :=
  ((old &&& ~~~(new &&& 0x0000_073F#32)) &&& 0x0000_073F#32) ||| (new &&& 0x003F_0000#32)

end Sys2Proof.Machine
end

