-- ==== Sys2Proof/Machine/Operands.lean ====
section
/-! DEFINITION. Operand forms: scalar, address, predicate and vector operands, with the queue names ldq and sdq (R57, R235 to R237),
the masks of R111, immediates, and the checks that a form makes on an address (R228, R398). -/

namespace Sys2Proof.Machine

/-- Scalar 63 names a queue (R235). -/
def Core.sAlias (c : Core) (n : BitVec 6) : Bool := c.qs && n == 63#6
/-- Vector 127 names a queue (R235). -/
def Core.vAlias (c : Core) (n : BitVec 7) : Bool := c.qv && n == 127#7

/-- Pops the head of the LDQ: it must be there, have landed, and be of the kind asked for (R236, R237). -/
def popLdq (vec : Bool) : Iss QEntry := fun s =>
  match s.core.bank.ldq with
  | e :: r => if e.landed && e.vec == vec then .ok (e, s.upCore fun c => c.setBank { c.bank with ldq := r }) else trapI cQueue 0#32 0#32 s
  | [] => trapI cQueue 0#32 0#32 s

/-- Pops the head of the SDQ, for a store (R237). -/
def popSdq (vec : Bool) : Iss QEntry := fun s =>
  match s.core.bank.sdq with
  | e :: r => if e.landed && e.vec == vec then .ok (e, s.upCore fun c => c.setBank { c.bank with sdq := r }) else trapI cQueue 0#32 0#32 s
  | [] => trapI cQueue 0#32 0#32 s

/-- A scalar source's value; a queue entry is popped (R235, R237). -/
def takeS (n : BitVec 6) : Iss PWord := fun s =>
  if s.core.sAlias n then
    (match popLdq false s with
     | .ok (e, s') => .ok (⟨e.val.setWidth 32, e.poi.getLsbD 0⟩, s')
     | .error i => .error i)
  else .ok (s.core.bank.sreg n.toNat, s)

/-- The space of a tracked scalar: the task's registers, or the monitor's own (R226, R338). -/
def Core.sSpace (c : Core) : Nat := if c.inMon then 3 else 2

/-- In strict mode a read of a tracked scalar is under-waited (R227). -/
def underS (n : BitVec 6) : Iss Unit := fun s =>
  need (s.core.sAlias n || !(s.core.strict && s.core.ranges.any fun r => r.space == s.core.sSpace && r.lo == n.toNat)) cUnder 0#32 0#32 s

/-- A scalar source. -/
def readS (n : BitVec 6) : Iss PWord := do
  let x ← takeS n
  underS n
  pure x

/-- Two scalar sources: the queue comes before an under-wait (R342). -/
def readS2 (a b : BitVec 6) : Iss (PWord × PWord) := do
  let x ← takeS a
  let y ← takeS b
  underS a
  underS b
  pure (x, y)

/-- The value a scalar source has, for the checks that come before its queue and under-wait faults (R342); none where the queue has none. -/
def peekS (n : BitVec 6) : Iss (Option PWord) := fun s => .ok ((match takeS n s with | .ok (x, _) => some x | .error _ => none), s)
/-- The values of two scalar sources, the second behind the first. -/
def peekS2 (a b : BitVec 6) : Iss (Option PWord × Option PWord) := fun s =>
  match takeS a s with
  | .ok (x, s') => .ok ((some x, match takeS b s' with | .ok (y, _) => some y | .error _ => none), s)
  | .error _ => .ok ((none, if s.core.sAlias b then none else some (s.core.bank.sreg b.toNat)), s)

/-- An address register. -/
def readA (n : BitVec 4) : Iss PWord := fun s => .ok (s.core.bank.areg n.toNat, s)

/-- A predicate. -/
def readP (n : BitVec 3) : Iss PBit := fun s => .ok (s.core.bank.preg n.toNat, s)

/-- A mask register. -/
def readM (n : BitVec 3) : Iss MaskReg := fun s => .ok (s.core.mreg n.toNat, s)

/-- A vector source. -/
def readV (n : BitVec 7) : Iss VRow := fun s =>
  if s.core.vAlias n then
    (match popLdq true s with
     | .ok (e, s') => .ok (⟨e.val, e.poi⟩, s')
     | .error i => .error i)
  else .ok (s.core.vreg n.toNat, s)

/-- A vector that an instruction reads and writes: it cannot be a queue (R237). -/
def readVD (n : BitVec 7) : Iss VRow := fun s => if s.core.vAlias n then trapI cQueue 0#32 0#32 s else .ok (s.core.vreg n.toNat, s)

/-- A scalar that an instruction reads and writes (R227, R237). -/
def readSD (n : BitVec 6) : Iss PWord := fun s => if s.core.sAlias n then trapI cQueue 0#32 0#32 s else readS n s

/-- Reserves the next SDQ entry (R236). -/
def Bank.reserveSdq (b : Bank) (vec : Bool) : Bank :=
  { b with sdq := b.sdq ++ [{ seq := b.sdqSeq, vec := vec }], sdqSeq := b.sdqSeq + 1 }
/-- Reserves the next LDQ entry (R236). -/
def Bank.reserveLdq (b : Bank) (vec : Bool) : Bank :=
  { b with ldq := b.ldq ++ [{ seq := b.ldqSeq, vec := vec }], ldqSeq := b.ldqSeq + 1 }

/-- A scalar result: it lands in the register, or in an SDQ entry reserved now (R59, R236). -/
def State.putS (s : State) (lat : Nat) (n : BitVec 6) (v : PWord) (f : BitVec 11 := 0#11) (traps : Bool := false) : State :=
  if s.core.sAlias n then
    (s.upCore fun c => c.setBank (c.bank.reserveSdq false)).later lat
      [.sdq s.core.bank.sdqSeq (v.val.setWidth 2048) (BitVec.ofNat 64 (if v.poi then 1 else 0))] f traps
  else s.later lat [.sreg n.toNat v] f traps

/-- A vector result: the enabled bytes of the row, or a whole SDQ entry with zero in the other bytes (R111, R236). -/
def State.putV (s : State) (lat : Nat) (n : BitVec 7) (en : BitVec 256) (v : Bits256) (p : BitVec 64) (f : BitVec 11 := 0#11)
    (traps : Bool := true) : State :=
  if s.core.vAlias n then
    let r := (VRow.write {} en v p)
    (s.upCore fun c => c.setBank (c.bank.reserveSdq true)).later lat [.sdq s.core.bank.sdqSeq r.val r.poi] f traps
  else s.later lat [.vrow n.toNat en v p] f traps

/-- A predicate result. -/
def State.putP (s : State) (lat : Nat) (n : BitVec 3) (v : PBit) (f : BitVec 11 := 0#11) (traps : Bool := false) : State :=
  s.later lat [.preg n.toNat v] f traps

/-- An immediate, sign-extended to 32 bits (R115). -/
def immS {n : Nat} (i : BitVec n) : PWord := ⟨i.signExtend 32, false⟩

/-- A poisoned address, length or condition is consumed: cause 0x1E (R398, R399). -/
def consume (p : Bool) : Iss Unit := need (!p) cPoison

/-- An address of `len` bytes must be a multiple of `align` and end within its space (R228). -/
def addrOk (ea len align space : Nat) : Bool := ea % align == 0 && decide (ea + len ≤ space)

/-- The address check of an access, with the words an address fault saves (R345). -/
def needAddr (ea len align space : Nat) : Iss Unit :=
  need (addrOk ea len align space) cAddr (BitVec.ofNat 32 ea) (BitVec.ofNat 32 len)

/-- A token operand's word for the trap state: number, error count, class (R345). -/
def tokWord (k : Nat) (t : Token) : Word := BitVec.ofNat 32 (k * 65536 + t.errn * 4096 + t.errc * 256)

/-- A command that posts k may issue: its in-flight count stays within 16 bits (R210). The count then rises. -/
def takeToken (k : BitVec 5) : Iss Unit := fun s =>
  let t := s.core.token k.toNat
  if t.infl + 1 ≤ 0xFFFF then .ok ((), s.upCore fun c => c.inflight k.toNat) else trapI cToken (tokWord k.toNat t) 0#32 s

/-- A start offset: the start cycle on the issuer's clock, or a timing fault where it has passed (R206). The offset counts task cycles, for the
monitor too, whose own cycles are none of them (R84, R200, log 129). -/
def startOf (st : BitVec 9) : Iss Nat := fun s =>
  if st == 0#9 then .ok (s.clock, s)
  else if s.core.tsk ≤ 16 * st.toNat then .ok (s.clock + (16 * st.toNat - s.core.tsk), s) else trapI cTiming 0#32 0#32 s

/-- The tile cycle of a later cycle of the issuing core's clock, if the core takes no trap before it (R446). -/
def State.tileCycle (s : State) (c : Nat) : Nat := s.tcyc s.curT + (c - s.clock)

/-- A number for a copy, a stream or a send. -/
def Tile.nextCmd (x : Tile) : Nat × Tile := (x.cmdSeq, { x with cmdSeq := x.cmdSeq + 1 })

/-- The task has issued something that a replay could not repeat (R420); the monitor's own issues do not count. -/
def State.sideEffect (s : State) : State := if s.core.inMon then s else s.upCore fun c => { c with sideEff := true }

/-- What a start offset holds until clock cycle c is an entry of the pending-write record until then, on the task's timeline; e lands d cycles
after the start (R206, R221, R222). -/
def State.heldEntry (s : State) (c d : Nat) (e : Eff) : State :=
  s.upCore fun y =>
    let o := y.tsk + (c - s.clock)
    y.push { at' := o + d, id := y.seq, slot := s.slot, pc := y.pc, issue := s.tcyc s.curT, counts := true, last := o, effs := [e] }
/-- A token-posted command that a start offset holds. -/
def State.holdUntil (s : State) (c : Nat) (e : Eff) : State := if c = s.clock then s else s.heldEntry c 0 e

/-- Strict token mode tracks the destination of a token-posted command; the seventeenth record is a token fault (R226). `n` numbers the
stream or summary command whose range is found again when it runs (log 56). -/
def track (space lo len : Nat) (k : BitVec 5) (n : Nat := 0) : Iss Unit := fun s =>
  if s.core.strict then
    (if s.core.ranges.length < 16 then
      let t := s.core.token k.toNat
      .ok ((), s.upCore fun c => { c with ranges := c.ranges ++ [{ space := space, lo := lo, len := len, k := k.toNat, target := t.arr + t.infl, n := n }] })
     else trapI cToken (tokWord k.toNat (s.core.token k.toNat)) 0#32 s)
  else .ok ((), s)

/-- The record of command n takes the range that the command turns out to have (log 56). -/
def Core.retrack (c : Core) (n space lo len : Nat) : Core :=
  { c with ranges := c.ranges.map fun r => if r.n = n then { r with space := space, lo := lo, len := len } else r }

/-- In strict mode an access that meets a tracked range is under-waited (R227). An empty range meets none. -/
def underWait (space lo len : Nat) : Iss Unit := fun s =>
  need (!(s.core.strict && s.core.ranges.any fun r => r.space == space && decide (0 < len) && decide (0 < r.len) && decide (lo < r.lo + r.len) && decide (r.lo < lo + len))) cUnder 0#32 0#32 s

end Sys2Proof.Machine
end

