-- ==== Sys2Proof/Machine/Address.lean ====
section
/-! DEFINITION. A kind (R72, R73): loads, stores, tile atomics, dune-store vectors, address-register moves, streams (R238 to R241,
R249, R250). -/

namespace Sys2Proof.Machine

/-- The address an A-kind access uses and the value its post-increment leaves (R238). -/
def eaOf (a : PWord) (pi : Bool) (off : Word) : Nat × Word :=
  let sum := a.val + off; ((if pi then a.val else sum).toNat, sum)

/-- A post-increment lands at issue + 1. -/
def State.postInc (s : State) (ar : BitVec 4) (pi : Bool) (v : Word) : State :=
  if pi then s.laterPart 1 [.areg ar.toNat ⟨v, false⟩] else s

/-- A load reserves the next LDQ entry, reads at issue + 3 and lands at issue + 7 (R238). -/
def State.loadAt (s : State) (vec : Bool) (bytes ea : Nat) : State :=
  (s.upCore fun c => c.setBank (c.bank.reserveLdq vec)).laterUntil 3 7 [.load bytes ea s.core.bank.ldqSeq]

def loadOp (bytes align : Nat) (vec : Bool) (ar : BitVec 4) (pi : Bool) (off : BitVec 24) : Iss Unit := do
  let a ← readA ar
  let e := eaOf a pi (off.signExtend 32)
  needAddr e.1 bytes align tmSize
  consume a.poi
  underWait 0 e.1 bytes
  act fun s => (s.loadAt vec bytes e.1).postInc ar pi e.2

/-- A store pops the SDQ head at issue and performs at issue + 3 (R238). -/
def storeOp (bytes align : Nat) (vec : Bool) (ar : BitVec 4) (pi : Bool) (off : BitVec 24) : Iss Unit := do
  let a ← readA ar
  let e := eaOf a pi (off.signExtend 32)
  needAddr e.1 bytes align tmSize
  consume a.poi
  let q ← popSdq vec
  underWait 0 e.1 bytes
  act fun s => (s.later 3 [.store bytes e.1 q.val q.poi]).postInc ar pi e.2

def execLdB (ar : BitVec 4) (pi : Bool) (off : BitVec 24) : State → Host.Outcome State Fault Refusal := issue (loadOp 1 1 false ar pi off)
def execLdH (ar : BitVec 4) (pi : Bool) (off : BitVec 24) : State → Host.Outcome State Fault Refusal := issue (loadOp 2 2 false ar pi off)
def execLdW (ar : BitVec 4) (pi : Bool) (off : BitVec 24) : State → Host.Outcome State Fault Refusal := issue (loadOp 4 4 false ar pi off)
def execLdV (ar : BitVec 4) (pi : Bool) (off : BitVec 24) : State → Host.Outcome State Fault Refusal := issue (loadOp 256 64 true ar pi off)
def execStB (ar : BitVec 4) (pi : Bool) (off : BitVec 24) : State → Host.Outcome State Fault Refusal := issue (storeOp 1 1 false ar pi off)
def execStH (ar : BitVec 4) (pi : Bool) (off : BitVec 24) : State → Host.Outcome State Fault Refusal := issue (storeOp 2 2 false ar pi off)
def execStW (ar : BitVec 4) (pi : Bool) (off : BitVec 24) : State → Host.Outcome State Fault Refusal := issue (storeOp 4 4 false ar pi off)
def execStV (ar : BitVec 4) (pi : Bool) (off : BitVec 24) : State → Host.Outcome State Fault Refusal := issue (storeOp 256 64 true ar pi off)

/-! ### Tile atomics (R239) -/

/-- What an atomic writes: add, min, max, swap, cas by number. A poisoned operand or old word writes a poisoned word. -/
def amoNew (op : Nat) (old s c : PWord) : PWord :=
  match op with
  | 0 => ⟨old.val + s.val, old.poi || s.poi⟩
  | 1 => ⟨if old.val.slt s.val then old.val else s.val, old.poi || s.poi⟩
  | 2 => ⟨if old.val.slt s.val then s.val else old.val, old.poi || s.poi⟩
  | 3 => s
  | _ => ⟨if old.val == c.val then s.val else old.val, old.poi || s.poi || c.poi⟩

/-- An atomic reads at issue + 3, writes at issue + 4, and its LDQ entry lands at issue + 9. -/
def amoOp (op : Nat) (ar : BitVec 4) (off : BitVec 14) (rs : BitVec 6) (rc : Option (BitVec 6)) : Iss Unit := do
  let a ← readA ar
  let ea := (a.val + 4#32 * off.signExtend 32).toNat
  needAddr ea 4 4 tmSize
  consume a.poi
  let (x, c) ← match rc with | some r => readS2 rs r | none => do let x ← readS rs; pure (x, {})
  underWait 0 ea 4
  act fun s => (s.upCore fun c => c.setBank (c.bank.reserveLdq false)).laterUntil 3 9 [.amoRead op ea x c s.core.bank.ldqSeq]

def execAmoAdd (ar : BitVec 4) (r : BitVec 6) (off : BitVec 14) : State → Host.Outcome State Fault Refusal := issue (amoOp 0 ar off r none)
def execAmoMin (ar : BitVec 4) (r : BitVec 6) (off : BitVec 14) : State → Host.Outcome State Fault Refusal := issue (amoOp 1 ar off r none)
def execAmoMax (ar : BitVec 4) (r : BitVec 6) (off : BitVec 14) : State → Host.Outcome State Fault Refusal := issue (amoOp 2 ar off r none)
def execAmoSwap (ar : BitVec 4) (r : BitVec 6) (off : BitVec 14) : State → Host.Outcome State Fault Refusal := issue (amoOp 3 ar off r none)
def execAmoCas (ar : BitVec 4) (r c : BitVec 6) (off : BitVec 14) : State → Host.Outcome State Fault Refusal := issue (amoOp 4 ar off r (some c))

/-! ### Address-register moves (R240) -/

def execAaddImm (ad aa : BitVec 4) (i : BitVec 22) : State → Host.Outcome State Fault Refusal := issue do
  let a ← readA aa
  act fun s => s.later 1 [.areg ad.toNat ⟨a.val + i.signExtend 32, a.poi⟩]
def execAadd (ad aa : BitVec 4) (r : BitVec 6) : State → Host.Outcome State Fault Refusal := issue do
  let a ← readA aa
  let x ← readS r
  act fun s => s.later 1 [.areg ad.toNat ⟨a.val + x.val, a.poi || x.poi⟩]
def execAmovA (ad : BitVec 4) (r : BitVec 6) : State → Host.Outcome State Fault Refusal := issue do
  let x ← readS r
  act fun s => s.later 1 [.areg ad.toNat x]
def execAmovS (sd : BitVec 6) (aa : BitVec 4) : State → Host.Outcome State Fault Refusal := issue do
  let a ← readA aa
  act fun s => s.putS 1 sd a

/-! ### Dune-store vectors (R241, R242) -/

/-- Whether a path command uses the vertical bus of slice j in some tile cycle from lo to hi (R242). -/
def Path.onBus (p : Path) (j lo hi : Nat) : Bool :=
  match p.kind with
  | 3 => decide (lo < p.s + p.bt) && decide (p.s ≤ hi)
  | 6 => p.addr / sliceSize == j && decide (lo ≤ p.s + 9) && decide (p.s + 2 ≤ hi)
  | 7 => p.addr / sliceSize == j && decide (lo ≤ p.s + 9) && decide (p.s + 2 ≤ hi)
  | _ => false

/-- A static command uses slice j's bus in tile cycles lo to hi: no earlier command may use it then. -/
def needBus (j lo hi : Nat) : Iss Unit := fun s => need (!(s.here.paths.any fun p => p.onBus j lo hi)) cSched 0#32 0#32 s

/-- A new path command of the present slot that starts at clock cycle c and has its last effect `dur` cycles later. -/
def State.newPath (s : State) (kind c dur : Nat) : Path :=
  { kind := kind, core := s.curC, mon := s.core.inMon, id := s.core.seq, slot := s.slot, pc := s.core.pc
    issue := s.tcyc s.curT, s := s.tileCycle c, s0 := c, last := c + dur, started := c == s.clock }
def State.addPath (s : State) (p : Path) : State := s.upHere fun x => { x with paths := x.paths ++ [p] }

def execLdDs (v : BitVec 7) (ar : BitVec 4) (pi : Bool) (off : BitVec 18) : State → Host.Outcome State Fault Refusal := issue do
  let a ← readA ar
  let e := eaOf a pi (256#32 * off.signExtend 32)
  needAddr e.1 256 256 dsSize
  consume a.poi
  underWait 1 e.1 256
  fun s => needBus (e.1 / sliceSize) (s.tcyc s.curT + 2) (s.tcyc s.curT + 9) s
  act fun s =>
    let q := s.core.vAlias v
    let p := { s.newPath 6 s.clock 12 with addr := e.1, ty := v.toNat, q := if q then some s.core.bank.sdqSeq else none }
    let s := if q then s.upCore fun c => c.setBank (c.bank.reserveSdq true) else s
    (s.addPath p).postInc ar pi e.2

def execStDs (v : BitVec 7) (ar : BitVec 4) (pi : Bool) (off : BitVec 18) : State → Host.Outcome State Fault Refusal := issue do
  let a ← readA ar
  let e := eaOf a pi (256#32 * off.signExtend 32)
  needAddr e.1 256 256 dsSize
  consume a.poi
  let r ← readV v
  underWait 1 e.1 256
  fun s => needBus (e.1 / sliceSize) (s.tcyc s.curT + 2) (s.tcyc s.curT + 9) s
  act fun s => (s.addPath { s.newPath 7 s.clock 10 with addr := e.1, ty := v.toNat, data := r }).postInc ar pi e.2

/-! ### Streams (R249, R250) -/

/-- The fields of a control block from its 32 bytes (R249). -/
def StreamJob.parse (j : StreamJob) (v : Nat) : StreamJob :=
  let f (o n : Nat) : Nat := v / 2 ^ (8 * o) % 2 ^ (8 * n)
  { j with read := true, dva := f 0 8, loc := f 8 4, len := f 12 4, rows := f 16 2, op := f 18 2, rstr := f 20 4, lstr := f 24 4 }

/-- Local address, local space, bytes of a row (R249). -/
def StreamJob.local (j : StreamJob) : Nat := j.loc % 2 ^ 25
def StreamJob.space (j : StreamJob) : Nat := j.loc / 2 ^ 31
def StreamJob.rowLen (j : StreamJob) : Nat := if j.op = 0 then j.len else 16
/-- Bytes of the bounding local range. -/
def StreamJob.span (j : StreamJob) : Nat := j.rows * j.lstr + j.rowLen

/-- The control block at an address as tile memory holds it now. -/
def Tile.blockAt (x : Tile) (cb : Nat) : StreamJob := ({ n := 0, core := 0, k := 0, wr := false, cb := cb, wake := 0 } : StreamJob).parse (x.tmRead cb 32)

/-- The command enters with its control block's address; the block is read at s + 3. -/
def State.addStream (s : State) (wr : Bool) (k : Nat) (cb c : Nat) : State :=
  let n := s.here.nextCmd
  let held := c != s.clock
  let j : StreamJob :=
    { n := n.1, held := held, core := s.curC, k := k, issue := s.tcyc s.curT, slot := s.slot, id := s.core.seq, wr := wr, cb := cb
      pc := s.core.pc, wake := s.tileCycle c + 3, mon := s.core.inMon }
  (s.upHere fun _ => { n.2 with streams := n.2.streams ++ [j] }).holdUntil c (.startStream n.1)

def streamOp (wr : Bool) (k : BitVec 5) (ar : BitVec 4) (off : BitVec 12) (start : BitVec 9) : Iss Unit := do
  let a ← readA ar
  let cb := (a.val + off.zeroExtend 32).toNat
  needAddr cb 32 32 tmSize
  consume a.poi
  let c ← startOf start
  takeToken k
  if wr then pure () else fun s => let q := s.here.blockAt cb; track q.space q.local q.span k (2 * s.here.cmdSeq + 1) s
  act fun s =>
    let s := s.addStream wr k.toNat cb c
    if wr then s.sideEffect else s

def execStreamRd (k : BitVec 5) (ar : BitVec 4) (off : BitVec 12) (start : BitVec 9) : State → Host.Outcome State Fault Refusal :=
  issue (streamOp false k ar off start)
def execStreamWr (k : BitVec 5) (ar : BitVec 4) (off : BitVec 12) (start : BitVec 9) : State → Host.Outcome State Fault Refusal :=
  issue (streamOp true k ar off start)

end Sys2Proof.Machine
end

