-- ==== Sys2Proof/Machine/Float.lean ====
section
/-! DEFINITION. Floating point: formats, exact values, one rounding, the arithmetic of R88 to R102 and R120 to R123. A result is its
bits and its flags. -/

namespace Sys2Proof.Machine

/-- A floating-point format (R88): exponent and fraction widths, bias; `ocp` for E4M3, which has no infinity. -/
structure Fmt where
  eb : Nat
  fb : Nat
  bias : Nat
  ocp : Bool := false
  deriving DecidableEq, Repr

def fp32 : Fmt := ⟨8, 23, 127, false⟩
def fpBf16 : Fmt := ⟨8, 7, 127, false⟩
def fpF16 : Fmt := ⟨5, 10, 15, false⟩
def fpE4m3 : Fmt := ⟨4, 3, 7, true⟩
def fpE5m2 : Fmt := ⟨5, 2, 15, false⟩

/-- Width in bits. -/
def Fmt.width (f : Fmt) : Nat := 1 + f.eb + f.fb
/-- The sign bit's weight. -/
def Fmt.sgn (f : Fmt) : Nat := 2 ^ (f.eb + f.fb)
/-- Exponent of the smallest subnormal. -/
def Fmt.qmin (f : Fmt) : Int := 1 - (f.bias : Int) - f.fb
/-- Bits of the largest finite magnitude. -/
def Fmt.maxBits (f : Fmt) : Nat := if f.ocp then 2 ^ (f.eb + f.fb) - 2 else (2 ^ f.eb - 1) * 2 ^ f.fb - 1
/-- Bits of +∞; in E4M3 the NaN that stands for it (R95). -/
def Fmt.infBits (f : Fmt) : Nat := if f.ocp then 2 ^ (f.eb + f.fb) - 1 else (2 ^ f.eb - 1) * 2 ^ f.fb
/-- The canonical NaN (R89). -/
def Fmt.nan (f : Fmt) : Nat := if f.ocp then 2 ^ (f.eb + f.fb) - 1 else (2 ^ f.eb - 1) * 2 ^ f.fb + 2 ^ (f.fb - 1)

/-- What a pattern stands for: a NaN, quiet or signalling, an infinity, or ±m·2^e. -/
inductive Fl where
  | nan (signalling : Bool)
  | inf (neg : Bool)
  | fin (neg : Bool) (m : Nat) (e : Int)
  deriving DecidableEq, Repr

/-- Reads a pattern. E4M3 and E5M2 have no signalling NaN (R89). -/
def Fmt.unpack (f : Fmt) (b : Nat) : Fl :=
  let neg := b / f.sgn % 2 == 1
  let mag := b % f.sgn
  let ex := mag / 2 ^ f.fb
  let fr := mag % 2 ^ f.fb
  if f.ocp then
    (if mag = f.sgn - 1 then .nan false
     else if ex = 0 then .fin neg fr f.qmin else .fin neg (2 ^ f.fb + fr) (f.qmin + (ex - 1 : Nat)))
  else if ex = 2 ^ f.eb - 1 then
    (if fr = 0 then .inf neg else .nan (decide (8 < f.width) && decide (fr < 2 ^ (f.fb - 1))))
  else if ex = 0 then .fin neg fr f.qmin
  else .fin neg (2 ^ f.fb + fr) (f.qmin + (ex - 1 : Nat))

def Fl.isNan : Fl → Bool
  | .nan _ => true
  | _ => false
def Fl.isSnan : Fl → Bool
  | .nan s => s
  | _ => false
def Fl.isInf : Fl → Bool
  | .inf _ => true
  | _ => false
def Fl.isZero : Fl → Bool
  | .fin _ m _ => m == 0
  | _ => false
def Fl.neg : Fl → Bool
  | .nan _ => false
  | .inf n => n
  | .fin n _ _ => n
def Fl.flip : Fl → Fl
  | .nan s => .nan s
  | .inf n => .inf !n
  | .fin n m e => .fin (!n) m e

/-- An exact number m·2^e. -/
structure Dy where
  m : Int
  e : Int
  deriving DecidableEq, Repr

/-- m·2^k for k at least 0. -/
def shl (m : Int) (k : Int) : Int := m * (2 ^ k.toNat : Nat)
def Dy.add (a b : Dy) : Dy :=
  if a.m = 0 then b else if b.m = 0 then a
  else let e := min a.e b.e; ⟨shl a.m (a.e - e) + shl b.m (b.e - e), e⟩
def Dy.mul (a b : Dy) : Dy := ⟨a.m * b.m, a.e + b.e⟩
/-- a < b. -/
def Dy.lt (a b : Dy) : Bool := let e := min a.e b.e; decide (shl a.m (a.e - e) < shl b.m (b.e - e))
def Dy.eqv (a b : Dy) : Bool := let e := min a.e b.e; decide (shl a.m (a.e - e) = shl b.m (b.e - e))

/-- The exact value of a finite pattern; 0 for the others. -/
def Fl.dy : Fl → Dy
  | .fin n m e => ⟨if n then -(m : Int) else m, e⟩
  | _ => ⟨0, 0⟩

/-- Rounding modes (R71, R94). -/
def rmRne : BitVec 2 := 0#2
def rmRtz : BitVec 2 := 1#2
def rmRup : BitVec 2 := 2#2
def rmRdn : BitVec 2 := 3#2

/-- m·2^e rounded to a multiple n·2^q: n, and whether it differs. `st` says that a non-zero part below m was dropped. -/
def roundAt (rm : BitVec 2) (neg : Bool) (m : Nat) (e q : Int) (st : Bool) : Nat × Bool :=
  let up := (rm == rmRup && !neg) || (rm == rmRdn && neg)
  if q ≤ e then
    let n := m * 2 ^ (e - q).toNat
    (if st && up then n + 1 else n, st)
  else
    let k := (q - e).toNat
    let n := m / 2 ^ k
    let r := m % 2 ^ k
    let h := 2 ^ (k - 1)
    let inexact := r != 0 || st
    let inc := if rm == rmRne then decide (h < r) || (decide (r = h) && (st || n % 2 == 1)) else up && inexact
    (if inc then n + 1 else n, inexact)

/-- Bit length. -/
def bitLen (m : Nat) : Nat := if m = 0 then 0 else Nat.log2 m + 1

/-- The exact value ±(m + part)·2^e rounded once to a format (R94), its overflow (R95) and flags (R97). -/
def Fmt.round (f : Fmt) (rm : BitVec 2) (sat neg : Bool) (m : Nat) (e : Int) (st : Bool := false) : Nat × BitVec 11 :=
  let sg := if neg then f.sgn else 0
  if m = 0 && !st then (sg, 0#11)
  else
    let top : Int := (bitLen m : Int) - 1 + e
    let qU : Int := top - f.fb
    let q := max qU f.qmin
    let r := roundAt rm neg m e q st
    let rU := roundAt rm neg m e qU st
    -- the magnitude n·2^q has these bits: the exponent field rises with q
    let bits := (q - f.qmin).toNat * 2 ^ f.fb + r.1
    if f.maxBits < bits then
      let toInf := rm == rmRne || (rm == rmRup && !neg) || (rm == rmRdn && neg)
      (sg + (if sat || !toInf then f.maxBits else f.infBits), fOF ||| fNX)
    else
      let emin : Int := f.qmin + f.fb
      let tiny := decide (top < emin) && !(decide (top + 1 = emin) && decide (rU.1 = 2 ^ (f.fb + 1)))
      (sg + bits, flagIf r.2 fNX ||| flagIf (tiny && r.2) fUF)

/-- An exact non-zero dyadic, or a zero with a given sign, rounded. -/
def Fmt.roundDy (f : Fmt) (rm : BitVec 2) (sat : Bool) (x : Dy) (zeroNeg : Bool) : Nat × BitVec 11 :=
  if x.m = 0 then (if zeroNeg then f.sgn else 0, 0#11) else f.round rm sat (decide (x.m < 0)) x.m.natAbs x.e

/-- A NaN result for operands in order (R90): a signalling one is an invalid operation, else the first NaN, quieted. -/
def nanOf (f : Fmt) (ops : List Nat) : Option (Nat × BitVec 11) :=
  if ops.any fun b => (f.unpack b).isSnan then some (f.nan, fNV)
  else match ops.find? fun b => (f.unpack b).isNan with
    | some b => some (if f.ocp then b else (if b / 2 ^ (f.fb - 1) % 2 = 1 then b else b + 2 ^ (f.fb - 1)), 0#11)
    | none => none

/-- The sign of an exact zero sum of two addends (R91). -/
def zeroSign (rm : BitVec 2) (a b : Bool) : Bool := if a == b then a else rm == rmRdn

/-- a·b + c rounded once, where c is given by `sub`tracting the product or adding it (R120, R125). -/
def Fmt.fma (f : Fmt) (rm : BitVec 2) (negProd : Bool) (a b c : Nat) : Nat × BitVec 11 :=
  let x := f.unpack a; let y := f.unpack b; let z := f.unpack c
  let bad := (x.isInf && y.isZero) || (x.isZero && y.isInf)
  if bad then (f.nan, fNV)
  else match nanOf f [a, b, c] with
    | some r => r
    | none =>
      let pn := (x.neg != y.neg) != negProd
      if x.isInf || y.isInf then
        (if z.isInf && z.neg != pn then (f.nan, fNV) else ((if pn then f.sgn else 0) + f.infBits, 0#11))
      else if z.isInf then (c, 0#11)
      else
        let p := Dy.mul x.dy y.dy
        let p : Dy := if negProd then ⟨-p.m, p.e⟩ else p
        f.roundDy rm false (p.add z.dy) (zeroSign rm pn z.neg)

/-- a + b, or a − b (R120, R125). -/
def Fmt.addSub (f : Fmt) (rm : BitVec 2) (sub : Bool) (a b : Nat) : Nat × BitVec 11 :=
  match nanOf f [a, b] with
  | some r => r
  | none =>
    let x := f.unpack a; let y := if sub then (f.unpack b).flip else f.unpack b
    if x.isInf then (if y.isInf && y.neg != x.neg then (f.nan, fNV) else (a, 0#11))
    else if y.isInf then ((if y.neg then f.sgn else 0) + f.infBits, 0#11)
    else f.roundDy rm false (x.dy.add y.dy) (zeroSign rm x.neg y.neg)

/-- a·b (R120, R125). -/
def Fmt.mul (f : Fmt) (rm : BitVec 2) (a b : Nat) : Nat × BitVec 11 :=
  match nanOf f [a, b] with
  | some r => r
  | none =>
    let x := f.unpack a; let y := f.unpack b
    let n := x.neg != y.neg
    if (x.isInf && y.isZero) || (x.isZero && y.isInf) then (f.nan, fNV)
    else if x.isInf || y.isInf then ((if n then f.sgn else 0) + f.infBits, 0#11)
    else f.roundDy rm false (Dy.mul x.dy y.dy) n

/-- Numeric order of two patterns that are not NaN: less, equal. Infinities are beyond every number; −0 equals +0. -/
def Fl.less (x y : Fl) : Bool :=
  match x, y with
  | .inf a, .inf b => a && !b
  | .inf a, _ => a
  | _, .inf b => !b
  | a, b => a.dy.lt b.dy
def Fl.same (x y : Fl) : Bool :=
  match x, y with
  | .inf a, .inf b => a == b
  | .inf _, _ => false
  | _, .inf _ => false
  | a, b => a.dy.eqv b.dy

/-- The lesser of two numbers with −0 below +0, or the greater (R120). -/
def pick (f : Fmt) (mx : Bool) (a b : Nat) : Nat :=
  let x := f.unpack a; let y := f.unpack b
  let aLess := x.less y || (x.same y && x.neg && !y.neg)
  if aLess != mx then a else b

/-- minimum, maximum (R120). -/
def Fmt.minMax (f : Fmt) (mx : Bool) (a b : Nat) : Nat × BitVec 11 :=
  match nanOf f [a, b] with
  | some r => r
  | none => (pick f mx a b, 0#11)

/-- minimumNumber, maximumNumber (R120). -/
def Fmt.minMaxNum (f : Fmt) (mx : Bool) (a b : Nat) : Nat × BitVec 11 :=
  let x := f.unpack a; let y := f.unpack b
  if x.isNan && y.isNan then (nanOf f [a, b]).getD (f.nan, 0#11)
  else if x.isNan then (b, flagIf x.isSnan fNV)
  else if y.isNan then (a, flagIf y.isSnan fNV)
  else (pick f mx a b, 0#11)

/-- Comparisons: eq, lt, le, un, by number 0 to 3; greater-than forms exchange the operands (R121, R126). -/
def Fmt.compare (f : Fmt) (cc : Nat) (a b : Nat) : Bool × BitVec 11 :=
  let x := f.unpack a; let y := f.unpack b
  let un := x.isNan || y.isNan
  let s := x.isSnan || y.isSnan
  match cc with
  | 0 => (!un && x.same y, flagIf s fNV)
  | 1 => (!un && x.less y, flagIf un fNV)
  | 2 => (!un && (x.less y || x.same y), flagIf un fNV)
  | _ => (un, flagIf s fNV)

/-- Sign injection on a: b gives the sign bit (R123); also vabs and vneg of an F type (R125). -/
def Fmt.setSign (f : Fmt) (a : Nat) (neg : Bool) : Nat × BitVec 11 :=
  match nanOf f [a] with
  | some r => r
  | none => (a % f.sgn + (if neg then f.sgn else 0), 0#11)

/-! ### Conversions (R101, R102) -/

/-- Element formats of R71, R76: a floating-point format, or an integer width with its sign. -/
inductive Ty where
  | fl (f : Fmt)
  | int (w : Nat) (signed : Bool)
  deriving DecidableEq, Repr

def Ty.width : Ty → Nat
  | .fl f => f.width
  | .int w _ => w

/-- An integer pattern's value. -/
def intVal (w : Nat) (signed : Bool) (b : Nat) : Int :=
  if signed && decide (2 ^ (w - 1) ≤ b % 2 ^ w) then (b % 2 ^ w : Int) - 2 ^ w else (b % 2 ^ w : Nat)
/-- An integer's pattern, modulo 2^w. -/
def intBits (w : Nat) (x : Int) : Nat := (x % (2 ^ w : Nat)).toNat
def intMin (w : Nat) (signed : Bool) : Int := if signed then -(2 ^ (w - 1) : Nat) else 0
def intMax (w : Nat) (signed : Bool) : Int := if signed then (2 ^ (w - 1) : Nat) - 1 else (2 ^ w : Nat) - 1
/-- The nearest value of a range, and whether it clamped (R93). -/
def clampI (w : Nat) (signed : Bool) (x : Int) : Nat × Bool :=
  if x < intMin w signed then (intBits w (intMin w signed), true)
  else if intMax w signed < x then (intBits w (intMax w signed), true) else (intBits w x, false)

/-- ±m·2^e rounded to an integer: the integer, and whether it differs. -/
def roundInt (rm : BitVec 2) (x : Dy) : Int × Bool :=
  let r := roundAt rm (decide (x.m < 0)) x.m.natAbs x.e 0 false
  (if x.m < 0 then -(r.1 : Int) else r.1, r.2)

/-- convert (R101). -/
def convert (src dst : Ty) (rm : BitVec 2) (sat : Bool) (b : Nat) : Nat × BitVec 11 :=
  match src, dst with
  | .fl f, .fl g =>
    (match f.unpack b with
     | .nan s => (g.nan, flagIf s fNV)
     | .inf n =>
       if g.ocp then
         (if sat then ((if n then g.sgn else 0) + g.maxBits, fOF ||| fNX) else ((if n then g.sgn else 0) + g.nan, fNV))
       else ((if n then g.sgn else 0) + g.infBits, 0#11)
     | .fin n m e => g.round rm sat n m e)
  | .fl f, .int w sg =>
    (match f.unpack b with
     | .nan _ => (0, fNV)
     | .inf n => (intBits w (if n then intMin w sg else intMax w sg), fNV)
     | .fin n m e =>
       let r := roundInt rm ⟨if n then -(m : Int) else m, e⟩
       let c := clampI w sg r.1
       if c.2 then (c.1, fNV) else (c.1, flagIf r.2 fNX))
  | .int w sg, .fl g =>
    let x := intVal w sg b
    g.round rm sat (decide (x < 0)) x.natAbs 0
  | .int w sg, .int v sh =>
    let x := intVal w sg b
    if w ≤ v then (intBits v x, 0#11)
    else if sat then (let c := clampI v sh x; (c.1, flagIf c.2 fSAT)) else (intBits v x, 0#11)

end Sys2Proof.Machine
end

