-- ==== Sys2Proof/Machine/Lanes.lean ====
section
/-! DEFINITION. Lanes of a vector register, masks, lane-wise results and the reduction tree (R75, R110 to R112, R130). -/

namespace Sys2Proof.Machine

/-- Lane i of w bits. -/
def VRow.lane (r : VRow) (w i : Nat) : Nat := r.val.toNat / 2 ^ (w * i) % 2 ^ w
/-- Poison of the word that holds lane i of w bits. -/
def VRow.lpoi (r : VRow) (w i : Nat) : Bool := r.poi.getLsbD (w * i / 32)

/-- Numbers of w bits, the first lowest. -/
def packNums (w : Nat) (l : List Nat) : Nat :=
  match l with
  | [] => 0
  | x :: r => x % 2 ^ w + 2 ^ w * packNums w r

/-- A lane's result: bits, poison, flags. -/
structure LRes where
  val : Nat
  poi : Bool := false
  fl : BitVec 11 := 0#11

/-- A row write made of elements of w bits from the lowest byte up; an element that is absent is not written. Its byte enables, bits,
poison of each word, and the flags of its clean elements (R97, R112). -/
structure RowW where
  en : BitVec 256
  val : Bits256
  poi : BitVec 64
  fl : BitVec 11

/-- Bits i·k to i·k+k-1 of a list, or'ed, for each of n groups. -/
def orGroups (k : Nat) (l : List Bool) : Nat → List Bool
  | 0 => []
  | n + 1 => (l.take k).any id :: orGroups k (l.drop k) n

def RowW.of (w : Nat) (l : List (Option LRes)) : RowW :=
  let en := l.map Option.isSome
  let poi := l.map fun | some r => r.poi | none => false
  { en := BitVec.ofNat 256 (spread (w / 8) en)
    val := BitVec.ofNat 2048 (packNums w (l.map fun | some r => r.val | none => 0))
    poi := BitVec.ofNat 64 (spread 1 (orGroups (32 / w) poi 64))
    fl := l.foldl (fun f r => match r with | some r => f ||| cleanFlags r.poi r.fl | none => f) 0#11 }

/-- Lanes 0 to n-1, each written where the mask selects it; the mask bit's poison rides with the result (R111, R112). -/
def maskLanes (n : Nat) (m : MaskReg) (f : Nat → LRes) : List (Option LRes) :=
  (upto 0 n).map fun i => if m.val.getLsbD i then some (let r := f i; { r with poi := r.poi || m.poi.getLsbD i }) else none

/-- The floating-point format of an F type (R75). -/
def tyFmt (ty : BitVec 3) : Fmt := if ty == 1#3 then fpBf16 else if ty == 2#3 then fpF16 else fp32
/-- Whether an I type is signed (R75). -/
def tySigned (ty : BitVec 3) : Bool := ty == 3#3 || ty == 4#3

/-- Latency of vector arithmetic: 5 for an F type, 2 for an I type (R114). -/
def vLat (ty : BitVec 3) : Nat := if tyIsF ty then 5 else 2

/-- A row result goes to a vector register or to the SDQ. -/
def State.putRow (s : State) (lat : Nat) (d : BitVec 7) (r : RowW) : State := s.putV lat d r.en r.val r.poi r.fl

/-- A lane result of two operands. -/
def lane2 (w : Nat) (x y : VRow) (f : Nat → Nat → Nat × BitVec 11) (i : Nat) : LRes :=
  let r := f (x.lane w i) (y.lane w i); ⟨r.1, x.lpoi w i || y.lpoi w i, r.2⟩

/-- A lane result of one operand. -/
def lane1 (w : Nat) (x : VRow) (f : Nat → Nat × BitVec 11) (i : Nat) : LRes := let r := f (x.lane w i); ⟨r.1, x.lpoi w i, r.2⟩

/-- The fixed reduction tree: adjacent nodes pair; an absent node gives way (R130). -/
def redLevel {α : Type} (op : α → α → α) : List (Option α) → List (Option α)
  | x :: y :: r => (match x, y with | none, y => y | x, none => x | some a, some b => some (op a b)) :: redLevel op r
  | l => l
def redTree {α : Type} (op : α → α → α) (l : List (Option α)) : Nat → Option α
  | 0 => (match l with | x :: _ => x | [] => none)
  | n + 1 => redTree op (redLevel op l) n

end Sys2Proof.Machine
end

