-- ==== Sys2Proof/Machine/Block.lean ====
section
/-! DEFINITION. The self-describing block formats SB2 to SB8 (R103 to R108). A block is a number of 512 bits. -/

namespace Sys2Proof.Machine

/-- Byte i of a block. -/
def blkByte (b i : Nat) : Nat := b / 2 ^ (8 * i) % 256
def blkFmt (b : Nat) : Nat := blkByte b 0
def isSb (f : Nat) : Bool := decide (0xB2 ≤ f) && decide (f ≤ 0xB8)
/-- Two groups of 48: m from 2 to 5 (R104). -/
def sbTwo (m : Nat) : Bool := decide (m ≤ 5)
def sbCount (m : Nat) : Nat := if sbTwo m then 96 else 48
/-- Element width (R104). -/
def sbW (m : Nat) : Nat := if sbTwo m then 5 else 10

/-- The format check with a class limit (R107). -/
def sbOk (b mmax : Nat) : Bool :=
  let f := blkFmt b
  f == 0 || f == 0xFF || (isSb f && (sbTwo (f - 0xB0) || blkByte b 62 == 0) && decide (f - 0xB0 ≤ mmax))

/-- The value of element i: `none` in a NaN group (R105). Zero and poisoned blocks read as +0 (R106). -/
def sbElem (b i : Nat) : Option Dy :=
  let f := blkFmt b
  if !isSb f then some ⟨0, 0⟩
  else
    let m := f - 0xB0
    let w := sbW m
    let hw := w - m
    let e := if i < 48 then blkByte b 1 else blkByte b 62
    if e = 0xFF then none
    else
      let el := b / 2 ^ (16 + w * i) % 2 ^ w
      let mv := intVal m true (el / 2 ^ hw)
      some ⟨mv, (e : Int) - 127 - ((m : Int) - 1) - (el % 2 ^ hw : Nat)⟩

/-- The 32-bit words of the block that element i of an m-bit block depends on: its bits, its exponent, and FMT (R133, R149). -/
def sbWords (m i : Nat) : List Nat :=
  let w := sbW m; let lo := 16 + w * i
  [0, lo / 32, (lo + w - 1) / 32] ++ (if i < 48 then [0] else [15])

/-- One packed group: its exponent, its element fields, its flags (R108). -/
def sbPackGroup (m : Nat) (rm : BitVec 2) (xs : List Fl) : Nat × List Nat × BitVec 11 :=
  let hw := sbW m - m
  let hmax := 2 ^ hw - 1
  if xs.any fun x => x.isNan || x.isInf then
    (0xFF, xs.map fun _ => 0, flagIf (xs.any fun x => x.isInf || x.isSnan) fNV)
  else if xs.all Fl.isZero then (0, xs.map fun _ => 0, 0#11)
  else
    let mag (x : Fl) : Int := let d := x.dy; (bitLen d.m.natAbs : Int) - 1 + d.e
    let top := xs.foldl (fun a x => if x.isZero then a else max a (mag x)) (-1000)
    let e : Int := min (max (top + 128) 0) 254
    let base : Int := e - 127 - ((m : Int) - 1)
    let lo := intMin m true; let hi := intMax m true
    let one (x : Fl) : Nat × BitVec 11 :=
      if x.isZero then (0, 0#11)
      else
        let d := x.dy
        let q (h : Nat) : Int := (roundInt rm ⟨d.m, d.e + h - base⟩).1
        match (upto 0 (hmax + 1)).find? fun j => decide (lo ≤ q (hmax - j)) && decide (q (hmax - j) ≤ hi) with
        | some j =>
          let h := hmax - j
          (intBits m (q h) * 2 ^ hw + h, flagIf (!(Dy.eqv ⟨q h, base - h⟩ d)) fNX ||| flagIf (q h == 0) fUF)
        | none =>
          let v := (clampI m true (q 0)).1
          (v * 2 ^ hw, fOF ||| flagIf (!(Dy.eqv ⟨intVal m true v, base⟩ d)) fNX)
    let els := xs.map one
    (e.toNat, els.map (·.1), els.foldl (fun f x => f ||| x.2) 0#11)

/-- A packed block of m bits from its source elements (R108). -/
def sbPack (m : Nat) (rm : BitVec 2) (xs : List Fl) : Nat × BitVec 11 :=
  let w := sbW m
  let g0 := sbPackGroup m rm (xs.take 48)
  if sbTwo m then
    let g1 := sbPackGroup m rm (xs.drop 48)
    ((0xB0 + m) + 256 * g0.1 + 2 ^ 16 * packNums w (g0.2.1 ++ g1.2.1) + 2 ^ 496 * g1.1, g0.2.2 ||| g1.2.2)
  else ((0xB0 + m) + 256 * g0.1 + 2 ^ 16 * packNums w g0.2.1, g0.2.2)

end Sys2Proof.Machine
end

