-- ==== Sys2Proof/Machine/Array.lean ====
section
/-! DEFINITION. The systolic array's arithmetic (R134 to R136, R146 to R149), its row timing (R152), and the conversions of accld and
accret (R160). -/

namespace Sys2Proof.Machine

/-- TY of an array command (R78): 0 bf16, 1 f16, 2 e4m3, 3 e5m2, 4 i8, 5 n8, 8 to 14 sb2 to sb8. -/
def arrSb (ty : Nat) : Bool := decide (8 ≤ ty)
/-- m_max of an SB class (R78). -/
def arrM (ty : Nat) : Nat := ty - 6
/-- Bytes of an A row (R135). -/
def arrRowBytes (ty : Nat) : Nat := if ty < 2 then 192 else if ty < 6 then 96 else 128
/-- Array busy cycles (R152). -/
def arrBusy (ty bt : Nat) : Nat := if ty < 2 then bt else if ty < 6 then (bt + 1) / 2 else bt / 8 * arrM ty
/-- The rows whose A reads fall `off` cycles after the start: first row and number (R152). -/
def arrReadAt (ty bt off : Nat) : Option (Nat × Nat) :=
  if off < 2 then none
  else
    let o := off - 2
    if ty < 2 then (if o < bt then some (o, 1) else none)
    else if ty < 6 then (if 2 * o < bt then some (2 * o, min 2 (bt - 2 * o)) else none)
    else if o % arrM ty = 0 ∧ 8 * (o / arrM ty) < bt then some (8 * (o / arrM ty), 8) else none
/-- Cycles from the A read of a row to its accumulator read: its write is one later (R152). -/
def arrLag (ty : Nat) : Nat := if arrSb ty then 8 + arrM ty else 9
/-- Cycles from the start to the last row's write. -/
def arrLast (ty bt : Nat) : Nat :=
  if ty < 2 then 11 + bt else if ty < 6 then 11 + (bt + 1) / 2 else 11 + bt / 8 * arrM ty

/-- A K-row: 96 elements, and whether a bit or exponent it depends on is poisoned (R149). -/
structure KRow where
  els : List Fl
  poi : Bool
  deriving DecidableEq, Repr

/-- An exact value as an element. -/
def flOf (x : Option Dy) : Fl := match x with | some d => .fin (decide (d.m < 0)) d.m.natAbs d.e | none => .nan false
def flInt (x : Int) : Fl := .fin (decide (x < 0)) x.natAbs 0

/-- Whether any of the n poison units of `unit` bytes that bytes off to off+len-1 touch is set. -/
def poiIn (p unit off len : Nat) : Bool := p / 2 ^ (off / unit) % 2 ^ ((off + len - 1) / unit + 1 - off / unit) != 0

/-- Block position P0 or P1 of an SB K-row. -/
def sbPos (d k : Nat) : Nat := d / 2 ^ (512 * k) % 2 ^ 512
/-- A two-group block fills the whole K-row (R136). -/
def sbIsTwo (b : Nat) : Bool := isSb (blkFmt b) && sbTwo (blkFmt b - 0xB0)
/-- The format check of an SB K-row: `mx` is m_max for a latch image (R136). The position of the failing block, if any. -/
def sbRowFault (mx d : Nat) : Option Nat :=
  let a := sbPos d 0; let b := sbPos d 1
  if !sbOk a mx then some 0
  else if sbIsTwo a then none
  else if !sbOk b mx || sbIsTwo b then some 64 else none
/-- The elements of an SB K-row and its poison, one bit for each `unit` bytes. -/
def sbRow (unit d p : Nat) : KRow :=
  let a := sbPos d 0
  let posPoi (k : Nat) : Bool :=
    let f := blkFmt (sbPos d k); f == 0xFF || poiIn p unit (64 * k) (if isSb f then 64 else 1)
  if sbIsTwo a then ⟨(upto 0 96).map fun i => flOf (sbElem a i), posPoi 0⟩
  else ⟨(upto 0 48).map (fun i => flOf (sbElem a i)) ++ (upto 0 48).map fun i => flOf (sbElem (sbPos d 1) i), posPoi 0 || posPoi 1⟩

/-- The format of an FP class. -/
def arrFmt (ty : Nat) : Fmt := match ty with | 0 => fpBf16 | 1 => fpF16 | 2 => fpE4m3 | _ => fpE5m2

/-- A K-row of any class from its bytes and poison (R135, R136). -/
def kRow (ty unit d p : Nat) : KRow :=
  if arrSb ty then sbRow unit d p
  else if ty < 2 then ⟨(upto 0 96).map fun k => (arrFmt ty).unpack (d / 2 ^ (16 * k) % 2 ^ 16), poiIn p unit 0 192⟩
  else if ty < 4 then ⟨(upto 0 96).map fun k => (arrFmt ty).unpack (d / 2 ^ (8 * k) % 256), poiIn p unit 0 96⟩
  else ⟨(upto 0 96).map fun k => flInt (intVal 8 (ty == 4) (d / 2 ^ (8 * k) % 256)), poiIn p unit 0 96⟩

/-- What the addends of an FP element hold (R146). -/
structure Addends where
  nan : Bool := false
  nv : Bool := false
  pinf : Bool := false
  ninf : Bool := false
  sum : Dy := ⟨0, 0⟩
  allNeg0 : Bool := true

def Addends.term (s : Addends) (a w : Fl) : Addends :=
  if a.isNan || w.isNan then { s with nan := true, nv := s.nv || a.isSnan || w.isSnan, allNeg0 := false }
  else if (a.isInf && w.isZero) || (a.isZero && w.isInf) then { s with nan := true, nv := true, allNeg0 := false }
  else
    let n := a.neg != w.neg
    if a.isInf || w.isInf then (if n then { s with ninf := true, allNeg0 := false } else { s with pinf := true, allNeg0 := false })
    else if a.isZero || w.isZero then { s with allNeg0 := s.allNeg0 && n }
    else { s with sum := s.sum.add (a.dy.mul w.dy), allNeg0 := false }

/-- An accumulator element of an FP class: bits and flags (R146). -/
def beatFp (as ws : List Fl) (old : Option Nat) : Nat × BitVec 11 :=
  let s : Addends := (as.zip ws).foldl (fun s x => s.term x.1 x.2) {}
  let s : Addends := match old with
    | none => s
    | some o => (match fp32.unpack o with
      | .nan _ => { s with nan := true }
      | .inf n => if n then { s with ninf := true, allNeg0 := false } else { s with pinf := true, allNeg0 := false }
      | .fin n m e => if m = 0 then { s with allNeg0 := s.allNeg0 && n } else { s with sum := s.sum.add ⟨if n then -(m : Int) else m, e⟩, allNeg0 := false })
  let nv := s.nv || (s.pinf && s.ninf)
  if s.nan || (s.pinf && s.ninf) then (fp32.nan, flagIf nv fNV)
  else if s.pinf then (fp32.infBits, 0#11)
  else if s.ninf then (fp32.sgn + fp32.infBits, 0#11)
  else fp32.roundDy rmRne false s.sum s.allNeg0

/-- An accumulator element of an integer class (R147). -/
def beatInt (sat : Bool) (as ws : List Fl) (old : Option Nat) : Nat × BitVec 11 :=
  let x := (as.zip ws).foldl (fun s x => s + x.1.dy.m * x.2.dy.m) (match old with | none => 0 | some o => intVal 32 true o)
  let out := decide (x < intMin 32 true) || decide (intMax 32 true < x)
  (if sat then (clampI 32 true x).1 else intBits 32 x, flagIf out fAOV)

/-- An accumulator row from an A row, the 64 column images and the old row (R146 to R149). -/
def beatRow (ty : Nat) (sat : Bool) (a : KRow) (cols : List KRow) (old : Option VRow) : RowW :=
  let el (j : Nat) (w : KRow) : LRes :=
    let o := old.map fun r => r.lane 32 j
    let r := if ty = 4 ∨ ty = 5 then beatInt sat a.els w.els o else beatFp a.els w.els o
    ⟨r.1, a.poi || w.poi || (match old with | some r => r.lpoi 32 j | none => false), r.2⟩
  RowW.of 32 ((cols.zip (upto 0 64)).map fun x => some (el x.2 x.1))

/-- The row a receiver forms from an absent A row: all +0, poisoned (R157). -/
def absentRow (ty : Nat) : KRow := ⟨(upto 0 96).map fun _ => if ty = 4 ∨ ty = 5 then flInt 0 else .fin false 0 0, true⟩

/-- Column image j of a latch: its bytes, and one poison bit for each 8 of them (R134, R144). -/
def latchCol (m : SMap Byte) (p : SMap Bool) (w j : Nat) : Nat × Nat :=
  let k := 12288 * w + 192 * j; (sgetBytes m k 192, poiBits p 8 k 192)

/-! ### accld and accret (R160) -/

/-- Element bytes of a CV code. -/
def cvBytes (cv : Nat) : Nat := match cv with | 0 => 4 | 3 => 4 | 1 => 2 | 2 => 2 | 4 => 2 | _ => 1
/-- The memory type of a CV code; the accumulator's type. -/
def cvTy (cv : Nat) : Ty × Ty :=
  match cv with
  | 1 => (.fl fpBf16, .fl fp32) | 2 => (.fl fpF16, .fl fp32) | 4 => (.int 16 true, .int 32 true) | 5 => (.int 8 true, .int 32 true)
  | 6 => (.fl fpE4m3, .fl fp32) | 7 => (.fl fpE5m2, .fl fp32) | 3 => (.int 32 true, .int 32 true) | _ => (.fl fp32, .fl fp32)
/-- Memory element to accumulator element. -/
def cvLoad (cv b : Nat) : Nat × BitVec 11 := if cv = 0 ∨ cv = 3 then (b, 0#11) else convert (cvTy cv).1 (cvTy cv).2 rmRne false b
/-- Accumulator element to memory element. -/
def cvStore (cv b : Nat) : Nat × BitVec 11 :=
  if cv = 0 ∨ cv = 3 then (b, 0#11) else convert (cvTy cv).2 (cvTy cv).1 rmRne (decide (4 ≤ cv)) b

/-- A memory row as an accumulator row. -/
def loadRow (cv d p : Nat) : RowW :=
  let w := 8 * cvBytes cv
  RowW.of 32 ((upto 0 64).map fun j =>
    let r := cvLoad cv (d / 2 ^ (w * j) % 2 ^ w); some ⟨r.1, p.testBit (w * j / 32), r.2⟩)
/-- An accumulator row as a memory row. -/
def storeRow (cv : Nat) (r : VRow) : RowW :=
  RowW.of (8 * cvBytes cv) ((upto 0 64).map fun j => let x := cvStore cv (r.lane 32 j); some ⟨x.1, r.lpoi 32 j, x.2⟩)

end Sys2Proof.Machine
end

