-- ==== Sys2Proof/Machine/Matrix.lean ====
section
/-! DEFINITION. M kind (R77): the lease, latches, array commands, accumulators (R137 to R164). -/

namespace Sys2Proof.Machine

/-- The core holds the lease (R137, R139). -/
def State.leased (s : State) : Bool := s.here.leaseCore == some s.curC
def State.leasePending (s : State) : Bool := s.here.leaseReq.any fun r => r.1 == s.curC
def needLease : Iss Unit := fun s => need s.leased cLease 0#32 0#32 s

/-- A cycle lies inside a busy span (R162). -/
def inSpan (l : List (Nat × Nat)) (c : Nat) : Bool := l.any fun r => decide (r.1 ≤ c) && decide (c ≤ r.2)
/-- A further span; spans that ended before `now` are forgotten. -/
def addSpan (now : Nat) (l : List (Nat × Nat)) (lo hi : Nat) : List (Nat × Nat) := (l.filter fun r => decide (now ≤ r.2)) ++ [(lo, hi)]

/-- An array command counts under the grant (R139). -/
def State.countCmd (s : State) : State := s.upCore fun c => { c with cmds := c.cmds + 1 }

/-- lease (R138, R142): the request and the in-flight count; the grant is an event. -/
def execLease (k : BitVec 5) : State → Host.Outcome State Fault Refusal := issue do
  fun s => need (!(s.leased || s.leasePending)) cLease 0#32 0#32 s
  takeToken k
  act fun s => s.upHere fun x => { x with leaseReq := x.leaseReq ++ [(s.curC, k.toNat)] }

/-- unlease (R143). -/
def execUnlease : State → Host.Outcome State Fault Refusal := issue do
  act fun s => s.later 1 [.unlease]

/-- lwt (R144); the latch is ready BT + 2 cycles after its start (log 118). -/
def execLwt (w : BitVec 2) (ar : BitVec 4) (bt : BitVec 7) (start : BitVec 9) : State → Host.Outcome State Fault Refusal := issue do
  needLease
  let a ← readA ar
  let o := a.val.toNat
  let n := bt.toNat
  needAddr o (32 * n) 32 sliceSize
  consume a.poi
  let c ← startOf start
  fun s =>
    let t := s.tileCycle c
    let x := s.here
    need (!(inSpan x.lwtSpans t || decide (t < sget 0 x.latchRead w.toNat) || x.paths.any fun p => (upto 0 64).any fun j => p.onBus j t (t + n - 1)))
      cSched 0#32 0#32 s
  act fun s =>
    let t := s.tileCycle c
    ((s.upHere fun x => { x with
        lwtSpans := addSpan (s.tcyc s.curT) x.lwtSpans t (t + n - 1)
        latchRdy := sset 0 x.latchRdy w.toNat (max (sget 0 x.latchRdy w.toNat) (t + n + 2)) }).addPath
      { s.newPath 3 c (n - 1) with addr := o, w := w.toNat, bt := n }).countCmd

/-- The check of the latch's blocks under an SB class, as it stands (R136, R153). -/
def Tile.latchFits (x : Tile) (ty w : Nat) : Bool :=
  !arrSb ty || (upto 0 64).all fun j => (sbRowFault (arrM ty) (latchCol x.latch x.latchPoi w j).1).isNone

/-- A path takes the mode in force and the latch as it stands at its start (R147, R150, R153). -/
def Path.begin (p : Path) (x : Tile) (satm : Bool) : Path :=
  let lo := 12288 * p.w
  { p with
    started := true, sat := satm, latchOk := x.latchFits p.ty p.w
    latch := (x.latch.filter fun e => decide (lo ≤ e.1) && decide (e.1 < lo + 12288)).map fun e => (e.1 - lo, e.2)
    latchPoi := (x.latchPoi.filter fun e => decide (lo ≤ 8 * e.1) && decide (8 * e.1 < lo + 12288)).map fun e => (e.1 - lo / 8, e.2) }

/-- An accumulator opens (R164). -/
def Core.openAcc (c : Core) (acc : Bool) (n rows : Nat) : Core :=
  if acc then { c with acc1 := c.acc1 ++ [(n, rows)] } else { c with acc0 := c.acc0 ++ [(n, rows)] }
/-- The number of the present slot's command among its core's. -/
def State.cmdNo (s : State) : Nat := 8 * s.core.seq + s.slot

/-- mma, mmaz, gmma: `kind` 0, 1, 2 (R151 to R158). -/
def mmaOp (kind : Nat) (acc : Bool) (w : BitVec 2) (ar : BitVec 4) (bt : BitVec 7) (ty : BitVec 4) (start : BitVec 9) : Iss Unit := do
  needLease
  fun s => need (kind != 2 || s.here.gang.getLsbD 31) cGang 0#32 0#32 s
  let a ← readA ar
  let ea := a.val.toNat
  let n := bt.toNat
  let t := ty.toNat
  let g ← fun s => .ok (if kind = 2 then (s.here.gang.extractLsb' 22 4).toNat else 0, s)
  let recv ← fun s => .ok (kind == 2 && (s.here.gang.extractLsb' 13 4) != 0#4, s)
  if recv then pure () else needAddr ea (n * arrRowBytes t) 64 tmSize
  fun s => need ((start != 0#9 && decide (s.clock ≠ 16 * start.toNat)) || s.here.latchFits t w.toNat) cFormat 0#32 0#32 s
  if recv then pure () else consume a.poi
  if recv then pure () else underWait 0 ea (n * arrRowBytes t)
  let c ← startOf start
  fun s =>
    let b := s.tileCycle c
    need (!(inSpan s.here.arrSpans b || decide (b < sget 0 s.here.latchRdy w.toNat))) cSched 0#32 0#32 s
  act fun s =>
    let b := s.tileCycle c
    let hi := b + arrBusy t n - 1
    let dg := if g = 0 then 0 else 3 * g + 16
    let p := { s.newPath kind c (dg + arrLast t n) with acc := acc, w := w.toNat, addr := ea, bt := n, ty := t, dg := dg, recv := recv, gn := s.here.gangN }
    let p := if c = s.clock then p.begin s.here s.core.satm else p
    let s := s.upHere fun x => { x with
      arrSpans := addSpan (s.tcyc s.curT) x.arrSpans b hi
      latchRead := sset 0 x.latchRead w.toNat (max (sget 0 x.latchRead w.toNat) (hi + 1))
      gangN := if kind = 2 then x.gangN + 1 else x.gangN }
    (s.addPath p).countCmd.upCore fun y => y.openAcc acc s.cmdNo n

def execMma (acc : Bool) (w : BitVec 2) (ar : BitVec 4) (bt : BitVec 7) (ty : BitVec 4) (start : BitVec 9) :
    State → Host.Outcome State Fault Refusal := issue (mmaOp 0 acc w ar bt ty start)
def execMmaz (acc : Bool) (w : BitVec 2) (ar : BitVec 4) (bt : BitVec 7) (ty : BitVec 4) (start : BitVec 9) :
    State → Host.Outcome State Fault Refusal := issue (mmaOp 1 acc w ar bt ty start)
def execGmma (acc : Bool) (w : BitVec 2) (ar : BitVec 4) (bt : BitVec 7) (ty : BitVec 4) (start : BitVec 9) :
    State → Host.Outcome State Fault Refusal := issue (mmaOp 2 acc w ar bt ty start)

/-- accz (R159). -/
def execAccz (acc : Bool) : State → Host.Outcome State Fault Refusal := issue do
  act fun s => s.later 1 [.accz acc]

def execAmodeWrap : State → Host.Outcome State Fault Refusal := issue do
  act fun s => s.later 1 [.amode false]
def execAmodeSat : State → Host.Outcome State Fault Refusal := issue do
  act fun s => s.later 1 [.amode true]

/-! ### Static requesters (R230 to R234) -/

/-- The banks of an access: one for each 64-byte line it touches. -/
def banksOf (a n : Nat) : List Nat := if n = 0 then [] else (upto (a / 64) ((a + n - 1) / 64 + 1 - a / 64)).map (· % 32)

/-- Issue order of two requesters (R232). -/
def Req.before (a b : Req) : Bool :=
  decide (a.issue < b.issue) || (a.issue == b.issue && (decide (a.core < b.core) || (a.core == b.core &&
    (decide (a.slot < b.slot) || (a.slot == b.slot && decide (a.id < b.id))))))

/-- A requester meets those that come before it: it counts on every bank it uses; it loses on the lowest bank held by another. -/
def arbitrate (used : List (Nat × Req)) (r : Req) : List (Nat × Req) × Option (Nat × Req) :=
  let bs := banksOf r.addr r.len
  let lost := used.filter fun u => bs.contains u.1
  let low := lost.foldl (fun (m : Option (Nat × Req)) u => match m with | some v => if u.1 < v.1 then some u else m | none => some u) none
  (used ++ ((bs.filter fun b => !lost.any fun u => u.1 == b).map fun b => (b, r)), low)

/-- The bank-conflict word (R234). -/
def conflictWord (bank : Nat) (win lose : Req) : Word :=
  BitVec.ofNat 32 (bank * 2 ^ 27 + win.kind * 2 ^ 24 + win.core * 2 ^ 22 + lose.kind * 2 ^ 19 + lose.core * 2 ^ 17)

/-- A cause joins the L causes that land in this cycle (R342): a further one of its code counts in MULT (R343), and the earliest
names the trap. -/
def addCause (l : List (Nat × Info)) (key : Nat) (i : Info) : List (Nat × Info) :=
  if l.any fun e => e.2.cause == i.cause then
    l.map fun e => if e.2.cause == i.cause then
      let m := Nat.min 7 (e.2.mult + 1)
      if key < e.1 then (key, { i with mult := m }) else (e.1, { e.2 with mult := m }) else e
  else l ++ [(key, i)]

/-- An L cause lands on a core (R339, R343): of a task it waits for the trap point; after the task's end it goes to the trap log. -/
def Core.cause (c : Core) (key : Nat) (i : Info) : Core :=
  match c.mode with
  | .draining => { c with trapLog := c.trapLog ++ [c.logged i] }
  | .idle => { c with trapLog := c.trapLog ++ [c.logged i] }
  | .stopped => c
  | _ => { c with lcause := addCause c.lcause key i }

/-- A tile path's cause: on the task's timeline where the core is in the monitor (R446). -/
def Core.pathCause (c : Core) (p : Path) (off : Nat) (i : Info) : Core :=
  if c.inMon && !p.mon then c.push { at' := p.s0 + off, id := p.id, slot := p.slot, pc := p.pc, issue := p.issue, effs := [.cause i] }
  else c.cause (8 * p.id + p.slot) i

/-- A cause of a path lands: on the monitor it is a monitor fault, on a captured command it waits for the task's timeline. -/
def Tile.pathCause (x : Tile) (p : Path) (off : Nat) (i : Info) : Tile :=
  x.upC p.core fun c =>
    if p.mon then c.push { at' := 0, mon := true, id := p.id, slot := p.slot, pc := p.pc, effs := [.cause i] } else c.pathCause p off i

/-- The trap state of a bank conflict with winner w (R234). -/
def bankInfo (pc slot row : Nat) (w : Nat × Req) (r : Req) : Info :=
  { cause := cBank, slot := slot, i0 := BitVec.ofNat 32 pc, i1 := conflictWord w.1 w.2 r, i2 := BitVec.ofNat 32 w.2.pc, i3 := BitVec.ofNat 32 row }

/-! ### accld and accret (R160, R161) -/

/-- The effects of entries with the cycles in which they land, in that order (R60). An atomic writes one cycle after its read. -/
def inLandingOrder (l : List Pend) : List (Nat × Eff) :=
  (orderBy (fun (a b : Nat × Pend × Eff) => decide (a.1 < b.1) || (a.1 == b.1 && a.2.1.before b.2.1))
    (l.flatMap fun e => e.effs.map fun f => (match f with | .amoRead .. => e.at' + 1 | _ => e.at', e, f))).map fun e => (e.1, e.2.2)
/-- The captured effects of the core with an offset at or before task cycle `upTo`, in the order in which they land (R446). -/
def Core.captured (c : Core) (upTo : Nat) : List Eff :=
  ((inLandingOrder (c.pend.filter fun e => !e.mon)).filter fun e => decide (e.1 ≤ upTo)).map Prod.snd

/-- A captured effect's write of tile memory, for a path's read in a monitor excursion (R446). -/
def Tile.viewEff (x : Tile) (f : Eff) : Tile :=
  let put (a n v q : Nat) : Tile := { x with tm := ssetBytes x.tm a n v, tmPoi := setPoiBits x.tmPoi 4 a n q }
  match f with
  | .store n a v q => put a n v.toNat q.toNat
  | .retRow _ n a v q => put a n v.toNat q.toNat
  | .amoRead op a s k _ => let v := amoNew op ⟨BitVec.ofNat 32 (x.tmRead a 4), decide (x.tmPoiR a 4 ≠ 0)⟩ s k; put a 4 v.val.toNat (if v.poi then 1 else 0)
  | .amoWrite a v _ _ lost => if lost then x else put a 4 v.val.toNat (if v.poi then 1 else 0)
  | _ => x

/-- Tile memory as the core's timeline gives it to a path's read (R446). -/
def Core.tmView (c : Core) (p : Path) (upTo : Nat) (x : Tile) : Tile :=
  if c.inMon && !p.mon then (c.captured upTo).foldl Tile.viewEff x else x

/-- A captured effect's write of row n. -/
def VRow.viewEff (n : Nat) (r : VRow) (f : Eff) : VRow :=
  match f with
  | .vrow d en v q => if d = n then r.write en v q else r
  | .accz a => if decide (n < 64) != a then {} else r
  | _ => r

/-- A row of the core's registers as its timeline gives it to a path's read (R446). -/
def Core.rowView (c : Core) (p : Path) (upTo n : Nat) : VRow :=
  if c.inMon && !p.mon then (c.captured upTo).foldl (VRow.viewEff n) (c.vreg n) else c.vreg n

/-- Rows RW+1 of an accld or accret. -/
def Path.rowAddr (p : Path) (i : Nat) : Nat := p.addr + i * (64 * cvBytes p.ty)

/-- Row i of an accret is read: it will perform in tile memory four cycles later on the issuer's clock. -/
def Core.retRead (c : Core) (p : Path) (i : Nat) : Core :=
  let r := storeRow p.ty (c.rowView p (p.s0 + i) ((if p.acc then 64 else 0) + i))
  let n := 8 * p.id + p.slot
  let e : List Eff := [.retRow i (64 * cvBytes p.ty) (p.rowAddr i) r.val r.poi]
  c.push { at' := p.s0 + 4 + i, mon := p.mon, id := p.id, slot := p.slot, pc := p.pc, issue := p.issue, flags := if p.mon then 0#11 else r.fl
           effs := if i + 1 = p.bt then e ++ [.accClose p.acc n p.bt] else e }

/-- The requester of a path's access. -/
def Path.req (p : Path) (kind a n : Nat) : Req := ⟨p.issue, p.core, p.id, p.slot, kind, p.pc, a, n⟩

/-- Row i of an accld is read from tile memory at tile cycle s + i, as a static requester (R161): it lands four cycles later, or the
command stops there with a bank conflict (R232, R233). -/
def Tile.ldRow (x : Tile) (p : Path) (i : Nat) : Tile :=
  let n := 64 * cvBytes p.ty
  let a := p.rowAddr i
  let r := p.req 3 a n
  let b := arbitrate x.banks r
  let x := { x with banks := b.1 }
  match b.2 with
  | none =>
    let x := x.meet 0 a n
    let c := x.core p.core
    let v := c.tmView p (p.s0 + i) x
    let row := loadRow p.ty (v.tmRead a n) (v.tmPoiR a n)
    x.setCore p.core (c.push
      { at' := p.s0 + 4 + i, mon := p.mon, id := p.id, slot := p.slot, pc := p.pc, issue := p.issue, flags := if p.mon then 0#11 else row.fl
        effs := [.vrow ((if p.acc then 64 else 0) + i) row.en row.val row.poi] })
  | some w =>
    { x.pathCause p i (bankInfo p.pc p.slot i w r) with
      paths := x.paths.map fun q => if q.core == p.core && q.id == p.id && q.slot == p.slot && q.mon == p.mon then { q with stop := some i } else q }

/-- accld, accret: `ret` (R160, R161). With no start offset, row 0 is accessed in the issue cycle. -/
def retOp (ret : Bool) (acc : Bool) (ar cv : BitVec 4) (rw : BitVec 6) (start : BitVec 9) : Iss Unit := do
  let a ← readA ar
  let ea := a.val.toNat
  let n := rw.toNat + 1
  let len := n * (64 * cvBytes cv.toNat)
  needAddr ea len 64 tmSize
  consume a.poi
  underWait 0 ea len
  let c ← startOf start
  fun s => need (!inSpan s.core.retSpans (s.tileCycle c)) cSched 0#32 0#32 s
  act fun s =>
    let b := s.tileCycle c
    let p := { s.newPath (if ret then 5 else 4) c (n + 3) with acc := acc, addr := ea, bt := n, ty := cv.toNat }
    let no := s.cmdNo
    let s := s.upCore fun y =>
      let y := { y with retSpans := addSpan (s.tcyc s.curT) y.retSpans b (b + n - 1) }
      if ret then y else y.openAcc acc no n
    let s := s.addPath p
    if c = s.clock then (if ret then s.upCore fun y => y.retRead p 0 else s.upHere fun x => x.ldRow p 0) else s

def execAccld (acc : Bool) (ar cv : BitVec 4) (rw : BitVec 6) (start : BitVec 9) : State → Host.Outcome State Fault Refusal :=
  issue (retOp false acc ar cv rw start)
def execAccret (acc : Bool) (ar cv : BitVec 4) (rw : BitVec 6) (start : BitVec 9) : State → Host.Outcome State Fault Refusal :=
  issue (retOp true acc ar cv rw start)

end Sys2Proof.Machine
end

