-- ==== Sys2Proof/Machine/Control.lean ====
section
/-! DEFINITION. C kind (R82): transfers, hardware loops, waits, barriers, the end of a task (R207, R208, R212, R316, R320 to R328, R334,
R335); with bar.arr and nxt of N kind (R319, R334), and the headers (R43 to R51). -/

namespace Sys2Proof.Machine

/-- The address after the issuing bundle (R320). -/
def State.bundleEnd (s : State) : Nat := (s.core.pc + 4 * s.words.length) % 2 ^ 24

/-- Call depth. What a task has open at a trap is not open to the monitor (log 28). -/
def Core.depth (c : Core) : Nat := c.calls.length + if c.inMon then 1000 else 0

/-- The innermost loop, if it was opened at the current call depth (R327). -/
def Core.inner (c : Core) : Option LoopE := match c.loops with | l :: _ => if l.depth = c.depth then some l else none | [] => none

/-- The trap words of a loop fault (R345). -/
def loopI {α : Type} (pc depth : Nat) : Iss α := trapI cLoop (BitVec.ofNat 32 pc) (BitVec.ofNat 32 depth)

/-- A taken transfer or a call is checked against the innermost loop (R327). -/
def needInLoop (target : Option Nat) : Iss Unit := fun s =>
  match s.core.inner with
  | none => .ok ((), s)
  | some l =>
    let out := match target with | some t => !(decide (l.start ≤ t) && decide (t < l.stop)) | none => false
    if l.stop == s.bundleEnd || out then loopI l.pc s.core.loops.length s else .ok ((), s)

/-- Sets the address of the next bundle (R320). -/
def State.goto (s : State) (a : Nat) : State := s.upCore fun c => { c with npc := a % 2 ^ 24, jumped := true }

/-- PC + 4·OFF (R321). -/
def State.target {n : Nat} (s : State) (off : BitVec n) : Nat := (BitVec.ofNat 24 s.core.pc + 4#24 * off.signExtend 24).toNat

def execBr (off : BitVec 24) : State → Host.Outcome State Fault Refusal := issue do
  let t ← fun s => .ok (s.target off, s)
  needInLoop (some t)
  act fun s => s.goto t

def execBrC (n : Bool) (p : BitVec 3) (off : BitVec 24) : State → Host.Outcome State Fault Refusal := issue do
  let x ← readP p
  let t ← fun s => .ok (s.target off, s)
  let taken := x.val != n
  if taken then needInLoop (some t) else pure ()
  consume x.poi
  act fun s => if taken then s.goto t else s

def execCall (off : BitVec 24) : State → Host.Outcome State Fault Refusal := issue do
  fun s => need (decide (s.core.calls.length < 16)) cCall 0#32 0#32 s
  needInLoop none
  act fun s =>
    let e := (s.bundleEnd, s.core.loops.length + if s.core.inMon then 1000 else 0)
    (s.goto (s.target off)).upCore fun c => { c with calls := e :: c.calls }

/-- Words of a code-page or privilege fault at fetch (R345). -/
def fetchInfo (slot : Nat) : FetchFault → Info
  | .page a => { cause := cPage, slot := slot, i0 := BitVec.ofNat 32 a }
  | .privilege a => { cause := cPriv, slot := slot, i0 := BitVec.ofNat 32 a }

/-- The target of a leaf in the br.tree record at code address `r` (R323). -/
def treeTarget (x : Tile) (mon : Bool) (slot r leaf : Nat) : Except Info Nat :=
  match x.fetch mon r, x.fetch mon ((r + 4) % 2 ^ 24), x.fetch mon ((r + 8) % 2 ^ 24), x.fetch mon ((r + 12) % 2 ^ 24) with
  | .error e, _, _, _ => .error (fetchInfo slot e)
  | _, .error e, _, _ => .error (fetchInfo slot e)
  | _, _, .error e, _ => .error (fetchInfo slot e)
  | _, _, _, .error e => .error (fetchInfo slot e)
  | .ok w0, .ok w1, .ok w2, .ok w3 =>
    let v : BitVec 128 := w3 ++ w2 ++ w1 ++ w0
    if v.extractLsb' 120 8 != 0#8 then .error { cause := cInstr, slot := slot }
    else .ok (BitVec.ofNat 24 r + 4#24 * v.extractLsb' (24 * leaf) 24).toNat

/-- The record a br.tree names; outside a tree bundle it is an illegal instruction (R323). -/
def State.treeTo (s : State) (off : BitVec 21) : Except Info Nat :=
  match s.leaf with
  | none => .error { cause := cInstr, slot := s.slot }
  | some l => treeTarget s.here s.core.inMon s.slot (s.target off) l

def execBrTree (off : BitVec 21) : State → Host.Outcome State Fault Refusal := issue do
  let t ← fun s => match s.treeTo off with | .ok t => .ok (t, s) | .error i => .error i
  needInLoop (some t)
  act fun s => s.goto t

/-- The first of tokens lo to lo+n-1 with work in flight, `left` of them set aside (R217, R219). -/
def Core.busyTok (c : Core) (left : Nat → Nat) (lo n : Nat) : Option Nat := (upto lo n).find? fun k => decide (left k < (c.token k).infl)
/-- No token of lo to lo+n-1 has work in flight. -/
def needTokens (left : Nat → Nat) (lo n : Nat) : Iss Unit := fun s =>
  match s.core.busyTok left lo n with
  | some k => trapI cToken (tokWord k (s.core.token k)) 0#32 s
  | none => .ok ((), s)

def execRet : State → Host.Outcome State Fault Refusal := issue do
  let e ← fun s => match s.core.calls with
    | e :: _ => if s.core.inMon && decide (e.2 < 1000) then trapI cCall 0#32 0#32 s else .ok (e, s)
    | [] => trapI cCall 0#32 0#32 s
  fun s => if e.2 % 1000 < s.core.loops.length then loopI (match s.core.loops with | l :: _ => l.pc | [] => 0) s.core.loops.length s else .ok ((), s)
  needTokens (fun _ => 0) 16 12
  act fun s => (s.goto e.1).upCore fun c => { c with calls := c.calls.tail }

/-! ### Loops (R324 to R328) -/

/-- A seventh open loop is a loop fault (R325). -/
def needDepth : Iss Unit := fun s => if 6 ≤ s.core.loops.length then loopI s.core.pc 6 s else .ok ((), s)
/-- Pushes a loop whose body follows this bundle. -/
def pushLoop (len : BitVec 10) (n : Nat) (mx : BitVec 14) (whl : Option (Nat × Bool)) (pre : Bool) : Iss Unit := do
  act fun s =>
    let a := s.bundleEnd
    let l : LoopE := { start := a, stop := (a + 4 * len.toNat) % 2 ^ 24, pc := s.core.pc, n := n, mx := mx.toNat, whl := whl, pre := pre, depth := s.core.depth }
    (s.goto a).upCore fun c => { c with loops := l :: c.loops }
/-- The next bundle is at the loop's end (R325). An outer iteration that this bundle would end goes on (log 127). -/
def State.skipLoop (s : State) (len : BitVec 10) : State := s.goto (s.bundleEnd + 4 * len.toNat)

/-- loop and loop.p (R325). A poisoned trip count is consumed. -/
def countLoop (pre : Bool) (r : BitVec 6) (len : BitVec 10) (mx : BitVec 14) : Iss Unit := do
  let v ← peekS r
  let n := (v.getD {}).val.toNat
  if n = 0 then pure () else needDepth
  fun s => need (decide (n ≤ mx.toNat)) cBound (BitVec.ofNat 32 s.core.pc) (BitVec.ofNat 32 (s.core.loops.length + 1)) s
  consume (v.any fun x => x.poi)
  let _ ← readS r
  if n = 0 then act fun s => s.skipLoop len else pushLoop len n mx none pre

def execLoop (r : BitVec 6) (len : BitVec 10) (mx : BitVec 14) : State → Host.Outcome State Fault Refusal := issue (countLoop false r len mx)
def execLoopP (r : BitVec 6) (len : BitVec 10) (mx : BitVec 14) : State → Host.Outcome State Fault Refusal := issue (countLoop true r len mx)

/-- loop.w (R326). -/
def execLoopW (n : Bool) (p : BitVec 3) (len : BitVec 10) (mx : BitVec 14) : State → Host.Outcome State Fault Refusal := issue do
  let x ← readP p
  if x.val != n then needDepth else pure ()
  consume x.poi
  if x.val != n then pushLoop len 0 mx (some (p.toNat, n)) false else act fun s => s.skipLoop len

/-- brk (R328). -/
def execBrk (n : Bool) (p : BitVec 3) : State → Host.Outcome State Fault Refusal := issue do
  let l ← fun s => match s.core.inner with | some l => .ok (l, s) | none => loopI s.core.pc s.core.loops.length s
  let x ← readP p
  consume x.poi
  act fun s => if x.val != n then s.upCore fun c => { c with loops := c.loops.tail, npc := l.stop, preBoundary := l.pre } else s

/-- The end of an iteration (R327): `a` is the address after the issued bundle, `fuel` the depth of the loop stack. A counted loop
begins its next iteration or pops; the test of a loop.w waits for the next due cycle (R326). -/
def Core.iterEnd (c : Core) (a : Nat) : Nat → Core
  | 0 => c
  | k + 1 =>
    match c.inner with
    | none => c
    | some l =>
      if l.stop ≠ a then c
      else if l.whl.isSome then { c with loopTest := true }
      else if l.j + 1 < l.n then
        { c with loops := { l with j := l.j + 1 } :: c.loops.tail, npc := l.start, preBoundary := c.preBoundary || l.pre }
      else ({ c with loops := c.loops.tail, preBoundary := c.preBoundary || l.pre }).iterEnd a k

/-- The test of a loop.w at an iteration end, in the due cycle of the next bundle (R326): the core as it goes on, or the cause it
takes before that bundle. -/
def Core.testLoop (c : Core) : Nat → Core × Option Info
  | 0 => ({ c with loopTest := false }, none)
  | k + 1 =>
    match c.loopTest, c.inner with
    | true, some l =>
      (match l.whl with
       | some (p, n) =>
         let x := c.bank.preg p
         let d : Word := BitVec.ofNat 32 c.loops.length
         let c := { c with loopTest := false }
         if x.poi then ({ c with pc := l.start }, some { cause := cPoison, i0 := BitVec.ofNat 32 l.pc, i1 := d })
         else if x.val == n then
           let c := ({ c with loops := c.loops.tail, npc := l.stop }).iterEnd l.stop 6
           ({ c with pc := c.npc }).testLoop k
         else if l.j + 1 < l.mx then ({ c with loops := { l with j := l.j + 1 } :: c.loops.tail, pc := l.start }, none)
         else ({ c with loops := c.loops.tail, pc := l.stop }
               , some { cause := cBound, i0 := BitVec.ofNat 32 l.pc, i1 := d, i2 := BitVec.ofNat 32 l.stop })
       | none => ({ c with loopTest := false }, none))
    | _, _ => ({ c with loopTest := false }, none)

/-! ### dly, nop, phase -/

/-- dly (R207). -/
def execDly (cnt : BitVec 16) : State → Host.Outcome State Fault Refusal := issue do
  act fun s => s.upCore fun c => { c with gap := cnt.toNat + 1 }
/-- nop (R208). -/
def execNop : State → Host.Outcome State Fault Refusal := issue do
  act fun s => s
/-- phase (R335): the tile has reached the mark. -/
def execPhase (n : BitVec 8) : State → Host.Outcome State Fault Refusal := issue do
  act fun s => s.upHere fun x => { x with marks := if x.marks.contains n.toNat then x.marks else x.marks ++ [n.toNat] }

/-! ### wait (R212) -/

/-- The fault of a token error class (R209). -/
def classCause (cls : Nat) : Nat := match cls with | 1 => cStream | 2 => cStream | 3 => cSummary | 4 => cCopy | 5 => cColl | _ => cToken

/-- wait, when it issues: a token with errors faults, and the trap clears them. Before that it stalls without effect. -/
def execWait (k : BitVec 5) (n : BitVec 16) : State → Host.Outcome State Fault Refusal := issue do
  fun s =>
    let t := s.core.token k.toNat
    if n.toNat ≤ t.arr ∧ t.errn ≠ 0 then
      .error { cause := classCause t.errc, slot := s.slot, i0 := tokWord k.toNat t, tok := some k.toNat }
    else .ok ((), s)

/-! ### Barriers (R329 to R334) -/

/-- Barrier entry b of a core: its word, zero where the image gives none (R330). -/
def Tile.barrier (x : Tile) (core b : Nat) : Word := sget 0#32 x.barE (64 * core + b)
/-- A core's state of a barrier: 0 NONE, 1 ARRIVED, 2 RELEASED (R332). -/
def Core.bar (c : Core) (b : Nat) : Nat := sget 0 c.bars b
def Core.setBar (c : Core) (b v : Nat) : Core := { c with bars := sset 0 c.bars b v }
/-- The barrier named is valid (R330). -/
def needBarrier (b : BitVec 6) : Iss Unit := fun s => need ((s.here.barrier s.curC b.toNat).getLsbD 31) cBarrier 0#32 0#32 s

/-- bar.arr (R334): from NONE the core arrives; otherwise a barrier fault. -/
def execBarArr (b : BitVec 6) : State → Host.Outcome State Fault Refusal := issue do
  needBarrier b
  fun s => need (s.core.bar b.toNat == 0) cBarrier 0#32 0#32 s
  act fun s => s.upCore fun c => c.setBar b.toNat 1

/-- bar.wait (R334): from NONE the core arrives and stalls; ARRIVED it stalls; from RELEASED it issues and returns to NONE. -/
def execBarWait (b : BitVec 6) : State → Host.Outcome State Fault Refusal := issue do
  needBarrier b
  act fun s => match s.core.bar b.toNat with
    | 0 => s.upCore fun c => c.setBar b.toNat 1
    | 1 => s
    | _ => s.upCore fun c => c.setBar b.toNat 0

/-! ### exit (R316, R219) -/

/-- The pending lease request of a core holds 1 of its token's in-flight count (R219). -/
def State.leaseHolds (s : State) (k : Nat) : Nat := (s.here.leaseReq.filter fun r => r.1 == s.curC && r.2 == k).length

/-- exit: the token check at issue; the task ends after the other slots of its bundle. -/
def execExit : State → Host.Outcome State Fault Refusal := issue do
  fun s => needTokens s.leaseHolds 0 32 s
  act fun s => s.laterPart 0 [.exit]

/-- A core gives up the lease, and a pending request is cancelled (R140, R143). -/
def Tile.dropLease (x : Tile) (c : Nat) : Tile :=
  let x := if x.leaseCore == some c then { x with leaseCore := none, leaseLast := some c } else x
  let mine := x.leaseReq.filter fun r => r.1 == c
  let x := { x with leaseReq := x.leaseReq.filter fun r => r.1 != c }
  mine.foldl (fun x r => x.upC c fun y => let t := y.token r.2; y.setTok r.2 { t with infl := t.infl - 1 }) x

/-- What the end of a task leaves of its core (R316, R346): loops, calls and queues are empty; a decode-fault trap not taken goes to the
trap log (R297). -/
def Core.endTask (c : Core) : Core :=
  { c with mode := .draining, loops := [], calls := [], loopTest := false, jumped := false, repRem := 0, repHdr := 0#32, preReq := none, deferred := []
           trapLog := c.trapLog ++ c.decFault.map fun i => c.logged i
           decFault := [], lcause := [], task := { c.task with ldq := [], sdq := [] } }

/-! ### nxt (R318, R319) -/

/-- The item a work generator yields, and its next index. -/
def workItem (next lim cfg : Word) : Word × Option Word :=
  let i := next.toNat
  let w := cfg.toNat % 65536 + 1
  let row := i / w
  if i < lim.toNat ∧ row ≤ 0xFFFE then (BitVec.ofNat 32 (row * 65536 + i % w), some (BitVec.ofNat 32 (min (i + cfg.toNat / 65536 + 1) 0xFFFF_FFFF)))
  else (0xFFFF_FFFF#32, none)

def execNxt (d : BitVec 6) : State → Host.Outcome State Fault Refusal := issue do
  act fun s =>
    let c := s.core
    let r := workItem c.wnext c.wlim c.wcfg
    let s := match r.2 with | some v => s.laterPart 1 [.wnext v] | none => s
    s.putS 24 d ⟨r.1, false⟩

/-! ### Headers -/

/-- hdr.lend: its bits are read with the slots (R44). It has no effect of its own. -/
def execHdrLend (_l2 _l3 _l4 : BitVec 9) : State → Host.Outcome State Fault Refusal := issue do
  act fun s => s

/-- The leaf the tests select, and whether a test that was consulted is poisoned (R46, R398). -/
def treeLeaf (c : Core) : List (Bool × BitVec 3) → Nat → Nat × Bool
  | [], i => (i, false)
  | (n, p) :: r, i =>
    let x := c.bank.preg p.toNat
    if x.val != n then (i, x.poi) else let y := treeLeaf c r (i + 1); (y.1, y.2 || x.poi)

/-- hdr.tree: selects the leaf whose slots issue (R46). -/
def execHdrTree (n0 : Bool) (p0 : BitVec 3) (n1 : Bool) (p1 : BitVec 3) (n2 : Bool) (p2 : BitVec 3) (n3 : Bool) (p3 : BitVec 3)
    (_s2 _s3 _s4 : BitVec 4) : State → Host.Outcome State Fault Refusal := issue do
  let l ← fun s => .ok (treeLeaf s.core [(n0, p0), (n1, p1), (n2, p2), (n3, p3)] 0, s)
  consume l.2
  act fun s => { s with leaf := some l.1 }

/-- hdr.rep: the remaining repetitions of a bundle whose first is about to issue (R48, R49). -/
def execHdrRep (cnt : BitVec 6) (_s2 _s3 _s4 : BitVec 4) : State → Host.Outcome State Fault Refusal := issue do
  act fun s => s.upCore fun c => if c.repRem = 0 then { c with repRem := cnt.toNat + 1, repHdr := s.words.headD 0#32 } else c

end Sys2Proof.Machine
end

