-- ==== Sys2Proof/Machine/System.lean ====
section
/-! DEFINITION. Y kind (R83): control and status registers (R350), traps and their return (R348, R349), token moves (R214 to R216),
cycle counters and entropy (R351, R352), signatures (R402), load hints (R370); and the effects of csrw on the context regions and on
the monitor's control (R346, R357, R359, R360). -/

namespace Sys2Proof.Machine

/-- Entries of the pending-write record that a core's task holds in clock cycle `now` (R221). -/
def Tile.npw (x : Tile) (c now : Nat) : Nat :=
  ((x.core c).pend.filter fun p => p.counts && !p.mon && decide (now < p.last)).length
    + (x.paths.filter fun p => p.core == c && !p.mon && decide (now < p.last)).length

/-- Entries that the monitor's own work has in tile cycle `now`. -/
def Tile.npwMon (x : Tile) (c now : Nat) : Nat :=
  ((x.core c).pend.filter fun p => p.counts && p.mon && decide (now < p.last)).length
    + (x.paths.filter fun p => p.core == c && p.mon && decide (now < p.last)).length

def b2n (b : Bool) : Nat := if b then 1 else 0
/-- A bit at a place of a word. -/
def bitAt (b : Bool) (i : Nat) : Nat := b2n b * 2 ^ i

/-! ### Reading a register (R350) -/

/-- mb0 to mb7 and cw0 to cw15, which carry poison (R350). -/
def csrPoi (n : Nat) : Bool := (decide (0x10 ≤ n) && decide (n ≤ 0x17)) || (decide (0x20 ≤ n) && decide (n ≤ 0x2F))

/-- `mstat` (R141). -/
def Tile.mstat (x : Tile) (c : Nat) : Nat :=
  let y := x.core c
  let held := x.leaseCore == some c
  bitAt held 31 + bitAt (x.leaseReq.any fun r => r.1 == c) 30 + bitAt y.satm 29 + (if held then y.cmds % 128 else 0) * 2 ^ 16 + min y.lcyc 4096

/-- Payload bytes that the decode buffer holds (R295). -/
def Packet.carBytes (p : Packet) : Nat := match p.car with | some c => 64 * max c.nfl1 c.nfl2 | none => 0
def Tile.decBytes (x : Tile) : Nat :=
  (x.decQ.map Packet.carBytes).sum + (match x.decCur with | some d => d.p.carBytes | none => 0)

/-- `dstat` (R300). -/
def Tile.dstat (x : Tile) : Nat :=
  bitAt x.decEn 31 + bitAt x.decStrict 30 + bitAt (!x.decCfgQ.isEmpty) 29 + bitAt x.decBad 28 + (x.side.filter fun e => e.2.held).length * 256
    + (x.decBytes + 1023) / 1024

/-- `svst` of a core (R360). An engine that has stopped is not running. -/
def Tile.svst (x : Tile) (c : Nat) : Word := (x.core c).svst ||| (if x.save.any fun v => !v.stopped then 0x8000_0000#32 else 0#32)

/-- A predicate file in bits [7:0]. -/
def predBits (b : Bank) : Nat := spread 1 ((upto 0 8).map fun i => (b.preg i).val)

/-- The value a csrr of an assigned register of core c returns. A write-only register reads zero (R10, log 29). -/
def csrRead (x : Tile) (c n : Nat) : PWord :=
  let y := x.core c
  let w (v : Nat) : PWord := ⟨BitVec.ofNat 32 v, false⟩
  let v (v : Word) : PWord := ⟨v, false⟩
  if n = 0 then v y.aflags
  else if n = 1 then w (x.mstat c)
  else if n = 2 then w (bitAt y.strict 31 + y.ranges.length % 32 * 2 ^ 16 + x.npw c y.tsk % 32)
  else if n = 3 then
    w (y.task.sdq.length % 32 * 2 ^ 16 + y.task.ldq.length % 64 * 2 ^ 8 + bitAt y.qv 1 + bitAt y.qs 0)
  else if n = 4 then w (min y.tsk 0xFFFF_FFFF)
  else if n = 5 then v x.gang
  else if n = 6 then w x.lcnt
  else if n = 8 then v y.wnext
  else if n = 9 then v y.wlim
  else if n = 10 then v y.wcfg
  else if n < 0x20 then sget {} y.mb (n - 0x10)
  else if n < 0x30 then sget {} x.cw (n - 0x20)
  else if n < 0x40 then w ((y.loops[n - 0x30]?).elim 0 LoopE.j)
  else if n = 0x40 then w x.dstat
  else if n = 0x41 then w x.dcar
  else if n = 0x42 then w x.dflt
  else if n = 0x43 then w x.dnak
  else if n = 0x44 then w x.dres
  else if n = 0x45 then w x.ccar
  else if n = 0x46 then w x.cunc
  else if n = 0x47 then w x.cres
  else if n = 0x50 then v y.tdisp
  else if n = 0x51 then v y.tlast
  else if n = 0x62 then w (bitAt (y.crg.any fun e => e.desc.isNone) 31 + y.crg.length % 32)
  else if n < 0x800 then w 0
  else if n = 0x800 then v y.tpc
  else if n = 0x801 then v y.tcause
  else if n < 0x806 then v (sget 0#32 y.tinfo (n - 0x802))
  else if n = 0x806 then v y.ttask
  else if n = 0x807 then v y.trep
  else if n = 0x808 then v y.tdlr
  else if n = 0x809 then v y.mctl
  else if n = 0x80A then v y.svlo
  else if n = 0x80B then v y.svhi
  else if n = 0x80C then v y.svlen
  else if n = 0x80D then v y.svcur
  else if n = 0x80E then v (x.svst c)
  else if n < 0xC40 then y.task.sreg (n - 0xC00)
  else if n < 0xC50 then y.task.areg (n - 0xC40)
  else w (predBits y.task)

/-- The faults that a csrr or csrw has before it reads anything (R350). -/
def needCsr (n : Nat) (wr : Bool) : Iss Unit := do
  need (csrAssigned n && !(wr && csrIx n)) cInstr
  fun s => need (decide (n < 0x800) || s.core.inMon) cPriv (BitVec.ofNat 32 n) 0#32 s

/-- csrr (R350): reads in the issue cycle, lands at issue + 1. -/
def execCsrr (d : BitVec 6) (csr : BitVec 12) : State → Host.Outcome State Fault Refusal := issue do
  needCsr csr.toNat false
  act fun s => s.putS 1 d (csrRead s.seen s.curC csr.toNat)

/-! ### Context regions and the monitor's control -/

/-- A write that names a context region (R357). -/
def crgaddOp (v : Word) : Iss Unit := do
  needAddr v.toNat 32 32 tmSize
  fun s => need (decide (s.core.crg.length < 16)) cSched 0#32 0#32 s
  act fun s => s.laterPart 1 [.csr 0x60 ⟨v, false⟩]

/-- A write of `mctl` (R346, R347, R359): KILL while a monitor token has work in flight is a monitor fault. -/
def mctlOp (v : Word) : Iss Unit := do
  fun s => need s.core.inMon cPriv 0x809#32 0#32 s
  if v.getLsbD 31 then needTokens (fun _ => 0) 28 4 else pure ()
  act fun s => s.laterPart 1 [.mctl v]

/-- csrw (R350): takes effect at issue + 1. A poisoned value is consumed, but for mailboxes and condition words. -/
def execCsrw (a : BitVec 6) (csr : BitVec 12) : State → Host.Outcome State Fault Refusal := issue do
  let n := csr.toNat
  needCsr n true
  let v ← peekS a
  if n = 0x60 then (match v with | some x => needAddr x.val.toNat 32 32 tmSize | none => pure ()) else pure ()
  consume (!csrPoi n && v.any fun x => x.poi)
  let x ← readS a
  if n = 0x60 then crgaddOp x.val
  else do
    if n = 0x809 then mctlOp x.val
    else act fun s => (if 0x20 ≤ n ∧ n < 0x30 then s.sideEffect else s).laterPart 1 [.csr n x]

def execCrgadd (sa : BitVec 32) : State → Host.Outcome State Fault Refusal := issue (crgaddOp sa)
def execCrgclr : State → Host.Outcome State Fault Refusal := issue do
  act fun s => s.laterPart 1 [.csr 0x61 {}]
def execMctlKill : State → Host.Outcome State Fault Refusal := issue (mctlOp 0x8000_0000#32)
def execMctlSave : State → Host.Outcome State Fault Refusal := issue (mctlOp 0x4000_0000#32)
def execMctlCont : State → Host.Outcome State Fault Refusal := issue (mctlOp 0x2000_0000#32)

/-! ### Traps (R348, R349) -/

def execTrap (n : BitVec 8) : State → Host.Outcome State Fault Refusal := issue do
  act fun s => s.laterPart 1 [.cause { cause := cUser, slot := s.slot, i0 := n.zeroExtend 32 }]

/-- Breakpoints are enabled: an authorised session whose mask permits them (R349, R391). -/
def State.breakpoints (s : State) : Bool := s.dbgAuth && s.dbgMask.getLsbD 3

def execBkpt (n : BitVec 8) : State → Host.Outcome State Fault Refusal := issue do
  act fun s => if s.breakpoints then s.laterPart 1 [.cause { cause := cBkpt, slot := s.slot, i0 := n.zeroExtend 32 }] else s

/-- tret (R348). -/
def execTret : State → Host.Outcome State Fault Refusal := issue do
  fun s => need s.core.inMon cPriv 3#32 0#32 s
  needTokens (fun _ => 0) 28 4
  act fun s => s.laterPart 1 [.monExit]

/-- The return from a trap: the bundle at `tpc` is due at task cycle `ttask` plus the dly remainder, under `trep` (R348). What the
monitor left open of loops and calls is gone (log 28). -/
def Core.leaveMon (c : Core) : Core :=
  let rem := (c.tcause.extractLsb' 4 7).toNat
  { c with
    mode := .task
    recalled := false
    pc := (c.tpc.extractLsb' 0 24).toNat
    npc := (c.tpc.extractLsb' 0 24).toNat
    due := c.tsk + (c.tdlr.extractLsb' 0 16).toNat
    loopTest := c.taskTest
    taskTest := false
    repRem := rem
    repHdr := if rem = 0 then 0#32 else c.trep
    loops := c.loops.filter fun l => decide (l.depth < 1000)
    calls := c.calls.filter fun e => decide (e.2 < 1000)
    mon := { c.mon with ldq := [], sdq := [] }
    monAt := none }

/-! ### Tokens (R214 to R216) -/

/-- The token has nothing in flight at issue, commands of lower slots counted (log 30). -/
def needIdleTok (k : Nat) : Iss Unit := fun s =>
  let t := s.core.token k; need (t.infl == 0) cToken (tokWord k t) 0#32 s

/-- The word of R216. -/
def Token.word (t : Token) : Word := BitVec.ofNat 32 (t.arr % 65536 * 65536 + t.errn % 16 * 4096 + t.errc % 16 * 256)
/-- A token takes its counts from a word (R216). -/
def Token.ofWord (t : Token) (w : Word) : Token :=
  { t with arr := (w.extractLsb' 16 16).toNat, errn := (w.extractLsb' 12 4).toNat, errc := (w.extractLsb' 8 4).toNat }

def execTks (k : BitVec 5) (r : BitVec 6) : State → Host.Outcome State Fault Refusal := issue do
  needIdleTok k.toNat
  act fun s => s.putS 1 r ⟨(s.seenCore.token k.toNat).word, false⟩

def execTkr (k : BitVec 5) (r : BitVec 6) : State → Host.Outcome State Fault Refusal := issue do
  let x ← readS r
  needIdleTok k.toNat
  fun s => need (!x.poi && x.val.extractLsb' 0 8 == 0#8 && decide ((x.val.extractLsb' 8 4).toNat ≤ 6)) cToken
    (tokWord k.toNat (s.core.token k.toNat)) 0#32 s
  act fun s => s.laterPart 1 [.tkr k.toNat x.val]

def execTkz (k : BitVec 5) : State → Host.Outcome State Fault Refusal := issue do
  needIdleTok k.toNat
  act fun s => s.laterPart 1 [.tkz k.toNat]

def execTkp (k : BitVec 5) (n : BitVec 16) : State → Host.Outcome State Fault Refusal := issue do
  act fun s => if n == 0#16 then s else s.laterPart 1 [.tkp k.toNat n.toNat]

/-! ### Cycle counters and entropy (R351, R352) -/

def execCycGl (d : BitVec 6) : State → Host.Outcome State Fault Refusal := issue do
  act fun s => (s.upCore fun c => { c with snapG := BitVec.ofNat 32 (s.glob / 2 ^ 32) }).putS 1 d ⟨BitVec.ofNat 32 s.glob, false⟩
def execCycGh (d : BitVec 6) : State → Host.Outcome State Fault Refusal := issue do
  act fun s => s.putS 1 d ⟨s.core.snapG, false⟩
def execCycTl (d : BitVec 6) : State → Host.Outcome State Fault Refusal := issue do
  act fun s =>
    let t := s.tcyc s.curT
    (s.upCore fun c => { c with snapT := BitVec.ofNat 32 (t / 2 ^ 32) }).putS 1 d ⟨BitVec.ofNat 32 t, false⟩
def execCycTh (d : BitVec 6) : State → Host.Outcome State Fault Refusal := issue do
  act fun s => s.putS 1 d ⟨s.core.snapT, false⟩
/-- ent: 32 bits from the entropy source (log 14), landing at issue + 2. -/
def execEnt (d : BitVec 6) : State → Host.Outcome State Fault Refusal := issue do
  act fun s => (s.putS 2 d ⟨Config.entropy s.free, false⟩).draw

/-! ### sig and pwr -/

/-- One byte into the running CRC: polynomial 0x1021, most significant bit first (R401). -/
def crcByte (c : BitVec 16) (b : Byte) : BitVec 16 :=
  (upto 0 8).foldl (fun c i => let top := c.getLsbD 15 != b.getLsbD (7 - i); (c <<< 1) ^^^ (if top then 0x1021#16 else 0#16)) c
/-- A slot word into the running CRC, its bytes in ascending address order. -/
def crcWord (c : BitVec 16) (w : Word) : BitVec 16 := (upto 0 4).foldl (fun c i => crcByte c (w.extractLsb' (8 * i) 8)) c

/-- sig (R402): the core's CRC already holds this bundle's other words. Monitor bundles neither check nor change it (R401). -/
def execSig (c : BitVec 16) : State → Host.Outcome State Fault Refusal := issue do
  fun s => need (s.core.inMon || s.core.crc == c) cFlow 0#32 0#32 s
  act fun s => if s.core.inMon then s else s.upCore fun y => { y with crc := 0xFFFF#16 }

/-- pwr (R370): the hint stands for 1,024 tile cycles; no program sees it. -/
def execPwr (h : BitVec 4) : State → Host.Outcome State Fault Refusal := issue do
  act fun s => s.upCore fun c => { c with hint := h.toNat, hintEnd := s.tcyc s.curT + 1024 }

end Sys2Proof.Machine
end

