-- ==== Sys2Proof/Machine/Elementary.lean ====
section
/-! DEFINITION. The ROM functions of the table engine (R168, R169): exact values enclosed in dyadic intervals, rounded once. Fixed
point: an Int in units of 2^-p. -/

namespace Sys2Proof.Machine

/-- Sums t + step k t + … from k on, at most n terms, until a term is zero. -/
def seriesSum (step : Nat → Int → Int) (k : Nat) (t acc : Int) : Nat → Int
  | 0 => acc
  | n + 1 => if t = 0 then acc else seriesSum step (k + 1) (step k t) (acc + t) n

/-- a·b in fixed point. -/
def fxMul (p : Nat) (a b : Int) : Int := (a * b).tdiv (2 ^ p : Nat)
def fxDiv (p : Nat) (a b : Int) : Int := (a * (2 ^ p : Nat)).tdiv b
/-- A dyadic in fixed point. -/
def fxOf (p : Nat) (x : Dy) : Int :=
  let k := x.e + p
  if 0 ≤ k then shl x.m k else x.m.tdiv (2 ^ (-k).toNat : Nat)

/-- Σ sgn^i z^(2i+1)/(2i+1): the inverse hyperbolic tangent, or tangent, of z. -/
def fxAtan (p : Nat) (alt : Bool) (z : Int) : Int :=
  let z2 := fxMul p z z
  let z2 := if alt then -z2 else z2
  -- the terms before their division by 2i+1 are a geometric series
  let rec go (k : Nat) (w acc : Int) : Nat → Int
    | 0 => acc
    | n + 1 => if w = 0 then acc else go (k + 1) (fxMul p w z2) (acc + w.tdiv ((2 * k + 1 : Nat) : Int)) n
  go 0 z 0 (p + 8)

def fxLn2 (p : Nat) : Int := 2 * fxAtan p false ((2 ^ p : Nat) / 3 : Nat)
def fxPi (p : Nat) : Int := 16 * fxAtan p true ((2 ^ p : Nat) / 5 : Nat) - 4 * fxAtan p true ((2 ^ p : Nat) / 239 : Nat)
/-- e^r for |r| below 1. -/
def fxExp (p : Nat) (r : Int) : Int := seriesSum (fun k t => (fxMul p t r).tdiv k) 1 (2 ^ p : Nat) 0 (p + 8)
def fxSin (p : Nat) (r : Int) : Int :=
  let q := fxMul p r r; seriesSum (fun k t => -((fxMul p t q).tdiv ((2 * k * (2 * k + 1) : Nat) : Int))) 1 r 0 (p + 8)
def fxCos (p : Nat) (r : Int) : Int :=
  let q := fxMul p r r; seriesSum (fun k t => -((fxMul p t q).tdiv (((2 * k - 1) * (2 * k) : Nat) : Int))) 1 (2 ^ p : Nat) 0 (p + 8)
/-- The integer square root, from bit b-1 down. -/
def isqrtFrom (n r : Nat) : Nat → Nat
  | 0 => r
  | b + 1 => let r' := r + 2 ^ b; isqrtFrom n (if r' * r' ≤ n then r' else r) b
def isqrt (n : Nat) : Nat := isqrtFrom n 0 (bitLen n / 2 + 1)

/-- An open interval of magnitudes (lo·2^e, hi·2^e) that holds the exact value's, with the value's sign. -/
structure Encl where
  neg : Bool
  lo : Nat
  hi : Nat
  e : Int
  deriving DecidableEq, Repr

/-- Rounds both ends, as values just inside them. They agree where the interval holds no boundary of the rounding. -/
def Encl.round (f : Fmt) (c : Encl) : Option (Nat × BitVec 11) :=
  let a := f.round rmRne false c.neg c.lo c.e true
  let b := f.round rmRne false c.neg (c.hi * 2 ^ 64 - 1) (c.e - 64) true
  if a == b then some a else none

/-- The error, in units of 2^-p, that every fixed-point evaluation below stays within. -/
def fxErr : Int := 2 ^ 20

/-- A fixed-point value and its error as an interval. -/
def Encl.ofFx (p : Nat) (v : Int) : Encl :=
  ⟨decide (v < 0), ((v.natAbs : Int) - fxErr).toNat, (v.natAbs : Int).toNat + fxErr.toNat, -(p : Int)⟩

/-- e^t for a fixed-point t: a fixed-point number in about [1, 2) and a power of two. -/
def fxExpT (p : Nat) (t : Int) : Int × Int :=
  let l := fxLn2 (p + 32)
  let k := (t * (2 ^ 32 : Nat)) / l
  (fxExp p (t - (k * l) / (2 ^ 32 : Nat)), k)

/-- 1 ± a part below 2^-80, and x times such a factor. -/
def belowOne : Encl := ⟨false, 2 ^ 80 - 1, 2 ^ 80, -80⟩
def aboveOne : Encl := ⟨false, 2 ^ 80, 2 ^ 80 + 1, -80⟩
def justBelow (x : Dy) : Encl := ⟨decide (x.m < 0), x.m.natAbs * 2 ^ 80 - x.m.natAbs, x.m.natAbs * 2 ^ 80, x.e - 80⟩

/-- |x| < 2^n. -/
def Dy.below (x : Dy) (n : Int) : Bool := (⟨x.m.natAbs, x.e⟩ : Dy).lt ⟨1, n⟩

/-- x·2^-1 within a relative 2^-39 and on the side of the sign of x: x/2 + x² at most. -/
def geluTiny (x : Dy) : Encl :=
  let m := x.m.natAbs
  let e2 := min (x.e - 1) (2 * x.e)
  let h := m * 2 ^ (x.e - 1 - e2).toNat
  let q := m * m * 2 ^ (2 * x.e - e2).toNat
  if x.m < 0 then ⟨true, h - q, h, e2⟩ else ⟨false, h, h + q, e2⟩

/-- The enclosures of the functions that are not exact at the finite non-zero x, at precision p. -/
def enclose (fn : Nat) (p : Nat) (x : Dy) : Encl :=
  let one : Int := (2 ^ p : Nat)
  let neg := decide (x.m < 0)
  let ax : Dy := ⟨x.m.natAbs, x.e⟩
  match fn with
  | 0 => -- exp2
    if x.below (-90) then (if neg then belowOne else aboveOne)
    else if !x.below 10 then (if neg then ⟨false, 0, 1, -1000⟩ else ⟨false, 1, 2, 1000⟩)
    else
      let v := fxOf p x
      let k := v / one
      let y := fxExp p (fxMul p (v - k * one) (fxLn2 p))
      let c := Encl.ofFx p y
      { c with e := c.e + k }
  | 1 => -- log2 of a positive x
    let n : Int := bitLen x.m.natAbs
    let m := fxOf p ⟨x.m, -(n - 1)⟩
    let k := n - 1 + x.e
    let big := decide (one + one / 2 ≤ m)
    let m := if big then m / 2 else m
    let k := if big then k + 1 else k
    let a := 2 * fxAtan p false (fxDiv p (m - one) (m + one))
    Encl.ofFx p (k * one + fxDiv p a (fxLn2 p))
  | 4 => -- sin
    if x.below (-45) then justBelow x
    else
      let h := fxPi (p + 32) / 2
      let v := fxOf (p + 32) x
      let n := (2 * v + h) / (2 * h)
      let r := (v - n * h) / (2 ^ 32 : Nat)
      Encl.ofFx p (match (n % 4).toNat with | 0 => fxSin p r | 1 => fxCos p r | 2 => -fxSin p r | _ => -fxCos p r)
  | 5 => -- cos
    if x.below (-45) then belowOne
    else
      let h := fxPi (p + 32) / 2
      let v := fxOf (p + 32) x
      let n := (2 * v + h) / (2 * h)
      let r := (v - n * h) / (2 ^ 32 : Nat)
      Encl.ofFx p (match (n % 4).toNat with | 0 => fxCos p r | 1 => -fxSin p r | 2 => -fxCos p r | _ => fxSin p r)
  | 6 => -- tanh
    if x.below (-45) then justBelow x
    else if !x.below 7 then { belowOne with neg := neg }
    else
      let y := fxExpT p (-2 * fxOf p ax)
      let E := if y.2 < 0 then y.1 / (2 ^ (-y.2).toNat : Nat) else shl y.1 y.2
      { Encl.ofFx p (fxDiv p (one - E) (one + E)) with neg := neg }
  | 7 => -- sigmoid
    if x.below (-90) then ⟨false, 2 ^ 80 - 1, 2 ^ 80 + 1, -81⟩
    else if !x.below 10 then (if neg then ⟨false, 0, 1, -1000⟩ else belowOne)
    else
      let y := fxExpT p (-(fxOf p ax))
      let E := y.1 / (2 ^ (-y.2).toNat : Nat)
      let d := fxDiv p one (one + E)
      if neg then (let c := Encl.ofFx p (fxMul p y.1 d); { c with e := c.e + y.2 }) else Encl.ofFx p d
  | 8 => -- softplus
    if !x.below 10 then
      (if neg then ⟨false, 0, 1, -1000⟩
       else (let m := x.m.natAbs; let e2 := min x.e (-200); let h := m * 2 ^ (x.e - e2).toNat; ⟨false, h, h + 1, e2⟩))
    else
      let y := fxExpT p (-(fxOf p ax))
      let E := y.1 / (2 ^ (-y.2).toNat : Nat)
      if neg && decide (y.2 < -100) then
        -- below e^x by less than its square
        let c := Encl.ofFx p y.1
        ⟨false, c.lo - c.hi / 2 ^ 100, c.hi, c.e + y.2⟩
      else
        let l := 2 * fxAtan p false (fxDiv p E (2 * one + E))
        Encl.ofFx p (if neg then l else fxOf p x + l)
  | _ => -- gelu
    if x.below (-45) then geluTiny x
    else if !(ax.lt ⟨15, 0⟩) then (if neg then ⟨true, 0, 1, -160⟩ else justBelow x)
    else
      let q := p + 256
      let v := fxOf q ax
      let h := fxMul q v v
      -- Σ x^(2k+1)/(2k+1)!!
      let s := seriesSum (fun k t => (fxMul q t h).tdiv ((2 * k + 1 : Nat) : Int)) 1 v 0 (4 * q)
      let y := fxExpT q (-(h / 2))
      let ph := fxDiv q (y.1 / (2 ^ (-y.2).toNat : Nat)) (isqrt ((2 * fxPi q * (2 ^ q : Nat)).toNat) : Int)
      let S := fxMul q ph s
      let half : Int := (2 ^ (q - 1) : Nat)
      { Encl.ofFx p (fxMul q v (if neg then half - S else half + S) / (2 ^ 256 : Nat)) with neg := neg }

/-- The value at a finite non-zero x that is not exact: two working precisions, then the free value of log 15. -/
def romInexact (f : Fmt) (fn : Nat) (ty : BitVec 2) (b : Nat) (x : Dy) : Nat × BitVec 11 :=
  match (enclose fn 192 x).round f with
  | some r => r
  | none =>
    match (enclose fn 640 x).round f with
    | some r => r
    | none => ((Config.tevUnresolved (BitVec.ofNat 4 fn) ty (BitVec.ofNat 32 b)).toNat % 2 ^ f.width, fNX)

/-- Whether a dyadic is an integer, and its value. -/
def Dy.int? (x : Dy) : Option Int :=
  if 0 ≤ x.e then some (shl x.m x.e) else let d : Int := (2 ^ (-x.e).toNat : Nat); if x.m % d = 0 then some (x.m / d) else none

/-- Whether m is a power of two. -/
def isPow2 (m : Nat) : Bool := m != 0 && m == 2 ^ (bitLen m - 1)

/-- A ROM function at a pattern that is not a NaN (R168, R169). -/
def romAt (f : Fmt) (fn : Nat) (ty : BitVec 2) (b : Nat) : Nat × BitVec 11 :=
  let x := f.unpack b
  let sg (n : Bool) : Nat := if n then f.sgn else 0
  let inf (n : Bool) : Nat := sg n + f.infBits
  let one : Nat := (f.round rmRne false false 1 0).1
  match x with
  | .nan _ => (f.nan, 0#11)
  | .inf n =>
    (match fn with
     | 0 => (if n then 0 else inf false, 0#11)
     | 1 => if n then (f.nan, fNV) else (inf false, 0#11)
     | 2 => (sg n, 0#11)
     | 3 => if n then (f.nan, fNV) else (0, 0#11)
     | 4 => (f.nan, fNV)
     | 5 => (f.nan, fNV)
     | 6 => (sg n + one, 0#11)
     | 7 => (if n then 0 else one, 0#11)
     | 8 => (if n then 0 else inf false, 0#11)
     | _ => (if n then f.sgn else inf false, 0#11))
  | .fin n m e =>
    if m = 0 then
      (match fn with
       | 0 => (one, 0#11)
       | 1 => (inf true, fDZ)
       | 2 => (inf n, fDZ)
       | 3 => (inf n, fDZ)
       | 4 => (sg n, 0#11)
       | 5 => (one, 0#11)
       | 6 => (sg n, 0#11)
       | 7 => f.round rmRne false false 1 (-1)
       | 8 => romInexact f 8 ty b ⟨0, 0⟩
       | _ => (sg n, 0#11))
    else
      let d : Dy := ⟨if n then -(m : Int) else m, e⟩
      (match fn with
       | 0 => (match d.below 10, d.int? with
         | true, some k => f.round rmRne false false 1 k
         | _, _ => romInexact f 0 ty b d)
       | 1 => if n then (f.nan, fNV)
              else if isPow2 m then
                (let k : Int := (bitLen m : Int) - 1 + e
                 f.round rmRne false (decide (k < 0)) k.natAbs 0)
              else romInexact f 1 ty b d
       | 2 => (let K := bitLen m + 60
               f.round rmRne false n (2 ^ K / m) (-(K : Int) - e) (2 ^ K % m != 0))
       | 3 => if n then (f.nan, fNV)
              else
                (let m' := if e % 2 = 0 then m else 2 * m
                 let e' := if e % 2 = 0 then e else e - 1
                 let K := 2 * (bitLen m + 40)
                 let q := isqrt (2 ^ (2 * K) / m')
                 f.round rmRne false false q (-(K : Int) - e' / 2) (q * q * m' != 2 ^ (2 * K)))
       | 4 => if (⟨1, 20⟩ : Dy).lt ⟨m, e⟩ then (f.nan, fRG) else romInexact f 4 ty b d
       | 5 => if (⟨1, 20⟩ : Dy).lt ⟨m, e⟩ then (f.nan, fRG) else romInexact f 5 ty b d
       | k => romInexact f k ty b d)

/-- A ROM function; the NaN test comes first (R166). -/
def romFn (f : Fmt) (fn : Nat) (ty : BitVec 2) (b : Nat) : Nat × BitVec 11 :=
  match nanOf f [b] with
  | some r => r
  | none => romAt f fn ty b

/-- A user table's lane (R171; log 58 for a signalling NaN of the table): the table's segments, its configuration word, the input. Result
and the segment used, if any. -/
def userFn (f : Fmt) (seg : Nat → DWord) (cfg : Word) (b : Nat) : (Nat × BitVec 11) × Option Nat :=
  match nanOf f [b] with
  | some r => (r, none)
  | none =>
    let dom := cfg.extractLsb' 6 2 == 1#2
    let x := f.unpack b
    let x0 := fpBf16.unpack (cfg.extractLsb' 16 16).toNat
    let sx := x.dy.add ⟨-x0.dy.m, x0.dy.e⟩
    let u : Dy := ⟨sx.m, sx.e - (((cfg.extractLsb' 8 8).toNat : Int) - 127)⟩
    let low := (x.isInf && x.neg) || (!x.isInf && decide (u.m < 0))
    let high := (x.isInf && !x.neg) || (!x.isInf && !u.lt ⟨256, 0⟩)
    if (low || high) && dom then ((f.nan, fNV), none)
    else
      let fl : Nat := if 0 ≤ u.e then u.m.toNat * 2 ^ u.e.toNat else u.m.toNat / 2 ^ (-u.e).toNat
      let s : Nat := if low then 0 else if high then 255 else fl
      let t : Dy := if low then ⟨0, 0⟩ else if high then ⟨1, 0⟩ else u.add ⟨-(fl : Int), 0⟩
      let y0 := (seg s).toNat % 2 ^ 32
      let dy := (seg s).toNat / 2 ^ 32
      let fy := fp32.unpack y0; let fd := fp32.unpack dy
      let r : Nat × BitVec 11 :=
        if fy.isSnan || fd.isSnan || (t.m == 0 && fd.isInf) then (f.nan, fNV)
        else match nanOf fp32 [y0, dy] with
          | some r => (if f == fp32 then r.1 else f.nan, 0#11)
          | none =>
            if fd.isInf then (if fy.isInf && fy.neg != fd.neg then (f.nan, fNV) else ((if fd.neg then f.sgn else 0) + f.infBits, 0#11))
            else if fy.isInf then ((if fy.neg then f.sgn else 0) + f.infBits, 0#11)
            else f.roundDy rmRne false (fy.dy.add (t.mul fd.dy)) (fy.neg && fd.neg)
      (r, some s)

end Sys2Proof.Machine
end

