-- ==== Sys2Proof/Machine/Tables.lean ====
section
/-! DEFINITION. The table engine's instructions: tev, tld, tcfg (R165 to R174). -/

namespace Sys2Proof.Machine

/-- A segment of a user table: y0 below, dy above (R170). -/
def Core.segment (c : Core) (tb s : Nat) : DWord := sget 0#64 c.tab (256 * tb + s)
/-- Poison of a segment: of either word (R166). The poison bit of word j of table tb is at key 512·tb + j. -/
def Core.segPoi (c : Core) (tb s : Nat) : Bool := sget false c.tabPoi (512 * tb + 2 * s) || sget false c.tabPoi (512 * tb + 2 * s + 1)
/-- A table's configuration word; reset 0x0000_7F00 (R170, R174). -/
def Core.tableCfg (c : Core) (tb : Nat) : Word := (sget ⟨0x7F00#32, false⟩ c.tcfg tb).val

/-- The format of tev's TY (R165). -/
def tevFmt (ty : BitVec 2) : Fmt := if ty == 1#2 then fpBf16 else if ty == 2#2 then fpF16 else fp32

/-- One lane of tev: a ROM function, or a user table with the table and configuration in force at issue. -/
def tevLane (c : Core) (fn : BitVec 4) (ty : BitVec 2) (b : Nat) : Nat × BitVec 11 × Bool :=
  if fn.toNat < 12 then (let r := romFn (tevFmt ty) fn.toNat ty b; (r.1, r.2, false))
  else
    let tb := fn.toNat - 12
    let r := userFn (tevFmt ty) (c.segment tb) (c.tableCfg tb) b
    (r.1.1, r.1.2, match r.2 with | some k => c.segPoi tb k | none => false)

/-- tev (R165 to R171): lands at issue + 14. -/
def execTev (d a : BitVec 7) (fn : BitVec 4) (ty : BitVec 2) (mk : BitVec 3) : State → Host.Outcome State Fault Refusal := issue do
  let x ← readV a
  let m ← readM mk
  act fun s =>
    let w := (tevFmt ty).width
    s.putRow 14 d (RowW.of w (maskLanes (2048 / w) m fun i =>
      let r := tevLane s.core fn ty (x.lane w i); ⟨r.1, x.lpoi w i || r.2.2, r.2.1⟩))

/-- tld (R173): 32 line reads at issue + 2 to issue + 33, the switch and the post at issue + 34. -/
def execTld (tb : BitVec 2) (ar : BitVec 4) (k : BitVec 5) : State → Host.Outcome State Fault Refusal := issue do
  let a ← readA ar
  let ea := a.val.toNat
  needAddr ea 2048 64 tmSize
  consume a.poi
  underWait 0 ea 2048
  takeToken k
  fun s => need (!(s.core.pend.any fun p => p.effs.any fun e => match e with | .tldSwitch t _ => t == tb.toNat | .tldDone t _ => t == tb.toNat | _ => false)) cSched 0#32 0#32 s
  act fun s =>
    (upto 0 32).foldl (fun s i => s.laterPart (2 + i) [.tldLine tb.toNat i (ea + 64 * i)]) (s.later 34 [.tldSwitch tb.toNat k.toNat])

/-- A configuration word that tcfg takes (R172). -/
def tcfgOk (w : Word) : Bool :=
  w.extractLsb' 23 8 != 0xFF#8 && w.extractLsb' 8 8 != 0#8 && w.extractLsb' 8 8 != 0xFF#8 && !w.getLsbD 7 && w.extractLsb' 0 6 == 0#6

/-- tcfg (R172). -/
def execTcfg (tb : BitVec 2) (r : BitVec 6) : State → Host.Outcome State Fault Refusal := issue do
  let v ← peekS r
  need (v.all fun x => !x.poi && tcfgOk x.val) cTable
  let x ← readS r
  act fun s => s.later 1 [.tcfg tb.toNat x]

end Sys2Proof.Machine
end

