-- ==== Sys2Proof/Machine/Landing.lean ====
section
/-! DEFINITION. What lands in a tile cycle: results and pending-write entries at their offsets (R59, R60, R221 to R223), register writes
of csrw (R350), arithmetic traps (R99, R100), accumulator rows of the array (R152), and a kill (R346). -/

namespace Sys2Proof.Machine

def Core.upBank (c : Core) (mon : Bool) (f : Bank → Bank) : Core := if mon then { c with mon := f c.mon } else { c with task := f c.task }

/-- A queue entry lands; an entry that is gone takes nothing (R316). -/
def landQ (l : List QEntry) (seq : Nat) (v : Bits256) (p : BitVec 64) : List QEntry :=
  l.map fun e => if e.seq = seq then { e with landed := true, val := v, poi := p } else e

/-- An accret's last row closes the accumulator where it covers what opened it before (R164). -/
def closeAcc (l : List (Nat × Nat)) (n rows : Nat) : List (Nat × Nat) :=
  if (l.filter fun e => decide (e.1 < n)).all fun e => decide (e.2 ≤ rows) then l.filter fun e => decide (n ≤ e.1) else l

/-- The 64 rows of an accumulator become +0 (R159). -/
def Core.clearAcc (c : Core) (acc : Bool) : Core :=
  let c := if acc then { c with acc1 := [] } else { c with acc0 := [] }
  let gone := c.v.filter fun e => decide (e.1 < 64) != acc
  { gone.foldl (fun c e => c.shade e.1) c with v := c.v.filter fun e => decide (e.1 < 64) == acc }

/-- An effect on the core alone. -/
def Core.landEff (c : Core) (m : Bool) : Eff → Core
  | .sreg d v => c.upBank m fun b => b.setS d v
  | .areg d v => c.upBank m fun b => b.setA d v
  | .preg d v => c.upBank m fun b => b.setP d v
  | .mreg d sel v p => c.setM d sel v p
  | .vrow d en v p => c.setV d ((c.vreg d).write en v p)
  | .sdq q v p => c.upBank m fun b => { b with sdq := landQ b.sdq q v p }
  | .ldq q v p => c.upBank m fun b => { b with ldq := landQ b.ldq q v p }
  | .tkz k => c.setTok k { c.token k with arr := 0, errn := 0, errc := 0 }
  | .tkr k w => c.setTok k ((c.token k).ofWord w)
  | .tkp k n => c.arrive k n
  | .arrival k e => (c.fail k e).arrive k 1
  | .post k e => c.post k e
  | .wnext v => { c with wnext := v }
  | .tcfg tb v => { c with tcfg := sset ⟨0x7F00#32, false⟩ c.tcfg tb v }
  | .accz a => c.clearAcc a
  | .amode s => { c with satm := s }
  | .accClose a n rows => if a then { c with acc1 := closeAcc c.acc1 n rows } else { c with acc0 := closeAcc c.acc0 n rows }
  | .tldSwitch tb k =>
    let lo := 256 * tb
    let keep (e : Nat × DWord) : Bool := decide (lo ≤ e.1) && decide (e.1 < lo + 256)
    let pkeep (e : Nat × Bool) : Bool := decide (2 * lo ≤ e.1) && decide (e.1 < 2 * lo + 512)
    let mid {α : Type} (lo n : Nat) (new old : SMap α) : SMap α :=
      old.filter (fun e => decide (e.1 < lo)) ++ new ++ old.filter fun e => decide (lo + n ≤ e.1)
    ({ c with
      tab := mid lo 256 (c.tshadow.filter keep) c.tab
      tabPoi := mid (2 * lo) 512 (c.tshadowPoi.filter pkeep) c.tabPoi
      tshadow := c.tshadow.filter fun e => !keep e
      tshadowPoi := c.tshadowPoi.filter fun e => !pkeep e } : Core).post k 0
  | .tldDone _ k => c.post k 0
  | .monExit => if c.inMon then c.leaveMon else c
  | _ => c

/-! ### csrw (R350) -/

/-- A write of an assigned register of core c at issue + 1: read-only fields ignore it, W1C fields clear. The bundle at a tpc that the monitor
writes is the one due, whatever loop.w test was pending (R348). svlo, svhi and svlen take all 32 bits (log 112), and a misaligned tpc keeps its low
bits (log 123). -/
def Tile.csrLand (x : Tile) (c n : Nat) (v : PWord) : Tile :=
  let w := v.val
  let up (f : Core → Core) : Tile := x.upC c f
  if n = 0 then up fun y => { y with aflags := aflagsWrite y.aflags w }
  else if n = 2 then up fun y => { y with strict := w.getLsbD 31, ranges := if w.getLsbD 31 then y.ranges else [] }
  else if n = 3 then up fun y => { y with qs := w.getLsbD 0, qv := w.getLsbD 1 }
  else if n = 8 then up fun y => { y with wnext := w }
  else if n = 9 then up fun y => { y with wlim := w }
  else if n = 10 then up fun y => { y with wcfg := w }
  else if 0x10 ≤ n ∧ n < 0x18 then up fun y => { y with mb := sset {} y.mb (n - 0x10) v }
  else if 0x20 ≤ n ∧ n < 0x30 then { x with cw := sset {} x.cw (n - 0x20) v }
  else if n = 0x40 then { x with decBad := x.decBad && !w.getLsbD 28 }
  else if n = 0x50 then up fun y => { y with tdisp := w &&& 7#32 }
  else if n = 0x60 then up fun y => { y with crg := y.crg ++ [{ addr := w.toNat }] }
  else if n = 0x61 then up fun y => { y with crg := [] }
  else if n = 0x800 then up fun y => { y with tpc := w &&& 0xFF_FFFF#32, taskTest := false }
  else if n = 0x801 then up fun y => { y with tcause := w &&& 0xFFFF_FFF0#32 }
  else if 0x802 ≤ n ∧ n < 0x806 then up fun y => { y with tinfo := sset 0#32 y.tinfo (n - 0x802) w }
  else if n = 0x807 then up fun y => { y with trep := w }
  else if n = 0x808 then up fun y => { y with tdlr := w &&& 0xFFFF#32 }
  else if n = 0x80A then up fun y => { y with svlo := w }
  else if n = 0x80B then up fun y => { y with svhi := w }
  else if n = 0x80C then up fun y => { y with svlen := w }
  else if 0xC00 ≤ n ∧ n < 0xC40 then up fun y => { y with task := y.task.setS (n - 0xC00) v }
  else if 0xC40 ≤ n ∧ n < 0xC50 then up fun y => { y with task := y.task.setA (n - 0xC40) v }
  else if n = 0xC50 then
    up fun y => { y with task := (upto 1 7).foldl (fun b i => b.setP i ⟨w.getLsbD i, false⟩) y.task }
  else x

/-! ### The end of a lease, a kill -/

/-- The lease or a pending request ends at issue + 1 of an unlease (R143). -/
def Tile.unlease (x : Tile) (c : Nat) : Tile := x.dropLease c

/-- What a kill keeps of a core's pending entries: those that post a token (R346). -/
def Pend.posts (p : Pend) : Bool :=
  p.mon || p.effs.any fun e => match e with
    | .post .. => true | .tldLine .. => true | .tldSwitch .. => true | .tldDone .. => true | .startCopy _ => true | .startStream _ => true | .startSend _ => true
    | _ => false

/-- The pre-emption request of node n is withdrawn from every core of its task; those that have stopped for it go back (R344, R356). `how`: 2 an
overrun, 1 the end of a part of the task, which a later request does not undo. -/
def Tile.recall (x : Tile) (n how : Nat) : Tile :=
  if (upto 0 4).any fun c => (x.core c).node == n && (x.core c).preReq.isSome then
    (upto 0 4).foldl (fun x c => let y := x.core c
      if y.node = n ∧ y.preReq.isSome then x.upC c fun y => { y with preReq := none, recalled := y.inMon } else x)
      { x with nrt := sset {} x.nrt n { sget {} x.nrt n with asked := some how } }
  else x
/-- A save of node n that is not sealed ends (R346). -/
def Tile.dropSave (x : Tile) (n : Nat) : Tile := { x with save := x.save.filter fun v => v.restore || v.node != n }

/-- A kill of core c's task (R346): every request of the task ends (R344), and a save of it that is not sealed. The beats of lwt, ld.ds and st.ds are bus work and go on (R446); an ld.ds then delivers nothing. -/
def Tile.kill (x : Tile) (c : Nat) (cause : Nat) : Tile :=
  let n := (x.core c).node
  let x := ((x.dropLease c).recall n 1).dropSave n
  { x.upC c (fun y => { y.endTask with
      killed := some cause, pend := y.pend.filter Pend.posts, acc0 := [], acc1 := [], monAt := none }) with
    paths := (x.paths.filter fun p => p.core != c || p.mon || p.kind == 3 || p.kind == 6 || p.kind == 7).map fun p =>
      if p.core == c && !p.mon && p.kind == 6 then { p with stop := some 0 } else p }

/-- Word i of node n (R304). -/
def Tile.node (x : Tile) (n i : Nat) : Word := (sget [] x.nodes n).getD i 0#32

/-- A write of SAVE starts the save engine on the area that svlo, svhi and svlen name; a running one accepts no other (R358 to R360). -/
def Tile.startSave (x : Tile) (c : Nat) : Tile :=
  let y := x.core c
  if x.save.isSome then x
  else
    let v : SaveEng := { restore := false, node := y.node, cmask := ((x.node y.node 0).extractLsb' 14 4).toNat
                         area := (y.svhi.extractLsb' 0 16).toNat * 2 ^ 32 + y.svlo.toNat, len := y.svlen.toNat }
    { x with save := some v }
/-- A write of CONT: a stopped save goes on from `svcur` in the area whose length `svlen` now gives (R360). -/
def Tile.contSave (x : Tile) (c : Nat) : Tile :=
  match x.save with
  | some v => { (x.upC c fun y => { y with svst := 0#32 }) with
      save := some (if v.stopped then { v with stopped := false, len := (x.core c).svlen.toNat } else v) }
  | none => x

/-- A side.add takes effect: an entry holds the block, with what has been written there since it was declared (R291, R293). -/
def Tile.holdSide (x : Tile) (b : Word) (a n : Nat) : Tile :=
  let wrote := (x.adding.find? fun e => e.bid == b).elim [] SideE.dirty
  let x := { x with adding := x.adding.filter fun e => e.bid != b }
  match (upto 0 256).find? fun i => !(sget {} x.side i).held with
  | some i => { x with side := sset {} x.side i { sget {} x.side i with held := true, addr := a, bid := b, len := n, dirty := wrote } }
  | none => x

/-! ### One effect lands -/

/-- The effect e of entry p lands on core c of tile t. -/
def State.landEff (s : State) (t c : Nat) (p : Pend) (e : Eff) : State :=
  let up (f : Tile → Tile) : State := s.upT t f
  match e with
  | .csr n v => up fun x => x.csrLand c n v
  | .unlease => up fun x => x.unlease c
  | .exit => up fun x => (x.dropLease c).upC c Core.endTask
  | .route cl ix v => up fun x => { x with routes := sset 0#32 x.routes (1024 * cl + ix) v }
  | .armRing ch n => up fun x =>
    let d := sget {} x.chans ch
    { x with chans := sset {} x.chans ch { d with u := d.u - n }
             lee := x.lee ++ [{ p := { kind := 5, dest := d.orig, orig := s.nameOf t d.rcore, cls := d.acls, tag := d.tag, dch := ch, ofs := n }, out := s.tcyc t + 160 }] }
  | .qarm k tok v => up fun x => { x with cq := sset {} x.cq k (let d := sget {} x.cq k; { d with st := 1, atok := tok, thr := v.toNat, forced := false }) }
  | .qpost k => up fun x => { x with cq := sset {} x.cq k (let d := sget {} x.cq k; { d with st := 1, forced := true }) }
  | .sideAdd b a n => up fun x => x.holdSide b a n
  | .sideRel b => up fun x => { x with side := x.side.map fun e => if e.2.held && e.2.bid == b then
      (e.1, { e.2 with held := false, gen := (e.2.gen + 1) % 256 }) else e }
  | .cause i =>
    if p.mon then
      let s0 := { s with curT := t, curC := c }
      { (if (s.coreAt t c).inMon then s0.monitorFault else s) with curT := s.curT, curC := s.curC }
    else up fun x => x.upC c fun y => y.cause (8 * p.id + p.slot) i
  | .mctl w => up fun x =>
    let x := x.upC c fun y => { y with mctl := w &&& 0xE000_0000#32 }
    if w.getLsbD 31 then x.kill c ((x.core c).tcause.extractLsb' 24 8).toNat
    else if w.getLsbD 30 then x.startSave c
    else if w.getLsbD 29 then x.contSave c
    else x
  | .startCopy n => up fun x => { x with copyQ := x.copyQ.map fun q => if q.n = n then { q with held := false, start := s.tcyc t } else q }
  | .startStream n => up fun x => { x with streams := x.streams.map fun q => if q.n = n then { q with held := false, wake := s.tcyc t + 3 } else q }
  | .startSend n => up fun x => { x with sends := x.sends.map fun q => if q.n = n then { q with held := false, wake := s.tcyc t + 3 } else q }
  | .tldSwitch tb k => up fun x => ((upto (32 * tb) 32).foldl (fun x l => x.touch (7 + c) l) x).upC c fun y => y.landEff p.mon (.tldSwitch tb k)
  | e => up fun x => x.upC c fun y => y.landEff p.mon e

/-! ### Landing (R59, R60, R99, R100) -/

/-- An entry lands in this cycle: the task's in task cycles, unless the core is in the monitor (R222); the monitor's in tile cycles. -/
def Core.dueNow (c : Core) (tc : Nat) (p : Pend) : Bool := if p.mon then decide (p.at' ≤ tc) else !c.inMon && decide (p.at' ≤ c.tsk)

/-- An access of tile memory, which happens in the bank's turn and not in a landing. -/
def Eff.isAccess : Eff → Bool
  | .load .. => true | .store .. => true | .amoRead .. => true | .amoWrite .. => true | .tldLine .. => true | .retRow .. => true
  | _ => false

/-- The entry's enabled flags raise an arithmetic trap on a task (R99); after its exit they are sticky only (R100). -/
def Core.raises (c : Core) (p : Pend) : Bool := p.traps && c.mode == .task && enabled c.aflags p.flags != 0#6

/-- One entry that is due: it lands, or it waits with its write for the trap, which finds it in the record (R99, R100, R225, R343). -/
def State.landOne (s : State) (t c : Nat) (p : Pend) : State :=
  let y := s.coreAt t c
  if y.raises p then
    s.upCoreAt t c fun y => { y with
      pend := y.pend ++ [{ p with counts := true, last := y.tsk + 1 }]
      lcause := y.lcause ++ [(8 * p.id + p.slot, { cause := cArith, slot := p.slot, flg := p.flags.extractLsb' 0 6, i0 := BitVec.ofNat 32 p.pc })] }
  else p.effs.foldl (fun s e => s.landEff t c p e) (s.upCoreAt t c fun y => y.flag p.flags)

/-- The entries of a core that are due now land in order. -/
def State.landDue (s : State) (t c : Nat) : State :=
  let tc := s.tcyc t
  let y := s.coreAt t c
  let isDue (p : Pend) : Bool := y.dueNow tc p && !p.effs.any Eff.isAccess
  let ds := orderBy Pend.before (y.pend.filter isDue)
  ds.foldl (fun s p => s.landOne t c p) (s.upCoreAt t c fun y => { y with pend := y.pend.filter fun p => !isDue p })

/-- From `before` to s core c has left the monitor: what an arithmetic trap left behind in this task cycle lands again (R343). -/
def State.landAgain (s : State) (t c : Nat) (before : State) : State :=
  if (before.coreAt t c).inMon && (s.coreAt t c).mode == .task then s.landDue t c else s

/-- The landings of a cycle. -/
def State.land (s : State) (t c : Nat) : State := (s.landDue t c).landAgain t c s

/-! ### Accumulator rows of the array (R152, R156, R157) -/

/-- Row i of a command: its accumulator row is read now and written one cycle later on the issuer's clock. -/
def Tile.arrRow (x : Tile) (p : Path) (off i : Nat) : Tile :=
  match p.rows.find? fun r => r.1 == i with
  | none => x
  | some r =>
    let n := (if p.acc then 64 else 0) + i
    let c := x.core p.core
    let a := if p.absent.contains i then absentRow p.ty else kRow p.ty 4 r.2.1 r.2.2
    let cols := (upto 0 64).map fun j => let y := latchCol p.latch p.latchPoi 0 j; kRow p.ty 8 y.1 y.2
    let w := beatRow p.ty p.sat a cols (if p.kind = 1 then none else some (c.rowView p (p.s0 + off) n))
    x.setCore p.core (c.push
      { at' := p.s0 + off + 1, mon := p.mon, id := p.id, slot := p.slot, pc := p.pc, issue := p.issue, flags := if p.mon then 0#11 else w.fl
        effs := [.vrow n w.en w.val w.poi] })

/-- The accumulator rows that a path reads in tile cycle tc. -/
def Path.accRows (p : Path) (tc : Nat) : List Nat :=
  let off := tc - p.s - p.dg
  if p.kind ≤ 2 ∧ p.s + p.dg + arrLag p.ty ≤ tc then
    (match arrReadAt p.ty p.bt (off - arrLag p.ty) with
     | some (r, n) => (upto r n).filter fun i => match p.stop with | some k => decide (i < k) | none => true
     | none => [])
  else []

/-- The array and the retire path, for the commands of core c: an accret reads row i in s + i (R161). -/
def Tile.runArray (x : Tile) (c tc : Nat) : Tile :=
  (x.paths.filter fun p => p.core == c).foldl (fun x p =>
    let x := (p.accRows tc).foldl (fun x i => x.arrRow p (tc - p.s) i) x
    if p.kind = 5 ∧ p.s ≤ tc ∧ tc < p.s + p.bt ∧ p.stop.isNone then x.upC c fun y => y.retRead p (tc - p.s) else x) x

/-- Results land on a core (R59), then the array reads the accumulator rows of its turn (R152). -/
def execResultLanding (s : State) : Host.Outcome State Fault Refusal :=
  .next ((s.land s.curT s.curC).upHere fun x => x.runArray s.curC (s.tcyc s.curT))

/-! ### Deferred starts (R206, R153) -/

/-- The commands of a tile that start in this cycle (R206): the mode is read, the latch is captured and judged (R150, R153). -/
def execDeferredStart (s : State) : Host.Outcome State Fault Refusal :=
  let tc := s.tcyc s.curT
  .next (s.upHere fun x =>
    x.paths.foldl (fun x p =>
      if p.started || p.s != tc || decide (2 < p.kind) then x
      else
        let q := p.begin x (x.core p.core).satm
        let q := if q.latchOk then q else { q with stop := some 0 }
        let x := { x with paths := x.paths.map fun r => if r == p then q else r }
        if q.latchOk then x else x.pathCause p 0 { cause := cFormat, slot := p.slot, i0 := BitVec.ofNat 32 p.pc }) x)

/-! ### The lease (R138, R139) -/

/-- Core c's count is 4,097: its lease has ended by time in this cycle, unless the core takes a trap in it (R139, log 100). -/
def Tile.ended (x : Tile) (c : Nat) : Bool := x.leaseCore.isNone && x.leaseLast == some c && (x.core c).lcyc == 4097
/-- A counted cycle of the holder (R139): at 4,096 the lease ends. -/
def Tile.countLease (x : Tile) (c : Nat) : Tile :=
  let y := x.core c
  let x := x.upC c fun y => { y with lcyc := y.lcyc + 1 }
  if y.lcyc < 4096 then x else { x with leaseCore := none, leaseLast := some c }

/-- An end by time stands: the count is 4,096 as it was last (R141). -/
def Tile.endStands (x : Tile) : Tile := match x.leaseLast with | some c => if x.ended c then x.upC c fun y => { y with lcyc := 4096 } else x | none => x
/-- The next requester in round-robin order takes the lease, once the previous holder's commands have cleared array and latch path (R138). -/
def Tile.grant (x : Tile) (tc : Nat) : Tile :=
  if x.leaseCore.isSome || (x.arrSpans ++ x.lwtSpans).any (fun r => decide (tc ≤ r.2)) then x
  else
    let first := match x.leaseLast with | some c => c + 1 | none => 0
    match ((upto 0 4).map fun i => (first + i) % 4).find? fun c => x.leaseReq.any fun r => r.1 == c with
    | none => x
    | some c =>
      let k := (x.leaseReq.find? fun r => r.1 == c).elim 0 Prod.snd
      { x with leaseCore := some c, leaseAt := tc, leaseReq := x.leaseReq.filter fun r => r.1 != c }.upC c fun y => { y.post k 0 with cmds := 0, lcyc := 1 }
/-- A lease has ended by time, its holder having taken no trap: another core may be granted the lease now (R139). -/
def Tile.settleLease (x : Tile) (tc : Nat) : Tile :=
  match x.leaseLast with
  | some c =>
    if x.ended c then
      let y := { x.endStands with leaseReq := x.leaseReq.filter fun r => r.1 != c }.grant tc
      { y with leaseReq := y.leaseReq ++ x.leaseReq.filter fun r => r.1 == c }
    else x
  | none => x

/-- leaseGrant (R138); with argument 1, after the turns of a core whose lease was about to end by time. -/
def execLeaseGrant (s : State) : Host.Outcome State Fault Refusal :=
  let tc := s.tcyc s.curT
  .next (s.upHere fun x => if s.curArg = 1 then x.settleLease tc else if x.leaseLast.any x.ended then x else x.grant tc)

/-- leaseExpiry (R139): a counted cycle, or the end by 64 commands or after 4,096 counted cycles. -/
def execLeaseExpiry (s : State) : Host.Outcome State Fault Refusal :=
  .next (s.upHere fun x =>
    let x := x.endStands
    match x.leaseCore with
    | none => x
    | some c =>
      let y := x.core c
      if 64 ≤ y.cmds then { x with leaseCore := none, leaseLast := some c }
      else if y.inMon then x
      else x.countLease c)

end Sys2Proof.Machine
end

