-- ==== Sys2Proof/Machine/Banks.lean ====
section
/-! DEFINITION. The static requesters of a tile cycle: who uses which bank, who wins, what the access does and what a loser loses
(R230 to R234); the A stream and its format faults (R152, R154), the beats of lwt and ld.ds (R144, R241), the gang broadcast
(R156, R157), the stream control block (R249). -/

namespace Sys2Proof.Machine

/-- An access of tile memory by a static requester: an effect of an entry, rows of an A stream, a row of an accld, a stream's control block. -/
inductive Acc where
  | entry (p : Pend) (e : Eff)
  | aRow (p : Path) (row n : Nat)
  | ldRow (p : Path) (i : Nat)
  | block (j : StreamJob)
  deriving DecidableEq, Repr

/-- The requester of an entry's access: address, bytes and kind (R234). -/
def Pend.req (p : Pend) (core : Nat) : Eff → Req
  | .load n a _ => ⟨p.issue, core, p.id, p.slot, 0, p.pc, a, n⟩
  | .store n a _ _ => ⟨p.issue, core, p.id, p.slot, 1, p.pc, a, n⟩
  | .amoRead _ a _ _ _ => ⟨p.issue, core, p.id, p.slot, 0, p.pc, a, 4⟩
  | .amoWrite a _ _ _ _ => ⟨p.issue, core, p.id, p.slot, 1, p.pc, a, 4⟩
  | .tldLine _ _ a => ⟨p.issue, core, p.id, p.slot, 5, p.pc, a, 64⟩
  | .retRow _ n a _ _ => ⟨p.issue, core, p.id, p.slot, 4, p.pc, a, n⟩
  | _ => ⟨p.issue, core, p.id, p.slot, 7, p.pc, 0, 0⟩

/-- The rows of tile memory that an A stream reads in tile cycle tc (R152). A receiver of a gang reads none (R156). -/
def Path.aRows (p : Path) (tc : Nat) : Option (Nat × Nat) :=
  if p.kind ≤ 2 ∧ p.started ∧ !p.recv ∧ p.s ≤ tc then
    (match arrReadAt p.ty p.bt (tc - p.s) with
     | some (r, n) => (match p.stop with | some k => if r < k then some (r, n) else none | none => some (r, n))
     | none => none)
  else none

/-- A path's row of a fixed cycle s + i, while it runs (R161). -/
def Path.rowNow (p : Path) (tc : Nat) : Option Nat :=
  if p.s ≤ tc ∧ tc < p.s + p.bt ∧ p.stop.isNone then some (tc - p.s) else none

/-- The static requesters of the cycle. -/
def Tile.requests (x : Tile) (tc : Nat) : List (Req × Acc) :=
  let entries := (upto 0 4).foldl (fun l c =>
    let y := x.core c
    l ++ (y.pend.filter (y.dueNow tc)).foldl (fun l p =>
      l ++ ((p.effs.filter Eff.isAccess).map fun e => (p.req c e, Acc.entry p e))) []) []
  let rows := x.paths.foldl (fun l p =>
    l ++ (match p.aRows tc with
          | some (r, n) => [(p.req 2 (p.addr + r * arrRowBytes p.ty) (n * arrRowBytes p.ty), Acc.aRow p r n)]
          | none => [])
      ++ (if p.kind = 4 then (match p.rowNow tc with
          | some i => [(p.req 3 (p.rowAddr i) (64 * cvBytes p.ty), Acc.ldRow p i)]
          | none => []) else [])) []
  let blocks := (x.streams.filter fun j => !j.held && !j.read && j.wake == tc).map fun j =>
    ((⟨j.issue, j.core, j.id, j.slot, 6, j.pc, j.cb, 32⟩ : Req), Acc.block j)
  orderBy (fun a b => a.1.before b.1) (entries ++ rows ++ blocks)

/-! ### What a loser loses (R232, R233) -/

/-- An entry's conflict trap: on the task, or a monitor fault. -/
def Core.entryCause (c : Core) (p : Pend) (i : Info) : Core :=
  if p.mon then c.push { at' := 0, mon := true, id := p.id, slot := p.slot, pc := p.pc, effs := [.cause i] } else c.cause (8 * p.id + p.slot) i

/-- Poison of every word of an entry that a lost access delivers (R233). -/
def allPoi : BitVec 64 := BitVec.allOnes 64

/-- The same command's other effects of a kind are dropped, with the flags of what they leave empty. -/
def Core.dropEffs (c : Core) (p : Pend) (f : Eff → Eff) (keep : Eff → Bool) : Core :=
  { c with pend := c.pend.filterMap fun q =>
      if q.id = p.id ∧ q.slot = p.slot ∧ q.mon = p.mon ∧ !q.effs.isEmpty then
        (match (q.effs.filter keep).map f with | [] => none | l => some { q with effs := l })
      else some q }

/-! ### Entries -/

/-- An entry's access, with the winner it lost to, if any. An atomic that lost its read still holds its bank at issue + 4, a task cycle (R4,
R233). The flags of an accret's row land with it, after a write of `aflags` in that cycle (R98). -/
def Tile.entryAcc (x : Tile) (c : Nat) (p : Pend) (r : Req) (lost : Option (Nat × Req)) (e : Eff) : Tile :=
  let rest (effs : List Eff) (at' : Nat) : Pend := { p with at' := at', effs := effs, flags := 0#11 }
  let cause (row : Nat) (x : Tile) : Tile := match lost with
    | some w => x.upC c fun y => y.entryCause p (bankInfo p.pc p.slot row w r)
    | none => x
  match e with
  | .load n a q =>
    (match lost with
     | none =>
       let x := x.meet 0 a n
       x.upC c fun y => y.push (rest [.ldq q (BitVec.ofNat 2048 (x.tmRead a n)) (BitVec.ofNat 64 (x.tmPoiR a n))] p.last)
     | some _ => cause 0 (x.upC c fun y => y.push (rest [.ldq q 0#2048 allPoi] p.last)))
  | .store n a v q => (match lost with
     | none => x.tmWrite a n v.toNat q.toNat
     | some _ => cause 0 x)
  | .amoRead op a s k q =>
    (match lost with
     | none =>
       let x := x.meet 0 a 4
       let old : PWord := ⟨BitVec.ofNat 32 (x.tmRead a 4), decide (x.tmPoiR a 4 ≠ 0)⟩
       x.upC c fun y => y.push (rest [.amoWrite a (amoNew op old s k) old q false] (p.at' + 1))
     | some _ => cause 0 (x.upC c fun y =>
       (y.push (rest [.ldq q 0#2048 allPoi] p.last)).push { rest [.amoWrite a {} {} q true] (p.at' + 1) with counts := false }))
  | .amoWrite a v old q dead =>
    let deliver (b : Bits256) (k : BitVec 64) (x : Tile) : Tile := x.upC c fun y => y.push (rest [.ldq q b k] p.last)
    if dead then x
    else (match lost with
     | none => deliver (old.val.setWidth 2048) (if old.poi then 1#64 else 0#64) (x.tmWrite a 4 v.val.toNat (b2n v.poi))
     | some _ => cause 0 (deliver 0#2048 allPoi x))
  | .tldLine tb i a =>
    (match lost with
     | none =>
       let x := x.meet 0 a 64
       let v := x.tmRead a 64
       let q := x.tmPoiR a 64
       x.upC c fun y => { y with
         tshadow := (upto 0 8).foldl (fun m k => sset 0#64 m (256 * tb + 8 * i + k) (BitVec.ofNat 64 (v / 2 ^ (64 * k)))) y.tshadow
         tshadowPoi := (upto 0 16).foldl (fun m k => sset false m (512 * tb + 16 * i + k) (q.testBit k)) y.tshadowPoi }
     | some _ =>
       cause i (x.upC c fun y => y.dropEffs p
         (fun e => match e with | .tldSwitch tb k => .tldDone tb k | e => e)
         (fun e => match e with | .tldLine .. => false | _ => true)))
  | .retRow i n a v q =>
    (match lost with
     | none => (x.tmWrite a n v.toNat q.toNat).upC c fun y => y.push { p with effs := [], counts := false }
     | some _ =>
       let x := x.upC c fun y => y.dropEffs p id (fun e => match e with | .retRow .. => false | .accClose .. => false | _ => true)
       cause i { x with paths := x.paths.map fun r => if r.core = c ∧ r.id = p.id ∧ r.slot = p.slot ∧ r.mon = p.mon then { r with stop := some i } else r })
  | _ => x

/-- Takes an entry's access out of its core's record; what the entry does beside it, in the same cycle, stays. -/
def Core.takeAcc (c : Core) (p : Pend) : Core :=
  { c with pend := c.pend.filterMap fun q =>
      if q = p then (match q.effs.filter fun e => !e.isAccess with | [] => none | l => some { q with effs := l }) else some q }

/-! ### A streams (R152, R154) -/

/-- The first failing block position of an SB row group (R154): its row's number and its offset. -/
def rowsFault (x : Tile) (p : Path) (r : Nat) : Nat → Option (Nat × Nat)
  | 0 => none
  | n + 1 =>
    match sbRowFault 8 (x.tmRead (p.addr + r * arrRowBytes p.ty) (arrRowBytes p.ty)) with
    | some o => some (r, o)
    | none => rowsFault x p (r + 1) n

/-- A path takes a new value in its tile. -/
def Tile.setPath (x : Tile) (p q : Path) : Tile := { x with paths := x.paths.map fun r => if r = p then q else r }

/-- Rows r to r+n-1 of an A stream are read: with a conflict or a format fault the command stops at row r. -/
def Tile.aAcc (x : Tile) (tc : Nat) (p : Path) (q : Req) (lost : Option (Nat × Req)) (r n : Nat) : Tile :=
  match lost with
  | some w => (x.setPath p { p with stop := some r }).pathCause p (tc - p.s) (bankInfo p.pc p.slot r w q)
  | none =>
    let b := arrRowBytes p.ty
    let x := x.meet 0 (p.addr + r * b) (n * b)
    let v := (x.core p.core).tmView p (p.s0 + (tc - p.s)) x
    match if arrSb p.ty then rowsFault v p r n else none with
    | some (i, o) =>
      (x.setPath p { p with stop := some r }).pathCause p (tc - p.s)
        { cause := cFormat, slot := p.slot, i0 := BitVec.ofNat 32 p.pc, i1 := BitVec.ofNat 32 (p.addr + i * b + o), i2 := BitVec.ofNat 32 r }
    | none =>
      x.setPath p { p with rows := p.rows ++ (upto r n).map fun i => (i, v.tmRead (p.addr + i * b) b, v.tmPoiR (p.addr + i * b) b) }

/-! ### Stream control blocks (R249, R251) -/

/-- A control block in order (R249): reserved fields, alignments, OP, and local ranges inside their space; an atomic is a stream.wr (R253). -/
def StreamJob.ok (j : StreamJob) : Bool :=
  let size := if j.space = 0 then tmSize else dsSize
  j.loc / 2 ^ 25 % 64 == 0 && decide (j.dva < 2 ^ 48) && decide (j.op ≤ 3) && (j.op == 0 || j.wr)
  && (if j.op = 0 then j.dva % 64 == 0 && j.local % 64 == 0 && j.len % 64 == 0 && decide (64 ≤ j.len) && decide (j.len ≤ 16777216)
      else j.dva % 8 == 0 && j.local % 16 == 0)
  && j.rstr % 64 == 0 && j.lstr % 64 == 0 && decide (j.local + j.span ≤ size)

/-- A stream whose hub or control block found poison at an outside store stops: its task is killed, its trap log says so (R400). -/
def Tile.poisonStop (x : Tile) (tc : Nat) (j : StreamJob) : Tile :=
  let i : Info := { cause := cPoison, slot := j.slot, i0 := BitVec.ofNat 32 j.pc }
  let q : StreamJob := { j with killed := true, fin := true, wake := tc + 1 }
  let x : Tile := { x with streams := x.streams.map fun (k : StreamJob) => if k.n = j.n then q else k }
  let x := x.upC j.core fun c => { c with trapLog := c.trapLog ++ [c.logged i] }
  if j.mon then x else x.kill j.core cPoison

/-- A control block is read (R250): it is judged, and in strict mode its destination is tracked from here (R226). A poisoned word of it
stops the stream before any data moves (R398, R400). -/
def Tile.blockAcc (x : Tile) (tc : Nat) (j : StreamJob) (r : Req) (lost : Option (Nat × Req)) : Tile :=
  let put (q : StreamJob) (x : Tile) : Tile := { x with streams := x.streams.map fun k => if k.n = j.n then q else k }
  match lost with
  | some w =>
    let x := put { j with read := true, status := 0x01, fin := true, wake := tc + 1 } x
    x.upC j.core fun c => c.entryCause { at' := 0, mon := j.mon, id := j.id, slot := j.slot, pc := j.pc } (bankInfo j.pc j.slot 0 w r)
  | none =>
    let x := x.meet 0 j.cb 32
    let q := j.parse (x.tmRead j.cb 32)
    if x.tmPoiR j.cb 32 ≠ 0 then x.poisonStop tc q
    else if !q.ok then put { q with status := 0x01, fin := true, wake := tc + 1 } x
    else
      let x := put { q with wake := tc + 160 } x
      if q.wr then x
      else x.upC j.core fun c => c.retrack (2 * q.n + 1) q.space q.local q.span

/-! ### The arbiter's turn -/

/-- One requester in issue order: it takes its banks or loses, and its access is performed or abandoned. -/
def Tile.serve (x : Tile) (tc : Nat) (q : Req × Acc) : Tile :=
  let b := arbitrate x.banks q.1
  match q.2 with
  | .ldRow p i => x.ldRow p i
  | .entry p e =>
    ({ x with banks := b.1 }.upC q.1.core fun y => y.takeAcc p).entryAcc q.1.core p q.1 b.2 e
  | .aRow p r n => { x with banks := b.1 }.aAcc tc p q.1 b.2 r n
  | .block j => { x with banks := b.1 }.blockAcc tc j q.1 b.2

/-- The paths that have work left on the tile or an entry on their core's timeline (R221). -/
def Tile.livePaths (x : Tile) (tc : Nat) : List Path :=
  x.paths.filter fun p => decide (tc ≤ p.s + (p.last - p.s0)) || (!p.mon && decide ((x.core p.core).tsk < p.last))

/-! ### Beats of the vertical buses (R144, R241) -/

/-- The next beat on column j fails its parity; it has failed, and each error that is to pass has one beat less (R413, R414). -/
def Tile.busBad (x : Tile) (j : Nat) : Bool := x.badBus.any fun b => b.1 == j && b.2.2 != some 0
def Tile.failBeat (x : Tile) (j : Nat) : Tile := { x with badBus := x.badBus.map fun b => if b.1 = j then (b.1, b.2.1, b.2.2.map (· - 1)) else b }
/-- A beat of a fixed-latency path on column j: a failing lane there spoils it (R413). -/
def Tile.fixedBeat (x : Tile) (j : Nat) : Tile :=
  if x.busBad j then { x.failBeat j with parity := if x.parity.contains j then x.parity else x.parity ++ [j] } else x
/-- Beat b of an lwt: 32 bytes of every slice into the latch's images, one poison bit for each 8 bytes. -/
def Tile.lwtBeat (x : Tile) (p : Path) (b : Nat) : Tile :=
  (upto 0 64).foldl (fun x j =>
    let a := sliceSize * j + p.addr + 32 * b
    let k := 12288 * p.w + 192 * j + 32 * b
    let x := (x.fixedBeat j).meet 1 a 32
    let q := x.dsPoiR a 32
    { x.touchRange 6 k 32 with
      latch := ssetBytes x.latch k 32 (x.dsRead a 32)
      latchPoi := (upto 0 4).foldl (fun m i => sset false m (k / 8 + i) (q.testBit (2 * i))) x.latchPoi }) x

/-- Beat b of an ld.ds; after the last the row lands at its offset. -/
def Tile.ldsBeat (x : Tile) (p : Path) (b : Nat) : Tile :=
  let a := p.addr + 32 * b
  let x := (x.fixedBeat (a / sliceSize)).meet 1 a 32
  let d : VRow := ⟨p.data.val ||| BitVec.ofNat 2048 (x.dsRead a 32 * 2 ^ (256 * b)), p.data.poi ||| BitVec.ofNat 64 (x.dsPoiR a 32 * 2 ^ (8 * b))⟩
  let x := x.setPath p { p with data := d }
  if b = 7 ∧ p.stop.isNone then
    x.upC p.core fun c => c.push
      { at' := p.last, mon := p.mon, id := p.id, slot := p.slot, pc := p.pc, issue := p.issue
        effs := [match p.q with | some q => .sdq q d.val d.poi | none => .vrow p.ty (BitVec.allOnes 256) d.val d.poi] }
  else x

/-- The bus beats of the cycle. -/
def Tile.beats (x : Tile) (tc : Nat) : Tile :=
  x.paths.foldl (fun x p =>
    if p.kind = 3 ∧ p.s ≤ tc ∧ tc < p.s + p.bt then x.lwtBeat p (tc - p.s)
    else if p.kind = 6 ∧ p.s + 2 ≤ tc ∧ tc ≤ p.s + 9 then x.ldsBeat p (tc - p.s - 2)
    else x) x

/-- An st.ds performs at s + 10 (R241). -/
def Tile.stPerform (x : Tile) (tc : Nat) : Tile :=
  x.paths.foldl (fun x p => if p.kind = 7 ∧ tc = p.s + 10 then (x.fixedBeat (p.addr / sliceSize)).dsWrite p.addr 256 p.data.val.toNat p.data.poi.toNat else x) x

/-- A tile's static requesters use their banks (R230, R232). -/
def Tile.staticAccess (x : Tile) (tc : Nat) : Tile :=
  let x := { x with banks := [], paths := x.livePaths tc }
  (x.requests tc).foldl (fun x q => x.serve tc q) x

/-! ### The gang broadcast (R156, R157) -/

/-- Rows that source tile t read in this cycle go south along its gang column: 16 + 3·v global cycles to the v-th tile (log 34). -/
def State.broadcast (s : State) (t : Nat) (tc : Nat) : State :=
  let x := s.tile t
  let gh := (x.gang.extractLsb' 22 4).toNat
  x.paths.foldl (fun s p =>
    if p.kind = 2 ∧ !p.recv ∧ p.dg ≠ 0 then
      (match p.aRows tc with
       | some (r, n) =>
         (p.rows.filter fun e => decide (r ≤ e.1) && decide (e.1 < r + n)).foldl (fun s e =>
           (upto 1 gh).foldl (fun s v =>
             let u := (t / 96 + v) % 72 * 96 + t % 96
             let r : GangRow := { due := s.gcyc + 16 + 3 * v, n := p.gn, row := e.1, bt := p.bt, ty := p.ty, data := e.2.1, poi := e.2.2 }
             s.upT u fun y => y.reached (s.nextCyc u) (.row r) fun y => y.takeRow r) s) s
       | none => s)
    else s) s

def execStaticBankAccess (s : State) : Host.Outcome State Fault Refusal :=
  let tc := s.tcyc s.curT
  .next ((s.upHere fun x => x.staticAccess tc).broadcast s.curT tc)

/-- The rows a receiver consumes in tile cycle tc. -/
def Path.takes (p : Path) (tc : Nat) : Option (Nat × Nat) :=
  if p.kind = 2 ∧ p.recv ∧ p.started ∧ p.s + p.dg ≤ tc then arrReadAt p.ty p.bt (tc - p.s - p.dg) else none

/-- A row is one that some command of the receiver has yet to consume (R157). -/
def Tile.wantsRow (x : Tile) (e : GangRow) : Bool :=
  decide (x.gangN ≤ e.n) || x.paths.any fun p => p.kind == 2 && p.recv && p.gn == e.n && p.bt == e.bt && p.ty == e.ty && !(p.rows.any fun r => r.1 == e.row)

/-- The rows that have arrived enter the gang buffer, which holds the rows of two commands; a row that is not wanted, or that finds two other
commands there, is discarded (R156, R157, log 105). -/
def Tile.gangEnter (x : Tile) (gc : Nat) : Tile :=
  (x.gangBuf.filter fun e => !e.inBuf && decide (e.due ≤ gc)).foldl (fun x e =>
    let held := x.gangBuf.foldl (fun l f => if f.inBuf && !l.contains f.n then f.n :: l else l) []
    if x.wantsRow e && (held.contains e.n || decide (held.length < 2)) then
      { x with gangBuf := x.gangBuf ++ [{ e with inBuf := true }], journal := x.journal + (arrRowBytes e.ty + 63) / 64 }
    else x) { x with gangBuf := x.gangBuf.filter fun e => e.inBuf || decide (gc < e.due) }

/-- One receiver takes its rows from the gang buffer; an absent row is a gang-row error (R157). -/
def Tile.takeRows (x : Tile) (glo tc : Nat) (p : Path) : Tile :=
  match p.takes tc with
  | none => x
  | some (r, n) =>
    let have' (i : Nat) := x.gangBuf.find? fun e => e.n == p.gn && e.row == i && e.bt == p.bt && e.ty == p.ty && e.inBuf
    let rows := (upto r n).foldl (fun l i => match have' i with | some e => l ++ [(i, e.data, e.poi)] | none => l ++ [(i, 0, 0)]) []
    let gone := (upto r n).filter fun i => (have' i).isNone
    let x := x.setPath p { p with rows := p.rows ++ rows, absent := p.absent ++ gone }
    let x := { x with gangBuf := x.gangBuf.filter fun e => !(e.inBuf && e.n == p.gn && decide (r ≤ e.row) && decide (e.row < r + n)) }
    gone.foldl (fun x _ => x.record glo true 0x06 (BitVec.ofNat 32 p.pc) (some p.core)) x

/-- Broadcast rows reach a receiver: what it has consumed already, or does not match, is discarded; the rest waits in its gang buffer. -/
def execGangRowArrival (s : State) : Host.Outcome State Fault Refusal :=
  let tc := s.tcyc s.curT
  .next (s.upHere fun x =>
    let x := x.gangEnter s.gcyc
    let x := x.paths.foldl (fun x p => x.takeRows s.glob tc p) x
    { x with gangBuf := x.gangBuf.filter fun e => !e.inBuf || x.wantsRow e })

end Sys2Proof.Machine
end

