-- ==== Sys2Proof/Machine/Mirage.lean ====
section
/-! DEFINITION. The mirage map: where a logical tile lies, and what a logical hop costs (R15, R16, R19, R22 to R24, R27). -/

namespace Sys2Proof.Machine

/-- The position of the (i+1)-th set bit among bits j to j+n-1 (R19). -/
def nthSet (m i : Nat) : Nat → Nat → Option Nat
  | _, 0 => none
  | j, n + 1 => if m.testBit j then (if i = 0 then some j else nthSet m (i - 1) (j + 1) n) else nthSet m i (j + 1) n

/-- The overlay entry in force for a logical coordinate: the last one written for it (R24, R25). -/
def State.overlay (s : State) (x y : Nat) : Option Word :=
  (s.ovl.reverse.find? fun e => e.2.getLsbD 31 && decide ((e.2.extractLsb' 24 7).toNat = x) && decide ((e.2.extractLsb' 17 7).toNat = y)).map Prod.snd

/-- The physical tile that serves a logical coordinate: its overlay entry, else its place among the good tiles of its segment. -/
def State.phys (s : State) (x y : Nat) : Nat × Nat :=
  match s.overlay x y with
  | some w => ((w.extractLsb' 10 7).toNat, (w.extractLsb' 3 7).toNat)
  | none =>
    let w := sget 0#32 s.seg (y * 8 + x / 12)
    (13 * (x / 12) + (nthSet (w.extractLsb' 16 13).toNat (x % 12) 0 13).getD (x % 12), y)

/-- The coordinate overflowed at boot (R20). -/
def State.overflowed (s : State) (x y : Nat) : Bool :=
  s.ovl.any fun e => e.2.getLsbD 31 && e.2.extractLsb' 1 2 == 0#2 && decide ((e.2.extractLsb' 24 7).toNat = x) && decide ((e.2.extractLsb' 17 7).toNat = y)

def absDiff (a b : Nat) : Nat := if a ≤ b then b - a else a - b

/-- The tile in direction d of tile t on this wafer: 0 east, 1 west, 2 south, 3 north; the torus wraps (R27). -/
def stepTile (t d : Nat) : Nat :=
  let x := t % 96
  let y := t / 96
  match d with
  | 0 => y * 96 + (x + 1) % 96
  | 1 => y * 96 + (x + 95) % 96
  | 2 => (y + 1) % 72 * 96 + x
  | _ => (y + 71) % 72 * 96 + x

/-- The link from t in direction d crosses the wafer's edge. -/
def wrapsAt (t d : Nat) : Bool :=
  match d with | 0 => t % 96 == 95 | 1 => t % 96 == 0 | 2 => t / 96 == 71 | _ => t / 96 == 0

/-- Physical Manhattan distance between two tiles, across the wrap on a link that wraps in x or in y (R23). -/
def physDist (a b : Nat × Nat) (wx wy : Bool) : Nat :=
  let dx := absDiff a.1 b.1
  let dy := absDiff a.2 b.2
  (if wx then 104 - dx else dx) + if wy then 72 - dy else dy

/-- The hop in direction d from the physical tile that served tile t before an overlay write: its links are detours (R423). -/
def State.hopOld (s : State) (a : Nat × Nat) (t d : Nat) : Nat :=
  let u := stepTile t d
  3 * max 1 (physDist a (s.phys (u % 96) (u / 96)) (wrapsAt t d && decide (d < 2)) (wrapsAt t d && decide (2 ≤ d)))

/-- Global cycles of the hop from tile t in direction d (R22, R23, R27). -/
def State.hop (s : State) (t d : Nat) : Nat :=
  let u := stepTile t d
  let a := s.phys (t % 96) (t / 96)
  let b := s.phys (u % 96) (u / 96)
  let w := wrapsAt t d
  let ew := decide (d < 2)
  let dx := absDiff a.1 b.1
  let man := physDist a b (ew && w) (!ew && w)
  if s.overflowed (t % 96) (t / 96) || s.overflowed (u % 96) (u / 96) then 3 * max 1 man
  else if ew then
    if a.2 ≠ b.2 then 3 * max 1 man
    else if w then
      let hi := if d = 0 then a.1 else b.1
      let lo := if d = 0 then b.1 else a.1
      3 + 3 * (103 - hi + lo)
    else 3 + 3 * (dx - 1)
  else if dx ≤ 1 ∧ physDist (0, a.2) (0, b.2) false w ≤ 1 then 3
  else 3 * max 1 man

/-- Next direction from a to b on a ring of n places: 0 none, 1 up, 2 down; `tie` chooses down at exactly half (R260). -/
def ringDir (a b n : Nat) (tie : Bool) : Nat :=
  let d := (b + n - a % n) % n
  if d = 0 then 0 else if 2 * d < n then 1 else if n < 2 * d then 2 else if tie then 2 else 1

/-- The next hop at tile t toward a core name under a route word 0; `none` at its own tile (R260). -/
def State.nextDir (s : State) (t : Nat) (w : Word) (name : Nat) : Option Nat :=
  let x := ringDir (s.wx * 96 + t % 96) (nameX name) (96 * s.domW) (w.getLsbD 1)
  let y := ringDir (s.wy * 72 + t / 96) (nameY name) (72 * s.domH) (w.getLsbD 0)
  let ex := if x = 1 then some 0 else if x = 2 then some 1 else none
  let ey := if y = 1 then some 2 else if y = 2 then some 3 else none
  if w.getLsbD 2 then ey <|> ex else ex <|> ey

end Sys2Proof.Machine
end

