-- ==== Sys2Proof/Machine/Graph.lean ====
section
/-! DEFINITION. What the walker and Rotrum report, and the nodes of the task graph: states, counts, completion, evaluation, graph faults,
the end of a run (R304 to R306, R309 to R312, R381). -/

namespace Sys2Proof.Machine

/-! ### Reports to a port (R379 to R381) -/

/-- The port that holds sem0: true for port B (R374, R375). -/
def State.owner (s : State) : Option Bool := let w := sget 0#32 s.sem 0; if w.getLsbD 31 then some (w.getLsbD 30) else none
def State.port (s : State) (b : Bool) : Port := if b then s.portB else s.portA
def State.setPort (s : State) (b : Bool) (p : Port) : State := if b then { s with portB := p } else { s with portA := p }
def State.upPort (s : State) (b : Bool) (f : Port → Port) : State := s.setPort b (f (s.port b))

/-- A number as n bytes, the least significant first (R6). -/
def bytesOf (v : Nat) : Nat → List Byte
  | 0 => []
  | n + 1 => BitVec.ofNat 8 v :: bytesOf (v / 256) n
/-- Bytes written to host memory from an address on. -/
def putList (m : SMap Byte) (a : Nat) : List Byte → SMap Byte
  | [] => m
  | b :: r => putList (sset 0#8 m a b) (a + 1) r
/-- Bytes read from an address on. -/
def getList (m : SMap Byte) (a n : Nat) : List Byte := (upto a n).map fun i => sget 0#8 m i

/-- The completion ring has no room: its next place is the one before the host's index. -/
def Port.full (p : Port) : Bool := p.cqn == 0 || (p.cqt + 1) % p.cqn == p.cqh % p.cqn
/-- One record into the ring, with its phase in byte 5 (R380). -/
def Port.write (p : Port) (r : List Byte) : Port :=
  let a := p.cqb.toNat / 16 * 16 + 16 * p.cqt
  let r := r.set 5 (if p.phase then 1#8 else 0#8)
  let n := (p.cqt + 1) % p.cqn
  { p with mem := putList p.mem a r, cqt := n, phase := if n = 0 then !p.phase else p.phase }
/-- Records that waited for room, in order. -/
def Port.flushFrom (p : Port) : List (List Byte) → Port
  | [] => { p with outRec := [] }
  | r :: t => if p.full then { p with outRec := r :: t } else (p.write r).flushFrom t
def Port.flush (p : Port) : Port := p.flushFrom p.outRec
/-- A record to a port. -/
def Port.record (p : Port) (r : List Byte) : Port := ({ p with outRec := p.outRec ++ [r] }).flush

/-- The 16 bytes of a completion record: TAG, status, result (R380). -/
def recordBytes (tag : Word) (status : Nat) (result : Nat) : List Byte := bytesOf tag.toNat 4 ++ bytesOf status 1 ++ [0#8, 0#8, 0#8] ++ bytesOf result 8

/-- Records are written for the commands that have ended, up to the first that has not (R381). -/
def Port.settle (p : Port) : List HostJob → Port
  | [] => { p with jobs := [] }
  | j :: r => match j.fin with
    | some f => (p.record (recordBytes j.tag f.1 f.2)).settle r
    | none => { p with jobs := j :: r }

/-- An event record to the owner port (R381). -/
def State.report (s : State) (code name node reason : Nat) : State :=
  match s.owner with
  | some b => s.upPort b fun p => p.record (recordBytes 0xFFFF_FFFF#32 code (name % 2 ^ 32 + node % 256 * 2 ^ 32 + reason % 256 * 2 ^ 40))
  | none => s

/-- Rotrum takes up the restore of the job, at the tile whose event led to it (R427). -/
def State.escalate (s : State) (t reason : Nat) : State := { s with inputs := s.inputs ++ [(s.gcyc, .event t 0 reason .jobRestore)] }

/-! ### Nodes (R304) -/

def Tile.nf (x : Tile) (n w lo len : Nat) : Nat := ((x.node n w).extractLsb' lo len).toNat
def Tile.nKind (x : Tile) (n : Nat) : Nat := x.nf n 0 29 3
def Tile.nFinal (x : Tile) (n : Nat) : Bool := (x.node n 0).getLsbD 28
def Tile.nPred (x : Tile) (n : Nat) : Nat := x.nf n 0 20 8
def Tile.nPrio (x : Tile) (n : Nat) : Nat := x.nf n 0 18 2
def Tile.nMask (x : Tile) (n : Nat) : Nat := x.nf n 0 14 4
def Tile.nPre (x : Tile) (n : Nat) : Bool := (x.node n 0).getLsbD 13
def Tile.nRun (x : Tile) (n : Nat) : Nat := x.nf n 4 16 16 + 1
def Tile.nReplay (x : Tile) (n : Nat) : Nat := x.nf n 4 8 8
/-- The cores of a mask. -/
def coresOf (m : Nat) : List Nat := (upto 0 4).filter fun c => m.testBit c
/-- The successors of a node, in order. -/
def Tile.succs (x : Tile) (n : Nat) : List Nat := (upto (x.nf n 1 22 10) (x.nf n 1 14 8)).map fun i => sget 0 x.succ i
/-- Nodes of a used kind. -/
def Tile.used (x : Tile) : List Nat := (x.nodes.map (·.1)).filter fun n => decide (1 ≤ x.nKind n) && decide (x.nKind n ≤ 5)

def Tile.rt (x : Tile) (n : Nat) : NodeRt := sget {} x.nrt n
def Tile.upRt (x : Tile) (n : Nat) (f : NodeRt → NodeRt) : Tile := { x with nrt := sset {} x.nrt n (f (x.rt n)) }

/-- The node enters DONE in tile cycle tc; the counts of `l` fall in the next (R306). -/
def Tile.done (x : Tile) (tc n : Nat) (l : List Nat) : Tile :=
  let x := x.upRt n fun r => { r with st := .done }
  { x with comp := x.comp ++ l.map fun i => (tc + 1, 0, i) }

/-- A graph fault: the run on the tile ends and Rotrum takes the job over (R312, R427). -/
def State.graphFault (s : State) (t node reason : Nat) : State :=
  ((s.upT t fun x => { x with running := false, comp := [] }).report 0x81 (s.nameOf t 0) node reason).escalate t 0

/-- A trigger's count is reached (R304, R305). -/
def Tile.triggered (x : Tile) (n : Nat) : Bool :=
  let thr := (x.node n 2).toNat
  if (x.node n 0).getLsbD 19 then decide (thr ≤ x.lcnt)
  else let c := sget {} x.chans (x.nf n 0 11 8); decide (thr ≤ ((x.core c.rcore).token c.atok).arr)

/-- Back-edges of a while node: references to it from its body (R310). -/
def Tile.backEdges (x : Tile) (n : Nat) : Nat :=
  ((upto (x.nf n 2 24 8) (x.nf n 2 16 8 + 1 - x.nf n 2 24 8)).map fun j => ((x.succs j).filter (· == n)).length).sum

/-- A node whose count has landed at zero acts (R305, R309, R310). A poisoned condition word is a graph fault (R350). A copy node's command joins
the queue however long it is (log 128). -/
def State.actNode (s : State) (t n : Nat) : State :=
  let x := s.tile t
  let tc := s.tcyc t
  let up (f : Tile → Tile) : State := s.upT t f
  match x.nKind n with
  | 1 => up fun x => x.upRt n fun r => { r with st := .ready, ready := tc }
  | 2 => up fun x =>
    let q : CopyCmd := { dt := (x.node n 0).getLsbD 19, red := x.nf n 0 17 2, dst := (x.node n 2).toNat, src := (x.node n 3).toNat
                         len := (x.node n 4).toNat, core := 4, node := some n, n := x.cmdSeq, start := tc, issue := tc }
    { x.upRt n fun r => { r with st := .running } with copyQ := x.copyQ ++ [q], cmdSeq := x.cmdSeq + 1 }
  | 3 => up fun x => x.upRt n fun r => { r with st := .armed }
  | k =>
    let cw := sget {} x.cw (x.nf n 0 16 4)
    if k ≠ 4 ∧ k ≠ 5 then s
    else if cw.poi then s.graphFault t n 0
    else if k = 4 then
      let l := x.succs n
      up fun x => x.done tc n [l.getD (min cw.val.toNat (l.length - 1)) 0]
    else
      let r := x.rt n
      let i := if r.iterSet then r.iter else 0
      if cw.val = 0#32 then up fun x => (x.upRt n fun r => { r with iterSet := true, iter := i }).done tc n (x.succs n)
      else if i < x.nf n 3 0 16 then
        up fun x => { x.upRt n fun r => { r with iterSet := true, iter := i } with comp := x.comp ++ [(tc + 1, 1, n)] }
      else up fun x => { x with comp := x.comp ++ [(tc + 1, 2, n)] }

/-- The nodes from BLO to BHI of a while node. -/
def Tile.loopBody (x : Tile) (n : Nat) : List Nat := x.used.filter fun j => decide (x.nf n 2 24 8 ≤ j) && decide (j ≤ x.nf n 2 16 8)
/-- A while-body reset (R310). -/
def Tile.bodyReset (x : Tile) (n : Nat) : Tile :=
  let x := (x.loopBody n).foldl (fun x j => x.upRt j fun r => { r with st := .wait, count := x.nPred j }) x
  let x := x.upRt n fun r => { r with iter := r.iter + 1, count := x.backEdges n, st := .wait }
  x

/-- What is due: resets first, decrements summed, then in index order a while bound's graph fault, and the nodes whose counts have landed at
zero act, those that a reset put there among them (R305, R306, R310). -/
def State.decrement (s : State) (t : Nat) : State :=
  let x := s.tile t
  let tc := s.tcyc t
  let due := x.comp.filter fun e => decide (e.1 ≤ tc)
  let resets := (due.filter fun e => e.2.1 == 1).map (·.2.2)
  let bounds := (due.filter fun e => e.2.1 == 2).map (·.2.2)
  let fresh := resets.flatMap fun n => n :: x.loopBody n
  let decs := (due.filter fun e => e.2.1 == 0).map (·.2.2) ++ resets.map fun n => x.nf n 2 8 8
  let s := s.upT t fun x => resets.foldl Tile.bodyReset { x with comp := x.comp.filter fun e => decide (tc < e.1) }
  (upto 0 256).foldl (fun s n =>
    let k := (decs.filter (· == n)).length
    if !(s.tile t).running then s
    else if bounds.contains n then s.graphFault t n 2
    else if k = 0 ∧ !fresh.contains n then s
    else
      let c := ((s.tile t).rt n).count
      if c < k then s.graphFault t n 1
      else
        let s := s.upT t fun x => x.upRt n fun r => { r with count := c - k }
        if c = k ∧ ((s.tile t).rt n).st = .wait then s.actNode t n else s) s

/-! ### The end of a run (R311, R312, R381) -/

/-- A tile reports its end: once every tile of the job that was started has, one record goes out for each START. -/
def State.runReport (s : State) (t node : Nat) : State :=
  let runs := s.runs.map fun l => l.filter (· != t)
  if runs.all (·.isEmpty) then (upto 0 runs.length).foldl (fun s _ => s.report 0x80 (s.nameOf t 0) node 0) { s with runs := [] } else { s with runs := runs }

/-- The run ends, or stalls. -/
def State.checkEnd (s : State) (t : Nat) : State :=
  let x := s.tile t
  if !x.running || x.used.any (fun n => match (x.rt n).st with | .ready => true | .running => true | .armed => true | _ => false) then s
  else match x.used.find? fun n => (x.rt n).st == .done && x.nFinal n with
    | some n => (s.upT t fun x => { x with running := false, comp := [] }).runReport t n
    | none => if x.comp.isEmpty then s.graphFault t 0xFF 4 else s

end Sys2Proof.Machine
end

