-- ==== Sys2Proof/Machine/Walker.lean ====
section
/-! DEFINITION. The task walker: launches, idle cores, completion, decrements, triggers, dispatch and its pre-emption requests; barrier
releases; replay of killed nodes (R305 to R317, R332, R333, R354, R420). -/

namespace Sys2Proof.Machine

/-! ### Launch (R313) -/

/-- The mailboxes of a core become the launch arguments. -/
def Core.mail (c : Core) (mb : BitVec 256) : Core :=
  { c with mb := (upto 0 8).foldl (fun m i => sset {} m i ⟨mb.extractLsb' (32 * i) 32, false⟩) c.mb }
def Tile.allCores (x : Tile) (f : Core → Core) : Tile := (upto 0 4).foldl (fun x c => x.upC c f) x

/-- START at a tile: every node waits with its predecessor count, and the nodes at zero act. A tile without nodes ends at once (R311). -/
def State.startRun (s : State) (t : Nat) : State :=
  let s := s.upT t fun x =>
    { x with lcnt := 0, comp := [], marks := [], running := !x.used.isEmpty
             nrt := x.used.foldl (fun m n => sset {} m n { count := x.nPred n }) [] }
  let x := s.tile t
  if x.used.isEmpty then s.runReport t 0xFF
  else (x.used.filter fun n => x.nPred n == 0).foldl (fun s n => if (s.tile t).running then s.actNode t n else s) s

/-- launchDelivery: the launches that have reached the tile, in order. -/
def execLaunchDelivery (s : State) : Host.Outcome State Fault Refusal :=
  let t := s.curT
  let due := s.here.launchQ.filter fun l => decide (l.1 ≤ s.gcyc)
  .next (due.foldl (fun s l =>
    let s := s.upT t fun x => x.allCores fun c => c.mail l.2.2.2
    if l.2.1 then s.startRun t else s.upT t fun x => { x with lcnt := incr32' x.lcnt })
    (s.upHere fun x => { x with launchQ := x.launchQ.filter fun l => decide (s.gcyc < l.1) }))
where
  /-- LCNT saturates. -/
  incr32' (n : Nat) : Nat := min (n + 1) 0xFFFF_FFFF

/-! ### Idle cores, completion, replay (R306, R317, R346, R420) -/

/-- coreIdle (R317, R346): after an exit or a kill, once nothing of the task is left to land or to post. Its node keeps what Rotrum asks of
the task later: a kill and its cause, and whether a replay could repeat it. -/
def execCoreIdle (s : State) : Host.Outcome State Fault Refusal :=
  .next (s.upHere fun x =>
    let c := x.core s.curC
    if c.mode == .draining && decide (x.npw s.curC c.tsk = 0) && (c.killed.isNone || c.quiet) then
      (x.upC s.curC fun c => { c with mode := .idle, killed := none }).upRt c.node fun r =>
        { r with kills := r.kills ++ (c.killed.map fun k => (s.curC, k)).toList, sideEff := r.sideEff || c.sideEff }
    else x)

/-- Every core of a node has become idle since its dispatch; it may run another node's task by now (R317). -/
def Tile.nodeIdle (x : Tile) (n : Nat) : Bool := (coresOf (x.nMask n)).all fun c => (x.core c).mode == .idle || (x.core c).node != n
/-- The cores of a node whose tasks were killed. -/
def Tile.nodeKilled (x : Tile) (n : Nat) : List Nat := (x.rt n).kills.map Prod.fst
/-- Compute nodes whose last core is idle. -/
def Tile.nodesOver (x : Tile) : List Nat :=
  if x.running then x.used.filter fun n => x.nKind n == 1 && (x.rt n).st == .running && (x.rt n).restoring.isNone && !(x.rt n).lost && x.nodeIdle n else []

/-- nodeComplete (R306): what completes now lets its successors' counts fall in the next cycle. -/
def execNodeComplete (s : State) : Host.Outcome State Fault Refusal :=
  let tc := s.tcyc s.curT
  .next (s.upHere fun x => x.nodesOver.foldl (fun x n => if (x.nodeKilled n).isEmpty then x.done tc n (x.succs n) else x) x)

/-- Bytes o to o+n-1 of a replay record as a number. -/
def recNum (r : List Byte) (o n : Nat) : Nat := (upto 0 n).foldr (fun i v => (r.getD (o + i) 0#8).toNat + 256 * v) 0
/-- No byte of the declared ranges of record k is poisoned (R419). -/
def Tile.rangesClean (x : Tile) (k : Nat) : Bool :=
  let r := sget [] x.replays k
  (upto 0 (recNum r 0 1)).all fun i =>
    let a := recNum r (8 + 8 * i) 4
    let n := recNum r (12 + 8 * i) 4
    let lo := a % 2 ^ 25
    if a / 2 ^ 31 = 0 then !(x.tmPoi.any fun e => e.2 && decide (lo / 4 ≤ e.1) && decide (4 * e.1 < lo + n))
    else !(x.dsPoi.any fun e => e.2 && decide (lo / 8 ≤ e.1) && decide (8 * e.1 < lo + n))

/-- What rules a replay of the node out for good (R420): it has none, it has had it, or the run has issued something it could not repeat. -/
def Tile.noReplay (x : Tile) (n : Nat) : Bool :=
  x.nReplay n == 0 || (x.rt n).replayed || (x.rt n).sideEff || (coresOf (x.nMask n)).any fun c => (x.core c).node == n && (x.core c).mode != .idle && (x.core c).sideEff
/-- A killed node whose cores are idle may run again. -/
def Tile.mayReplay (x : Tile) (n : Nat) : Bool := !x.noReplay n && x.rangesClean (x.nReplay n)
/-- Compute nodes some core of which was killed, with the kill yet to be answered. -/
def Tile.nodesKilled (x : Tile) : List Nat :=
  if x.running then x.used.filter fun n => x.nKind n == 1 && (x.rt n).st == .running && (x.rt n).restoring.isNone && !(x.nodeKilled n).isEmpty else []

/-- Rotrum reports each kill of a node that does not run again, and with the first of them takes the job over (R381, R427). -/
def State.lose (s : State) (t n : Nat) : State :=
  let r := (s.tile t).rt n
  let s := s.upT t fun x => x.upRt n fun r => { r with kills := [], lost := true }
  let s := r.kills.foldl (fun s k => s.report 0x82 (s.nameOf t 0) n k.2) s
  if s.aborted || r.lost then s else s.escalate t 0
/-- taskReplay (R381, R420): a kill that rules a replay out is reported at once; otherwise the node starts afresh once all its cores are idle, if
its ranges are clean. -/
def execTaskReplay (s : State) : Host.Outcome State Fault Refusal :=
  let t := s.curT
  let tc := s.tcyc t
  .next (s.here.nodesKilled.foldl (fun s n =>
    let x := s.tile t
    if s.aborted || (x.rt n).lost || x.noReplay n then s.lose t n
    else if !x.nodeIdle n then s
    else if x.mayReplay n then s.upT t fun x => x.upRt n fun r => { r with kills := [], st := .ready, ready := tc, replayed := true, sideEff := false }
    else s.lose t n) s)

/-! ### Decrements and triggers (R305, R306) -/

def execSuccessorDecrement (s : State) : Host.Outcome State Fault Refusal := .next (if s.here.running then s.decrement s.curT else s)

/-- triggerFire: an armed trigger whose count is reached is done. -/
def execTriggerFire (s : State) : Host.Outcome State Fault Refusal :=
  let tc := s.tcyc s.curT
  .next (s.upHere fun x => if x.running then
    (x.used.filter fun n => (x.rt n).st == .armed && x.triggered n).foldl (fun x n => x.done tc n (x.succs n)) x else x)

/-! ### Dispatch (R307, R308, R361) -/

/-- A core starts a task at its first bundle (R308). Registers, tokens, `aflags`, tables and the work generator keep their values. -/
def Core.start (c : Core) (n pc : Nat) (bud : Option Nat) : Core :=
  { c with mode := .task, node := n, budget := bud, pc := pc, npc := pc, due := 0, tsk := 0, repHdr := 0#32, repRem := 0, loops := [], calls := []
           jumped := false, gap := 1, loopTest := false, taskTest := false, preBoundary := false, lcause := [], deferred := [], decFault := [], preReq := none, recalled := false
           dbgStep := false, crc := 0xFFFF#16, lastEnd := pc, crg := [], killed := none, sideEff := false, monAt := none
           task := { c.task with ldq := [], sdq := [] } }

/-- The order of ready nodes: priority, ready cycle, index. -/
def Tile.readyBefore (x : Tile) (a b : Nat) : Bool :=
  decide (x.nPrio b < x.nPrio a) || (x.nPrio a == x.nPrio b && (decide ((x.rt a).ready < (x.rt b).ready) ||
    ((x.rt a).ready == (x.rt b).ready && decide (a < b))))
def Tile.readyOrder (x : Tile) : List Nat := orderBy x.readyBefore (x.used.filter fun n => x.nKind n == 1 && (x.rt n).st == .ready)

/-- A node is dispatched: its cores start, or, for a saved one, the restore begins and they wait. -/
def Tile.dispatch (x : Tile) (n : Nat) : Tile :=
  let r := x.rt n
  let cs := coresOf (x.nMask n)
  match r.saved with
  | none =>
    let bud := let b := (x.node n 3).toNat; if b = 0xFFFF_FFFF then none else some b
    cs.foldl (fun x c => x.upC c fun y => y.start n (x.nf n 2 0 24) bud) (x.upRt n fun r => { r with st := .running, kills := [], sideEff := false })
  | some (a, l) =>
    let v : SaveEng := { restore := true, node := n, cmask := x.nMask n, area := a, len := l }
    let x := x.upRt n fun r => { r with st := .running, restoring := some a }
    { cs.foldl (fun x c => x.upC c fun y => { y with mode := .stopped, node := n }) x with save := some v }

/-- Nodes are taken in order; one that cannot start keeps its cores from those behind it. -/
def Tile.dispatchAll (x : Tile) (held : Nat) : List Nat → Tile
  | [] => x
  | n :: r =>
    let free := (coresOf (x.nMask n)).all fun c => (x.core c).mode == .idle && !held.testBit c
    let ok := free && ((x.rt n).saved.isNone || x.save.isNone)
    (if ok then x.dispatch n else x).dispatchAll (Nat.lor held (x.nMask n)) r

/-- A request reaches every core of a node's task, unless the task holds one, or a kill has ended part of it (R344, R354). How an earlier one of
Rotrum's ended is then forgotten. -/
def Tile.request (x : Tile) (n : Nat) (host : Bool) : Tile :=
  let x := if host then x.upRt n fun r => { r with asked := none } else x
  let cs := (coresOf (x.nMask n)).filter fun c => (x.core c).node == n && ((x.core c).mode == .task || (x.core c).mode == .monitor)
  if cs.any (fun c => (x.core c).preReq.isSome) || (coresOf (x.nMask n)).any (fun c => (x.core c).node == n && (x.core c).killed.isSome)
    || !(x.rt n).kills.isEmpty then x
  else cs.foldl (fun x c => x.upC c fun y => { y with preReq := some ⟨host, y.tsk⟩ }) x

/-- The walker's requests: for the node at the head of the order, from tasks of lower priority that hold its cores (R354). -/
def Tile.askFor (x : Tile) (h : Nat) : Tile :=
  (x.used.filter fun n => x.nKind n == 1 && (x.rt n).st == .running && (x.rt n).restoring.isNone && x.nPre n && decide (x.nPrio n < x.nPrio h)
    && (coresOf (x.nMask h)).any fun c => (x.core c).node == n && ((x.core c).mode == .task || (x.core c).mode == .monitor)).foldl (fun x n => x.request n false) x

/-- taskDispatch, with the walker's requests; then the run may be over (R307, R311, R354). -/
def execTaskDispatch (s : State) : Host.Outcome State Fault Refusal :=
  let s := s.upHere fun x =>
    if x.running then
      let l := x.readyOrder
      let y := x.dispatchAll 0 l
      match l with
      | h :: _ => if (y.rt h).st == .ready then y.askFor h else y
      | [] => y
    else x
  .next (s.checkEnd s.curT)

/-! ### Barriers (R332, R333) -/

/-- Participants of a barrier word. -/
def barCores (w : Word) : List Nat := coresOf (w.extractLsb' 26 4).toNat
/-- Cores of a tile have all arrived at barrier b. -/
def Tile.allAt (x : Tile) (l : List Nat) (b : Nat) : Bool := l.all fun c => (x.core c).bar b == 1
def Tile.releaseBar (x : Tile) (l : List Nat) (b : Nat) : Tile := l.foldl (fun x c => x.upC c fun y => y.setBar b 2) x

/-- barrierRelease (R332): a tile-scope barrier, in the cycle after its last arrival. -/
def execBarrierRelease (s : State) : Host.Outcome State Fault Refusal :=
  .next (s.upHere fun x =>
    let done := x.barE.filter fun e => e.2.getLsbD 31 && !e.2.getLsbD 30 && !(barCores e.2).isEmpty && x.allAt (barCores e.2) (e.1 % 64)
    done.foldl (fun x e => x.releaseBar (barCores e.2) (e.1 % 64)) x)

/-- The tiles of a gang on this wafer, or none where part of it lies on another (R331). -/
def State.gangTiles (s : State) (w0 w1 : Word) : Option (List Nat) :=
  let f (w : Word) (lo : Nat) : Nat := (w.extractLsb' lo 10).toNat
  let l := (upto 0 (f w1 12 + 1)).foldl (fun l v => l ++ (upto 0 (f w1 22 + 1)).map fun u =>
    ((f w0 20 + u) % (96 * s.domW), (f w0 10 + v) % (72 * s.domH))) []
  if l.all fun e => e.1 / 96 == s.wx && e.2 / 72 == s.wy then some (l.map fun e => e.2 % 72 * 96 + e.1 % 96) else none

/-- Hops and added physical hops of the path from tile t to tile u, all x first, ties east and south. -/
def State.pathCost (s : State) (t u : Nat) : Nat → Nat × Nat
  | 0 => (0, 0)
  | k + 1 =>
    match s.nextDir t 0#32 (s.nameOf u 0) with
    | none => (0, 0)
    | some d => let r := s.pathCost (stepTile t d) u k; (r.1 + 1, r.2 + (s.hop t d / 3 - 1))

/-- The bound of D_b (R333). -/
def State.gangBound (s : State) (w0 w1 : Word) (l : List Nat) : Nat :=
  let f (w : Word) (lo : Nat) : Nat := (w.extractLsb' lo 10).toNat
  let root := (f w0 10 + (f w1 12 + 1) / 2) % (72 * s.domH) % 72 * 96 + (f w0 20 + (f w1 22 + 1) / 2) % (96 * s.domW) % 96
  (l.map fun t => let a := s.pathCost t root 200; let b := s.pathCost root t 200; 6 * (a.1 + a.2 + b.2) + 32).foldl max 0

/-- D_b of a gang under the map in force (log 22). -/
def State.gangD (s : State) (w0 w1 : Word) (l : List Nat) : Nat :=
  1 + Config.gangDelay (w0.toNat + 2 ^ 32 * w1.toNat + 2 ^ 64 * s.ovl.length) (s.gangBound w0 w1 l) % s.gangBound w0 w1 l

/-- Cores of a tile have all arrived, as its peers see it: in a replay, as it stood at the report (R202). -/
def Tile.seenAt (x : Tile) (l : List Nat) (b : Nat) : Bool :=
  if x.replayTo.isSome then l.all fun c => sget 0 (x.barsAt.getD c []) b == 1 else x.allAt l b
/-- A gang barrier of tile t whose last participant has arrived: its releases, in each tile (R333). While one of an earlier round is on its way to
any of its tiles there is none. -/
def State.gangDone (s : State) (t : Nat) (e : Nat × Word) : List (Nat × Nat × Nat × Nat) :=
  let b := e.1 % 64
  let cs := barCores e.2
  let g := sget [] (s.tile t).gangE (e.2.extractLsb' 23 3).toNat
  let w0 := g.getD 0 0#32
  let w1 := g.getD 1 0#32
  let m := (e.2.extractLsb' 26 4).toNat
  if !(e.2.getLsbD 31 && e.2.getLsbD 30 && w0.getLsbD 31) || cs.isEmpty || !(s.tile t).seenAt cs b then []
  else match s.gangTiles w0 w1 with
    | none => []
    | some l =>
      if !(s.gangRel.any fun r => l.contains r.2.1 && r.2.2.1 == b && r.2.2.2 == m) && l.all fun u => (s.tile u).seenAt cs b then l.map fun u => (s.gcyc - 1 + s.gangD w0 w1 l, u, b, m) else []

/-- gangBarrierRelease: at the start of a global cycle. A frozen tile's participants resume after the freeze. With an argument b + 1 it is a
release that reaches tile `curT` from another wafer (log 42). -/
def execGangBarrierRelease (s : State) : Host.Outcome State Fault Refusal :=
  if s.curArg ≠ 0 then
    let b := s.curArg - 1
    .next (s.upHere fun x =>
      let cs := (upto 0 4).filter fun c => (x.core c).bar b == 1 && (x.barrier c b).getLsbD 30
      x.reached (s.nextCyc s.curT) (.release cs b) fun x => x.releaseBar cs b)
  else
    let s := s.tiles.foldl (fun s e => e.2.barE.foldl (fun s w => { s with gangRel := s.gangRel ++ s.gangDone e.1 w }) s) s
    let now (r : Nat × Nat × Nat × Nat) : Bool := decide (r.1 ≤ s.gcyc) && !s.frozen r.2.1
    .next ((s.gangRel.filter now).foldl (fun s r => s.upT r.2.1 fun x =>
        x.reached (s.nextCyc r.2.1) (.release (coresOf r.2.2.2) r.2.2.1) fun x => x.releaseBar (coresOf r.2.2.2) r.2.2.1)
      { s with gangRel := s.gangRel.filter fun r => !now r })

/-! ### Effects from outside (R406, R410) -/

/-- An effect from outside happens. -/
def Tile.take (x : Tile) : Outside → Tile
  | .packet p => x.takePacket p
  | .row r => x.takeRow r
  | .release cs b => x.releaseBar cs b
  | .launch l => x.takeLaunch l
  | .request n => x.request n true
/-- The tile's checkpoints no longer describe it: Rotrum, a load or a debug session has changed it. The next tile cycle takes a new one; a replay
ends, and what waited for it happens (log 78). -/
def Tile.dropCk (x : Tile) : Tile :=
  let y : Tile := { x with ck := [], undo := [], journal := 0, undoOld := [], outside := [], outsideOld := [], clock := [], gone := [], answers := [], redo := [], toRedo := []
                           replayTo := none, barsAt := [], late := [], parity := [], frz := x.frz.filter fun f => f.1 != .replay }
  x.late.foldl Tile.take (y.allCores fun c => { c with shadow := [], shadowOld := [] })

end Sys2Proof.Machine
end

