-- ==== Sys2Proof/Machine/Traps.lean ====
section
/-! DEFINITION. Trap points: L causes and their order, deferred causes, the deadline fault, asynchronous causes, pre-emption requests; and
what the monitor does with each cause where its program is not given (R213, R315, R337 to R343, R346, R353 to R356, R393). -/

namespace Sys2Proof.Machine

/-! ### Taking a cause -/

/-- In the cycle in which its next bundle is due, the test of a loop.w is read before a cause is taken; a cause of its own waits for the
bundle (R326, R343). -/
def Core.tested (c : Core) : Core :=
  if c.tsk < c.due then c
  else match c.testLoop 7 with
    | (y, none) => y
    | (y, some _) => { c with pc := y.pc }

/-- Core c of tile t enters the monitor with a cause. A breakpoint freezes the tile (R393). -/
def State.takeCause (s : State) (t c : Nat) (i : Info) : State :=
  let tc := s.tcyc t
  s.upT t fun x =>
    let x := (((x.upC c Core.tested).prime c).uncount c).upC c fun y => y.enter tc i
    if i.cause = cBkpt then { x with frz := x.frz ++ [(.debug, none)] } else x

/-- The L causes of the cycle, deferred ones among them, in the issue order of the work that caused them (R342). -/
def Core.lCauses (c : Core) : List (Nat × Info) :=
  orderBy (fun (a b : Nat × Info) => decide (a.1 < b.1)) ((c.deferred.map fun e => (e.1, { e.2 with defd := true })) ++ c.lcause)

/-- The task's store-data queue once the instruction that reserved entry q has trapped: the entry lands, with lanes that nothing wrote; v is
a free value (R99, R236, log 111). -/
def Core.landTrapped (c : Core) (v : Bits256) (f : Eff) : Core :=
  match f with
  | .sdq q _ _ => c.upBank false fun b =>
      { b with sdq := b.sdq.map fun e => if e.seq = q then { e with landed := true, val := if e.vec then v else (v.setWidth 32).setWidth 2048, poi := 0#64 } else e }
  | _ => c

/-- The fates of the causes when the first is taken (R343): an arithmetic one left behind lands again with its write; the taken one's write
is gone, but for a queue entry; the others are deferred. -/
def Core.defer (c : Core) (v : Bits256) (e : Nat × Info) (rest : List (Nat × Info)) : Core :=
  let c := if e.2.cause = cArith then
      let taken (p : Pend) : Bool := p.traps && !p.mon && 8 * p.id + p.slot == e.1 && decide (p.at' ≤ c.tsk)
      ((c.pend.filter taken).flatMap (·.effs)).foldl (fun y f => y.landTrapped v f) { c with pend := c.pend.filter fun p => !taken p }
    else c
  { c with lcause := [], deferred := (rest.filter fun r => r.2.cause != cArith).foldl (fun l r => addCause l r.1 { r.2 with defd := false }) [] }

/-- A task in this cycle takes its first L cause, if any. -/
def State.takeL (s : State) (t c : Nat) : State :=
  let y := s.coreAt t c
  match y.mode, y.lCauses with
  | .task, e :: r =>
    let s' := s.upCoreAt t c fun y => y.defer (Config.trappedEntry s.free) e r
    (if e.2.cause = cArith then s'.draw else s').takeCause t c e.2
  | _, _ => s

/-! ### The monitor (R339 to R341, R346) -/

/-- The page of VPN v is mapped, if the image holds it: its bytes go to the first free page of the code store (R341). -/
def Tile.mapPage (x : Tile) (v : Nat) : Option Tile :=
  match x.pages.find? fun p => p.1 == v, (upto 0 120).find? fun i => !(x.cmapAt i).getLsbD 31 with
  | some p, some i => some { x with code := putList x.code (4096 * i) p.2, cmap := sset 0#32 x.cmap i (BitVec.ofNat 32 (2 ^ 31 + v * 4096)) }
  | _, _ => none

/-- A cause is recorded (R340). -/
def Core.recorded (c : Core) : Core := { c with trapLog := c.trapLog ++ [c.trapState], tlast := c.tcause }
def Core.code (c : Core) : Nat := (c.tcause.extractLsb' 24 8).toNat

/-- The core is stopped for a pre-emption (R356). -/
def Core.preempted (c : Core) : Bool := c.mode == .monitor && c.code == cPreempt
/-- Every core of the node has stopped, or has ended its task. -/
def Tile.allStopped (x : Tile) (n : Nat) : Bool :=
  (coresOf (x.nMask n)).all fun c => (x.core c).preempted || !((x.core c).mode == .task || (x.core c).mode == .monitor)

/-- Core c leaves the monitor in tile cycle tc, which counts for its lease, unless it is that of the grant, which has counted (R139). -/
def Tile.leave (x : Tile) (tc c : Nat) : Tile :=
  let x := x.upC c Core.leaveMon
  if x.leaseCore = some c ∧ x.leaseAt ≠ tc then x.countLease c else x

/-- Pre-emption: a withdrawn request returns the core to its boundary; when every core has stopped, the first of them starts the save, in an
area that Rotrum assigns (R356, R358, log 43). After a stop of the save Rotrum takes a free time, extends an area that was too short, and CONT
is written (R360). -/
def State.monPreempt (s : State) (t c : Nat) : State :=
  let x := s.tile t
  let y := x.core c
  if y.preReq.isNone || y.recalled then s.upT t fun x => x.leave (s.tcyc t) c
  else if x.allStopped y.node && x.save.isNone && ((coresOf (x.nMask y.node)).find? fun d => (x.core d).preempted) == some c then
    let a := Config.saveArea s.free
    (s.upT t fun x => (x.upC c fun y => { y with
      svlo := a.extractLsb' 0 32, svhi := BitVec.ofNat 32 (a.toNat / 2 ^ 32)
      svlen := BitVec.ofNat 32 (4096 * (Config.saveLength s.free % 2 ^ 20)), svst := 0#32 }).startSave c).draw
  else if x.save.any (fun v => v.stopped && v.node == y.node) && ((coresOf (x.nMask y.node)).find? fun d => (x.core d).preempted) == some c then
    match y.monAt with
    | none => (s.upCoreAt t c fun y => { y with monAt := some (s.tcyc t + 1 + Config.delay s.free) }).draw
    | some a =>
      if s.tcyc t < a then s
      else
        let more : Word := BitVec.ofNat 32 (4096 * (1 + Config.saveLength s.free % 2 ^ 10))
        (s.upT t fun x => (x.upC c fun y => { y with monAt := none, svlen := if y.svst.extractLsb' 0 8 = 2#8 then y.svlen + more else y.svlen }).contSave c).draw
  else s

/-- The core's monitor resumes the task (R339, R340). -/
def Core.resumes (y : Core) : Bool :=
  y.code == cArith && y.tdisp.getLsbD 0 || y.code == cUser && y.tdisp.getLsbD 1 || y.code == cDecode && y.tdisp.getLsbD 2

/-- What the monitor does with the cause of core c (R339). -/
def State.monAct (s : State) (t c : Nat) : State :=
  let x := s.tile t
  let y := x.core c
  let code := y.code
  let kill := s.upT t fun x => x.kill c code
  if code = cPage then
    (match x.mapPage ((sget 0#32 y.tinfo 0).extractLsb' 12 12).toNat with
     | some x => s.setTile t (x.leave (s.tcyc t) c)
     | none => kill)
  else if y.resumes then s.upT t fun x => (x.upC c Core.recorded).leave (s.tcyc t) c
  else if code = cBkpt ∨ code = cStep then s.upT t fun x => x.leave (s.tcyc t) c
  else kill

/-- How long the monitor takes of a free time d: R339 bounds a resume and a page mapping, not a kill (log 10). -/
def Core.monTime (y : Core) (d : Nat) : Nat :=
  if y.code = cBkpt ∨ y.code = cStep then 0 else if y.code = cPage then d % 16383 else if y.resumes then d % 2047 else d

/-- A core whose monitor program is not in the code store: the monitor acts after a time that is free within the bounds of R339 (log 10). -/
def State.monitor (s : State) (t c : Nat) : State :=
  let tc := s.tcyc t
  let y := s.coreAt t c
  if y.mode ≠ .monitor || (s.tile t).monRom then s
  else if y.code = cPreempt then s.monPreempt t c
  else match y.monAt with
    | none => (s.upCoreAt t c fun y => { y with monAt := some (tc + 1 + y.monTime (Config.delay s.free)) }).draw
    | some a => if a ≤ tc then s.monAct t c else s

/-- trapEntry (R337, R342): the monitor's own turn, then the L causes that land in this cycle or that a return finds deferred. -/
def execTrapEntry (s : State) : Host.Outcome State Fault Refusal := .next (((s.monitor s.curT s.curC).landAgain s.curT s.curC s).takeL s.curT s.curC)

/-! ### The deadline (R315) -/

/-- deadlineFault: at task cycle B, whether the bundle is due, stalls or waits for a dly. -/
def execDeadlineFault (s : State) : Host.Outcome State Fault Refusal :=
  let c := s.core
  match c.mode, c.budget with
  | .task, some b => .next (if b ≤ c.tsk then s.takeCause s.curT s.curC { cause := cDeadline, i0 := BitVec.ofNat 32 b } else s)
  | _, _ => .next s

/-! ### Asynchronous causes (R297, R342, R353, R355) -/

/-- The boundary is eligible for pre-emption, in the cycle in which its bundle is due (R353). No repetition of that bundle has issued while
`preBoundary` holds. -/
def Tile.eligible (x : Tile) (c : Nat) : Bool :=
  let y := x.core c
  x.nPre y.node && y.preBoundary && y.due == y.tsk && y.acc0.isEmpty && y.acc1.isEmpty && x.leaseCore != some c && !x.ended c
    && !(x.leaseReq.any fun r => r.1 == c) && decide (x.npw c y.tsk = 0)

/-- The asynchronous cause that a task takes at this boundary: the decode fault, pre-emption at an eligible one unless the due bundle
stalls, the debug step. -/
def Tile.asyncCause (x : Tile) (c : Nat) (stalled : Bool) : Option Info :=
  let y := x.core c
  match y.decFault with
  | i :: _ => some i
  | [] => if y.preReq.isSome && !stalled && x.eligible c then some { cause := cPreempt } else if y.dbgStep then some { cause := cStep } else none

/-- The cause is taken; it is then no longer pending. -/
def Core.asyncTaken (y : Core) (i : Info) : Core :=
  if i.cause = cDecode then { y with decFault := y.decFault.tail } else if i.cause = cStep then { y with dbgStep := false } else y
def State.takeAsync (s : State) (t c : Nat) (i : Info) : State := (s.upCoreAt t c fun y => y.asyncTaken i).takeCause t c i

/-- preemptRequest (R354): Rotrum's request for the node of `curArg` reaches the tile. -/
def execPreemptRequest (s : State) : Host.Outcome State Fault Refusal :=
  .next (s.upHere fun x => x.reached (s.nextCyc s.curT) (.request s.curArg) fun x => x.request s.curArg true)

/-- The request of core c has run past its bound (R355). -/
def Tile.overran (x : Tile) (c : Nat) : Bool :=
  let y := x.core c
  match y.preReq with
  | some r => y.mode == .task && x.nPre y.node && decide (r.q + x.nRun y.node < y.tsk)
  | none => false
/-- preemptOverrun (R355, R356): the request is withdrawn for every core of the node. -/
def execPreemptOverrun (s : State) : Host.Outcome State Fault Refusal :=
  .next (s.upHere fun x =>
    if x.overran s.curC then x.recall (x.core s.curC).node 2 else x)

end Sys2Proof.Machine
end

