-- ==== Sys2Proof/Machine/Boot.lean ====
section
/-! DEFINITION. Boot and the mirage map (R18 to R21, R24, R378, R386, R387), ownership and the scrub (R375 to R378), the halt of the domain
and the steps of a debug session (R392 to R395). -/

namespace Sys2Proof.Machine

/-! ### Time -/

/-- Global cycles in a millisecond at an operating point (R366). -/
def msCycles (p : Nat) : Nat := match p with | 0 => 700000 | 1 => 800000 | 2 => 900000 | 3 => 1000000 | _ => 1100000

/-! ### The map (R19 to R21, R24). A physical tile's index is 104·py + px. -/

/-- Good positions of segment i = 8·y + fx. -/
def goodOf (bad : List Nat) (i : Nat) : List Nat := (upto 0 13).filter fun j => !bad.contains (104 * (i / 8) + 13 * (i % 8) + j)
/-- The segment word before any placement. -/
def segWord (bad : List Nat) (i : Nat) : Word :=
  let g := goodOf bad i
  BitVec.ofNat 32 (2 ^ 31 + (g.map fun j => 2 ^ (16 + j)).sum + (if g.length = 13 then 2 ^ 15 else 0) + min 3 (12 - g.length) * 2 ^ 12)
/-- Overflow coordinates of segment i, in ascending x. -/
def overflowOf (bad : List Nat) (i : Nat) : List (Nat × Nat) :=
  let g := (goodOf bad i).length
  (upto g (12 - g)).map fun k => (12 * (i % 8) + k, i / 8)
/-- A position comes before another from a home: nearer, then lower py, then lower px (R20). -/
def nearer (h a b : Nat × Nat) : Bool :=
  let d (p : Nat × Nat) : Nat := absDiff p.1 h.1 + absDiff p.2 h.2
  decide (d a < d b) || (d a == d b && (decide (a.2 < b.2) || (a.2 == b.2 && decide (a.1 < b.1))))
def nearestTo (h : Nat × Nat) (l : List (Nat × Nat)) : Option (Nat × Nat) :=
  l.foldl (fun o p => match o with | none => some p | some q => if nearer h p q then some p else some q) none

/-- An overlay word. -/
def ovlWord (x y : Nat) (p : Nat × Nat) (kind : Nat) : Word :=
  BitVec.ofNat 32 (2 ^ 31 + x * 2 ^ 24 + y * 2 ^ 17 + p.1 * 2 ^ 10 + p.2 * 8 + kind * 2)

/-- A map under construction: segment words, overlay, free oases, next entry, and the cause of DEFECT_LIMIT: 1 a segment has more than three
overflow coordinates, 2 no entry is left, 3 no oasis is left. -/
structure MapB where
  seg : SMap Word := []
  ovl : SMap Word := []
  free : List (Nat × Nat) := []
  next : Nat := 0
  cause : Nat := 0
  deriving DecidableEq, Repr

/-- Places one overflow coordinate of segment i; the first of a segment gives OVIDX. Placement ends at the first failure (log 114). -/
def MapB.place (m : MapB) (i : Nat) (first : Bool) (c : Nat × Nat) : MapB :=
  if m.cause ≠ 0 then m
  else if 48 ≤ m.next then { m with cause := 2 }
  else match nearestTo (13 * (c.1 / 12) + c.1 % 12, c.2) m.free with
    | none => { m with cause := 3 }
    | some p =>
      let o := 8 * p.2 + p.1 / 13
      let seg := sset 0#32 m.seg o (sget 0#32 m.seg o &&& 0xFFFF_7FFF#32)
      let seg := if first then sset 0#32 seg i (sget 0#32 seg i ||| BitVec.ofNat 32 (m.next * 64)) else seg
      { m with seg := seg, ovl := sset 0#32 m.ovl m.next (ovlWord c.1 c.2 p 0), free := m.free.filter (· != p), next := m.next + 1 }

/-- The map of a defect set. -/
def buildMap (bad : List Nat) : MapB :=
  let all := upto 0 576
  let m : MapB := { seg := all.map fun i => (i, segWord bad i)
                    free := (all.filter fun i => (goodOf bad i).length == 13).map fun i => (13 * (i % 8) + 12, i / 8)
                    cause := if all.any fun i => decide (3 < (overflowOf bad i).length) then 1 else 0 }
  all.foldl (fun m i =>
    let l := overflowOf bad i
    ((upto 0 l.length).zip l).foldl (fun m e => m.place i (e.1 == 0) e.2) m) m

/-! ### The scrub (R377, R378) -/

/-- A column's bus log between owners: the spare lanes in use stay in use until the next boot (R414, R415). -/
def keepSpares (e : Nat × Word) : Option (Nat × Word) := let w := e.2 &&& 0x0000_FF00#32; if w = 0#32 then none else some (e.1, w)
/-- A tile after the scrub: what is not the job's stays, the code of the monitor pages and a migration under way among it. -/
def Tile.scrubbed (x : Tile) (owner : Bool) : Tile :=
  { lag := x.lag, draws := x.draws, frz := x.frz.filter fun f => f.1 != .debug && f.1 != .replay && f.1 != .undo, lastBal := x.lastBal, noCode := x.noCode, errbank := x.errbank, errEvts := x.errEvts, errAt := x.errAt
    errBase := x.errBase, corr := x.corr, strikes := x.strikes, busLog := if owner then x.busLog.filterMap keepSpares else x.busLog, badBus := x.badBus, monRom := x.monRom
    code := x.code.filter fun e => decide (120 * 4096 ≤ e.1) }

/-- What was asked of Rotrum for the job that ends: a restore, a pre-emption. -/
def ofJob (t : Turn) : Bool := match t with | .event _ _ _ .jobRestore => true | .event _ _ _ .preemptRequest => true | _ => false
/-- The scrub's effect; `owner`: an ownership has ended. -/
def State.scrubNow (s : State) (owner : Bool) : State :=
  { s with
    tiles := (s.tiles.map fun e => (e.1, e.2.scrubbed owner)).filter fun e => e.2 != {}
    flights := [], t2 := [], t2media := [], t2tag := [], range := [], ptRoot := 0, tlb := [], energy := [], worked := [], energyOff := [], ckpts := [], aborted := false, runs := []
    gangRel := [], restoreAt := none, cap := 28000, reqPoint := 4, chosen := 4, markSet := 0#256, lowWin := 0
    inputs := s.inputs.filter fun e => !ofJob e.2 }

/-- A scrub begins: its end comes within 1.5 s (R377). With `owner` it then frees sem0. -/
def State.startScrub (s : State) (owner : Bool) : State :=
  { s.scrubNow owner with scrubEnd := some (s.glob + 1 + Config.delay s.free % (1500 * msCycles s.point)), scrubFree := owner }.draw

/-- A resumption due on global cycle g at the latest. -/
def soonest (o : Option Nat) (g : Nat) : Option Nat := some (match o with | some u => min u g | none => g)
/-- The debug session ends: a halted domain and stopped tiles resume 400 global cycles on, or on an earlier cycle that a RESUME has named
(R395). -/
def State.closeDebug (s : State) : State :=
  { s with
    dbgAuth := false, dbgMask := 0#4, haltAt := none, haltLeft := 0
    resumeAt := if s.halted then soonest s.resumeAt (s.glob + 400) else s.resumeAt
    tiles := s.tiles.map fun e => (e.1, { e.2 with
      stepLeft := 0, frz := e.2.frz.map fun f => if f.1 = .debug then (.debug, soonest f.2 (s.glob + 400)) else f }) }

/-- What a command that is cut short reports: bytes moved of a STREAM (R384). -/
def HostJob.movedBytes (j : HostJob) : Nat := match j.i with | .stream .. => j.pos / 64 * 64 | _ => 0
/-- The old owner's commands under way end with 0x0A, for a scrub runs (log 92); their records follow. -/
def Port.endJobs (p : Port) : Port :=
  p.settle (p.jobs.map fun j => if j.started && j.fin.isNone then { j with fin := some (0x0A, j.movedBytes) } else j)
/-- Ownership ends (R377): the session, the commands under way, the keys, then the scrub; sem0 is freed when it ends. A domain that one of these
commands had halted goes on. -/
def State.endOwnership (s : State) : State :=
  let s := if s.dbgAuth then s.closeDebug else s
  let s := match s.owner with | some b => s.upPort b Port.endJobs | none => s
  ({ s with challenge := none, dbgEver := false, imgHash := 0#512, keysEpoch := s.keysEpoch + 1, haltAt := none, haltLeft := 0
            resumeAt := if s.halted then soonest s.resumeAt (s.glob + 400) else s.resumeAt } : State).startScrub true

/-- ownershipTimeout (R377). -/
def execOwnershipTimeout (s : State) : Host.Outcome State Fault Refusal :=
  .next (if s.owner.isSome && s.scrubEnd.isNone && decide (s.idleSince + s.otmo * 1000 * msCycles s.point ≤ s.glob) then s.endOwnership else s)

/-- scrubEnd: sem0 is free from this cycle where the scrub ended an ownership or a boot. -/
def execScrubEnd (s : State) : Host.Outcome State Fault Refusal :=
  .next (match s.scrubEnd with
    | some e => if e ≤ s.glob then { s with scrubEnd := none, scrubFree := false, sem := if s.scrubFree then sset 0#32 s.sem 0 0#32 else s.sem } else s
    | none => s)

/-! ### Boot (R386, R387, R18, R378) -/

/-- Boot ends with both ports enabled (log 8). -/
def State.openPorts (s : State) : State := { s with portA := { s.portA with enabled := true }, portB := { s.portB with enabled := true } }
def execBoot (s : State) : Host.Outcome State Fault Refusal :=
  if s.boot ≠ .pending then .next s
  else
  let s := s.openPorts
  if !s.flashOk || !s.pufOk then .next { s with boot := .bootFail }
  else
    let m := buildMap (s.selfFail ++ s.recFail)
    let s := { s with seg := m.seg, ovl := m.ovl, defectCause := m.cause, boot := if m.cause = 0 then .normal else .defectLimit }
    .next (s.startScrub true)

/-! ### Halt, resume, step (R393, R394) -/

/-- The global cycle on which a CHECKPOINT under way stops the domain (R426). -/
def HostJob.stopsAt (j : HostJob) : Option Nat :=
  match j.i with | .checkpoint .. => if j.started && j.fin.isNone && j.stage == 1 then some j.at' else none | _ => none
/-- The global cycles on which the domain is to stop: those of CHECKPOINT, and that of HALT_AT. -/
def State.stopCycles (s : State) : List Nat := (s.portA.jobs ++ s.portB.jobs).filterMap HostJob.stopsAt ++ s.haltAt.toList
/-- domainHalt: on its global cycle every tile, router and engine stands still from now on. -/
def execDomainHalt (s : State) : Host.Outcome State Fault Refusal :=
  .next (if s.stopCycles.any fun g => decide (g ≤ s.glob) then
      { s with halted := true, haltAt := match s.haltAt with | some g => if g ≤ s.glob then none else some g | none => none }
    else s)

/-- domainResume. -/
def execDomainResume (s : State) : Host.Outcome State Fault Refusal :=
  .next (match s.resumeAt with
    | some u => if u ≤ s.glob then { s with halted := false, resumeAt := none } else s
    | none => s)

/-- Core c takes the first asynchronous cause that stands, the debug step among them, after the last tile cycle of a STEP: at the trap point of
the next, before the bundle due in it, which counts as a task cycle as that of every trap does (R200, R337, log 103). -/
def Tile.stepTrap (x : Tile) (tc c : Nat) : Tile :=
  let x := x.upC c fun y => { y with dbgStep := true, tsk := y.tsk + 1 }
  match x.asyncCause c true with
  | some i => (x.prime c).upC c fun y => (y.asyncTaken i).enter tc i
  | none => x
/-- stepEnd (R393): the last tile cycle of a STEP is over: its tasks take cause 0x23, and the tile is in a debug stop again. -/
def execStepEnd (s : State) : Host.Outcome State Fault Refusal :=
  let tc := s.tcyc s.curT
  .next (s.upHere fun x =>
    if x.stepLeft = 0 then x
    else if x.stepLeft = 1 then
      { (upto 0 4).foldl (fun x c => if (x.core c).mode == .task then x.stepTrap (tc + 1) c else x) x.dropCk with stepLeft := 0, frz := x.frz ++ [(.debug, none)] }
    else { x with stepLeft := x.stepLeft - 1 })

end Sys2Proof.Machine
end

