-- ==== Sys2Proof/Machine/Summary.lean ====
section
/-! DEFINITION. Summaries as values: QS, HH and DC, their folds, merges and queries (R182 to R197). A slot is 4,096 bytes from 4,096·z
of Core.z. -/

namespace Sys2Proof.Machine

/-- A saturating sum. -/
def satAdd (w a b : Nat) : Nat := min (a + b) (2 ^ w - 1)

/-- Items in order by a key, stable. -/
def insBy {α : Type} (lt : α → α → Bool) (x : α) : List α → List α
  | [] => [x]
  | y :: r => if lt y x || !lt x y then y :: insBy lt x r else x :: y :: r
def sortBy {α : Type} (lt : α → α → Bool) (l : List α) : List α := l.foldl (fun s x => insBy lt x s) []

/-- totalOrder between items that are not NaN (R183). -/
def ordKey (b : Nat) : Int := if b < 2 ^ 31 then b else -((b - 2 ^ 31 : Nat) : Int) - 1
def ordLt (a b : Nat) : Bool := decide (ordKey a < ordKey b)

/-! ### QS (R183 to R188) -/

structure Qs where
  /-- log2 k. -/
  par : Nat
  /-- The levels in use, level 0 first. -/
  lev : List (List Nat) := [[]]
  topw : Nat := 0
  coin : Nat
  n : Nat := 0
  mn : Nat := 0x7F80_0000
  mx : Nat := 0xFF80_0000
  nans : Nat := 0
  pois : Bool := false
  deriving DecidableEq, Repr

def Qs.lmax (q : Qs) : Nat := min 36 (1008 / 2 ^ q.par)

/-- coin (R184): the new state. -/
def coinStep (c : Nat) : Nat :=
  let x := Nat.xor c (c * 2 ^ 13 % 2 ^ 32)
  let x := Nat.xor x (x / 2 ^ 17)
  Nat.xor x (x * 2 ^ 5 % 2 ^ 32)

/-- halve (R185): what is kept, and the coin's state. -/
def halve (l : List Nat) (coin : Nat) : List Nat × Nat :=
  if l.isEmpty then ([], coin)
  else
    let c := coinStep coin
    let s := sortBy ordLt l
    (((s.zip (upto 0 s.length)).filter fun x => x.2 % 2 == c % 2).map (·.1), c)

def Qs.level (q : Qs) (h : Nat) : List Nat := q.lev.getD h []
def Qs.setLevel (q : Qs) (h : Nat) (l : List Nat) : Qs := { q with lev := q.lev.set h l }
/-- LEVELS rises to n. -/
def Qs.raise (q : Qs) (n t : Nat) : Qs :=
  if q.lev.length < n then { q with lev := q.lev ++ (upto 0 (n - q.lev.length)).map (fun _ => []), topw := t } else q

/-- append at the top level. -/
def Qs.appendTop (q : Qs) (x : Nat) : Qs :=
  let h := q.lmax - 1
  let l := q.level h ++ [x]
  if l.length = 2 ^ q.par then
    let r := halve l q.coin
    { q.setLevel h r.1 with coin := r.2, topw := q.topw + 1 }
  else q.setLevel h l

/-- deliver of items of weight 2^e, with its appends (R185). Each promotion goes one level up, so fuel 40 is enough. -/
def Qs.deliver : Nat → Qs → List Nat → Nat → Qs
  | 0, q, _, _ => q
  | n + 1, q, l, e =>
    if e < q.lmax - 1 then
      l.foldl (fun q x =>
        let v := q.level e ++ [x]
        if v.length = 2 ^ q.par then
          let r := halve v q.coin
          Qs.deliver n { q.setLevel e [] with coin := r.2 } r.1 (e + 1)
        else q.setLevel e v) (q.raise (e + 1) e)
    else
      let q := q.raise q.lmax (q.lmax - 1)
      let h := q.lmax - 1
      let q := (upto 0 (e - q.topw)).foldl (fun q _ =>
        let r := halve (q.level h) q.coin
        { q.setLevel h r.1 with coin := r.2, topw := q.topw + 1 }) q
      let r := (upto 0 (q.topw - e)).foldl (fun (r : List Nat × Nat) _ => halve r.1 r.2) (l, q.coin)
      r.1.foldl Qs.appendTop { q with coin := r.2 }

def minOrd (a b : Nat) : Nat := if ordLt b a then b else a
def maxOrd (a b : Nat) : Nat := if ordLt a b then b else a

/-- One lane of a fold (R186). -/
def Qs.fold1 (q : Qs) (x : Nat) (poi : Bool) : Qs :=
  if poi then { q with pois := true }
  else if (fp32.unpack x).isNan then { q with nans := satAdd 32 q.nans 1 }
  else Qs.deliver 40 { q with n := satAdd 64 q.n 1, mn := minOrd q.mn x, mx := maxOrd q.mx x } [x] 0

/-- skmerge (R187). -/
def Qs.merge (q s : Qs) : Qs :=
  let q := { q with n := satAdd 64 q.n s.n, nans := satAdd 32 q.nans s.nans, pois := q.pois || s.pois, mn := minOrd q.mn s.mn, mx := maxOrd q.mx s.mx }
  (s.lev.zip (upto 0 s.lev.length)).foldl (fun q x => Qs.deliver 40 q x.1 (if x.2 + 1 < s.lev.length then x.2 else s.topw)) q

/-- Items with their weights. -/
def Qs.items (q : Qs) : List (Nat × Nat) :=
  (q.lev.zip (upto 0 q.lev.length)).foldl (fun a x => a ++ x.1.map fun i => (i, 2 ^ (if x.2 + 1 < q.lev.length then x.2 else q.topw))) []
def weightOf (l : List (Nat × Nat)) : Nat := l.foldl (fun a x => a + x.2) 0

/-- The least item at which the running weight reaches a target. -/
def reach (target : Int) (acc : Nat) : List (Nat × Nat) → Option Nat
  | [] => none
  | x :: r => if target ≤ (acc + x.2 : Nat) then some x.1 else reach target (acc + x.2) r

/-- skq (R188); `none` where no item is held (log 16). -/
def Qs.query (q : Qs) (phi : Nat) : Option Nat × BitVec 11 :=
  let f := fp32.unpack phi
  let one : Dy := ⟨1, 0⟩
  if f.isNan || f.isInf || decide (f.dy.m < 0) || one.lt f.dy then (some fp32.nan, fNV)
  else if q.n = 0 then (some fp32.nan, 0#11)
  else if f.isZero then (some q.mn, 0#11)
  else if f.dy.eqv one then (some q.mx, 0#11)
  else
    let l := sortBy (fun a b => ordLt a.1 b.1) q.items
    let d := f.dy
    -- ceil(m·2^e·W): e is below 0 here
    let t : Int := -((-(d.m * weightOf l)) / (2 ^ (-d.e).toNat : Nat))
    (reach t 0 l, 0#11)

/-- skrank (R188). -/
def Qs.rank (q : Qs) (x : Nat) : Option Nat × BitVec 11 :=
  let f := fp32.unpack x
  if f.isNan then (some fp32.nan, fNV)
  else if q.n = 0 then (some fp32.nan, 0#11)
  else
    let w := weightOf q.items
    if w = 0 then (none, 0#11)
    else
      let c := weightOf (q.items.filter fun i => !f.less (fp32.unpack i.1))
      if c = 0 then (some 0, 0#11)
      else
        let k := bitLen w + 40
        let r := fp32.round rmRne false false (c * 2 ^ k / w) (-(k : Int)) (c * 2 ^ k % w != 0)
        (some r.1, r.2)

/-! ### HH (R189 to R191) -/

structure Hh where
  /-- log2 m. -/
  par : Nat
  n : Nat := 0
  /-- Key, count, overestimate of each entry in use. -/
  es : List (Nat × Nat × Nat) := []
  pois : Bool := false
  deriving DecidableEq, Repr

/-- Changes the first entry that satisfies a test. -/
def modFirst {α : Type} (p : α → Bool) (f : α → α) : List α → List α
  | [] => []
  | x :: r => if p x then f x :: r else x :: modFirst p f r

/-- One input into an HH summary (R190): of two entries with its key the first counts (log 119). -/
def Hh.fold1 (h : Hh) (x : Nat) (poi : Bool) : Hh :=
  if poi then { h with pois := true }
  else
    let h := { h with n := satAdd 64 h.n 1 }
    if h.es.any fun e => e.1 == x then { h with es := modFirst (fun e => e.1 == x) (fun e => (e.1, satAdd 32 e.2.1 1, e.2.2)) h.es }
    else if h.es.length < 2 ^ h.par then { h with es := h.es ++ [(x, 1, 0)] }
    else
      let least := h.es.foldl (fun m e => min m e.2.1) (2 ^ 32)
      { h with es := modFirst (fun e => e.2.1 == least) (fun e => (x, satAdd 32 e.2.1 1, e.2.1)) h.es }

/-- CNT descending, then KEY ascending. -/
def hhLt (a b : Nat × Nat × Nat) : Bool := decide (b.2.1 < a.2.1) || (a.2.1 == b.2.1 && decide (a.1 < b.1))

def Hh.merge (h s : Hh) : Hh :=
  let l := s.es.foldl (fun l (e : Nat × Nat × Nat) =>
    if l.any fun f => f.1 == e.1 then
      modFirst (fun f => f.1 == e.1) (fun (f : Nat × Nat × Nat) => (f.1, satAdd 32 f.2.1 e.2.1, satAdd 32 f.2.2 e.2.2)) l
    else l ++ [e]) h.es
  { h with es := (sortBy hhLt l).take (2 ^ h.par), n := satAdd 64 h.n s.n, pois := h.pois || s.pois }

/-- The words `sktop` writes. -/
def Hh.top (h : Hh) : List Nat :=
  let l := sortBy hhLt h.es
  l.foldl (fun a e => a ++ [e.1, e.2.1, e.2.2]) [] ++ (upto 0 (3 * (2 ^ h.par - l.length))).map fun _ => 0

/-! ### DC (R192 to R194) -/

structure Dc where
  par : Nat
  n : Nat := 0
  regs : SMap Nat := []
  pois : Bool := false
  deriving DecidableEq, Repr

def mix64 (key : Nat) : Nat :=
  let z := (key + 0x7B1D_3A95_E264_0C4F) % 2 ^ 64
  let z := Nat.xor z (z / 2 ^ 31) * 0xB5C9_2E7D_0F83_A6E1 % 2 ^ 64
  let z := Nat.xor z (z / 2 ^ 29) * 0x94E3_6D2B_C71F_58A9 % 2 ^ 64
  Nat.xor z (z / 2 ^ 32)

def Dc.fold1 (d : Dc) (x : Nat) (poi : Bool) : Dc :=
  if poi then { d with pois := true }
  else
    let z := mix64 x
    let j := z / 2 ^ (64 - d.par)
    let rho := 64 - d.par - bitLen (z % 2 ^ (64 - d.par)) + 1
    { d with n := satAdd 64 d.n 1, regs := sset 0 d.regs j (max (sget 0 d.regs j) rho) }

def Dc.merge (d s : Dc) : Dc :=
  { d with n := satAdd 64 d.n s.n, pois := d.pois || s.pois
           regs := s.regs.foldl (fun r e => sset 0 r e.1 (max (sget 0 r e.1) e.2)) d.regs }

/-- The natural logarithm of a positive integer in fixed point. -/
def fxLnNat (p x : Nat) : Int :=
  let k := bitLen x - 1
  let m : Int := fxOf p ⟨x, -(k : Int)⟩
  let one : Int := (2 ^ p : Nat)
  k * fxLn2 p + 2 * fxAtan p false (fxDiv p (m - one) (m + one))

/-- a/b to the nearest integer, ties to even. -/
def nearest (a b : Nat) : Nat :=
  let q := a / b; let r := 2 * (a % b)
  if b < r ∨ (r = b ∧ q % 2 = 1) then q + 1 else q

/-- skcard (R194). -/
def Dc.card (d : Dc) : Nat :=
  let m := 2 ^ d.par
  let v := m - d.regs.length
  -- Z in units of 2^-55
  let z := d.regs.foldl (fun a e => a + 2 ^ (55 - e.2)) (v * 2 ^ 55)
  let num := 7213 * m * m * m * 2 ^ 55
  let den := 10 * (1000 * m + 1079) * z
  let e := if 2 * num ≤ 5 * m * den ∧ 0 < v then
      (let p := 160; nearest (m * (fxLnNat p m - fxLnNat p v).toNat) (2 ^ p))
    else nearest num den
  min e (2 ^ 32 - 1)

/-! ### Slots as bytes (R182, R183, R189, R192, R197) -/

/-- What a valid slot holds. -/
inductive Summ where
  | empty
  | qs (q : Qs)
  | hh (h : Hh)
  | dc (d : Dc)
  deriving DecidableEq, Repr

/-- Bytes of an image: a map from offset 0. -/
abbrev Img := SMap Byte
def Img.num (m : Img) (o n : Nat) : Nat := sgetBytes m o n

/-- The byte fields of a summary: offset, length, value. -/
def Summ.fields : Summ → List (Nat × Nat × Nat)
  | .empty => []
  | .qs q =>
    [(0, 1, 1), (1, 1, q.lev.length), (2, 1, q.par + if q.pois then 128 else 0), (3, 1, q.topw), (4, 4, q.coin), (8, 8, q.n), (16, 4, q.mn)
    , (20, 4, q.mx), (24, 4, q.nans)]
    ++ (q.lev.zip (upto 0 q.lev.length)).foldl (fun a x => a ++ (28 + x.2, 1, x.1.length) ::
        (x.1.zip (upto 0 x.1.length)).map fun y => (64 + 4 * 2 ^ q.par * x.2 + 4 * y.2, 4, y.1)) []
  | .hh h =>
    [(0, 1, 2), (2, 1, h.par + if h.pois then 128 else 0), (8, 8, h.n), (16, 2, h.es.length)]
    ++ (h.es.zip (upto 0 h.es.length)).foldl (fun a x => a ++ [(64 + 12 * x.2, 4, x.1.1), (68 + 12 * x.2, 4, x.1.2.1), (72 + 12 * x.2, 4, x.1.2.2)]) []
  | .dc d => [(0, 1, 3), (2, 1, d.par + if d.pois then 128 else 0), (8, 8, d.n)] ++ d.regs.map fun e => (64 + e.1, 1, e.2)

/-- The image of a summary. -/
def Summ.image (s : Summ) : Img := s.fields.foldl (fun m f => ssetBytes m f.1 f.2.1 f.2.2) []

/-- Reads an image's fields by TYPE, whether or not it is valid. -/
def readImage (m : Img) : Summ :=
  let par := m.num 2 1 % 16
  let pois := decide (128 ≤ m.num 2 1)
  match m.num 0 1 with
  | 1 =>
    let n := m.num 1 1
    .qs { par := par, topw := m.num 3 1, coin := m.num 4 4, n := m.num 8 8, mn := m.num 16 4, mx := m.num 20 4, nans := m.num 24 4, pois := pois
          lev := (upto 0 n).map fun h => (upto 0 (m.num (28 + h) 1)).map fun q => m.num (64 + 4 * 2 ^ par * h + 4 * q) 4 }
  | 2 =>
    .hh { par := par, n := m.num 8 8, pois := pois
          es := (upto 0 (m.num 16 2)).map fun j => (m.num (64 + 12 * j) 4, m.num (68 + 12 * j) 4, m.num (72 + 12 * j) 4) }
  | 3 => .dc { par := par, n := m.num 8 8, pois := pois
               regs := (m.filter fun e => decide (64 ≤ e.1) && decide (e.1 < 64 + 2 ^ par)).map fun e => (e.1 - 64, e.2.toNat) }
  | _ => .empty

/-- Legal TYPE and PARAM in bytes 0 to 3 (R182, R197). -/
def headOk (m : Img) : Bool :=
  let par := m.num 2 1 % 16
  match m.num 0 1 with
  | 0 => m.num 1 3 == 0
  | 1 => decide (3 ≤ par) && decide (par ≤ 6) && m.num 2 1 / 16 % 8 == 0
  | 2 => decide (6 ≤ par) && decide (par ≤ 8) && m.num 2 1 / 16 % 8 == 0 && m.num 1 1 == 0 && m.num 3 1 == 0
  | 3 => decide (10 ≤ par) && decide (par ≤ 11) && m.num 2 1 / 16 % 8 == 0 && m.num 1 1 == 0 && m.num 3 1 == 0
  | _ => false

/-- A valid image (R197): its fields are in range, and every byte outside them is zero. -/
def validImage (m : Img) : Option Summ :=
  if headOk m then
    let s := readImage m
    let ok := match s with
      | .empty => true
      | .qs q =>
        let l := q.lev.length
        decide (1 ≤ l) && decide (l ≤ q.lmax) && (q.lev.all fun v => decide (v.length < 2 ^ q.par))
        && (if l < q.lmax then q.topw == l - 1 else decide (q.lmax - 1 ≤ q.topw)) && q.coin != 0
        && (q.lev.all fun v => v.all fun x => !(fp32.unpack x).isNan)
      | .hh h => decide (h.es.length ≤ 2 ^ h.par)
      | .dc d => d.regs.all fun e => decide (e.2 ≤ 65 - d.par)
    if ok && s.image == m then some s else none
  else none

/-- A new summary (R184, R195, R199): type 1 QS, 2 HH, 3 DC. -/
def newSumm (ty par z : Nat) (seed : PWord) : Summ :=
  match ty with
  | 1 =>
    let c := Nat.xor seed.val.toNat z
    .qs { par := par, coin := if c = 0 then 0x6D2B_79F5 else c, pois := seed.poi }
  | 2 => .hh { par := par }
  | _ => .dc { par := par }

def Summ.setPois : Summ → Summ
  | .empty => .empty
  | .qs q => .qs { q with pois := true }
  | .hh h => .hh { h with pois := true }
  | .dc d => .dc { d with pois := true }
def Summ.pois : Summ → Bool
  | .empty => false
  | .qs q => q.pois
  | .hh h => h.pois
  | .dc d => d.pois

/-- Folds the selected lanes (R186, R190, R193); `none` where the slot is empty or TOPW would pass 255. -/
def Summ.fold (s : Summ) (v : VRow) (m : MaskReg) : Option Summ :=
  let lanes := ((upto 0 64).filter fun i => m.val.getLsbD i).map fun i => (v.lane 32 i, v.lpoi 32 i || m.poi.getLsbD i)
  match s with
  | .empty => none
  | .qs q => let q := lanes.foldl (fun q x => q.fold1 x.1 x.2) q; if q.topw ≤ 255 then some (.qs q) else none
  | .hh h => some (.hh (lanes.foldl (fun h x => h.fold1 x.1 x.2) h))
  | .dc d => some (.dc (lanes.foldl (fun d x => d.fold1 x.1 x.2) d))

/-- skmerge (R199). -/
def Summ.merge (d s : Summ) : Option Summ :=
  match d, s with
  | .empty, s => some s
  | d, .empty => some d
  | .qs a, .qs b => if a.par = b.par then (let q := a.merge b; if q.topw ≤ 255 then some (.qs q) else none) else none
  | .hh a, .hh b => if a.par = b.par then some (.hh (a.merge b)) else none
  | .dc a, .dc b => if a.par = b.par then some (.dc (a.merge b)) else none
  | _, _ => none

/-- A core's slot. -/
def Core.slotImg (c : Core) (z : Nat) : Img :=
  (c.z.filter fun e => decide (4096 * z ≤ e.1) && decide (e.1 < 4096 * z + 4096)).map fun e => (e.1 - 4096 * z, e.2)
def Core.summ (c : Core) (z : Nat) : Summ := readImage (c.slotImg z)
def Core.setImg (c : Core) (z : Nat) (m : Img) : Core :=
  { c with z := (c.z.filter fun e => decide (e.1 < 4096 * z)) ++ m.map (fun e => (e.1 + 4096 * z, e.2))
                ++ c.z.filter fun e => decide (4096 * z + 4096 ≤ e.1) }

/-- A slot gets a new image; the lines whose bytes change are touched (R406). -/
def Tile.setSlot (x : Tile) (c z : Nat) (m : Img) : Tile :=
  let old := (x.core c).slotImg z
  let x := (upto 0 64).foldl (fun x l => if sgetBytes old (64 * l) 64 == sgetBytes m (64 * l) 64 then x else x.touch (2 + c) (64 * z + l)) x
  x.upC c fun y => y.setImg z m

end Sys2Proof.Machine
end

