-- ==== Sys2Proof/Machine/Engine.lean ====
section
/-! DEFINITION. The issue of summary commands (R176, R179, R198) and of copies (R243, R244). -/

namespace Sys2Proof.Machine

/-! ### Summary commands -/

/-- A summary command enters its core's queue (R176); `tr` is its strict-mode record. -/
def skEnter (k : BitVec 5) (f : State → SumCmd → SumCmd) (tr : Iss Unit := pure ()) : Iss Unit := do
  takeToken k
  tr
  fun s => need (decide (s.core.sumQ.length < 16)) cSched 0#32 0#32 s
  act fun s =>
    let c : SumCmd := { op := 0, k := k.toNat, mon := s.core.inMon, id := s.core.seq, slot := s.slot, pc := s.core.pc, issue := s.tcyc s.curT }
    let c := f s c
    s.upCore fun y => { y with sumQ := y.sumQ ++ [c] }

/-- `op` is the major opcode (R198). -/
def skSlot (op : Nat) (z : BitVec 3) (x : Nat) (k : BitVec 5) : Iss Unit := skEnter k fun _ c => { c with op := op, z := z.toNat, x := x }

def execSkinitQs (z : BitVec 3) (size : BitVec 2) (k : BitVec 5) : State → Host.Outcome State Fault Refusal :=
  issue (skEnter k fun _ c => { c with op := 0x10, z := z.toNat, x := 1, y := 3 + size.toNat })
def execSkinitHh (z : BitVec 3) (size : BitVec 2) (k : BitVec 5) : State → Host.Outcome State Fault Refusal :=
  issue (skEnter k fun _ c => { c with op := 0x10, z := z.toNat, x := 2, y := 6 + size.toNat })
def execSkinitDc (z : BitVec 3) (size : BitVec 2) (k : BitVec 5) : State → Host.Outcome State Fault Refusal :=
  issue (skEnter k fun _ c => { c with op := 0x10, z := z.toNat, x := 3, y := 10 + size.toNat })

def execSkseed (r : BitVec 6) (k : BitVec 5) : State → Host.Outcome State Fault Refusal := issue do
  let x ← readS r
  skEnter k fun _ c => { c with op := 0x11, scal := x }

def execSkfold (z : BitVec 3) (v : BitVec 7) (mk : BitVec 3) (k : BitVec 5) : State → Host.Outcome State Fault Refusal := issue do
  let x ← readV v
  let m ← readM mk
  skEnter k fun _ c => { c with op := 0x12, z := z.toNat, vrow := x, mask := m }

def execSkmerge (zd zs : BitVec 3) (k : BitVec 5) : State → Host.Outcome State Fault Refusal := issue (skSlot 0x13 zd zs.toNat k)

/-- A query's destination: a scalar, tracked in strict mode, or an SDQ entry reserved now (R226, R236). -/
def skDest (d : BitVec 6) (k : BitVec 5) (f : State → SumCmd → SumCmd) : Iss Unit := fun s =>
  if s.core.sAlias d then
    (skEnter k fun s' c => { f s' c with q := some s.core.bank.sdqSeq }) (s.upCore fun c => c.setBank (c.bank.reserveSdq false))
  else skEnter k f (track s.core.sSpace d.toNat 1 k) s

def execSkq (d : BitVec 6) (z : BitVec 3) (r : BitVec 6) (k : BitVec 5) : State → Host.Outcome State Fault Refusal := issue do
  let x ← readS r
  skDest d k fun _ c => { c with op := 0x14, z := z.toNat, x := d.toNat, scal := x }
def execSkrank (d : BitVec 6) (z : BitVec 3) (r : BitVec 6) (k : BitVec 5) : State → Host.Outcome State Fault Refusal := issue do
  let x ← readS r
  skDest d k fun _ c => { c with op := 0x15, z := z.toNat, x := d.toNat, scal := x }
def execSkcard (d : BitVec 6) (z : BitVec 3) (k : BitVec 5) : State → Host.Outcome State Fault Refusal :=
  issue (skDest d k fun _ c => { c with op := 0x16, z := z.toNat, x := d.toNat })

/-- Bytes an sktop writes for the slot as it stands. -/
def Core.topBytes (c : Core) (z : Nat) : Nat := match c.summ z with | .hh h => 12 * 2 ^ h.par | _ => 0
/-- Bytes an sktop issued now will write, as the queued commands leave the slot: after a skinit of it its size, after a skclr none, else as it
stands. A queued skld shows its size when the sktop starts (R226, log 56). -/
def Core.topAhead (c : Core) (z : Nat) : Nat :=
  c.sumQ.foldl (fun n q => if q.z ≠ z then n else if q.op = 0x10 then (if q.x = 2 then 12 * 2 ^ q.y else 0) else if q.op = 0x1A then 0 else n) (c.topBytes z)

def execSktop (z : BitVec 3) (ar : BitVec 4) (k : BitVec 5) : State → Host.Outcome State Fault Refusal := issue do
  let a ← readA ar
  let ea := a.val.toNat
  need (ea % 64 == 0) cAddr (BitVec.ofNat 32 ea)
  consume a.poi
  let n ← fun s => .ok (s.core.topAhead z.toNat, s)
  skEnter k (fun _ c => { c with op := 0x17, z := z.toNat, addr := ea }) (fun s => track 0 ea n k (2 * (8 * s.core.seq + s.slot) + 2) s)
def execSkld (z : BitVec 3) (ar : BitVec 4) (k : BitVec 5) : State → Host.Outcome State Fault Refusal := issue do
  let a ← readA ar
  let ea := a.val.toNat
  needAddr ea 4096 64 tmSize
  consume a.poi
  underWait 0 ea 4096
  skEnter k fun _ c => { c with op := 0x18, z := z.toNat, addr := ea }
def execSkst (z : BitVec 3) (ar : BitVec 4) (k : BitVec 5) : State → Host.Outcome State Fault Refusal := issue do
  let a ← readA ar
  let ea := a.val.toNat
  needAddr ea 4096 64 tmSize
  consume a.poi
  skEnter k (fun _ c => { c with op := 0x19, z := z.toNat, addr := ea }) (track 0 ea 4096 k)
def execSkclr (z : BitVec 3) (k : BitVec 5) : State → Host.Outcome State Fault Refusal := issue (skSlot 0x1A z 0 k)

/-! ### Copies -/

/-- Spaces of a copy's destination and source: DIR 0 copies tile memory to the dune store (R243). -/
def cpyDst (dt : Bool) : Nat := if dt then 0 else 1
def spaceSize (sp : Nat) : Nat := if sp = 0 then tmSize else dsSize

/-- cpy, cpy.red: `red` 0 plain, 1 f32, 2 bf16, 3 i32. -/
def copyOp (dt : Bool) (red : Nat) (k : BitVec 5) (ad asr : BitVec 4) (ln : BitVec 6) (start : BitVec 9) : Iss Unit := do
  let d ← readA ad
  let a ← readA asr
  let v ← peekS ln
  let l := v.getD {}
  let dst := d.val.toNat
  let src := a.val.toNat
  let len := l.val.toNat
  let sd := cpyDst dt
  let ss := 1 - sd
  need (len % 64 == 0 && decide (len ≤ 6291456) && addrOk dst len 64 (spaceSize sd)) cAddr d.val l.val
  need (addrOk src len 64 (spaceSize ss)) cAddr a.val l.val
  consume (d.poi || a.poi || l.poi)
  let _ ← takeS ln
  underS ln
  underWait ss src len
  underWait sd dst len
  let c ← startOf start
  takeToken k
  track sd dst len k
  fun s => need (decide (s.here.copyQ.length < 32)) cSched 0#32 0#32 s
  act fun s =>
    if len = 0 then (if c = s.clock then s.later 1 [.post k.toNat 0] else s.heldEntry c 1 (.post k.toNat 0))
    else
      let n := s.here.nextCmd
      let q : CopyCmd :=
        { dt := dt, red := red, dst := dst, src := src, len := len, core := s.curC, k := k.toNat, n := n.1, held := c != s.clock
          start := s.tileCycle c, issue := s.tcyc s.curT, slot := s.slot, mon := s.core.inMon }
      (s.upHere fun _ => { n.2 with copyQ := n.2.copyQ ++ [q] }).holdUntil c (.startCopy n.1)

def execCpyTd (k : BitVec 5) (ad asr : BitVec 4) (ln : BitVec 6) (start : BitVec 9) : State → Host.Outcome State Fault Refusal :=
  issue (copyOp false 0 k ad asr ln start)
def execCpyDt (k : BitVec 5) (ad asr : BitVec 4) (ln : BitVec 6) (start : BitVec 9) : State → Host.Outcome State Fault Refusal :=
  issue (copyOp true 0 k ad asr ln start)
def execCpyRedF32 (k : BitVec 5) (ad asr : BitVec 4) (ln : BitVec 6) (dt : Bool) (start : BitVec 9) : State → Host.Outcome State Fault Refusal :=
  issue (copyOp dt 1 k ad asr ln start)
def execCpyRedBf16 (k : BitVec 5) (ad asr : BitVec 4) (ln : BitVec 6) (dt : Bool) (start : BitVec 9) : State → Host.Outcome State Fault Refusal :=
  issue (copyOp dt 2 k ad asr ln start)
def execCpyRedI32 (k : BitVec 5) (ad asr : BitVec 4) (ln : BitVec 6) (dt : Bool) (start : BitVec 9) : State → Host.Outcome State Fault Refusal :=
  issue (copyOp dt 3 k ad asr ln start)

end Sys2Proof.Machine
end

