-- ==== Sys2Proof/Machine/SummaryRun.lean ====
section
/-! DEFINITION. The summary engine at work: a command's start, its outcome, its tile-memory lines and its post (R176 to R181, R195, R199);
with the claim an asynchronous access lays on a bank (R231). -/

namespace Sys2Proof.Machine

/-! ### Asynchronous accesses (R231) -/

/-- No other access uses the bank of the line at address a in this cycle. -/
def Tile.bankFree (x : Tile) (a : Nat) : Bool := !(x.banks.any fun b => b.1 == a / 64 % 32)
/-- An asynchronous access takes the bank of the line at a. -/
def Tile.claim (x : Tile) (a : Nat) : Tile := { x with banks := x.banks ++ [(a / 64 % 32, ⟨0, 0, 0, 0, 7, 0, a, 64⟩)] }

/-! ### Outcomes (R199) -/

/-- What a summary command does when it completes; `none` for a failed one (R179). -/
structure SumOut where
  slot : Option Img := none
  seed : Option PWord := none
  res : Option PWord := none
  flags : BitVec 11 := 0#11
  deriving DecidableEq, Repr

/-- LEVELS and TOPW of bytes 0 to 3 (R197), beside `headOk`. -/
def levelsOk (m : Img) : Bool :=
  let lmax := min 36 (1008 / 2 ^ (m.num 2 1 % 16))
  m.num 0 1 != 1 || (decide (1 ≤ m.num 1 1) && decide (m.num 1 1 ≤ lmax) &&
    (if m.num 1 1 < lmax then m.num 3 1 == m.num 1 1 - 1 else decide (lmax - 1 ≤ m.num 3 1)))

/-- The image that the lines of an skld give. -/
def SumCmd.loaded (q : SumCmd) : Img := (q.buf.zip (upto 0 q.buf.length)).foldl (fun m l => ssetBytes m (64 * l.2) 64 l.1) []

/-- skld (R195, R197; log 62 for a poisoned image of TYPE 0). -/
def SumCmd.loadOut (q : SumCmd) (seed : PWord) : Option SumOut :=
  let m := q.loaded
  if q.bufPoi then
    if !q.headPoi && headOk m && levelsOk m then
      let e := if m.num 0 1 = 0 then [] else (newSumm (m.num 0 1) (m.num 2 1 % 16) q.z seed).image
      some { slot := some (sset 0#8 e 2 (BitVec.ofNat 8 (m.num 2 1 % 16 + 128))) }
    else none
  else if (validImage m).isSome then some { slot := some m } else none

/-- A query's scalar: an operand's or the summary's poison poisons it (R195). -/
def queryOut (op : Nat) (m : Img) (x : Word) (r : Option Nat × BitVec 11) (poi : Bool) : Option SumOut :=
  some { res := some ⟨(match r.1 with | some v => BitVec.ofNat 32 v | none => Config.sketchEmpty op m x), poi⟩, flags := cleanFlags poi r.2 }

/-- The outcome of the command at the head of core c's queue (R199). -/
def Core.sumOut (c : Core) (q : SumCmd) : Option SumOut :=
  let s := c.summ q.z
  match q.op with
  | 0x10 => some { slot := some (newSumm q.x q.y q.z c.seed).image }
  | 0x11 => some { seed := some q.scal }
  | 0x12 => (s.fold q.vrow q.mask).map fun s => { slot := some s.image }
  | 0x13 => if s = .empty then some { slot := some (c.slotImg q.x) } else (s.merge (c.summ q.x)).map fun r => { slot := some r.image }
  | 0x14 => (match s with | .qs k => queryOut q.op s.image q.scal.val (k.query q.scal.val.toNat) (q.scal.poi || k.pois) | _ => none)
  | 0x15 => (match s with | .qs k => queryOut q.op s.image q.scal.val (k.rank q.scal.val.toNat) (q.scal.poi || k.pois) | _ => none)
  | 0x16 => (match s with | .dc d => queryOut q.op s.image q.scal.val (some d.card, 0#11) d.pois | _ => none)
  | 0x17 => (match s with | .hh h => if q.addr + 12 * 2 ^ h.par ≤ tmSize then some {} else none | _ => none)
  | 0x18 => q.loadOut c.seed
  | 0x19 => some {}
  | _ => some { slot := some [] }

/-! ### Time (R177) -/

/-- Coins drawn from state a until state b, counting compactions. -/
def coinCount (a b : Nat) : Nat → Nat
  | 0 => 0
  | n + 1 => if a = b then 0 else coinCount (coinStep a) b n + 1
/-- The coin of a summary. -/
def Summ.coin : Summ → Nat
  | .qs q => q.coin
  | _ => 1
/-- Items a QS holds. -/
def Summ.held : Summ → Nat
  | .qs q => q.items.length
  | _ => 0
/-- The term of a bound that compactions add: c·(2k + 8). -/
def sumCompact (s : Summ) (o : Option SumOut) : Nat :=
  match s, o with
  | .qs q, some { slot := some m, .. } => coinCount q.coin (readImage m).coin 4096 * (2 * 2 ^ q.par + 8)
  | _, _ => 0
/-- Lines of tile memory that a command moves. -/
def Core.sumLines (c : Core) (q : SumCmd) : Nat :=
  match q.op with
  | 0x17 => if (c.sumOut q).isSome then c.topBytes q.z / 64 else 0
  | 0x18 => 64
  | 0x19 => 64
  | _ => 0
/-- Cycles a command may take from its start to its post, over those in which its lines move or yield. -/
def Core.sumBound (c : Core) (q : SumCmd) : Nat :=
  let s := c.summ q.z
  match q.op with
  | 0x11 => 1
  | 0x10 => 66
  | 0x1A => 66
  | 0x12 => (match s with | .hh _ => 132 | .dc _ => 6 | _ => 4 + sumCompact s (c.sumOut q))
  | 0x13 => (match s with | .hh h => 72 + 6 * 2 ^ h.par | _ => 72 + sumCompact s (c.sumOut q))
  | 0x14 => 16 + 2 * s.held
  | 0x15 => 16 + 2 * s.held
  | 0x16 => 16 + (match s with | .dc d => 2 ^ d.par / 8 | _ => 0)
  | 0x17 => 16
  | _ => 5

/-- summaryCommandStart (R176): at the end of the cycle in which the command is the oldest. Its duration is free within the bound of R177. -/
def execSummaryCommandStart (s : State) : Host.Outcome State Fault Refusal :=
  let tc := s.tcyc s.curT
  match s.core.sumQ with
  | q :: r =>
    if q.started then .next s
    else
      let b := s.core.sumBound q
      let d := Config.delay s.free
      let at' := if q.op = 0x17 ∨ q.op = 0x18 ∨ q.op = 0x19 then max tc (q.issue + 3) + d % (b - 1) else tc + 1 + d % b
      .next (s.upCore fun c =>
        let c := if q.op = 0x17 then c.retrack (2 * (8 * q.id + q.slot) + 2) 0 q.addr (c.topBytes q.z) else c
        { c with sumQ := { q with started := true, done := at' } :: r }).draw
  | [] => .next s

/-! ### Lines (R180, R195) -/

/-- Tile memory as an skld of bundle `id` sees it: every store and atomic of its own or an earlier bundle that has yet to perform is in it, in the
order in which they perform (R180). The monitor's does not see what a trap has captured of the task's (log 61). -/
def Tile.storesSeen (x : Tile) (c : Nat) (mon : Bool) (id : Nat) : Tile :=
  let l := (inLandingOrder ((x.core c).pend.filter fun p => p.mon == mon && decide (p.id ≤ id))).filter fun e => match e.2 with
    | .store .. => true | .amoRead .. => true | .amoWrite .. => true | _ => false
  l.foldl (fun x e => x.viewEff e.2) x

/-- The next line of the command at the head of core c's queue, where it has one and its bank is free. -/
def Tile.sumLine (x : Tile) (c tc : Nat) : Tile :=
  let y := x.core c
  match y.sumQ with
  | q :: r =>
    let n := y.sumLines q
    let a := q.addr + 64 * q.pos
    if !q.started || n ≤ q.pos || tc < q.done || !x.bankFree a then x
    else
      let x := x.claim a
      let put (f : SumCmd → SumCmd) (x : Tile) : Tile := x.upC c fun y => { y with sumQ := { f q with pos := q.pos + 1, done := tc + 1 } :: r }
      if q.op = 0x18 then
        let x := x.meet 0 a 64
        let v := x.storesSeen c q.mon q.id
        let p := v.tmPoiR a 64
        put (fun q => { q with buf := q.buf ++ [v.tmRead a 64], bufPoi := q.bufPoi || p != 0, headPoi := q.headPoi || (q.pos == 0 && p.testBit 0) }) x
      else if q.op = 0x19 then put id (x.tmWrite a 64 (sgetBytes (y.slotImg q.z) (64 * q.pos) 64) 0)
      else
        let s := y.summ q.z
        let w := match s with | .hh h => (h.top.drop (16 * q.pos)).take 16 | _ => []
        put id (x.tmWrite a 64 (w.reverse.foldl (fun v e => v * 2 ^ 32 + e) 0) (if s.pois then 65535 else 0))
  | [] => x

/-! ### Completion (R176, R178, R179) -/

/-- What lands with the post of a command: its result first, then the token. -/
def SumCmd.effs (q : SumCmd) (o : Option SumOut) : List Eff :=
  (match o with
   | some { res := some v, .. } =>
     (match q.q with
      | some n => [Eff.sdq n (v.val.setWidth 2048) (BitVec.ofNat 64 (b2n v.poi))]
      | none => [Eff.sreg q.x v])
   | _ => []) ++ [.post q.k (if o.isSome then 0 else 3)]

/-- summaryCommandComplete: in the cycle of its post, before the cycle's other results land. The result counts as written by the issuing
bundle (R178); on a core in the monitor a task's result lands all the same (R181). -/
def execSummaryCommandComplete (s : State) : Host.Outcome State Fault Refusal :=
  let tc := s.tcyc s.curT
  let c := s.curC
  match s.core.sumQ with
  | q :: r =>
    if !q.started || decide (tc < q.done) || decide (q.pos < s.core.sumLines q) then .next s
    else
      let o := s.core.sumOut q
      let f := match o with | some v => if q.mon then 0#11 else v.flags | none => 0#11
      let s := s.upHere fun x =>
        let x := match o with | some { slot := some m, .. } => x.setSlot c q.z m | _ => x
        x.upC c fun y =>
          let y := match o with | some { seed := some v, .. } => { y with seed := v } | _ => y
          let y := { y with sumQ := r }
          if y.inMon && !q.mon then (q.effs o).foldl (fun y e => y.landEff false e) (y.push { at' := tc, mon := true, flags := f })
          else y.push { at' := if q.mon then tc else y.tsk, mon := q.mon, id := q.id, slot := q.slot, pc := q.pc, issue := q.issue, flags := f, effs := q.effs o }
      .next s.draw
  | [] => .next s

end Sys2Proof.Machine
end

