-- ==== Sys2Proof/Machine/CopyRun.lean ====
section
/-! DEFINITION. The copy engine at work, its bus retries and lane tests (R243, R244, R414, R415), the asynchronous accesses of a cycle
(R231), and the reduce operations of copies, deposits and targets (R243, R255, R269). -/

namespace Sys2Proof.Machine

/-! ### Reduce operations -/

/-- One element: 0 f32 add, 1 bf16 add, 2 i32 add, 3 f32 maximum, the buffer element first (R255). -/
def redElem (rop b x : Nat) : Nat × BitVec 11 :=
  match rop with
  | 0 => fp32.addSub rmRne false b x
  | 1 => fpBf16.addSub rmRne false b x
  | 2 => ((b + x) % 2 ^ 32, 0#11)
  | _ => fp32.minMax true b x
/-- Elements of w bits, n of them, with the poison of the 32-bit word that holds each; flags of clean elements only (R97, R112). -/
def redElems (rop w : Nat) (b x p : Nat) : Nat → Nat → Nat × BitVec 11
  | _, 0 => (0, 0#11)
  | i, n + 1 =>
    let r := redElem rop (b % 2 ^ w) (x % 2 ^ w)
    let t := redElems rop w (b / 2 ^ w) (x / 2 ^ w) p (i + 1) n
    (r.1 + 2 ^ w * t.1, cleanFlags (p.testBit (w * i / 32)) r.2 ||| t.2)
/-- n bytes combined: the result, its poison (the OR of both), the flags. -/
def redBytes (rop n b bp x xp : Nat) : Nat × Nat × BitVec 11 :=
  let w := if rop = 1 then 16 else 32
  let p := Nat.lor bp xp
  let r := redElems rop w b x p 0 (8 * n / w)
  (r.1, p, r.2)

/-! ### The vertical buses for token-posted transfers (R242, R414, R415) -/

/-- No static command uses column j's bus in tile cycle tc. -/
def Tile.busFree (x : Tile) (j tc : Nat) : Bool := !(x.paths.any fun p => p.onBus j tc tc)
/-- The failing lane of column j, the first of them; where none is left, the last that was swapped. -/
def Tile.busLane (x : Tile) (j : Nat) : Nat :=
  (x.badBus.find? fun b => b.1 == j).elim ((sget 0#32 x.busLog j).extractLsb' 16 8).toNat fun b => b.2.1
/-- A retry on column j (R415). -/
def Tile.countRetry (x : Tile) (j : Nat) : Tile :=
  let w := sget 0#32 x.busLog j
  let n := (w.extractLsb' 24 8).toNat
  if n = 255 then x else { x with busLog := sset 0#32 x.busLog j (w + 0x0100_0000#32) }
/-- The word that error source 0x03 names (R418). -/
def Tile.busWord (x : Tile) (j : Nat) : Word := BitVec.ofNat 32 (j * 256 + x.busLane j)

/-- One attempt at a transfer on column j that has failed `tries` times before: the attempts so far, whether it gets through, whether
the command fails. After the third retry the column runs a lane test; where it has named no lane, the command fails (R414). A transfer
that gets through after a retry or a swap is recorded once (R418, log 64). -/
def Tile.busTry (x : Tile) (gc free j tries : Nat) : Tile × Nat × Bool × Bool :=
  let x := if 1 ≤ tries ∧ tries ≤ 3 then x.countRetry j else x
  if tries = 4 ∧ (x.laneNone = some j ∨ x.busBad j = true) then
    ({ x.failBeat j with laneNone := none }.record gc true 0x03 (x.busWord j) none, 0, false, true)
  else if x.busBad j then
    let x := x.failBeat j
    let x := if tries = 3 then { x with laneTest := some (j, gc + 1 + Config.delay free % 64), laneNone := none } else x
    (x, tries + 1, false, false)
  else if tries = 0 then (x, 0, true, false)
  else ({ x.record gc false 0x03 (x.busWord j) none with badBus := x.badBus.filter fun b => !(b.1 == j && b.2.2 == some 0) }, 0, true, false)

/-- busLaneTest (R414): the test names the stuck lanes of the column and maps each to its lowest free spare, if there are enough. -/
def Tile.laneSwap (x : Tile) (j : Nat) : Tile :=
  let lanes := (x.badBus.filter fun b => b.1 == j && b.2.2 == none).map fun b => b.2.1
  let w := sget 0#32 x.busLog j
  let spares := (upto 0 8).filter fun i => !w.getLsbD (8 + i)
  if lanes.isEmpty then { x with laneNone := some j }
  else if spares.length < lanes.length then { x with wantMig := true }
  else
    let used := (spares.take lanes.length).foldl (fun v i => v ||| BitVec.ofNat 32 (2 ^ (8 + i))) w
    let v := (used &&& 0xFF00_FFFF#32) ||| BitVec.ofNat 32 (lanes.getLastD 0 % 256 * 2 ^ 16)
    { x with busLog := sset 0#32 x.busLog j v, badBus := x.badBus.filter fun b => !(b.1 == j && b.2.2 == none) }

def execBusLaneTest (s : State) : Host.Outcome State Fault Refusal :=
  .next (s.upHere fun x =>
    match x.laneTest with
    | some (j, e) => if e ≤ s.glob then { x with laneTest := none }.laneSwap j else x
    | none => x)

/-! ### The copy engine -/

/-- Order of copy commands: start cycle, then issue, core and slot (R244, R306). Nodes that start in one cycle stay in the order in which they
joined the queue (log 128). -/
def CopyCmd.before (a b : CopyCmd) : Bool :=
  decide (a.start < b.start) || (a.start == b.start && (decide (a.issue < b.issue) || (a.issue == b.issue &&
    (decide (a.core < b.core) || (a.core == b.core && decide (a.slot < b.slot))))))
/-- The command the engine executes: the one that is under way, or the first of those that have started. -/
def Tile.curCopy (x : Tile) (tc : Nat) : Option CopyCmd :=
  match x.copyQ.find? fun q => q.going with
  | some q => some q
  | none => (orderBy CopyCmd.before (x.copyQ.filter fun q => !q.held && decide (q.start ≤ tc))).head?
def Tile.putCopy (x : Tile) (q : CopyCmd) : Tile := { x with copyQ := x.copyQ.map fun r => if r.n = q.n then q else r }

/-- copyCommandStart (R244): the engine takes its next command; when its blocks move is free. -/
def execCopyCommandStart (s : State) : Host.Outcome State Fault Refusal :=
  let tc := s.tcyc s.curT
  match s.here.curCopy tc with
  | some q => if q.going then .next s else .next (s.upHere fun x => x.putCopy { q with going := true, wake := tc + Config.delay s.free % 64 }).draw
  | none => .next s

/-- The next 64-byte block of the copy under way, where bank and bus are free (R231, R242, R243). -/
def Tile.copyBlock (x : Tile) (gc free tc : Nat) : Tile :=
  match x.curCopy tc with
  | none => x
  | some q =>
    let o := 64 * q.pos
    let ta := (if q.dt then q.dst else q.src) + o
    let da := (if q.dt then q.src else q.dst) + o
    let j := da / sliceSize
    if !q.going || tc < q.wake || q.bad || q.len ≤ o || !x.bankFree ta || !x.busFree j tc || x.laneTest.isSome then x
    else
      let b := x.busTry gc free j q.tries
      let x := b.1.claim ta
      if b.2.2.2 then x.putCopy { q with bad := true }
      else if !b.2.2.1 then x.putCopy { q with tries := b.2.1 }
      else
        let x := if q.red = 0 then (if q.dt then x.meet 1 da 64 else x.meet 0 ta 64) else (x.meet 0 ta 64).meet 1 da 64
        let src := if q.dt then (x.dsRead da 64, x.dsPoiR da 64) else (x.tmRead ta 64, x.tmPoiR ta 64)
        let old := if q.dt then (x.tmRead ta 64, x.tmPoiR ta 64) else (x.dsRead da 64, x.dsPoiR da 64)
        let r := if q.red = 0 then (src.1, src.2, 0#11) else redBytes (q.red - 1) 64 old.1 old.2 src.1 src.2
        let x := if q.dt then x.tmWrite ta 64 r.1 r.2.1 else x.dsWrite da 64 r.1 r.2.1
        x.putCopy { q with pos := q.pos + 1, tries := 0, flags := q.flags ||| r.2.2 }

/-- copyComplete (R243, R244, R306): the last block has performed, or the command failed. A core's token posts among the cycle's
landings, after a tkz or tkr (R215, R216), and the flags land with it (R98). With argument 1, in the cycle of the last block, a
copy node is done; a failed one is a graph fault. The flags of a copy node go nowhere (log 115). -/
def execCopyComplete (s : State) : Host.Outcome State Fault Refusal :=
  let t := s.curT
  let tc := s.tcyc t
  match s.here.curCopy tc with
  | none => .next s
  | some q =>
    if !q.going || (!q.bad && decide (64 * q.pos < q.len)) || q.node.isSome != (s.curArg == 1) then .next s
    else
      let s := s.upHere fun x => { x with copyQ := x.copyQ.filter fun r => r.n != q.n }
      match q.node with
      | none => .next (s.upCoreAt t q.core fun c =>
          c.push { at' := tc, mon := true, flags := if q.mon then 0#11 else q.flags, effs := [.post q.k (if q.bad then 4 else 0)] })
      | some n =>
        if !(s.tile t).running || ((s.tile t).rt n).st != .running then .next s
        else
          let s := s.upT t fun x => x.done tc n (x.succs n)
          .next (if q.bad then s.graphFault t n 3 else s.checkEnd t)

/-! ### The asynchronous accesses of a cycle -/

/-- A context-region descriptor is read (R357). -/
def Tile.crgRead (x : Tile) (c : Nat) : Tile :=
  match (x.core c).crg.find? fun e => e.desc.isNone with
  | some e =>
    if x.bankFree e.addr then
      let x := (x.claim e.addr).meet 0 e.addr 32
      let d := bytesOf (x.tmRead e.addr 32) 32
      x.upC c fun y =>
        let rec fix (l : List CrgE) : List CrgE := match l with
          | [] => []
          | r :: t => if r.desc.isNone then { r with desc := some d } :: t else r :: fix t
        { y with crg := fix y.crg }
    else x
  | none => x

/-- asyncBankAccess (R231): engines take the banks that no static requester used, after the bus beats of the cycle, of which an lwt's first
falls in its issue cycle (R144). Their order among themselves is the model's (log 35). -/
def execAsyncBankAccess (s : State) : Host.Outcome State Fault Refusal :=
  let tc := s.tcyc s.curT
  .next (s.upHere fun x =>
    let x := (upto 0 4).foldl (fun x c => (x.sumLine c tc).crgRead c) (x.beats tc)
    (x.copyBlock s.glob s.free tc).stPerform tc).draw

end Sys2Proof.Machine
end

