-- ==== Sys2Proof/Machine/Network.lean ====
section
/-! DEFINITION. N kind (R81): sends, recv.arm, the collective queue's arming, side information, decode configuration, route words
(R261 to R264, R271, R277, R292, R294). -/

namespace Sys2Proof.Machine

/-- A window, ring or buffer code: 4 KiB·2^x (R255). -/
def winBytes (x : Nat) : Nat := 4096 * 2 ^ x

def Tile.chan (x : Tile) (n : Nat) : Chan := sget {} x.chans n
def Tile.upChan (x : Tile) (n : Nat) (f : Chan → Chan) : Tile := { x with chans := sset {} x.chans n (f (x.chan n)) }
def Tile.group (x : Tile) (n : Nat) : Group := sget {} x.groups n
def Tile.upGroup (x : Tile) (n : Nat) (f : Group → Group) : Tile := { x with groups := sset {} x.groups n (f (x.group n)) }
def Tile.entry (x : Tile) (n : Nat) : CqE := sget {} x.cq n
def Tile.upEntry (x : Tile) (n : Nat) (f : CqE → CqE) : Tile := { x with cq := sset {} x.cq n (f (x.entry n)) }

/-- A send form's checks on its channel (R263): the channel fault's condition, negated. `mode` 0 ring, 2 reduce. -/
def Chan.sends (c : Chan) (core mode n : Nat) : Bool :=
  c.sv && c.score == core && !c.grp && c.smode == mode && decide (n ≤ if mode = 0 then winBytes c.win else c.ring)
def Group.sends (g : Group) (core n : Nat) : Bool := g.v && g.core == core && !g.dsts.isEmpty && decide (n ≤ winBytes g.win)

/-- The send's job enters with its number; its source reads fall at s + 3 or later (R265). -/
def State.addSend (s : State) (c : Nat) (j : SendJob) : State :=
  let n := s.here.nextCmd
  let j := { j with n := n.1, held := c != s.clock, wake := s.tileCycle c + 3 }
  ((s.upHere fun _ => { n.2 with sends := n.2.sends ++ [j] }).holdUntil c (.startSend n.1)).sideEffect

/-- The common checks of a send after its channel (R263). -/
def sendChecks (ar : BitVec 4) (n : Nat) (start : BitVec 9) (tok : Nat) : Iss (Nat × Nat) := do
  let a ← readA ar
  let ea := a.val.toNat
  needAddr ea n 64 tmSize
  consume a.poi
  underWait 0 ea n
  let c ← startOf start
  takeToken (BitVec.ofNat 5 tok)
  pure (ea, c)

/-- send, send.rel, sendr (R262 to R264). `kind` is the packets' KIND: 1 ring, 2 reduce. sendr leaves SO as it is (log 125). -/
def sendOp (kind : Nat) (rel : Bool) (ch : BitVec 8) (ar : BitVec 4) (ln : BitVec 9) (start : BitVec 9) : Iss Unit := do
  let n := 64 * ln.toNat
  let d ← fun s => .ok (s.here.chan ch.toNat, s)
  fun s => need (d.sends s.curC (if kind = 1 then 0 else 2) n) cChan 0#32 0#32 s
  let r ← sendChecks ar n start d.stok
  act fun s =>
    let j : SendJob := { n := 0, core := s.curC, kind := kind, cls := d.cls + 4, dch := d.dch, dest := d.dest, rel := rel, tok := some d.stok
                         addr := r.1, len := n, seq := d.sq, so := d.so, ring := d.ring, wake := 0 }
    let s := s.addSend r.2 j
    s.upHere fun x =>
      let x := x.upChan ch.toNat fun c => { c with cr := if kind = 1 then c.cr - n else c.cr, sq := (c.sq + 1) % 2 ^ 32, so := if kind = 1 then (c.so + n) % c.ring else c.so }
      if rel then { x with rels := x.rels ++ [⟨s.curC, d.stok, d.dch, d.dest, d.sq, (n + 511) / 512⟩] } else x

def execSend (ch : BitVec 8) (ar : BitVec 4) (ln start : BitVec 9) : State → Host.Outcome State Fault Refusal := issue (sendOp 1 false ch ar ln start)
def execSendRel (ch : BitVec 8) (ar : BitVec 4) (ln start : BitVec 9) : State → Host.Outcome State Fault Refusal := issue (sendOp 1 true ch ar ln start)
def execSendr (ch : BitVec 8) (ar : BitVec 4) (ln start : BitVec 9) : State → Host.Outcome State Fault Refusal := issue (sendOp 2 false ch ar ln start)

/-- send.m (R262 to R264, R267). -/
def execSendM (g : BitVec 6) (ar : BitVec 4) (ln start : BitVec 9) : State → Host.Outcome State Fault Refusal := issue do
  let n := 64 * ln.toNat
  let d ← fun s => .ok (s.here.group g.toNat, s)
  fun s => need (d.sends s.curC n) cChan 0#32 0#32 s
  let r ← sendChecks ar n start d.stok
  act fun s =>
    let j : SendJob := { n := 0, core := s.curC, kind := 1, cls := d.cls + 4, dch := d.dch, dest := d.dsts.headD 0, dests := d.dsts, tok := some d.stok
                         addr := r.1, len := n, seq := d.sq, so := d.so, ring := d.ring, wake := 0 }
    (s.addSend r.2 j).upHere fun x => x.upGroup g.toNat fun c =>
      { c with cr := c.cr.map (· - n), sq := (c.sq + 1) % 2 ^ 32, so := (c.so + n) % c.ring }

/-- Whether a send form waits for credit (R264): its channel is in order and a credit is short. -/
def Tile.sendWaits (x : Tile) (core : Nat) : Instr → Bool
  | .send ch _ ln _ => let c := x.chan ch.toNat; c.sends core 0 (64 * ln.toNat) && decide (c.cr < 64 * ln.toNat)
  | .sendRel ch _ ln _ => let c := x.chan ch.toNat; c.sends core 0 (64 * ln.toNat) && decide (c.cr < 64 * ln.toNat)
  | .sendM g _ ln _ => let c := x.group g.toNat; c.sends core (64 * ln.toNat) && c.cr.any fun r => decide (r < 64 * ln.toNat)
  | _ => false

/-- recv.arm (R271). -/
def execRecvArm (ch : BitVec 8) (r : BitVec 6) : State → Host.Outcome State Fault Refusal := issue do
  let v ← peekS r
  fun s =>
    let c := s.here.chan ch.toNat
    need (c.rv && c.mode == 0 && c.rcore == s.curC && v.all fun x => x.val.toNat % 64 == 0 && decide (x.val.toNat ≤ c.u) && !x.poi) cChan 0#32 0#32 s
  let x ← readS r
  let n := x.val.toNat
  act fun s => if n = 0 then s else s.later 1 [.armRing ch.toNat n]

/-- An entry that qarm and qpost may touch (R277). -/
def CqE.mine (e : CqE) (core : Nat) : Bool := e.v && decide (1 ≤ e.kind) && decide (e.kind ≤ 3) && e.core == core && e.st != 2

def execQpost (e : BitVec 8) : State → Host.Outcome State Fault Refusal := issue do
  fun s => need ((s.here.entry e.toNat).mine s.curC) cColl 0#32 0#32 s
  act fun s => (s.later 1 [.qpost e.toNat]).sideEffect
def execQarm (e : BitVec 8) (k : BitVec 5) (r : BitVec 6) : State → Host.Outcome State Fault Refusal := issue do
  let v ← peekS r
  fun s => need ((s.here.entry e.toNat).mine s.curC && v.all fun x => decide (x.val.toNat < 65536) && !x.poi) cColl 0#32 0#32 s
  let x ← readS r
  act fun s => (s.later 1 [.qarm e.toNat k.toNat x.val]).sideEffect

/-- Block ids held, counting every side.add and side.rel already issued (R292). -/
def Tile.sideBids (x : Tile) : List Word :=
  let now := (x.side.filter fun e => e.2.held).map fun e => e.2.bid
  x.cores.foldl (fun l c => c.2.pend.foldl (fun l p => p.effs.foldl (fun l e =>
    match e with | .sideAdd b _ _ => l ++ [b] | .sideRel b => l.filter (· != b) | _ => l) l) l) now

/-- A block is declared: from the issue of its side.add on, what is written there is noted (R293). -/
def Tile.declare (x : Tile) (e : SideE) : Tile := { x with adding := x.adding.filter (fun d => d.bid != e.bid) ++ [e] }

def execSideAdd (id : BitVec 6) (ar : BitVec 4) (sl : BitVec 6) : State → Host.Outcome State Fault Refusal := issue do
  let v ← peekS2 id sl
  let a ← readA ar
  let ok (l : PWord) : Bool := let n := l.val.toNat; n % 64 == 0 && decide (64 ≤ n) && decide (n ≤ 32768) && addrOk a.val.toNat n 64 tmSize
  fun s => let h := s.here.sideBids; need ((v.1.all fun b => !b.poi && !h.contains b.val) && decide (h.length < 256)) cSide 0#32 0#32 s
  need (match v.2 with | some l => ok l | none => addrOk a.val.toNat 64 64 tmSize) cAddr a.val (v.2.getD {}).val
  consume (a.poi || v.2.any fun l => l.poi)
  let (b, l) ← readS2 id sl
  let n := l.val.toNat
  act fun s => ((s.upHere fun x => x.declare { held := true, addr := a.val.toNat, bid := b.val, len := n / 64 }).later 1 [.sideAdd b.val a.val.toNat (n / 64)]).sideEffect
def execSideRel (id : BitVec 6) : State → Host.Outcome State Fault Refusal := issue do
  let v ← peekS id
  fun s => need (v.all fun b => !b.poi && s.here.sideBids.contains b.val) cSide 0#32 0#32 s
  let b ← readS id
  act fun s => (s.later 1 [.sideRel b.val]).sideEffect

/-- dec.cfg (R294): the record waits for its asynchronous read; a pending record is PEND. -/
def execDecCfg (ar : BitVec 4) : State → Host.Outcome State Fault Refusal := issue do
  let a ← readA ar
  needAddr a.val.toNat 16 16 tmSize
  consume a.poi
  act fun s => (s.upHere fun x => { x with decCfgQ := x.decCfgQ ++ [(a.val.toNat, s.tcyc s.curT + 1)] }).sideEffect

/-- Reserved bits of a route-table word (R260, R283). -/
def routeReserved (ix : Nat) : Word :=
  if ix < 0x100 then 0xFFFF_FFF0#32
  else match ix % 4 with | 0 => 0x0000_0007#32 | 1 => 0x0000_FFFF#32 | 2 => 0x8000_0007#32 | _ => 0xFFFF_FF00#32
def routeOk (ix v : PWord) : Bool :=
  !ix.poi && !v.poi && (ix.val == 0#32 || (decide (0x100 ≤ ix.val.toNat) && decide (ix.val.toNat ≤ 0x1FF))) && (v.val &&& routeReserved ix.val.toNat) == 0#32

/-- route (R261). -/
def execRoute (cl : BitVec 2) (si sv : BitVec 6) : State → Host.Outcome State Fault Refusal := issue do
  let r ← peekS2 si sv
  need (match r with | (some i, v) => routeOk i (v.getD {}) | (none, v) => v.all fun v => !v.poi) cRoute
  let (i, v) ← readS2 si sv
  act fun s => (s.later 1 [.route (cl.toNat + 4) i.val.toNat v.val]).sideEffect

end Sys2Proof.Machine
end

