-- ==== Sys2Proof/Machine/Router.lean ====
section
/-! DEFINITION. Routers: next hops, copies, pairing at a coding router, held packets and resends (R258 to R260, R267, R282 to R290,
R298, R443). -/

namespace Sys2Proof.Machine

/-! ### Packets (R258, R286) -/

/-- Flits of a packet, its header included. -/
def Packet.flits (p : Packet) : Nat := 1 + match p.car with | some c => max c.nfl1 c.nfl2 | none => p.nfl
/-- Credits and acknowledgements have a lane of their own (R259). -/
def Packet.ackLane (p : Packet) : Bool := p.kind == 5 || p.kind == 6
/-- An acknowledgement of a coder (R288). -/
def Packet.coderAck (p : Packet) : Bool := p.kind == 6 && p.ofs.testBit 15
/-- What a packet still has to reach. -/
def Packet.targets (p : Packet) : List Nat := if p.dests.isEmpty then [p.dest] else p.dests

/-- Route word 0 of a class at a tile's router; Rotrum's words of classes 0 to 3 are 0 (log 36). It governs the class's acknowledgements and
credits too (R260). -/
def Tile.route0 (x : Tile) (cls : Nat) : Word := sget 0#32 x.routes (1024 * cls)

/-- The copies a router makes: one for each outgoing direction, 4 for its own tile (R267, R287). -/
def State.branches (s : State) (t : Nat) (p : Packet) : List (Nat × Packet) :=
  let w := (s.tile t).route0 p.cls
  let dirs := p.targets.map fun d => ((s.nextDir t w d).getD 4, d)
  ((upto 0 5).filter fun d => dirs.any fun e => e.1 == d).map fun d =>
    (d, if p.dests.isEmpty then p else { p with dests := (dirs.filter fun e => e.1 == d).map Prod.snd })

/-- A packet reaches the tile it names by one of its router's inputs. A tile in retention is left by an arrival (R421). -/
def State.arrive (s : State) (t via : Nat) (p : Packet) : State :=
  let p := { p with via := via }
  let l := if p.kind = 7 ∨ p.dests.isEmpty then [p] else p.dests.map fun d => { p with dest := d, dests := [d] }
  let s := if p.coderAck then s.upT t fun x => { x with arrq := x.arrq ++ l }
    else s.upT t fun x => l.foldl (fun x q => x.reached (s.nextCyc t) (.packet q) fun x => x.takePacket q) x
  if (s.tile t).ps = .retention then { s with inputs := s.inputs ++ [(s.gcyc, .event t 0 0 .retentionExit)] } else s

/-- A link's next free flit slot, four in each global cycle (R27). -/
def Tile.linkAt (x : Tile) (d : Nat) : Nat := sget 0 x.linkFree d

/-- The optical port by which a link of tile t leaves the wafer in direction d: 16 on each edge, numbered clockwise from the north edge; which
of them is free (R30, log 18). -/
def opticalPort (t d : Nat) : Nat :=
  let e := match d with | 3 => 0 | 0 => 1 | 2 => 2 | _ => 3
  16 * e + Config.opticalPort (4 * t + e) % 16
/-- The wafer next to this one in direction d of the domain. -/
def State.nextWafer (s : State) (d : Nat) : Nat × Nat :=
  match d with
  | 0 => ((s.wx + 1) % s.domW, s.wy) | 1 => ((s.wx + s.domW - 1) % s.domW, s.wy)
  | 2 => (s.wx, (s.wy + 1) % s.domH) | _ => (s.wx, (s.wy + s.domH - 1) % s.domH)

/-- A copy of a flight's packet leaves in direction d in this global cycle: its head reaches the next router one hop later. Across a wafer edge
of a larger domain it leaves by an optical port (R30). From a router that an overlay write has left behind it goes to the tile's new place, or
on by a detour (R26, R424). -/
def State.sendOut (s : State) (t : Nat) (f : Flight) (e : Nat × Packet) : State :=
  let go (tile via hop : Nat) (s : State) : State := { s with flights := s.flights ++ [{ p := e.2, tile := tile, at' := s.gcyc + hop, via := via }] }
  if e.1 = 4 then
    (match f.old with
     | none => s.arrive t f.via e.2
     | some q => go t f.via (3 * max 1 (physDist (q % 104, q / 104) (s.phys (t % 96) (t / 96)) false false)) s)
  else
    let leaves := wrapsAt t e.1 && decide (1 < if e.1 < 2 then s.domW else s.domH)
    let s := if e.2.ackLane then s
      else s.upT t fun x => { x with linkFree := sset 0 x.linkFree e.1 (max (4 * s.gcyc) (x.linkAt e.1) + e.2.flits), rr := sset 0 x.rr (2 * e.1 + e.2.cls / 4) (e.2.cls % 4) }
    if leaves then { s with optOut := s.optOut ++ [(opticalPort t e.1, (s.nextWafer e.1).1, (s.nextWafer e.1).2, e.2)] }
    else go (stepTile t e.1) e.1 (match f.old with | none => s.hop t e.1 | some q => s.hopOld (q % 104, q / 104) t e.1) s

/-- A packet that the router's coder lets go: it takes its turn among the heads of this global cycle and leaves in it (R259, R285, R298). -/
def State.forward (s : State) (t : Nat) (p : Packet) : State :=
  { s with flights := s.flights ++ [{ p := p, tile := t, at' := s.gcyc, via := 5 }] }

/-! ### Inputs that are held back (R275, R294, R295) -/

/-- Bytes of the decode buffer (R295). -/
def decSize : Nat := 65536
/-- The slot of a contribution is still taken (R275). -/
def Tile.slotTaken (x : Tile) (p : Packet) : Bool :=
  let e := x.entry (p.ofs % 256)
  let i := p.ofs / 256 % 64
  e.full.contains i || e.parts.any fun g => g.1 % 64 == i && g.1 != i + 64 * (p.orig * 2 ^ 32 + p.seq)
/-- A packet waits in the router behind an earlier one of its class and input that has to wait: a caravan not accepted, a contribution whose
slot is taken (R275, R294, R295). -/
def Tile.heldBack (x : Tile) (before : List Packet) (p : Packet) : Bool :=
  !p.ackLane && before.any fun q => q.via == p.via && q.cls == p.cls && (q.kind == 7 || (q.kind == 4 && x.slotTaken q))
/-- A caravan among those that have arrived has to wait: a dec.cfg is pending, or the buffer has no room for it and those before it. -/
def Tile.waits (x : Tile) (before : List Packet) (p : Packet) : Bool :=
  if p.kind = 7 then !x.decCfgQ.isEmpty || decide (decSize < x.decBytes + ((before.filter fun q => q.kind == 7).map Packet.carBytes).sum + p.carBytes)
  else p.kind == 4 && x.slotTaken p
/-- A class is held back on an input of tile t's router: what arrives there for other tiles waits too. -/
def Tile.inputHeld (x : Tile) (via cls : Nat) : Bool :=
  (x.arrq.zipIdx.filter fun e => e.1.via == via && e.1.cls == cls).any fun e => x.waits (x.arrq.take e.2) e.1

/-! ### Plans (R282, R283) -/

def Tile.planWord (x : Tile) (cls p i : Nat) : Word := sget 0#32 x.routes (1024 * cls + 0x100 + 4 * p + i)
/-- The route word of a class has CODE set. -/
def Tile.codes (x : Tile) (cls : Nat) : Bool := (x.route0 cls).getLsbD 3
/-- The plan is in force (R284). -/
def Tile.planValid (x : Tile) (cls p : Nat) : Bool := x.codes cls && (x.planWord cls p 0).getLsbD 31

/-- A name is tile (x, y) of this wafer, core c. -/
def State.isName (s : State) (name x y c : Nat) : Bool :=
  nameX name == s.wx * 96 + x && nameY name == s.wy * 72 + y && nameCore name == c
def fld (w : Word) (lo len : Nat) : Nat := (w.extractLsb' lo len).toNat

/-- The two destination tiles of a plan coincide: it never pairs (R283). -/
def Tile.planOne (x : Tile) (cls p : Nat) : Bool := fld (x.planWord cls p 0) 3 14 == fld (x.planWord cls p 2) 3 14
/-- Which flow of plan p the packet is: 1 or 2. -/
def State.flowOf (s : State) (t p : Nat) (k : Packet) : Option Nat :=
  let x := s.tile t
  let w (i : Nat) : Word := x.planWord k.cls p i
  let d1 := (fld (w 0) 10 7, fld (w 0) 3 7)
  let d2 := (fld (w 2) 10 7, fld (w 2) 3 7)
  if !x.planValid k.cls p then none
  else if s.isName k.orig (fld (w 0) 24 7) (fld (w 0) 17 7) (fld (w 3) 6 2) && s.isName k.dest d1.1 d1.2 (fld (w 3) 4 2) && k.dch == fld (w 1) 24 8 then some 1
  else if s.isName k.orig (fld (w 2) 24 7) (fld (w 2) 17 7) (fld (w 3) 2 2) && s.isName k.dest d2.1 d2.2 (fld (w 3) 0 2) && k.dch == fld (w 1) 16 8 then some 2
  else none

/-- The plan that governs a packet at tile t's router: the lowest-numbered one it matches. -/
def State.planOf (s : State) (t : Nat) (k : Packet) : Option (Nat × Nat) :=
  let x := s.tile t
  if k.kind = 1 ∧ !k.rel ∧ k.dests.isEmpty ∧ !k.resent ∧ 4 ≤ k.cls ∧ x.codes k.cls ∧ !x.noCode ∧ (s.tileOf k.orig).isSome ∧ (s.tileOf k.dest).isSome then
    (upto 0 64).findSome? fun p => (s.flowOf t p k).map fun f => (p, f)
  else none

/-! ### Caravans (R285, R286, R288, R290) -/

/-- A block id (R290). -/
def State.blockId (s : State) (p : Packet) : Word :=
  BitVec.ofNat 32 ((nameX p.orig - s.wx * 96) % 128 * 2 ^ 25 + (nameY p.orig - s.wy * 72) % 128 * 2 ^ 18 + p.dch % 256 * 2 ^ 10 + p.seq % 1024)

def StoreE.flits (e : StoreE) : Nat := (e.h1.elim 0 Packet.flits) + e.h2.elim 0 Packet.flits
/-- The coder store has room for two originals: 2,048 flits, 256 entries (R288). -/
def Tile.storeRoom (x : Tile) (a b : Packet) : Bool :=
  decide (x.store.length < 256) && decide ((x.store.map StoreE.flits).sum + a.flits + b.flits ≤ 2048)

def incr32 (n : Nat) : Nat := min (n + 1) 0xFFFF_FFFF
def Tile.uncoded (x : Tile) : Tile := { x with cunc := incr32 x.cunc }

/-- The caravan of a flow-1 and a flow-2 packet leaves, and both originals enter the coder store. -/
def State.pair (s : State) (t : Nat) (a b : Packet) : State :=
  let x := s.tile t
  let cent := ((upto 0 256).find? fun i => !x.store.any fun e => e.cent == i).getD 0
  let c : Caravan :=
    { dest2 := b.dest, orig2 := b.orig, ofs2 := b.ofs, bid1 := s.blockId a, bid2 := s.blockId b, seq2 := b.seq, slen2 := b.slen
      dch2 := b.dch, tag2 := b.tag, pix2 := b.pix, nfl1 := a.nfl, nfl2 := b.nfl, cx := t, cent := cent }
  let k : Packet := { a with kind := 7, rel := false, nfl := max a.nfl b.nfl, data := Nat.xor a.data b.data, poi := Nat.lor a.poi b.poi, dests := [a.dest, b.dest], car := some c }
  (s.upT t fun x => { x with store := x.store ++ [⟨cent, some a, some b⟩], ccar := incr32 x.ccar }).forward t k

/-- The coder store is full for a packet that has no partner yet: no entry, or no room for its own flits (R285, R288). -/
def Tile.storeFull (x : Tile) (k : Packet) : Bool :=
  decide (256 ≤ x.store.length) || decide (2048 < (x.store.map StoreE.flits).sum + k.flits)
/-- The earliest-held packet of the other flow of the plan, where the plan pairs. -/
def Tile.partner (x : Tile) (k : Packet) (plan flow : Nat) : Option HoldE :=
  if x.planOne k.cls plan then none else x.hold.find? fun h => h.plan == plan && h.p.cls == k.cls && h.flow != flow
/-- A packet that a plan governs: it pairs with the earliest-held packet of the other flow, or is held; one that meets a full store is sent
on (R285). Holds beyond 16 are sent on at the end of the cycle (R443). -/
def State.offer (s : State) (t : Nat) (k : Packet) (plan flow : Nat) : State :=
  let x := s.tile t
  match x.partner k plan flow with
  | some h =>
    if x.storeRoom k h.p then
      let s := s.upT t fun x => { x with hold := x.hold.filter fun r => r != h }
      if flow = 1 then s.pair t k h.p else s.pair t h.p k
    else (s.upT t Tile.uncoded).forward t k
  | none =>
    if x.storeFull k then (s.upT t Tile.uncoded).forward t k
    else s.upT t fun x => { x with hold := x.hold ++ [{ p := k, plan := plan, flow := flow, since := s.gcyc }] }

/-- Held packets that satisfy a test are sent on uncoded, in the order in which they were held; `cunc` counts them but for those of a migration
stop (R289, R300). -/
def State.release (s : State) (t : Nat) (f : HoldE → Bool) (counts : Bool := true) : State :=
  ((s.tile t).hold.filter f).foldl (fun s h => (if counts then s.upT t Tile.uncoded else s).forward t h.p) (s.upT t fun x => { x with hold := x.hold.filter fun h => !f h })

/-! ### Events of a router -/

/-- The router serves heads in this order: the acknowledgement lane, classes 0 to 3, classes 4 to 7, round-robin within a group (R259). -/
def State.headKey (s : State) (t : Nat) (f : Flight) : Nat :=
  if f.p.ackLane then 0
  else
    let d := ((s.branches t f.p).headD (4, f.p)).1
    let last := sget 3 (s.tile t).rr (2 * d + f.p.cls / 4)
    1 + 8 * (f.p.cls / 4) + (f.p.cls % 4 + 7 - last) % 4

/-- One head at tile t that has one way out: delivered, sent on, or kept while its class is held back on its input or the link it needs has no
room in this cycle. What comes from the coder leaves in this cycle (log 71). -/
def State.routeHead (s : State) (t : Nat) (f : Flight) : State :=
  let x := s.tile t
  let b := s.branches t f.p
  if f.p.ackLane || f.via == 5 || (!x.inputHeld f.via f.p.cls && b.all fun e => e.1 == 4 || decide (x.linkAt e.1 < 4 * (s.gcyc + 1))) then
    b.foldl (fun s e => s.sendOut t f e) s
  else { s with flights := s.flights ++ [f] }

/-- The heads of a cycle, at most n: each time the one that comes first as the round-robin then stands (R259). -/
def State.serveHeads (s : State) (t : Nat) : Nat → List Flight → State
  | 0, _ => s
  | n + 1, l =>
    match (orderBy (fun (a b : Nat × Flight) => decide (a.1 < b.1)) (l.map fun f => (s.headKey t f, f))).head? with
    | none => s
    | some f => (s.routeHead t f.2).serveHeads t n (l.erase f.2)

/-- The packets that plans govern in this cycle: heads that find a held partner first, then flow 1, then flow 2 (R285, R443). -/
def State.codeHeads (s : State) (t : Nat) (l : List (Flight × Nat × Nat)) : State :=
  let offer (s : State) (e : Flight × Nat × Nat) : State := s.offer t e.1.p e.2.1 e.2.2
  let r := l.foldl (fun (r : State × List (Flight × Nat × Nat)) e =>
    if ((r.1.tile t).partner e.1.p e.2.1 e.2.2).isSome then (offer r.1 e, r.2) else (r.1, r.2 ++ [e])) (s, [])
  (r.2.filter fun e => e.2.2 == 2).foldl offer ((r.2.filter fun e => e.2.2 == 1).foldl offer r.1)

/-- The heads due at a router, the earlier first, each copy of a packet on its own. -/
def State.heads (s : State) (t : Nat) : List Flight :=
  (orderBy (fun (a b : Flight) => decide (a.at' < b.at')) (s.flights.filter fun f => f.tile == t && decide (f.at' ≤ s.gcyc))).flatMap
    fun f => (s.branches t f.p).map fun e => { f with p := e.2 }
/-- The router takes the heads that are due there. -/
def State.takeHeads (s : State) (t : Nat) : State :=
  { s with flights := s.flights.filter fun f => !(f.tile == t && decide (f.at' ≤ s.gcyc)) }
/-- Every head due at this router leaves, is delivered, or waits. -/
def State.serve (s : State) (t : Nat) : State := (s.takeHeads t).serveHeads t (s.heads t).length (s.heads t)

/-- headFlitRoute (R259, R260, R267, R285): heads that a plan governs go to the coder; then each head, and what the coder lets go, is served in
its turn. A head at a router left behind by an overlay write is never coded there. With argument 1 the coder has its turn and the
acknowledgement lane is served, before acknowledgements and the ends of windows let more go. -/
def execHeadFlitRoute (s : State) : Host.Outcome State Fault Refusal :=
  let t := s.curT
  let l := s.heads t
  let plan (f : Flight) : Option (Nat × Nat) :=
    if f.p.ackLane || f.old.isSome || f.via == 5 || s.here.inputHeld f.via f.p.cls then none else s.planOf t f.p
  let acks := l.filter fun (f : Flight) => f.p.ackLane
  let s := (s.takeHeads t).serveHeads t acks.length acks
  let s := { s with flights := s.flights ++ l.filter fun (f : Flight) => !f.p.ackLane && (plan f).isNone }
  let s := s.codeHeads t (l.filterMap fun f => (plan f).map fun p => (f, p))
  let excess := (s.tile t).hold.drop 16
  let s := s.release t fun h => excess.contains h
  .next (if s.curArg = 1 then s else s.serve t)

/-- pairingWindowExpiry (R285): a packet held for 64 global cycles is sent on, after the heads of that cycle. -/
def execPairingWindowExpiry (s : State) : Host.Outcome State Fault Refusal :=
  .next (s.release s.curT fun h => decide (h.since + 64 ≤ s.gcyc))

/-- heldPacketFlush (R284): at the start of a global cycle, what is held under a plan no longer in force is sent on. -/
def execHeldPacketFlush (s : State) : Host.Outcome State Fault Refusal :=
  let x := s.here
  .next (s.release s.curT fun h => !x.planValid h.p.cls h.plan)

/-- coderAckArrival (R288, R298): a half is freed; on a NAK its original leaves again, uncoded, in this global cycle. -/
def execCoderAckArrival (s : State) : Host.Outcome State Fault Refusal :=
  let t := s.curT
  let acks := s.here.arrq.filter Packet.coderAck
  let s := s.upHere fun x => { x with arrq := x.arrq.filter fun p => !p.coderAck }
  .next (acks.foldl (fun s p =>
    let cent := p.ofs % 256
    let two := p.ofs.testBit 8
    match (s.tile t).store.find? fun e => e.cent == cent with
    | none => s
    | some e =>
      let half := if two then e.h2 else e.h1
      let e' : StoreE := if two then { e with h2 := none } else { e with h1 := none }
      let s := s.upT t fun x => { x with store := (x.store.map fun r => if r.cent = cent then e' else r).filter fun r => r.h1.isSome || r.h2.isSome }
      match half with
      | some k => if p.ofs.testBit 9 then (s.upT t fun x => { x with cres := incr32 x.cres }).forward t { k with resent := true } else s
      | none => s) s)

end Sys2Proof.Machine
end

