-- ==== Sys2Proof/Machine/Fabric.lean ====
section
/-! DEFINITION. The tile side of the fabric: source reads, the lee buffer and its fence, deposits, direct writes, contributions and reduce
targets, acknowledgements and credits (R220, R256, R264 to R275, R408). What performs at the end of tile cycle c is acknowledged, and its
arrival seen, from c + 1. -/

namespace Sys2Proof.Machine

/-! ### Arrivals and acknowledgements -/

/-- The node to which arrivals for core c are counted: a saved node of the core, or the one whose save holds its tokens (R220, R359). -/
def Tile.savedFor (x : Tile) (c : Nat) : Option Nat :=
  match x.save with
  | some v => if v.cmask.testBit c && (v.restore || v.going) then some v.node else
    x.used.find? fun n => (x.rt n).saved.isSome && (x.nMask n).testBit c
  | none => x.used.find? fun n => (x.rt n).saved.isSome && (x.nMask n).testBit c

/-- One arrival on token k of core c, with an error class or 0, and flags for its `aflags`. -/
def Tile.arrival (x : Tile) (tc c k cls : Nat) (fl : BitVec 11 := 0#11) : Tile :=
  match x.savedFor c with
  | some n => { x.upC c fun y => y.push { at' := tc + 1, mon := true, flags := fl } with savedArr := x.savedArr ++ [(n, c, k, cls)] }
  | none => x.upC c fun y => y.push { at' := tc + 1, mon := true, flags := fl, effs := [.arrival k cls] }
/-- A post of token k of core c. -/
def Tile.postLater (x : Tile) (tc c k : Nat) : Tile := x.upC c fun y => y.push { at' := tc + 1, mon := true, effs := [.post k 0] }

/-- A packet enters the lee buffer: it leaves 160 tile cycles later (R408). -/
def Tile.enterLee (x : Tile) (tc : Nat) (p : Packet) : Tile := { x with lee := x.lee ++ [{ p := p, out := tc + 160 }] }
/-- The acknowledgement of a packet that has performed, or a refusal (R266, R274), with the packet's tag (R371). -/
def Tile.ackOf (x : Tile) (tc : Nat) (p : Packet) (nak : Bool) : Tile :=
  x.enterLee tc { kind := 6, dest := p.orig, orig := p.dest, cls := p.cls, dch := p.dch, tag := p.tag, seq := p.seq, pix := p.pix, entry := p.entry, nak := nak }

/-- A packet that cannot perform yet waits. -/
def Tile.keep (x : Tile) (p : Packet) : Tile := { x with arrq := x.arrq ++ [p] }
/-- Every arrived packet of a kind has its turn, in their order; the others, and those held back, stay in their places. -/
def Tile.eachOf (x : Tile) (k : Nat) (f : Packet → Tile → Tile) : Tile :=
  x.arrq.foldl (fun (x : Tile) p => if p.kind != k || p.coderAck || x.heldBack x.arrq p then x.keep p else f p x) { x with arrq := [] }
def State.eachOf (s : State) (k : Nat) (f : Packet → Tile → Tile) : State := s.upHere fun x => x.eachOf k f

/-! ### Source reads (R258, R265, R273) -/

/-- Packets of a send of n bytes. -/
def packetsOf (n : Nat) : Nat := (n + 511) / 512
/-- Bytes of payload traffic in the lee buffer, headers included. -/
def Tile.leeLoad (x : Tile) : Nat := ((x.lee.filter fun e => decide (e.p.kind ≤ 4)).map fun e => 64 + 64 * e.p.nfl).sum
def leeSize : Nat := 262144

/-- Bytes of the packet that is next, and where they lie. -/
def SendJob.size (j : SendJob) : Nat := min 512 (j.len - 512 * j.pos)
def SendJob.src (j : SendJob) : Nat := j.addr + 512 * j.pos
/-- The 64-byte lines of n bytes at a. -/
def linesOf (a n : Nat) : List Nat := (upto 0 ((n + 63) / 64)).map fun i => a + 64 * i

/-- The next packet of a job on tile t. -/
def State.packetOf (s : State) (t : Nat) (j : SendJob) (data poi : Nat) : Packet :=
  { kind := j.kind, dest := j.dest, orig := s.nameOf t j.core, cls := j.cls, rel := j.rel, nfl := j.size / 64, dch := j.dch
    tag := (s.tile t).stage * 4 + j.core, seq := j.seq
    ofs := match j.kind with | 1 => (j.so + 512 * j.pos) % j.ring | 3 => j.raddr + 512 * j.pos | 4 => j.raddr % 256 + 256 * j.pix | _ => 0
    slen := j.len, pix := j.pos, data := data, poi := poi, dests := j.dests, entry := j.entry, wrap := if j.dests.isEmpty then 0 else j.ring }

/-- A job whose next packet can be read now. A `send.rel` follows every earlier send of its class (R266, R280). -/
def Tile.readable (x : Tile) (tc : Nat) (j : SendJob) : Bool :=
  !j.held && j.going && decide (j.wake ≤ tc) && (linesOf j.src j.size).all x.bankFree && decide (x.leeLoad + 64 + j.size ≤ leeSize)
def Tile.nextSend (x : Tile) (tc : Nat) : List SendJob → List Nat → Option SendJob
  | [], _ => none
  | j :: r, before => if x.readable tc j && !(j.rel && before.contains j.cls) then some j else x.nextSend tc r (before ++ [j.cls])

/-- sendSourceRead: one packet is read and enters the lee buffer. A job's first read comes after a time that is free. -/
def execSendSourceRead (s : State) : Host.Outcome State Fault Refusal :=
  let t := s.curT
  let tc := s.tcyc t
  let s := s.here.sends.foldl (fun s j =>
    if j.held || j.going || decide (tc < j.wake) then s
    else (s.upT t fun x => { x with sends := x.sends.map fun k => if k.n = j.n then { k with going := true, wake := tc + Config.delay s.free % 64 } else k }).draw) s
  match s.here.nextSend tc s.here.sends [] with
  | none => .next s
  | some j =>
    let x := (linesOf j.src j.size).foldl Tile.claim s.here
    let x := x.meet 0 j.src j.size
    let p := s.packetOf t j (x.tmRead j.src j.size) (x.tmPoiR j.src j.size)
    let last := decide (j.pos + 1 = packetsOf j.len)
    let e : LeeE := { p := p, out := tc + 160, tok := if last && !j.rel then j.tok.map fun k => (j.core, k) else none, n := j.n }
    .next (s.setTile t { x with
      lee := x.lee ++ [e]
      sends := if last then x.sends.filter fun k => k.n != j.n else x.sends.map fun k => if k.n = j.n then { k with pos := k.pos + 1 } else k })

/-! ### The lee buffer and the fence (R265, R266, R408) -/

/-- What leaves: acknowledgements, credits and coder acknowledgements after exactly their time; the packets of a class in order, behind a
release that the fence holds. -/
def leaving (tc : Nat) (opened : SMap Nat) : List LeeE → List Nat → List LeeE
  | [], _ => []
  | e :: r, shut =>
    if e.p.ackLane then (if e.out ≤ tc then [e] else []) ++ leaving tc opened r shut
    else if shut.contains e.p.cls then leaving tc opened r shut
    else if e.out ≤ tc && (!e.p.rel || sget 0 opened e.p.cls == e.n + 1) then e :: leaving tc opened r shut
    else leaving tc opened r (e.p.cls :: shut)

/-- fenceRelease (R266): a release at the head of its class leaves once its tile's counter of the class is zero. -/
def execFenceRelease (s : State) : Host.Outcome State Fault Refusal :=
  let tc := s.tcyc s.curT
  .next (s.upHere fun x => (upto 0 8).foldl (fun x c =>
    match x.lee.find? fun e => !e.p.ackLane && e.p.cls == c with
    | some e => if e.p.rel && decide (e.out ≤ tc) && sget 0 x.fence c == 0 then { x with relOpen := sset 0 x.relOpen c (e.n + 1) } else x
    | none => x) x)

/-- The identity of a packet (R408). -/
def Packet.ident (p : Packet) : PacketId := { cls := p.cls, kind := p.kind, dch := p.dch, entry := p.entry, dest := p.dest, seq := p.seq, pix := p.pix }
/-- A packet leaves the lee buffer of tile t: the fence counts it, once for each replica; the last one posts the send's token. One that a
replay has made again is dropped (R408, R410). -/
def State.leave (s : State) (t : Nat) (e : LeeE) : State :=
  let again := (s.tile t).replayTo.isSome && (s.tile t).gone.any fun g => g.2 == e.p.ident
  let s := s.upT t fun x =>
    let x := if e.p.ackLane then x else
      { x with fence := sset 0 x.fence e.p.cls (sget 0 x.fence e.p.cls + e.p.targets.length)
               outst := x.outst ++ e.p.targets.map fun d => (e.p.cls, e.p.dch, d, e.p.seq, e.p.pix) }
    let x := if again then x else { x with gone := x.gone ++ [(s.tcyc t, e.p.ident)] }
    match e.tok with | some (c, k) => x.upC c fun y => y.post k 0 | none => x
  if again then s else { s with flights := s.flights ++ [{ p := e.p, tile := t, at' := s.gcyc }] }

def execLeeExit (s : State) : Host.Outcome State Fault Refusal :=
  let x := s.here
  let out := leaving (s.tcyc s.curT) x.relOpen x.lee []
  .next (out.foldl (fun s e => s.leave s.curT e) (s.upHere fun x => { x with lee := x.lee.filter fun e => !out.contains e }))

/-! ### Acknowledgements and credits -/

/-- An acknowledgement of a packet that the fence counts: the fence falls; the packet's `send.rel` or its collective-queue entry comes closer to
its post (R262, R266, R273). One of a packet acknowledged before changes nothing (R299). -/
def Tile.acked (x : Tile) (tc : Nat) (p : Packet) : Tile :=
  let key := (p.cls, p.dch, p.orig, p.seq, p.pix)
  if !x.outst.contains key then x
  else
    let x := { x with outst := x.outst.erase key, fence := sset 0 x.fence p.cls (sget 0 x.fence p.cls - 1) }
    match p.entry with
    | some n =>
      let e := x.entry n
      let bad := e.bad || p.nak
      if e.left ≤ 1 then (x.upEntry n fun e => { e with left := 0, bad := false, st := 0 }).arrival tc e.core e.ctok (if bad then 5 else 0)
      else x.upEntry n fun e => { e with left := e.left - 1, bad := bad }
    | none =>
      match x.rels.find? fun r => r.dch == p.dch && r.dest == p.orig && r.seq == p.seq with
      | some r =>
        if r.left ≤ 1 then { x with rels := x.rels.filter fun q => q != r }.postLater tc r.core r.k
        else { x with rels := x.rels.map fun q => if q = r then { q with left := q.left - 1 } else q }
      | none => x

def execAcknowledgementArrival (s : State) : Host.Outcome State Fault Refusal := .next (s.eachOf 6 fun p x => x.acked (s.tcyc s.curT) p)

/-- Two names name cores of one tile. -/
def sameTile (a b : Nat) : Bool := nameX a == nameX b && nameY a == nameY b

/-- A credit of n bytes for each destination of a group that lies in the tile of name `from'`. -/
def creditGroup (win : Nat) (dsts cr : List Nat) (from' n : Nat) : List Nat :=
  (dsts.zip cr).map fun e => if sameTile e.1 from' then min (e.2 + n) win else e.2

/-- creditArrival (R271): the one send side or group destination that it matches gains its bytes, up to the window. -/
def Tile.credited (x : Tile) (p : Packet) : Tile :=
  let c := nameCore p.dest
  { x with
    chans := x.chans.map fun e =>
      if e.2.sv && !e.2.grp && e.2.score == c && e.2.dch == p.dch && sameTile e.2.dest p.orig then
        (e.1, { e.2 with cr := min (e.2.cr + p.ofs) (winBytes e.2.win) }) else e
    groups := x.groups.map fun e =>
      if e.2.v && e.2.core == c && e.2.dch == p.dch then (e.1, { e.2 with cr := creditGroup (winBytes e.2.win) e.2.dsts e.2.cr p.orig p.ofs }) else e }

def execCreditArrival (s : State) : Host.Outcome State Fault Refusal := .next (s.eachOf 5 fun p x => x.credited p)

/-! ### Deposits (R269, R270, R289) -/

/-- A deposit that the receive side accepts: valid, of its mode, from its origin. -/
def Chan.takes (c : Chan) (p : Packet) (mode : Nat) : Bool := c.rv && c.mode == mode && (c.orig == p.orig)
/-- The send of the packet has posted, or the packet has performed. -/
def Chan.again (c : Chan) (p : Packet) : Bool := decide (2 ^ 31 ≤ (p.seq + 2 ^ 32 - c.eq) % 2 ^ 32) || c.got.contains (p.seq, p.pix)
/-- Every packet of send EQ has performed. -/
def Chan.whole (c : Chan) : Option Nat :=
  (c.slens.find? fun e => e.1 == c.eq).bind fun e => if (c.got.filter fun g => g.1 == c.eq).length = packetsOf e.2 then some e.2 else none

/-- The posts that are due on a channel, in the order of EQ (R269). -/
def Tile.postDeposits (x : Tile) (tc n : Nat) : Nat → Tile
  | 0 => x
  | k + 1 =>
    let c := x.chan n
    match c.whole with
    | none => x
    | some len =>
      let x := x.upChan n fun c => { c with
        eq := (c.eq + 1) % 2 ^ 32, u := if c.mode = 0 then c.u + len else c.u, flags := 0#11
        got := c.got.filter fun g => g.1 != c.eq, slens := c.slens.filter fun g => g.1 != c.eq }
      (x.arrival tc c.rcore c.atok 0 c.flags).postDeposits tc n k
/-- A packet of a deposit has performed: it is noted, acknowledged, and what is due posts. -/
def Tile.performed (x : Tile) (tc : Nat) (p : Packet) (fl : BitVec 11) : Tile :=
  let x := x.upChan p.dch fun c => { c with
    got := c.got ++ [(p.seq, p.pix)], flags := c.flags ||| fl, tag := p.tag, acls := p.cls
    slens := if c.slens.any fun e => e.1 == p.seq then c.slens else c.slens ++ [(p.seq, p.slen)] }
  let x := if p.resent then { x with dres := incr32 x.dres } else x
  (x.ackOf tc p false).postDeposits tc p.dch ((x.chan p.dch).slens.length + 1)
/-- A packet that performed before, or whose send has posted: acknowledged again (R289). -/
def Tile.repeated (x : Tile) (tc : Nat) (p : Packet) : Tile := x.ackOf tc p false
/-- A deposit on a wrong side or from a wrong origin: recorded, neither posted nor acknowledged (R269). -/
def Tile.discard (x : Tile) (gc : Nat) (p : Packet) : Tile := x.record gc true 0x07 (BitVec.ofNat 32 p.dch) none

/-- Line i of a packet: its bytes and its poison. -/
def Packet.line (p : Packet) (i : Nat) : Nat × Nat := (p.data / 2 ^ (512 * i) % 2 ^ 512, p.poi / 2 ^ (16 * i) % 2 ^ 16)
/-- The payload goes to these lines, each with a journal record (R406). -/
def Tile.putLines (x : Tile) (p : Packet) (l : List Nat) : Tile :=
  let x := { x with journal := x.journal + l.length }
  ((upto 0 l.length).zip l).foldl (fun x e => (x.claim e.2).tmWrite e.2 64 (p.line e.1).1 (p.line e.1).2) x

/-- Where a ring deposit's lines lie: offsets wrap at the ring's size, a group's at the group's (R256). -/
def Chan.ringLines (c : Chan) (p : Packet) : List Nat :=
  (upto 0 p.nfl).map fun i => c.rbase + (p.ofs + 64 * i) % (if p.wrap = 0 then winBytes c.rsz else p.wrap)

def Tile.ringDeposit (x : Tile) (gc tc : Nat) (p : Packet) : Tile :=
  let c := x.chan p.dch
  if !c.takes p 0 then x.discard gc p
  else if c.again p then x.repeated tc p
  else if (c.ringLines p).all x.bankFree then (x.putLines p (c.ringLines p)).performed tc p 0#11
  else x.keep p

def execRingDeposit (s : State) : Host.Outcome State Fault Refusal := .next (s.eachOf 1 fun p x => x.ringDeposit s.glob (s.tcyc s.curT) p)

/-- One line of memory combined with a line of payload, memory first (R269, R275). -/
def Tile.redLine (x : Tile) (rop a : Nat) (v : Nat × Nat) : Tile × BitVec 11 :=
  let x := (x.claim a).meet 0 a 64
  let r := redBytes rop 64 (x.tmRead a 64) (x.tmPoiR a 64) v.1 v.2
  (x.tmWrite a 64 r.1 r.2.1, r.2.2)

/-- A reduce deposit combines in the order of sends: a packet of a later send waits. -/
def Tile.reduceDeposit (x : Tile) (gc tc : Nat) (p : Packet) : Tile :=
  let c := x.chan p.dch
  let l := linesOf (c.rbase + 512 * p.pix) (64 * p.nfl)
  if !c.takes p 2 then x.discard gc p
  else if c.again p then x.repeated tc p
  else if p.seq = c.eq ∧ l.all x.bankFree then
    let r := ((upto 0 p.nfl).zip l).foldl (fun (r : Tile × BitVec 11) e => let q := r.1.redLine c.rop e.2 (p.line e.1); (q.1, r.2 ||| q.2)) ({ x with journal := x.journal + p.nfl }, 0#11)
    r.1.performed tc p r.2
  else x.keep p

def execReduceDeposit (s : State) : Host.Outcome State Fault Refusal := .next (s.eachOf 2 fun p x => x.reduceDeposit s.glob (s.tcyc s.curT) p)

/-! ### Direct writes and contributions (R274, R275) -/

/-- The whole range of a write entry's send is in order at its destination. -/
def Packet.rangeOk (p : Packet) : Bool := addrOk (p.ofs - 512 * p.pix) p.slen 64 tmSize

/-- directWrite: what reaches a receive side that is not a direct one is discarded (log 41). -/
def Tile.directWrite (x : Tile) (gc tc : Nat) (p : Packet) : Tile :=
  let c := x.chan p.dch
  if !(c.rv && c.mode == 1) then x.discard gc p
  else if !p.rangeOk then x.ackOf tc p true
  else
    let l := linesOf p.ofs (64 * p.nfl)
    if !l.all x.bankFree then x.keep p
    else
      let k := p.orig * 2 ^ 32 + p.seq
      let x := (x.putLines p l).ackOf tc p false
      if (c.got.filter fun g => g.1 == k).length + 1 = packetsOf p.slen then
        (x.upChan p.dch fun c => { c with got := c.got.filter fun g => g.1 != k }).arrival tc c.rcore c.atok 0
      else x.upChan p.dch fun c => { c with got := c.got ++ [(k, p.pix)] }

def execDirectWrite (s : State) : Host.Outcome State Fault Refusal := .next (s.eachOf 3 fun p x => x.directWrite s.glob (s.tcyc s.curT) p)

/-- contributionArrival: into its slot; malformed, it is refused; while the slot is taken it waits. -/
def Tile.contribution (x : Tile) (gc tc : Nat) (p : Packet) : Tile :=
  let c := x.chan p.dch
  let n := p.ofs % 256
  let i := p.ofs / 256 % 64
  let e := x.entry n
  let key := i + 64 * (p.orig * 2 ^ 32 + p.seq)
  let l := linesOf (e.raddr + i * 64 * e.len + 512 * p.pix) (64 * p.nfl)
  if !(c.rv && c.mode == 1) then x.discard gc p
  else if !(e.v && e.kind == 3 && decide (i ≤ e.idx) && p.slen == 64 * e.len) then x.ackOf tc p true
  else if x.slotTaken p || !l.all x.bankFree then x.keep p
  else
    let got := ((e.parts.find? fun g => g.1 == key).elim 0 Prod.snd) + 1
    let rest := e.parts.filter fun g => g.1 != key
    let x := (x.putLines p l).ackOf tc p false
    x.upEntry n fun e =>
      if got = packetsOf p.slen then { e with parts := rest, full := e.full ++ [i] } else { e with parts := rest ++ [(key, got)] }

def execContributionArrival (s : State) : Host.Outcome State Fault Refusal := .next (s.eachOf 4 fun p x => x.contribution s.glob (s.tcyc s.curT) p)

/-! ### The collective queue (R273, R275) -/

/-- The next block of an armed target: slot 0 is copied to LOC, each later slot is combined into it in order. -/
def Tile.combine (x : Tile) (tc n : Nat) : Tile :=
  let e := x.entry n
  let from' := e.raddr + e.j * 64 * e.len + 64 * e.pos
  let to' := e.loc + 64 * e.pos
  if e.v && e.kind == 3 && e.st == 1 && (e.forced || decide (0 < e.j) || decide (0 < e.pos)) && e.full.contains e.j && x.bankFree from' && x.bankFree to' then
    let x := (x.claim from').meet 0 from' 64
    let v := (x.tmRead from' 64, x.tmPoiR from' 64)
    let r := if e.j = 0 then ((x.claim to').tmWrite to' 64 v.1 v.2, 0#11) else x.redLine e.op to' v
    let e := { e with pos := e.pos + 1, flags := e.flags ||| r.2 }
    let e := if e.pos < e.len then e else { e with pos := 0, full := e.full.filter (· != e.j), j := e.j + 1 }
    if e.j ≤ e.idx then r.1.upEntry n fun _ => e
    else (r.1.upEntry n fun _ => { e with j := 0, st := 0, forced := false, flags := 0#11 }).arrival tc e.core e.ctok 0 e.flags
  else x

def execReduceTargetCombine (s : State) : Host.Outcome State Fault Refusal :=
  .next (s.upHere fun x => (x.cq.map Prod.fst).foldl (fun x n => x.combine (s.tcyc s.curT) n) x)

/-- An armed entry whose threshold is met, or that a qpost has forced (R273, R277). -/
def Tile.armedNow (x : Tile) (e : CqE) : Bool := e.v && e.st == 1 && (e.forced || decide (e.thr ≤ ((x.core e.core).token e.atok).arr))

/-- One entry fires: a write or a contribution becomes a send of its channel; a target starts to combine. -/
def Tile.fire (x : Tile) (tc n : Nat) : Tile :=
  let e := x.entry n
  if !x.armedNow e then x
  else if e.kind = 3 then x.upEntry n fun e => { e with forced := true }
  else
    let c := x.chan e.ch
    let k := x.nextCmd
    let j : SendJob := { n := k.1, core := e.core, kind := if e.kind = 1 then 3 else 4, cls := c.cls + 4, dch := c.dch, dest := c.dest, entry := some n
                         addr := e.loc, len := 64 * e.len, seq := c.sq, raddr := e.raddr, pix := e.idx, wake := tc + 3 }
    (({ k.2 with sends := k.2.sends ++ [j] } : Tile).upChan e.ch fun c => { c with sq := (c.sq + 1) % 2 ^ 32 }).upEntry n fun e =>
      { e with st := 2, forced := false, left := packetsOf (64 * e.len), bad := false }

/-- cqEntryFire: in ascending entry number. -/
def execCqEntryFire (s : State) : Host.Outcome State Fault Refusal :=
  .next (s.upHere fun x => (x.cq.map Prod.fst).foldl (fun x n => x.fire (s.tcyc s.curT) n) x)

end Sys2Proof.Machine
end

