-- ==== Sys2Proof/Machine/Coding.lean ====
section
/-! DEFINITION. Caravans at their receivers: the decode buffer, lookup and decoding, decode faults, dec.cfg's record (R293 to R297, R300). -/

namespace Sys2Proof.Machine

/-- A caravan is accepted while no dec.cfg is pending and the buffer has room; else it and those behind it wait. -/
def Tile.accept (x : Tile) (p : Packet) : Tile :=
  if x.decCfgQ.isEmpty && decide (x.decBytes + p.carBytes ≤ decSize) && !(x.arrq.any fun q => q.kind == 7) then { x with decQ := x.decQ ++ [p] } else x.keep p
/-- caravanAccept (R294, R295): in arrival order. -/
def execCaravanAccept (s : State) : Host.Outcome State Fault Refusal := .next (s.eachOf 7 fun p x => x.accept p)

/-- One flow's fields of a caravan (R286), for the receiver that wants it. -/
structure Half where
  dest : Nat
  orig : Nat
  dch : Nat
  seq : Nat
  ofs : Nat
  slen : Nat
  pix : Nat
  tag : Nat
  nfl : Nat
  bid : Word
  deriving DecidableEq, Repr

def Packet.half1 (p : Packet) (c : Caravan) : Half := ⟨p.dest, p.orig, p.dch, p.seq, p.ofs, p.slen, p.pix, p.tag, c.nfl1, c.bid1⟩
/-- Flow 2: its full sequence number is the one congruent to SEQ2L from EQ on (R286). A copy whose send has posted meanwhile, after a resend,
keeps its own, which R289 has the receiver discard. -/
def Tile.half2 (x : Tile) (c : Caravan) : Half :=
  let eq := (x.chan c.dch2).eq
  ⟨c.dest2, c.orig2, c.dch2, if 2 ^ 31 ≤ (c.seq2 + 2 ^ 32 - eq) % 2 ^ 32 then c.seq2 else (eq + (c.seq2 + 2 ^ 32 - eq) % 65536) % 2 ^ 32, c.ofs2, c.slen2, c.pix2, c.tag2, c.nfl2, c.bid2⟩

/-- A caravan at tile t: whether it is wanted for flow 2, the wanted half and the other. -/
def State.halves (s : State) (t : Nat) (p : Packet) (c : Caravan) : Bool × Half × Half :=
  let h1 := p.half1 c
  let h2 := (s.tile t).half2 c
  if sameTile p.dest (s.nameOf t 0) then (false, h1, h2) else (true, h2, h1)

/-- A coder acknowledgement to core c0 of the coding router's tile, with the class and the half's tag (R288, R371). -/
def State.coderAckTo (s : State) (t tc : Nat) (p : Packet) (c : Caravan) (two nak : Bool) (orig : Nat) : State :=
  s.upT t fun x => x.enterLee tc
    { kind := 6, dest := s.nameOf c.cx 0, orig := orig, cls := p.cls, tag := if two then c.tag2 else p.tag, ofs := 32768 + b2n nak * 512 + b2n two * 256 + c.cent }

/-- A decode-fault trap becomes pending on a core that runs a task; otherwise the trap log takes it (R297). -/
def Core.decodeTrap (c : Core) (i : Info) : Core :=
  match c.mode with
  | .task => { c with decFault := c.decFault ++ [i] }
  | .monitor => { c with decFault := c.decFault ++ [i] }
  | _ => { c with trapLog := c.trapLog ++ [c.logged i] }

/-- decode_fault (R296). -/
def State.decodeFault (s : State) (t tc : Nat) (d : DecCur) (c : Caravan) : State :=
  let (two, want, other) := s.halves t d.p c
  let s := s.coderAckTo t tc d.p c two true want.dest
  s.upT t fun x =>
    let x := { x with decCur := none, dflt := incr32 x.dflt, dnak := incr32 x.dnak }
    if d.strict then
      x.upC (x.chan want.dch).rcore fun y => y.decodeTrap
        { cause := cDecode, i0 := other.bid, i1 := BitVec.ofNat 32 want.dch, i2 := BitVec.ofNat 32 (c.cx % 96 * 128 + c.cx / 96) }
    else x

/-- The lookup (R295): the entry with the other block, long enough, while decoding is enabled. -/
def Tile.lookup (x : Tile) (other : Half) : Option (Nat × Nat) :=
  match x.side.find? fun e => e.2.held && e.2.bid == other.bid with
  | some (i, e) => if x.decEn && decide (512 * other.pix + 64 * other.nfl ≤ 64 * e.len) then some (i, e.gen) else none
  | none => none

/-- The side bytes: a line that was written while the block was held has a free value (log 21). -/
def Tile.sideData (x : Tile) (free i : Nat) (other : Half) : Nat × Nat :=
  let e := sget {} x.side i
  let a := e.addr + 512 * other.pix
  (upto 0 other.nfl).foldr (fun b (r : Nat × Nat) =>
    let l := a + 64 * b
    let v := if e.dirty.contains (l / 64) then (upto 0 64).foldr (fun k v => (Config.undefinedBlock (512 * free + 64 * b + k)).toNat + 256 * v) 0 else x.tmRead l 64
    (v + 2 ^ 512 * r.1, x.tmPoiR l 64 + 2 ^ 16 * r.2)) (0, 0)

/-- The wanted packet: the payload against the side bytes, as far as the wanted one reaches (R295). Poison is the OR of both sources, though R301
has it equal the uncoded packet's (log 126). -/
def Packet.decode (p : Packet) (want other : Half) (side : Nat × Nat) : Packet :=
  let n := want.nfl
  let k := min n other.nfl
  { kind := 1, dest := want.dest, orig := want.orig, cls := p.cls, nfl := n, dch := want.dch, tag := want.tag, seq := want.seq, ofs := want.ofs
    slen := want.slen, pix := want.pix, decoded := true
    data := Nat.xor (p.data % 2 ^ (512 * n)) (side.1 % 2 ^ (512 * k)), poi := Nat.lor (p.poi % 2 ^ (16 * n)) (side.2 % 2 ^ (16 * k)) }

/-- One turn of the caravan under way: lookup, side reads, then the judgement in the cycle after the last of them. -/
def State.decodeTurn (s : State) (t tc : Nat) (d : DecCur) (c : Caravan) : State :=
  let x := s.tile t
  let (two, want, other) := s.halves t d.p c
  match d.look with
  | none =>
    let d := { d with strict := x.decStrict }
    (match x.lookup other with
     | none => s.decodeFault t tc d c
     | some g => (s.upT t fun x => { x with decCur := some { d with look := some g, wake := tc + 1 + Config.delay s.free % 64 } }).draw)
  | some (i, g) =>
    match d.side with
    | none =>
      let l := linesOf ((sget {} x.side i).addr + 512 * other.pix) (64 * other.nfl)
      if l.all x.bankFree then
        let x := (l.foldl Tile.claim x).meet 0 (l.headD 0) (64 * other.nfl)
        (s.setTile t { x with decCur := some { d with side := some (x.sideData s.free i other), wake := tc + 1 } }).draw
      else s
    | some v =>
      let e := sget {} x.side i
      if !e.held || e.gen != g then s.decodeFault t tc d c
      else
        let s := s.coderAckTo t tc d.p c two false want.dest
        s.upT t fun x => { x with decCur := none, dcar := incr32 x.dcar, arrq := x.arrq ++ [d.p.decode want other v] }

/-- caravanDecode (R295): the next caravan's lookup comes after a time that is free. -/
def execCaravanDecode (s : State) : Host.Outcome State Fault Refusal :=
  let t := s.curT
  let tc := s.tcyc t
  match s.here.decCur, s.here.decQ with
  | some d, _ =>
    (match d.p.car with
     | some c => .next (if d.wake ≤ tc then s.decodeTurn t tc d c else s)
     | none => .next (s.upHere fun x => { x with decCur := none }))
  | none, p :: r => .next (s.upHere fun x => { x with decQ := r, decCur := some { p := p, wake := tc + Config.delay s.free % 64 } }).draw
  | none, [] => .next s

/-- decCfgTakesEffect (R294, R300): the oldest pending record is read, judged and in force. -/
def Tile.configure (x : Tile) (a : Nat) : Tile :=
  let x := (x.claim a).meet 0 a 16
  let v : BitVec 128 := BitVec.ofNat 128 (x.tmRead a 16)
  let x := { x with decCfgQ := x.decCfgQ.tail }
  if x.tmPoiR a 16 ≠ 0 || v.extractLsb' 0 29 != 0#29 || v.extractLsb' 32 96 != 0#96 then { x with decBad := true }
  else
    let x := { x with decEn := v.getLsbD 31, decStrict := v.getLsbD 30 }
    if v.getLsbD 29 then { x with dcar := 0, dflt := 0, dnak := 0, dres := 0 } else x
def execDecCfgTakesEffect (s : State) : Host.Outcome State Fault Refusal :=
  .next (s.upHere fun x =>
    match x.decCfgQ with
    | (a, c) :: _ => if decide (c ≤ s.tcyc s.curT) && x.bankFree a then x.configure a else x
    | [] => x)

end Sys2Proof.Machine
end

