-- ==== Sys2Proof/Machine/StreamRun.lean ====
section
/-! DEFINITION. The second tier and host memory behind a DVA: the interleave (R248), translation (R29, R245 to R247), the pieces of a stream,
AtomicOps, and a stream's end (R250 to R253, R389, R400). -/

namespace Sys2Proof.Machine

/-! ### The interleave (R248) -/

/-- The hub at which a TA lies, and its offset in that hub's module. -/
def hubOf (ta : Nat) : Nat := let u := ta / 4096; (u + 17 * (u / 48) + 29 * (u / 2304)) % 48
def moduleOffset (ta : Nat) : Nat := ta / 4096 / 48 * 4096 + ta % 4096
/-- Bytes of a module (R29); the key of a TA's byte in State.t2. -/
def moduleSize : Nat := 128000000000
def place (ta : Nat) : Nat := hubOf ta * moduleSize + moduleOffset ta

/-- n bytes from a TA on, and their write, over k 4 KiB units. -/
def unitsGet (m : SMap Byte) (a n : Nat) : Nat → Nat
  | 0 => 0
  | k + 1 => let h := min n (4096 - a % 4096); sgetBytes m (place a) h + 2 ^ (8 * h) * unitsGet m (a + h) (n - h) k
def unitsPut (m : SMap Byte) (a n v : Nat) : Nat → SMap Byte
  | 0 => m
  | k + 1 => let h := min n (4096 - a % 4096); unitsPut (ssetBytes m (place a) h v) (a + h) (n - h) (v / 2 ^ (8 * h)) k
def unitsOf (a n : Nat) : Nat := (a % 4096 + n + 4095) / 4096

/-! ### Translation -/

/-- Bytes of the second tier (R228). -/
def taLimit : Nat := 6144000000000

/-- Where a DVA leads: TGT 0 second tier, 1 port A, 2 port B; the address there. -/
structure Target where
  tgt : Nat
  addr : Nat
  deriving DecidableEq, Repr

/-- A valid range entry that holds the DVA (R245, R246). -/
def rangeHit (w : List DWord) (dva : Nat) : Bool :=
  let w0 := w.getD 0 0#64
  w0.getLsbD 63 && (w0.extractLsb' 61 2 != 3#2) && decide ((w0.extractLsb' 0 48).toNat ≤ dva) && decide (dva < ((w.getD 1 0#64).extractLsb' 0 48).toNat)

/-- Checks that come after the entry is found: the TA's reach, and a host port that accepts the request (R251). -/
def State.reach (s : State) (tgt addr : Nat) : Except Nat Target :=
  if tgt = 0 then (if addr < taLimit then .ok ⟨0, addr⟩ else .error 0x12)
  else if (s.port (tgt == 2)).enabled && decide (addr < 2 ^ 52) then .ok ⟨tgt, addr⟩
  else .error 0x13

/-! Bytes behind a target (R389) -/

/-- The 64-byte blocks among n bytes at a target whose media is poisoned, or whose completion from a host port is. -/
def State.media (s : State) (x : Target) (n : Nat) : List Nat :=
  let l := upto (x.addr / 64) ((x.addr + n + 63) / 64 - x.addr / 64)
  if x.tgt = 0 then l.filter fun b => s.t2media.contains (place (64 * b) / 64) else l.filter fun b => (s.port (x.tgt == 2)).poisoned.contains b
/-- The code of such a block (R251). -/
def Target.poison (x : Target) : Nat := if x.tgt = 0 then 0x20 else 0x22
/-- The sectors that n bytes touch, and those that they do not fill. -/
def Target.sectors (x : Target) (n : Nat) : List Nat := upto (x.addr / 512) ((x.addr + n + 511) / 512 - x.addr / 512)
def Target.partSectors (x : Target) (n : Nat) : List Nat :=
  (x.sectors n).filter fun q => !(decide (x.addr ≤ 512 * q) && decide (512 * q + 512 ≤ x.addr + n))
/-- A sector's tag does not match its ciphertext; a media error in it comes first (R251). -/
def State.sectorBad (s : State) (q : Nat) : Bool := s.t2tag.contains (place (512 * q) / 512) && (s.media ⟨0, 512 * q⟩ 512).isEmpty
def State.tagBad (s : State) (x : Target) (n : Nat) : Bool := x.tgt == 0 && (x.sectors n).any s.sectorBad
/-- What the reads find that a write of part of a sector needs: 0x21, 0x20 or 0 (R250). -/
def State.partCheck (s : State) (x : Target) (n : Nat) : Nat :=
  if x.tgt ≠ 0 then 0
  else if (x.partSectors n).any s.sectorBad then 0x21
  else if (x.partSectors n).any fun q => !(s.media ⟨0, 512 * q⟩ 512).isEmpty then 0x20 else 0
def State.readAt (s : State) (x : Target) (n : Nat) : Nat :=
  if x.tgt = 0 then unitsGet s.t2 x.addr n (unitsOf x.addr n) else sgetBytes (s.port (x.tgt == 2)).mem x.addr n
/-- A write; blocks and sectors that it fills are clean. -/
def State.writeAt (s : State) (x : Target) (n v : Nat) : State :=
  let fills (g b : Nat) : Bool := decide (x.addr ≤ g * b) && decide (g * b + g ≤ x.addr + n)
  let full (g : Nat) : List Nat := ((upto (x.addr / g) ((x.addr + n) / g + 1 - x.addr / g)).filter (fills g))
  if x.tgt = 0 then
    { s with t2 := unitsPut s.t2 x.addr n v (unitsOf x.addr n)
             t2media := s.t2media.filter fun b => !((full 64).any fun c => place (64 * c) / 64 == b)
             t2tag := s.t2tag.filter fun q => !((full 512).any fun c => place (512 * c) / 512 == q) }
  else s.upPort (x.tgt == 2) fun p => { p with mem := ssetBytes p.mem x.addr n v, poisoned := p.poisoned.filter fun b => !(fills 64 b) }

/-- One entry of a table at level 3 - lv, or what `go` finds in the table it leads to (R247). The read of a sector of the table may itself
fail (R389). -/
def State.walkEntry (s : State) (dva lv base : Nat) (go : Nat → Except Nat (Nat × Bool × Nat)) : Except Nat (Nat × Bool × Nat) :=
  let x : Target := ⟨0, base + 8 * (dva / 2 ^ (12 + 9 * lv) % 512)⟩
  let e : BitVec 64 := BitVec.ofNat 64 (s.readAt x 8)
  let tgt := (e.extractLsb' 61 2).toNat
  let addr := (e.extractLsb' 12 40).toNat
  if !(s.media x 8).isEmpty then .error 0x20
  else if s.tagBad x 8 then .error 0x21
  else if !e.getLsbD 63 then .error 0x10
  else if (e.extractLsb' 52 9 != 0#9) || (e.extractLsb' 3 9 != 0#9) || e.getLsbD 0 then .error 0x12
  else if e.getLsbD 1 then
    if lv = 3 ∨ tgt = 3 ∨ addr % 2 ^ (9 * lv) ≠ 0 then .error 0x12
    else .ok (tgt, e.getLsbD 2, addr * 4096 + dva / 4096 % 2 ^ (9 * lv) * 4096)
  else if lv = 0 ∨ tgt ≠ 0 ∨ taLimit ≤ addr * 4096 then .error 0x12
  else go (addr * 4096)

/-- The page walk from the table at `base`: TGT, W, and the address of the 4 KiB page; `lv` counts the levels left, 3 down to 0 (R247). -/
def State.walk (s : State) (dva : Nat) : Nat → Nat → Except Nat (Nat × Bool × Nat)
  | 0, base => s.walkEntry dva 0 base fun _ => .error 0x12
  | lv + 1, base => s.walkEntry dva (lv + 1) base fun b => s.walk dva lv b

/-- A DVA of a stream of tile t, through range entries, the hub's TLB and the page tables (R245). -/
def State.translate (s : State) (hub dva : Nat) (wr : Bool) : Except Nat Target :=
  if 2 ^ 48 ≤ dva then .error 0x10
  else match s.range.find? fun e => rangeHit e.2 dva with
  | some (_, w) =>
    let w0 := w.getD 0 0#64
    if wr && !w0.getLsbD 60 then .error 0x11
    else s.reach (w0.extractLsb' 61 2).toNat ((dva + (w.getD 2 0#64).toNat) % 2 ^ 64)
  | none =>
    match s.tlb.find? fun e => e.1 == hub * 2 ^ 36 + dva / 4096 with
    | some (_, v) => if wr && v / 4 % 2 == 0 then .error 0x11 else s.reach (v % 4) (v / 8 * 4096 + dva % 4096)
    | none =>
      match s.walk dva 3 s.ptRoot with
      | .error e => .error e
      | .ok (tgt, w, page) => if wr && !w then .error 0x11 else s.reach tgt (page + dva % 4096)

/-- The same for n bytes of one DVA page: a range's OFS may have its pages begin inside a page of DVAs (R246). -/
def State.translateAll (s : State) (hub dva n : Nat) (wr : Bool) : Except Nat Target :=
  match s.translate hub dva wr with
  | .error e => .error e
  | .ok y =>
    if y.addr % 4096 + n ≤ 4096 then .ok y
    else match s.translate hub (dva + (4096 - y.addr % 4096)) wr with | .error e => .error e | .ok _ => .ok y

/-- The home hub of a tile, one of h0 to h47 (R29, R245). -/
def homeHub (t : Nat) : Nat := Config.homeHub t % 48

/-- A TLB of 2,048 entries takes one more; which entry leaves a full one is free (R29, log 68). -/
def State.addTlb (s : State) (hub : Nat) (e : Nat × Nat) : State :=
  let mine := s.tlb.filter fun r => r.1 / 2 ^ 36 == hub
  if mine.length < 2048 then { s with tlb := s.tlb ++ [e] }
  else
    let out := mine.getD (Config.delay s.free % 2048) e
    { s with tlb := (s.tlb.filter fun r => r.1 != out.1) ++ [e], free := s.free + 1 }
/-- The TLB keeps what a walk found, until MAP invalidates it (R245). -/
def State.fillTlb (s : State) (hub dva : Nat) : State :=
  let k := hub * 2 ^ 36 + dva / 4096
  if 2 ^ 48 ≤ dva || s.range.any (fun e => rangeHit e.2 dva) || s.tlb.any (fun e => e.1 == k) then s
  else match s.walk dva 3 s.ptRoot with
    | .ok (tgt, w, page) => s.addTlb hub (k, tgt + 4 * b2n w + 8 * (page / 4096))
    | .error _ => s

/-! ### Hub answers and their journal (R406, R410) -/

/-- Tile t asks a hub: the answer is journalled with its tile cycle; in a replay the recorded one is given, and nothing happens outside. -/
def State.ask (s : State) (t tc : Nat) (f : State → State × HubAns) : State × HubAns :=
  let x := s.tile t
  match x.replayTo, x.redo with
  | some _, a :: r => (s.setTile t { x with redo := r, answers := x.answers ++ [(tc, a)] }, a)
  | _, _ => let r := f s; (r.1.upT t fun x => { x with answers := x.answers ++ [(tc, r.2)] }, r.2)

/-! ### Pieces (R250) -/

/-- Index of a byte's 64-byte block in the whole stream (R249). -/
def StreamJob.blockNo (j : StreamJob) (row off : Nat) : Nat := (row * (if j.op = 0 then j.len else 64) + off) / 64
/-- The 4 KiB pages of a row: offsets at which a page of it begins. -/
def StreamJob.rowPages (j : StreamJob) (row : Nat) : List Nat :=
  if j.op ≠ 0 then [0]
  else
    let r := j.dva + row * j.rstr
    0 :: (upto 1 ((r % 4096 + j.len + 4095) / 4096 - 1)).map fun i => i * 4096 - r % 4096
/-- What fails in a row from offset off to the end of its DVA page, with its block; the target's page may end before that one. -/
def State.pageCheck (s : State) (hub : Nat) (j : StreamJob) (row off : Nat) : Option (Nat × Nat) :=
  let r := j.dva + row * j.rstr
  match s.translate hub (r + off) j.wr with
  | .error e => some (e, j.blockNo row off)
  | .ok x =>
    let m := off + (4096 - x.addr % 4096)
    if j.op ≠ 0 ∧ x.tgt = 0 then some (0x14, j.blockNo row off)
    else if m < min (if j.op = 0 then j.len else 8) (off + (4096 - (r + off) % 4096)) then
      match s.translate hub (r + m) j.wr with | .error e => some (e, j.blockNo row m) | .ok _ => none
    else none
/-- The first translation that fails, with its block: found before any data moves (R251). -/
def State.streamCheck (s : State) (hub : Nat) (j : StreamJob) : Option (Nat × Nat) :=
  (upto 0 (j.rows + 1)).foldl (fun f row =>
    match f with
    | some _ => f
    | none => (j.rowPages row).foldl (fun f off => match f with | some _ => f | none => s.pageCheck hub j row off) none) none

/-- Banks or columns a local access of n bytes needs are free. -/
def Tile.localFree (x : Tile) (space a n tc : Nat) : Bool :=
  if space = 0 then (upto (a / 64) ((a + n - 1) / 64 + 1 - a / 64)).all fun l => x.bankFree (64 * l)
  else (upto (a / sliceSize) ((a + n - 1) / sliceSize + 1 - a / sliceSize)).all fun j => x.busFree j tc
def Tile.localClaim (x : Tile) (space a n : Nat) : Tile :=
  if space = 0 then (upto (a / 64) ((a + n - 1) / 64 + 1 - a / 64)).foldl (fun x l => x.claim (64 * l)) x else x
def Tile.localRead (x : Tile) (space a n : Nat) : Nat × Nat := if space = 0 then (x.tmRead a n, x.tmPoiR a n) else (x.dsRead a n, x.dsPoiR a n)
def Tile.localWrite (x : Tile) (space a n v p : Nat) : Tile := if space = 0 then x.tmWrite a n v p else x.dsWrite a n v p

def Tile.putStream (x : Tile) (j : StreamJob) : Tile := { x with streams := x.streams.map fun k => if k.n = j.n then j else k }
/-- The first error of a stream stands, and its block; an integrity failure after a media error ends the stream with its own code (R251, log
67). -/
def StreamJob.failed (j : StreamJob) (status block : Nat) : StreamJob :=
  if j.status = 0 then { j with status := status, fail := min block 0xFF_FFFF } else if status = 0x21 then { j with status := status } else j
/-- The place after a piece of n bytes. -/
def StreamJob.advance (j : StreamJob) (n : Nat) : StreamJob :=
  if j.off + n < j.rowLen ∧ j.op = 0 then { j with off := j.off + n, tries := 0 }
  else if j.row < j.rows then { j with row := j.row + 1, off := 0, tries := 0 }
  else { j with fin := true, tries := 0 }

/-- The result of an AtomicOp on 8 bytes: fetch-add, swap, CAS (R253). -/
def atomicNew (op old v cmp : Nat) : Nat := match op with | 1 => (old + v) % 2 ^ 64 | 2 => v | _ => if old = cmp then v else old

/-- The local blocks that n bytes at local address la fill or touch, and whether a poisoned block of the target lies under the bytes of each. -/
def badBlocks (ta la n : Nat) (bad : List Nat) : List (Nat × Bool) :=
  (upto (la / 64) ((la + n + 63) / 64 - la / 64)).map fun l =>
    let lo := max la (64 * l)
    let hi := min (la + n) (64 * l + 64)
    (l, bad.any fun b => decide (64 * b < ta + (hi - la)) && decide (ta + (lo - la) < 64 * b + 64))
/-- Poison of the local words of a piece. -/
def piecePoison (ta la n : Nat) (bad : List Nat) : Nat :=
  let l := badBlocks ta la n bad
  spread 1 ((upto (la / 4) ((la + n + 3) / 4 - la / 4)).map fun w => l.any fun e => e.2 && e.1 == w / 16)
/-- Blocks into the piece at which the first of them lies. -/
def badOffset (ta la n : Nat) (bad : List Nat) : Nat := match (badBlocks ta la n bad).find? Prod.snd with | some e => e.1 - la / 64 | none => 0

/-- Remote and local address of the next piece, and the bytes left of its row. -/
def StreamJob.remote (j : StreamJob) : Nat := j.dva + j.row * j.rstr + j.off
def StreamJob.here (j : StreamJob) : Nat := j.local + j.row * j.lstr + j.off
def StreamJob.left (j : StreamJob) : Nat := if j.op = 0 then j.len - j.off else 16
/-- Bytes of the piece at DVA d and TA or host address a: at most `n`, within one sector and one page (R250). -/
def pieceLen (d a n : Nat) : Nat := min n (min (512 - a % 512) (4096 - d % 4096))

/-- The hub takes the next piece: translated; the bytes of a read come back (R250, R251). -/
def State.request (s : State) (hub : Nat) (j : StreamJob) : State × HubAns :=
  match s.translate hub j.remote j.wr with
  | .error e => (s, { code := e })
  | .ok y =>
    let s := s.fillTlb hub j.remote
    if j.wr then (s, { tgt := y.tgt, addr := y.addr })
    else
      let n := pieceLen j.remote y.addr j.left
      let bad := s.media y n
      (s, { code := if !bad.isEmpty then y.poison else if s.tagBad y n then 0x21 else 0, tgt := y.tgt, addr := y.addr, data := s.readAt y n, bad := bad })
/-- The hub writes a piece. -/
def State.commit (s : State) (y : Target) (n v : Nat) : State × HubAns :=
  let c := s.partCheck y n
  (if c = 0x21 then s else s.writeAt y n v, { code := c })
/-- The hub performs an AtomicOp at a host port on the 16 local bytes l. -/
def State.atomic (s : State) (op : Nat) (y : Target) (l : Nat) : State × HubAns :=
  let old := s.readAt y 8
  let bad := s.media y 8
  (s.writeAt y 8 (atomicNew op old (l % 2 ^ 64) (l / 2 ^ 64)), { code := if bad.isEmpty then 0 else y.poison, data := old, bad := bad })

/-- A poisoned store to the outside stops the stream and kills its task (R400). -/
def State.poisonStop (s : State) (t : Nat) (j : StreamJob) (tc : Nat) : State := s.upT t fun x => x.poisonStop tc j

/-- The local side of a piece whose hub has answered a: its bank or bus is free and the beat has got through. A poisoned piece stops the stream;
earlier pieces of its sector stand (log 124). -/
def State.movePiece (s : State) (t tc : Nat) (j : StreamJob) (a : HubAns) (n : Nat) : State :=
  let la := j.here
  let blk := j.blockNo j.row j.off
  let y : Target := ⟨a.tgt, a.addr⟩
  let next := { j.advance n with wake := tc + 1, ans := none }
  let stop (c : Nat) (s : State) : State := s.upT t fun x => x.putStream { j.failed c blk with fin := true, wake := tc + 1, ans := none }
  let s := s.upT t fun x => x.localClaim j.space la n
  if j.wr then
    let s := s.upT t fun x => x.meet j.space la n
    let l := (s.tile t).localRead j.space la n
    if j.op ≠ 0 then
      (if l.2 % 4 ≠ 0 || (j.op == 3 && l.2 / 4 % 4 != 0) then s.poisonStop t j tc
       else
         let r := s.ask t tc fun s => s.atomic j.op y l.1
         r.1.upT t fun x => (x.localWrite j.space la 8 r.2.data (if r.2.bad.isEmpty then 0 else 3)).putStream (if r.2.code = 0 then next else next.failed r.2.code blk))
    else if l.2 ≠ 0 then s.poisonStop t j tc
    else
      let r := s.ask t tc fun s => s.commit y n l.1
      if r.2.code = 0x21 then stop 0x21 r.1
      else r.1.upT t fun x => x.putStream (if r.2.code = 0 then next else next.failed r.2.code blk)
  else
    s.upT t fun x => ({ x with journal := x.journal + (n + 63) / 64 }.localWrite j.space la n a.data (piecePoison a.addr la n a.bad)).putStream
      (if a.bad.isEmpty then next else next.failed a.code (blk + badOffset a.addr la n a.bad))

/-- One step of stream j at tile t in tile cycle tc: its hub answers, then its local bytes move as banks and buses allow (R231, R250, R414). -/
def State.piece (s : State) (t tc : Nat) (j : StreamJob) : State :=
  match j.ans with
  | none => let r := s.ask t tc fun s => s.request (homeHub t) j; r.1.upT t fun x => x.putStream { j with ans := some r.2 }
  | some a =>
    let x := s.tile t
    let n := if j.op = 0 then pieceLen j.remote a.addr j.left else 16
    if a.code ≠ 0 ∧ a.bad.isEmpty then s.upT t fun x => x.putStream { j.failed a.code (j.blockNo j.row j.off) with fin := true, wake := tc + 1, ans := none }
    else if !x.localFree j.space j.here n tc || x.laneTest.isSome then s
    else
      let b := if j.space = 0 then (x, 0, true, false) else x.busTry s.glob s.free (j.here / sliceSize) j.tries
      if b.2.2.2 then s.setTile t (b.1.putStream { j with bad := true, fin := true, wake := tc + 1, ans := none })
      else if !b.2.2.1 then s.setTile t (b.1.putStream { j with tries := b.2.1 })
      else (s.setTile t b.1).movePiece t tc j a n

/-- Streams under way at a hub: its engine keeps at most 512 requests outstanding (R29, R250). -/
def State.hubLoad (s : State) (hub : Nat) : Nat :=
  (s.tiles.map fun e => if homeHub e.1 = hub then (e.2.streams.filter fun j => j.going && !j.fin).length else 0).sum

/-- streamPiece (R250, R408): a request leaves the lee 160 tile cycles after its control block is read. Its hub then translates every
piece before any data moves; the pieces perform in order as banks and buses allow, from a cycle that is free. -/
def execStreamPiece (s : State) : Host.Outcome State Fault Refusal :=
  let t := s.curT
  let tc := s.tcyc t
  .next (s.here.streams.foldl (fun s j =>
    if j.held || !j.read || j.fin || decide (tc < j.wake) then s
    else if j.going then s.piece t tc j
    else
      let r := s.ask t tc fun s => (s,
        if 512 ≤ s.hubLoad (homeHub t) then { code := 0x100 } else match s.streamCheck (homeHub t) j with | some (e, b) => { code := e, blk := b } | none => {})
      if r.2.code = 0x100 then r.1
      else if r.2.code ≠ 0 then r.1.upT t fun x => x.putStream { j.failed r.2.code r.2.blk with fin := true, wake := tc + 1 }
      else (r.1.upT t fun x => x.putStream { j with going := true, wake := tc + 1 + Config.delay s.free % 256 }).draw) s)

/-- The error class of a stream's post (R251, R414). -/
def StreamJob.cls (j : StreamJob) : Nat := if j.bad then 4 else if j.status = 0 then 0 else if j.status < 0x20 then 1 else 2

/-- streamComplete (R250 to R252, R400): STAT is written as an asynchronous access, and the token posts. A stream that poison stopped
writes no STAT. After an integrity failure Rotrum aborts the job. -/
def execStreamComplete (s : State) : Host.Outcome State Fault Refusal :=
  let t := s.curT
  let tc := s.tcyc t
  .next (s.here.streams.foldl (fun s j =>
    let x := s.tile t
    if !j.fin || decide (tc < j.wake) || (!j.killed && !x.bankFree (j.cb + 28)) then s
    else
      let s := s.upT t fun x =>
        let x := if j.killed then x else (x.claim (j.cb + 28)).tmWrite (j.cb + 28) 4 (j.status + j.fail * 256) 0
        let x := { x with streams := x.streams.filter fun k => k.n != j.n }
        x.upC j.core fun c => c.push { at' := tc + 1, mon := true, effs := [.post j.k (if j.killed then 0 else j.cls)] }
      if j.status = 0x21 then s.escalate t 1 else s) s)

end Sys2Proof.Machine
end

