-- ==== Sys2Proof/Machine/Save.lean ====
section
/-! DEFINITION. Context save and restore: the save area, its body and seal, stops and their continuation, the checks of a restore
(R220, R357 to R361). -/

namespace Sys2Proof.Machine

/-! ### Second-tier ranges by DVA -/

/-- Bytes of the piece at a DVA that ends with its 512-byte sector. -/
def sectorLeft (dva n : Nat) : Nat := min n (512 - dva % 512)

/-- The code of R360 for a code of R251: a media error has its own; 0x21, an integrity failure, aborts the job. -/
def saveCode (e : Nat) : Nat := if e = 0x21 then 0x21 else if 0x20 ≤ e then 3 else 1
/-- One write of n bytes through a hub: done, or the code of R360. -/
def State.pushDva (s : State) (hub dva n v : Nat) : Except Nat State :=
  match s.translateAll hub dva n true with
  | .error e => .error (saveCode e)
  | .ok y => match s.partCheck y n with
    | 0 => .ok ((s.fillTlb hub dva).writeAt y n v)
    | c => .error (saveCode c)

/-- Bytes from a DVA on, sector by sector: the bytes and the offsets of 64-byte blocks with media errors; or the code of R251 of the
translation that failed or of a bad tag. -/
def State.pullFrom (s : State) (hub dva n : Nat) : Nat → Except Nat (List Byte × List Nat)
  | 0 => if n = 0 then .ok ([], []) else .error 0x12
  | k + 1 =>
    if n = 0 then .ok ([], [])
    else
      let m := sectorLeft dva n
      match s.translateAll hub dva m false with
      | .error e => .error e
      | .ok y =>
        let bad := s.media y m
        if s.tagBad y m then .error 0x21
        else match s.pullFrom hub (dva + m) (n - m) k with
          | .error e => .error e
          | .ok (l, b) => .ok (bytesOf (s.readAt y m) m ++ l, (bad.map fun i => 64 * i - y.addr) ++ b.map fun i => i + m)
def State.pull (s : State) (hub dva n : Nat) : Except Nat (List Byte × List Nat) := s.pullFrom hub dva n (n / 512 + 2)
/-- The same as a hub's answer. -/
def State.pullAns (s : State) (hub dva n : Nat) : HubAns :=
  match s.pull hub dva n with
  | .error e => { code := e }
  | .ok (l, b) => { data := recNum l 0 n, bad := b }

/-! ### The body (R358) -/

/-- Places a word list from an offset on. -/
def putWords (m : SMap Byte) (o : Nat) (l : List Word) : SMap Byte := ((upto 0 l.length).zip l).foldl (fun m e => ssetBytes m (o + 4 * e.1) 4 e.2.toNat) m
/-- Bits as bytes, the first in bit 0. -/
def packBits (l : List Bool) : Nat := spread 1 l

/-- A valid region descriptor, and whether it is STAGED (R357). -/
def CrgE.region (e : CrgE) : Option (StreamJob × Bool) :=
  match e.desc with
  | none => none
  | some d =>
    let v := d.foldr (fun b v => b.toNat + 256 * v) 0
    let j := ({ n := 0, core := 0, k := 0, wr := false, cb := 0 } : StreamJob).parse v
    let staged := j.op == 1
    let k := { j with op := 0 }
    if decide (j.op ≤ 1) && k.ok && v / 2 ^ 224 == 0 && (if staged then j.space == 1 else j.dva == 0 && j.rstr == 0) then some (k, staged) else none

/-- Bytes of a region's rows, and of its contents: rows, then the poison bitmap, padded to 64 bytes. -/
def StreamJob.rowBytes (j : StreamJob) : Nat := (j.rows + 1) * j.len
def StreamJob.regionBytes (j : StreamJob) : Nat := j.rowBytes + ((j.rowBytes / 4 + 7) / 8 + 63) / 64 * 64
/-- Where the bytes of the next block of a region, and its poison bits, lie in an image in which the region begins at o. -/
def StreamJob.imgAt (j : StreamJob) (o : Nat) : Nat × Nat := let k := j.row * j.len + j.off; (o + k, o + j.rowBytes + k / 32)

/-- The scalars of 0x0_0280 (R358). -/
def Tile.csrWords (x : Tile) (c : Nat) : List PWord :=
  let y := x.core c
  [csrRead x c 0, ⟨if y.satm then 0x2000_0000#32 else 0#32, false⟩, csrRead x c 2, csrRead x c 3] ++ ((upto 0 8).map fun i => sget {} y.mb i)
    ++ [⟨y.wnext, false⟩, ⟨y.wlim, false⟩, ⟨y.wcfg, false⟩, ⟨y.tdisp, false⟩] ++ ((upto 0 4).map fun i => sget ⟨0x7F00#32, false⟩ y.tcfg i)
    ++ [y.seed, ⟨y.snapG, false⟩, ⟨y.snapT, false⟩]

/-- Poison bits of the words of a core block, as (first word, bits). -/
def Tile.blockPoison (x : Tile) (c : Nat) : List (Nat × List Bool) :=
  let y := x.core c
  [(0, (upto 0 64).map fun i => (y.task.sreg i).poi), (64, (upto 0 16).map fun i => (y.task.areg i).poi),
   (80, [(upto 0 8).any fun i => (y.task.preg i).poi]), (0xA0, (x.csrWords c).map PWord.poi)]
  ++ ((upto 0 8).map fun i => (0x60 + 4 * i, (upto 0 4).map fun k => (y.mreg i).poi.extractLsb' (32 * k) 32 != 0#32))
  ++ ((upto 0 128).map fun i => (0x400 + 64 * i, bitsOf 64 (y.vreg i).poi))
  ++ ((upto 0 4).map fun tb => (0x4400 + 512 * tb, (upto 0 512).map fun i => sget false y.tabPoi (512 * tb + i)))
  ++ ((upto 0 y.task.ldq.length).zip y.task.ldq).map (fun e => (0x4C00 + 64 * e.1, bitsOf 64 e.2.poi))
  ++ ((upto 0 y.task.sdq.length).zip y.task.sdq).map (fun e => (0x5400 + 64 * e.1, bitsOf 64 e.2.poi))

/-- The core block at offset o. The bytes of the loop and call stacks and of the queue widths are free values: their layout is not given. -/
def Tile.putBlock (x : Tile) (c o free : Nat) (m : SMap Byte) : SMap Byte :=
  let y := x.core c
  let p := y.leaveMon
  let m := putWords m o ((upto 0 64).map fun i => (y.task.sreg i).val)
  let m := putWords m (o + 0x100) ((upto 0 16).map fun i => (y.task.areg i).val)
  let m := ssetBytes m (o + 0x140) 4 (predBits y.task)
  let m := (upto 0 8).foldl (fun m i => ssetBytes m (o + 0x180 + 16 * i) 16 (y.mreg i).val.toNat) m
  let m := putWords m (o + 0x200) ((upto 0 32).map fun k => (y.token k).word)
  let m := putWords m (o + 0x280) ((x.csrWords c).map PWord.val)
  let m := if y.loops.isEmpty && y.calls.isEmpty then m
    else (upto 0x380 160).foldl (fun m i => sset 0#8 m (o + i) (Config.reportByte free i)) m
  let m := putWords m (o + 0x420)
    [BitVec.ofNat 32 p.pc, BitVec.ofNat 32 y.tsk, BitVec.ofNat 32 (match y.budget with | some b => b - y.tsk | none => 0xFFFF_FFFF), BitVec.ofNat 32 p.calls.length
     , y.crc.zeroExtend 32]
  let m := ssetBytes m (o + 0x440) 16 ((upto 0 64).foldr (fun b v => y.bar b + 4 * v) 0)
  let m := if y.task.ldq.isEmpty && y.task.sdq.isEmpty then m else (upto 0x480 64).foldl (fun m i => sset 0#8 m (o + i) (Config.reportByte free i)) m
  let m := (upto 0 128).foldl (fun m i => ssetBytes m (o + 0x1000 + 256 * i) 256 (y.vreg i).val.toNat) m
  let m := (upto 0 8).foldl (fun m z => ssetBytes m (o + 0x9000 + 4096 * z) 4096 (sgetBytes (y.slotImg z) 0 4096)) m
  let m := (upto 0 1024).foldl (fun m i => ssetBytes m (o + 0x1_1000 + 8 * i) 8 (sget 0#64 y.tab i).toNat) m
  let m := ((upto 0 y.task.ldq.length).zip y.task.ldq).foldl (fun m e => ssetBytes m (o + 0x1_3000 + 256 * e.1) 256 e.2.val.toNat) m
  let m := ((upto 0 y.task.sdq.length).zip y.task.sdq).foldl (fun m e => ssetBytes m (o + 0x1_5000 + 256 * e.1) 256 e.2.val.toNat) m
  let bits := (x.blockPoison c).foldl (fun v e => Nat.lor v (packBits e.2 * 2 ^ e.1)) 0
  ssetBytes m (o + 0x1_6000) 0xB00 bits

/-- The valid regions of the node's cores in their order: SAVE or STAGED. -/
def Tile.regionsOf (x : Tile) (staged : Bool) (cs : List Nat) : List StreamJob :=
  (cs.map fun c => (x.core c).crg.filterMap fun e => match e.region with | some (j, b) => if b == staged then some j else none | none => none).flatten
/-- The entries whose descriptors break the rules: they are ignored, and reported (R357). -/
def Tile.ignoredOf (x : Tile) (cs : List Nat) : List (Nat × Nat) :=
  (cs.map fun c => let l := (x.core c).crg; ((upto 0 l.length).zip l).filterMap fun e => if e.2.region.isNone then some (c, e.1) else none).flatten
/-- Regions with the places of their bytes in the area, one after the other. -/
def placeRegions (staged : Bool) : List StreamJob → Nat → List (Bool × StreamJob × Nat)
  | [], _ => []
  | j :: r, o => (staged, j, o) :: placeRegions staged r (o + if staged then 0 else j.regionBytes)

/-- The body without its region contents, the SAVE regions still to be read into it, and where it ends. -/
def Tile.body (x : Tile) (cs : List Nat) (free : Nat) : SMap Byte × List (Bool × StreamJob × Nat) × Nat :=
  let m := cs.foldl (fun m c =>
    let y := x.core c
    let m := ((upto 0 y.crg.length).zip y.crg).foldl (fun m e => putList m (0x1000 + 512 * c + 32 * e.1) (e.2.desc.getD [])) m
    x.putBlock c (0x1_0000 + 0x2_0000 * c) free m) []
  let l := x.regionsOf false cs
  (m, placeRegions false l 0x9_0000, 0x9_0000 + (l.map StreamJob.regionBytes).sum)

/-- CRC-32 of IEEE 802.3 over bytes: reflected, initial value and final XOR all ones. -/
def crc32Byte (c : BitVec 32) (b : Byte) : BitVec 32 :=
  (upto 0 8).foldl (fun c _ => if c.getLsbD 0 then (c >>> 1) ^^^ 0xEDB8_8320#32 else c >>> 1) (c ^^^ b.zeroExtend 32)
def crc32 (l : List Byte) : Word := l.foldl crc32Byte 0xFFFF_FFFF#32 ^^^ 0xFFFF_FFFF#32

/-! ### Saving (R359, R360) -/

/-- The save waits until the cores are quiet, their summary queues empty and every descriptor read has performed (R220, R357). -/
def Tile.quietFor (x : Tile) (cs : List Nat) : Bool :=
  cs.all fun c => let y := x.core c; y.quiet && y.sumQ.isEmpty && y.crg.all fun e => e.desc.isSome

/-- A save stops: the first unwritten byte and the reason. -/
def Tile.stopSave (x : Tile) (v : SaveEng) (code : Nat) : Tile :=
  { (coresOf v.cmask).foldl (fun x c => x.upC c fun y => { y with svcur := BitVec.ofNat 32 v.pos, svst := BitVec.ofNat 32 code }) x with
    save := some { v with stopped := true } }

/-- The block that the engine moves next has passed its bank or its bus; `going` false where it has to wait or to try again (R231, R414).
A block whose bus fails for good stops the engine as a media error does (log 120). -/
def Tile.regionTry (x : Tile) (gc free tc : Nat) (v : SaveEng) (j : StreamJob) : Tile × Bool × Bool :=
  let put (j : StreamJob) : SaveEng := { v with regs := match v.regs with | (b, _, o) :: r => (b, j, o) :: r | [] => [] }
  if !x.localFree j.space j.here 64 tc || x.laneTest.isSome then (x, false, false)
  else if j.space = 0 then (x.localClaim 0 j.here 64, true, false)
  else
    let b := x.busTry gc free (j.here / sliceSize) j.tries
    if b.2.2.2 then (b.1, false, true)
    else if b.2.2.1 then (b.1, true, false)
    else ({ b.1 with save := some (put { j with tries := b.2.1 }) }, false, false)
/-- The regions after a block of the first has moved. -/
def SaveEng.moved (v : SaveEng) : SaveEng :=
  match v.regs with
  | [] => v
  | (b, j, o) :: r => let j := { j.advance 64 with ans := none }; { v with regs := if j.fin then r else (b, j, o) :: r }

/-- The engine reads the next block of a SAVE region into the image: bytes and poison. -/
def Tile.regionRead (x : Tile) (gc free tc : Nat) (v : SaveEng) : Tile :=
  match v.regs with
  | [] => x
  | (_, j, o) :: _ =>
    let r := x.regionTry gc free tc v j
    if r.2.2 then r.1.stopSave v 3
    else if !r.2.1 then r.1
    else
      let x := r.1.meet j.space j.here 64
      let d := x.localRead j.space j.here 64
      let p := j.imgAt o
      { x with save := some { v.moved with image := ssetBytes (ssetBytes v.image p.1 64 d.1) p.2 2 d.2 } }

/-- A write of the engine at the hub, and what follows; a failed one stops the save, and an integrity failure aborts the job (R251). -/
def State.saveWrite (s : State) (t tc : Nat) (v : SaveEng) (dva n d : Nat) (after : State → State) : State :=
  let r := s.ask t tc fun s => match s.pushDva (homeHub t) dva n d with | .ok u => (u, {}) | .error c => (s, { code := c })
  if r.2.code = 0 then after r.1
  else if r.2.code = 0x21 then (r.1.upT t fun x => x.stopSave v 3).escalate t 1
  else r.1.upT t fun x => x.stopSave v r.2.code

/-- One piece of the body. -/
def State.savePiece (s : State) (t tc : Nat) (v : SaveEng) : State :=
  if v.len ≤ v.pos then s.upT t fun x => x.stopSave v 2
  else
    let n := min (sectorLeft (v.area + v.pos) (v.bodyEnd - v.pos)) (v.len - v.pos)
    s.saveWrite t tc v (v.area + v.pos) n (sgetBytes v.image v.pos n) fun s => s.upT t fun x => { x with save := some { v with pos := v.pos + n, wake := tc + 1 } }

/-- The first bytes of the save area (R358). -/
def SaveEng.header (v : SaveEng) (glob : Nat) : List Byte :=
  let body := getList v.image 0x40 (v.bodyEnd - 0x40)
  bytesOf 0x5EA1_0001 4 ++ bytesOf (v.node + 256 * v.cmask) 4 ++ bytesOf glob 8 ++ bytesOf (v.bodyEnd - 0x40) 4 ++ bytesOf (crc32 body).toNat 4
    ++ List.replicate 40 0#8

/-- Resets a saved core (R359): what is no part of a context stays; a decode-fault trap not taken goes to the trap log (R297). -/
def Core.afterSave (c : Core) : Core :=
  { seq := c.seq, trapLog := c.trapLog ++ c.decFault.map fun i => c.logged i, tlast := c.tlast, svlo := c.svlo, svhi := c.svhi, svlen := c.svlen
    hint := c.hint, hintEnd := c.hintEnd, node := c.node, pend := c.pend.filter (·.mon) }

/-- The state after the seal: the cores are idle and at reset, the node is ready again. -/
def Tile.sealed (x : Tile) (tc : Nat) (v : SaveEng) : Tile :=
  let cs := coresOf v.cmask
  let ctx := cs.map fun c => let y := x.core c; (c, { (if y.mode == .monitor then y.leaveMon else y) with decFault := [] })
  let x := cs.foldl (fun x c => x.upWhole c Core.afterSave) x
  { x.upRt v.node fun r => { r with st := .ready, ready := tc, saved := some (v.area, v.len), ctx := ctx } with save := none }

/-! ### Restoring (R361) -/

def wordAt (l : List Byte) (o : Nat) : Nat := recNum l o 4

/-- A core from its block: what the layout gives is read back, the rest is as it was saved, the poison of each predicate and mask bit among it
(log 44). -/
def Core.fromBlock (c : Core) (b : List Byte) : Core :=
  let w (o : Nat) : Word := BitVec.ofNat 32 (wordAt b o)
  let poi (o : Nat) : Bool := (b.getD (0x1_6000 + o / 32) 0#8).getLsbD (o / 4 % 8)
  let pw (o : Nat) : PWord := ⟨w o, poi o⟩
  let bank := (upto 0 64).foldl (fun k i => k.setS i (pw (4 * i))) c.task
  let bank := (upto 0 16).foldl (fun k i => k.setA i (pw (0x100 + 4 * i))) bank
  let bank := (upto 1 7).foldl (fun k i => k.setP i ⟨(w 0x140).getLsbD i, (k.preg i).poi⟩) bank
  let entry (o : Nat) (e : QEntry) : QEntry := { e with val := BitVec.ofNat 2048 (recNum b o 256), poi := BitVec.ofNat 64 (packBits ((upto 0 64).map fun k => poi (o + 4 * k))) }
  let bank := { bank with
    ldq := ((upto 0 bank.ldq.length).zip bank.ldq).map fun e => entry (0x1_3000 + 256 * e.1) e.2
    sdq := ((upto 0 bank.sdq.length).zip bank.sdq).map fun e => entry (0x1_5000 + 256 * e.1) e.2 }
  let c := (upto 1 7).foldl (fun c i => c.setM i (BitVec.allOnes 128) (BitVec.ofNat 128 (recNum b (0x180 + 16 * i) 16)) (c.mreg i).poi) { c with task := bank }
  let c := (upto 0 32).foldl (fun c k => c.setTok k ((c.token k).ofWord (w (0x200 + 4 * k)))) c
  let c := (upto 0 128).foldl (fun c i =>
    c.setV i ⟨BitVec.ofNat 2048 (recNum b (0x1000 + 256 * i) 256), BitVec.ofNat 64 (packBits ((upto 0 64).map fun k => poi (0x1000 + 256 * i + 4 * k)))⟩) c
  let rem := (w 0x428).toNat
  { c with
    aflags := w 0x280 &&& 0x003F_073F#32, satm := (w 0x284).getLsbD 29, strict := (w 0x288).getLsbD 31, qs := (w 0x28C).getLsbD 0, qv := (w 0x28C).getLsbD 1
    mb := (upto 0 8).foldl (fun m i => sset {} m i (pw (0x290 + 4 * i))) []
    wnext := w 0x2B0, wlim := w 0x2B4, wcfg := w 0x2B8, tdisp := w 0x2BC &&& 7#32
    tcfg := (upto 0 4).foldl (fun m i => sset ⟨0x7F00#32, false⟩ m i ⟨w (0x2C0 + 4 * i) &&& 0xFFFF_FFC0#32, poi (0x2C0 + 4 * i)⟩) []
    seed := pw 0x2D0, snapG := w 0x2D4, snapT := w 0x2D8
    pc := (w 0x420).toNat % 2 ^ 24, npc := (w 0x420).toNat % 2 ^ 24, tsk := (w 0x424).toNat, due := (w 0x424).toNat
    budget := if rem = 0xFFFF_FFFF then none else some ((w 0x424).toNat + rem)
    crc := (w 0x430).extractLsb' 0 16
    bars := (upto 0 64).foldl (fun m i => sset 0 m i ((b.getD (0x440 + i / 4) 0#8).toNat / 4 ^ (i % 4) % 4)) []
    z := (upto 0 (8 * 4096)).foldl (fun m i => sset 0#8 m i (b.getD (0x9000 + i) 0#8)) []
    tab := (upto 0 1024).foldl (fun m i => sset 0#64 m i (BitVec.ofNat 64 (recNum b (0x1_1000 + 8 * i) 8))) []
    tabPoi := (upto 0 2048).foldl (fun m i => sset false m i (poi (0x1_1000 + 4 * i))) []
    preReq := none, deferred := [], lcause := [], monAt := none, killed := none }

/-- The checks, and the body if they hold: SEAL, node and CMASK, CRC-32; 0x100 where one fails, else the code of a read that fails. -/
def State.readSaved (s : State) (hub : Nat) (v : SaveEng) : HubAns :=
  match s.pull hub v.area 0x40 with
  | .error e => { code := e }
  | .ok (h, _) =>
    let n := wordAt h 0x10
    if wordAt h 0 ≠ 0x5EA1_0001 || wordAt h 4 ≠ v.node + 256 * v.cmask || v.len < n + 0x40 then { code := 0x100 }
    else match s.pull hub (v.area + 0x40) n with
      | .error e => { code := e }
      | .ok (l, bad) => if bad.isEmpty && wordAt h 0x14 == (crc32 l).toNat then { data := recNum (h ++ l) 0 (0x40 + n), addr := 0x40 + n } else { code := 0x100 }

/-- A restore that fails its checks, or cannot fetch: the node stays stopped and Rotrum restores the job, or aborts it after an integrity
failure (R251, R361). -/
def State.failRestore (s : State) (t : Nat) (v : SaveEng) (code : Nat) : State :=
  (s.upT t fun x => { (coresOf v.cmask).foldl (fun x c => x.upC c fun y => { y with svst := 4#32 }) x with save := none }).escalate t (if code = 0x21 then 1 else 0)

/-- The area is read and checked; the core blocks go back, and the regions follow (R361). -/
def State.restoreCores (s : State) (t tc : Nat) (v : SaveEng) : State :=
  let cs := coresOf v.cmask
  let r := s.ask t tc fun s => (s, s.readSaved (homeHub t) v)
  if r.2.code ≠ 0 then r.1.failRestore t v r.2.code
  else
    let body := bytesOf r.2.data r.2.addr
    let ctx := ((s.tile t).rt v.node).ctx
    r.1.upT t fun x =>
      let x := cs.foldl (fun x c => match ctx.find? fun e => e.1 == c with
        | some (_, y) =>
          let k := y.fromBlock (body.drop (0x1_0000 + 0x2_0000 * c))
          x.upWhole c fun z => { k with mode := .stopped, seq := max z.seq k.seq, trapLog := z.trapLog, pend := z.pend }
        | none => x) x
      { x with save := some { v with image := putList [] 0 body, bodyEnd := r.2.addr, wake := tc + 1
                                     regs := placeRegions false (x.regionsOf false cs) 0x9_0000 ++ placeRegions true (x.regionsOf true cs) 0 } }

/-- The next block of a region goes back: of a SAVE region from the image, of a STAGED one from its source, fetched again; a media error
poisons it. -/
def State.regionWrite (s : State) (t tc : Nat) (v : SaveEng) : State :=
  match v.regs with
  | [] => s
  | (staged, j, o) :: rest =>
    match staged, j.ans with
    | true, none =>
      let r := s.ask t tc fun s => (s, s.pullAns (homeHub t) j.remote 64)
      if r.2.code ≠ 0 then r.1.failRestore t v r.2.code
      else r.1.upT t fun x => { x with save := some { v with regs := (true, { j with ans := some r.2 }, o) :: rest } }
    | _, a =>
      let r := (s.tile t).regionTry s.glob s.free tc v j
      if r.2.2 then (s.setTile t r.1).failRestore t v 3
      else if !r.2.1 then s.setTile t r.1
      else
        let p := j.imgAt o
        let d := match a with
          | some a => (a.data, if a.bad.isEmpty then 0 else 2 ^ 16 - 1)
          | none => (sgetBytes v.image p.1 64, sgetBytes v.image p.2 2)
        s.setTile t { r.1.localWrite j.space j.here 64 d.1 d.2 with save := some v.moved, journal := r.1.journal + 1 }

/-- The counted arrivals are added, and all cores resume in one cycle (R220, R361). -/
def Tile.resumeNode (x : Tile) (v : SaveEng) : Tile :=
  let ctx := (x.rt v.node).ctx
  let mine := x.savedArr.filter fun a => a.1 == v.node
  let x := { x with savedArr := x.savedArr.filter fun a => a.1 != v.node, save := none }
  let x := mine.foldl (fun x a => x.upC a.2.1 fun y => (y.fail a.2.2.1 a.2.2.2).arrive a.2.2.1 1) x
  let x := ctx.foldl (fun x e => x.upC e.1 fun y => { y with mode := e.2.mode }) x
  x.upRt v.node fun r => { r with saved := none, ctx := [], restoring := none }

/-! ### The engine's turn -/

/-- contextSave: the save engine's next block or piece; or, in the turn with argument 1, which stands before the cores', the end of a restore.
A restore begins after a time that is free. -/
def execContextSave (s : State) : Host.Outcome State Fault Refusal :=
  let t := s.curT
  let tc := s.tcyc t
  match s.here.save with
  | none => .next s
  | some v =>
    let put (v : SaveEng) (s : State) : State := s.upT t fun x => { x with save := some v }
    if v.stopped || decide (tc < v.wake) then .next s
    else if s.curArg = 1 then .next (if v.restore && v.bodyEnd != 0 && v.regs.isEmpty then s.upT t fun x => x.resumeNode v else s)
    else if v.restore then
      (if !v.going then .next (put { v with going := true, wake := tc + 160 + Config.delay s.free } s).draw
       else if v.bodyEnd = 0 then .next (s.restoreCores t tc v)
       else .next (s.regionWrite t tc v))
    else if !v.going then
      (if s.here.quietFor (coresOf v.cmask) then
        let b := s.here.body (coresOf v.cmask) s.free
        .next ((put { v with going := true, image := b.1, regs := b.2.1, bodyEnd := b.2.2, pos := 0x40, wake := tc + Config.delay s.free } s).upT t
          fun x => { x with crgIgn := x.ignoredOf (coresOf v.cmask) }).draw
       else .next s)
    else if !v.regs.isEmpty then .next ((s.upT t fun x => x.regionRead s.glob s.free tc v).draw)
    else .next (if v.pos < v.bodyEnd then s.savePiece t tc v else s)

/-- seal: after the last body write has been confirmed. -/
def execSeal (s : State) : Host.Outcome State Fault Refusal :=
  let t := s.curT
  let tc := s.tcyc t
  match s.here.save with
  | some v =>
    if v.restore || v.stopped || !v.going || !v.regs.isEmpty || decide (v.pos < v.bodyEnd) || decide (tc < v.wake) then .next s
    else .next (s.saveWrite t tc v v.area 0x40 (recNum (v.header s.glob) 0 0x40) fun s => s.upT t fun x => x.sealed tc v)
  | none => .next s

end Sys2Proof.Machine
end

