-- ==== Sys2Proof/Machine/Recovery.lean ====
section
/-! DEFINITION. Recovery: tile checkpoints and the undo log, rollback and replay, corrected words, migration, retention, job
restore (R25, R26, R404 to R413, R416, R417, R421 to R429). -/

namespace Sys2Proof.Machine

/-! ### Tile checkpoints and the undo log (R405 to R407) -/

/-- Records the log holds: both retained intervals. -/
def Tile.records (x : Tile) : Nat := x.undo.length + x.journal + match x.ck with | _ :: b :: _ => b.2.2 | _ => 0

/-- The copied part of a checkpoint (R405): all but the memories, latches, tables and accumulators. -/
def Tile.copied (x : Tile) : Tile :=
  { x with
    tm := [], tmPoi := [], ds := [], dsPoi := [], latch := [], latchPoi := [], ck := [], undo := [], undoOld := [], outside := [], outsideOld := []
    code := [], clock := [], gone := [], answers := []
    cores := x.cores.map fun e => (e.1, { e.2 with z := [], tab := [], tabPoi := [], v := [], shadow := [], shadowOld := [] }) }

/-- What a list keeps of entries from tile cycle c on. -/
def since {α : Type} (c : Nat) (l : List (Nat × α)) : List (Nat × α) := l.filter fun e => decide (c ≤ e.1)
/-- The clock from tile cycle c on: the entry in force there too. -/
def clockSince {α : Type} (c : Nat) (l : List (Nat × α)) : List (Nat × α) :=
  ((l.filter fun e => decide (e.1 < c)).getLast?).toList ++ since c l

/-- A checkpoint of tile t at its tile cycle tc: the newer of the two becomes the older, whose records go. -/
def State.checkpoint (s : State) (t tc : Nat) : State :=
  let x := s.tile t
  let old := x.ck.take 1
  let c := old.foldl (fun _ a => a.1) tc
  { s.upT t (fun x => { x.allCores (fun y => { y with shadow := [], shadowOld := y.shadow }) with
      ck := (tc, s.gcyc, 0) :: old.map fun a => (a.1, a.2.1, x.undo.length + x.journal)
      undo := [], journal := 0, undoOld := x.undo, outside := [], outsideOld := x.outside
      clock := clockSince c x.clock, gone := since c x.gone, answers := since c x.answers }) with
    snaps := sset [] s.snaps t (x.copied :: if old.isEmpty then [] else (sget [] s.snaps t).take 1) }

/-- tileCheckpoint: at the start of a tile cycle whose TCYC is a multiple of 512, or of the first after a change from outside; and, with
argument 1, the freeze that a full log brings at a tile cycle's end, until the newer checkpoint is 160 global cycles old. -/
def execTileCheckpoint (s : State) : Host.Outcome State Fault Refusal :=
  let t := s.curT
  let tc := s.tcyc t
  let x := s.here
  if s.curArg = 1 then
    .next (match x.ck with
      | a :: _ :: _ =>
        if 4096 ≤ x.records ∧ !(x.frz.any fun f => f.1 == .undo) then s.upHere fun x => { x with frz := x.frz ++ [(.undo, some (max (s.gcyc + 1) (a.2.1 + 160)))] }
        else s
      | _ => s)
  else .next (if match x.ck with | a :: _ => tc % 512 == 0 && a.1 != tc | [] => true then s.checkpoint t tc else s)

/-- Freezes of a kind that end now leave the tile. -/
def Tile.thaw (x : Tile) (g : Nat) (k : Frz) : Tile := { x with frz := x.frz.filter fun f => !(f.1 == k && (match f.2 with | some e => decide (e ≤ g) | none => false)) }

/-- The older checkpoint goes with its records. -/
def Tile.dropOlder (x : Tile) : Tile :=
  { x.allCores (fun y => { y with shadowOld := [] }) with ck := x.ck.take 1, undoOld := [], outsideOld := [] }
/-- undoFreezeEnd: a freeze for a full log is over. -/
def execUndoFreezeEnd (s : State) : Host.Outcome State Fault Refusal :=
  .next (s.tiles.foldl (fun s e =>
    if e.2.frz.any fun f => f.1 == .undo && (match f.2 with | some g => decide (g ≤ s.gcyc) | none => false) then
      { s.upT e.1 (fun x => (x.thaw s.gcyc .undo).dropOlder) with snaps := sset [] s.snaps e.1 ((sget [] s.snaps e.1).take 1) }
    else s) s)

/-! ### Strikes, rollback and replay (R404, R408 to R411, R413) -/

/-- What is not the tile's checkpointed state, as tile x has it: freezes, the records of Rotrum and the balancer, the router, marks, and what
the replay itself keeps. -/
def Tile.withLive (y x : Tile) : Tile :=
  { y with
    lag := x.lag, frz := x.frz, lastBal := x.lastBal, nBal := x.nBal, ps := x.ps, retLoss := x.retLoss, retBad := x.retBad, errbank := x.errbank
    errEvts := x.errEvts, errAt := x.errAt, errBase := x.errBase, corr := x.corr, wantMig := x.wantMig, strikes := x.strikes, hold := x.hold, store := x.store
    linkFree := x.linkFree, rr := x.rr, noCode := x.noCode, ccar := x.ccar, cunc := x.cunc, cres := x.cres, marks := x.marks, stepLeft := x.stepLeft
    arrq := y.arrq.filter (fun p => !p.coderAck) ++ x.arrq.filter Packet.coderAck
    clock := x.clock, late := x.late, replayTo := x.replayTo, toRedo := x.toRedo, barsAt := x.barsAt }

/-- A line's old contents return. -/
def Tile.undoOne (x : Tile) (u : Undo) : Tile :=
  let poi (m : SMap Bool) (g n : Nat) : SMap Bool := (upto 0 n).foldl (fun m i => sset false m (64 * u.line / g + i) (u.poi.testBit i)) m
  if u.space = 0 then { x with tm := ssetBytes x.tm (64 * u.line) 64 u.old, tmPoi := poi x.tmPoi 4 16 }
  else if u.space = 1 then { x with ds := ssetBytes x.ds (64 * u.line) 64 u.old, dsPoi := poi x.dsPoi 8 8 }
  else if u.space < 6 then x.upC (u.space - 2) fun y => { y with z := ssetBytes y.z (64 * u.line) 64 u.old }
  else if u.space = 6 then { x with latch := ssetBytes x.latch (64 * u.line) 64 u.old, latchPoi := poi x.latchPoi 8 8 }
  else x.upC (u.space - 7) fun y => { y with
    tab := (upto 0 8).foldl (fun m k => sset 0#64 m (8 * u.line + k) (BitVec.ofNat 64 (u.old / 2 ^ (64 * k)))) y.tab
    tabPoi := (upto 0 16).foldl (fun m i => sset false m (16 * u.line + i) (u.poi.testBit i)) y.tabPoi }
/-- A core of a checkpoint: its copied part, with the summary memory, tables and accumulators that records and shadows give back. -/
def Core.rolled (copied now : Core) (rows : List (Nat × VRow)) (older : List (Nat × VRow)) : Core :=
  { copied with z := now.z, tab := now.tab, tabPoi := now.tabPoi, v := rows.foldl (fun m e => sset {} m e.1 e.2) now.v, shadow := [], shadowOld := older }

/-- The tile at a checkpoint (R410, step 1): records from newest to oldest, then the shadows, then the copied part `c`; `deep`: the older of
the two. Its lee holds what had entered by then (step 2). -/
def Tile.rolled (x c : Tile) (deep : Bool) : Tile :=
  let m := (x.undo ++ if deep then x.undoOld else []).foldl Tile.undoOne x
  let y := (upto 0 4).foldl (fun y k =>
      let n := m.core k
      y.upC k fun z => z.rolled n (n.shadow ++ if deep then n.shadowOld else []) (if deep then [] else n.shadowOld))
    { c with tm := m.tm, tmPoi := m.tmPoi, ds := m.ds, dsPoi := m.dsPoi, latch := m.latch, latchPoi := m.latchPoi, code := x.code }
  { y with undoOld := if deep then [] else x.undoOld, outsideOld := if deep then [] else x.outsideOld }

/-- Journalled effects of tile cycle k, which a replay comes to, happen again. -/
def Tile.redoAt (x : Tile) (k : Nat) : Tile :=
  if x.replayTo.any fun r => decide (r < k) then x
  else (x.toRedo.filter fun e => decide (e.1 ≤ k)).foldl (fun (x : Tile) e => { x.take e.2 with outside := x.outside ++ [e] })
    { x with toRedo := x.toRedo.filter fun e => decide (k < e.1) }

/-- Tile t rolls back to the newer checkpoint, if it was taken at least 160 global cycles ago, else to the older (R409), and replays from there
to the last tile cycle it had run, under a freeze (R410). A report during a replay starts it again (R411). In this global cycle the tile runs
the checkpoint's own tile cycle, unless it stands frozen for another cause. -/
def State.rollback (s : State) (t : Nat) : State :=
  let x := s.tile t
  let l := sget [] s.snaps t
  let deep := (x.ck.drop 1).isEmpty == false && (x.ck.headD (0, 0, 0)).2.1 + 160 > s.gcyc
  let i := b2n deep
  match x.ck[i]?, l[i]? with
  | some (c, g, _), some copy =>
    let still := s.stands t
    let r := x.replayTo.getD (if still then s.tcyc t else s.tcyc t - 1)
    let y := (x.rolled copy deep).withLive x
    let y : Tile := { y with
      lag := if still then s.gcyc + 1 - c else s.gcyc - c
      frz := (x.frz.filter fun f => f.1 != .replay) ++ [(.replay, none)]
      ck := (c, g, 0) :: if deep then [] else x.ck.drop 1
      undo := [], journal := 0, outside := []
      toRedo := (if deep then x.outsideOld else []) ++ x.outside ++ x.toRedo
      answers := x.answers.filter (fun a => decide (a.1 < c)), redo := (since c x.answers).map Prod.snd ++ x.redo, gone := x.gone
      badBus := x.badBus, busLog := x.busLog, parity := []
      replayTo := some r, barsAt := if x.replayTo.isSome then x.barsAt else (upto 0 4).map fun k => (x.core k).bars }
    let y := if still then y.allCores fun z => if z.mode == .task || z.mode == .draining then { z with tsk := z.tsk - 1 } else z else y.redoAt c
    { s.setTile t y with snaps := sset [] s.snaps t (copy :: if deep then [] else l.drop 1) }
  | _, _ => s

/-- A report of the environment or of the bus: 0 a strike, 1 to 64 a parity error on column arg - 1, 65 an error in checkpoint storage, 66 the
parity errors of the tile's own fixed-latency beats, each with its event (R413). Four strikes within a millisecond migrate the tile (R422). -/
def execStrikeReport (s : State) : Host.Outcome State Fault Refusal :=
  let t := s.curT
  let a := s.curArg
  if a = 65 then .next ((s.upHere fun x => x.record s.glob true 0x0A 0#32 none).escalate t 0)
  else
    let tc := s.tcyc t
    let recent (l : List Nat) : List Nat := l.filter fun g => decide (s.glob < g + msCycles s.point)
    .next ((s.upHere fun x =>
      if a = 0 then
        let l := s.glob :: recent x.strikes
        { x.record s.glob false 0x05 (BitVec.ofNat 32 tc) none with strikes := l, wantMig := x.wantMig || decide (4 ≤ l.length) }
      else { (if a = 66 then x.parity else [a - 1]).foldl (fun x j => x.record s.glob false 0x04 (BitVec.ofNat 32 (j * 256)) none) x with parity := [] }).rollback t)

/-- The replay of tile t is over once it has run its last tile cycle: what is left of the journal, and what waited, happens (R410). -/
def State.endReplay (s : State) (t : Nat) : State :=
  s.upT t fun x =>
    match x.replayTo with
    | some r =>
      if (if s.stands t then s.tcyc t else s.tcyc t - 1) < r then x
      else
        (x.toRedo.map Prod.snd ++ x.late).foldl (fun x e => x.reached (s.nextCyc t) e fun x => x.take e)
          { x with replayTo := none, toRedo := [], redo := [], late := [], barsAt := [], frz := x.frz.filter fun f => f.1 != .replay }
    | none => x
/-- replayEnd. -/
def execReplayEnd (s : State) : Host.Outcome State Fault Refusal := .next (s.tiles.foldl (fun s e => if e.2.replayTo.isSome then s.endReplay e.1 else s) s)

/-! ### A tile's own turns (R203, R410) -/

/-- The tile's own counter of free values, which a replay counts again; a job restore begins a new one. -/
def drawBase (t e : Nat) : Nat := 2 ^ 512 * (t + 1) + 2 ^ 256 * e
/-- GCYC − TCYC, halted cycles and restores in tile cycle k, as the clock's record has them. -/
def Tile.clockAt (x : Tile) (k : Nat) : Nat × Nat × Nat := ((x.clock.filter fun e => decide (e.1 ≤ k)).getLast?.map Prod.snd).getD (0, 0, 0)
/-- The tile keeps its counter; the module's own stands as before. -/
def State.ownEnd (u : State) (t base free : Nat) : State := { u.upT t (fun x => { x with draws := u.free - base }) with free := free }

/-- One of tile t's own turns. In a replay it sees the global cycle of the tile cycle that it repeats, and nothing of what it does reaches
beyond the tile but packets that had not left before. -/
def State.asTile (s : State) (t : Nat) (f : State → Host.Outcome State Fault Refusal) : Host.Outcome State Fault Refusal :=
  let x := s.tile t
  if x.replayTo.isNone then
    let base := drawBase t s.restores
    match f { s with free := base + x.draws } with
    | .next u => .next (u.ownEnd t base s.free)
    | o => o
  else
    let k := s.tcyc t
    let (lag, halt, e) := x.clockAt k
    let base := drawBase t e
    match f { s.setTile t { x with lag := lag } with gcyc := k + lag, haltSum := halt, free := base + x.draws } with
    | .next u =>
      .next { s.setTile t (({ u.tile t with draws := u.free - base } : Tile).withLive x) with
        snaps := u.snaps, flights := s.flights ++ u.flights.drop s.flights.length }
    | o => o

/-! ### Corrected words (R412, R417) -/

/-- A met error's event: its source and word address. -/
def LatentErr.evt (e : LatentErr) : ErrEvt := ⟨e.double, e.space + 1, BitVec.ofNat 32 (if e.space = 0 then e.addr / 4 * 4 else e.addr / 8 * 8), none⟩
/-- A corrected word goes back where its bank or its bus is free in this cycle (R231, R412). -/
def Tile.backOne (x : Tile) (tc : Nat) (e : LatentErr) : Tile :=
  if e.space = 0 then (if x.bankFree e.addr then { x.claim e.addr with back := x.back.filter (· != e) } else x)
  else if x.busFree (e.addr / sliceSize) tc then { x with back := x.back.filter (· != e) } else x

/-- correctedWriteback: the errors that reads have met are recorded, and corrected words are written back; with more than 64 corrected errors
within a second the tile is to migrate (R422). With argument 1 Rotrum, which has read the error bank, clears it (R416). -/
def execCorrectedWriteback (s : State) : Host.Outcome State Fault Refusal :=
  if s.curArg = 1 then .next (s.upHere Tile.clearBank)
  else .next (s.upHere fun x =>
    let y : Tile := { x with seen := [], back := x.back ++ x.seen.filter fun e => !e.double }
    let y : Tile := x.seen.foldl (fun (y : Tile) e => y.record s.glob e.evt.ue e.evt.src e.evt.addr none) y
    let x : Tile := y.back.foldl (fun (y : Tile) e => y.backOne (s.tcyc s.curT) e) y
    let c := x.corr.filter fun g => decide (s.glob < g + 1000 * msCycles s.point)
    { x with corr := c, wantMig := x.wantMig || decide (64 < c.length) })

/-! ### The end of a job (R427, R428) -/

/-- Rotrum stops the job: every task is killed, every run stops. -/
def State.stopJob (s : State) : State :=
  { s with runs := [], restoreAt := none, tiles := s.tiles.map fun e =>
      let x := (upto 0 4).foldl (fun x c => if (x.core c).mode == .idle then x else x.kill c 0) e.2
      (e.1, { x.dropCk with running := false, comp := [], launchQ := [], save := none }) }
/-- The job is aborted; t is 6,912 where no tile's event led to it (R381). -/
def State.abort (s : State) (t reason : Nat) : State :=
  { (s.stopJob.report 0x83 (if t < 6912 then s.nameOf t 0 else 0xFFFF_FFFF) 0xFF reason) with aborted := true }

/-- A tile as its checkpoint has it, on the hardware that now serves it: errors and their records, the balancer's counts and a migration
under way are those of the present tile (R428). -/
def Tile.restoredOn (old now : Tile) (moving : Bool) : Tile :=
  { old with
    errs := now.errs, seen := now.seen, back := now.back, badBus := now.badBus, busLog := now.busLog, laneTest := now.laneTest, errbank := now.errbank
    errEvts := now.errEvts, errAt := now.errAt, errBase := now.errBase, corr := now.corr, strikes := now.strikes, wantMig := now.wantMig
    lastBal := now.lastBal, nBal := now.nBal, retBad := now.retBad, monRom := now.monRom, noCode := now.noCode
    frz := old.frz.filter (fun f => f.1 != .migrate) ++ if moving then [(.migrate, none)] else [] }
/-- The tiles of a checkpoint on the map in force. -/
def State.restored (s : State) (l : SMap Tile) : SMap Tile :=
  let on (t : Nat) (x : Tile) : Tile := x.restoredOn (s.tile t) (s.migs.any fun m => m.1 == t && decide (1 ≤ m.2.1))
  s.tiles.foldl (fun m e => sset {} m e.1 (on e.1 (sget {} l e.1))) (l.map fun e => (e.1, on e.1 e.2))
/-- The domain restarts from a checkpoint: tiles at their checkpointed TCYC, GCYC goes on, the named ranges return (R428). -/
def State.loadCkpt (s : State) (k : Ckpt) : State :=
  let d := s.gcyc - k.gcyc
  let s := { s with gcyc := k.gcyc, haltSum := s.haltSum + d, tiles := s.restored k.tiles, flights := k.flights, runs := k.runs, gangRel := k.gangRel, snaps := k.snaps, restores := s.restores + 1
                    restoreAt := none, halted := false, resumeAt := none, inputs := s.inputs.map (fun e => (e.1 - d, e.2)), clkAt := s.clkAt.map (· - d)
                    winAt := s.winAt - d, balAt := s.balAt.map (fun e => (e.1, e.2 - d)), pendOvl := s.pendOvl.map (fun e => (e.1 - d, e.2)), pendMap := s.pendMap.map (fun m => (m.1 - d, m.2)), migs := s.migs.map fun m => (m.1, m.2.1, m.2.2.1 - d, m.2.2.2) }
  k.ranges.foldl (fun s r => ((upto 0 ((r.2.length + 511) / 512)).foldl (fun s i =>
    match s.pushDva 0 (r.1 + 512 * i) (min 512 (r.2.length - 512 * i)) (recNum r.2 (512 * i) (min 512 (r.2.length - 512 * i))) with
    | .ok s => s | .error _ => s) s)) s

/-- The save area can be read: 0, or the status of the restore. -/
def State.areaStatus (s : State) (k : Ckpt) : Nat :=
  (upto 0 (k.len / 512)).foldl (fun st i =>
    if st ≠ 0 then st
    else match s.translate 0 (k.dva + 512 * i) false with
      | .error _ => 0x01
      | .ok y => if s.tagBad y 512 then 0x0B else if !(s.media y 512).isEmpty then 0x01 else 0) 0
/-- jobRestore (R427): from the newest sealed checkpoint, within 3 s; without one that can be read the job is aborted. Reason 1 aborts
after an integrity failure, of the save area too (R251, R389). -/
def execJobRestore (s : State) : Host.Outcome State Fault Refusal :=
  if s.aborted then .next s
  else if s.curArg = 1 then .next (s.abort s.curT 1)
  else match s.restoreAt with
    | some (g, i) =>
      .next (if s.gcyc < g || s.pendMap.isSome then s
        else match s.ckpts[i]? with
          | some k => (match s.areaStatus k with | 0 => s.loadCkpt k | 0x0B => s.abort s.curT 1 | _ => s.abort s.curT 2)
          | none => s.abort s.curT 2)
    | none =>
      if s.ckpts.isEmpty then .next (s.abort s.curT 2)
      else .next { s.stopJob with restoreAt := some (s.gcyc + 1 + Config.delay s.free % (3000 * msCycles s.point), s.ckpts.length - 1) }.draw

/-! ### Migration (R25, R289, R422 to R425, R429) -/

/-- Free oases: position 12 of a segment with no defect that serves nothing and has not failed. -/
def State.freeOases (s : State) : List (Nat × Nat) :=
  ((upto 0 576).filter fun i => (sget 0#32 s.seg i).getLsbD 15).map (fun i => (13 * (i % 8) + 12, i / 8))
    |>.filter fun p => !s.physFail.contains (104 * p.2 + p.1) && !(s.ovl.any fun e => e.2.getLsbD 31 && fld e.2 10 7 == p.1 && fld e.2 3 7 == p.2)
      && !(s.migs.any fun m => m.2.2.2 == 104 * p.2 + p.1)
/-- The next unused overlay entry: the lowest of all 64 (log 113). -/
def State.freeEntry (s : State) : Option Nat := (upto 0 64).find? fun i => !(sget 0#32 s.ovl i).getLsbD 31 && !(s.pendOvl.any fun e => e.2.1 == i)
/-- The tile lies in a gmma gang (R331, R425). -/
def Tile.inGmma (x : Tile) : Bool := let w := (sget [] x.gangE 0).getD 0 0#32; w.getLsbD 31 && w.getLsbD 30

/-- Migrations under way are given up: their tiles no longer stand still for them, and their routers may code again (R289, R423). -/
def State.dropMigs (s : State) : State :=
  { s with migs := [], pendOvl := [], tiles := s.tiles.map fun e => (e.1, { e.2 with noCode := false, frz := e.2.frz.filter fun f => f.1 != .migrate }) }
/-- The map is rebuilt with the tile and every tile left off marked failed (R429); it names the global cycle from which it is in force (R26),
and the job restarts on it then. -/
def State.rebuild (s : State) (t : Nat) : State :=
  let p := s.phys (t % 96) (t / 96)
  let bad := (104 * p.2 + p.1) :: s.physFail
  let m := buildMap (s.selfFail ++ s.recFail ++ bad)
  let s := s.stopJob.dropMigs
  if m.cause ≠ 0 then { s.abort t 3 with boot := .defectLimit, defectCause := m.cause, physFail := bad }
  else (({ s with pendMap := some (s.gcyc + 256 + Config.delay s.free % 1000, m.seg, m.ovl), physFail := bad } : State).draw).escalate t 0

/-- Rotrum decides to migrate tile t. -/
def State.startMig (s : State) (t : Nat) : State :=
  let s := s.upT t fun x => { x with wantMig := false }
  let p := s.phys (t % 96) (t / 96)
  if (s.tile t).inGmma then s.rebuild t
  else match nearestTo p s.freeOases, s.freeEntry with
    | some o, some _ => ({ (s.upT t fun x => { x with noCode := true }) with
        migs := s.migs ++ [(t, 0, s.gcyc + 1 + Config.delay s.free % 1000, 104 * o.2 + o.1)] } : State).draw
    | _, _ => s.rebuild t

/-- What the old router still holds goes on its way uncoded (R289). -/
def State.emptyRouter (s : State) (t : Nat) : State :=
  let halves := ((s.tile t).store.map fun e => e.h1.toList ++ e.h2.toList).flatten
  let s := s.upT t fun x => { x with store := [], cres := min (x.cres + halves.length) 0xFFFF_FFFF }
  halves.foldl (fun s p => s.forward t { p with resent := true }) (s.release t (fun _ => true) false)

/-- One step of a migration under way (R423): the stop, the overlay write, the end of the freeze on the oasis. Their times are log 113's. -/
def State.migStep (s : State) (m : Nat × Nat × Nat × Nat) : State :=
  let (t, k, g, o) := m
  let s := { s with migs := s.migs.filter (· != m) }
  let later (k d : Nat) (s : State) : State := ({ s with migs := s.migs ++ [(t, k, s.gcyc + d, o)] } : State).draw
  let x := s.phys (t % 96) (t / 96)
  if s.gcyc < g then { s with migs := s.migs ++ [m] }
  else match k with
    | 0 => later 1 (1 + Config.delay s.free % 1000) ((s.upT t fun x => { x with frz := x.frz ++ [(.migrate, none)] }).emptyRouter t)
    | 1 =>
      (match s.freeEntry with
       | some i => later 2 (257 + Config.delay s.free % 1000)
          { s with pendOvl := s.pendOvl ++ [(s.gcyc + 256 + Config.delay s.free % 1000, i, ovlWord (t % 96) (t / 96) (o % 104, o / 104) 1)]
                   physFail := (104 * x.2 + x.1) :: s.physFail }
       | none => s.rebuild t)
    | _ => s.upT t fun x => { x with frz := x.frz.filter (fun f => f.1 != .migrate), noCode := false, badBus := [], errs := [], busLog := [], strikes := [], corr := [] }

/-- migration: at the start of a global cycle, decisions in ascending (y, x), then the steps of those under way. -/
def execMigration (s : State) : Host.Outcome State Fault Refusal :=
  let s := s.tiles.foldl (fun s e => if e.2.wantMig && !(s.migs.any fun m => m.1 == e.1) then s.startMig e.1 else s) s
  .next (s.migs.foldl (fun s m => s.migStep m) s)

/-- What lies at the router of the physical tile q that has served tile t, or is on its way to it, goes on from there (R26, R424). In a replay
that is what waits for its end; what the journal repeats had left the router. -/
def State.leftBehind (s : State) (t q : Nat) : State :=
  let x := s.tile t
  let waits := if x.replayTo.isSome then x.late.filterMap fun e => match e with | .packet p => some p | _ => none else x.arrq
  let held := waits.map fun p => ({ p := p, tile := t, at' := s.gcyc, via := p.via, old := some q } : Flight)
  let mine (e : Outside) : Bool := match e with | .packet p => waits.contains p | _ => false
  let s := s.upT t fun x =>
    if x.replayTo.isSome then { x with late := x.late.filter fun e => !mine e }
    else { x with arrq := [], outside := x.outside.filter (fun e => !mine e.2), outsideOld := x.outsideOld.filter fun e => !mine e.2 }
  { s with flights := (s.flights.map fun f => if f.tile = t && f.old.isNone then { f with old := some q } else f) ++ held }
/-- A rebuilt map is in force from its global cycle on (R26, R429). -/
def State.applyMap (s : State) : State :=
  match s.pendMap with
  | some m => if m.1 ≤ s.gcyc then { s with seg := m.2.1, ovl := m.2.2, pendMap := none } else s
  | none => s
/-- overlayApply (R26): every router applies a write on its global cycle; the oasis it names is no longer free. -/
def execOverlayApply (s : State) : Host.Outcome State Fault Refusal :=
  let s := s.applyMap
  let due := s.pendOvl.filter fun e => decide (e.1 ≤ s.gcyc)
  .next (due.foldl (fun s e =>
    let i := 8 * fld e.2.2 3 7 + fld e.2.2 10 7 / 13
    let t := fld e.2.2 17 7 * 96 + fld e.2.2 24 7
    let q := s.phys (t % 96) (t / 96)
    let s := s.leftBehind t (104 * q.2 + q.1)
    { s with ovl := sset 0#32 s.ovl e.2.1 e.2.2, seg := sset 0#32 s.seg i (sget 0#32 s.seg i &&& 0xFFFF_7FFF#32) })
    { s with pendOvl := s.pendOvl.filter fun e => decide (s.gcyc < e.1) })

/-! ### Retention (R396, R421) -/

/-- Run-time state as LOAD_IMAGE sets it (R256). -/
def Chan.fresh (c : Chan) : Chan := { c with cr := winBytes c.win, sq := 0, so := 0, eq := 0, u := 0, got := [], slens := [], flags := 0#11 }
def Group.fresh (g : Group) : Group := { g with cr := g.dsts.map fun _ => winBytes g.win, sq := 0, so := 0 }
def CqE.fresh (e : CqE) : CqE := { e with st := 0, full := [], parts := [], j := 0, pos := 0, flags := 0#11, forced := false, left := 0, bad := false }

/-- A core after a parity loss: summary memory, and the record of its traps, which is the monitor's, stay. -/
def Core.afterLoss (c : Core) : Core := { z := c.z, trapLog := c.trapLog, seq := c.seq }
/-- A failing block is written as poisoned; a code page leaves the map, for code carries no poison, and is fetched from the image again
(log 121). -/
def Tile.poisonBlock (x : Tile) (b : Nat × Nat) : Tile :=
  match b.1 with
  | 0 => { x with tmPoi := sfill false x.tmPoi (1024 * b.2) 1024 true }
  | 1 => { x with dsPoi := sfill false x.dsPoi (512 * b.2) 512 true }
  | 2 => x.upC (b.2 / 64 % 4) fun y => if y.summ (b.2 % 64) = .empty then y else y.setImg (b.2 % 64) (y.summ (b.2 % 64)).setPois.image
  | 3 => { x with cmap := sset 0#32 x.cmap b.2 0#32 }
  | _ => x
/-- The nodes of the tasks that have been dispatched to the tile: each of their cores has been killed. What a saved task has issued counts still
(R420). -/
def Tile.killNodes (x : Tile) : SMap NodeRt :=
  ((upto 0 4).filter fun c => (x.core c).mode != .idle).foldl (fun m c =>
    let n := (x.core c).node
    let r := sget {} m n
    sset {} m n { r with kills := r.kills ++ [(c, 0)], sideEff := r.sideEff || r.ctx.any (fun e => e.2.sideEff), saved := none, ctx := [], restoring := none }) x.nrt
/-- What is left of a tile after a parity loss (R421): node states, memories and image tables. What Rotrum, the router and the balancer keep
of it is not the tile's own state: the error bank and bus log, the router's buffers and counters, launches on their way. -/
def Tile.afterLoss (x : Tile) : Tile :=
  let y : Tile :=
    { held := x.held, stage := x.stage, tm := x.tm, tmPoi := x.tmPoi, ds := x.ds, dsPoi := x.dsPoi, code := x.code, cmap := x.cmap, pages := x.pages
      nodes := x.nodes, succ := x.succ, nrt := x.killNodes, running := x.running, comp := x.comp
      chans := x.chans.map fun e => (e.1, e.2.fresh), groups := x.groups.map fun e => (e.1, e.2.fresh), cq := x.cq.map fun e => (e.1, e.2.fresh)
      routes := x.routes, side := x.side, barE := x.barE, gangE := x.gangE, gang := x.gang, replays := x.replays
      cores := x.cores.map fun e => (e.1, e.2.afterLoss)
      lag := x.lag, frz := x.frz, lastBal := x.lastBal, nBal := x.nBal, retLoss := x.retLoss + 1, monRom := x.monRom, errs := x.errs, seen := x.seen
      back := x.back, errbank := x.errbank, errEvts := x.errEvts, errAt := x.errAt, errBase := x.errBase, corr := x.corr, strikes := x.strikes
      badBus := x.badBus, busLog := x.busLog, launchQ := x.launchQ, arrq := x.arrq, hold := x.hold, store := x.store, linkFree := x.linkFree, rr := x.rr
      noCode := x.noCode, ccar := x.ccar, cunc := x.cunc, cres := x.cres, stepLeft := x.stepLeft }
  x.retBad.foldl Tile.poisonBlock y

/-- retentionExit: by POWER, a dispatch or an arrival. A parity loss is recorded, dispatched tasks are killed, and a second one migrates the
tile. -/
def Tile.leaveRetention (x : Tile) (glob : Nat) : Tile :=
  if x.ps = .active then x
  else
    let x := { x with ps := .active }
    match x.retBad with
    | [] => x
    | b :: _ => let x := (x.record glob true 0x09 (BitVec.ofNat 32 (4096 * b.2)) none).afterLoss; { x with wantMig := decide (2 ≤ x.retLoss) }

/-- With argument 1 it is the exit that a dispatch or an arrival causes, if there is one; otherwise the tile leaves at once. -/
def execRetentionExit (s : State) : Host.Outcome State Fault Refusal :=
  .next (s.upHere fun x => if s.curArg = 1 ∧ x.arrq.isEmpty ∧ (upto 0 4).all (fun c => (x.core c).mode == .idle) then x else x.leaveRetention s.glob)

end Sys2Proof.Machine
end

