-- ==== Sys2Proof/Machine/Sha3.lean ====
section
/-! DEFINITION. SHA3-512 over bytes (R388 names the function; FIPS 202 defines it, log 45). -/

namespace Sys2Proof.Machine

/-- The 25 lanes, lane (x, y) at 5·y + x. -/
abbrev Lanes := List (BitVec 64)
def Lanes.at' (l : Lanes) (i : Nat) : BitVec 64 := l.getD i 0#64

def keccakRounds : List (BitVec 64) :=
  [0x0000000000000001#64, 0x0000000000008082#64, 0x800000000000808A#64, 0x8000000080008000#64, 0x000000000000808B#64, 0x0000000080000001#64
   , 0x8000000080008081#64, 0x8000000000008009#64, 0x000000000000008A#64, 0x0000000000000088#64, 0x0000000080008009#64, 0x000000008000000A#64
   , 0x000000008000808B#64, 0x800000000000008B#64, 0x8000000000008089#64, 0x8000000000008003#64, 0x8000000000008002#64, 0x8000000000000080#64
   , 0x000000000000800A#64, 0x800000008000000A#64, 0x8000000080008081#64, 0x8000000000008080#64, 0x0000000080000001#64, 0x8000000080008008#64]
def keccakOffsets : List Nat := [0, 1, 62, 28, 27, 36, 44, 6, 55, 20, 3, 10, 43, 25, 39, 41, 45, 15, 21, 8, 18, 2, 61, 56, 14]

/-- One round: θ, ρ and π, χ, ι. -/
def keccakRound (a : Lanes) (rc : BitVec 64) : Lanes :=
  let c := (upto 0 5).map fun x => a.at' x ^^^ a.at' (5 + x) ^^^ a.at' (10 + x) ^^^ a.at' (15 + x) ^^^ a.at' (20 + x)
  let d := (upto 0 5).map fun x => Lanes.at' c ((x + 4) % 5) ^^^ (Lanes.at' c ((x + 1) % 5)).rotateLeft 1
  let t := (upto 0 25).map fun i => a.at' i ^^^ Lanes.at' d (i % 5)
  let b := (upto 0 25).map fun i =>
    let x := i % 5
    let y := i / 5
    let j := 5 * x + (x + 3 * y) % 5
    (Lanes.at' t j).rotateLeft (keccakOffsets.getD j 0)
  let e := (upto 0 25).map fun i =>
    let y := i / 5 * 5
    Lanes.at' b i ^^^ (~~~Lanes.at' b (y + (i + 1) % 5) &&& Lanes.at' b (y + (i + 2) % 5))
  match e with | h :: r => (h ^^^ rc) :: r | [] => []

def keccak (a : Lanes) : Lanes := keccakRounds.foldl keccakRound a

/-- The 64-bit words of a byte list, the first byte lowest. -/
def lanesOf : List Byte → Nat → Lanes
  | _, 0 => []
  | l, n + 1 => BitVec.ofNat 64 ((l.take 8).foldr (fun b v => b.toNat + 256 * v) 0) :: lanesOf (l.drop 8) n

/-- Absorbs k blocks of 72 bytes. -/
def absorb (a : Lanes) (l : List Byte) : Nat → Lanes
  | 0 => a
  | k + 1 =>
    let b := lanesOf l 9
    absorb (keccak ((upto 0 25).map fun i => a.at' i ^^^ Lanes.at' b i)) (l.drop 72) k

/-- SHA3-512: padding 0x06 … 0x80, rate 72 bytes, 64 bytes out. -/
def sha3 (m : List Byte) : List Byte :=
  let q := 72 - m.length % 72
  let pad : List Byte := if q = 1 then [0x86#8] else 0x06#8 :: (List.replicate (q - 2) 0#8 ++ [0x80#8])
  let a := absorb (List.replicate 25 0#64) (m ++ pad) (m.length / 72 + 1)
  ((a.take 8).map fun w => bytesOf w.toNat 8).flatten

/-- 64 bytes as one number, and back. -/
def num512 (l : List Byte) : BitVec 512 := BitVec.ofNat 512 ((l.take 64).foldr (fun b v => b.toNat + 256 * v) 0)
def bytes512 (x : BitVec 512) : List Byte := bytesOf x.toNat 64

end Sys2Proof.Machine
end

