-- ==== Sys2Proof/Machine/HostPort.lean ====
section
/-! DEFINITION. The form of every host command: the checks of R383 in their order, its turns until it ends, and its completion record in
submission order (R376, R379 to R383). A command starts with argument 0 of its turn; with argument n + 1 it is command n of its port that
goes on. -/

namespace Sys2Proof.Machine

/-- The port owns the module (R375). -/
def State.owns (s : State) (port : Bool) : Bool := s.owner == some port

/-- A host buffer can be reached through the port (R384). -/
def State.hostOk (s : State) (port : Bool) (b : Nat × Nat) : Bool := b.2 == 0 || ((s.port port).enabled && decide (b.1 + b.2 ≤ 2 ^ 52))

/-- A tile of this wafer that a host command names. -/
def State.named (s : State) (n : Word) : Option Nat := if nameCore n.toNat = 0 then s.tileOf n.toNat else none

/-- What a command needs before its own conditions: a tile of this wafer, ownership, a map without DEFECT_LIMIT, a debug permission, its host
buffers. -/
structure Need where
  owner : Bool := true
  map : Bool := false
  perm : Option Nat := none
  bufs : List (Nat × Nat) := []
  /-- The tile of this wafer that it names. -/
  name : Option Word := none
  /-- It is a QUERY, which BOOT_FAIL answers too (R386). -/
  query : Bool := false
  deriving DecidableEq, Repr

/-- The status of the first condition that fails, or 0 (R383). -/
def State.firstStatus (s : State) (port : Bool) (i : Instr) (n : Need) : Nat :=
  if !i.wf || n.name.any (fun w => (s.named w).isNone) then 0x01
  else if n.owner && !s.owns port then 0x02
  else if n.owner && s.scrubEnd.isSome then 0x0A
  else if n.map && s.boot == .defectLimit then 0x03
  else if n.perm.any fun k => !(s.dbgAuth && s.dbgMask.getLsbD k) then 0x07
  else if !n.bufs.all (s.hostOk port) then 0x0C
  else 0

/-- The command ends with a status and the eight bytes of its result. -/
def HostJob.done (j : HostJob) (status result : Nat) : HostJob := { j with fin := some (status, result) }

def State.putJob (s : State) (port : Bool) (j : HostJob) : State :=
  s.upPort port fun p => p.settle (p.jobs.map fun k => if k.n = j.n then j else k)

/-- The command enters its port's list. -/
def State.openJob (s : State) (port : Bool) (tag : Word) (i : Instr) : State :=
  s.upPort port fun p =>
    { p with jobs := p.jobs ++ [{ n := p.jobSeq, tag := tag, i := i }], jobSeq := p.jobSeq + 1 }

/-- One turn of a command. -/
abbrev HostAct := HostJob → State → State × HostJob
def State.hostTurn (s : State) (port : Bool) (j : HostJob) (run : HostAct) : State := let r := run j s; r.1.putJob port r.2

/-- A command's turn: its conditions first, once. -/
def State.commandTurn (s : State) (port : Bool) (i : Instr) (need : Need) (run : HostAct) (j : HostJob) : State :=
  if j.fin.isSome then s
  else if j.started then s.hostTurn port j run
  else match s.firstStatus port i need with
    | 0 => s.hostTurn port { j with started := true } run
    | st + 1 => s.putJob port (j.done (st + 1) 0)

/-- A command: it enters its port's list and starts, or one that is there has its turn. -/
def hostCommand (port : Bool) (tag : Word) (i : Instr) (need : Need) (run : HostAct) (s : State) : Host.Outcome State Fault Refusal :=
  if s.boot = .bootFail ∧ !need.query then .next s
  else if s.curArg = 0 then
    .next ((s.openJob port tag i).commandTurn port i need run { n := (s.port port).jobSeq, tag := tag, i := i })
  else match (s.port port).jobs.find? fun j => j.n + 1 == s.curArg with
    | some j => .next (s.commandTurn port i need run j)
    | none => .next s

/-- A command that ends in its first turn. -/
def atOnce (f : State → State × Nat × Nat) : HostAct := fun j s => let r := f s; (r.1, j.done r.2.1 r.2.2)

/-- n bytes of host memory at a, through a port. -/
def State.hostRead (s : State) (port : Bool) (a n : Nat) : List Byte := getList (s.port port).mem a n
def State.hostWrite (s : State) (port : Bool) (a : Nat) (l : List Byte) : State := s.upPort port fun p => { p with mem := putList p.mem a l }

/-- The answer to what is not a command (R380). -/
def execBadOpcode (port : Bool) (tag : Word) : State → Host.Outcome State Fault Refusal :=
  hostCommand port tag (.badOpcode port tag) { owner := false } (atOnce fun s => (s, 0x01, 0))

/-! ### The semaphore (R374, R375, R377) -/

/-- Word n after an operation, with whether it was refused. -/
def State.semAnswer (s : State) (n : Nat) (refused : Bool) : State × Nat × Nat := (s, 0, (sget 0#32 s.sem n).toNat + 2 ^ 32 * b2n refused)

/-- Acquiring sem0 takes ownership. -/
def State.takeOwner (s : State) (otmo : Nat) : State := { s with otmo := otmo, idleSince := s.glob, imgHash := 0#512, dbgEver := false }

def State.semAcquire (s : State) (port : Bool) (n : Nat) (tag : BitVec 16) (otmo : Nat) : State × Nat × Nat :=
  if n = 0 ∧ s.scrubEnd.isSome then (s, 0x0A, (s.semAnswer 0 true).2.2)
  else if (sget 0#32 s.sem n).getLsbD 31 then s.semAnswer n true
  else
    let s := { s with sem := sset 0#32 s.sem n (1#1 ++ BitVec.ofBool port ++ 0#14 ++ tag) }
    (if n = 0 then s.takeOwner otmo else s).semAnswer n false

def execSemaphoreAcquire (port : Bool) (tag : Word) (word : BitVec 8) (semTag : BitVec 16) (otmo : Word) : State → Host.Outcome State Fault Refusal :=
  hostCommand port tag (.semaphoreAcquire port tag word semTag otmo) { owner := false } (atOnce fun s => s.semAcquire port word.toNat semTag otmo.toNat)

/-- Releasing sem0 ends ownership; the word is free when the scrub ends. A second release before that changes nothing (log 90). -/
def State.semRelease (s : State) (port : Bool) (n : Nat) (tag : BitVec 16) : State × Nat × Nat :=
  let w := sget 0#32 s.sem n
  if !(w.getLsbD 31 && w.getLsbD 30 == port && w.extractLsb' 0 16 == tag) then s.semAnswer n true
  else (if n = 0 then (if s.scrubFree then s else s.stopJob.endOwnership) else { s with sem := sset 0#32 s.sem n 0#32 }).semAnswer n false

def execSemaphoreRelease (port : Bool) (tag : Word) (word : BitVec 8) (semTag : BitVec 16) : State → Host.Outcome State Fault Refusal :=
  hostCommand port tag (.semaphoreRelease port tag word semTag) { owner := false } (atOnce fun s => s.semRelease port word.toNat semTag)

def execSemaphoreRead (port : Bool) (tag : Word) (word : BitVec 8) (semTag : BitVec 16) : State → Host.Outcome State Fault Refusal :=
  hostCommand port tag (.semaphoreRead port tag word semTag) { owner := false } (atOnce fun s => s.semAnswer word.toNat false)

/-! ### Scrub (R377) -/

def execScrub (port : Bool) (tag : Word) : State → Host.Outcome State Fault Refusal :=
  hostCommand port tag (.scrub port tag) {} fun j s =>
    if j.stage = 0 then (s.startScrub false, { j with stage := 1 })
    else if s.scrubEnd.isSome then (s, j) else (s, j.done 0 0)

end Sys2Proof.Machine
end

