-- ==== Sys2Proof/Machine/Image.lean ====
section
/-! DEFINITION. LOAD_IMAGE: the records of a tile image, the checks of its form, of channels and of running tiles, and what a load leaves
(R254 to R256, R302 to R304, R330, R331, R341, R384, R385, R419, R445). -/

namespace Sys2Proof.Machine

/-! ### Records (R302) -/

/-- One record. -/
structure Rec where
  ty : Nat
  sub : Nat
  count : Nat
  tgt : Nat
  body : List Byte
  deriving DecidableEq, Repr

/-- The records before END; none where a header, a length or END itself is wrong. -/
def splitRecs : Nat → List Byte → Option (List Rec)
  | 0, _ => none
  | k + 1, l =>
    let h := l.take 16
    let len := recNum h 4 4
    let r : Rec := { ty := recNum h 0 1, sub := recNum h 1 1, count := recNum h 2 2, tgt := recNum h 8 4, body := (l.drop 16).take len }
    if h.length < 16 ∨ recNum h 12 4 ≠ 0 ∨ r.body.length < len then none
    else if r.ty = 0xFF then (if r.sub = 0 ∧ r.count = 0 ∧ len = 0 ∧ r.tgt = 0 ∧ (l.drop 16).isEmpty then some [] else none)
    else (splitRecs k (l.drop (16 + (len + 15) / 16 * 16))).map fun t => r :: t

/-- A body as n items of k bytes. -/
def itemsOf (k : Nat) : Nat → List Byte → List (List Byte)
  | 0, _ => []
  | n + 1, l => l.take k :: itemsOf k n (l.drop k)
/-- The words of an item. -/
def wordsOf (l : List Byte) : List Word := (upto 0 (l.length / 4)).map fun i => BitVec.ofNat 32 (recNum l (4 * i) 4)
/-- Bits lo to lo+n-1 of word i. -/
def wf' (w : List Word) (i lo n : Nat) : Nat := ((w.getD i 0#32).extractLsb' lo n).toNat
def wb (w : List Word) (i b : Nat) : Bool := (w.getD i 0#32).getLsbD b

/-! ### Table entries -/

/-- A channel descriptor (R255), and whether its reserved fields, codes and buffer are in order. -/
def chanOf (w : List Word) : Chan :=
  { sv := wb w 0 31, score := wf' w 0 29 2, cls := wf' w 0 27 2, grp := wb w 0 26, stok := wf' w 0 21 5, win := wf' w 0 17 4, dch := wf' w 0 9 8
    smode := wf' w 0 7 2, dest := wf' w 1 0 32, rv := wb w 2 31, rcore := wf' w 2 29 2, mode := wf' w 2 27 2, rop := wf' w 2 25 2, atok := wf' w 2 20 5
    rsz := wf' w 2 16 4, rbase := wf' w 3 0 32, orig := wf' w 4 0 32 }
def chanOk (w : List Word) : Bool :=
  let c := chanOf w
  wf' w 0 0 7 == 0 && wf' w 2 0 16 == 0 && (w.drop 5).all (· == 0#32)
  && (!c.sv || (decide (c.win ≤ 8) && (!c.grp || decide (c.dest < 64))))
  && (!c.rv || (c.mode != 3 && decide (c.rsz ≤ 8) && c.rbase % 4096 == 0 && decide (c.rbase + winBytes c.rsz ≤ tmSize) && (c.mode == 2 || c.rop == 0)))

/-- A group entry (R268). -/
def groupOf (w : List Word) : Group :=
  { v := wb w 0 31, core := wf' w 0 29 2, cls := wf' w 0 27 2, stok := wf' w 0 22 5, win := wf' w 0 18 4, dch := wf' w 0 10 8
    dsts := (upto 0 (wf' w 0 6 4 + 1)).map fun i => wf' w (1 + i) 0 32 }
def groupOk (w : List Word) : Bool :=
  wf' w 0 0 6 == 0 && (w.drop (2 + wf' w 0 6 4)).all (· == 0#32) && (!(groupOf w).v || decide ((groupOf w).win ≤ 8))

/-- A collective-queue entry (R272). -/
def cqOf (w : List Word) : CqE :=
  { v := wb w 0 31, kind := wf' w 0 28 3, core := wf' w 0 26 2, atok := wf' w 0 21 5, ctok := wf' w 0 16 5, op := wf' w 0 14 2, idx := wf' w 0 8 6
    ch := wf' w 1 0 8, loc := wf' w 2 0 32, raddr := wf' w 3 0 32, len := wf' w 4 0 16, thr := wf' w 4 16 16 }
def cqOk (w : List Word) : Bool :=
  let e := cqOf w
  wf' w 0 0 6 == 0 && wf' w 1 8 24 == 0 && (w.drop 5).all (· == 0#32)
  && (!e.v || (e.loc % 64 == 0 && decide (1 ≤ e.kind) && decide (e.kind ≤ 3) && decide (1 ≤ e.len) && decide (e.len ≤ 1024) && decide (e.loc + 64 * e.len ≤ tmSize)
       && (e.kind != 3 || decide (e.raddr + (e.idx + 1) * 64 * e.len ≤ tmSize))))

/-- A replay record (R419). -/
def replayOk (l : List Byte) : Bool :=
  let n := recNum l 0 1
  decide (1 ≤ n) && decide (n ≤ 8) && recNum l 1 7 == 0 && (upto 0 8).all fun i =>
    let a := recNum l (8 + 8 * i) 4
    let k := recNum l (12 + 8 * i) 4
    if n ≤ i then a == 0 && k == 0
    else a / 2 ^ 25 % 64 == 0 && a % 64 == 0 && k % 64 == 0 && decide (64 ≤ k) && decide (a % 2 ^ 25 + k ≤ if a < 2 ^ 31 then tmSize else dsSize)

/-- An image as it is read: its tile's tables, its coordinates, its memory contents. -/
structure TileImg where
  x : Nat := 0
  y : Nat := 0
  t : Tile := {}
  data : List (Nat × Nat × List Byte) := []
  deriving DecidableEq, Repr

/-- Item size of the table records, the least first index and the table's end (R302, R261, R330, R419). -/
def tableOf (ty : Nat) : Option (Nat × Nat × Nat) :=
  match ty with
  | 0x03 => some (32, 0, 256) | 0x04 => some (1, 0, 1024) | 0x05 => some (4, 0, 1024) | 0x06 => some (32, 0, 256) | 0x07 => some (80, 0, 64)
  | 0x08 => some (32, 0, 256) | 0x0A => some (4, 0, 64) | 0x0B => some (8, 0, 8) | 0x0E => some (72, 1, 256) | _ => none
/-- SUB of a table record: class, core, or zero. -/
def subOk (ty sub : Nat) : Bool :=
  if ty = 0x05 then decide (4 ≤ sub) && decide (sub ≤ 7) else if ty = 0x0A then decide (sub < 4) else sub == 0

/-- Item l of a table record goes to index i. -/
def TileImg.item (m : TileImg) (r : Rec) (i : Nat) (l : List Byte) : Option TileImg :=
  let w := wordsOf l
  let t := m.t
  match r.ty with
  | 0x03 => some { m with t := { t with nodes := sset [] t.nodes i (if w.all (· == 0#32) then [] else w) } }
  | 0x04 => some { m with t := { t with succ := sset 0 t.succ i (recNum l 0 1) } }
  | 0x06 => if chanOk w then some { m with t := { t with chans := sset {} t.chans i (chanOf w) } } else none
  | 0x07 => if groupOk w then some { m with t := { t with groups := sset {} t.groups i (groupOf w) } } else none
  | 0x08 => if cqOk w then some { m with t := { t with cq := sset {} t.cq i (cqOf w) } } else none
  | 0x0A => if wf' w 0 0 23 = 0 then some { m with t := { t with barE := sset 0#32 t.barE (64 * r.sub + i) (w.getD 0 0#32) } } else none
  | 0x0B => if wf' w 0 0 10 = 0 ∧ wf' w 1 0 12 = 0 then some { m with t := { t with gangE := sset [] t.gangE i (if w.all (· == 0#32) then [] else w) } } else none
  | 0x05 =>
    let v := w.getD 0 0#32
    if (i = 0 ∨ (0x100 ≤ i ∧ i ≤ 0x1FF)) ∧ v &&& routeReserved i = 0#32 then some { m with t := { t with routes := sset 0#32 t.routes (1024 * r.sub + i) v } } else none
  | 0x09 =>
    let b := w.getD 0 0#32
    let a := wf' w 1 0 32
    let n := wf' w 2 0 32
    if n % 64 = 0 ∧ 64 ≤ n ∧ n ≤ 32768 ∧ addrOk a n 64 tmSize ∧ !(t.side.any fun e => e.2.bid == b) ∧ t.side.length < 256 then
      some { m with t := { t with side := sset {} t.side t.side.length { held := true, addr := a, bid := b, len := n / 64 } } }
    else none
  | 0x0E => if replayOk l then some { m with t := { t with replays := sset [] t.replays i l } } else none
  | _ => none

/-- One record after TILE. -/
def TileImg.add (m : TileImg) (r : Rec) : Option TileImg :=
  let go (k : Nat) : Option TileImg :=
    let l := itemsOf k r.count r.body
    if r.body.length ≠ k * r.count then none
    else ((upto r.tgt r.count).zip l).foldl (fun (o : Option TileImg) e => o.bind fun m => m.item r e.1 e.2) (some m)
  if r.ty = 0x02 then
    (if r.sub = 0 ∧ r.count = 1 ∧ r.body.length = 4096 ∧ r.tgt ≤ 0xFF7 ∧ m.t.pages.length < 120 ∧ !(m.t.pages.any fun p => p.1 == r.tgt) then
      some { m with t := { m.t with pages := m.t.pages ++ [(r.tgt, r.body)] } } else none)
  else if r.ty = 0x0C ∨ r.ty = 0x0D then
    let n := if r.ty = 0x0C then tmSize else dsSize
    (if r.sub = 0 ∧ r.count = 1 ∧ r.tgt < n ∧ r.tgt + r.body.length ≤ n then
      some { m with data := m.data ++ [(r.ty - 0x0C, r.tgt, r.body)] } else none)
  else if r.ty = 0x09 then (if r.sub = 0 ∧ r.tgt = 0 then go 12 else none)
  else match tableOf r.ty with
    | some (k, lo, n) => if subOk r.ty r.sub ∧ lo ≤ r.tgt ∧ r.tgt < n ∧ r.tgt + r.count ≤ n then go k else none
    | none => none

/-! ### Nodes (R303, R304) -/

/-- Reserved bits of the words of a node kind. -/
def nodeReserved (k : Nat) : List Word :=
  match k with
  | 1 => [0x0000_1FFF#32, 0x0000_3FFF#32, 0xFF00_0000#32, 0#32, 0x0000_00FF#32]
  | 2 => [0x0001_FFFF#32, 0x0000_3FFF#32, 0#32, 0#32, 0#32]
  | 3 => [0x0000_07FF#32, 0x0000_3FFF#32, 0#32, 0xFFFF_FFFF#32, 0xFFFF_FFFF#32]
  | 4 => [0x0000_FFFF#32, 0x0000_3FFF#32, 0xFFFF_FFFF#32, 0xFFFF_FFFF#32, 0xFFFF_FFFF#32]
  | 5 => [0x0000_FFFF#32, 0x0000_3FFF#32, 0x0000_00FF#32, 0xFFFF_0000#32, 0xFFFF_FFFF#32]
  | _ => [0xFFFF_FFFF#32, 0xFFFF_FFFF#32, 0xFFFF_FFFF#32, 0xFFFF_FFFF#32, 0xFFFF_FFFF#32]

/-- The fields of node n by its kind. -/
def Tile.nodeFields (x : Tile) (n : Nat) : Bool :=
  let k := x.nKind n
  ((upto 0 8).all fun i => (x.node n i &&& (nodeReserved k).getD i 0xFFFF_FFFF#32) == 0#32)
  && decide (x.nf n 1 22 10 + x.nf n 1 14 8 ≤ 1024)
  && match k with
    | 1 => x.nMask n != 0 && x.nf n 2 0 2 == 0 && decide (x.nf n 2 0 24 < 0xFF8000) && x.node n 3 != 0#32
    | 2 =>
      let dt := (x.node n 0).getLsbD 19
      let len := (x.node n 4).toNat
      len % 64 == 0 && decide (len ≤ 6291456) && addrOk (x.node n 2).toNat len 64 (if dt then tmSize else dsSize)
        && addrOk (x.node n 3).toNat len 64 (if dt then dsSize else tmSize)
    | 3 => (x.node n 0).getLsbD 19 || (decide ((x.node n 2).toNat ≤ 65535) && (x.chan (x.nf n 0 11 8)).rv)
    | 4 => decide (1 ≤ x.nf n 1 14 8)
    | 5 =>
      let lo := x.nf n 2 24 8
      let hi := x.nf n 2 16 8
      let e := x.nf n 2 8 8
      decide (lo ≤ e) && decide (e ≤ hi) && !(decide (lo ≤ n) && decide (n ≤ hi)) && decide (1 ≤ x.nf n 3 0 16) && decide (1 ≤ x.backEdges n)
    | _ => false

/-- References of the successor table that count toward NPRED of node n. -/
def Tile.refsTo (x : Tile) (n : Nat) : Nat :=
  let all := (x.used.map fun j => ((x.succs j).filter (· == n)).length).sum
  let body := (x.used.filter fun w => x.nKind w == 5 && x.nf w 2 8 8 == n).length
  (if x.nKind n = 5 then all - x.backEdges n else all) + body
/-- Every node's fields hold, every count is right, and no successor is an unused node. -/
def Tile.nodesOk (x : Tile) : Bool :=
  (x.nodes.all fun e => x.nodeFields e.1) && (x.used.all fun n => x.refsTo n == x.nPred n && (x.succs n).all fun j => decide (1 ≤ x.nKind j))

/-! ### Barriers and gangs (R330, R331) -/

/-- The tile of a gang entry's rectangle, as offsets from its corner; none outside it. -/
def State.inGang (s : State) (t : Nat) (g : List Word) : Option (Nat × Nat) :=
  let u := (s.wx * 96 + t % 96 + 96 * s.domW - wf' g 0 20 10) % (96 * s.domW)
  let v := (s.wy * 72 + t / 96 + 72 * s.domH - wf' g 0 10 10) % (72 * s.domH)
  if wf' g 0 20 10 < 96 * s.domW ∧ wf' g 0 10 10 < 72 * s.domH ∧ u ≤ wf' g 1 22 10 ∧ v ≤ wf' g 1 12 10 then some (u, v) else none
/-- The gang entries of tile t. A barrier gang wider or higher than the domain is taken, and wraps onto itself (log 122). -/
def State.gangsOk (s : State) (t : Nat) (x : Tile) : Bool :=
  x.gangE.all fun e => !wb e.2 0 31 || ((s.inGang t e.2).isSome && (!wb e.2 0 30 ||
    (e.1 == 0 && decide (wf' e.2 1 22 10 ≤ 31) && decide (wf' e.2 1 12 10 ≤ 15) && (s.gangTiles (e.2.getD 0 0#32) (e.2.getD 1 0#32)).isSome)))
/-- `gang` (R155). -/
def State.gangReg (s : State) (t : Nat) (x : Tile) : Word :=
  let g := sget [] x.gangE 0
  if wb g 0 31 && wb g 0 30 then
    match s.inGang t g with
    | some (u, v) => BitVec.ofNat 32 (2 ^ 31 + wf' g 1 22 5 * 2 ^ 26 + wf' g 1 12 4 * 2 ^ 22 + u * 2 ^ 17 + v * 2 ^ 13)
    | none => 0#32
  else 0#32

/-- A barrier entry of tile t agrees with tile u, which it joins: the same word for each of its cores, the same gang. -/
def joins (x y : Tile) (b : Nat) (w : Word) : Bool :=
  ((barCores w).all fun c => y.barrier c b == w) && (!w.getLsbD 30 || sget [] y.gangE (w.extractLsb' 23 3).toNat == sget [] x.gangE (w.extractLsb' 23 3).toNat)
/-- Every valid barrier entry of tile t, itself and against the tiles `job`; and those of `job` that join t. -/
def State.barsOk (s : State) (job : List (Nat × Tile)) (t : Nat) (x : Tile) : Bool :=
  (x.barE.all fun e =>
    let w := e.2
    let g := sget [] x.gangE (w.extractLsb' 23 3).toNat
    !w.getLsbD 31 || (w.getLsbD (26 + e.1 / 64) && (!w.getLsbD 30 || wb g 0 31) && joins x x (e.1 % 64) w
      && (!w.getLsbD 30 || job.all fun p => (s.inGang p.1 g).isNone || joins x p.2 (e.1 % 64) w)))
  && job.all fun p => p.2.barE.all fun e =>
    !(e.2.getLsbD 31 && e.2.getLsbD 30) || (s.inGang t (sget [] p.2.gangE (e.2.extractLsb' 23 3).toNat)).isNone || joins p.2 x (e.1 % 64) e.2

/-! ### A whole image -/

/-- The image of an entry of the list, if its form is in order by itself. -/
def State.parseImage (s : State) (x y : Nat) (l : List Byte) : Option TileImg :=
  match splitRecs (l.length / 16 + 1) l with
  | some (r :: rs) =>
    let ix := recNum r.body 0 2
    let iy := recNum r.body 2 2
    if r.ty ≠ 0x01 ∨ r.sub ≠ 0 ∨ r.count ≠ 1 ∨ r.tgt ≠ 0 ∨ r.body.length ≠ 16 ∨ recNum r.body 5 11 ≠ 0 ∨ ix ≠ x ∨ iy ≠ y ∨ 96 ≤ ix ∨ 72 ≤ iy
        ∨ 63 < recNum r.body 4 1 then none
    else match rs.foldl (fun (o : Option TileImg) r => o.bind fun m => m.add r) (some { x := ix, y := iy, t := { stage := recNum r.body 4 1 } }) with
      | some m => if m.t.nodesOk && s.gangsOk (96 * iy + ix) m.t then some m else none
      | none => none
  | _ => none

/-! ### Channels (R254) -/

/-- Every valid write and contribution entry names a local channel whose send side is valid, direct, and no group's (R272). -/
def Tile.cqueueOk (x : Tile) : Bool :=
  x.cq.all fun e => !e.2.v || e.2.kind == 3 || (let c := x.chan e.2.ch; c.sv && !c.grp && c.smode == 1)
/-- The send sides of a tile: core, destinations, channel there, window, mode. -/
def sendSides (x : Tile) : List (Nat × List Nat × Nat × Nat × Nat) :=
  ((x.chans.filter fun e => e.2.sv && !e.2.grp).map fun e => (e.2.score, [e.2.dest], e.2.dch, e.2.win, e.2.smode))
  ++ (x.groups.filter fun e => e.2.v).map fun e => (e.2.core, e.2.dsts, e.2.dch, e.2.win, 0)
/-- The tile of the job that a name names, or that the name lies on another wafer of the domain. -/
def State.peer (s : State) (job : List (Nat × Tile)) (n : Nat) : Option (Option Tile) :=
  if !s.nameIn n then none
  else match s.tileOf n with
    | none => some none
    | some t => (job.find? fun p => p.1 == t).map fun p => some p.2
def State.sideOk (s : State) (job : List (Nat × Tile)) (t : Nat) (e : Nat × List Nat × Nat × Nat × Nat) : Bool :=
  e.2.1.all fun n => match s.peer job n with
    | none => false
    | some none => true
    | some (some y) =>
      let c := y.chan e.2.2.1
      c.rv && c.mode == e.2.2.2.2 && c.orig == (if c.mode = 1 then 0 else s.nameOf t e.1) && decide (e.2.2.2.1 ≤ c.rsz)
/-- The origin of a receive side: a core of the job, or zero in direct mode (R254, R385). -/
def State.origOk (s : State) (job : List (Nat × Tile)) (c : Chan) : Bool :=
  if c.mode = 1 then c.orig == 0 else (s.peer job c.orig).isSome
/-- Core, tile and channel of every destination; no two may be the same. -/
def sideKeys (x : Tile) : List (Nat × Nat × Nat) := ((sendSides x).map fun e => e.2.1.map fun n => (e.1, n / 4, e.2.2.1)).flatten
def noTwins : List (Nat × Nat × Nat) → Bool
  | [] => true
  | a :: r => !r.contains a && noTwins r
def State.chansOk (s : State) (job : List (Nat × Tile)) (t : Nat) (x : Tile) : Bool :=
  (x.chans.all fun e => (!(e.2.sv && e.2.grp) || ((x.group e.2.dest).v && e.2.smode == 0)) && (!e.2.rv || s.origOk job e.2)) && x.cqueueOk && (sendSides x).all (s.sideOk job t) && noTwins (sideKeys x)

/-- Ring or buffer size behind a name; of another wafer's the greatest (log 46). -/
def State.ringOf (s : State) (job : List (Nat × Tile)) (dch n : Nat) : Nat :=
  match s.peer job n with | some (some y) => winBytes (y.chan dch).rsz | _ => winBytes 8
/-- Ring sizes behind the send sides, as the tiles of the job have them (R254, R256). -/
def State.ringsOf (s : State) (job : List (Nat × Tile)) (x : Tile) : Tile :=
  { x with
    chans := x.chans.map fun e => (e.1, { e.2 with ring := if e.2.sv && !e.2.grp then s.ringOf job e.2.dch e.2.dest else 0 })
    groups := x.groups.map fun e => (e.1, { e.2 with ring := (e.2.dsts.map (s.ringOf job e.2.dch)).foldl min (winBytes 8) }) }
/-- Channel run-time state at a load (R256). -/
def Tile.freshSides (x : Tile) : Tile :=
  { x with chans := x.chans.map fun e => (e.1, e.2.fresh), groups := x.groups.map fun e => (e.1, e.2.fresh) }

/-! ### The load (R303, R341) -/

/-- The tables come from the image alone; memories, registers, tokens, latches, user tables and barrier states stay. -/
def Tile.loadOver (old : Tile) (m : TileImg) (gang : Word) : Tile :=
  let n := m.t
  let x := { old with
    held := true, stage := n.stage, code := old.code.filter (fun (e : Nat × Byte) => decide (120 * 4096 ≤ e.1)), cmap := [], pages := n.pages
    nodes := n.nodes, succ := n.succ, nrt := [], comp := [], running := false
    routes := (old.routes.filter fun (e : Nat × Word) => decide (e.1 < 4096)) ++ n.routes.filter fun (e : Nat × Word) => decide (4096 ≤ e.1)
    chans := n.chans, groups := n.groups, cq := n.cq, side := [], barE := n.barE, gangE := n.gangE, gang := gang, replays := n.replays, gangN := 0, gangBuf := [] }
  let x := m.data.foldl (fun x d => if d.1 = 0 then x.tmWrite d.2.1 d.2.2.length (recNum d.2.2 0 d.2.2.length) 0
    else x.dsWrite d.2.1 d.2.2.length (recNum d.2.2 0 d.2.2.length) 0) x
  let x := { x with side := n.side }
  (x.used.filter fun k => x.nKind k == 1).foldl (fun x k =>
    let v := x.nf k 2 12 12
    if (x.pageOf v).isSome then x else (x.mapPage v).getD x) x

/-- A run of the tile has not ended, or a START is on its way. -/
def Tile.busy (x : Tile) : Bool :=
  x.running || x.launchQ.any (fun l => l.2.1) || x.late.any fun e => match e with | .launch l => l.2.1 | _ => false

/-- The list of images: for each entry x, y, length, address. -/
def imageList (l : List Byte) (n : Nat) : List (Nat × Nat × Nat × Nat) :=
  (upto 0 n).map fun i => (recNum l (16 * i) 2, recNum l (16 * i + 2) 2, recNum l (16 * i + 4) 4, recNum l (16 * i + 8) 8)

/-- The first index at which a test fails. -/
def firstBad {α : Type} (f : α → Bool) (l : List α) : Option Nat := l.findIdx? fun a => !f a

/-- The images of a list are checked, and every send side of a tile held already that names a tile of the list; then every tile is loaded.
The result names the first rejected entry. -/
def State.loadAll (s : State) (port : Bool) (l : List (Nat × Nat × Nat × Nat)) : State × Nat × Nat :=
  let raw := l.map fun e => s.hostRead port e.2.2.2 e.2.2.1
  let ims := (l.zip raw).map fun e => (e.1, if e.1.2.2.1 % 16 = 0 then s.parseImage e.1.1 e.1.2.1 e.2 else none)
  let at' (e : Nat × Nat × Nat × Nat) : Nat := 96 * e.2.1 + e.1
  let twice := (upto 0 l.length).map fun i => (l.take i).any fun e => at' e == at' (l.getD i (0, 0, 0, 0))
  let new := (ims.map fun e => e.2.toList.map fun m => (at' e.1, m)).flatten
  let kept := s.tiles.filter fun e => e.2.held && !(new.any fun n => n.1 == e.1)
  let job := (new.map fun e => (e.1, e.2.t)) ++ kept
  let each := (ims.zip twice)
  let no (status : Nat) (i : Nat) : State × Nat × Nat := (s, status, i * 2 ^ 32)
  match firstBad (fun e => !e.2 && e.1.2.any fun m => s.barsOk job (at' e.1.1) m.t) each with
  | some i => no 0x04 i
  | none => match firstBad (fun e => s.chansOk job e.1 e.2.t && kept.all fun k => (sendSides k.2).all fun d =>
      d.2.1.all (fun n => s.tileOf n != some e.1) || s.sideOk job k.1 d) new with
    | some i => no 0x05 i
    | none => match firstBad (fun e => !(s.tile e.1).busy) new with
      | some i => no 0x06 i
      | none =>
        let s := new.foldl (fun s e => s.upT e.1 fun x => (x.dropCk.loadOver e.2 (s.gangReg e.1 e.2.t)).freshSides) s
        let s := job.foldl (fun s e => s.upT e.1 (s.ringsOf job)) s
        ({ s with imgHash := raw.foldl (fun h m => num512 (sha3 (bytes512 h ++ m))) s.imgHash }, 0, l.length + 0xFFFF_FFFF * 2 ^ 32)

/-- LOAD_IMAGE. The list and every image must be reachable. -/
def execLoadImage (port : Bool) (tag : Word) (list : BitVec 64) (count : Word) : State → Host.Outcome State Fault Refusal :=
  hostCommand port tag (.loadImage port tag list count) { map := true, bufs := [(list.toNat, 16 * count.toNat)] } (atOnce fun s =>
    let l := imageList (s.hostRead port list.toNat (16 * count.toNat)) count.toNat
    if l.all fun e => s.hostOk port (e.2.2.2, e.2.2.1) then s.loadAll port l else (s, 0x0C, 0))

end Sys2Proof.Machine
end

