-- ==== Sys2Proof/Machine/HostRun.lean ====
section
/-! DEFINITION. Host commands that run the job: LAUNCH, STREAM, MAP, CHECKPOINT, RESTORE, PREEMPT, POWER (R245, R313, R354, R355, R366, R368,
R384, R391, R392, R396, R426, R428). -/

namespace Sys2Proof.Machine

/-! ### LAUNCH (R313) -/

/-- The tiles of a rectangle that wraps at the wafer's edges. -/
def rectTiles (x0 y0 w h : Nat) : List Nat :=
  ((upto 0 (h + 1)).map fun v => (upto 0 (w + 1)).map fun u => (y0 + v) % 72 * 96 + (x0 + u) % 96).flatten
/-- The launch goes to each tile; it arrives there within the bounds of R35. -/
def State.launchTo (s : State) (start : Bool) (n : Nat) (mb : BitVec 256) : List Nat → Nat → State
  | [], _ => s
  | t :: r, bound =>
    let l := (s.gcyc + 1 + Config.delay s.free % bound, start, n, mb)
    ((s.upT t fun x => x.reached (s.nextCyc t) (.launch l) fun x => x.takeLaunch l).draw).launchTo start n mb r 520

/-- Command n's launch has not been taken by the tile. -/
def Tile.launching (x : Tile) (n : Nat) : Bool :=
  x.launchQ.any (fun e => e.2.2.1 == n) || x.late.any fun e => match e with | .launch l => l.2.2.1 == n | _ => false
def launchAct (start port : Bool) (x0 y0 w h : BitVec 16) (mb : BitVec 256) : HostAct := fun j s =>
  let n := 2 * j.n + b2n port
  let l := (rectTiles x0.toNat y0.toNat w.toNat h.toNat).filter fun t => (s.tile t).held
  if j.stage = 0 then
    if l.isEmpty then (s, j.done 0x01 0)
    else if start && l.any fun t => (s.tile t).busy then (s, j.done 0x06 0)
    else ((if start then { s with runs := s.runs ++ [l] } else s).launchTo start n mb l 170, { j with stage := 1 })
  else if l.any fun t => (s.tile t).launching n then (s, j)
  else (s, j.done 0 (s.glob - 1))

def execLaunchStart (port : Bool) (tag : Word) (x0 y0 w h : BitVec 16) (mb : BitVec 256) : State → Host.Outcome State Fault Refusal :=
  hostCommand port tag (.launchStart port tag x0 y0 w h mb) { map := true } (launchAct true port x0 y0 w h mb)
def execLaunchPost (port : Bool) (tag : Word) (x0 y0 w h : BitVec 16) (mb : BitVec 256) : State → Host.Outcome State Fault Refusal :=
  hostCommand port tag (.launchPost port tag x0 y0 w h mb) { map := true } (launchAct false port x0 y0 w h mb)

/-! ### STREAM -/

/-- Bytes done and the first failure's code. -/
def streamResult (pos code : Nat) : Nat × Nat := (if code = 0 then 0 else if code = 0x21 then 0x0B else 0x01, pos / 64 * 64 + code * 2 ^ 32)

/-- The next piece of at most `left` bytes, within one sector and page: what has moved, and a failure's code. -/
def State.streamPart (s : State) (port toHost : Bool) (host dva left : Nat) : State × Nat × Nat :=
  match s.translate 0 dva (!toHost) with
  | .error e => (s, 0, e)
  | .ok y =>
    let n := pieceLen dva y.addr left
    let s := s.fillTlb 0 dva
    if toHost then
      let bad := s.media y n
      let k := if bad.isEmpty then n else 64 * (bad.headD 0) - y.addr
      if s.tagBad y n then (s, 0, 0x21) else (s.hostWrite port host (bytesOf (s.readAt y k) k), k, if bad.isEmpty then 0 else y.poison)
    else match s.partCheck y n with
      | 0 => (s.writeAt y n (recNum (s.hostRead port host n) 0 n), n, 0)
      | c => (s, 0, c)

/-- An integrity failure aborts the job (R251). The hub engines stand still while the domain is halted (R394). -/
def streamAct (port toHost : Bool) (host dva len : Nat) : HostAct := fun j s =>
  if s.still then (s, j) else
  let r := s.streamPart port toHost (host + j.pos) (dva + j.pos) (len - j.pos)
  let pos := j.pos + r.2.1
  if r.2.2 ≠ 0 then
    let f := streamResult pos r.2.2
    (if r.2.2 = 0x21 then r.1.escalate 6912 1 else r.1, j.done f.1 f.2)
  else if len ≤ pos then (r.1, j.done 0 len)
  else (r.1, { j with pos := pos })

def execStream (port : Bool) (tag : Word) (host dva : BitVec 64) (len : Word) (toHost : Bool) : State → Host.Outcome State Fault Refusal :=
  hostCommand port tag (.stream port tag host dva len toHost) { bufs := [(host.toNat, len.toNat)] } (streamAct port toHost host.toNat dva.toNat len.toNat)

/-! ### MAP (R245, R246) -/

/-- Words 0 and 1 of a range entry without their reserved bits (R9). -/
def rangeWords (w0 w1 w2 : BitVec 64) : List DWord := [w0 &&& 0xF000_FFFF_FFFF_FFFF#64, w1 &&& 0x0000_FFFF_FFFF_FFFF#64, w2]
def State.mapEntry (s : State) (e : Nat) (w0 w1 w2 : BitVec 64) : State × Nat × Nat :=
  let l := rangeWords w0 w1 w2
  ({ s with range := sset [] s.range e (if l.all (· == 0#64) then [] else l) }, 0, 0)
/-- The translations of a DVA range leave every TLB; a length of 0 takes them all. -/
def State.dropTlb (s : State) (dva len : Nat) : State :=
  { s with tlb := s.tlb.filter fun e =>
      let a := e.1 % 2 ^ 36 * 4096
      !(len == 0 || (decide (a < dva + len) && decide (dva < a + 4096))) }

def execMapRangeEntry (port : Bool) (tag : Word) (entry : BitVec 8) (w0 w1 w2 : BitVec 64) : State → Host.Outcome State Fault Refusal :=
  hostCommand port tag (.mapRangeEntry port tag entry w0 w1 w2) {} (atOnce fun s => s.mapEntry entry.toNat w0 w1 w2)
def execMapTableRoot (port : Bool) (tag : Word) (ta : BitVec 64) : State → Host.Outcome State Fault Refusal :=
  hostCommand port tag (.mapTableRoot port tag ta) {} (atOnce fun s => ({ s with ptRoot := ta.toNat, tlb := [] }, 0, 0))
def execMapInvalidate (port : Bool) (tag : Word) (dva len : BitVec 64) : State → Host.Outcome State Fault Refusal :=
  hostCommand port tag (.mapInvalidate port tag dva len) {} (atOnce fun s => (s.dropTlb dva.toNat len.toNat, 0, 0))

/-! ### CHECKPOINT and RESTORE (R426, R428) -/

/-- The bytes of each named range: DVA, contents. None if one cannot be read. -/
def State.pullRanges (s : State) : List (Nat × Nat) → Option (List (Nat × List Byte))
  | [] => some []
  | (a, n) :: r => match s.pull 0 a n, s.pullRanges r with
    | .ok (l, _), some t => some ((a, l) :: t)
    | _, _ => none
/-- A DVA range is written sector by sector with bytes that the spec does not lay out. -/
def State.pushFree (s : State) (dva : Nat) : Nat → Option State
  | 0 => some s
  | k + 1 => match s.pushFree dva k with
    | none => none
    | some s' => (match s'.pushDva 0 (dva + 512 * k) 512 (recNum ((upto 0 512).map (Config.reportByte s.free)) 0 512) with
      | .ok r => some r
      | .error _ => none)
/-- The checkpoint is written and sealed, in place of one at the same address. -/
def State.writeCkpt (s : State) (dva len : Nat) (l : List (Nat × Nat)) : Option State :=
  match s.pullRanges l with
  | none => none
  | some r =>
    let k : Ckpt := { dva := dva, len := len, gcyc := s.gcyc, tiles := s.tiles, flights := s.flights, runs := s.runs, gangRel := s.gangRel, snaps := s.snaps, ranges := r }
    (s.pushFree dva (len / 512)).map fun s => { s.draw with ckpts := (s.ckpts.filter fun c => c.dva != dva) ++ [k] }
/-- The range list: DVA and length of each entry. -/
def rangeList (l : List Byte) (n : Nat) : List (Nat × Nat) := (upto 0 n).map fun i => (recNum l (16 * i) 8, recNum l (16 * i + 8) 8)

/-- CHECKPOINT: ranges that cannot be read, or a save area that cannot be written, end it without a halt, when it is taken or on T (R383). It
writes on T, and ends when the domain runs again. -/
def checkpointAct (port : Bool) (at' dva dlen list count : Nat) : HostAct := fun j s =>
  match j.stage with
  | 0 =>
    let l := rangeList (s.hostRead port list (16 * count)) count
    if !(l.all fun e => e.1 % 4096 == 0 && e.2 % 4096 == 0) then (s, j.done 0x01 0)
    else if at' < s.glob + 400 then (s, j.done 0x08 0)
    else if (s.writeCkpt dva dlen l).isNone then (s, j.done 0x01 0)
    else (s, { j with stage := 1, at' := at', ranges := l })
  | 1 =>
    if s.glob < j.at' then (s, j)
    else match s.writeCkpt dva dlen j.ranges with
      | some s' => ({ s'.draw with resumeAt := some (s.glob + 1 + Config.delay s.free) }, { j with stage := 2 })
      | none => (s, j.done 0x01 0)
  | _ => if s.halted then (s, j) else (s, j.done 0 s.glob)

def execCheckpoint (port : Bool) (tag : Word) (at' dva dlen list : BitVec 64) (count : BitVec 16) : State → Host.Outcome State Fault Refusal :=
  hostCommand port tag (.checkpoint port tag at' dva dlen list count) { bufs := [(list.toNat, 16 * count.toNat)] }
    (checkpointAct port at'.toNat dva.toNat dlen.toNat list.toNat count.toNat)

/-- A CHECKPOINT that is due in the next global cycle, and can be written, stops the domain then. -/
def State.ckptStops (s : State) (j : HostJob) : Bool :=
  match j.i, j.stopsAt with
  | .checkpoint _ _ _ dva dlen _ _, some g => decide (g ≤ s.glob + 1) && (s.writeCkpt dva.toNat dlen.toNat j.ranges).isSome
  | _, _ => false

/-- The named ranges can be written. -/
def State.rangesWrite (s : State) (k : Ckpt) : Bool :=
  k.ranges.all fun r => (upto 0 ((r.2.length + 4095) / 4096)).all fun i => match s.translate 0 (r.1 + 4096 * i) true with | .ok _ => true | .error _ => false

def restoreAct (dva : Nat) : HostAct := fun j s =>
  match s.ckpts.findIdx? fun k => k.dva == dva with
  | none => (s, j.done 0x01 0)
  | some i =>
    let k := s.ckpts.getD i { dva := 0, len := 0, gcyc := 0, tiles := [], flights := [], runs := [], gangRel := [], ranges := [] }
    if j.stage = 0 then
      let s := { s.stopJob with aborted := false }
      (match s.areaStatus k with
       | 0 =>
         if s.rangesWrite k then
           (({ s with restoreAt := some (s.gcyc + 1 + Config.delay s.free % (3000 * msCycles s.point), i) } : State).draw, { j with stage := 1 })
         else (s, j.done 0x01 2)
       | st => (s, j.done st 1))
    else if s.restoreAt.isSome then (s, j)
    else if s.aborted then (s, j.done (if s.areaStatus k = 0x0B then 0x0B else 0x01) 1)
    else (s, j.done 0 (s.glob - 1))

def execRestore (port : Bool) (tag : Word) (dva : BitVec 64) : State → Host.Outcome State Fault Refusal :=
  hostCommand port tag (.restore port tag dva) {} (restoreAct dva.toNat)

/-! ### PREEMPT (R354, R355) -/

/-- How a request for node n of tile t has been resolved: 0 saved, 1 the task's end or a kill (log 99), 2 an overrun; none while it stands. -/
def Tile.preemptState (x : Tile) (n : Nat) : Option Nat :=
  let r := x.rt n
  let cs := (coresOf (x.nMask n)).filter fun c => (x.core c).node == n
  if r.saved.isSome then some 0
  else if r.st != .running || r.lost || cs.all fun c => (x.core c).mode == .idle || (x.core c).mode == .draining then some 1
  else if r.asked.isSome then r.asked
  else if cs.any (fun c => (x.core c).preReq.isSome || (x.core c).preempted) || x.save.any fun v => v.node == n then none
  else some 1

def preemptAct (name : Word) (node : Nat) : HostAct := fun j s =>
  match s.named name with
  | none => (s, j.done 0x01 0)
  | some t =>
    if !((s.tile t).held && (s.tile t).nKind node == 1) then (s, j.done 0x01 0)
    else if j.stage = 0 then
      let g := s.gcyc + 1 + Config.delay s.free % 1024
      (({ s with inputs := s.inputs ++ [(g, Turn.event t 0 node .preemptRequest)] } : State).draw, { j with stage := 1, at' := g })
    else if s.gcyc ≤ j.at' || (s.tile t).replayTo.isSome then (s, j)
    else match (s.tile t).preemptState node with
      | some r => (s, j.done 0 r)
      | none => (s, j)

def execPreempt (port : Bool) (tag : Word) (name : Word) (node : BitVec 8) : State → Host.Outcome State Fault Refusal :=
  hostCommand port tag (.preempt port tag name node) { name := some name } (preemptAct name node.toNat)

/-! ### POWER (R366, R368, R392, R396) -/

def execPowerCap (port : Bool) (tag : Word) (cap : BitVec 16) (point : BitVec 8) (marks : BitVec 256) : State → Host.Outcome State Fault Refusal :=
  hostCommand port tag (.powerCap port tag cap point marks) {} (atOnce fun s =>
    ({ s with cap := cap.toNat, reqPoint := point.toNat, chosen := point.toNat, lowWin := 0, markSet := marks }, 0, 0))

/-- A certificate opens a session if it verifies, names this device and answers the challenge outstanding, which is then used up. -/
def State.openDebug (s : State) (cert : List Byte) : State × Nat × Nat :=
  let f := Config.certificateFields cert
  if Config.certificateVerifies cert && f.1 == Config.identityDigest && s.challenge == some f.2.2 then
    ({ s with dbgAuth := true, dbgEver := true, dbgMask := f.2.1, challenge := none }, 0, 0)
  else (s, 0x09, 0)
def execPowerDebugOpen (port : Bool) (tag : Word) (cert : BitVec 64) (len : Word) : State → Host.Outcome State Fault Refusal :=
  hostCommand port tag (.powerDebugOpen port tag cert len) { bufs := [(cert.toNat, len.toNat)] }
    (atOnce fun s => s.openDebug (s.hostRead port cert.toNat len.toNat))
def execPowerDebugClose (port : Bool) (tag : Word) : State → Host.Outcome State Fault Refusal :=
  hostCommand port tag (.powerDebugClose port tag) {} (atOnce fun s => (if s.dbgAuth then s.closeDebug else s, 0, 0))

/-- The tile is the job's and idle: every core is. -/
def Tile.mayRetain (x : Tile) : Bool := x.held && x.replayTo.isNone && (upto 0 4).all fun c => (x.core c).mode == .idle
def execPowerRetentionEnter (port : Bool) (tag : Word) (name : Word) : State → Host.Outcome State Fault Refusal :=
  hostCommand port tag (.powerRetentionEnter port tag name) { name := some name } (atOnce fun s =>
    match s.named name with
    | some t => if (s.tile t).mayRetain then (s.upT t fun x => { x with ps := .retention }, 0, 0) else (s, 0x01, 0)
    | none => (s, 0x01, 0))
def execPowerRetentionExit (port : Bool) (tag : Word) (name : Word) : State → Host.Outcome State Fault Refusal :=
  hostCommand port tag (.powerRetentionExit port tag name) { name := some name } (atOnce fun s =>
    match s.named name with
    | some t => if (s.tile t).held then (s.upT t fun x => x.leaveRetention s.glob, 0, 0) else (s, 0x01, 0)
    | none => (s, 0x01, 0))

end Sys2Proof.Machine
end

