-- ==== Sys2Proof/Machine/Reports.lean ====
section
/-! DEFINITION. What QUERY and READ_STATE report without a layout of its own rule: its content, and the free but fixed layout in which it
reaches the host's buffer (R18, R22, R30, R245, R256, R333, R357, R363, R384, R395). -/

namespace Sys2Proof.Machine

/-- Boot state, the tiles that failed self-test, those the record lists as failed, and the cause of DEFECT_LIMIT (R18, R21). -/
structure ModuleReport where
  boot : Boot
  selfFail : List Nat
  recFail : List Nat
  cause : Nat
  deriving DecidableEq, Repr

/-- Run-time state of a channel or a group: CR for each destination, SQ, SO, EQ, U (R256). -/
structure SideRun where
  cr : List Nat
  sq : Nat
  so : Nat
  eq : Nat := 0
  u : Nat := 0
  deriving DecidableEq, Repr

/-- What a tile's report holds beside registers with a layout: balancer freezes, the latencies of its links east, west, south and north, the
home hub, D_b of each of its gangs, channels and groups, ignored context regions as core and entry. -/
structure TileReport where
  freezes : Nat
  links : List Nat
  hub : Nat
  gangs : List (Nat × Nat)
  chans : List SideRun
  groups : List SideRun
  ignored : List (Nat × Nat)
  deriving DecidableEq, Repr

/-- A router's buffers: the packets at it with their links, and those its tile has not taken; its coder's held and stored packets (R395). -/
structure RouterReport where
  heads : List Flight
  held : List Packet
  deriving DecidableEq, Repr
/-- The pending-write record of a core: its register writes, and what is under way on its paths (R221). -/
structure PendReport where
  pend : List Pend
  paths : List Path
  deriving DecidableEq, Repr
structure CoderReport where
  hold : List HoldE
  store : List StoreE
  deriving DecidableEq, Repr

end Sys2Proof.Machine

namespace Sys2Proof.Config
open Sys2Proof.Machine

/-- Free values (log 20): the layouts of what a report holds where no rule gives one. -/
opaque moduleLayout : ModuleReport → List Byte
opaque tileLayout : TileReport → List Byte
/-- The port of each edge of each edge tile: 4·tile + edge and its port. -/
opaque portLayout : List (Nat × Nat) → List Byte
/-- The module totals: ballast, leakage, idle. -/
opaque totalLayout : SMap Nat → List Byte
opaque pendingLayout : PendReport → List Byte × List Bool
opaque routerLayout : RouterReport → List Byte × List Bool
opaque coderLayout : CoderReport → List Byte × List Bool
/-- Free value (log 20): the register group that holds a word of space 0 or 1 of a core (R421). -/
opaque regGroup : Nat → Nat → Nat

end Sys2Proof.Config

namespace Sys2Proof.Machine

def State.moduleReport (s : State) : ModuleReport := { boot := s.boot, selfFail := s.selfFail, recFail := s.recFail, cause := s.defectCause }

def Chan.run (c : Chan) : SideRun := { cr := [c.cr], sq := c.sq, so := c.so, eq := c.eq, u := c.u }
def Group.run (g : Group) : SideRun := { cr := g.cr, sq := g.sq, so := g.so }
/-- D_b of each valid gang entry whose tiles lie on this wafer. -/
def State.gangReport (s : State) (x : Tile) : List (Nat × Nat) :=
  x.gangE.filterMap fun e =>
    let w0 := e.2.getD 0 0#32
    let w1 := e.2.getD 1 0#32
    if w0.getLsbD 31 then (s.gangTiles w0 w1).map fun l => (e.1, s.gangD w0 w1 l) else none
def State.tileReport (s : State) (t : Nat) : TileReport :=
  let x := s.tile t
  { freezes := x.nBal, links := (upto 0 4).map (s.hop t), hub := homeHub t, gangs := s.gangReport x
    chans := (upto 0 256).map fun k => (x.chan k).run, groups := (upto 0 64).map fun k => (x.group k).run, ignored := x.crgIgn }
/-- The edges of the wafer at which a tile lies, as directions. -/
def edgesOf (t : Nat) : List Nat := (upto 0 4).filter fun d => wrapsAt t d
def portReport : List (Nat × Nat) := ((upto 0 6912).map fun t => (edgesOf t).map fun d => (4 * t + d, opticalPort t d)).flatten
def State.routerReport (s : State) (t : Nat) : RouterReport := { heads := s.flights.filter fun f => f.tile == t, held := (s.tile t).arrq }
def Tile.coderReport (x : Tile) : CoderReport := { hold := x.hold, store := x.store }

end Sys2Proof.Machine
end

