-- ==== Sys2Proof/Machine/HostDebug.lean ====
section
/-! DEFINITION. Host commands that stop, step, inspect and attest: QUERY, HALT_AT, RESUME, STEP, READ_STATE, ATTEST (R300, R372, R384, R388, R391,
R393 to R395). -/

namespace Sys2Proof.Machine

/-! ### QUERY -/

/-- Words as bytes. -/
def bytesOfWords (l : List Word) : List Byte := (l.map fun w => bytesOf w.toNat 4).flatten

/-- The report goes to the buffer, cut short if it does not fit. -/
def State.answer (s : State) (port : Bool) (buf len : Nat) (r : List Byte) : State × Nat × Nat :=
  let n := min len r.length
  ((s.hostWrite port buf (r.take n)).draw, 0, n + r.length * 2 ^ 32)

def queryAct (port : Bool) (buf : BitVec 64) (len : Word) (f : State → State × List Byte) : HostAct :=
  atOnce fun s => let r := f s; r.1.answer port buf.toNat len.toNat r.2
def queryNeed (buf : BitVec 64) (len : Word) (name : Option Word := none) : Need :=
  { owner := false, query := true, bufs := [(buf.toNat, len.toNat)], name := name }

def execQueryModuleState (port : Bool) (tag : Word) (buf : BitVec 64) (len : Word) : State → Host.Outcome State Fault Refusal :=
  hostCommand port tag (.queryModuleState port tag buf len) (queryNeed buf len) (queryAct port buf len fun s => (s, Config.moduleLayout s.moduleReport))

/-- Segment words and overlay entries, in index order. -/
def State.mirageBytes (s : State) : List Byte := bytesOfWords (((upto 0 576).map (sget 0#32 s.seg)) ++ (upto 0 64).map (sget 0#32 s.ovl))
def execQueryMirage (port : Bool) (tag : Word) (buf : BitVec 64) (len : Word) : State → Host.Outcome State Fault Refusal :=
  hostCommand port tag (.queryMirage port tag buf len) (queryNeed buf len) (queryAct port buf len fun s => (s, s.mirageBytes))

/-- An entry of the side table (R291). -/
def SideE.words (e : SideE) : List Word :=
  [BitVec.ofNat 32 (bitAt e.held 31 + e.gen % 256 * 2 ^ 23 + e.addr % 2 ^ 23), e.bid, BitVec.ofNat 32 (e.len % 1024)]
/-- What a tile's report holds in a layout of its own rule: error bank, bus logs, side table, trap logs. -/
def Tile.reportWords (x : Tile) : List Word :=
  ((upto 0 4).map (sget 0#32 x.errbank)) ++ ((upto 0 64).map (sget 0#32 x.busLog)) ++ ((upto 0 256).map fun i => (sget {} x.side i).words).flatten
    ++ ((upto 0 4).map fun c => (x.core c).trapLog.flatten).flatten

/-- A query about a tile of this wafer. -/
def tileQuery (port : Bool) (name : Word) (buf : BitVec 64) (len : Word) (f : State → Nat → State × List Byte) : HostAct :=
  atOnce fun s => match s.named name with
    | some t => let r := f s t; r.1.answer port buf.toNat len.toNat r.2
    | none => (s, 0x01, 0)

def execQueryTileReport (port : Bool) (tag : Word) (name : Word) (buf : BitVec 64) (len : Word) : State → Host.Outcome State Fault Refusal :=
  hostCommand port tag (.queryTileReport port tag name buf len) (queryNeed buf len (some name))
    (tileQuery port name buf len fun s t => (s, bytesOfWords (s.tile t).reportWords ++ Config.tileLayout (s.tileReport t)))

/-- The counters, one of 8 bytes for each tag, then the module totals. -/
def execQueryEnergy (port : Bool) (tag : Word) (buf : BitVec 64) (len : Word) : State → Host.Outcome State Fault Refusal :=
  hostCommand port tag (.queryEnergy port tag buf len) (queryNeed buf len) (queryAct port buf len fun s =>
    (s, ((upto 0 256).map fun k => bytesOf (sget 0 s.energy k) 8).flatten ++ Config.totalLayout s.energyOff))

/-- A fresh challenge revokes the one before (R391). -/
def State.newChallenge (s : State) : State × List Byte :=
  let l := (upto 0 16).map fun i => Config.entropy (s.free + i)
  ({ s with free := s.free + 16, challenge := some (num512 (bytesOfWords l)) }, bytesOfWords l)
def execQueryDebugChallenge (port : Bool) (tag : Word) (buf : BitVec 64) (len : Word) : State → Host.Outcome State Fault Refusal :=
  hostCommand port tag (.queryDebugChallenge port tag buf len) (queryNeed buf len) (queryAct port buf len State.newChallenge)

/-- `ccar`, `cunc`, `cres`, cleared as read (R300). -/
def execQueryRouterCounters (port : Bool) (tag : Word) (name : Word) (buf : BitVec 64) (len : Word) : State → Host.Outcome State Fault Refusal :=
  hostCommand port tag (.queryRouterCounters port tag name buf len) (queryNeed buf len (some name)) (tileQuery port name buf len fun s t =>
    let x := s.tile t
    (s.upT t fun x => { x with ccar := 0, cunc := 0, cres := 0 }, bytesOfWords [BitVec.ofNat 32 x.ccar, BitVec.ofNat 32 x.cunc, BitVec.ofNat 32 x.cres]))

def execQueryOpticalPorts (port : Bool) (tag : Word) (buf : BitVec 64) (len : Word) : State → Host.Outcome State Fault Refusal :=
  hostCommand port tag (.queryOpticalPorts port tag buf len) (queryNeed buf len) (queryAct port buf len fun s => (s, Config.portLayout portReport))

/-! ### Halt, resume, step (R393, R394) -/

/-- A tile is in a debug stop. -/
def Tile.debugStop (x : Tile) : Bool := x.frz.any fun f => f.1 == .debug && f.2.isNone

/-- HALT_AT: a later one replaces it; it ends once the domain has halted, or with 0x07 when the session closes first. -/
def haltAct (at' : Nat) : HostAct := fun j s =>
  if j.stage = 0 then
    if at' < s.glob + 400 then (s, j.done 0x08 0) else ({ s with haltAt := some at' }, { j with stage := 1 })
  else if s.haltAt.isSome then (s, j)
  else (s, if s.halted then j.done 0 0 else j.done 0x07 0)
def execHaltAt (port : Bool) (tag : Word) (at' : BitVec 64) : State → Host.Outcome State Fault Refusal :=
  hostCommand port tag (.haltAt port tag at') { perm := some 0 } (haltAct at'.toNat)

/-- The debug stop of a tile ends on a global cycle, halted cycles counted. -/
def Tile.resumeOn (x : Tile) (g : Nat) : Tile := { x with frz := x.frz.map fun f => if f.1 = .debug ∧ f.2 = none then (.debug, some g) else f }
def resumeAct (u sc : Nat) (name : Word) : HostAct := atOnce fun s =>
  if sc ≠ 0 ∧ s.named name = none then (s, 0x01, 0)
  else if u < s.glob + 400 then (s, 0x08, 0)
  else if sc = 0 then (if s.still then ({ s with resumeAt := some u }, 0, 0) else (s, 0x0D, 0))
  else match s.named name with
    | some t => if (s.tile t).debugStop then (s.upT t fun x => x.resumeOn u, 0, 0) else (s, 0x0D, 0)
    | none => (s, 0x01, 0)
def execResume (port : Bool) (tag : Word) (u : BitVec 64) (scope : BitVec 8) (name : Word) : State → Host.Outcome State Fault Refusal :=
  hostCommand port tag (.resume port tag u scope name) { perm := some 0, name := if scope = 0#8 then none else some name } (resumeAct u.toNat scope.toNat name)

/-- STEP TILE: the stop ends for n tile cycles. -/
def stepTileAct (n : Nat) (name : Word) : HostAct := fun j s =>
  match s.named name with
  | none => (s, j.done 0x01 0)
  | some t =>
    if j.stage = 0 then
      if (s.tile t).debugStop then
        (s.upT t fun x => { x with stepLeft := n, frz := x.frz.filter fun f => !(f.1 == .debug && f.2.isNone) }, { j with stage := 1 })
      else (s, j.done 0x0D 0)
    else if (s.tile t).stepLeft = 0 then (s, j.done 0 (s.glob - 1)) else (s, j)
def execStepTile (port : Bool) (tag : Word) (n : Word) (name : Word) : State → Host.Outcome State Fault Refusal :=
  hostCommand port tag (.stepTile port tag n name) { perm := some 1, name := some name } (stepTileAct n.toNat name)

/-- STEP WAFER: the halted domain runs for n global cycles. -/
def stepWaferAct (n : Nat) : HostAct := fun j s =>
  if j.stage = 0 then (if s.still then ({ s with haltLeft := n + 1 }, { j with stage := 1 }) else (s, j.done 0x0D 0))
  else if s.haltLeft = 0 then (s, j.done 0 (s.glob - 1)) else (s, j)
def execStepWafer (port : Bool) (tag : Word) (n : Word) : State → Host.Outcome State Fault Refusal :=
  hostCommand port tag (.stepWafer port tag n) { perm := some 1 } (stepWaferAct n.toNat)

/-! ### READ_STATE (R384, R395) -/

/-- Whether the word at an offset of a core block is poisoned. -/
def poisonAt (l : List (Nat × List Bool)) (w : Nat) : Bool := l.any fun e => decide (e.1 ≤ w) && e.2.getD (w - e.1) false
/-- A word of a memory, or of a core's registers, in retention whose parity fails. -/
def Tile.lostWord (x : Tile) (space w : Nat) : Bool := x.ps == .retention && x.retBad.contains (space, w / 1024)
def Tile.lostReg (x : Tile) (space c w : Nat) : Bool := x.ps == .retention && x.retBad.contains (8 + c, Config.regGroup space w)
/-- Bytes of a layout from an offset, with the poison bits of its words. -/
def cutOf (d : List Byte × List Bool) (off len : Nat) : Option (List Byte × List Bool) :=
  if d.1.length < off + len then none else some ((d.1.drop off).take len, (upto 0 (len / 4)).map fun i => d.2.getD (off / 4 + i) false)

/-- A state space of a tile: bytes from an offset, and the poison bits of their words. None outside the space. -/
def State.space (s : State) (t space c off len : Nat) : Option (List Byte × List Bool) :=
  let x := s.tile t
  let y := x.core c
  let n := len / 4
  let words (k : Nat) : List Nat := (upto 0 n).map fun i => off / 4 + k * i
  match space with
  | 0 =>
    let l := upto off n
    if l.all csrAssigned then some (bytesOfWords (l.map fun i => (csrRead x c i).val), l.map fun i => (csrRead x c i).poi || x.lostReg 0 c i) else none
  | 1 =>
    if 0x20000 < off + len then none
    else
      let m := x.putBlock c 0 s.free []
      let p := x.blockPoison c
      some (getList m off len, (words 1).map fun w => poisonAt p w || x.lostReg 1 c w)
  | 2 => if tmSize < off + len then none else
    some (bytesOf (x.tmRead off len) len, (words 1).map fun w => sget false x.tmPoi w || x.lostWord 0 w)
  | 3 => if dsSize < off + len then none else
    some (bytesOf (x.dsRead off len) len, (words 1).map fun w => sget false x.dsPoi (w / 2) || x.lostWord 1 w)
  | 7 =>
    cutOf (bytesOfWords y.trapState, []) off len
  | 4 => cutOf (Config.pendingLayout ⟨y.pend, x.paths.filter fun p => p.core == c⟩) off len
  | 5 => cutOf (Config.routerLayout (s.routerReport t)) off len
  | _ => cutOf (Config.coderLayout x.coderReport) off len

/-- The data, then one poison bit for each word, padded to 64 bytes. -/
def withBitmap (d : List Byte × List Bool) : List Byte := d.1 ++ bytesOf (packBits d.2) (((d.2.length + 7) / 8 + 63) / 64 * 64)

/-- Tile t is in a debug stop in this global cycle, one that a RESUME is to end among them. -/
def State.debugStands (s : State) (t : Nat) : Bool :=
  (s.tile t).frz.any fun f => f.1 == .debug && match f.2 with | some g => decide (s.glob < g) | none => true
/-- It reads a halted domain or a stopped tile, and writes only the host's buffer. -/
def State.readState (s : State) (port : Bool) (name : Word) (space c off len buf : Nat) : State × Nat × Nat :=
  match s.named name with
  | none => (s, 0x01, 0)
  | some t =>
    if !(s.still || s.debugStands t) then (s, 0x0D, 0)
    else match s.space t space c off len with
      | none => (s, 0x01, 0)
      | some d =>
        let l := withBitmap d
        ((s.hostWrite port buf l).draw, 0, l.length)
/-- Bytes that a read of len bytes puts into the buffer. -/
def readBytes (len : Nat) : Nat := len + ((len / 4 + 7) / 8 + 63) / 64 * 64
def execReadState (port : Bool) (tag : Word) (name : Word) (space core : BitVec 8) (off len : Word) (buf : BitVec 64) :
    State → Host.Outcome State Fault Refusal :=
  hostCommand port tag (.readState port tag name space core off len buf) { perm := some 2, bufs := [(buf.toNat, readBytes len.toNat)], name := some name }
    (atOnce fun s => s.readState port name space.toNat core.toNat off.toNat len.toNat buf.toNat)

/-! ### ATTEST (R388) -/

/-- The report of 448 bytes. -/
def State.report448 (s : State) (nonce : List Byte) : List Byte :=
  let dbg : BitVec 2 := if s.dbgAuth then 1#2 else if s.dbgEver then 2#2 else 0#2
  let own : BitVec 16 := match s.owner with | some _ => (sget 0#32 s.sem 0).extractLsb' 0 16 | none => 0#16
  nonce ++ bytes512 Config.romDigest ++ bytes512 Config.patchDigest ++ bytes512 Config.recordDigest ++ sha3 s.mirageBytes ++ bytes512 s.imgHash
    ++ bytesOf (dbg ++ 0#14 ++ own : BitVec 32).toNat 4 ++ bytesOf (if s.boot = .defectLimit then 1 else 0) 4 ++ List.replicate 56 0#8

def execAttest (port : Bool) (tag : Word) (nonce buf : BitVec 64) : State → Host.Outcome State Fault Refusal :=
  hostCommand port tag (.attest port tag nonce buf) { owner := false, bufs := [(nonce.toNat, 64), (buf.toNat, 5075)] } (atOnce fun s =>
    let r := s.report448 (s.hostRead port nonce.toNat 64)
    let g := Config.identitySignature r
    (s.hostWrite port buf.toNat (r ++ (upto 0 4627).map fun i => g.getD i 0#8), 0, 5075))

end Sys2Proof.Machine
end

