-- ==== Sys2Proof/Machine/Power.lean ====
section
/-! DEFINITION. The power controller: balance windows and their freezes, power windows, the electrical limit, marks and clock changes, energy
counters (R362 to R372). Ballast, ramps and load hints change no state a program can see (R364, R365, R370). -/

namespace Sys2Proof.Machine

/-! ### Balance (R362, R363) -/

/-- Current of a physical row of a field in a window: field, row, window. -/
def rowAmps (fx py n : Nat) : Nat := Config.rowCurrent (8 * py + fx) n
/-- The pair is balanced. -/
def balanced (a b : Nat) : Bool := decide (10 * (max a b - min a b) ≤ max a b)

/-- The row pair of tile t's router, and whether its row is the upper one: pair 36·fx + py / 2. -/
def State.pairOf (s : State) (t : Nat) : Nat × Nat := let p := s.phys (t % 96) (t / 96); (36 * (p.1 / 13) + p.2 / 2, p.2 % 2)
/-- Currents of the two rows of a pair in a window. -/
def pairAmps (k n : Nat) : Nat × Nat := (rowAmps (k / 36) (2 * (k % 36)) n, rowAmps (k / 36) (2 * (k % 36) + 1) n)
/-- The pair is balanced in window n. -/
def pairOk (k n : Nat) : Bool := balanced (pairAmps k n).1 (pairAmps k n).2

/-- The balancer freezes a tile for 1 to 64 global cycles, from the next on. -/
def Tile.balance (x : Tile) (g d : Nat) : Tile :=
  let e := g + 2 + d % 64; { x with frz := x.frz ++ [(.balance, some e)], lastBal := some e, nBal := x.nBal + 1 }
/-- A tile may be frozen by the balancer again from 1,024 global cycles after its last such freeze. -/
def Tile.mayBalance (x : Tile) (g : Nat) : Bool := !x.lastBal.any fun e => decide (g < e + 1024)

/-- The fewest tiles of a list, in its order, whose currents bring the row from a to balance with b. -/
def fewest (n a b : Nat) : List Nat → List Nat
  | [] => []
  | t :: r => if balanced a b || decide (a ≤ b) then [] else t :: fewest n (a - Config.tileCurrent t n) b r
/-- The tiles to freeze in pair k: those of the heavier row that may be, heaviest first (R363). -/
def State.toFreeze (s : State) (k n : Nat) : List Nat :=
  let a := pairAmps k n
  let heavy := if a.1 < a.2 then 1 else 0
  let l := (s.tiles.filter fun e => s.pairOf e.1 == (k, heavy) && e.2.mayBalance s.gcyc).map Prod.fst
  fewest n (max a.1 a.2) (min a.1 a.2) (orderBy (fun t u => decide (Config.tileCurrent u n < Config.tileCurrent t n)) l)

/-- Ballast has been placed in every unbalanced pair that holds tiles with state: 16 global cycles after it has reached the lighter row's idle
engines the pair is looked at again. A balanced pair needs no look. -/
def State.ballast (s : State) (n : Nat) : State :=
  s.tiles.foldl (fun s e =>
    let k := (s.pairOf e.1).1
    if pairOk k n then { s with balAt := sset 0 s.balAt k 0 }
    else if (sget 0 s.balAt k) = 0 then { s with balAt := sset 0 s.balAt k (s.gcyc + 17 + Config.delay s.free % 1024) }.draw
    else s) s
/-- The pairs whose look is due: a pair still unbalanced has tiles frozen. -/
def State.balanceDue (s : State) (n : Nat) : State :=
  (s.balAt.filter fun e => decide (e.2 ≤ s.gcyc)).foldl (fun s e =>
    let s := { s with balAt := sset 0 s.balAt e.1 0 }
    if pairOk e.1 n then s else (s.toFreeze e.1 n).foldl (fun s t => (s.upT t fun x => x.balance s.gcyc (Config.delay s.free)).draw) s) s

/-- balanceWindow: at the end of each window of 32 global cycles, and where a pair is to be looked at again. -/
def execBalanceWindow (s : State) : Host.Outcome State Fault Refusal :=
  let n := s.gcyc / 32
  let s := if s.gcyc % 32 = 0 then s.ballast n else s
  .next (s.balanceDue n)

/-- freezeEnd: freezes of the balancer and of a debug stop end on their global cycle. -/
def execFreezeEnd (s : State) : Host.Outcome State Fault Refusal :=
  .next { s with tiles := s.tiles.map fun e => (e.1, (e.2.thaw s.gcyc .balance).thaw s.glob .debug) }

/-! ### The cap (R366, R367) -/

/-- powerWindow: a window of 1 ms above the cap lowers the chosen point by a step; two in succession below 0.9 of it raise it again, up to the
requested point. -/
def execPowerWindow (s : State) : Host.Outcome State Fault Refusal :=
  let w := Config.windowPower s.nWin
  let s := { s with nWin := s.nWin + 1, winAt := s.gcyc + msCycles s.point }
  .next (if 1000 * s.cap < w then { s with chosen := s.chosen - 1, lowWin := 0 }
    else if w < 900 * s.cap then
      (if s.lowWin = 1 then { s with lowWin := 0, chosen := if s.chosen < s.reqPoint then s.chosen + 1 else s.chosen } else { s with lowWin := s.lowWin + 1 })
    else { s with lowWin := 0 })

/-- The clock runs at point p: what is left of the power window is as long in time as before, in cycles of the new clock (R366). -/
def State.atPoint (s : State) (p : Nat) : State :=
  let old := msCycles s.point
  { s with point := p, winAt := s.gcyc + ((s.winAt - s.gcyc) * msCycles p + old - 1) / old }

/-- electricalLimit (R367): the rail current was above the limit for 1 ms: the job restarts from its last checkpoint at P0. -/
def execElectricalLimit (s : State) : Host.Outcome State Fault Refusal :=
  .next (({ s with chosen := 0, clkAt := none } : State).atPoint 0 |>.escalate s.curT 0)

/-! ### Marks and the clock (R368) -/

/-- A clock change is pending up to its global cycle. -/
def State.changing (s : State) : Bool := match s.clkAt with | some g => decide (s.gcyc ≤ g) | none => false
/-- Mark n is in MARKS and every tile that holds an image has reached it, on the other wafers of the domain too (log 42). -/
def State.reached (s : State) (n : Nat) : Bool :=
  let l := s.tiles.filter fun e => e.2.held
  s.markSet.getLsbD n && (s.domW * s.domH == 1 || s.marksOut.getLsbD n) && !l.isEmpty && l.all fun e => e.2.marks.contains n
/-- One mark is considered. -/
def State.consider (s : State) (n : Nat) : State :=
  if s.changing || !s.reached n then s
  else
    let s := { s with
      marksOut := s.marksOut &&& ~~~(1#256 <<< n)
      tiles := s.tiles.map fun e => (e.1, { e.2 with marks := e.2.marks.filter (· != n) }) }
    if s.chosen = s.point then s else { s with clkAt := some (s.gcyc + 64), clkTo := s.chosen }
/-- markConsidered: at the end of the cycle, in ascending order of marks; a phase that issues in this cycle counts. -/
def execMarkConsidered (s : State) : Host.Outcome State Fault Refusal := .next ((upto 0 256).foldl State.consider s)

/-- clockChange. Counts in cycles are unchanged (R369). -/
def execClockChange (s : State) : Host.Outcome State Fault Refusal :=
  .next (match s.clkAt with | some g => if s.gcyc = g then s.atPoint s.clkTo else s | none => s)

/-! ### Energy (R372) -/

/-- A counter of energy takes e more; it saturates. -/
def billed (m : SMap Nat) (k e : Nat) : SMap Nat := sset 0 m k (min (sget 0 m k + e) (2 ^ 64 - 1))
/-- energyUpdate: every 4,096 global cycles. A tag is billed where a packet of it or a core's own work under it has moved since the last update;
ballast, leakage and idle energy go to the module totals (R371, log 17). -/
def execEnergyUpdate (s : State) : Host.Outcome State Fault Refusal :=
  let n := s.gcyc / 4096
  .next { s with energy := s.worked.foldl (fun m k => billed m k (Config.energy k n)) s.energy, worked := []
                 energyOff := (upto 0 3).foldl (fun m k => billed m k (Config.energyOff k n)) s.energyOff }

end Sys2Proof.Machine
end

