-- ==== Sys2Proof/Machine/Scalar.lean ====
section
/-! DEFINITION. S kind (R70): scalar integer, predicates, scalar FP (R115 to R123). Every source is read at issue; the result lands L
cycles later (R114). -/

namespace Sys2Proof.Machine

/-- A result of two scalars: the operands' poison rides with it, and a poisoned result raises no flag (R112). -/
def scal2 (f : Word → Word → Word × BitVec 11) (x y : PWord) : PWord × BitVec 11 :=
  let r := f x.val y.val; let p := x.poi || y.poi
  (⟨r.1, p⟩, cleanFlags p r.2)

/-- An S3 instruction of two sources. -/
def sBin (lat : Nat) (traps : Bool) (f : Word → Word → Word × BitVec 11) (d a b : BitVec 6) : Iss Unit := do
  let (x, y) ← readS2 a b
  let r := scal2 f x y
  act fun s => s.putS lat d r.1 r.2 traps

/-- An SI instruction: the immediate is sign-extended (R115). -/
def sImm (f : Word → Word → Word × BitVec 11) (d a : BitVec 6) (i : BitVec 18) : Iss Unit := do
  let x ← readS a
  let r := scal2 f x (immS i)
  act fun s => s.putS 1 d r.1 r.2

/-- An instruction of one source. -/
def sUn (lat : Nat) (traps : Bool) (f : Word → Word × BitVec 11) (d a : BitVec 6) : Iss Unit := do
  let x ← readS a
  let r := f x.val
  act fun s => s.putS lat d ⟨r.1, x.poi⟩ (cleanFlags x.poi r.2) traps

/-- A value without flags. -/
def plain (f : Word → Word → Word) (x y : Word) : Word × BitVec 11 := (f x y, 0#11)

/-- The count of a shift or rotate: b[4:0] (R115). -/
def cnt5 (b : Word) : Nat := b.toNat % 32

def fAdd (x y : Word) : Word := x + y
def fSub (x y : Word) : Word := x - y
def fAnd (x y : Word) : Word := x &&& y
def fOr (x y : Word) : Word := x ||| y
def fXor (x y : Word) : Word := x ^^^ y
def fAndn (x y : Word) : Word := x &&& ~~~y
def fShl (x y : Word) : Word := x <<< cnt5 y
def fShr (x y : Word) : Word := x >>> cnt5 y
def fSar (x y : Word) : Word := x.sshiftRight (cnt5 y)
def fRol (x y : Word) : Word := x.rotateLeft (cnt5 y)
def fMin (x y : Word) : Word := if x.slt y then x else y
def fMax (x y : Word) : Word := if x.slt y then y else x
def fMinu (x y : Word) : Word := if x.ult y then x else y
def fMaxu (x y : Word) : Word := if x.ult y then y else x

/-- Saturating sum or difference, with SAT where it clamps (R93, R115). -/
def satW (x : Int) : Word × BitVec 11 := let r := clampI 32 true x; (BitVec.ofNat 32 r.1, flagIf r.2 fSAT)
def fAdds (x y : Word) : Word × BitVec 11 := satW (x.toInt + y.toInt)
def fSubs (x y : Word) : Word × BitVec 11 := satW (x.toInt - y.toInt)

/-- Products (R116). -/
def fMul (x y : Word) : Word := BitVec.ofInt 32 (x.toInt * y.toInt)
def fMulh (x y : Word) : Word := (BitVec.ofInt 64 (x.toInt * y.toInt)).extractLsb' 32 32
def fMulhu (x y : Word) : Word := (BitVec.ofNat 64 (x.toNat * y.toNat)).extractLsb' 32 32

/-- Division and remainder, truncating; by zero the quotient is all ones, the remainder the dividend, and IDZ is set (R93, R116). -/
def fDiv (x y : Word) : Word × BitVec 11 :=
  if y == 0#32 then (0xFFFF_FFFF#32, fIDZ) else (BitVec.ofInt 32 (x.toInt.tdiv y.toInt), 0#11)
def fDivu (x y : Word) : Word × BitVec 11 := if y == 0#32 then (0xFFFF_FFFF#32, fIDZ) else (BitVec.ofNat 32 (x.toNat / y.toNat), 0#11)
def fRem (x y : Word) : Word × BitVec 11 :=
  if y == 0#32 then (x, fIDZ) else (BitVec.ofInt 32 (x.toInt - y.toInt * x.toInt.tdiv y.toInt), 0#11)
def fRemu (x y : Word) : Word × BitVec 11 := if y == 0#32 then (x, fIDZ) else (BitVec.ofNat 32 (x.toNat % y.toNat), 0#11)

/-- One-operand forms (R117). -/
def fAbs (x : Word) : Word := if x.toInt < 0 then -x else x
def fClz (x : Word) : Word := BitVec.ofNat 32 (32 - bitLen x.toNat)
def popcount (bits : List Bool) : Nat := (bits.filter id).length
def fPopc (x : Word) : Word := BitVec.ofNat 32 (popcount (bitsOf 32 x))
def fExtB (x : Word) : Word := (x.extractLsb' 0 8).signExtend 32
def fExtH (x : Word) : Word := (x.extractLsb' 0 16).signExtend 32
def fExtBu (x : Word) : Word := (x.extractLsb' 0 8).zeroExtend 32
def fExtHu (x : Word) : Word := (x.extractLsb' 0 16).zeroExtend 32

/-- Integer comparisons eq, ne, lt, ge, ltu, geu (R118). -/
def cmpI (cc : BitVec 3) (x y : Word) : Bool :=
  match cc.toNat with
  | 0 => x == y
  | 1 => x != y
  | 2 => x.slt y
  | 3 => !x.slt y
  | 4 => x.ult y
  | _ => !x.ult y

/-- Predicate logic (R119). -/
def pLogic (f : Bool → Bool → Bool) (pd pa pb : BitVec 3) (na nb : Bool) : Iss Unit := do
  let x ← readP pa
  let y ← readP pb
  act fun s => s.putP 1 pd ⟨f (x.val != na) (y.val != nb), x.poi || y.poi⟩

/-- A floating-point result of two words. -/
def fp2 (f : Nat → Nat → Nat × BitVec 11) (x y : Word) : Word × BitVec 11 :=
  let r := f x.toNat y.toNat; (BitVec.ofNat 32 r.1, r.2)

/-- Conversion codes 0 to 7 (R71, R122). -/
def fcvtTy (code : BitVec 3) : Ty × Ty :=
  match code.toNat with
  | 0 => (.fl fp32, .int 32 true)
  | 1 => (.fl fp32, .int 32 false)
  | 2 => (.int 32 true, .fl fp32)
  | 3 => (.int 32 false, .fl fp32)
  | 4 => (.fl fp32, .fl fpBf16)
  | 5 => (.fl fpBf16, .fl fp32)
  | 6 => (.fl fp32, .fl fpF16)
  | _ => (.fl fpF16, .fl fp32)

/-- A scalar conversion: a 16-bit source is a[15:0], a 16-bit result has zero above (R122). -/
def fFcvt (code : BitVec 3) (rm : BitVec 2) (x : Word) : Word × BitVec 11 :=
  let t := fcvtTy code
  let r := convert t.1 t.2 rm false (x.toNat % 2 ^ t.1.width)
  (BitVec.ofNat 32 r.1, r.2)

/-- Sign injection: which of b's sign, its inverse, the exclusive or (R123). -/
def sgnInject (f : Bool → Bool → Bool) (d a b : BitVec 6) : Iss Unit :=
  sBin 4 true (fp2 fun x y => fp32.setSign x (f (decide (2 ^ 31 ≤ x)) (decide (2 ^ 31 ≤ y)))) d a b

/-- add (R115). -/
def execAdd (d a b : BitVec 6) (s : State) : Host.Outcome State Fault Refusal :=
  issue (sBin 1 false (plain fAdd) d a b) s
/-- sub (R115). -/
def execSub (d a b : BitVec 6) (s : State) : Host.Outcome State Fault Refusal :=
  issue (sBin 1 false (plain fSub) d a b) s
/-- and (R115). -/
def execAnd (d a b : BitVec 6) (s : State) : Host.Outcome State Fault Refusal :=
  issue (sBin 1 false (plain fAnd) d a b) s
/-- or (R115). -/
def execOr (d a b : BitVec 6) (s : State) : Host.Outcome State Fault Refusal :=
  issue (sBin 1 false (plain fOr) d a b) s
/-- xor (R115). -/
def execXor (d a b : BitVec 6) (s : State) : Host.Outcome State Fault Refusal :=
  issue (sBin 1 false (plain fXor) d a b) s
/-- andn (R115). -/
def execAndn (d a b : BitVec 6) (s : State) : Host.Outcome State Fault Refusal :=
  issue (sBin 1 false (plain fAndn) d a b) s
/-- shl (R115). -/
def execShl (d a b : BitVec 6) (s : State) : Host.Outcome State Fault Refusal :=
  issue (sBin 1 false (plain fShl) d a b) s
/-- shr (R115). -/
def execShr (d a b : BitVec 6) (s : State) : Host.Outcome State Fault Refusal :=
  issue (sBin 1 false (plain fShr) d a b) s
/-- sar (R115). -/
def execSar (d a b : BitVec 6) (s : State) : Host.Outcome State Fault Refusal :=
  issue (sBin 1 false (plain fSar) d a b) s
/-- rol (R115). -/
def execRol (d a b : BitVec 6) (s : State) : Host.Outcome State Fault Refusal :=
  issue (sBin 1 false (plain fRol) d a b) s
/-- min (R115). -/
def execMin (d a b : BitVec 6) (s : State) : Host.Outcome State Fault Refusal :=
  issue (sBin 1 false (plain fMin) d a b) s
/-- max (R115). -/
def execMax (d a b : BitVec 6) (s : State) : Host.Outcome State Fault Refusal :=
  issue (sBin 1 false (plain fMax) d a b) s
/-- minu (R115). -/
def execMinu (d a b : BitVec 6) (s : State) : Host.Outcome State Fault Refusal :=
  issue (sBin 1 false (plain fMinu) d a b) s
/-- maxu (R115). -/
def execMaxu (d a b : BitVec 6) (s : State) : Host.Outcome State Fault Refusal :=
  issue (sBin 1 false (plain fMaxu) d a b) s
/-- adds (R115). -/
def execAdds (d a b : BitVec 6) (s : State) : Host.Outcome State Fault Refusal :=
  issue (sBin 1 false fAdds d a b) s
/-- subs (R115). -/
def execSubs (d a b : BitVec 6) (s : State) : Host.Outcome State Fault Refusal :=
  issue (sBin 1 false fSubs d a b) s
/-- mul (R116). -/
def execMul (d a b : BitVec 6) (s : State) : Host.Outcome State Fault Refusal :=
  issue (sBin 3 false (plain fMul) d a b) s
/-- mulh (R116). -/
def execMulh (d a b : BitVec 6) (s : State) : Host.Outcome State Fault Refusal :=
  issue (sBin 3 false (plain fMulh) d a b) s
/-- mulhu (R116). -/
def execMulhu (d a b : BitVec 6) (s : State) : Host.Outcome State Fault Refusal :=
  issue (sBin 3 false (plain fMulhu) d a b) s
/-- div (R116). -/
def execDiv (d a b : BitVec 6) (s : State) : Host.Outcome State Fault Refusal :=
  issue (sBin 18 false fDiv d a b) s
/-- divu (R116). -/
def execDivu (d a b : BitVec 6) (s : State) : Host.Outcome State Fault Refusal :=
  issue (sBin 18 false fDivu d a b) s
/-- rem (R116). -/
def execRem (d a b : BitVec 6) (s : State) : Host.Outcome State Fault Refusal :=
  issue (sBin 18 false fRem d a b) s
/-- remu (R116). -/
def execRemu (d a b : BitVec 6) (s : State) : Host.Outcome State Fault Refusal :=
  issue (sBin 18 false fRemu d a b) s
/-- abs (R117). -/
def execAbs (d a : BitVec 6) (s : State) : Host.Outcome State Fault Refusal :=
  issue (sUn 1 false (fun x => (fAbs x, 0#11)) d a) s
/-- clz (R117). -/
def execClz (d a : BitVec 6) (s : State) : Host.Outcome State Fault Refusal :=
  issue (sUn 1 false (fun x => (fClz x, 0#11)) d a) s
/-- popc (R117). -/
def execPopc (d a : BitVec 6) (s : State) : Host.Outcome State Fault Refusal :=
  issue (sUn 1 false (fun x => (fPopc x, 0#11)) d a) s
/-- extB (R117). -/
def execExtB (d a : BitVec 6) (s : State) : Host.Outcome State Fault Refusal :=
  issue (sUn 1 false (fun x => (fExtB x, 0#11)) d a) s
/-- extH (R117). -/
def execExtH (d a : BitVec 6) (s : State) : Host.Outcome State Fault Refusal :=
  issue (sUn 1 false (fun x => (fExtH x, 0#11)) d a) s
/-- extBu (R117). -/
def execExtBu (d a : BitVec 6) (s : State) : Host.Outcome State Fault Refusal :=
  issue (sUn 1 false (fun x => (fExtBu x, 0#11)) d a) s
/-- extHu (R117). -/
def execExtHu (d a : BitVec 6) (s : State) : Host.Outcome State Fault Refusal :=
  issue (sUn 1 false (fun x => (fExtHu x, 0#11)) d a) s
/-- sel reads only the selected source and the selector (R112, R117). -/
def execSel (d a b : BitVec 6) (p : BitVec 3) (s : State) : Host.Outcome State Fault Refusal :=
  issue (do
    let c ← readP p
    let x ← readS (if c.val then a else b)
    act fun s => s.putS 1 d ⟨x.val, x.poi || c.poi⟩) s
/-- addi (R115). -/
def execAddi (d a : BitVec 6) (i : BitVec 18) (s : State) : Host.Outcome State Fault Refusal :=
  issue (sImm (plain fAdd) d a i) s
/-- andImm (R115). -/
def execAndImm (d a : BitVec 6) (i : BitVec 18) (s : State) : Host.Outcome State Fault Refusal :=
  issue (sImm (plain fAnd) d a i) s
/-- orImm (R115). -/
def execOrImm (d a : BitVec 6) (i : BitVec 18) (s : State) : Host.Outcome State Fault Refusal :=
  issue (sImm (plain fOr) d a i) s
/-- xorImm (R115). -/
def execXorImm (d a : BitVec 6) (i : BitVec 18) (s : State) : Host.Outcome State Fault Refusal :=
  issue (sImm (plain fXor) d a i) s
/-- andnImm (R115). -/
def execAndnImm (d a : BitVec 6) (i : BitVec 18) (s : State) : Host.Outcome State Fault Refusal :=
  issue (sImm (plain fAndn) d a i) s
/-- shlImm (R115). -/
def execShlImm (d a : BitVec 6) (i : BitVec 18) (s : State) : Host.Outcome State Fault Refusal :=
  issue (sImm (plain fShl) d a i) s
/-- shrImm (R115). -/
def execShrImm (d a : BitVec 6) (i : BitVec 18) (s : State) : Host.Outcome State Fault Refusal :=
  issue (sImm (plain fShr) d a i) s
/-- sarImm (R115). -/
def execSarImm (d a : BitVec 6) (i : BitVec 18) (s : State) : Host.Outcome State Fault Refusal :=
  issue (sImm (plain fSar) d a i) s
/-- rolImm (R115). -/
def execRolImm (d a : BitVec 6) (i : BitVec 18) (s : State) : Host.Outcome State Fault Refusal :=
  issue (sImm (plain fRol) d a i) s
/-- movi (R117). -/
def execMovi (d : BitVec 6) (i : BitVec 24) (s : State) : Host.Outcome State Fault Refusal :=
  issue (act fun s => s.putS 1 d (immS i)) s
/-- movhi reads its destination (R117). -/
def execMovhi (d : BitVec 6) (i : BitVec 16) (s : State) : Host.Outcome State Fault Refusal :=
  issue (do
    let x ← readSD d
    act fun s => s.putS 1 d ⟨i ++ x.val.extractLsb' 0 16, x.poi⟩) s
/-- cmp with a register (R118). -/
def execCmp (pd cc : BitVec 3) (a b : BitVec 6) (s : State) : Host.Outcome State Fault Refusal :=
  issue (do
    let (x, y) ← readS2 a b
    act fun s => s.putP 1 pd ⟨cmpI cc x.val y.val, x.poi || y.poi⟩) s
/-- cmp with an immediate (R118). -/
def execCmpImm (pd cc : BitVec 3) (a : BitVec 6) (i : BitVec 15) (s : State) : Host.Outcome State Fault Refusal :=
  issue (do
    let x ← readS a
    act fun s => s.putP 1 pd ⟨cmpI cc x.val (immS i).val, x.poi⟩) s
/-- pand (R119). -/
def execPand (pd pa pb : BitVec 3) (na nb : Bool) (s : State) : Host.Outcome State Fault Refusal :=
  issue (pLogic (· && ·) pd pa pb na nb) s
/-- por (R119). -/
def execPor (pd pa pb : BitVec 3) (na nb : Bool) (s : State) : Host.Outcome State Fault Refusal :=
  issue (pLogic (· || ·) pd pa pb na nb) s
/-- pxor (R119). -/
def execPxor (pd pa pb : BitVec 3) (na nb : Bool) (s : State) : Host.Outcome State Fault Refusal :=
  issue (pLogic (· != ·) pd pa pb na nb) s
/-- pnot (R119). -/
def execPnot (pd pa : BitVec 3) (na : Bool) (s : State) : Host.Outcome State Fault Refusal :=
  issue (pLogic (fun x _ => !x) pd pa 0#3 na false) s
/-- fadd (R120). -/
def execFadd (d a b : BitVec 6) (rm : BitVec 2) (s : State) : Host.Outcome State Fault Refusal :=
  issue (sBin 4 true (fp2 (fp32.addSub rm false)) d a b) s
/-- fsub (R120). -/
def execFsub (d a b : BitVec 6) (rm : BitVec 2) (s : State) : Host.Outcome State Fault Refusal :=
  issue (sBin 4 true (fp2 (fp32.addSub rm true)) d a b) s
/-- fmul (R120). -/
def execFmul (d a b : BitVec 6) (rm : BitVec 2) (s : State) : Host.Outcome State Fault Refusal :=
  issue (sBin 4 true (fp2 (fp32.mul rm)) d a b) s
/-- ffma: one rounding (R120). -/
def execFfma (d a b c : BitVec 6) (rm : BitVec 2) (s : State) : Host.Outcome State Fault Refusal :=
  issue (do
    let x ← takeS a
    let y ← takeS b
    let z ← takeS c
    underS a
    underS b
    underS c
    let r := fp32.fma rm false x.val.toNat y.val.toNat z.val.toNat
    let p := x.poi || y.poi || z.poi
    act fun s => s.putS 4 d ⟨BitVec.ofNat 32 r.1, p⟩ (cleanFlags p r.2) true) s
/-- fmin (R120). -/
def execFmin (d a b : BitVec 6) (s : State) : Host.Outcome State Fault Refusal :=
  issue (sBin 4 true (fp2 (fp32.minMax false)) d a b) s
/-- fmax (R120). -/
def execFmax (d a b : BitVec 6) (s : State) : Host.Outcome State Fault Refusal :=
  issue (sBin 4 true (fp2 (fp32.minMax true)) d a b) s
/-- fminn (R120). -/
def execFminn (d a b : BitVec 6) (s : State) : Host.Outcome State Fault Refusal :=
  issue (sBin 4 true (fp2 (fp32.minMaxNum false)) d a b) s
/-- fmaxn (R120). -/
def execFmaxn (d a b : BitVec 6) (s : State) : Host.Outcome State Fault Refusal :=
  issue (sBin 4 true (fp2 (fp32.minMaxNum true)) d a b) s
/-- fcmp (R121). -/
def execFcmp (pd cc : BitVec 3) (a b : BitVec 6) (s : State) : Host.Outcome State Fault Refusal :=
  issue (do
    let (x, y) ← readS2 a b
    let r := fp32.compare cc.toNat x.val.toNat y.val.toNat
    let p := x.poi || y.poi
    act fun s => s.putP 1 pd ⟨r.1, p⟩ (cleanFlags p r.2) true) s
/-- fcvt (R122). -/
def execFcvt (d a : BitVec 6) (code : BitVec 3) (rm : BitVec 2) (s : State) : Host.Outcome State Fault Refusal :=
  issue (sUn 4 true (fFcvt code rm) d a) s
/-- fsgn (R123). -/
def execFsgn (d a b : BitVec 6) (s : State) : Host.Outcome State Fault Refusal :=
  issue (sgnInject (fun _ y => y) d a b) s
/-- fsgn.n (R123). -/
def execFsgnN (d a b : BitVec 6) (s : State) : Host.Outcome State Fault Refusal :=
  issue (sgnInject (fun _ y => !y) d a b) s
/-- fsgn.x (R123). -/
def execFsgnX (d a b : BitVec 6) (s : State) : Host.Outcome State Fault Refusal :=
  issue (sgnInject (· != ·) d a b) s

end Sys2Proof.Machine
end

