-- ==== Sys2Proof/Machine/Vector.lean ====
section
/-! DEFINITION. V kind (R76): element-wise arithmetic, compares, lane moves, reductions, conversions (R124 to R133). -/

namespace Sys2Proof.Machine

/-- Two sources, one result in each selected lane (R125). -/
def vBin (lat : Nat) (ty : BitVec 3) (f : Nat → Nat → Nat × BitVec 11) (d a b : BitVec 7) (mk : BitVec 3) : Iss Unit := do
  let x ← readV a
  let y ← readV b
  let m ← readM mk
  act fun s => s.putRow lat d (RowW.of (tyWidth ty) (maskLanes (tyLanes ty) m (lane2 (tyWidth ty) x y f)))

/-- One source, one result in each selected lane. -/
def vUn (lat : Nat) (ty : BitVec 3) (f : Nat → Nat × BitVec 11) (d a : BitVec 7) (mk : BitVec 3) : Iss Unit := do
  let x ← readV a
  let m ← readM mk
  act fun s => s.putRow lat d (RowW.of (tyWidth ty) (maskLanes (tyLanes ty) m (lane1 (tyWidth ty) x f)))

/-- An integer result modulo 2^width. -/
def vInt (ty : BitVec 3) (f : Int → Int → Int) (x y : Nat) : Nat × BitVec 11 :=
  let w := tyWidth ty; (intBits w (f (intVal w (tySigned ty) x) (intVal w (tySigned ty) y)), 0#11)
/-- An integer result clamped to the type's range (R93). -/
def vSat (ty : BitVec 3) (f : Int → Int → Int) (x y : Nat) : Nat × BitVec 11 :=
  let w := tyWidth ty
  let r := clampI w (tySigned ty) (f (intVal w (tySigned ty) x) (intVal w (tySigned ty) y)); (r.1, flagIf r.2 fSAT)
/-- The F form or the I form of an operation of any class. -/
def vAny (ty : BitVec 3) (ff : Fmt → Nat → Nat → Nat × BitVec 11) (fi : Nat → Nat → Nat × BitVec 11) (x y : Nat) : Nat × BitVec 11 :=
  if tyIsF ty then ff (tyFmt ty) x y else fi x y
/-- A fused operation with the destination as addend: round(d ± a·b) (R125). -/
def vFused (neg : Bool) (d a b : BitVec 7) (mk ty : BitVec 3) (rm : BitVec 2) : Iss Unit := do
  let z ← readVD d
  let x ← readV a
  let y ← readV b
  let m ← readM mk
  let w := tyWidth ty
  let f (i : Nat) : LRes :=
    let r := (tyFmt ty).fma rm neg (x.lane w i) (y.lane w i) (z.lane w i)
    ⟨r.1, x.lpoi w i || y.lpoi w i || z.lpoi w i, r.2⟩
  act fun s => s.putRow 5 d (RowW.of w (maskLanes (tyLanes ty) m f))

/-- Shifts of a lane by c: left, logical right, arithmetic right (R125). -/
def vShl (w x c : Nat) : Nat := x * 2 ^ c % 2 ^ w
def vShr (_w x c : Nat) : Nat := x / 2 ^ c
def vSar (w x c : Nat) : Nat := intBits w (intVal w true x / (2 ^ c : Nat))
def vShift (f : Nat → Nat → Nat → Nat) (ty : BitVec 3) (x y : Nat) : Nat × BitVec 11 :=
  let w := tyWidth ty; (f w x (y % w), 0#11)

/-- Compares eq, ne, lt, le, gt, ge, un (R126). -/
def vCompare (cc ty : BitVec 3) (x y : Nat) : Bool × BitVec 11 :=
  if tyIsF ty then
    let f := tyFmt ty
    match cc.toNat with
    | 0 => f.compare 0 x y
    | 1 => (let r := f.compare 0 x y; (!r.1, r.2))
    | 2 => f.compare 1 x y
    | 3 => f.compare 2 x y
    | 4 => f.compare 1 y x
    | 5 => f.compare 2 y x
    | _ => f.compare 3 x y
  else
    let w := tyWidth ty
    let a := intVal w (tySigned ty) x; let b := intVal w (tySigned ty) y
    (match cc.toNat with
     | 0 => decide (a = b) | 1 => decide (a ≠ b) | 2 => decide (a < b) | 3 => decide (a ≤ b) | 4 => decide (b < a) | _ => decide (b ≤ a), 0#11)

/-- min(max(x, lo), hi) of the type (R128). -/
def vClampLane (ty : BitVec 3) (lo hi x : Nat) : Nat × BitVec 11 :=
  if tyIsF ty then
    let f := tyFmt ty
    match nanOf f [x, lo, hi] with
    | some r => r
    | none => (pick f false (pick f true x lo) hi, 0#11)
  else
    let w := tyWidth ty; let v := intVal w (tySigned ty)
    (intBits w (min (max (v x) (v lo)) (v hi)), 0#11)

/-- One reduction (R130): nodes are 32-bit words with flags and poison. An f32 lane is its own node (log 116). -/
def vReduce (ty : BitVec 3) (op : Nat → Nat → Nat × BitVec 11) (empty : Nat) (d : BitVec 6) (a : BitVec 7) (mk : BitVec 3) : Iss Unit := do
  let x ← readV a
  let m ← readM mk
  let w := tyWidth ty
  let n := tyLanes ty
  let widen (v : Nat) : Nat × BitVec 11 :=
    if tyIsF ty then (if w = 32 then (v, 0#11) else convert (.fl (tyFmt ty)) (.fl fp32) 0#2 false v)
    else (intBits 32 (intVal w (tySigned ty) v), 0#11)
  let leaf (i : Nat) : Option (Nat × BitVec 11) := if m.val.getLsbD i then some (widen (x.lane w i)) else none
  let node (p q : Nat × BitVec 11) : Nat × BitVec 11 := let r := op p.1 q.1; (r.1, r.2 ||| p.2 ||| q.2)
  let poi := (upto 0 n).any fun i => m.poi.getLsbD i || (m.val.getLsbD i && x.lpoi w i)
  let r := (redTree node ((upto 0 n).map leaf) (if n = 64 then 6 else 7)).getD (empty, 0#11)
  act fun s => s.putS 7 d ⟨BitVec.ofNat 32 r.1, poi⟩ (cleanFlags poi r.2) true

/-- max and min of a reduction, with their empty results (R130). -/
def redMinMax (mx : Bool) (ty : BitVec 3) (d : BitVec 6) (a : BitVec 7) (mk : BitVec 3) : Iss Unit :=
  let sgn := tySigned ty
  let cmp (x y : Nat) : Nat × BitVec 11 :=
    let p := intVal 32 sgn x; let q := intVal 32 sgn y
    ((if mx then (if p < q then y else x) else (if q < p then y else x)), 0#11)
  let empty := if tyIsF ty then (if mx then 0xFF80_0000 else 0x7F80_0000)
    else if sgn then (if mx then 0x8000_0000 else 0x7FFF_FFFF) else (if mx then 0 else 0xFFFF_FFFF)
  vReduce ty (if tyIsF ty then fp32.minMax mx else cmp) empty d a mk

/-- Format codes of vcvt (R76). -/
def cvtTy (c : BitVec 3) : Ty :=
  match c.toNat with
  | 0 => .fl fp32 | 1 => .fl fpBf16 | 2 => .fl fpF16 | 3 => .int 32 true | 4 => .int 16 true | 5 => .fl fpE4m3 | 6 => .fl fpE5m2 | _ => .int 8 true

/-- vadd (R125). -/
def execVadd (d a b : BitVec 7) (mk ty : BitVec 3) (rm : BitVec 2) (s : State) : Host.Outcome State Fault Refusal :=
  issue (vBin (vLat ty) ty (vAny ty (fun f => f.addSub rm false) (vInt ty (· + ·))) d a b mk) s
/-- vsub (R125). -/
def execVsub (d a b : BitVec 7) (mk ty : BitVec 3) (rm : BitVec 2) (s : State) : Host.Outcome State Fault Refusal :=
  issue (vBin (vLat ty) ty (vAny ty (fun f => f.addSub rm true) (vInt ty (· - ·))) d a b mk) s
/-- vmul (R125). -/
def execVmul (d a b : BitVec 7) (mk ty : BitVec 3) (rm : BitVec 2) (s : State) : Host.Outcome State Fault Refusal :=
  issue (vBin (vLat ty) ty (vAny ty (fun f => f.mul rm) (vInt ty (· * ·))) d a b mk) s
/-- vfma (R125). -/
def execVfma (d a b : BitVec 7) (mk ty : BitVec 3) (rm : BitVec 2) (s : State) : Host.Outcome State Fault Refusal :=
  issue (vFused false d a b mk ty rm) s
/-- vfms (R125). -/
def execVfms (d a b : BitVec 7) (mk ty : BitVec 3) (rm : BitVec 2) (s : State) : Host.Outcome State Fault Refusal :=
  issue (vFused true d a b mk ty rm) s
/-- vmin (R125). -/
def execVmin (d a b : BitVec 7) (mk ty : BitVec 3) (s : State) : Host.Outcome State Fault Refusal :=
  issue (vBin (vLat ty) ty (vAny ty (fun f => f.minMax false) (vInt ty min)) d a b mk) s
/-- vmax (R125). -/
def execVmax (d a b : BitVec 7) (mk ty : BitVec 3) (s : State) : Host.Outcome State Fault Refusal :=
  issue (vBin (vLat ty) ty (vAny ty (fun f => f.minMax true) (vInt ty max)) d a b mk) s
/-- vminn (R125). -/
def execVminn (d a b : BitVec 7) (mk ty : BitVec 3) (s : State) : Host.Outcome State Fault Refusal :=
  issue (vBin 5 ty (fun x y => (tyFmt ty).minMaxNum false x y) d a b mk) s
/-- vmaxn (R125). -/
def execVmaxn (d a b : BitVec 7) (mk ty : BitVec 3) (s : State) : Host.Outcome State Fault Refusal :=
  issue (vBin 5 ty (fun x y => (tyFmt ty).minMaxNum true x y) d a b mk) s
/-- vabs (R125). -/
def execVabs (d a : BitVec 7) (mk ty : BitVec 3) (s : State) : Host.Outcome State Fault Refusal :=
  issue (vUn (vLat ty) ty (fun x => if tyIsF ty then (tyFmt ty).setSign x false
    else vInt ty (fun v _ => if v < 0 then -v else v) x 0) d a mk) s
/-- vneg (R125). -/
def execVneg (d a : BitVec 7) (mk ty : BitVec 3) (s : State) : Host.Outcome State Fault Refusal :=
  issue (vUn (vLat ty) ty (fun x => if tyIsF ty then (tyFmt ty).setSign x (decide (x < (tyFmt ty).sgn))
    else vInt ty (fun v _ => -v) x 0) d a mk) s
/-- vadds (R125). -/
def execVadds (d a b : BitVec 7) (mk ty : BitVec 3) (s : State) : Host.Outcome State Fault Refusal :=
  issue (vBin 2 ty (vSat ty (· + ·)) d a b mk) s
/-- vsubs (R125). -/
def execVsubs (d a b : BitVec 7) (mk ty : BitVec 3) (s : State) : Host.Outcome State Fault Refusal :=
  issue (vBin 2 ty (vSat ty (· - ·)) d a b mk) s
/-- vand (R125). -/
def execVand (d a b : BitVec 7) (mk ty : BitVec 3) (s : State) : Host.Outcome State Fault Refusal :=
  issue (vBin 2 ty (fun x y => (x &&& y, 0#11)) d a b mk) s
/-- vor (R125). -/
def execVor (d a b : BitVec 7) (mk ty : BitVec 3) (s : State) : Host.Outcome State Fault Refusal :=
  issue (vBin 2 ty (fun x y => (x ||| y, 0#11)) d a b mk) s
/-- vxor (R125). -/
def execVxor (d a b : BitVec 7) (mk ty : BitVec 3) (s : State) : Host.Outcome State Fault Refusal :=
  issue (vBin 2 ty (fun x y => (x ^^^ y, 0#11)) d a b mk) s
/-- vshl with per-lane counts (R125). -/
def execVshl (d a b : BitVec 7) (mk ty : BitVec 3) (s : State) : Host.Outcome State Fault Refusal :=
  issue (vBin 2 ty (vShift vShl ty) d a b mk) s
/-- vshl with an immediate (R125). -/
def execVshlImm (d a : BitVec 7) (cnt : BitVec 6) (mk ty : BitVec 3) (s : State) : Host.Outcome State Fault Refusal :=
  issue (vUn 2 ty (fun x => vShift vShl ty x cnt.toNat) d a mk) s
/-- vshr with per-lane counts (R125). -/
def execVshr (d a b : BitVec 7) (mk ty : BitVec 3) (s : State) : Host.Outcome State Fault Refusal :=
  issue (vBin 2 ty (vShift vShr ty) d a b mk) s
/-- vshr with an immediate (R125). -/
def execVshrImm (d a : BitVec 7) (cnt : BitVec 6) (mk ty : BitVec 3) (s : State) : Host.Outcome State Fault Refusal :=
  issue (vUn 2 ty (fun x => vShift vShr ty x cnt.toNat) d a mk) s
/-- vsar with per-lane counts (R125). -/
def execVsar (d a b : BitVec 7) (mk ty : BitVec 3) (s : State) : Host.Outcome State Fault Refusal :=
  issue (vBin 2 ty (vShift vSar ty) d a b mk) s
/-- vsar with an immediate (R125). -/
def execVsarImm (d a : BitVec 7) (cnt : BitVec 6) (mk ty : BitVec 3) (s : State) : Host.Outcome State Fault Refusal :=
  issue (vUn 2 ty (fun x => vShift vSar ty x cnt.toNat) d a mk) s
/-- vcmp: the selected bits of a mask (R126). -/
def execVcmp (cc md : BitVec 3) (a b : BitVec 7) (mk ty : BitVec 3) (s : State) : Host.Outcome State Fault Refusal :=
  issue (do
    let x ← readV a
    let y ← readV b
    let m ← readM mk
    let w := tyWidth ty
    let ls := (upto 0 (tyLanes ty)).map fun i =>
      let r := vCompare cc ty (x.lane w i) (y.lane w i)
      (m.val.getLsbD i, r.1, x.lpoi w i || y.lpoi w i || m.poi.getLsbD i, r.2)
    let sel := BitVec.ofNat 128 (spread 1 (ls.map (·.1)))
    let val := BitVec.ofNat 128 (spread 1 (ls.map (·.2.1)))
    let poi := BitVec.ofNat 128 (spread 1 (ls.map (·.2.2.1)))
    let fl := ls.foldl (fun f r => if r.1 then f ||| cleanFlags r.2.2.1 r.2.2.2 else f) 0#11
    act fun s => s.later 2 [.mreg md.toNat sel val poi] fl true) s
/-- vsel: every lane from one of two by a mask (R127); both sources are read as wholes (log 117). -/
def execVsel (d a b : BitVec 7) (mk ty : BitVec 3) (s : State) : Host.Outcome State Fault Refusal :=
  issue (do
    let x ← readV a
    let y ← readV b
    let m ← readM mk
    let w := tyWidth ty
    let f (i : Nat) : Option LRes :=
      let r := if m.val.getLsbD i then x else y
      some ⟨r.lane w i, r.lpoi w i || m.poi.getLsbD i, 0#11⟩
    act fun s => s.putRow 2 d (RowW.of w ((upto 0 (tyLanes ty)).map f))) s
/-- vclamp (R128). -/
def execVclamp (d : BitVec 7) (lo hi : BitVec 6) (mk ty : BitVec 3) (s : State) : Host.Outcome State Fault Refusal :=
  issue (do
    let z ← readVD d
    let (l, h) ← readS2 lo hi
    let m ← readM mk
    let w := tyWidth ty
    let f (i : Nat) : LRes :=
      let r := vClampLane ty (l.val.toNat % 2 ^ w) (h.val.toNat % 2 ^ w) (z.lane w i)
      ⟨r.1, z.lpoi w i || l.poi || h.poi, r.2⟩
    act fun s => s.putRow (vLat ty) d (RowW.of w (maskLanes (tyLanes ty) m f))) s
/-- vmov (R129). -/
def execVmov (d a : BitVec 7) (mk ty : BitVec 3) (s : State) : Host.Outcome State Fault Refusal :=
  issue (vUn 2 ty (fun x => (x, 0#11)) d a mk) s
/-- vbcast (R129). -/
def execVbcast (d : BitVec 7) (sr : BitVec 6) (mk ty : BitVec 3) (s : State) : Host.Outcome State Fault Refusal :=
  issue (do
    let x ← readS sr
    let m ← readM mk
    let w := tyWidth ty
    act fun s => s.putRow 2 d (RowW.of w (maskLanes (tyLanes ty) m fun _ => ⟨x.val.toNat % 2 ^ w, x.poi, 0#11⟩))) s
/-- vext (R129). -/
def execVext (d : BitVec 6) (a : BitVec 7) (lane : BitVec 7) (ty : BitVec 3) (s : State) : Host.Outcome State Fault Refusal :=
  issue (do
    let x ← readV a
    let w := tyWidth ty
    let v := x.lane w lane.toNat
    let r := if ty == 4#3 then intBits 32 (intVal 16 true v) else v
    act fun s => s.putS 2 d ⟨BitVec.ofNat 32 r, x.lpoi w lane.toNat⟩) s
/-- vperm (R129). -/
def execVperm (d a b : BitVec 7) (mk ty : BitVec 3) (s : State) : Host.Outcome State Fault Refusal :=
  issue (do
    let x ← readV a
    let y ← readV b
    let m ← readM mk
    let w := tyWidth ty
    let n := tyLanes ty
    let f (i : Nat) : LRes := let j := y.lane w i % n; ⟨x.lane w j, x.lpoi w j || y.lpoi w i, 0#11⟩
    act fun s => s.putRow 3 d (RowW.of w (maskLanes n m f))) s
/-- vrot (R129). -/
def execVrot (d a : BitVec 7) (cnt : BitVec 7) (mk ty : BitVec 3) (s : State) : Host.Outcome State Fault Refusal :=
  issue (do
    let x ← readV a
    let m ← readM mk
    let w := tyWidth ty
    let n := tyLanes ty
    let f (i : Nat) : LRes := let j := (i + n - cnt.toNat) % n; ⟨x.lane w j, x.lpoi w j, 0#11⟩
    act fun s => s.putRow 3 d (RowW.of w (maskLanes n m f))) s
/-- vslide: the window of (f, a) shifted up by count (R129). -/
def execVslide (d a f : BitVec 7) (cnt ty : BitVec 3) (s : State) : Host.Outcome State Fault Refusal :=
  issue (do
    let x ← readV a
    let y ← readV f
    let w := tyWidth ty
    let n := tyLanes ty
    let k := cnt.toNat
    let g (i : Nat) : Option LRes :=
      if k ≤ i then some ⟨x.lane w (i - k), x.lpoi w (i - k), 0#11⟩
      else some ⟨y.lane w (n - k + i), y.lpoi w (n - k + i), 0#11⟩
    act fun s => s.putRow 3 d (RowW.of w ((upto 0 n).map g))) s
/-- vred.add (R130). -/
def execVredAdd (d : BitVec 6) (a : BitVec 7) (mk ty : BitVec 3) (rm : BitVec 2) (s : State) : Host.Outcome State Fault Refusal :=
  issue (
    vReduce ty (if tyIsF ty then fp32.addSub rm false else fun x y => (intBits 32 (x + y : Nat), 0#11)) 0 d a mk) s
/-- vred.max (R130). -/
def execVredMax (d : BitVec 6) (a : BitVec 7) (mk ty : BitVec 3) (s : State) : Host.Outcome State Fault Refusal :=
  issue (redMinMax true ty d a mk) s
/-- vred.min (R130). -/
def execVredMin (d : BitVec 6) (a : BitVec 7) (mk ty : BitVec 3) (s : State) : Host.Outcome State Fault Refusal :=
  issue (redMinMax false ty d a mk) s
/-- vcvt: element i by mask bit i mod 128 (R131). -/
def execVcvt (d a : BitVec 7) (dst src mk : BitVec 3) (rm : BitVec 2) (sat : Bool) (s : State) : Host.Outcome State Fault Refusal :=
  issue (do
    let x ← readV a
    let m ← readM mk
    let sw := (cvtTy src).width
    let dw := (cvtTy dst).width
    let n := 2048 / Nat.max sw dw
    let f (i : Nat) : Option LRes :=
      if m.val.getLsbD (i % 128) then
        let r := convert (cvtTy src) (cvtTy dst) rm sat (x.lane sw i)
        some ⟨r.1, x.lpoi sw i || m.poi.getLsbD (i % 128), r.2⟩
      else none
    act fun s => s.putRow 4 d (RowW.of dw ((upto 0 n).map f))) s
/-- vpack.sb: one block into bytes 0 to 63 (R132). -/
def execVpackSb (d a : BitVec 7) (mw : BitVec 6) (ty : BitVec 3) (rm : BitVec 2) (s : State) : Host.Outcome State Fault Refusal :=
  issue (do
    let x ← readV a
    let y := fun s : State => s.core.vreg (a.toNat + 1)
    let w := tyWidth ty
    let n := tyLanes ty
    act fun s =>
      let src (i : Nat) : Nat × Bool := if i < n then (x.lane w i, x.lpoi w i) else ((y s).lane w (i - n), (y s).lpoi w (i - n))
      let els := (upto 0 (sbCount mw.toNat)).map src
      let poi := els.any (·.2)
      let r := sbPack mw.toNat rm (els.map fun e => (tyFmt ty).unpack e.1)
      s.putV 4 d (ones 256 64) (BitVec.ofNat 2048 (if poi then 0xFF else r.1)) (if poi then ones 64 16 else 0#64) (cleanFlags poi r.2)) s

/-- The elements of a block as lanes of a type: value or NaN, poison (R133). -/
def unpackLane (ty : BitVec 3) (rm : BitVec 2) (x : VRow) (blk i : Nat) : LRes :=
  let f := tyFmt ty
  let m := blkFmt blk - 0xB0
  let poi := blkFmt blk == 0xFF || x.poi.getLsbD 0 || (isSb (blkFmt blk) && (sbWords m i).any fun w => x.poi.getLsbD w)
  match sbElem blk i with
  | none => ⟨f.nan, poi, 0#11⟩
  | some d => let r := f.roundDy rm false d false; ⟨r.1, poi, r.2⟩

/-- vunpack.sb: the block of bytes 0 to 63, checked at issue (R133). -/
def execVunpackSb (d a : BitVec 7) (ty : BitVec 3) (rm : BitVec 2) (s : State) : Host.Outcome State Fault Refusal :=
  issue (do
    let x ← readV a
    let blk := x.val.toNat % 2 ^ 512
    need (sbOk blk 8) cFormat
    let w := tyWidth ty
    let n := tyLanes ty
    let plainBlk := !isSb (blkFmt blk)
    let cnt := if plainBlk then (if w = 32 then 48 else 96) else sbCount (blkFmt blk - 0xB0)
    let el (i : Nat) : Option LRes := some (if i < cnt then unpackLane ty rm x blk i else ⟨0, false, 0#11⟩)
    let lo := RowW.of w ((upto 0 n).map el)
    -- a poisoned block marks words 0 to 47 in every view
    let loPoi := if blkFmt blk == 0xFF then ones 64 48 else lo.poi
    if n < cnt then
      let hi := RowW.of w ((upto 0 n).map fun i => el (n + i))
      act fun s => s.later 4 [.vrow d.toNat lo.en lo.val loPoi, .vrow (d.toNat + 1) hi.en hi.val hi.poi] (lo.fl ||| hi.fl) true
    else act fun s => s.putV 4 d lo.en lo.val loPoi lo.fl) s

end Sys2Proof.Machine
end

