-- ==== Sys2Proof/Machine/Dispatch.lean ====
section
/-! DEFINITION. One arm for each step of the opcode table. -/

namespace Sys2Proof.Machine

/-- What an instruction, an event or a host command does. -/
def exec (i : Instr) (s : State) : Host.Outcome State Fault Refusal :=
  match i with
  | .hdrLend l2 l3 l4 => Sys2Proof.Machine.execHdrLend l2 l3 l4 s
  | .hdrTree n0 p0 n1 p1 n2 p2 n3 p3 ls2 ls3 ls4 => Sys2Proof.Machine.execHdrTree n0 p0 n1 p1 n2 p2 n3 p3 ls2 ls3 ls4 s
  | .hdrRep cnt st2 st3 st4 => Sys2Proof.Machine.execHdrRep cnt st2 st3 st4 s
  | .add d a b => Sys2Proof.Machine.execAdd d a b s
  | .sub d a b => Sys2Proof.Machine.execSub d a b s
  | .and d a b => Sys2Proof.Machine.execAnd d a b s
  | .or d a b => Sys2Proof.Machine.execOr d a b s
  | .xor d a b => Sys2Proof.Machine.execXor d a b s
  | .andn d a b => Sys2Proof.Machine.execAndn d a b s
  | .shl d a b => Sys2Proof.Machine.execShl d a b s
  | .shr d a b => Sys2Proof.Machine.execShr d a b s
  | .sar d a b => Sys2Proof.Machine.execSar d a b s
  | .rol d a b => Sys2Proof.Machine.execRol d a b s
  | .min d a b => Sys2Proof.Machine.execMin d a b s
  | .max d a b => Sys2Proof.Machine.execMax d a b s
  | .minu d a b => Sys2Proof.Machine.execMinu d a b s
  | .maxu d a b => Sys2Proof.Machine.execMaxu d a b s
  | .adds d a b => Sys2Proof.Machine.execAdds d a b s
  | .subs d a b => Sys2Proof.Machine.execSubs d a b s
  | .mul d a b => Sys2Proof.Machine.execMul d a b s
  | .mulh d a b => Sys2Proof.Machine.execMulh d a b s
  | .mulhu d a b => Sys2Proof.Machine.execMulhu d a b s
  | .div d a b => Sys2Proof.Machine.execDiv d a b s
  | .divu d a b => Sys2Proof.Machine.execDivu d a b s
  | .rem d a b => Sys2Proof.Machine.execRem d a b s
  | .remu d a b => Sys2Proof.Machine.execRemu d a b s
  | .abs d a => Sys2Proof.Machine.execAbs d a s
  | .clz d a => Sys2Proof.Machine.execClz d a s
  | .popc d a => Sys2Proof.Machine.execPopc d a s
  | .extB d a => Sys2Proof.Machine.execExtB d a s
  | .extH d a => Sys2Proof.Machine.execExtH d a s
  | .extBu d a => Sys2Proof.Machine.execExtBu d a s
  | .extHu d a => Sys2Proof.Machine.execExtHu d a s
  | .sel d a b p => Sys2Proof.Machine.execSel d a b p s
  | .addi d a imm => Sys2Proof.Machine.execAddi d a imm s
  | .andImm d a imm => Sys2Proof.Machine.execAndImm d a imm s
  | .orImm d a imm => Sys2Proof.Machine.execOrImm d a imm s
  | .xorImm d a imm => Sys2Proof.Machine.execXorImm d a imm s
  | .andnImm d a imm => Sys2Proof.Machine.execAndnImm d a imm s
  | .shlImm d a imm => Sys2Proof.Machine.execShlImm d a imm s
  | .shrImm d a imm => Sys2Proof.Machine.execShrImm d a imm s
  | .sarImm d a imm => Sys2Proof.Machine.execSarImm d a imm s
  | .rolImm d a imm => Sys2Proof.Machine.execRolImm d a imm s
  | .movi d imm => Sys2Proof.Machine.execMovi d imm s
  | .movhi d imm => Sys2Proof.Machine.execMovhi d imm s
  | .cmp pd cc a b => Sys2Proof.Machine.execCmp pd cc a b s
  | .cmpImm pd cc a imm => Sys2Proof.Machine.execCmpImm pd cc a imm s
  | .pand pd pa pb na nb => Sys2Proof.Machine.execPand pd pa pb na nb s
  | .por pd pa pb na nb => Sys2Proof.Machine.execPor pd pa pb na nb s
  | .pxor pd pa pb na nb => Sys2Proof.Machine.execPxor pd pa pb na nb s
  | .pnot pd pa na => Sys2Proof.Machine.execPnot pd pa na s
  | .fadd d a b rm => Sys2Proof.Machine.execFadd d a b rm s
  | .fsub d a b rm => Sys2Proof.Machine.execFsub d a b rm s
  | .fmul d a b rm => Sys2Proof.Machine.execFmul d a b rm s
  | .ffma d a b c rm => Sys2Proof.Machine.execFfma d a b c rm s
  | .fmin d a b => Sys2Proof.Machine.execFmin d a b s
  | .fmax d a b => Sys2Proof.Machine.execFmax d a b s
  | .fminn d a b => Sys2Proof.Machine.execFminn d a b s
  | .fmaxn d a b => Sys2Proof.Machine.execFmaxn d a b s
  | .fcmp pd cc a b => Sys2Proof.Machine.execFcmp pd cc a b s
  | .fcvt d a code rm => Sys2Proof.Machine.execFcvt d a code rm s
  | .fsgn d a b => Sys2Proof.Machine.execFsgn d a b s
  | .fsgnN d a b => Sys2Proof.Machine.execFsgnN d a b s
  | .fsgnX d a b => Sys2Proof.Machine.execFsgnX d a b s
  | .ldB ar pi off => Sys2Proof.Machine.execLdB ar pi off s
  | .ldH ar pi off => Sys2Proof.Machine.execLdH ar pi off s
  | .ldW ar pi off => Sys2Proof.Machine.execLdW ar pi off s
  | .ldV ar pi off => Sys2Proof.Machine.execLdV ar pi off s
  | .stB ar pi off => Sys2Proof.Machine.execStB ar pi off s
  | .stH ar pi off => Sys2Proof.Machine.execStH ar pi off s
  | .stW ar pi off => Sys2Proof.Machine.execStW ar pi off s
  | .stV ar pi off => Sys2Proof.Machine.execStV ar pi off s
  | .ldDs v ar pi off => Sys2Proof.Machine.execLdDs v ar pi off s
  | .stDs v ar pi off => Sys2Proof.Machine.execStDs v ar pi off s
  | .amoAdd ar sr off => Sys2Proof.Machine.execAmoAdd ar sr off s
  | .amoMin ar sr off => Sys2Proof.Machine.execAmoMin ar sr off s
  | .amoMax ar sr off => Sys2Proof.Machine.execAmoMax ar sr off s
  | .amoSwap ar sr off => Sys2Proof.Machine.execAmoSwap ar sr off s
  | .amoCas ar sr c off => Sys2Proof.Machine.execAmoCas ar sr c off s
  | .aaddImm ad aa imm => Sys2Proof.Machine.execAaddImm ad aa imm s
  | .aadd ad aa sr => Sys2Proof.Machine.execAadd ad aa sr s
  | .amovA ad sr => Sys2Proof.Machine.execAmovA ad sr s
  | .amovS sd aa => Sys2Proof.Machine.execAmovS sd aa s
  | .streamRd k ar off start => Sys2Proof.Machine.execStreamRd k ar off start s
  | .streamWr k ar off start => Sys2Proof.Machine.execStreamWr k ar off start s
  | .vadd d a b mk ty rm => Sys2Proof.Machine.execVadd d a b mk ty rm s
  | .vsub d a b mk ty rm => Sys2Proof.Machine.execVsub d a b mk ty rm s
  | .vmul d a b mk ty rm => Sys2Proof.Machine.execVmul d a b mk ty rm s
  | .vfma d a b mk ty rm => Sys2Proof.Machine.execVfma d a b mk ty rm s
  | .vfms d a b mk ty rm => Sys2Proof.Machine.execVfms d a b mk ty rm s
  | .vmin d a b mk ty => Sys2Proof.Machine.execVmin d a b mk ty s
  | .vmax d a b mk ty => Sys2Proof.Machine.execVmax d a b mk ty s
  | .vminn d a b mk ty => Sys2Proof.Machine.execVminn d a b mk ty s
  | .vmaxn d a b mk ty => Sys2Proof.Machine.execVmaxn d a b mk ty s
  | .vabs d a mk ty => Sys2Proof.Machine.execVabs d a mk ty s
  | .vneg d a mk ty => Sys2Proof.Machine.execVneg d a mk ty s
  | .vadds d a b mk ty => Sys2Proof.Machine.execVadds d a b mk ty s
  | .vsubs d a b mk ty => Sys2Proof.Machine.execVsubs d a b mk ty s
  | .vand d a b mk ty => Sys2Proof.Machine.execVand d a b mk ty s
  | .vor d a b mk ty => Sys2Proof.Machine.execVor d a b mk ty s
  | .vxor d a b mk ty => Sys2Proof.Machine.execVxor d a b mk ty s
  | .vshl d a b mk ty => Sys2Proof.Machine.execVshl d a b mk ty s
  | .vshr d a b mk ty => Sys2Proof.Machine.execVshr d a b mk ty s
  | .vsar d a b mk ty => Sys2Proof.Machine.execVsar d a b mk ty s
  | .vshlImm d a cnt mk ty => Sys2Proof.Machine.execVshlImm d a cnt mk ty s
  | .vshrImm d a cnt mk ty => Sys2Proof.Machine.execVshrImm d a cnt mk ty s
  | .vsarImm d a cnt mk ty => Sys2Proof.Machine.execVsarImm d a cnt mk ty s
  | .vcmp cc md a b mk ty => Sys2Proof.Machine.execVcmp cc md a b mk ty s
  | .vsel d a b mk ty => Sys2Proof.Machine.execVsel d a b mk ty s
  | .vclamp d lo hi mk ty => Sys2Proof.Machine.execVclamp d lo hi mk ty s
  | .vmov d a mk ty => Sys2Proof.Machine.execVmov d a mk ty s
  | .vbcast d sr mk ty => Sys2Proof.Machine.execVbcast d sr mk ty s
  | .vext d a lane ty => Sys2Proof.Machine.execVext d a lane ty s
  | .vperm d a b mk ty => Sys2Proof.Machine.execVperm d a b mk ty s
  | .vrot d a cnt mk ty => Sys2Proof.Machine.execVrot d a cnt mk ty s
  | .vslide d a f cnt ty => Sys2Proof.Machine.execVslide d a f cnt ty s
  | .vredAdd d a mk ty rm => Sys2Proof.Machine.execVredAdd d a mk ty rm s
  | .vredMax d a mk ty => Sys2Proof.Machine.execVredMax d a mk ty s
  | .vredMin d a mk ty => Sys2Proof.Machine.execVredMin d a mk ty s
  | .vcvt d a dst src mk rm sat => Sys2Proof.Machine.execVcvt d a dst src mk rm sat s
  | .vpackSb d a mw ty rm => Sys2Proof.Machine.execVpackSb d a mw ty rm s
  | .vunpackSb d a ty rm => Sys2Proof.Machine.execVunpackSb d a ty rm s
  | .lease k => Sys2Proof.Machine.execLease k s
  | .unlease => Sys2Proof.Machine.execUnlease s
  | .lwt w ar bt start => Sys2Proof.Machine.execLwt w ar bt start s
  | .mma acc w ar bt ty start => Sys2Proof.Machine.execMma acc w ar bt ty start s
  | .mmaz acc w ar bt ty start => Sys2Proof.Machine.execMmaz acc w ar bt ty start s
  | .gmma acc w ar bt ty start => Sys2Proof.Machine.execGmma acc w ar bt ty start s
  | .accz acc => Sys2Proof.Machine.execAccz acc s
  | .accld acc ar cv rw start => Sys2Proof.Machine.execAccld acc ar cv rw start s
  | .accret acc ar cv rw start => Sys2Proof.Machine.execAccret acc ar cv rw start s
  | .amodeWrap => Sys2Proof.Machine.execAmodeWrap s
  | .amodeSat => Sys2Proof.Machine.execAmodeSat s
  | .tev d a fn ty mk => Sys2Proof.Machine.execTev d a fn ty mk s
  | .tld tb ar k => Sys2Proof.Machine.execTld tb ar k s
  | .tcfg tb sr => Sys2Proof.Machine.execTcfg tb sr s
  | .skinitQs z size k => Sys2Proof.Machine.execSkinitQs z size k s
  | .skinitHh z size k => Sys2Proof.Machine.execSkinitHh z size k s
  | .skinitDc z size k => Sys2Proof.Machine.execSkinitDc z size k s
  | .skseed sr k => Sys2Proof.Machine.execSkseed sr k s
  | .skfold z v mk k => Sys2Proof.Machine.execSkfold z v mk k s
  | .skmerge zd zs k => Sys2Proof.Machine.execSkmerge zd zs k s
  | .skq d z sr k => Sys2Proof.Machine.execSkq d z sr k s
  | .skrank d z sr k => Sys2Proof.Machine.execSkrank d z sr k s
  | .skcard d z k => Sys2Proof.Machine.execSkcard d z k s
  | .sktop z ar k => Sys2Proof.Machine.execSktop z ar k s
  | .skld z ar k => Sys2Proof.Machine.execSkld z ar k s
  | .skst z ar k => Sys2Proof.Machine.execSkst z ar k s
  | .skclr z k => Sys2Proof.Machine.execSkclr z k s
  | .cpyTd k ad asr ln start => Sys2Proof.Machine.execCpyTd k ad asr ln start s
  | .cpyDt k ad asr ln start => Sys2Proof.Machine.execCpyDt k ad asr ln start s
  | .cpyRedF32 k ad asr ln dt start => Sys2Proof.Machine.execCpyRedF32 k ad asr ln dt start s
  | .cpyRedBf16 k ad asr ln dt start => Sys2Proof.Machine.execCpyRedBf16 k ad asr ln dt start s
  | .cpyRedI32 k ad asr ln dt start => Sys2Proof.Machine.execCpyRedI32 k ad asr ln dt start s
  | .send ch ar ln start => Sys2Proof.Machine.execSend ch ar ln start s
  | .sendRel ch ar ln start => Sys2Proof.Machine.execSendRel ch ar ln start s
  | .sendM g ar ln start => Sys2Proof.Machine.execSendM g ar ln start s
  | .sendr ch ar ln start => Sys2Proof.Machine.execSendr ch ar ln start s
  | .recvArm ch sr => Sys2Proof.Machine.execRecvArm ch sr s
  | .qpost e => Sys2Proof.Machine.execQpost e s
  | .qarm e k sr => Sys2Proof.Machine.execQarm e k sr s
  | .sideAdd id ar sl => Sys2Proof.Machine.execSideAdd id ar sl s
  | .sideRel id => Sys2Proof.Machine.execSideRel id s
  | .decCfg ar => Sys2Proof.Machine.execDecCfg ar s
  | .barArr b => Sys2Proof.Machine.execBarArr b s
  | .nxt d => Sys2Proof.Machine.execNxt d s
  | .route cl si sv => Sys2Proof.Machine.execRoute cl si sv s
  | .br off => Sys2Proof.Machine.execBr off s
  | .call off => Sys2Proof.Machine.execCall off s
  | .brC n p off => Sys2Proof.Machine.execBrC n p off s
  | .brTree off => Sys2Proof.Machine.execBrTree off s
  | .ret => Sys2Proof.Machine.execRet s
  | .loop sr len mx => Sys2Proof.Machine.execLoop sr len mx s
  | .loopP sr len mx => Sys2Proof.Machine.execLoopP sr len mx s
  | .loopW n p len mx => Sys2Proof.Machine.execLoopW n p len mx s
  | .brk n p => Sys2Proof.Machine.execBrk n p s
  | .dly cnt => Sys2Proof.Machine.execDly cnt s
  | .nop => Sys2Proof.Machine.execNop s
  | .wait k n => Sys2Proof.Machine.execWait k n s
  | .barWait b => Sys2Proof.Machine.execBarWait b s
  | .exit => Sys2Proof.Machine.execExit s
  | .phase n => Sys2Proof.Machine.execPhase n s
  | .csrr d csr => Sys2Proof.Machine.execCsrr d csr s
  | .csrw a csr => Sys2Proof.Machine.execCsrw a csr s
  | .trap n => Sys2Proof.Machine.execTrap n s
  | .tret => Sys2Proof.Machine.execTret s
  | .tks k sr => Sys2Proof.Machine.execTks k sr s
  | .tkr k sr => Sys2Proof.Machine.execTkr k sr s
  | .tkz k => Sys2Proof.Machine.execTkz k s
  | .tkp k n => Sys2Proof.Machine.execTkp k n s
  | .cycGl d => Sys2Proof.Machine.execCycGl d s
  | .cycGh d => Sys2Proof.Machine.execCycGh d s
  | .cycTl d => Sys2Proof.Machine.execCycTl d s
  | .cycTh d => Sys2Proof.Machine.execCycTh d s
  | .sig c => Sys2Proof.Machine.execSig c s
  | .bkpt n => Sys2Proof.Machine.execBkpt n s
  | .pwr h => Sys2Proof.Machine.execPwr h s
  | .ent d => Sys2Proof.Machine.execEnt d s
  | .crgadd sa => Sys2Proof.Machine.execCrgadd sa s
  | .crgclr => Sys2Proof.Machine.execCrgclr s
  | .mctlKill => Sys2Proof.Machine.execMctlKill s
  | .mctlSave => Sys2Proof.Machine.execMctlSave s
  | .mctlCont => Sys2Proof.Machine.execMctlCont s
  | .loadImage port tag list count => Sys2Proof.Machine.execLoadImage port tag list count s
  | .launchStart port tag x0 y0 w h mb => Sys2Proof.Machine.execLaunchStart port tag x0 y0 w h mb s
  | .launchPost port tag x0 y0 w h mb => Sys2Proof.Machine.execLaunchPost port tag x0 y0 w h mb s
  | .stream port tag host dva len toHost => Sys2Proof.Machine.execStream port tag host dva len toHost s
  | .mapRangeEntry port tag entry w0 w1 w2 => Sys2Proof.Machine.execMapRangeEntry port tag entry w0 w1 w2 s
  | .mapTableRoot port tag ta => Sys2Proof.Machine.execMapTableRoot port tag ta s
  | .mapInvalidate port tag dva len => Sys2Proof.Machine.execMapInvalidate port tag dva len s
  | .queryModuleState port tag buf len => Sys2Proof.Machine.execQueryModuleState port tag buf len s
  | .queryMirage port tag buf len => Sys2Proof.Machine.execQueryMirage port tag buf len s
  | .queryTileReport port tag name buf len => Sys2Proof.Machine.execQueryTileReport port tag name buf len s
  | .queryEnergy port tag buf len => Sys2Proof.Machine.execQueryEnergy port tag buf len s
  | .queryDebugChallenge port tag buf len => Sys2Proof.Machine.execQueryDebugChallenge port tag buf len s
  | .queryRouterCounters port tag name buf len => Sys2Proof.Machine.execQueryRouterCounters port tag name buf len s
  | .queryOpticalPorts port tag buf len => Sys2Proof.Machine.execQueryOpticalPorts port tag buf len s
  | .checkpoint port tag at' dva dlen list count => Sys2Proof.Machine.execCheckpoint port tag at' dva dlen list count s
  | .restore port tag dva => Sys2Proof.Machine.execRestore port tag dva s
  | .preempt port tag name node => Sys2Proof.Machine.execPreempt port tag name node s
  | .resume port tag u scope name => Sys2Proof.Machine.execResume port tag u scope name s
  | .haltAt port tag at' => Sys2Proof.Machine.execHaltAt port tag at' s
  | .stepTile port tag n name => Sys2Proof.Machine.execStepTile port tag n name s
  | .stepWafer port tag n => Sys2Proof.Machine.execStepWafer port tag n s
  | .readState port tag name space core off len buf => Sys2Proof.Machine.execReadState port tag name space core off len buf s
  | .powerCap port tag cap point marks => Sys2Proof.Machine.execPowerCap port tag cap point marks s
  | .powerDebugOpen port tag cert len => Sys2Proof.Machine.execPowerDebugOpen port tag cert len s
  | .powerDebugClose port tag => Sys2Proof.Machine.execPowerDebugClose port tag s
  | .powerRetentionEnter port tag name => Sys2Proof.Machine.execPowerRetentionEnter port tag name s
  | .powerRetentionExit port tag name => Sys2Proof.Machine.execPowerRetentionExit port tag name s
  | .attest port tag nonce buf => Sys2Proof.Machine.execAttest port tag nonce buf s
  | .scrub port tag => Sys2Proof.Machine.execScrub port tag s
  | .semaphoreAcquire port tag word semTag otmo => Sys2Proof.Machine.execSemaphoreAcquire port tag word semTag otmo s
  | .semaphoreRelease port tag word semTag => Sys2Proof.Machine.execSemaphoreRelease port tag word semTag s
  | .semaphoreRead port tag word semTag => Sys2Proof.Machine.execSemaphoreRead port tag word semTag s
  | .badOpcode port tag => Sys2Proof.Machine.execBadOpcode port tag s
  | .resultLanding => Sys2Proof.Machine.execResultLanding s
  | .deferredStart => Sys2Proof.Machine.execDeferredStart s
  | .staticBankAccess => Sys2Proof.Machine.execStaticBankAccess s
  | .asyncBankAccess => Sys2Proof.Machine.execAsyncBankAccess s
  | .leaseGrant => Sys2Proof.Machine.execLeaseGrant s
  | .leaseExpiry => Sys2Proof.Machine.execLeaseExpiry s
  | .gangRowArrival => Sys2Proof.Machine.execGangRowArrival s
  | .summaryCommandStart => Sys2Proof.Machine.execSummaryCommandStart s
  | .summaryCommandComplete => Sys2Proof.Machine.execSummaryCommandComplete s
  | .copyCommandStart => Sys2Proof.Machine.execCopyCommandStart s
  | .copyComplete => Sys2Proof.Machine.execCopyComplete s
  | .busLaneTest => Sys2Proof.Machine.execBusLaneTest s
  | .streamPiece => Sys2Proof.Machine.execStreamPiece s
  | .streamComplete => Sys2Proof.Machine.execStreamComplete s
  | .sendSourceRead => Sys2Proof.Machine.execSendSourceRead s
  | .leeExit => Sys2Proof.Machine.execLeeExit s
  | .fenceRelease => Sys2Proof.Machine.execFenceRelease s
  | .headFlitRoute => Sys2Proof.Machine.execHeadFlitRoute s
  | .pairingWindowExpiry => Sys2Proof.Machine.execPairingWindowExpiry s
  | .heldPacketFlush => Sys2Proof.Machine.execHeldPacketFlush s
  | .ringDeposit => Sys2Proof.Machine.execRingDeposit s
  | .reduceDeposit => Sys2Proof.Machine.execReduceDeposit s
  | .directWrite => Sys2Proof.Machine.execDirectWrite s
  | .contributionArrival => Sys2Proof.Machine.execContributionArrival s
  | .reduceTargetCombine => Sys2Proof.Machine.execReduceTargetCombine s
  | .cqEntryFire => Sys2Proof.Machine.execCqEntryFire s
  | .acknowledgementArrival => Sys2Proof.Machine.execAcknowledgementArrival s
  | .creditArrival => Sys2Proof.Machine.execCreditArrival s
  | .caravanAccept => Sys2Proof.Machine.execCaravanAccept s
  | .caravanDecode => Sys2Proof.Machine.execCaravanDecode s
  | .coderAckArrival => Sys2Proof.Machine.execCoderAckArrival s
  | .decCfgTakesEffect => Sys2Proof.Machine.execDecCfgTakesEffect s
  | .launchDelivery => Sys2Proof.Machine.execLaunchDelivery s
  | .triggerFire => Sys2Proof.Machine.execTriggerFire s
  | .taskDispatch => Sys2Proof.Machine.execTaskDispatch s
  | .coreIdle => Sys2Proof.Machine.execCoreIdle s
  | .nodeComplete => Sys2Proof.Machine.execNodeComplete s
  | .successorDecrement => Sys2Proof.Machine.execSuccessorDecrement s
  | .barrierRelease => Sys2Proof.Machine.execBarrierRelease s
  | .gangBarrierRelease => Sys2Proof.Machine.execGangBarrierRelease s
  | .deadlineFault => Sys2Proof.Machine.execDeadlineFault s
  | .trapEntry => Sys2Proof.Machine.execTrapEntry s
  | .preemptRequest => Sys2Proof.Machine.execPreemptRequest s
  | .preemptOverrun => Sys2Proof.Machine.execPreemptOverrun s
  | .contextSave => Sys2Proof.Machine.execContextSave s
  | .seal => Sys2Proof.Machine.execSeal s
  | .tileCheckpoint => Sys2Proof.Machine.execTileCheckpoint s
  | .strikeReport => Sys2Proof.Machine.execStrikeReport s
  | .replayEnd => Sys2Proof.Machine.execReplayEnd s
  | .undoFreezeEnd => Sys2Proof.Machine.execUndoFreezeEnd s
  | .correctedWriteback => Sys2Proof.Machine.execCorrectedWriteback s
  | .taskReplay => Sys2Proof.Machine.execTaskReplay s
  | .jobRestore => Sys2Proof.Machine.execJobRestore s
  | .migration => Sys2Proof.Machine.execMigration s
  | .overlayApply => Sys2Proof.Machine.execOverlayApply s
  | .retentionExit => Sys2Proof.Machine.execRetentionExit s
  | .balanceWindow => Sys2Proof.Machine.execBalanceWindow s
  | .freezeEnd => Sys2Proof.Machine.execFreezeEnd s
  | .powerWindow => Sys2Proof.Machine.execPowerWindow s
  | .electricalLimit => Sys2Proof.Machine.execElectricalLimit s
  | .markConsidered => Sys2Proof.Machine.execMarkConsidered s
  | .clockChange => Sys2Proof.Machine.execClockChange s
  | .energyUpdate => Sys2Proof.Machine.execEnergyUpdate s
  | .boot => Sys2Proof.Machine.execBoot s
  | .ownershipTimeout => Sys2Proof.Machine.execOwnershipTimeout s
  | .scrubEnd => Sys2Proof.Machine.execScrubEnd s
  | .domainHalt => Sys2Proof.Machine.execDomainHalt s
  | .domainResume => Sys2Proof.Machine.execDomainResume s
  | .stepEnd => Sys2Proof.Machine.execStepEnd s

end Sys2Proof.Machine
end

