-- ==== Sys2Proof/Machine/Issue.lean ====
section
/-! DEFINITION. The issue turn of a core: the bundle at its PC is fetched and decoded, stalls, takes its causes in order, or issues with the
slots that its header lets issue (R39 to R51, R54, R86, R87, R204, R207, R212, R213, R221, R237, R320, R326, R327, R337, R342, R401). -/

namespace Sys2Proof.Machine

/-! ### The instructions of a bundle -/

def isBrTree (i : Instr) : Bool := match i with | .brTree _ => true | _ => false
/-- A br.tree of the bundle at pc whose record is not at a multiple of 16 (R82). -/
def strayTree (pc : Nat) (i : Instr) : Bool :=
  match i with | .brTree off => (BitVec.ofNat 24 pc + 4#24 * off.signExtend 24).extractLsb' 0 4 != 0#4 | _ => false
def isSig (i : Instr) : Bool := match i with | .sig _ => true | _ => false
def isTreeHdr (h : Option Instr) : Bool := match h with | some (.hdrTree ..) => true | _ => false

/-- The slots of the bundle at pc in repetition j, each with its position; or the cause of the lowest slot that decodes to nothing
(R49, R82, R87, R323). A pair that a repetition steps onto the top register is illegal at that repetition (log 24). -/
def slotInstrs (pc : Nat) (h : Option Instr) (j : Nat) : List Slot → Except Info (List (Nat × Instr))
  | [] => .ok []
  | sl :: r =>
    let k := match h with | some (.hdrRep c s2 s3 s4) => stepSlot sl (stepCodeAt (.hdrRep c s2 s3 s4) sl.pos) j | _ => sl
    match decodeSlot k.word k.lent with
    | .illegalBundle => .error { cause := cBundle }
    | .illegalInstruction => .error { cause := cInstr, slot := sl.pos }
    | .ok i =>
      if isBrTree i && !isTreeHdr h || strayTree pc i then .error { cause := cInstr, slot := sl.pos }
      else match slotInstrs pc h j r with
        | .error e => .error e
        | .ok l => .ok ((sl.pos, i) :: l)

/-- What is due at a core's PC: the words, the header, the slots. Fetch faults come first, then legality, then the opcodes (R54). A repeat
bundle with repetitions left is read under the header that the core holds (R345, R348). -/
def Tile.dueBundle (x : Tile) (c : Nat) : Except Info (List Word × Option Instr × List (Nat × Instr)) :=
  let y := x.core c
  match x.fetchBundle y.inMon y.pc 4 with
  | .error e => .error (fetchInfo 0 e)
  | .ok ws =>
    let ws := if y.repRem = 0 then ws else y.repHdr :: ws.tail
    match decodeBundle ws with
    | none => .error { cause := cBundle }
    | some b =>
      let j := match b.hdr with | some (.hdrRep cnt _ _ _) => cnt.toNat + 1 - y.repRem | _ => 0
      match slotInstrs y.pc b.hdr j b.slots with
      | .error e => .error e
      | .ok l => .ok (ws, b.hdr, l)

/-- A tree leaf squashes the slot at a position (R46). -/
def State.squashed (s : State) (h : Option Instr) (pos : Nat) : Bool :=
  match s.leaf with | some l => !(leafSet (leafCodeAt h pos)).contains l | none => false

/-- The slots issue one after the other; a raised cause ends the bundle. -/
def runSlots (h : Option Instr) : List (Nat × Instr) → State → Host.Outcome State Fault Refusal
  | [], s => .next s
  | (p, i) :: r, s =>
    if s.squashed h p then runSlots h r s
    else match exec i { s with slot := p } with
      | .next s' => if s'.raised.isSome then .next s' else runSlots h r s'
      | o => o

/-! ### Stalls (R212, R264, R334) -/

/-- The instruction stalls its bundle. -/
def State.stalls (s : State) (i : Instr) : Bool :=
  match i with
  | .wait k n => decide ((s.core.token k.toNat).arr < n.toNat)
  | .barWait b => (s.here.barrier s.curC b.toNat).getLsbD 31 && s.core.bar b.toNat != 2
  | i => s.here.sendWaits s.curC i

/-- What a stalled bundle does: a bar.wait arrives. -/
def State.stallTurn (s : State) : List (Nat × Instr) → State
  | [] => s
  | (_, .barWait b) :: r => (if s.core.bar b.toNat = 0 then s.upCore fun c => c.setBar b.toNat 1 else s).stallTurn r
  | _ :: r => s.stallTurn r

/-! ### Before and after the slots -/

/-- The running CRC takes in the bundle's words, all but that of an unsquashed sig (R401). -/
def Core.crcIn (c : Core) (ws : List Word) : BitVec 16 := ws.foldl crcWord (if c.pc = c.lastEnd then c.crc else 0xFFFF#16)

/-- The core as its bundle begins to issue; `ws` are the words its CRC takes in. -/
def Core.begin (c : Core) (a : Nat) (first : Bool) (ws : List Word) : Core :=
  let c := { c with gap := 1, jumped := false, npc := a }
  if c.inMon then c else { c with preBoundary := false, crc := if first then c.crcIn ws else c.crc }

/-- After the slots: the next repetition, or the next bundle, where a loop's iteration may end (R49, R207, R320, R327). -/
def Core.advance (c : Core) (a clock : Nat) : Core :=
  let c := { c with seq := c.seq + 1 }
  if 1 < c.repRem then { c with repRem := c.repRem - 1, due := clock + 1 }
  else
    let b := c.preBoundary
    let c := { c with repRem := 0, repHdr := 0#32 }
    let c := if c.jumped then c else c.iterEnd a 6
    let c := { c with pc := c.npc, due := clock + c.gap }
    if c.inMon then { c with preBoundary := b } else { c with lastEnd := a }

/-- The task ends where its exit issued (R316). -/
def State.applyExit (s : State) : State :=
  let isExit (p : Pend) : Bool := p.effs == [.exit]
  match s.core.pend.find? isExit with
  | some p => (s.upCore fun c => { c with pend := c.pend.filter fun p => !isExit p }).landEff s.curT s.curC p .exit
  | none => s

/-- More entries than the pending-write record or the queues can hold (R221, R237, R338). To the monitor's own entries those that the trap has
captured are added. -/
def State.overfull (s : State) : Bool :=
  let c := s.core
  if c.inMon then decide (24 < s.here.npw s.curC c.tsk + s.here.npwMon s.curC (s.tcyc s.curT + 1)) || decide (4 < c.mon.ldq.length) || decide (4 < c.mon.sdq.length)
  else decide (24 < s.here.npw s.curC (c.tsk + 1)) || decide (32 < c.task.ldq.length) || decide (16 < c.task.sdq.length)

/-- The position of the first slot after which the core holds too much. -/
def overAt (h : Option Instr) : List (Nat × Instr) → State → Nat
  | [], _ => 0
  | (p, i) :: r, s =>
    if s.squashed h p then overAt h r s
    else match exec i { s with slot := p } with
      | .next s' => if s'.overfull then p else overAt h r s'
      | _ => p

/-- Words of the bundle extend past the end of the innermost loop (R327). Offsets from the body's start are taken modulo 2^24. -/
def Core.pastLoop (c : Core) (n : Nat) : Option Info :=
  match c.inner with
  | some l =>
    let off := (c.pc + 2 ^ 24 - l.start) % 2 ^ 24
    if off < 2 ^ 23 ∧ (l.stop + 2 ^ 24 - l.start) % 2 ^ 24 < off + 4 * n then
      some { cause := cLoop, i0 := BitVec.ofNat 32 l.pc, i1 := BitVec.ofNat 32 c.loops.length } else none
  | none => none

/-- The bundle of a task or the monitor that issues, or the cause it raises; `pre` is the state before it. -/
def State.issueSlots (pre : State) (ws : List Word) (h : Option Instr) (l : List (Nat × Instr)) (hd : State) : Host.Outcome State Fault Refusal :=
  let c := pre.core
  let a := hd.bundleEnd
  let first := match h with | some (.hdrRep cnt _ _ _) => decide (c.repRem = cnt.toNat + 1) | _ => true
  let skip := (l.filter fun e => isSig e.2 && !hd.squashed h e.1).map (·.1)
  let kept := (((upto 1 ws.length).zip ws).filter fun e => !skip.contains e.1).map (·.2)
  let s0 := hd.upCore fun c => c.begin a first kept
  match runSlots h l s0 with
  | .next s =>
    match s.raised with
    | some i => .next (pre.raise i)
    | none =>
      if s.overfull then .next (pre.raise { cause := cSched, slot := overAt h l s0 })
      else match (if c.inMon then none else pre.here.asyncCause pre.curC false) with
        | some i => .next (pre.takeAsync pre.curT pre.curC i)
        | none => .next (((s.upCore fun c => c.advance a pre.clock).applyExit))
  | o => o

/-- The header's turn, the record of a br.tree, and then the stall or the slots. -/
def State.issueBundle (pre : State) (ws : List Word) (h : Option Instr) (l : List (Nat × Instr)) : Host.Outcome State Fault Refusal :=
  let s := { pre with words := ws, before := some pre.here }
  let rec' := l.find? fun e => isBrTree e.2
  let bad : Option Info := match rec' with
    | some (p, .brTree off) => (match treeTarget s.here s.core.inMon p (s.target off) 0 with | .error i => some i | .ok _ => none)
    | _ => none
  match bad with
  | some i => .next (pre.raise i)
  | none => match pre.core.pastLoop ws.length with
    | some i => .next (pre.raise i)
    | none => match runSlots none (h.toList.map fun i => (1, i)) s with
      | .next hd =>
        match hd.raised with
        | some i => .next (pre.raise i)
        | none =>
          let on := l.filter fun e => !hd.squashed h e.1
          if on.any fun e => pre.stalls e.2 then
            let w := pre.stallTurn on
            .next (match (if w.core.inMon then none else w.here.asyncCause w.curC true) with | some i => w.takeAsync w.curT w.curC i | none => w)
          else pre.issueSlots ws h l hd
      | o => o

/-- The bundle is due. -/
def State.issueDue (s : State) : Host.Outcome State Fault Refusal :=
  match s.here.dueBundle s.curC with
  | .error i => .next (s.raise i)
  | .ok (ws, h, l) => s.issueBundle ws h l

/-- The core issues in this cycle: a task, or the monitor where its program is in the code store. -/
def State.issues (s : State) : Bool := s.core.mode == .task || (s.core.mode == .monitor && s.here.monRom)

/-- The issue turn of core curC of tile curT. Before its bundle is due only an asynchronous cause can land (R207). -/
def State.issueTurn (s : State) : Host.Outcome State Fault Refusal :=
  let s := { s with slot := 1, leaf := none, words := [], before := none, raised := none }
  if !s.issues then .next s
  else if s.clock < s.core.due then
    .next (match (if s.core.inMon then none else s.here.asyncCause s.curC false) with | some i => s.takeAsync s.curT s.curC i | none => s)
  else
    let r := s.core.testLoop 7
    let s := s.upCore fun _ => r.1
    let s := s.upHere fun x => x.prime s.curC
    match r.2 with
    | some i => .next (s.raise i)
    | none => s.issueDue

end Sys2Proof.Machine
end

