-- ==== Sys2Proof/Machine/Agenda.lean ====
section
/-! DEFINITION. What acts in each global cycle and in which order: the cycle's own count, the hosts' writes and commands (R379 to R382, R374),
the events of the wafer, those of each tile that is not frozen, and the issue turns (R3, R59, R98, R200, R201, R206, R230 to R232, R265,
R306, R342, R393, R394). -/

namespace Sys2Proof.Machine

/-! ### Host ports (R374, R379 to R381) -/

/-- The writable registers of a port's window, as one number of 32 bytes (R379). -/
def Port.window (p : Port) : Nat :=
  p.sqb.toNat + 2 ^ 64 * p.sqn + 2 ^ 96 * p.sqt + 2 ^ 128 * p.cqb.toNat + 2 ^ 192 * p.cqn + 2 ^ 224 * p.cqh
def Port.setWindow (p : Port) (n : Nat) : Port :=
  { p with sqb := BitVec.ofNat 64 (n / 2 ^ 6 * 2 ^ 6), sqn := n / 2 ^ 64 % 2 ^ 16, sqt := n / 2 ^ 96 % 2 ^ 16
           cqb := BitVec.ofNat 64 (n / 2 ^ 132 * 2 ^ 4), cqn := n / 2 ^ 192 % 2 ^ 16, cqh := n / 2 ^ 224 % 2 ^ 16 }
/-- PST (R379): port enabled, owner, submission head. -/
def State.pst (s : State) (b : Bool) : Word :=
  BitVec.ofNat 32 (bitAt (s.port b).enabled 31 + bitAt (s.owns b) 30 + (s.port b).head % 65536)
/-- What a host reads of the window at offset o: its writable registers, then PST. -/
def State.windowByte (s : State) (b : Bool) (o : Nat) : Byte :=
  BitVec.ofNat 8 (((s.port b).window + (s.pst b).toNat * 2 ^ 256) / 2 ^ (8 * o) % 256)
/-- Byte k of a number is replaced. -/
def putByte (n k : Nat) (b : Byte) : Nat := n - n / 2 ^ (8 * k) % 256 * 2 ^ (8 * k) + b.toNat * 2 ^ (8 * k)
/-- A host's write takes effect. Bytes past offset 0x1F of the window are read-only. -/
def Port.hostWrites (p : Port) (w : HostWrite) : Port :=
  if w.window then
    p.setWindow (((upto w.addr w.bytes.length).zip w.bytes).foldl (fun n e => if e.1 < 32 then putByte n e.1 e.2 else n) p.window)
  else { p with mem := putList p.mem w.addr w.bytes }

/-- The hosts' writes of this global cycle. A doorbell of the owner ends its idle time. -/
def State.hostWrites (s : State) : State :=
  (s.hostIn.filter fun w => decide (w.at' ≤ s.glob)).foldl (fun s w =>
    let p := s.port w.port
    let q := p.hostWrites w
    let s := s.setPort w.port q
    if p.sqt ≠ q.sqt ∧ s.owns w.port then { s with idleSince := s.glob } else s)
    { s with hostIn := s.hostIn.filter fun w => decide (s.glob < w.at') }

/-- A submitted entry has not been fetched. -/
def Port.submitted (p : Port) : Bool := p.enabled && p.sqn != 0 && p.head % p.sqn != p.sqt % p.sqn
/-- The entry at the submission head. -/
def Port.entry (p : Port) : BitVec 512 := BitVec.ofNat 512 (sgetBytes p.mem (p.sqb.toNat + 64 * p.head) 64)
def Port.fetched (p : Port) : Port := { p with head := (p.head + 1) % p.sqn }

/-- The semaphore word that a command acts on. -/
def semWord (i : Instr) : Option Nat :=
  match i with
  | .semaphoreAcquire _ _ w _ _ => some w.toNat
  | .semaphoreRelease _ _ w _ => some w.toNat
  | .semaphoreRead _ _ w _ => some w.toNat
  | _ => none
/-- BOOT_FAIL answers only these (R386). -/
def isQuery (i : Instr) : Bool :=
  match i with
  | .queryModuleState .. => true | .queryMirage .. => true | .queryTileReport .. => true | .queryEnergy .. => true
  | .queryDebugChallenge .. => true | .queryRouterCounters .. => true | .queryOpticalPorts .. => true
  | _ => false
/-- The TAG of an entry. -/
def entryTag (e : BitVec 512) : Word := entryField e 4 4

/-- The next entry of a port becomes a command: its number and itself. -/
def State.takeEntry (s : State) (b : Bool) : State × List (Nat × Instr) :=
  let p := s.port b
  let i := decodeCommand b p.entry
  let s' := s.setPort b p.fetched
  if s.boot = .bootFail && !isQuery i then (s', []) else (s'.openJob b (entryTag p.entry) i, [(p.jobSeq, i)])

/-- SEMAPHORE commands that follow one another start in one cycle. -/
def State.takeSems (s : State) (b : Bool) : Nat → State × List (Nat × Instr)
  | 0 => (s, [])
  | k + 1 =>
    let p := s.port b
    if p.submitted && (semWord (decodeCommand b p.entry)).isSome then
      let r := s.takeEntry b
      let t := r.1.takeSems b k
      (t.1, r.2 ++ t.2)
    else (s, [])

/-- The commands that a port starts in this cycle. Behind a command that has not ended, the cycle of a start is free. -/
def State.fetchCommands (s : State) (b : Bool) : State × List (Nat × Instr) :=
  let p := s.port b
  if !p.submitted then (s, [])
  else if !p.jobs.isEmpty && Config.delay s.free % 2 = 0 then (s.draw, [])
  else
    let s := if p.jobs.isEmpty then s else s.draw
    let r := s.takeEntry b
    if (r.2.head?.bind fun e => semWord e.2).isSome then
      let t := r.1.takeSems b 16
      (t.1, r.2 ++ t.2)
    else r

/-- The turns of the commands that start, with the state of the ties: words on which both ports act are taken in ascending order, each as a
tie of its own, and the first port alternates (R374). -/
def tieTurns (flip : Bool) (a b : List (Nat × Instr)) : Bool × List Turn :=
  let on (w : Nat) (l : List (Nat × Instr)) : List (Nat × Instr) := l.filter fun e => semWord e.2 == some w
  let tied := (upto 0 16).filter fun w => !(on w a).isEmpty && !(on w b).isEmpty
  let free (l : List (Nat × Instr)) : List (Nat × Instr) := l.filter fun e => !(tied.any fun w => semWord e.2 == some w)
  let r := tied.foldl (fun (r : Bool × List (Nat × Instr)) w => (!r.1, r.2 ++ if r.1 then on w b ++ on w a else on w a ++ on w b)) (flip, [])
  (r.1, (r.2 ++ free a ++ free b).map fun e => .event 0 0 (e.1 + 1) e.2)

/-- The turns of commands that started before. -/
def Port.jobTurns (p : Port) : List Turn := (p.jobs.filter fun j => j.fin.isNone).map fun j => .event 0 0 (j.n + 1) j.i

/-- The hosts' part of a global cycle. -/
def State.hostTurns (s : State) : State × List Turn :=
  let s := s.hostWrites
  let s := { s with portA := s.portA.flush, portB := s.portB.flush }
  let going := s.portA.jobTurns ++ s.portB.jobTurns
  let a := s.fetchCommands false
  let b := a.1.fetchCommands true
  let t := tieTurns b.1.semTie a.2 b.2
  ({ b.1 with semTie := t.1 }, going ++ t.2 ++ [.event 0 0 0 .ownershipTimeout, .event 0 0 0 .scrubEnd])

/-! ### The events of the wafer -/

/-- The events at the start of a global cycle, in which a tile's state may change as a whole. -/
def State.waferTurns (s : State) : List Turn :=
  let e (i : Instr) : Turn := .event 0 0 0 i
  [e .replayEnd, e .gangBarrierRelease, e .freezeEnd, e .undoFreezeEnd, e .overlayApply, e .migration]
  ++ (match s.restoreAt with | some r => if r.1 ≤ s.gcyc then [.event 6912 0 0 .jobRestore] else [] | none => [])
  ++ (if s.gcyc % 32 = 0 || s.balAt.any (fun b => decide (b.2 ≤ s.gcyc)) then [e .balanceWindow] else [])
  ++ (if s.winAt ≤ s.gcyc then [e .powerWindow] else [])
  ++ [e .clockChange]
  ++ (if s.gcyc % 4096 = 0 then [e .energyUpdate] else [])

/-- Tiles with state of their own, and those to which a head is on its way, in ascending order. -/
def State.busyTiles (s : State) : List Nat :=
  s.flights.foldl (fun l f => if l.contains f.tile then l else insertBy (fun a b => decide (a < b)) f.tile l) (s.tiles.map Prod.fst)

/-! ### The events of a tile in one tile cycle, in four parts -/

/-- One event on tile t, and one on each of its cores. -/
def onTile (t : Nat) (i : Instr) : Turn := .own t 0 0 i
def onCores (t : Nat) (i : Instr) : List Turn := (upto 0 4).map fun c => .own t c 0 i

/-- Accesses, completions, landings. -/
def landTurns (t : Nat) : List Turn :=
  [onTile t .tileCheckpoint, onTile t .staticBankAccess, onTile t .gangRowArrival] ++ onCores t .summaryCommandComplete
  ++ [onTile t .copyComplete, onTile t .busLaneTest] ++ onCores t .resultLanding

/-- What leaves the lee buffer, with the posts of sends; the lease and the walker; what these start takes part in this cycle. -/
def walkTurns (t : Nat) (retained : Bool) : List Turn :=
  [onTile t .fenceRelease, onTile t .leeExit, onTile t .leaseExpiry, onTile t .leaseGrant, onTile t .launchDelivery] ++ onCores t .coreIdle
  ++ [onTile t .taskReplay, onTile t .nodeComplete, onTile t .successorDecrement, onTile t .triggerFire, onTile t .barrierRelease]
  ++ [onTile t .taskDispatch] ++ (if retained then [.own t 0 1 .retentionExit] else []) ++ [.own t 0 1 .contextSave, onTile t .deferredStart, onTile t .cqEntryFire]

/-- Routers forward in frozen tiles too (R28). What the coder lets go is served with the heads (R259). -/
def routeTurns (t : Nat) : List Turn :=
  [.event t 0 1 .headFlitRoute, .event t 0 0 .coderAckArrival, .event t 0 0 .pairingWindowExpiry, .event t 0 0 .headFlitRoute]

/-- Trap points and issue, core by core (R98, R206). -/
def coreTurns (t c : Nat) : List Turn :=
  [.own t c 0 .preemptOverrun, .own t c 0 .trapEntry, .own t c 0 .deadlineFault, .issue t c]

/-- The cores in the order of their turns; a core whose lease may end by time in this cycle comes first, and the lease is granted after it (R139,
log 100). -/
def State.tileCores (s : State) (t : Nat) : List Turn :=
  let x := s.tile t
  match x.leaseCore.filter fun c => (x.core c).lcyc == 4096 with
  | some c => coreTurns t c ++ [.own t 0 1 .leaseGrant] ++ (((upto 0 4).filter (· != c)).map (coreTurns t)).flatten
  | none => ((upto 0 4).map (coreTurns t)).flatten

/-- What uses the banks that no static requester used, and what arrives (R231, R265). -/
def engineTurns (t : Nat) (retained : Bool) : List Turn :=
  onCores t .summaryCommandStart
  ++ [onTile t .copyCommandStart, onTile t .asyncBankAccess, .own t 0 1 .copyComplete, onTile t .correctedWriteback, onTile t .streamPiece, onTile t .streamComplete
      , onTile t .contextSave, onTile t .seal, onTile t .decCfgTakesEffect]
  ++ (if retained then [.own t 0 1 .retentionExit] else [])
  ++ [onTile t .creditArrival, onTile t .acknowledgementArrival, onTile t .caravanAccept, onTile t .caravanDecode, onTile t .ringDeposit
      , onTile t .reduceDeposit, onTile t .directWrite, onTile t .contributionArrival, onTile t .reduceTargetCombine, onTile t .sendSourceRead
      , .own t 0 1 .tileCheckpoint, onTile t .stepEnd]

/-! ### A global cycle -/

/-- A tile's next tile cycle begins: its tasks count it. A replay applies its journal (R410); otherwise the clock's record is kept (R406). -/
def Tile.tick (x : Tile) (gc halt e : Nat) : Tile :=
  let x : Tile := { x with cores := x.cores.map fun c => (c.1, if c.2.mode == .task || c.2.mode == .draining then { c.2 with tsk := c.2.tsk + 1 } else c.2) }
  let k := gc - x.lag
  if x.replayTo.isSome then x.redoAt k
  else if (x.clock.getLast?.map Prod.snd).getD (0, 0, 0) = (x.lag, halt, e) then x
  else { x with clock := x.clock ++ [(k, x.lag, halt, e)] }
/-- The tags of a packet: a caravan carries two (R286, R371). -/
def Packet.tags (p : Packet) : List Nat := p.tag :: (match p.car with | some c => [c.tag2] | none => [])
/-- A core works, or an engine that it commands (R371). -/
def Tile.works (x : Tile) (c : Nat) : Bool :=
  let y := x.core c
  y.mode != .idle || !y.sumQ.isEmpty || x.paths.any (fun p => p.core == c) || x.copyQ.any (fun q => q.core == c) || x.streams.any (fun j => j.core == c)
    || x.sends.any fun j => j.core == c
/-- The packets that a tile and its router hold. -/
def Tile.packets (x : Tile) : List Packet :=
  x.arrq ++ x.lee.map LeeE.p ++ x.hold.map HoldE.p ++ (x.store.flatMap fun e => e.h1.toList ++ e.h2.toList) ++ x.decQ ++ (x.decCur.map DecCur.p).toList
/-- The tags for which a tile or its router has something to do. -/
def Tile.tags (x : Tile) : List Nat := ((upto 0 4).filter x.works).map (fun c => x.stage * 4 + c) ++ x.packets.flatMap Packet.tags
/-- What works in this cycle is billed at the next update. -/
def State.noteWork (s : State) : State :=
  { s with worked := ((s.tiles.flatMap fun e => e.2.tags) ++ s.flights.flatMap fun f => f.p.tags).foldl (fun l k => if l.contains k then l else l ++ [k]) s.worked }
/-- The domain's next cycle begins: frozen tiles fall behind; the others begin a tile cycle (R3, R98, R200). -/
def State.countCycle (s : State) : State :=
  let s := { s with gcyc := s.gcyc + 1 }
  { s with tiles := s.tiles.map fun e => (e.1, if s.stands e.1 then { e.2 with lag := e.2.lag + 1 } else e.2.tick s.gcyc s.haltSum s.restores) }

/-- The turns of a cycle in which the domain runs, after `first`. -/
def State.runCycle (s : State) (first : List Turn) : State :=
  let s := s.countCycle.noteWork
  let due := (s.inputs.filter fun e => decide (e.1 ≤ s.gcyc)).map Prod.snd
  let h := ({ s with inputs := s.inputs.filter fun e => decide (s.gcyc < e.1) } : State).hostTurns
  let s := h.1
  let l := s.busyTiles
  let go := l.filter fun t => !s.stands t
  let kept (t : Nat) : Bool := (s.tile t).ps == .retention
  let parity := (l.filter fun t => !(s.tile t).parity.isEmpty).map fun t => Turn.event t 0 66 .strikeReport
  { s with agenda := first ++ due ++ parity ++ h.2 ++ s.waferTurns ++ (l.map fun t => .event t 0 0 .heldPacketFlush)
      ++ (go.map landTurns).flatten ++ (go.map fun t => walkTurns t (kept t)).flatten ++ (l.map routeTurns).flatten
      ++ (go.map s.tileCores).flatten ++ (go.map fun t => engineTurns t (kept t)).flatten ++ [.event 0 0 0 .markConsidered] }

/-- A cycle in which the domain stands halted: only the hosts act (R394). -/
def State.haltCycle (s : State) (first : List Turn) : State :=
  let h := ({ s with haltSum := s.haltSum + 1 } : State).hostTurns
  { h.1 with agenda := first ++ h.2 }

/-- A cycle of the halt or the restart is due. -/
def dueAt (s : State) (o : Option Nat) : Bool := match o with | some g => decide (g ≤ s.glob + 1) | none => false

/-- The next global cycle (R393, R394). A halt counts one more than the cycles it still has to step. -/
def State.nextCycle (s : State) : State :=
  let stop : List Turn := if dueAt s s.haltAt || (s.portA.jobs ++ s.portB.jobs).any s.ckptStops then [.event 0 0 0 .domainHalt] else []
  let start : List Turn := if dueAt s s.resumeAt then [.event 0 0 0 .domainResume] else []
  if s.halted then
    if 2 ≤ s.haltLeft && stop.isEmpty then { s with haltLeft := s.haltLeft - 1 }.runCycle []
    else
      let s := { s with haltLeft := 0 }
      if !start.isEmpty && stop.isEmpty then s.runCycle start else s.haltCycle (start ++ stop)
  else if !stop.isEmpty then s.haltCycle stop
  else s.runCycle []

/-- One turn: the head of the agenda acts, or the next global cycle begins. -/
def State.turn (s : State) : Host.Outcome State Fault Refusal :=
  match s.agenda with
  | [] => .next s.nextCycle
  | .event t c a i :: r => exec i { s with agenda := r, curT := t, curC := c, curArg := a }
  | .own t c a i :: r => ({ s with agenda := r, curT := t, curC := c, curArg := a } : State).asTile t (exec i)
  | .issue t c :: r => ({ s with agenda := r, curT := t, curC := c, curArg := 0 } : State).asTile t State.issueTurn

/-! ### An instruction placed for the next turn -/

/-- The words that make a bundle of a 32-bit word: a header is followed by slots that it admits; a br.tree stands under a tree header that
selects leaf 4 (R39, R43 to R50). -/
def bundleOf (w : Word) : List Word :=
  let stop : Word := 0x8000_0000#32
  let addS : Word := 0x0000_0000#32
  let tree : Word := 0x3040_0000#32
  if w.getLsbD 30 then
    match decodeHeader w with
    | some (.hdrLend ..) => [w, 0x0400_0000#32, 0x0580_0000#32, 0x0A00_0000#32 ||| stop]
    | some (.hdrTree _ _ _ _ _ _ _ _ s2 s3 s4) =>
      if s4 != 0#4 then [w, addS, tree, 0x3940_0000#32 ||| stop]
      else if s3 != 0#4 then [w, addS, addS, tree ||| stop]
      else if s2 != 0#4 then [w, addS, tree ||| stop] else [w, tree ||| stop]
    | _ => [w, addS, addS, 0x1000_0000#32 ||| stop]
  else if majOf w = 2 ∧ kindOf w = 6 then [0x5000_0000#32, w ||| stop]
  else [w ||| stop]

/-- The words at a code address of page 0, where the record of a br.tree would be aligned (R323). -/
def placedAt (w : Word) : Nat := if kindOf w = 6 ∧ majOf w = 2 then (16 - w.toNat % 4 * 4) % 16 else 0

/-- Core 0 of tile 0 runs a task whose due bundle holds the word, on a mapped page; the page of a br.tree's record is mapped beside it. The
rest of the tile is as it was. -/
def State.placed (s : State) (w : Word) : State :=
  let pc := placedAt w
  let rec' := (BitVec.ofNat 24 pc + 4#24 * (w.extractLsb' 0 21).signExtend 24).toNat / 4096
  let l := bundleOf w
  let s := s.upT 0 fun x =>
    let x := { x with
      cmap := sset 0#32 (if rec' = 0 then x.cmap else sset 0#32 x.cmap 1 (BitVec.ofNat 32 (2 ^ 31 + rec' * 4096))) 0 0x8000_0000#32
      code := putList (sfill 0#8 x.code 0 32 0#8) pc (bytesOfWords l) }
    x.upC 0 fun c => { c with mode := .task, pc := pc, npc := pc, due := 0, repRem := 0, loopTest := false }
  { s with agenda := [.issue 0 0], boot := .normal }

end Sys2Proof.Machine
end

