-- ==== Sys2Proof/Machine/Step.lean ====
section
/-! DEFINITION. One step of the module: the head of the agenda acts, or the next global cycle begins. -/

namespace Sys2Proof.Machine

/-- The step. -/
def step (s : State) : Host.Outcome State Fault Refusal := s.turn

/-- The 32-bit instruction w where core 0 of tile 0 issues next (log 50). What the opcode table gives no bits has no fetch. -/
def State.withFetchWord (s : State) (nbits w : Nat) : State := if nbits = 32 then s.placed (BitVec.ofNat 32 w) else s

end Sys2Proof.Machine
end

