-- ==== Sys2Proof/Safety.lean ====
section
/-! DEFINITION. What the claims call a safe run: every memory in its canonical form, no task killed, the job not aborted, no step that stops. -/

namespace Sys2Proof.Machine

/-- A tile's tile memory, dune store and code store are in the canonical form. -/
def Tile.memWf (x : Tile) : Bool := Memory.wf x.tm && Memory.wf x.ds && Memory.wf x.code

/-- The second tier, both host memories and each tile's memories are, and those that a sealed job checkpoint keeps (logs 2, 110). -/
def State.memWf (s : State) : Bool :=
  Memory.wf s.t2 && Memory.wf s.portA.mem && Memory.wf s.portB.mem && (s.tiles.all fun e => e.2.memWf)
    && s.ckpts.all fun k => k.tiles.all fun e => e.2.memWf

/-- No core holds a killed task, and the job is not aborted (R346, R427). -/
def State.unharmed (s : State) : Bool := !s.aborted && s.tiles.all fun e => e.2.cores.all fun c => c.2.killed.isNone

/-- A safe state. -/
def State.safe (s : State) : Bool := s.memWf && s.unharmed

/-- A run of k steps from s is safe: each state is, and no step stops. -/
def safeFor : Nat → State → Prop
  | 0, s => s.safe = true
  | k + 1, s => s.safe = true ∧ match step s with | .next t => safeFor k t | .fault _ => False | .refused _ => False

/-! ### Words of the claims -/

/-- An access of n bytes at ea is in order (R228, R398): aligned, within its space, its address not poisoned. -/
def Access (a : PWord) (ea n align space : Nat) : Prop := ea % align = 0 ∧ ea + n ≤ space ∧ a.poi = false

/-- In strict token mode the bytes meet no tracked destination (R227); an empty range meets none. -/
def State.ClearOf (s : State) (space lo n : Nat) : Prop :=
  s.core.strict = true → ∀ r ∈ s.core.ranges, r.space = space → 0 < n → 0 < r.len → lo < r.lo + r.len → r.lo < lo + n → False

/-- The head of a queue has landed and is of the kind asked for (R237). -/
def Ready (q : List QEntry) (vec : Bool) (e : QEntry) (rest : List QEntry) : Prop := q = e :: rest ∧ e.landed = true ∧ e.vec = vec

/-- A start offset names clock cycle c: its task cycle has not passed (R84, R206). For the monitor it is a cycle of the clock that is the
model's choice (log 129). -/
def State.StartsAt (s : State) (st : BitVec 9) (c : Nat) : Prop :=
  if st = 0#9 then c = s.clock else s.core.tsk ≤ 16 * st.toNat ∧ c = s.clock + (16 * st.toNat - s.core.tsk)

/-- A command that posts k may issue (R210), and in strict mode a record is free (R226). -/
def State.TokenFree (s : State) (k : BitVec 5) : Prop := (s.core.token k.toNat).infl < 0xFFFF
def State.RecordFree (s : State) : Prop := s.core.strict = true → s.core.ranges.length < 16

/-- The command is in flight on k; in strict mode its destination is tracked until k has counted it (R210, R226). -/
def State.posting (s : State) (k : BitVec 5) : State := s.upCore fun c => c.inflight k.toNat
def State.tracking (s : State) (space lo n : Nat) (k : BitVec 5) (num : Nat := 0) : State :=
  if s.core.strict then
    let t := s.core.token k.toNat
    s.upCore fun c => { c with ranges := c.ranges ++ [⟨space, lo, n, k.toNat, t.arr + t.infl, num⟩] }
  else s

/-- What a start offset holds until clock cycle c is an entry of the pending-write record until then, on the timeline of the task; e lands d cycles
after the start (R206, R221). -/
def State.holding (s : State) (c d : Nat) (e : Eff) : State := s.upCore fun y =>
  let o := y.tsk + (c - s.clock)
  { y with pend := y.pend ++ [{ at' := o + d, id := y.seq, slot := s.slot, pc := y.pc, issue := s.tcyc s.curT, counts := true, last := o, effs := [e] }] }

/-- Node j of level l of the reduction tree of R130, over what `leaf` gives for each lane. -/
def redNode (op : Nat → Nat → Nat × BitVec 11) (leaf : Nat → Option (Nat × BitVec 11)) : Nat → Nat → Option (Nat × BitVec 11)
  | 0, j => leaf j
  | l + 1, j =>
    match redNode op leaf l (2 * j), redNode op leaf l (2 * j + 1) with
    | none, y => y
    | x, none => x
    | some p, some q => let r := op p.1 q.1; some (r.1, r.2 ||| p.2 ||| q.2)

/-- Command i starts on its port in this turn, and nothing stands against it (R383). -/
def State.Starts (s : State) (port : Bool) (i : Instr) (n : Need) : Prop :=
  (s.boot = .bootFail → n.query = true) ∧ s.curArg = 0 ∧ i.wf = true ∧ (n.owner = true → s.owner = some port ∧ s.scrubEnd = none)
    ∧ (n.map = true → s.boot ≠ .defectLimit) ∧ (∀ k, n.perm = some k → s.dbgAuth = true ∧ s.dbgMask.getLsbD k = true)
    ∧ (∀ b ∈ n.bufs, b.2 ≠ 0 → (s.port port).enabled = true ∧ b.1 + b.2 ≤ 2 ^ 52) ∧ ∀ w, n.name = some w → s.named w ≠ none

/-- The entry that command i has in the list of its port, started (R381). -/
def State.entryOf (s : State) (port : Bool) (tag : Word) (i : Instr) : HostJob := { n := (s.port port).jobSeq, tag := tag, i := i, started := true }
/-- It ends with a status and a result, after what it did to the state. -/
def State.ends (s : State) (port : Bool) (tag : Word) (i : Instr) (r : State × Nat × Nat) : State :=
  r.1.putJob port { s.entryOf port tag i with fin := some (r.2.1, r.2.2) }

/-- It ends with a status that refuses it, and without effect. -/
def State.refuses (s : State) (port : Bool) (tag : Word) (i : Instr) (status : Nat) : State :=
  (s.openJob port tag i).putJob port { s.entryOf port tag i with started := false, fin := some (status, 0) }

/-- Instruction or event i takes the machine to a next state of which P holds. -/
def State.Does (s : State) (i : Instr) (P : State → Prop) : Prop := ∃ t, exec i s = .next t ∧ P t

end Sys2Proof.Machine
end

