-- ==== Sys2Proof/Certificates/Slice0/Obligations.lean ====
section
/-! DEFINITION. The statements for the provers. Each names the rules of the spec that it formalises. -/

open Sys2Proof Sys2Proof.Machine

/-- R57, R227, R235 to R237: what a scalar source reads. Outside the queue name it is the register, of which s0 reads zero and unpoisoned;
under QS the name s63 takes the head of the LDQ, if it has landed and is a scalar entry, and is a queue fault otherwise. In strict token mode
a read of a tracked scalar is an under-wait fault; the monitor's scalars are tracked apart from the task's. Of two scalar sources the queue
faults come before the under-waits (R342).

R57, R235 to R237: a vector source is the register, or under the queue name v127 the landed vector entry at the head of the LDQ, which it
takes; anything else there is a queue fault. A vector that is read and written cannot be a queue. -/
def Obligations.SourceOperands : Prop := (
  ∀ (n : BitVec 6) (s : State),
  (s.core.sAlias n = false → s.core.strict = false → readS n s = .ok (s.core.bank.sreg n.toNat, s))
  ∧ (s.core.sAlias n = false → s.core.strict = true →
      readS n s = if s.core.ranges.any (fun r => r.space == (if s.core.inMon then 3 else 2) && r.lo == n.toNat) then .error { cause := 0x0E, slot := s.slot }
        else .ok (s.core.bank.sreg n.toNat, s))
  ∧ s.core.bank.sreg 0 = ⟨0#32, false⟩
  ∧ (∀ e r, s.core.sAlias n = true → s.core.bank.ldq = e :: r → e.landed = true → e.vec = false →
      readS n s = .ok (⟨e.val.setWidth 32, e.poi.getLsbD 0⟩, s.upCore fun c => c.setBank { c.bank with ldq := r }))
  ∧ (s.core.sAlias n = true → (∀ e r, s.core.bank.ldq = e :: r → e.landed = false ∨ e.vec = true) →
      readS n s = .error { cause := 0x0A, slot := s.slot })
  ∧ (∀ m : BitVec 6, s.core.sAlias m = false → s.core.sAlias n = true → (∀ e r, s.core.bank.ldq = e :: r → e.landed = false ∨ e.vec = true) →
      readS2 m n s = .error { cause := 0x0A, slot := s.slot })
  ∧ ∀ (m : BitVec 6) (x y : PWord) (s1 s2 : State), readS m s = .ok (x, s1) → readS n s1 = .ok (y, s2) → readS2 m n s = .ok ((x, y), s2))
  ∧ (
  ∀ (n : BitVec 7) (s : State),
  (s.core.vAlias n = false → readV n s = .ok (s.core.vreg n.toNat, s) ∧ readVD n s = .ok (s.core.vreg n.toNat, s))
  ∧ (s.core.vAlias n = true → readVD n s = .error { cause := 0x0A, slot := s.slot })
  ∧ (∀ e r, s.core.vAlias n = true → Ready s.core.bank.ldq true e r →
      readV n s = .ok (⟨e.val, e.poi⟩, s.upCore fun c => c.setBank { c.bank with ldq := r }))
  ∧ (s.core.vAlias n = true → (∀ e r, s.core.bank.ldq = e :: r → e.landed = false ∨ e.vec = false) →
      readV n s = .error { cause := 0x0A, slot := s.slot }))

/-- R59, R221, R235, R236: where a scalar result goes. It is a write of the register that lands `lat` cycles after issue; under the queue
name it takes the next SDQ entry, reserved now, and lands there, in the monitor the next of the monitor's own queue. Nothing else of the state
changes at issue.

R59, R111, R236: where a row result goes: the enabled bytes of the register, `lat` cycles after issue, or a whole SDQ entry reserved now,
with zero in the bytes that are not enabled. -/
def Obligations.ResultPlacement : Prop := (
  ∀ (s : State) (lat : Nat) (d : BitVec 6) (v : PWord),
  let c := s.core
  let p (e : Eff) : Pend :=
    { at' := s.clock + lat, mon := c.inMon, id := c.seq, slot := s.slot, pc := c.pc, issue := s.tcyc s.curT, counts := decide (2 ≤ lat)
      last := s.clock + lat, effs := [e] }
  (c.sAlias d = false → s.putS lat d v = s.setTile s.curT (s.here.setCore s.curC { c with pend := c.pend ++ [p (.sreg d.toNat v)] }))
  ∧ (c.sAlias d = true → c.inMon = false → s.putS lat d v = s.setTile s.curT (s.here.setCore s.curC { c with
      task := { c.task with sdq := c.task.sdq ++ [{ seq := c.task.sdqSeq }], sdqSeq := c.task.sdqSeq + 1 }
      pend := c.pend ++ [p (.sdq c.task.sdqSeq (v.val.setWidth 2048) (BitVec.ofNat 64 (if v.poi then 1 else 0)))] }))
  ∧ (c.sAlias d = true → c.inMon = true → s.putS lat d v = s.setTile s.curT (s.here.setCore s.curC { c with
      mon := { c.mon with sdq := c.mon.sdq ++ [{ seq := c.mon.sdqSeq }], sdqSeq := c.mon.sdqSeq + 1 }
      pend := c.pend ++ [p (.sdq c.mon.sdqSeq (v.val.setWidth 2048) (BitVec.ofNat 64 (if v.poi then 1 else 0)))] })))
  ∧ (
  ∀ (s : State) (lat : Nat) (d : BitVec 7) (r : RowW),
  (s.core.vAlias d = false → s.putRow lat d r = s.later lat [.vrow d.toNat r.en r.val r.poi] r.fl true)
  ∧ (s.core.vAlias d = true →
      let z := VRow.write ⟨0#2048, 0#64⟩ r.en r.val r.poi
      s.putRow lat d r
        = (s.upCore fun c => c.setBank { c.bank with sdq := c.bank.sdq ++ [{ seq := c.bank.sdqSeq, vec := true }], sdqSeq := c.bank.sdqSeq + 1 }).later
            lat [.sdq s.core.bank.sdqSeq z.val z.poi] r.fl true))

/-- R112, R114, R115: the two-source integer forms. Both sources are read at issue, in order; the result lands one cycle later and is poisoned
if a source is. adds and subs clamp and then set SAT, unless the result is poisoned.

R93, R112, R114, R116: products, and division that truncates toward zero. A divisor of zero gives all ones or the dividend and sets IDZ. -/
def Obligations.IntegerTwoSourceForms : Prop := (
  ∀ (s s1 s2 : State) (d a b : BitVec 6) (x y : PWord),
  readS a s = .ok (x, s1) → readS b s1 = .ok (y, s2) →
  let p := x.poi || y.poi
  let k := y.val.toNat % 32
  let sat (z : Int) : Word × BitVec 11 :=
    (BitVec.ofInt 32 (max (-2147483648) (min 2147483647 z)), if p = false ∧ (z < -2147483648 ∨ 2147483647 < z) then 0x100#11 else 0#11)
  exec (.add d a b) s = .next (s2.putS 1 d ⟨x.val + y.val, p⟩)
  ∧ exec (.sub d a b) s = .next (s2.putS 1 d ⟨x.val - y.val, p⟩)
  ∧ exec (.and d a b) s = .next (s2.putS 1 d ⟨x.val &&& y.val, p⟩)
  ∧ exec (.or d a b) s = .next (s2.putS 1 d ⟨x.val ||| y.val, p⟩)
  ∧ exec (.xor d a b) s = .next (s2.putS 1 d ⟨x.val ^^^ y.val, p⟩)
  ∧ exec (.andn d a b) s = .next (s2.putS 1 d ⟨x.val &&& ~~~y.val, p⟩)
  ∧ exec (.shl d a b) s = .next (s2.putS 1 d ⟨BitVec.ofNat 32 (x.val.toNat * 2 ^ k), p⟩)
  ∧ exec (.shr d a b) s = .next (s2.putS 1 d ⟨BitVec.ofNat 32 (x.val.toNat / 2 ^ k), p⟩)
  ∧ exec (.sar d a b) s = .next (s2.putS 1 d ⟨BitVec.ofInt 32 (x.val.toInt / 2 ^ k), p⟩)
  ∧ exec (.rol d a b) s = .next (s2.putS 1 d ⟨BitVec.ofNat 32 (x.val.toNat * 2 ^ k) ||| BitVec.ofNat 32 (x.val.toNat / 2 ^ (32 - k)), p⟩)
  ∧ exec (.min d a b) s = .next (s2.putS 1 d ⟨BitVec.ofInt 32 (min x.val.toInt y.val.toInt), p⟩)
  ∧ exec (.max d a b) s = .next (s2.putS 1 d ⟨BitVec.ofInt 32 (max x.val.toInt y.val.toInt), p⟩)
  ∧ exec (.minu d a b) s = .next (s2.putS 1 d ⟨BitVec.ofNat 32 (min x.val.toNat y.val.toNat), p⟩)
  ∧ exec (.maxu d a b) s = .next (s2.putS 1 d ⟨BitVec.ofNat 32 (max x.val.toNat y.val.toNat), p⟩)
  ∧ exec (.adds d a b) s = .next (s2.putS 1 d ⟨(sat (x.val.toInt + y.val.toInt)).1, p⟩ (sat (x.val.toInt + y.val.toInt)).2)
  ∧ exec (.subs d a b) s = .next (s2.putS 1 d ⟨(sat (x.val.toInt - y.val.toInt)).1, p⟩ (sat (x.val.toInt - y.val.toInt)).2))
  ∧ (
  ∀ (s s1 s2 : State) (d a b : BitVec 6) (x y : PWord),
  readS a s = .ok (x, s1) → readS b s1 = .ok (y, s2) →
  let p := x.poi || y.poi
  let xi := x.val.toInt
  let yi := y.val.toInt
  let z : Bool := y.val == 0#32
  let idz : BitVec 11 := if z && !p then 0x400#11 else 0#11
  exec (.mul d a b) s = .next (s2.putS 3 d ⟨BitVec.ofInt 32 (xi * yi), p⟩)
  ∧ exec (.mulh d a b) s = .next (s2.putS 3 d ⟨BitVec.ofInt 32 (xi * yi / 4294967296), p⟩)
  ∧ exec (.mulhu d a b) s = .next (s2.putS 3 d ⟨BitVec.ofNat 32 (x.val.toNat * y.val.toNat / 4294967296), p⟩)
  ∧ exec (.div d a b) s = .next (s2.putS 18 d ⟨if z then 0xFFFFFFFF#32 else BitVec.ofInt 32 (xi.tdiv yi), p⟩ idz)
  ∧ exec (.divu d a b) s = .next (s2.putS 18 d ⟨if z then 0xFFFFFFFF#32 else BitVec.ofNat 32 (x.val.toNat / y.val.toNat), p⟩ idz)
  ∧ exec (.rem d a b) s = .next (s2.putS 18 d ⟨if z then x.val else BitVec.ofInt 32 (xi.tmod yi), p⟩ idz)
  ∧ exec (.remu d a b) s = .next (s2.putS 18 d ⟨if z then x.val else BitVec.ofNat 32 (x.val.toNat % y.val.toNat), p⟩ idz))

/-- R112, R114, R115, R117: the immediate forms, with the immediate sign-extended; the constants. movhi reads its destination.

R112, R114, R117: the one-source forms and sel, which reads the selected source and the selector alone. -/
def Obligations.IntegerOneSourceForms : Prop := (
  ∀ (s s1 : State) (d a : BitVec 6) (x : PWord) (i : BitVec 18) (m : BitVec 24) (h : BitVec 16),
  let j : Word := i.signExtend 32
  let k := j.toNat % 32
  (readS a s = .ok (x, s1) →
    exec (.addi d a i) s = .next (s1.putS 1 d ⟨x.val + j, x.poi⟩)
    ∧ exec (.andImm d a i) s = .next (s1.putS 1 d ⟨x.val &&& j, x.poi⟩)
    ∧ exec (.orImm d a i) s = .next (s1.putS 1 d ⟨x.val ||| j, x.poi⟩)
    ∧ exec (.xorImm d a i) s = .next (s1.putS 1 d ⟨x.val ^^^ j, x.poi⟩)
    ∧ exec (.andnImm d a i) s = .next (s1.putS 1 d ⟨x.val &&& ~~~j, x.poi⟩)
    ∧ exec (.shlImm d a i) s = .next (s1.putS 1 d ⟨BitVec.ofNat 32 (x.val.toNat * 2 ^ k), x.poi⟩)
    ∧ exec (.shrImm d a i) s = .next (s1.putS 1 d ⟨BitVec.ofNat 32 (x.val.toNat / 2 ^ k), x.poi⟩)
    ∧ exec (.sarImm d a i) s = .next (s1.putS 1 d ⟨BitVec.ofInt 32 (x.val.toInt / 2 ^ k), x.poi⟩)
    ∧ exec (.rolImm d a i) s = .next (s1.putS 1 d
        ⟨BitVec.ofNat 32 (x.val.toNat * 2 ^ k) ||| BitVec.ofNat 32 (x.val.toNat / 2 ^ (32 - k)), x.poi⟩))
  ∧ exec (.movi d m) s = .next (s.putS 1 d ⟨m.signExtend 32, false⟩)
  ∧ (s.core.sAlias d = false → readS d s = .ok (x, s1) → exec (.movhi d h) s = .next (s1.putS 1 d ⟨h ++ x.val.extractLsb' 0 16, x.poi⟩))
  ∧ (s.core.sAlias d = true → exec (.movhi d h) s = .next (s.raise { cause := 0x0A, slot := s.slot })))
  ∧ (
  ∀ (s s1 : State) (d a b : BitVec 6) (c : BitVec 3) (x : PWord),
  (readS a s = .ok (x, s1) →
    exec (.abs d a) s = .next (s1.putS 1 d ⟨BitVec.ofInt 32 x.val.toInt.natAbs, x.poi⟩)
    ∧ exec (.clz d a) s = .next (s1.putS 1 d ⟨if x.val = 0#32 then 32#32 else BitVec.ofNat 32 (31 - Nat.log2 x.val.toNat), x.poi⟩)
    ∧ exec (.popc d a) s = .next (s1.putS 1 d ⟨BitVec.ofNat 32 ((List.range 32).filter fun i => x.val.getLsbD i).length, x.poi⟩)
    ∧ exec (.extB d a) s = .next (s1.putS 1 d ⟨(x.val.extractLsb' 0 8).signExtend 32, x.poi⟩)
    ∧ exec (.extH d a) s = .next (s1.putS 1 d ⟨(x.val.extractLsb' 0 16).signExtend 32, x.poi⟩)
    ∧ exec (.extBu d a) s = .next (s1.putS 1 d ⟨(x.val.extractLsb' 0 8).zeroExtend 32, x.poi⟩)
    ∧ exec (.extHu d a) s = .next (s1.putS 1 d ⟨(x.val.extractLsb' 0 16).zeroExtend 32, x.poi⟩))
  ∧ (let p := s.core.bank.preg c.toNat
     readS (if p.val then a else b) s = .ok (x, s1) → exec (.sel d a b c) s = .next (s1.putS 1 d ⟨x.val, x.poi || p.poi⟩)))

/-- R57, R112, R114, R118, R119: integer comparisons with a register or with a sign-extended immediate, and predicate logic. -/
def Obligations.PredicateForms : Prop := ∀ (s s1 s2 : State) (d cc pa pb : BitVec 3) (a b : BitVec 6) (i : BitVec 15) (na nb : Bool) (x y : PWord),
  let rel (u v : Word) : Bool := match cc.toNat with
    | 0 => decide (u = v) | 1 => decide (u ≠ v) | 2 => decide (u.toInt < v.toInt) | 3 => decide (v.toInt ≤ u.toInt)
    | 4 => decide (u.toNat < v.toNat) | _ => decide (v.toNat ≤ u.toNat)
  let p := s.core.bank.preg pa.toNat
  let q := s.core.bank.preg pb.toNat
  (readS a s = .ok (x, s1) → readS b s1 = .ok (y, s2) → exec (.cmp d cc a b) s = .next (s2.putP 1 d ⟨rel x.val y.val, x.poi || y.poi⟩))
  ∧ (readS a s = .ok (x, s1) → exec (.cmpImm d cc a i) s = .next (s1.putP 1 d ⟨rel x.val (i.signExtend 32), x.poi⟩))
  ∧ exec (.pand d pa pb na nb) s = .next (s.putP 1 d ⟨(xor p.val na) && (xor q.val nb), p.poi || q.poi⟩)
  ∧ exec (.por d pa pb na nb) s = .next (s.putP 1 d ⟨(xor p.val na) || (xor q.val nb), p.poi || q.poi⟩)
  ∧ exec (.pxor d pa pb na nb) s = .next (s.putP 1 d ⟨xor (xor p.val na) (xor q.val nb), p.poi || q.poi⟩)
  ∧ exec (.pnot d pa na) s = .next (s.putP 1 d ⟨!(xor p.val na), p.poi⟩)

/-- R97, R112, R114, R120 to R123: scalar FP. A poisoned result raises no flag; an enabled flag may trap. fsgn reads bit 31 of b alone. -/
def Obligations.ScalarFloatForms : Prop := ∀ (s s1 s2 s3 : State) (d a b c : BitVec 6) (cc k e : BitVec 3) (rm : BitVec 2) (x y z : PWord),
  let u := x.val.toNat
  let v := y.val.toNat
  let p := x.poi || y.poi
  let fl (p : Bool) (f : BitVec 11) : BitVec 11 := if p then 0#11 else f
  let out (r : Nat × BitVec 11) : State := s2.putS 4 d ⟨BitVec.ofNat 32 r.1, p⟩ (fl p r.2) true
  let bit (w : PWord) : Bool := w.val.getLsbD 31
  let q : BitVec 3 → Ty × Ty := fun k => match k.toNat with
    | 0 => (.fl fp32, .int 32 true) | 1 => (.fl fp32, .int 32 false) | 2 => (.int 32 true, .fl fp32) | 3 => (.int 32 false, .fl fp32)
    | 4 => (.fl fp32, .fl fpBf16) | 5 => (.fl fpBf16, .fl fp32) | 6 => (.fl fp32, .fl fpF16) | _ => (.fl fpF16, .fl fp32)
  (readS a s = .ok (x, s1) → readS b s1 = .ok (y, s2) →
    exec (.fadd d a b rm) s = .next (out (fp32.addSub rm false u v))
    ∧ exec (.fsub d a b rm) s = .next (out (fp32.addSub rm true u v))
    ∧ exec (.fmul d a b rm) s = .next (out (fp32.mul rm u v))
    ∧ exec (.fmin d a b) s = .next (out (fp32.minMax false u v))
    ∧ exec (.fmax d a b) s = .next (out (fp32.minMax true u v))
    ∧ exec (.fminn d a b) s = .next (out (fp32.minMaxNum false u v))
    ∧ exec (.fmaxn d a b) s = .next (out (fp32.minMaxNum true u v))
    ∧ exec (.fsgn d a b) s = .next (out (fp32.setSign u (bit y)))
    ∧ exec (.fsgnN d a b) s = .next (out (fp32.setSign u (!bit y)))
    ∧ exec (.fsgnX d a b) s = .next (out (fp32.setSign u (xor (bit x) (bit y))))
    ∧ (let r := fp32.compare cc.toNat u v; exec (.fcmp e cc a b) s = .next (s2.putP 1 e ⟨r.1, p⟩ (fl p r.2) true))
    ∧ (readS c s2 = .ok (z, s3) →
        let r := fp32.fma rm false u v z.val.toNat
        exec (.ffma d a b c rm) s = .next (s3.putS 4 d ⟨BitVec.ofNat 32 r.1, p || z.poi⟩ (fl (p || z.poi) r.2) true)))
  ∧ (readS a s = .ok (x, s1) →
      let r := convert (q k).1 (q k).2 rm false (u % 2 ^ (q k).1.width)
      exec (.fcvt d a k rm) s = .next (s1.putS 4 d ⟨BitVec.ofNat 32 r.1, x.poi⟩ (fl x.poi r.2) true))

/-- R57, R59: a landing scalar, address or predicate result replaces that register of the issuing bank. s0 and p0 keep their constants.
Every other register of the bank stands; so do the other bank, the flags, the tokens, the vectors, every other core and tile, and memory.

R57, R111, R112: a landing mask result replaces the selected bits alone, with their poison; m0 stays all ones. -/
def Obligations.RegisterLanding : Prop := (
  ∀ (s : State) (t c : Nat) (p : Pend) (d n : Nat) (v : PWord) (w : PBit),
  let b (y : Core) : Bank := if p.mon then y.mon else y.task
  let kept (s' : State) : Prop :=
    (∀ u, u ≠ t → s'.tile u = s.tile u) ∧ (∀ e, e ≠ c → s'.coreAt t e = s.coreAt t e) ∧ (s'.tile t).tm = (s.tile t).tm
    ∧ (s'.tile t).ds = (s.tile t).ds ∧ (s'.coreAt t c).v = (s.coreAt t c).v ∧ (s'.coreAt t c).tok = (s.coreAt t c).tok
    ∧ (s'.coreAt t c).aflags = (s.coreAt t c).aflags ∧ (s'.coreAt t c).pend = (s.coreAt t c).pend
    ∧ (if p.mon then (s'.coreAt t c).task = (s.coreAt t c).task else (s'.coreAt t c).mon = (s.coreAt t c).mon)
  (let s' := s.landEff t c p (.sreg d v)
   kept s' ∧ (b (s'.coreAt t c)).sreg n = if n = 0 then ⟨0#32, false⟩ else if n = d then v else (b (s.coreAt t c)).sreg n)
  ∧ (let s' := s.landEff t c p (.areg d v); kept s' ∧ (b (s'.coreAt t c)).areg n = if n = d then v else (b (s.coreAt t c)).areg n)
  ∧ (let s' := s.landEff t c p (.preg d w)
     kept s' ∧ (b (s'.coreAt t c)).preg n = if n = 0 then ⟨true, false⟩ else if n = d then w else (b (s.coreAt t c)).preg n))
  ∧ (
  ∀ (s : State) (t c : Nat) (p : Pend) (d n i : Nat) (sel v q : BitVec 128),
  let s' := s.landEff t c p (.mreg d sel v q)
  i < 128 →
    ((s'.coreAt t c).mreg n).val.getLsbD i
      = (if n = 0 then true else if n = d ∧ sel.getLsbD i then v.getLsbD i else ((s.coreAt t c).mreg n).val.getLsbD i)
    ∧ ((s'.coreAt t c).mreg n).poi.getLsbD i
      = (if n = 0 then false else if n = d ∧ sel.getLsbD i then q.getLsbD i else ((s.coreAt t c).mreg n).poi.getLsbD i))

/-- R111, R112: a row write replaces the enabled bytes alone. A word that keeps some of its bytes keeps its poison beside the new one.

R111: what a vector operation writes: an element of w bits for each lane, in lane order; a lane that the mask leaves out is not enabled
and adds neither poison nor flags; a selected lane's bytes hold its result, and the flags are those of the clean selected lanes together. -/
def Obligations.RowWrites : Prop := (
  ∀ (r : VRow) (en : BitVec 256) (v : Bits256) (q : BitVec 64),
  (∀ i < 256, (r.write en v q).lane 8 i = if en.getLsbD i then v.toNat / 2 ^ (8 * i) % 256 else r.lane 8 i)
  ∧ (∀ j < 64,
      let e := en.extractLsb' (4 * j) 4
      (r.write en v q).poi.getLsbD j = if e = 0#4 then r.poi.getLsbD j else if e = 0xF#4 then q.getLsbD j else q.getLsbD j || r.poi.getLsbD j))
  ∧ (
  ∀ (w n : Nat) (m : MaskReg) (f : Nat → LRes), (w = 8 ∨ w = 16 ∨ w = 32) → w * n ≤ 2048 → n ≤ 128 →
  let r := RowW.of w (maskLanes n m f)
  (∀ i < n, ∀ b < w / 8, r.en.getLsbD (w / 8 * i + b) = m.val.getLsbD i)
  ∧ (∀ j, w / 8 * n ≤ j → r.en.getLsbD j = false)
  ∧ (∀ i < n, m.val.getLsbD i = true → r.val.toNat / 2 ^ (w * i) % 2 ^ w = (f i).val % 2 ^ w)
  ∧ (∀ j < 64, r.poi.getLsbD j
      = (List.range n).any fun i => w * i / 32 == j && m.val.getLsbD i && ((f i).poi || m.poi.getLsbD i))
  ∧ (∀ k < 11, r.fl.getLsbD k
      = (List.range n).any fun i => m.val.getLsbD i && !((f i).poi || m.poi.getLsbD i) && (f i).fl.getLsbD k))

/-- R214: tkp k, n is the word of Y kind with MAJ 0x07, K and N; at issue + 1 the arrived count rises by n as an arrival of R210 does, the in-flight
count stands, n = 0 has no effect, and it raises no fault.

Of R209 and R210 besides: a post moves one command from in flight to arrived; an error class adds to ERRN up to 15 and is kept in ERRC if it is the
first. An arrival past 0xFFFF leaves the count there and records class 6. What lands in one cycle is applied in that cycle: of arrivals their sum
counts. A lease request adds one to what is in flight on its token at issue, or is a token fault past 0xFFFF. -/
def Obligations.TokenCounts : Prop :=  (∀ (t : Token) (cls n m : Nat), t.arr ≤ 0xFFFF → t.errn ≤ 15 →
    (t.post cls).infl = t.infl - 1
    ∧ (cls = 0 → t.arr < 0xFFFF → t.post cls = { t with infl := t.infl - 1, arr := t.arr + 1 })
    ∧ (cls ≠ 0 → t.arr < 0xFFFF → t.post cls
        = { arr := t.arr + 1, infl := t.infl - 1, errn := if t.errn = 15 then 15 else t.errn + 1, errc := if t.errc = 0 then cls else t.errc })
    ∧ (t.arr + n ≤ 0xFFFF → t.arrive n = { t with arr := t.arr + n })
    ∧ (0xFFFF < t.arr + n →
        t.arrive n = { t with arr := 0xFFFF, errn := if t.errn = 15 then 15 else t.errn + 1, errc := if t.errc = 0 then 6 else t.errc })
    ∧ (t.arrive n).arr ≤ 0xFFFF ∧ (t.post cls).arr ≤ 0xFFFF ∧ (t.arrive n).errn ≤ 15 ∧ (t.post cls).errn ≤ 15
    ∧ ((t.arrive n).arrive m).arr = (t.arrive (n + m)).arr)
  ∧ (∀ (s : State) (k : BitVec 5), ¬(s.here.leaseCore = some s.curC ∨ ∃ j, (s.curC, j) ∈ s.here.leaseReq) →
      let t := s.core.token k.toNat
      ((t.infl < 0xFFFF → ∃ u, exec (.lease k) s = .next u ∧ u.core.token k.toNat = { t with infl := t.infl + 1 }
          ∧ ∀ j, j ≠ k.toNat → u.core.token j = s.core.token j)
      ∧ (0xFFFF ≤ t.infl → exec (.lease k) s = .next (s.raise
          { cause := 0x0D, slot := s.slot, i0 := BitVec.ofNat 32 (k.toNat * 65536 + t.errn * 4096 + t.errc * 256) }))))
  ∧ decodeSlot 0xB8FE0003#32 0#9 = .ok (.tkp 30#5 3#16)
  ∧ ∀ (s : State) (k : BitVec 5) (n : BitVec 16) (p : Pend),
      decodeSlot (0x5C7#11 ++ k ++ n) 0#9 = .ok (.tkp k n) ∧ decodeSlot (0x1C7#11 ++ k ++ n) 0#9 = .ok (.tkp k n)
      ∧ exec (.tkp k 0#16) s = .next s ∧ (n ≠ 0#16 → exec (.tkp k n) s = .next (s.laterPart 1 [.tkp k.toNat n.toNat]))
      ∧ (let y := (s.landEff s.curT s.curC p (.tkp k.toNat n.toNat)).core
         y.token k.toNat = (s.core.token k.toNat).arrive n.toNat ∧ (y.token k.toNat).infl = (s.core.token k.toNat).infl
         ∧ ∀ j, j ≠ k.toNat → y.token j = s.core.token j)

/-- R238, R241: a store that performs writes its bytes, the lowest first, and no other; every other byte of its tile's memory, all of its dune
store, its code, its latches and its cores' own memories stand. A tile-memory word written whole takes the entry's poison; one written in part keeps its own beside it. -/
def Obligations.StorePerforms : Prop := ∀ (x : Tile) (c : Nat) (p : Pend) (r : Req) (n a q : Nat) (v : Bits256) (k : BitVec 64),
  n = 1 ∨ n = 2 ∨ n = 4 ∨ n = 256 → a % min n 4 = 0 →
  let y := x.entryAcc c p r none (.store n a v k)
  (∀ b, b < a ∨ a + n ≤ b → y.tmRead b 1 = x.tmRead b 1)
  ∧ (∀ i < n, y.tmRead (a + i) 1 = v.toNat / 2 ^ (8 * i) % 256)
  ∧ (∀ b m, y.dsRead b m = x.dsRead b m) ∧ y.cores = x.cores ∧ y.code = x.code ∧ y.latch = x.latch ∧ y.dsPoi = x.dsPoi
  ∧ (∀ w, w < a / 4 ∨ (a + n - 1) / 4 < w → sget false y.tmPoi w = sget false x.tmPoi w)
  ∧ (∀ w, a ≤ 4 * w → 4 * w + 4 ≤ a + n → sget false y.tmPoi w = k.getLsbD (w - a / 4))
  ∧ (n < 4 → sget false y.tmPoi (a / 4) = (k.getLsbD 0 || sget false x.tmPoi (a / 4)))
  ∧ (x.entryAcc c p r none (.load n a q)).tm = x.tm

/-- R59, R72, R238: a load from ar + OFF, or from ar with ar + OFF written back one cycle later. The entry of the LDQ is reserved now; the
bytes are read at issue + 3 and land in it at issue + 7.

R72, R237, R238: a store takes the head of the SDQ at issue; its bytes are written from ea three cycles later.

R228, R345: a load or store whose address is not aligned or whose end lies outside tile memory takes an address fault, with the
address and the length in the trap state; one whose address register is poisoned takes a poison fault. -/
def Obligations.LoadsAndStores : Prop := (
  ∀ (s : State) (ar : BitVec 4) (pi : Bool) (off : BitVec 24),
  let a := s.core.bank.areg ar.toNat
  let sum := a.val + off.signExtend 32
  let ea := (if pi then a.val else sum).toNat
  let post (t : State) : State := if pi then t.laterPart 1 [.areg ar.toNat ⟨sum, false⟩] else t
  let out (vec : Bool) (n : Nat) : State :=
    post ((s.upCore fun c => c.setBank { c.bank with ldq := c.bank.ldq ++ [{ seq := c.bank.ldqSeq, vec := vec }], ldqSeq := c.bank.ldqSeq + 1 }).laterUntil
      3 7 [.load n ea s.core.bank.ldqSeq])
  let ok (n al : Nat) : Prop := Access a ea n al 0x600000 ∧ s.ClearOf 0 ea n
  (ok 1 1 → exec (.ldB ar pi off) s = .next (out false 1)) ∧ (ok 2 2 → exec (.ldH ar pi off) s = .next (out false 2))
  ∧ (ok 4 4 → exec (.ldW ar pi off) s = .next (out false 4)) ∧ (ok 256 64 → exec (.ldV ar pi off) s = .next (out true 256)))
  ∧ (
  ∀ (s : State) (ar : BitVec 4) (pi : Bool) (off : BitVec 24) (e : QEntry) (r : List QEntry),
  let a := s.core.bank.areg ar.toNat
  let sum := a.val + off.signExtend 32
  let ea := (if pi then a.val else sum).toNat
  let post (t : State) : State := if pi then t.laterPart 1 [.areg ar.toNat ⟨sum, false⟩] else t
  let out (n : Nat) : State := post ((s.upCore fun c => c.setBank { c.bank with sdq := r }).later 3 [.store n ea e.val e.poi])
  let ok (vec : Bool) (n al : Nat) : Prop := Access a ea n al 0x600000 ∧ s.ClearOf 0 ea n ∧ Ready s.core.bank.sdq vec e r
  (ok false 1 1 → exec (.stB ar pi off) s = .next (out 1)) ∧ (ok false 2 2 → exec (.stH ar pi off) s = .next (out 2))
  ∧ (ok false 4 4 → exec (.stW ar pi off) s = .next (out 4)) ∧ (ok true 256 64 → exec (.stV ar pi off) s = .next (out 256)))
  ∧ (
  ∀ (s : State) (ar : BitVec 4) (pi : Bool) (off : BitVec 24),
  let a := s.core.bank.areg ar.toNat
  let ea := (if pi then a.val else a.val + off.signExtend 32).toNat
  let forms : List (Instr × Nat × Nat) := [(.ldB ar pi off, 1, 1), (.ldH ar pi off, 2, 2), (.ldW ar pi off, 4, 4), (.ldV ar pi off, 256, 64),
    (.stB ar pi off, 1, 1), (.stH ar pi off, 2, 2), (.stW ar pi off, 4, 4), (.stV ar pi off, 256, 64)]
  ∀ i n al, (i, n, al) ∈ forms →
    (ea % al ≠ 0 ∨ 0x600000 < ea + n →
      exec i s = .next (s.raise { cause := 0x08, slot := s.slot, i0 := BitVec.ofNat 32 ea, i1 := BitVec.ofNat 32 n }))
    ∧ (ea % al = 0 → ea + n ≤ 0x600000 → a.poi = true → exec i s = .next (s.raise { cause := 0x1E, slot := s.slot })))

/-- R57, R240: moves and sums of address registers land one cycle later; a sum is modulo 2^32 and poisoned if a source is.

R239: a tile atomic reserves an LDQ entry, reads at issue + 3 and delivers the old word at issue + 9. What it writes one cycle after the
read: the sum, the signed minimum or maximum, the operand, or the operand where the old word equals the comparand. That its poison is that of each
word it is computed from is the model's choice (log entry 58). -/
def Obligations.AddressMovesAndAtomics : Prop := (
  ∀ (s s1 : State) (ad aa : BitVec 4) (i : BitVec 22) (r : BitVec 6) (x : PWord),
  let a := s.core.bank.areg aa.toNat
  exec (.aaddImm ad aa i) s = .next (s.later 1 [.areg ad.toNat ⟨a.val + i.signExtend 32, a.poi⟩])
  ∧ (readS r s = .ok (x, s1) →
      exec (.aadd ad aa r) s = .next (s1.later 1 [.areg ad.toNat ⟨a.val + x.val, a.poi || x.poi⟩])
      ∧ exec (.amovA ad r) s = .next (s1.later 1 [.areg ad.toNat x]))
  ∧ exec (.amovS r aa) s = .next (s.putS 1 r a))
  ∧ (
  ∀ (s s1 s2 : State) (ar : BitVec 4) (off : BitVec 14) (r c : BitVec 6) (x y : PWord),
  let a := s.core.bank.areg ar.toNat
  let ea := (a.val + 4#32 * off.signExtend 32).toNat
  let out (t : State) (op : Nat) (z : PWord) : State :=
    (t.upCore fun k => k.setBank { k.bank with ldq := k.bank.ldq ++ [{ seq := k.bank.ldqSeq }], ldqSeq := k.bank.ldqSeq + 1 }).laterUntil
      3 9 [.amoRead op ea x z t.core.bank.ldqSeq]
  (Access a ea 4 4 0x600000 → readS r s = .ok (x, s1) →
    (s1.ClearOf 0 ea 4 →
      exec (.amoAdd ar r off) s = .next (out s1 0 {}) ∧ exec (.amoMin ar r off) s = .next (out s1 1 {})
      ∧ exec (.amoMax ar r off) s = .next (out s1 2 {}) ∧ exec (.amoSwap ar r off) s = .next (out s1 3 {}))
    ∧ (readS c s1 = .ok (y, s2) → s2.ClearOf 0 ea 4 → exec (.amoCas ar r c off) s = .next (out s2 4 y)))
  ∧ ∀ o v w : PWord,
      amoNew 0 o v w = ⟨o.val + v.val, o.poi || v.poi⟩
      ∧ amoNew 1 o v w = ⟨BitVec.ofInt 32 (min o.val.toInt v.val.toInt), o.poi || v.poi⟩
      ∧ amoNew 2 o v w = ⟨BitVec.ofInt 32 (max o.val.toInt v.val.toInt), o.poi || v.poi⟩
      ∧ amoNew 3 o v w = v
      ∧ amoNew 4 o v w = ⟨if o.val = w.val then v.val else o.val, o.poi || v.poi || w.poi⟩)

/-- R241, R242: dune-store vectors. The command takes its slice's bus from issue + 2 to issue + 9, which no other command may use then: a
load lands 12 cycles after issue, a store, whose row is read at issue, is performed 10 cycles after. -/
def Obligations.DuneVectors : Prop := ∀ (s s1 : State) (v : BitVec 7) (ar : BitVec 4) (pi : Bool) (off : BitVec 18) (x : VRow),
  let a := s.core.bank.areg ar.toNat
  let sum := a.val + 256#32 * off.signExtend 32
  let ea := (if pi then a.val else sum).toNat
  let post (t : State) : State := if pi then t.laterPart 1 [.areg ar.toNat ⟨sum, false⟩] else t
  let free (t : State) : Prop := ∀ p ∈ t.here.paths, p.onBus (ea / 393216) (t.tcyc t.curT + 2) (t.tcyc t.curT + 9) = false
  let path (t : State) (kind dur : Nat) : Path := { t.newPath kind t.clock dur with addr := ea, ty := v.toNat }
  let add (t : State) (p : Path) : State := t.upHere fun y => { y with paths := y.paths ++ [p] }
  Access a ea 256 256 0x1800000 →
    (s.ClearOf 1 ea 256 → free s →
      (s.core.vAlias v = false → exec (.ldDs v ar pi off) s = .next (post (add s (path s 6 12))))
      ∧ (s.core.vAlias v = true → exec (.ldDs v ar pi off) s = .next (post (add
          (s.upCore fun c => c.setBank { c.bank with sdq := c.bank.sdq ++ [{ seq := c.bank.sdqSeq, vec := true }], sdqSeq := c.bank.sdqSeq + 1 })
          { path s 6 12 with q := some s.core.bank.sdqSeq }))))
    ∧ (readV v s = .ok (x, s1) → s1.ClearOf 1 ea 256 → free s1 →
        exec (.stDs v ar pi off) s = .next (post (add s1 { path s1 7 10 with data := x })))

/-- R206, R210, R226, R249, R250: a stream enters with the address of its control block, in flight on its token; the block is read three
cycles after its start. In strict mode a stream.rd tracks the range that the block names; that it takes it at issue is the model's choice (log entry 56).
A stream.wr cannot be repeated by a replay (R420). -/
def Obligations.Streams : Prop := ∀ (s : State) (k : BitVec 5) (ar : BitVec 4) (off : BitVec 12) (st : BitVec 9) (c : Nat),
  let a := s.core.bank.areg ar.toNat
  let cb := (a.val + off.zeroExtend 32).toNat
  let enter (t : State) (wr : Bool) : State :=
    let n := t.here.cmdSeq
    let j : StreamJob := { n := n, held := decide (c ≠ t.clock), core := t.curC, k := k.toNat, issue := t.tcyc t.curT, slot := t.slot
                           id := t.core.seq, pc := t.core.pc, wr := wr, cb := cb, wake := t.tcyc t.curT + (c - t.clock) + 3, mon := t.core.inMon }
    let u := t.upHere fun x => { x with cmdSeq := n + 1, streams := x.streams ++ [j] }
    if c = t.clock then u else u.holding c 0 (.startStream n)
  Access a cb 32 32 0x600000 → s.StartsAt st c → s.TokenFree k →
    (let q := s.here.blockAt cb
     s.RecordFree → exec (.streamRd k ar off st) s = .next (enter ((s.posting k).tracking q.space q.local q.span k (2 * s.here.cmdSeq + 1)) false))
    ∧ exec (.streamWr k ar off st) s
        = .next (let t := enter (s.posting k) true; if s.core.inMon then t else t.upCore fun y => { y with sideEff := true })

/-- R93, R111, R114, R125: two-source lanes. An F type computes in its format and lands after 5 cycles, an I type modulo 2^width after 2;
a lane is poisoned if a source lane's word is. The saturating forms clamp and set SAT. -/
def Obligations.VectorArithmetic : Prop := ∀ (s s1 s2 : State) (d a b : BitVec 7) (k ty : BitVec 3) (rm : BitVec 2) (x y : VRow),
  readV a s = .ok (x, s1) → readV b s1 = .ok (y, s2) →
  let w := tyWidth ty
  let sg := tySigned ty
  let m := s2.core.mreg k.toNat
  let put (lat : Nat) (f : Nat → Nat → Nat × BitVec 11) : State :=
    s2.putRow lat d (RowW.of w (maskLanes (tyLanes ty) m fun i =>
      let r := f (x.lane w i) (y.lane w i); ⟨r.1, x.lpoi w i || y.lpoi w i, r.2⟩))
  let int (g : Int → Int → Int) (u v : Nat) : Nat × BitVec 11 := ((g (intVal w sg u) (intVal w sg v) % (2 ^ w : Nat)).toNat, 0#11)
  let sat (g : Int → Int → Int) (u v : Nat) : Nat × BitVec 11 :=
    let z := g (intVal w sg u) (intVal w sg v)
    let c := max (intMin w sg) (min (intMax w sg) z)
    ((c % (2 ^ w : Nat)).toNat, if c = z then 0#11 else 0x100#11)
  (tyIsF ty = true →
    let f := tyFmt ty
    exec (.vadd d a b k ty rm) s = .next (put 5 (f.addSub rm false)) ∧ exec (.vsub d a b k ty rm) s = .next (put 5 (f.addSub rm true))
    ∧ exec (.vmul d a b k ty rm) s = .next (put 5 (f.mul rm)) ∧ exec (.vmin d a b k ty) s = .next (put 5 (f.minMax false))
    ∧ exec (.vmax d a b k ty) s = .next (put 5 (f.minMax true)) ∧ exec (.vminn d a b k ty) s = .next (put 5 (f.minMaxNum false))
    ∧ exec (.vmaxn d a b k ty) s = .next (put 5 (f.minMaxNum true)))
  ∧ (tyIsF ty = false →
    exec (.vadd d a b k ty rm) s = .next (put 2 (int (· + ·))) ∧ exec (.vsub d a b k ty rm) s = .next (put 2 (int (· - ·)))
    ∧ exec (.vmul d a b k ty rm) s = .next (put 2 (int (· * ·))) ∧ exec (.vmin d a b k ty) s = .next (put 2 (int min))
    ∧ exec (.vmax d a b k ty) s = .next (put 2 (int max)) ∧ exec (.vadds d a b k ty) s = .next (put 2 (sat (· + ·)))
    ∧ exec (.vsubs d a b k ty) s = .next (put 2 (sat (· - ·))))

/-- R111, R125: bitwise lanes and shifts by a lane's own count, taken modulo the width; they land after 2 cycles.

R111, R125, R129: one-source lanes, shifts by an immediate, vmov and vbcast. -/
def Obligations.VectorBitsAndUnary : Prop := (
  ∀ (s s1 s2 : State) (d a b : BitVec 7) (k ty : BitVec 3) (x y : VRow),
  readV a s = .ok (x, s1) → readV b s1 = .ok (y, s2) →
  let w := tyWidth ty
  let m := s2.core.mreg k.toNat
  let put (f : Nat → Nat → Nat) : State :=
    s2.putRow 2 d (RowW.of w (maskLanes (tyLanes ty) m fun i => ⟨f (x.lane w i) (y.lane w i), x.lpoi w i || y.lpoi w i, 0#11⟩))
  exec (.vand d a b k ty) s = .next (put (· &&& ·)) ∧ exec (.vor d a b k ty) s = .next (put (· ||| ·))
  ∧ exec (.vxor d a b k ty) s = .next (put (· ^^^ ·))
  ∧ exec (.vshl d a b k ty) s = .next (put fun u v => u * 2 ^ (v % w) % 2 ^ w)
  ∧ exec (.vshr d a b k ty) s = .next (put fun u v => u / 2 ^ (v % w))
  ∧ exec (.vsar d a b k ty) s = .next (put fun u v => (intVal w true u / (2 ^ (v % w) : Nat) % (2 ^ w : Nat)).toNat))
  ∧ (
  ∀ (s s1 : State) (d a : BitVec 7) (r : BitVec 6) (cnt : BitVec 6) (k ty : BitVec 3) (x : VRow) (u : PWord),
  let w := tyWidth ty
  let sg := tySigned ty
  let put (lat : Nat) (f : Nat → Nat × BitVec 11) : State :=
    s1.putRow lat d (RowW.of w (maskLanes (tyLanes ty) (s1.core.mreg k.toNat) fun i => let r := f (x.lane w i); ⟨r.1, x.lpoi w i, r.2⟩))
  let n := cnt.toNat % w
  (readV a s = .ok (x, s1) →
    (tyIsF ty = true →
      let f := tyFmt ty
      exec (.vabs d a k ty) s = .next (put 5 fun v => f.setSign v false)
      ∧ exec (.vneg d a k ty) s = .next (put 5 fun v => f.setSign v (decide (v < f.sgn))))
    ∧ (tyIsF ty = false →
      exec (.vabs d a k ty) s = .next (put 2 fun v => (((intVal w sg v).natAbs : Int) % (2 ^ w : Nat) |>.toNat, 0#11))
      ∧ exec (.vneg d a k ty) s = .next (put 2 fun v => ((-intVal w sg v) % (2 ^ w : Nat) |>.toNat, 0#11)))
    ∧ exec (.vshlImm d a cnt k ty) s = .next (put 2 fun v => (v * 2 ^ n % 2 ^ w, 0#11))
    ∧ exec (.vshrImm d a cnt k ty) s = .next (put 2 fun v => (v / 2 ^ n, 0#11))
    ∧ exec (.vsarImm d a cnt k ty) s = .next (put 2 fun v => ((intVal w true v / (2 ^ n : Nat) % (2 ^ w : Nat)).toNat, 0#11))
    ∧ exec (.vmov d a k ty) s = .next (put 2 fun v => (v, 0#11)))
  ∧ (readS r s = .ok (u, s1) →
      exec (.vbcast d r k ty) s
        = .next (s1.putRow 2 d (RowW.of w (maskLanes (tyLanes ty) (s1.core.mreg k.toNat) fun _ => ⟨u.val.toNat % 2 ^ w, u.poi, 0#11⟩)))))

/-- R111, R125, R128: fused lanes round(d ± a·b) once, and vclamp between two scalars, whose low bits are the bounds. -/
def Obligations.VectorFused : Prop := ∀ (s s1 s2 s3 : State) (d a b : BitVec 7) (lo hi : BitVec 6) (k ty : BitVec 3) (rm : BitVec 2) (z x y : VRow) (l h : PWord),
  let w := tyWidth ty
  let row (t : State) (g : Nat → LRes) : RowW := RowW.of w (maskLanes (tyLanes ty) (t.core.mreg k.toNat) g)
  readVD d s = .ok (z, s1) →
    (readV a s1 = .ok (x, s2) → readV b s2 = .ok (y, s3) →
      let g (neg : Bool) (i : Nat) : LRes :=
        let r := (tyFmt ty).fma rm neg (x.lane w i) (y.lane w i) (z.lane w i); ⟨r.1, x.lpoi w i || y.lpoi w i || z.lpoi w i, r.2⟩
      exec (.vfma d a b k ty rm) s = .next (s3.putRow 5 d (row s3 (g false)))
      ∧ exec (.vfms d a b k ty rm) s = .next (s3.putRow 5 d (row s3 (g true))))
    ∧ (readS lo s1 = .ok (l, s2) → readS hi s2 = .ok (h, s3) →
      let lb := l.val.toNat % 2 ^ w
      let hb := h.val.toNat % 2 ^ w
      let v := intVal w (tySigned ty)
      (tyIsF ty = false → exec (.vclamp d lo hi k ty) s = .next (s3.putRow 2 d (row s3 fun i =>
        ⟨(min (max (v (z.lane w i)) (v lb)) (v hb) % (2 ^ w : Nat)).toNat, z.lpoi w i || l.poi || h.poi, 0#11⟩)))
      ∧ (tyIsF ty = true → exec (.vclamp d lo hi k ty) s = .next (s3.putRow 5 d (row s3 fun i =>
        let f := tyFmt ty
        let r := match nanOf f [z.lane w i, lb, hb] with
          | some q => q | none => (pick f false (pick f true (z.lane w i) lb) hb, 0#11)
        ⟨r.1, z.lpoi w i || l.poi || h.poi, r.2⟩))))

/-- R97, R121, R126: compares of lanes, eq ne lt le gt ge un: the selected lanes' bits of a mask register, after 2 cycles, with the flags of the
clean selected lanes. F lanes that are no NaN compare by the values of their patterns; where one is a NaN, ne and un alone hold. NV: lt, le,
gt and ge on any NaN, the others on a signalling one. -/
def Obligations.VectorCompare : Prop := ∀ (s s1 s2 : State) (cc md : BitVec 3) (a b : BitVec 7) (k ty : BitVec 3) (x y : VRow),
  readV a s = .ok (x, s1) → readV b s1 = .ok (y, s2) →
  let w := tyWidth ty
  let m := s2.core.mreg k.toNat
  (∃ sel val poi fl, exec (.vcmp cc md a b k ty) s = .next (s2.later 2 [.mreg md.toNat sel val poi] fl true)
    ∧ (∀ i < tyLanes ty, sel.getLsbD i = m.val.getLsbD i ∧ val.getLsbD i = (vCompare cc ty (x.lane w i) (y.lane w i)).1
        ∧ poi.getLsbD i = (x.lpoi w i || y.lpoi w i || m.poi.getLsbD i))
    ∧ (∀ i, tyLanes ty ≤ i → sel.getLsbD i = false)
    ∧ ∀ j < 11, fl.getLsbD j = (List.range (tyLanes ty)).any fun i => m.val.getLsbD i && !(x.lpoi w i || y.lpoi w i || m.poi.getLsbD i)
        && (vCompare cc ty (x.lane w i) (y.lane w i)).2.getLsbD j)
  ∧ (∀ u v, tyIsF ty = false →
      let p := intVal w (tySigned ty) u
      let q := intVal w (tySigned ty) v
      (vCompare cc ty u v).2 = 0#11
      ∧ (vCompare cc ty u v).1 = match cc.toNat with
        | 0 => decide (p = q) | 1 => decide (p ≠ q) | 2 => decide (p < q) | 3 => decide (p ≤ q) | 4 => decide (q < p) | _ => decide (q ≤ p))
  ∧ (∀ u v, tyIsF ty = true → (((tyFmt ty).unpack u).isNan || ((tyFmt ty).unpack v).isNan) = true →
      (vCompare cc ty u v).1 = (cc.toNat == 1 || decide (6 ≤ cc.toNat)))
  ∧ (∀ u v, tyIsF ty = true →
      let p := (tyFmt ty).unpack u
      let q := (tyFmt ty).unpack v
      let nv : Bool := if 2 ≤ cc.toNat ∧ cc.toNat ≤ 5 then p.isNan || q.isNan else p.isSnan || q.isSnan
      (vCompare cc ty u v).2 = if nv then 0x010#11 else 0#11)
  ∧ (∀ u v, tyIsF ty = true → u < 2 ^ w → v < 2 ^ w → ((tyFmt ty).unpack u).isNan = false → ((tyFmt ty).unpack v).isNan = false →
      let fb := (tyFmt ty).fb
      let num (b : Nat) : Int :=
        let ex := b % 2 ^ (w - 1) / 2 ^ fb
        let m : Nat := if ex = 0 then b % 2 ^ fb else (2 ^ fb + b % 2 ^ fb) * 2 ^ (ex - 1)
        if b < 2 ^ (w - 1) then m else -(m : Int)
      (vCompare cc ty u v).1 = match cc.toNat with
        | 0 => decide (num u = num v) | 1 => decide (num u ≠ num v) | 2 => decide (num u < num v) | 3 => decide (num u ≤ num v)
        | 4 => decide (num v < num u) | 5 => decide (num v ≤ num u) | _ => false)

/-- R127, R129: a select by mask, and moves between lanes: permutation, rotation up by a count, the window over two rows, one lane to a scalar. That
vsel takes both of its operands from a queue, whatever the mask selects, is the model's choice (log entry 117). -/
def Obligations.VectorMoves : Prop := ∀ (s s1 s2 : State) (d a b : BitVec 7) (e : BitVec 6) (cnt lane : BitVec 7) (c k ty : BitVec 3) (x y : VRow),
  readV a s = .ok (x, s1) →
  let w := tyWidth ty
  let n := tyLanes ty
  let sel (t : State) : MaskReg := t.core.mreg k.toNat
  (readV b s1 = .ok (y, s2) →
    exec (.vsel d a b k ty) s = .next (s2.putRow 2 d (RowW.of w ((upto 0 n).map fun i =>
      let r := if (sel s2).val.getLsbD i then x else y
      some ⟨r.lane w i, r.lpoi w i || (sel s2).poi.getLsbD i, 0#11⟩)))
    ∧ exec (.vperm d a b k ty) s = .next (s2.putRow 3 d (RowW.of w (maskLanes n (sel s2) fun i =>
      let j := y.lane w i % n; ⟨x.lane w j, x.lpoi w j || y.lpoi w i, 0#11⟩)))
    ∧ exec (.vslide d a b c ty) s = .next (s2.putRow 3 d (RowW.of w ((upto 0 n).map fun i =>
      if c.toNat ≤ i then some ⟨x.lane w (i - c.toNat), x.lpoi w (i - c.toNat), 0#11⟩
      else some ⟨y.lane w (n - c.toNat + i), y.lpoi w (n - c.toNat + i), 0#11⟩))))
  ∧ exec (.vrot d a cnt k ty) s = .next (s1.putRow 3 d (RowW.of w (maskLanes n (sel s1) fun i =>
      let j := (i + n - cnt.toNat) % n; ⟨x.lane w j, x.lpoi w j, 0#11⟩)))
  ∧ exec (.vext e a lane ty) s = .next (s1.putS 2 e ⟨if ty = 4#3 then BitVec.ofInt 32 (intVal 16 true (x.lane w lane.toNat)) else BitVec.ofNat 32 (x.lane w lane.toNat),
      x.lpoi w lane.toNat⟩)

/-- R130: reductions land in a scalar after 7 cycles. Of integers: the sum modulo 2^32, the least, the greatest of the selected lanes, widened
to 32 bits by the type; with no lane selected 0, or the extreme of the type. Of F lanes: the root of the fixed tree over the selected lanes,
widened to FP32, with the flags of all its nodes (redNode). A lone f32 lane is its own result (log entry 116, the model's choice). -/
def Obligations.VectorReduction : Prop := ∀ (s s1 : State) (d : BitVec 6) (a : BitVec 7) (k ty : BitVec 3) (rm : BitVec 2) (x : VRow),
  readV a s = .ok (x, s1) →
  let w := tyWidth ty
  let n := tyLanes ty
  let m := s1.core.mreg k.toNat
  let ls : List Int := ((List.range n).filter fun i => m.val.getLsbD i).map fun i => intVal w (tySigned ty) (x.lane w i)
  let poi := (List.range n).any fun i => m.poi.getLsbD i || (m.val.getLsbD i && x.lpoi w i)
  let sg := tySigned ty
  (tyIsI ty = true →
    exec (.vredAdd d a k ty rm) s = .next (s1.putS 7 d ⟨BitVec.ofInt 32 ls.sum, poi⟩ 0#11 true)
    ∧ exec (.vredMax d a k ty) s = .next (s1.putS 7 d ⟨BitVec.ofInt 32 (ls.foldl max (if sg then -2147483648 else 0)), poi⟩ 0#11 true)
    ∧ exec (.vredMin d a k ty) s = .next (s1.putS 7 d ⟨BitVec.ofInt 32 (ls.foldl min (if sg then 2147483647 else 4294967295)), poi⟩ 0#11 true))
  ∧ (tyIsF ty = true →
      let leaf (i : Nat) : Option (Nat × BitVec 11) :=
        if m.val.getLsbD i then some (if w = 32 then (x.lane w i, 0#11) else convert (.fl (tyFmt ty)) (.fl fp32) 0#2 false (x.lane w i)) else none
      let root (op : Nat → Nat → Nat × BitVec 11) : Option (Nat × BitVec 11) := redNode op leaf (Nat.log2 n) 0
      ∃ r1 r2 r3 : Nat × BitVec 11,
        r1 = (root (fp32.addSub rm false)).getD (0, 0#11) ∧ r2 = (root (fp32.minMax true)).getD (0xFF800000, 0#11)
        ∧ r3 = (root (fp32.minMax false)).getD (0x7F800000, 0#11) ∧
        let fl (r : Nat × BitVec 11) : BitVec 11 := if poi then 0#11 else r.2
        exec (.vredAdd d a k ty rm) s = .next (s1.putS 7 d ⟨BitVec.ofNat 32 r1.1, poi⟩ (fl r1) true)
        ∧ exec (.vredMax d a k ty) s = .next (s1.putS 7 d ⟨BitVec.ofNat 32 r2.1, poi⟩ (fl r2) true)
        ∧ exec (.vredMin d a k ty) s = .next (s1.putS 7 d ⟨BitVec.ofNat 32 r3.1, poi⟩ (fl r3) true)
        ∧ ((∀ i < n, m.val.getLsbD i = false) → r1 = (0, 0#11) ∧ r2 = (0xFF800000, 0#11) ∧ r3 = (0x7F800000, 0#11))
        ∧ (∀ i < n, ty = 0#3 → (∀ j < n, m.val.getLsbD j = decide (j = i)) → r1 = (x.lane 32 i, 0#11) ∧ r2 = (x.lane 32 i, 0#11) ∧ r3 = (x.lane 32 i, 0#11)))

/-- R131 to R133: conversions land after 4 cycles. vcvt takes element i under mask bit i mod 128, narrower elements from the low end;
vpack.sb makes a shared-bias block of the row or row pair, poisoned whole if an element is; vunpack.sb gives a block's elements as lanes,
or a format fault for a block that is not in order. That the second register of a pair is never a queue name is the model's choice (log entry 26). -/
def Obligations.VectorConversions : Prop := ∀ (s s1 : State) (d a : BitVec 7) (dst src k ty : BitVec 3) (mw : BitVec 6) (rm : BitVec 2) (sat : Bool) (x : VRow),
  readV a s = .ok (x, s1) →
  let m := s1.core.mreg k.toNat
  let sw := (cvtTy src).width
  let dw := (cvtTy dst).width
  let w := tyWidth ty
  let n := tyLanes ty
  exec (.vcvt d a dst src k rm sat) s = .next (s1.putRow 4 d (RowW.of dw ((upto 0 (2048 / max sw dw)).map fun i =>
    if m.val.getLsbD (i % 128) then
      let r := convert (cvtTy src) (cvtTy dst) rm sat (x.lane sw i)
      some ⟨r.1, x.lpoi sw i || m.poi.getLsbD (i % 128), r.2⟩
    else none)))
  ∧ (let y := s1.core.vreg (a.toNat + 1)
     let els := (upto 0 (sbCount mw.toNat)).map fun i => if i < n then (x.lane w i, x.lpoi w i) else (y.lane w (i - n), y.lpoi w (i - n))
     let blk := sbPack mw.toNat rm (els.map fun e => (tyFmt ty).unpack e.1)
     exec (.vpackSb d a mw ty rm) s = .next (if els.any (·.2) then s1.putV 4 d (ones 256 64) 0xFF#2048 (ones 64 16) 0#11
       else s1.putV 4 d (ones 256 64) (BitVec.ofNat 2048 blk.1) 0#64 blk.2))
  ∧ (let blk := x.val.toNat % 2 ^ 512
     let sb := isSb (blkFmt blk)
     let cnt := if sb then sbCount (blkFmt blk - 0xB0) else if w = 32 then 48 else 96
     let el (i : Nat) : Option LRes := some (if i < cnt then unpackLane ty rm x blk i else ⟨0, false, 0#11⟩)
     let row (o : Nat) : RowW := RowW.of w ((upto 0 n).map fun i => el (o + i))
     let lop := if blkFmt blk = 0xFF then ones 64 48 else (row 0).poi
     (sbOk blk 8 = false → exec (.vunpackSb d a ty rm) s = .next (s.raise { cause := 0x09, slot := s1.slot }))
     ∧ (sbOk blk 8 = true → exec (.vunpackSb d a ty rm) s = .next (
          if n < cnt then s1.later 4 [.vrow d.toNat (row 0).en (row 0).val lop, .vrow (d.toNat + 1) (row n).en (row n).val (row n).poi] ((row 0).fl ||| (row n).fl) true
          else s1.putV 4 d (row 0).en (row 0).val lop (row 0).fl)))

/-- R137, R138, R142, R143, R147, R159: a lease request joins the requesters, in flight on its token; a core that holds the lease or has a
request pending takes a lease fault. unlease, accz and the accumulation mode land one cycle later. What lands: a +0 in every row of one
accumulator, the mode, the end of the lease; the end of a pending request, by which its token's in-flight count falls by 1 and its arrived count stands.

R139, R144, R145, R162, R206: lwt moves BT beats of 32 bytes of every slice into latch W from its start, one a cycle, on the vertical
buses and the latch path: none of these, and no array read of the latch, may be in use then. It counts under the grant. That the latch is ready
BT + 2 cycles after the start, where R144 and R162 differ, is the model's choice (log entry 118). -/
def Obligations.LeaseLatchAndModes : Prop := (
  ∀ (s : State) (k : BitVec 5) (acc : Bool) (t c n : Nat) (p : Pend),
  let held : Prop := s.here.leaseCore = some s.curC ∨ ∃ j, (s.curC, j) ∈ s.here.leaseReq
  (¬held → s.TokenFree k →
    exec (.lease k) s = .next ((s.posting k).upHere fun x => { x with leaseReq := x.leaseReq ++ [(s.curC, k.toNat)] }))
  ∧ (held → exec (.lease k) s = .next (s.raise { cause := 0x06, slot := s.slot }))
  ∧ exec .unlease s = .next (s.later 1 [.unlease])
  ∧ exec (.accz acc) s = .next (s.later 1 [.accz acc])
  ∧ exec .amodeWrap s = .next (s.later 1 [.amode false]) ∧ exec .amodeSat s = .next (s.later 1 [.amode true])
  ∧ ((s.landEff t c p (.accz acc)).coreAt t c).vreg n
      = (if (n < 64 ∧ acc = false) ∨ (64 ≤ n ∧ acc = true) then ⟨0#2048, 0#64⟩ else (s.coreAt t c).vreg n)
  ∧ ((s.landEff t c p (.amode acc)).coreAt t c).satm = acc
  ∧ ((s.landEff t c p .unlease).tile t).leaseCore = (if (s.tile t).leaseCore = some c then none else (s.tile t).leaseCore)
  ∧ ((s.landEff t c p .unlease).tile t).leaseReq = (s.tile t).leaseReq.filter (fun r => r.1 != c)
  ∧ ((s.tile t).leaseReq.filter (fun r => r.1 == c) = [(c, n)] →
      ((s.landEff t c p .unlease).coreAt t c).token n = { (s.coreAt t c).token n with infl := ((s.coreAt t c).token n).infl - 1 }
      ∧ ∀ j, j ≠ n → ((s.landEff t c p .unlease).coreAt t c).token j = (s.coreAt t c).token j))
  ∧ (
  ∀ (s : State) (w : BitVec 2) (ar : BitVec 4) (bt : BitVec 7) (st : BitVec 9) (c : Nat),
  let a := s.core.bank.areg ar.toNat
  let o := a.val.toNat
  let n := bt.toNat
  let x := s.here
  let now := s.tcyc s.curT
  let b := now + (c - s.clock)
  s.here.leaseCore = some s.curC → Access a o (32 * n) 32 393216 → s.StartsAt st c →
  (∀ r ∈ x.lwtSpans, ¬(r.1 ≤ b ∧ b ≤ r.2)) → sget 0 x.latchRead w.toNat ≤ b →
  (∀ p ∈ x.paths, ∀ j < 64, p.onBus j b (b + n - 1) = false) →
    exec (.lwt w ar bt st) s = .next (
      let t := s.upHere fun x => { x with
        lwtSpans := (x.lwtSpans.filter fun r : Nat × Nat => decide (now ≤ r.2)) ++ [(b, b + n - 1)]
        latchRdy := sset 0 x.latchRdy w.toNat (max (sget 0 x.latchRdy w.toNat) (b + n + 2)) }
      let u := t.upHere fun x => { x with paths := x.paths ++ [{ s.newPath 3 c (n - 1) with addr := o, w := w.toNat, bt := n }] }
      u.upCore fun y => { y with cmds := y.cmds + 1 }))

/-- R139, R150 to R158, R162: an array command whose lease, address, latch and array are in order enters the paths of the tile; it keeps the
array busy for its rows, holds the latch to its end and opens its accumulator. With no start offset it starts now: the mode and the latch
are those of this cycle. A gmma needs a gang, and its distance delays its results by 16 + 3·GH cycles; a receiver reads no row and no
address register of its own. That its delay is no part of the span for which the array is busy is the model's choice (log entry 106). -/
def Obligations.ArrayCommands : Prop := ∀ (s : State) (acc : Bool) (w : BitVec 2) (ar : BitVec 4) (bt : BitVec 7) (ty : BitVec 4) (st : BitVec 9) (c : Nat),
  let a := s.core.bank.areg ar.toNat
  let ea := a.val.toNat
  let n := bt.toNat
  let len := n * arrRowBytes ty.toNat
  let b := s.tcyc s.curT + (c - s.clock)
  let ok : Prop := s.here.leaseCore = some s.curC ∧ s.StartsAt st c ∧ (c = s.clock → s.here.latchFits ty.toNat w.toNat = true)
    ∧ (∀ r ∈ s.here.arrSpans, ¬(r.1 ≤ b ∧ b ≤ r.2)) ∧ sget 0 s.here.latchRdy w.toNat ≤ b
  let out (kind g : Nat) (recv : Bool) : State :=
    let hi := b + arrBusy ty.toNat n - 1
    let dg := if g = 0 then 0 else 3 * g + 16
    let p : Path := { s.newPath kind c (dg + arrLast ty.toNat n) with
      acc := acc, w := w.toNat, addr := ea, bt := n, ty := ty.toNat, dg := dg, recv := recv, gn := s.here.gangN }
    let p := if c = s.clock then p.begin s.here s.core.satm else p
    let t := s.upHere fun x => { x with
      arrSpans := (x.arrSpans.filter fun r : Nat × Nat => decide (s.tcyc s.curT ≤ r.2)) ++ [(b, hi)]
      latchRead := sset 0 x.latchRead w.toNat (max (sget 0 x.latchRead w.toNat) (hi + 1))
      gangN := if kind = 2 then x.gangN + 1 else x.gangN }
    let u := (t.upHere fun x => { x with paths := x.paths ++ [p] }).upCore fun y => { y with cmds := y.cmds + 1 }
    let no := 8 * t.core.seq + t.slot
    u.upCore fun y => if acc then { y with acc1 := y.acc1 ++ [(no, n)] } else { y with acc0 := y.acc0 ++ [(no, n)] }
  let gh := (s.here.gang.extractLsb' 22 4).toNat
  let source : Prop := Access a ea len 64 0x600000 ∧ s.ClearOf 0 ea len
  (ok → source →
    exec (.mma acc w ar bt ty st) s = .next (out 0 0 false) ∧ exec (.mmaz acc w ar bt ty st) s = .next (out 1 0 false)
    ∧ (s.here.gang.getLsbD 31 = true → s.here.gang.extractLsb' 13 4 = 0#4 → exec (.gmma acc w ar bt ty st) s = .next (out 2 gh false)))
  ∧ (ok → s.here.gang.getLsbD 31 = true → s.here.gang.extractLsb' 13 4 ≠ 0#4 →
      exec (.gmma acc w ar bt ty st) s = .next (out 2 gh true))
  ∧ (s.here.leaseCore ≠ some s.curC → ∀ i, i ∈ [Instr.mma acc w ar bt ty st, .mmaz acc w ar bt ty st, .gmma acc w ar bt ty st, .lwt w ar bt st] →
      exec i s = .next (s.raise { cause := 0x06, slot := s.slot }))
  ∧ (s.here.leaseCore = some s.curC → s.here.gang.getLsbD 31 = false →
      exec (.gmma acc w ar bt ty st) s = .next (s.raise { cause := 0x07, slot := s.slot }))

/-- R160, R161, R162, R164, R206: accld and accret move RW+1 rows, one a cycle from their start, on the core's retire path, which must be
free. The rows read in tile memory are checked at issue. An accld opens its accumulator. Held by a start offset, the command has done
nothing yet; without one its first row is read in the issue cycle. -/
def Obligations.AccumulatorMoves : Prop := ∀ (s : State) (acc : Bool) (ar cv : BitVec 4) (rw : BitVec 6) (st : BitVec 9) (c : Nat),
  let a := s.core.bank.areg ar.toNat
  let ea := a.val.toNat
  let n := rw.toNat + 1
  let len := n * (64 * cvBytes cv.toNat)
  let b := s.tcyc s.curT + (c - s.clock)
  let path (kind : Nat) : Path := { s.newPath kind c (n + 3) with acc := acc, addr := ea, bt := n, ty := cv.toNat }
  let no := 8 * s.core.seq + s.slot
  let busy (y : Core) : Core := { y with retSpans := (y.retSpans.filter fun r : Nat × Nat => decide (s.tcyc s.curT ≤ r.2)) ++ [(b, b + n - 1)] }
  let open' (y : Core) : Core := if acc then { y with acc1 := y.acc1 ++ [(no, n)] } else { y with acc0 := y.acc0 ++ [(no, n)] }
  let enter (kind : Nat) (f : Core → Core) : State := (s.upCore f).upHere fun x => { x with paths := x.paths ++ [path kind] }
  let ld := enter 4 fun y => open' (busy y)
  let ret := enter 5 busy
  Access a ea len 64 0x600000 → s.ClearOf 0 ea len → s.StartsAt st c → (∀ r ∈ s.core.retSpans, ¬(r.1 ≤ b ∧ b ≤ r.2)) →
    exec (.accld acc ar cv rw st) s = .next (if c = s.clock then ld.upHere fun x => x.ldRow (path 4) 0 else ld)
    ∧ exec (.accret acc ar cv rw st) s = .next (if c = s.clock then ret.upCore fun y => y.retRead (path 5) 0 else ret)

/-- R59, R111, R114, R165 to R171: tev's lanes land after 14 cycles: a function of the ROM, or a user table under the table and the
configuration in force at issue, whose segment's poison rides with the lane.

R172, R173: tld reads 32 lines of tile memory at issue + 2 to issue + 33 into the table's shadow, which the switch at issue + 34 makes the
table, with the post; a table whose load is pending, one that a conflict stopped too,
is a schedule fault. tcfg lands after one cycle; a word out of order is a table fault. -/
def Obligations.TableForms : Prop := (
  ∀ (s s1 : State) (d a : BitVec 7) (fn : BitVec 4) (ty : BitVec 2) (k : BitVec 3) (x : VRow),
  readV a s = .ok (x, s1) →
  let f := tevFmt ty
  let m := s1.core.mreg k.toNat
  let put (g : Nat → LRes) : State := s1.putRow 14 d (RowW.of f.width (maskLanes (2048 / f.width) m g))
  (fn.toNat < 12 → exec (.tev d a fn ty k) s = .next (put fun i =>
    let r := romFn f fn.toNat ty (x.lane f.width i); ⟨r.1, x.lpoi f.width i, r.2⟩))
  ∧ (12 ≤ fn.toNat → exec (.tev d a fn ty k) s = .next (put fun i =>
    let tb := fn.toNat - 12
    let r := userFn f (s1.core.segment tb) (s1.core.tableCfg tb) (x.lane f.width i)
    ⟨r.1.1, x.lpoi f.width i || (match r.2 with | some j => s1.core.segPoi tb j | none => false), r.1.2⟩)))
  ∧ (
  ∀ (s s1 : State) (tb : BitVec 2) (ar : BitVec 4) (k : BitVec 5) (r : BitVec 6) (x : PWord),
  let a := s.core.bank.areg ar.toNat
  let ea := a.val.toNat
  let busy : Prop := ∃ p ∈ s.core.pend, ∃ j, Eff.tldSwitch tb.toNat j ∈ p.effs ∨ Eff.tldDone tb.toNat j ∈ p.effs
  (Access a ea 2048 64 0x600000 → s.ClearOf 0 ea 2048 → s.TokenFree k →
    (¬busy → exec (.tld tb ar k) s = .next ((upto 0 32).foldl (fun t i => t.laterPart (2 + i) [.tldLine tb.toNat i (ea + 64 * i)])
      ((s.posting k).later 34 [.tldSwitch tb.toNat k.toNat])))
    ∧ (busy → exec (.tld tb ar k) s = .next (s.raise { cause := 0x0B, slot := s.slot })))
  ∧ (readS r s = .ok (x, s1) →
      (x.poi = false → tcfgOk x.val = true → exec (.tcfg tb r) s = .next (s1.later 1 [.tcfg tb.toNat x]))
      ∧ (x.poi = true ∨ tcfgOk x.val = false → exec (.tcfg tb r) s = .next (s.raise { cause := 0x19, slot := s1.slot }))))

/-- R176, R179, R198, R226: a summary command that finds its token free and room among the 16 of its core's queue enters the queue with the
operands it read at issue. A query's scalar destination is tracked in strict mode; a queue destination reserves its SDQ entry now. With the
queue full it is a schedule fault. The range that an sktop tracks, as the commands before it leave its slot, is the model's choice (log entry 56). -/
def Obligations.SummaryCommands : Prop := ∀ (s s1 : State) (z zs : BitVec 3) (size : BitVec 2) (k : BitVec 5) (r d : BitVec 6) (v : BitVec 7) (mk : BitVec 3)
    (ar : BitVec 4) (x : PWord) (row : VRow),
  let put (t : State) (f : SumCmd → SumCmd) : State := t.upCore fun y => { y with sumQ := y.sumQ ++ [f
    { op := 0, k := k.toNat, mon := t.core.inMon, id := t.core.seq, slot := t.slot, pc := t.core.pc, issue := t.tcyc t.curT }] }
  let room (t : State) : Prop := t.TokenFree k ∧ t.core.sumQ.length < 16
  let enter (f : SumCmd → SumCmd) : State := put (s.posting k) f
  let a := s.core.bank.areg ar.toNat
  let ea := a.val.toNat
  let query (t : State) (f : SumCmd → SumCmd) : State :=
    if t.core.sAlias d then put ((t.upCore fun c => c.setBank (c.bank.reserveSdq false)).posting k) fun c => { f c with q := some t.core.bank.sdqSeq }
    else put ((t.posting k).tracking (if t.core.inMon then 3 else 2) d.toNat 1 k) f
  (room s →
    exec (.skinitQs z size k) s = .next (enter fun c => { c with op := 0x10, z := z.toNat, x := 1, y := 3 + size.toNat })
    ∧ exec (.skinitHh z size k) s = .next (enter fun c => { c with op := 0x10, z := z.toNat, x := 2, y := 6 + size.toNat })
    ∧ exec (.skinitDc z size k) s = .next (enter fun c => { c with op := 0x10, z := z.toNat, x := 3, y := 10 + size.toNat })
    ∧ exec (.skmerge z zs k) s = .next (enter fun c => { c with op := 0x13, z := z.toNat, x := zs.toNat })
    ∧ exec (.skclr z k) s = .next (enter fun c => { c with op := 0x1A, z := z.toNat, x := 0 })
    ∧ (s.RecordFree → exec (.skcard d z k) s = .next (query s fun c => { c with op := 0x16, z := z.toNat, x := d.toNat }))
    ∧ (Access a ea 4096 64 0x600000 →
        (s.ClearOf 0 ea 4096 → exec (.skld z ar k) s = .next (enter fun c => { c with op := 0x18, z := z.toNat, addr := ea }))
        ∧ (s.RecordFree → exec (.skst z ar k) s = .next (put ((s.posting k).tracking 0 ea 4096 k) fun c => { c with op := 0x19, z := z.toNat, addr := ea })))
    ∧ (ea % 64 = 0 → a.poi = false → s.RecordFree →
        exec (.sktop z ar k) s = .next (put ((s.posting k).tracking 0 ea (s.core.topAhead z.toNat) k (2 * (8 * s.core.seq + s.slot) + 2)) fun c => { c with op := 0x17, z := z.toNat, addr := ea })))
  ∧ (readS r s = .ok (x, s1) → room s1 →
      exec (.skseed r k) s = .next (put (s1.posting k) fun c => { c with op := 0x11, scal := x })
      ∧ (s1.RecordFree →
          exec (.skq d z r k) s = .next (query s1 fun c => { c with op := 0x14, z := z.toNat, x := d.toNat, scal := x })
          ∧ exec (.skrank d z r k) s = .next (query s1 fun c => { c with op := 0x15, z := z.toNat, x := d.toNat, scal := x })))
  ∧ (readV v s = .ok (row, s1) → room s1 →
      exec (.skfold z v mk k) s = .next (put (s1.posting k) fun c => { c with op := 0x12, z := z.toNat, vrow := row, mask := s1.core.mreg mk.toNat }))
  ∧ (s.TokenFree k → 16 ≤ s.core.sumQ.length → ∀ i, i ∈ [Instr.skinitQs z size k, .skinitHh z size k, .skinitDc z size k, .skmerge z zs k, .skclr z k] →
      exec i s = .next (s.raise { cause := 0x0B, slot := s.slot }))
  ∧ (s.TokenFree k → s.RecordFree → 16 ≤ s.core.sumQ.length →
      let full (i : Instr) : Prop := exec i s = .next (s.raise { cause := 0x0B, slot := s.slot })
      full (.skcard d z k) ∧ (Access a ea 4096 64 0x600000 → full (.skst z ar k) ∧ (s.ClearOf 0 ea 4096 → full (.skld z ar k)))
      ∧ (ea % 64 = 0 → a.poi = false → full (.sktop z ar k)))
  ∧ (s1.TokenFree k → s1.RecordFree → 16 ≤ s1.core.sumQ.length →
      let full (i : Instr) : Prop := exec i s = .next (s.raise { cause := 0x0B, slot := s1.slot })
      (readS r s = .ok (x, s1) → full (.skseed r k) ∧ full (.skq d z r k) ∧ full (.skrank d z r k))
      ∧ (readV v s = .ok (row, s1) → full (.skfold z v mk k)))

/-- R206, R210, R243, R244: a copy whose addresses, length and token are in order enters the engine's queue of 32, in flight on its token;
one of length 0 posts one cycle after its start. A start offset holds it until its start. -/
def Obligations.Copies : Prop := ∀ (s s1 : State) (k : BitVec 5) (ad asr : BitVec 4) (ln : BitVec 6) (dt : Bool) (st : BitVec 9) (c : Nat) (l : PWord),
  readS ln s = .ok (l, s1) →
  let d := s.core.bank.areg ad.toNat
  let a := s.core.bank.areg asr.toNat
  let len := l.val.toNat
  let size (tile : Bool) : Nat := if tile then 0x600000 else 0x1800000
  let ok (dt : Bool) : Prop :=
    len % 64 = 0 ∧ len ≤ 6291456 ∧ l.poi = false ∧ Access d d.val.toNat len 64 (size dt) ∧ Access a a.val.toNat len 64 (size !dt)
    ∧ s1.ClearOf (if dt then 1 else 0) a.val.toNat len ∧ s1.ClearOf (if dt then 0 else 1) d.val.toNat len
    ∧ s1.StartsAt st c ∧ s1.TokenFree k ∧ s1.RecordFree ∧ s1.here.copyQ.length < 32
  let out (dt : Bool) (red : Nat) : State :=
    let t := (s1.posting k).tracking (if dt then 0 else 1) d.val.toNat len k
    if len = 0 then (if c = t.clock then t.later 1 [.post k.toNat 0] else t.holding c 1 (.post k.toNat 0))
    else
      let n := t.here.cmdSeq
      let q : CopyCmd := { dt := dt, red := red, dst := d.val.toNat, src := a.val.toNat, len := len, core := t.curC, k := k.toNat, n := n
                           held := c != t.clock, start := t.tcyc t.curT + (c - t.clock), issue := t.tcyc t.curT, slot := t.slot, mon := t.core.inMon }
      let u := t.upHere fun x => { x with cmdSeq := n + 1, copyQ := x.copyQ ++ [q] }
      if c = u.clock then u else u.holding c 0 (.startCopy n)
  (ok false → exec (.cpyTd k ad asr ln st) s = .next (out false 0)) ∧ (ok true → exec (.cpyDt k ad asr ln st) s = .next (out true 0))
  ∧ (ok dt → exec (.cpyRedF32 k ad asr ln dt st) s = .next (out dt 1) ∧ exec (.cpyRedBf16 k ad asr ln dt st) s = .next (out dt 2)
      ∧ exec (.cpyRedI32 k ad asr ln dt st) s = .next (out dt 3))

/-- R206, R262 to R265: a send whose channel or group is its core's and of its form, whose payload fits the window, and whose source, token
and start are in order, enters with the channel's SEQ and ring offset; the channel moves on: credit falls by the length, SEQ by one, and the
offset wraps in the receiver's ring. A reduce send takes no credit and leaves the ring offset, which is the model's choice (log entry 125). A
send.rel's packets stay open until acknowledged. A channel out of order is a channel fault. -/
def Obligations.Sends : Prop := ∀ (s : State) (ch : BitVec 8) (g : BitVec 6) (ar : BitVec 4) (ln st : BitVec 9) (c : Nat),
  let a := s.core.bank.areg ar.toNat
  let ea := a.val.toNat
  let n := 64 * ln.toNat
  let d := sget {} s.here.chans ch.toNat
  let e := sget {} s.here.groups g.toNat
  let ring : Prop := d.sv = true ∧ d.score = s.curC ∧ d.grp = false ∧ d.smode = 0 ∧ n ≤ 4096 * 2 ^ d.win
  let red : Prop := d.sv = true ∧ d.score = s.curC ∧ d.grp = false ∧ d.smode = 2 ∧ n ≤ d.ring
  let group : Prop := e.v = true ∧ e.core = s.curC ∧ e.dsts ≠ [] ∧ n ≤ 4096 * 2 ^ e.win
  let ok (tok : Nat) : Prop := Access a ea n 64 0x600000 ∧ s.ClearOf 0 ea n ∧ s.StartsAt st c ∧ s.TokenFree (BitVec.ofNat 5 tok)
  let enter (tok : Nat) (j : SendJob) : State :=
    let t := s.posting (BitVec.ofNat 5 tok)
    let m := t.here.cmdSeq
    let j := { j with n := m, held := c != t.clock, wake := t.tcyc t.curT + (c - t.clock) + 3 }
    let u := t.upHere fun x => { x with cmdSeq := m + 1, sends := x.sends ++ [j] }
    let v := if c = u.clock then u else u.holding c 0 (.startSend m)
    if v.core.inMon then v else v.upCore fun y => { y with sideEff := true }
  let base : SendJob := { n := 0, core := s.curC, kind := 1, cls := d.cls + 4, dch := d.dch, dest := d.dest, tok := some d.stok, addr := ea, len := n
                          seq := d.sq, so := d.so, ring := d.ring, wake := 0 }
  let moved (take : Bool) (x : Tile) : Tile := { x with chans := sset {} x.chans ch.toNat (let y := sget {} x.chans ch.toNat
    { y with cr := if take then y.cr - n else y.cr, sq := (y.sq + 1) % 2 ^ 32, so := if take then (y.so + n) % y.ring else y.so }) }
  (ring → ok d.stok →
    exec (.send ch ar ln st) s = .next ((enter d.stok base).upHere (moved true))
    ∧ exec (.sendRel ch ar ln st) s = .next ((enter d.stok { base with rel := true }).upHere fun x =>
        let y := moved true x; { y with rels := y.rels ++ [⟨s.curC, d.stok, d.dch, d.dest, d.sq, (n + 511) / 512⟩] }))
  ∧ (red → ok d.stok → exec (.sendr ch ar ln st) s = .next ((enter d.stok { base with kind := 2 }).upHere (moved false)))
  ∧ (group → ok e.stok →
      exec (.sendM g ar ln st) s = .next ((enter e.stok { base with cls := e.cls + 4, dch := e.dch, dest := e.dsts.headD 0, dests := e.dsts, tok := some e.stok, seq := e.sq, so := e.so, ring := e.ring }).upHere fun x =>
        { x with groups := sset {} x.groups g.toNat (let y := sget {} x.groups g.toNat
          { y with cr := y.cr.map (· - n), sq := (y.sq + 1) % 2 ^ 32, so := (y.so + n) % y.ring }) }))
  ∧ (¬ring → exec (.send ch ar ln st) s = .next (s.raise { cause := 0x15, slot := s.slot })
      ∧ exec (.sendRel ch ar ln st) s = .next (s.raise { cause := 0x15, slot := s.slot }))
  ∧ (¬red → exec (.sendr ch ar ln st) s = .next (s.raise { cause := 0x15, slot := s.slot }))
  ∧ (¬group → exec (.sendM g ar ln st) s = .next (s.raise { cause := 0x15, slot := s.slot }))

/-- R271, R277, R292, R294: arming a ring, arming and posting a collective-queue entry, holding and releasing a side block, and the decode
record: each is checked at issue, with a fault of its own, and lands one cycle later; a dec.cfg waits for its asynchronous read. From the issue
of a side.add on, what is written to its block is noted (R293). What other tiles could see of it cannot be repeated by a replay (R420). -/
def Obligations.FabricControls : Prop := ∀ (s s1 s2 : State) (ch e : BitVec 8) (k : BitVec 5) (r b l : BitVec 6) (ar : BitVec 4) (x y : PWord),
  let mark (t : State) : State := if t.core.inMon then t else t.upCore fun c => { c with sideEff := true }
  let ring : Chan := sget {} s1.here.chans ch.toNat
  let own (t : State) : Prop := let q := sget {} t.here.cq e.toNat; q.v = true ∧ 1 ≤ q.kind ∧ q.kind ≤ 3 ∧ q.core = t.curC ∧ q.st ≠ 2
  let armable : Prop := ring.rv = true ∧ ring.mode = 0 ∧ ring.rcore = s1.curC ∧ x.val.toNat % 64 = 0 ∧ x.val.toNat ≤ ring.u ∧ x.poi = false
  let a := s.core.bank.areg ar.toNat
  let a1 := s1.core.bank.areg ar.toNat
  let n := y.val.toNat
  let held (t : State) : List Word := t.here.sideBids
  (readS r s = .ok (x, s1) →
    (armable → exec (.recvArm ch r) s = .next (if x.val.toNat = 0 then s1 else s1.later 1 [.armRing ch.toNat x.val.toNat]))
    ∧ (¬armable → exec (.recvArm ch r) s = .next (s.raise { cause := 0x15, slot := s1.slot }))
    ∧ (own s1 → x.val.toNat < 65536 → x.poi = false → exec (.qarm e k r) s = .next (mark (s1.later 1 [.qarm e.toNat k.toNat x.val])))
    ∧ (¬own s1 ∨ 65536 ≤ x.val.toNat ∨ x.poi = true → exec (.qarm e k r) s = .next (s.raise { cause := 0x14, slot := s1.slot })))
  ∧ (own s → exec (.qpost e) s = .next (mark (s.later 1 [.qpost e.toNat])))
  ∧ (¬own s → exec (.qpost e) s = .next (s.raise { cause := 0x14, slot := s.slot }))
  ∧ (readS b s = .ok (x, s1) →
      (readS l s1 = .ok (y, s2) → x.poi = false → x.val ∉ held s2 → (held s2).length < 256 →
        n % 64 = 0 → 64 ≤ n → n ≤ 32768 → Access a1 a1.val.toNat n 64 0x600000 → y.poi = false →
          exec (.sideAdd b ar l) s = .next (mark ((s2.upHere fun t => { t with
            adding := t.adding.filter (fun d => d.bid != x.val) ++ [{ held := true, addr := a1.val.toNat, bid := x.val, len := n / 64 }] }).later 1
              [.sideAdd x.val a1.val.toNat (n / 64)])))
      ∧ (readS l s1 = .ok (y, s2) → x.poi = true ∨ x.val ∈ held s2 ∨ 256 ≤ (held s2).length →
          exec (.sideAdd b ar l) s = .next (s.raise { cause := 0x17, slot := s2.slot }))
      ∧ (x.poi = false → x.val ∈ held s1 → exec (.sideRel b) s = .next (mark (s1.later 1 [.sideRel x.val])))
      ∧ (x.poi = true ∨ x.val ∉ held s1 → exec (.sideRel b) s = .next (s.raise { cause := 0x17, slot := s1.slot })))
  ∧ (Access a a.val.toNat 16 16 0x600000 →
      exec (.decCfg ar) s = .next (mark (s.upHere fun t => { t with decCfgQ := t.decCfgQ ++ [(a.val.toNat, s.tcyc s.curT + 1)] })))

/-- R260, R261, R283, R319, R330 to R334: a route word lands one cycle later, if its index is 0 or one of Rotrum's 0x100 to 0x1FF and its
reserved bits are zero: else a route fault. A core arrives at a valid barrier from NONE; bar.wait arrives, waits, or passes from RELEASED to NONE.

R318, R319: nxt yields the next item of the core's work generator after 24 cycles and moves its index on by the stride in the next cycle;
at the limit, or past row 0xFFFE, it yields all ones and the index stands. -/
def Obligations.RoutesBarriersAndWork : Prop := (
  ∀ (s s1 s2 : State) (cl : BitVec 2) (i v b : BitVec 6) (x y : PWord),
  (readS i s = .ok (x, s1) → readS v s1 = .ok (y, s2) →
    let res : Word := if x.val = 0#32 then 0xFFFFFFF0#32
      else match x.val.toNat % 4 with | 0 => 0x7#32 | 1 => 0xFFFF#32 | 2 => 0x80000007#32 | _ => 0xFFFFFF00#32
    let ok : Prop := x.poi = false ∧ y.poi = false ∧ (x.val = 0#32 ∨ (0x100 ≤ x.val.toNat ∧ x.val.toNat ≤ 0x1FF)) ∧ y.val &&& res = 0#32
    (ok → exec (.route cl i v) s = .next (let t := s2.later 1 [.route (cl.toNat + 4) x.val.toNat y.val]
      if t.core.inMon then t else t.upCore fun c => { c with sideEff := true }))
    ∧ (¬ok → exec (.route cl i v) s = .next (s.raise { cause := 0x16, slot := s2.slot })))
  ∧ (let valid := (sget 0#32 s.here.barE (64 * s.curC + b.toNat)).getLsbD 31
     let st := sget 0 s.core.bars b.toNat
     let bar (n : Nat) : State := s.upCore fun c => { c with bars := sset 0 c.bars b.toNat n }
     (valid = true → st = 0 → exec (.barArr b) s = .next (bar 1) ∧ exec (.barWait b) s = .next (bar 1))
     ∧ (valid = true → st = 1 → exec (.barWait b) s = .next s) ∧ (valid = true → 2 ≤ st → exec (.barWait b) s = .next (bar 0))
     ∧ (valid = false ∨ st ≠ 0 → exec (.barArr b) s = .next (s.raise { cause := 0x1D, slot := s.slot }))
     ∧ (valid = false → exec (.barWait b) s = .next (s.raise { cause := 0x1D, slot := s.slot }))))
  ∧ (
  ∀ (s : State) (d : BitVec 6),
  let i := s.core.wnext.toNat
  let w := s.core.wcfg.toNat % 65536 + 1
  let next := min (i + s.core.wcfg.toNat / 65536 + 1) 0xFFFFFFFF
  (i < s.core.wlim.toNat → i / w ≤ 0xFFFE → exec (.nxt d) s
      = .next ((s.laterPart 1 [.wnext (BitVec.ofNat 32 next)]).putS 24 d ⟨BitVec.ofNat 32 (i / w * 65536 + i % w), false⟩))
  ∧ (s.core.wlim.toNat ≤ i ∨ 0xFFFF ≤ i / w → exec (.nxt d) s = .next (s.putS 24 d ⟨0xFFFFFFFF#32, false⟩)))

/-- R320 to R323, R327: transfers. The next bundle is at PC + 4·OFF, or at a leaf's target of the br.tree record; br.c transfers where its
predicate differs from its negate bit. A transfer in a loop must stay inside the body and may not stand in its last bundle, where a call may not
stand either: else a loop fault. The seventeenth call is a call-stack fault. A poisoned predicate of br.c is consumed; that the loop fault of the
transfer that its value takes comes before it is the model's choice (log entry 59).

R217, R322: ret goes to the address of the last call, with no loop of the callee left open, else a loop fault, and none of tokens 16 to 27 in
flight, else a token fault; without a call it is a call-stack fault. In the monitor, what the task has called is not open (the model's reading, log 28). -/
def Obligations.TransfersAndReturns : Prop := (
  ∀ (s : State) (off : BitVec 24) (o21 : BitVec 21) (n : Bool) (p : BitVec 3) (leaf tgt : Nat),
  let far (w : Nat) (o : BitVec w) : Nat := (BitVec.ofNat 24 s.core.pc + 4#24 * o.signExtend 24).toNat
  let next := (s.core.pc + 4 * s.words.length) % 2 ^ 24
  let go (a : Nat) : State := s.upCore fun c => { c with npc := a % 2 ^ 24, jumped := true }
  let free (a : Nat) : Prop := ∀ l, s.core.inner = some l → l.stop ≠ next ∧ l.start ≤ a ∧ a < l.stop
  let out (l : LoopE) (a : Nat) : Prop := s.core.inner = some l ∧ (l.stop = next ∨ a < l.start ∨ l.stop ≤ a)
  let fault (l : LoopE) : Host.Outcome State Fault Refusal := .next (s.raise
    { cause := 0x1B, slot := s.slot, i0 := BitVec.ofNat 32 l.pc, i1 := BitVec.ofNat 32 s.core.loops.length })
  let x := s.core.bank.preg p.toNat
  (free (far 24 off) → exec (.br off) s = .next (go (far 24 off)))
  ∧ (∀ l, out l (far 24 off) → exec (.br off) s = fault l)
  ∧ (x.poi = false → x.val = n → exec (.brC n p off) s = .next s)
  ∧ (x.poi = false → x.val ≠ n → free (far 24 off) → exec (.brC n p off) s = .next (go (far 24 off)))
  ∧ (x.poi = true → x.val = n ∨ free (far 24 off) → exec (.brC n p off) s = .next (s.raise { cause := 0x1E, slot := s.slot }))
  ∧ (∀ l, x.val ≠ n → out l (far 24 off) → exec (.brC n p off) s = fault l)
  ∧ (s.leaf = none → exec (.brTree o21) s = .next (s.raise { cause := 0x04, slot := s.slot }))
  ∧ (s.leaf = some leaf → treeTarget s.here s.core.inMon s.slot (far 21 o21) leaf = .ok tgt → 
      (free tgt → exec (.brTree o21) s = .next (go tgt)) ∧ ∀ l, out l tgt → exec (.brTree o21) s = fault l)
  ∧ (s.core.calls.length < 16 → (∀ l, s.core.inner = some l → l.stop ≠ next) → exec (.call off) s = .next ((go (far 24 off)).upCore fun c =>
      { c with calls := (next, s.core.loops.length + if s.core.inMon then 1000 else 0) :: c.calls }))
  ∧ (s.core.calls.length < 16 → ∀ l, s.core.inner = some l → l.stop = next → exec (.call off) s = fault l)
  ∧ (16 ≤ s.core.calls.length → exec (.call off) s = .next (s.raise { cause := 0x1A, slot := s.slot })))
  ∧ (
  ∀ (s : State) (a d : Nat) (r : List (Nat × Nat)),
  s.core.calls = (a, d) :: r →
  let loops := s.core.loops.length
  let out : State := (s.upCore fun c => { c with npc := a % 2 ^ 24, jumped := true }).upCore fun c => { c with calls := r }
  ((s.core.inMon = true → 1000 ≤ d) → loops ≤ d % 1000 → (∀ k, 16 ≤ k → k < 28 → (s.core.token k).infl = 0) → exec .ret s = .next out)
  ∧ ((s.core.inMon = true → 1000 ≤ d) → d % 1000 < loops → exec .ret s = .next (s.raise
      { cause := 0x1B, slot := s.slot, i0 := BitVec.ofNat 32 ((s.core.loops.head?).elim 0 LoopE.pc), i1 := BitVec.ofNat 32 loops }))
  ∧ ((s.core.inMon = true → 1000 ≤ d) → loops ≤ d % 1000 →
      ∀ k, 16 ≤ k → k < 28 → (s.core.token k).infl ≠ 0 → (∀ j, 16 ≤ j → j < k → (s.core.token j).infl = 0) →
        let t := s.core.token k
        exec .ret s = .next (s.raise { cause := 0x0D, slot := s.slot, i0 := BitVec.ofNat 32 (k * 65536 + t.errn * 4096 + t.errc * 256) }))
  ∧ (s.core.inMon = true → d < 1000 → exec .ret s = .next (s.raise { cause := 0x1A, slot := s.slot }))
  ∧ (∀ t : State, t.core.calls = [] → exec .ret t = .next (t.raise { cause := 0x1A, slot := t.slot })))

/-- R324 to R326, R328: a loop bundle opens a loop over the LEN words after it, at most six deep, or goes past it where the trip count is zero
or the test fails; a seventh is a loop fault, a count above MAX a loop-bound fault. brk leaves the innermost loop of this call where its
predicate asks for it; with no loop of this call open it is a loop fault, whatever the predicate. A poisoned trip count and the poisoned predicate
of a loop.w or a brk are consumed. That they are so after the loop and loop-bound faults of their values is the model's choice (log entry 59), and so
is the pre-emption boundary that a brk of a loop.p leaves (log entry 102). -/
def Obligations.Loops : Prop := ∀ (s s1 : State) (r : BitVec 6) (len : BitVec 10) (mx : BitVec 14) (n : Bool) (p : BitVec 3) (x : PWord) (l : LoopE),
  let next (t : State) : Nat := (t.core.pc + 4 * t.words.length) % 2 ^ 24
  let go (t : State) (a : Nat) : State := t.upCore fun c => { c with npc := a % 2 ^ 24, jumped := true }
  let opened (t : State) (count : Nat) (whl : Option (Nat × Bool)) (pre : Bool) : State :=
    let e : LoopE := { start := next t, stop := (next t + 4 * len.toNat) % 2 ^ 24, pc := t.core.pc, n := count, mx := mx.toNat, whl := whl, pre := pre
                       depth := t.core.depth }
    (go t (next t)).upCore fun c => { c with loops := e :: c.loops }
  let count := x.val.toNat
  let q := s.core.bank.preg p.toNat
  (readS r s = .ok (x, s1) →
    (count ≠ 0 → count ≤ mx.toNat → x.poi = false → s1.core.loops.length < 6 →
      exec (.loop r len mx) s = .next (opened s1 count none false) ∧ exec (.loopP r len mx) s = .next (opened s1 count none true))
    ∧ (count = 0 → x.poi = false →
      exec (.loop r len mx) s = .next (go s1 (next s1 + 4 * len.toNat)) ∧ exec (.loopP r len mx) s = .next (go s1 (next s1 + 4 * len.toNat)))
    ∧ ∀ i, i ∈ [Instr.loop r len mx, .loopP r len mx] →
      (mx.toNat < count → s1.core.loops.length < 6 → exec i s = .next (s.raise
        { cause := 0x1C, slot := s1.slot, i0 := BitVec.ofNat 32 s1.core.pc, i1 := BitVec.ofNat 32 (s1.core.loops.length + 1) }))
      ∧ (count ≠ 0 → 6 ≤ s1.core.loops.length → exec i s = .next (s.raise
        { cause := 0x1B, slot := s1.slot, i0 := BitVec.ofNat 32 s1.core.pc, i1 := 6#32 }))
      ∧ (x.poi = true → count ≤ mx.toNat → count = 0 ∨ s1.core.loops.length < 6 → exec i s = .next (s.raise { cause := 0x1E, slot := s1.slot })))
  ∧ (q.poi = false → q.val ≠ n → s.core.loops.length < 6 → exec (.loopW n p len mx) s = .next (opened s 0 (some (p.toNat, n)) false))
  ∧ (q.poi = false → q.val = n → exec (.loopW n p len mx) s = .next (go s (next s + 4 * len.toNat)))
  ∧ (q.val ≠ n → 6 ≤ s.core.loops.length →
      exec (.loopW n p len mx) s = .next (s.raise { cause := 0x1B, slot := s.slot, i0 := BitVec.ofNat 32 s.core.pc, i1 := 6#32 }))
  ∧ (q.poi = true → q.val = n ∨ s.core.loops.length < 6 → exec (.loopW n p len mx) s = .next (s.raise { cause := 0x1E, slot := s.slot }))
  ∧ (s.core.inner = some l → q.poi = false → q.val ≠ n →
      exec (.brk n p) s = .next (s.upCore fun c => { c with loops := c.loops.tail, npc := l.stop, preBoundary := l.pre }))
  ∧ (s.core.inner = some l → q.poi = false → q.val = n → exec (.brk n p) s = .next s)
  ∧ (s.core.inner = some l → q.poi = true → exec (.brk n p) s = .next (s.raise { cause := 0x1E, slot := s.slot }))
  ∧ (s.core.inner = none → exec (.brk n p) s = .next (s.raise
      { cause := 0x1B, slot := s.slot, i0 := BitVec.ofNat 32 s.core.pc, i1 := BitVec.ofNat 32 s.core.loops.length }))

/-- R44, R46, R48, R207, R208, R212, R219, R316, R335: nop and a lend header have no effect; dly sets the distance of the next bundle; phase
notes the mark; wait goes on where its token has counted enough without an error; exit, with no token in flight but for a pending lease request,
ends the task after its bundle; a tree header selects the leaf of the first test that holds; a repeat header starts its repetitions.

R212, R213, R264, R334: a bundle whose wait has not been counted enough, whose bar.wait names a valid barrier not released, or whose send finds
too little credit, stalls: its turn has no effect but the arrival of a bar.wait at its barrier, the monitor's bundles and a task's without an
asynchronous cause alike. A bundle with none of these does not stall. -/
def Obligations.BundleControl : Prop := ∀ (s : State) (cnt n : BitVec 16) (m : BitVec 8) (k : BitVec 5) (l2 l3 l4 : BitVec 9)
    (n0 n1 n2 n3 : Bool) (p0 p1 p2 p3 : BitVec 3) (x y z : BitVec 4) (rep : BitVec 6) (ch : BitVec 8) (g br : BitVec 6) (ar : BitVec 4) (ln st : BitVec 9)
    (ws : List Word) (i : Instr) (pos : Nat),
  let t := s.core.token k.toNat
  let d := sget {} s.here.chans ch.toNat
  let e := sget {} s.here.groups g.toNat
  let size := 64 * ln.toNat
  let short : Prop := d.sv = true ∧ d.score = s.curC ∧ d.grp = false ∧ d.smode = 0 ∧ size ≤ 4096 * 2 ^ d.win ∧ d.cr < size
  let group : Prop := e.v = true ∧ e.core = s.curC ∧ e.dsts ≠ [] ∧ size ≤ 4096 * 2 ^ e.win ∧ ∃ c ∈ e.cr, c < size
  let waits : Prop := (i = .wait k n ∧ t.arr < n.toNat)
    ∨ (i = .barWait br ∧ (sget 0#32 s.here.barE (64 * s.curC + br.toNat)).getLsbD 31 = true ∧ sget 0 s.core.bars br.toNat ≠ 2)
    ∨ ((i = .send ch ar ln st ∨ i = .sendRel ch ar ln st) ∧ short) ∨ (i = .sendM g ar ln st ∧ group)
  let held (u : State) : State := match i with
    | .barWait v => if sget 0 u.core.bars v.toNat = 0 then u.upCore fun c => { c with bars := sset 0 c.bars v.toNat 1 } else u
    | _ => u
  let b (n : Bool) (p : BitVec 3) : Bool := (s.core.bank.preg p.toNat).val != n
  let poi (p : BitVec 3) : Bool := (s.core.bank.preg p.toNat).poi
  let leaf := if b n0 p0 then 0 else if b n1 p1 then 1 else if b n2 p2 then 2 else if b n3 p3 then 3 else 4
  exec .nop s = .next s ∧ exec (.hdrLend l2 l3 l4) s = .next s
  ∧ exec (.dly cnt) s = .next (s.upCore fun c => { c with gap := cnt.toNat + 1 })
  ∧ exec (.phase m) s = .next (s.upHere fun x => { x with marks := if m.toNat ∈ x.marks then x.marks else x.marks ++ [m.toNat] })
  ∧ (t.errn = 0 ∨ t.arr < n.toNat → exec (.wait k n) s = .next s)
  ∧ (t.errn ≠ 0 → n.toNat ≤ t.arr → exec (.wait k n) s = .next (s.raise
      { cause := match t.errc with | 1 => 0x11 | 2 => 0x11 | 3 => 0x12 | 4 => 0x13 | 5 => 0x14 | _ => 0x0D
        slot := s.slot, i0 := BitVec.ofNat 32 (k.toNat * 65536 + t.errn * 4096 + t.errc * 256), tok := some k.toNat }))
  ∧ ((∀ j < 32, (s.core.token j).infl ≤ (s.here.leaseReq.filter fun r => r.1 == s.curC && r.2 == j).length) →
      exec .exit s = .next (s.laterPart 0 [.exit]))
  ∧ ((∀ j, j ∈ [(0, p0), (1, p1), (2, p2), (3, p3)] → j.1 ≤ leaf → poi j.2 = false) →
      exec (.hdrTree n0 p0 n1 p1 n2 p2 n3 p3 x y z) s = .next { s with leaf := some leaf })
  ∧ (poi p0 = true → exec (.hdrTree n0 p0 n1 p1 n2 p2 n3 p3 x y z) s = .next (s.raise { cause := 0x1E, slot := s.slot }))
  ∧ exec (.hdrRep rep x y z) s = .next (s.upCore fun c =>
      if c.repRem = 0 then { c with repRem := rep.toNat + 1, repHdr := s.words.headD 0#32 } else c)
  ∧ (waits → s.stalls i = true
      ∧ (s.raised = none → s.leaf = none → s.core.pastLoop ws.length = none → (s.core.inMon = true ∨ (held s).here.asyncCause s.curC true = none) →
          s.issueBundle ws none [(pos, i)] = .next (held s)))
  ∧ (i ∈ [.wait k n, .barWait br, .send ch ar ln st, .sendRel ch ar ln st, .sendM g ar ln st] → ¬waits → s.stalls i = false)

/-- R350, R357, R359: a read of an assigned register lands one cycle later with the register's value; a write lands one cycle after issue.
Numbers from 0x800 up need the monitor, else a privilege fault with the number; a number that is not assigned is an illegal instruction, and so is a
write of ix0 to ix5; a poisoned value is consumed, but for the mailboxes and the condition words, which carry poison. -/
def Obligations.ControlRegisters : Prop := ∀ (s s1 : State) (d a : BitVec 6) (csr : BitVec 12) (x : PWord) (sa : Word),
  let n := csr.toNat
  let may : Prop := n < 0x800 ∨ s.core.inMon = true
  let carries : Prop := (0x10 ≤ n ∧ n ≤ 0x17) ∨ (0x20 ≤ n ∧ n ≤ 0x2F)
  let mark (t : State) : State := if 0x20 ≤ n ∧ n < 0x30 then (if t.core.inMon then t else t.upCore fun c => { c with sideEff := true }) else t
  (csrAssigned n = true → may → exec (.csrr d csr) s = .next (s.putS 1 d (csrRead s.seen s.curC n)))
  ∧ (csrAssigned n = true → ¬may → exec (.csrr d csr) s = .next (s.raise { cause := 0x02, slot := s.slot, i0 := BitVec.ofNat 32 n })
      ∧ (csrIx n = false → exec (.csrw a csr) s = .next (s.raise { cause := 0x02, slot := s.slot, i0 := BitVec.ofNat 32 n })))
  ∧ (csrAssigned n = false → exec (.csrr d csr) s = .next (s.raise { cause := 0x04, slot := s.slot })
      ∧ exec (.csrw a csr) s = .next (s.raise { cause := 0x04, slot := s.slot }))
  ∧ (0x30 ≤ n → n ≤ 0x35 → exec (.csrw a csr) s = .next (s.raise { cause := 0x04, slot := s.slot }))
  ∧ (csrAssigned n = true → csrIx n = false → may → readS a s = .ok (x, s1) →
      (n ≠ 0x60 → n ≠ 0x809 → x.poi = false ∨ carries → exec (.csrw a csr) s = .next ((mark s1).laterPart 1 [.csr n x]))
      ∧ (n = 0x60 → Access x x.val.toNat 32 32 0x600000 → s.core.crg.length < 16 → exec (.csrw a csr) s = .next (s1.laterPart 1 [.csr 0x60 x]))
      ∧ (n = 0x809 → x.poi = false → x.val.getLsbD 31 = false → exec (.csrw a csr) s = .next (s1.laterPart 1 [.mctl x.val]))
      ∧ (x.poi = true → ¬carries → (n = 0x60 → x.val.toNat % 32 = 0 ∧ x.val.toNat + 32 ≤ 0x600000) →
          exec (.csrw a csr) s = .next (s.raise { cause := 0x1E, slot := s1.slot })))
  ∧ (sa.toNat % 32 = 0 → sa.toNat + 32 ≤ 0x600000 → s.core.crg.length < 16 → exec (.crgadd sa) s = .next (s.laterPart 1 [.csr 0x60 ⟨sa, false⟩]))
  ∧ (sa.toNat % 32 = 0 → sa.toNat + 32 ≤ 0x600000 → 16 ≤ s.core.crg.length → exec (.crgadd sa) s = .next (s.raise { cause := 0x0B, slot := s.slot }))
  ∧ exec .crgclr s = .next (s.laterPart 1 [.csr 0x61 ⟨0#32, false⟩])

/-- R338, R346 to R348, R359: in the monitor, with none of tokens 28 to 31 in flight, tret leaves it and a kill kills one cycle later; SAVE and
CONT go to the save engine. In a task each of them is a privilege fault.

R3, R351, R352, R370, R401, R402: the cycle counters, whose low halves keep the high half for the other read; entropy, a free value (log 14);
a signature that must agree with the running CRC of a task and clears it; a load hint of 1,024 cycles. That a sig in the monitor has no effect is the
model's choice (log entry 48). -/
def Obligations.MonitorAndCounters : Prop := (
  ∀ (s : State),
  (s.core.inMon = true →
    ((∀ k, 28 ≤ k → k < 32 → (s.core.token k).infl = 0) →
      exec .tret s = .next (s.laterPart 1 [.monExit]) ∧ exec .mctlKill s = .next (s.laterPart 1 [.mctl 0x80000000#32]))
    ∧ exec .mctlSave s = .next (s.laterPart 1 [.mctl 0x40000000#32]) ∧ exec .mctlCont s = .next (s.laterPart 1 [.mctl 0x20000000#32]))
  ∧ (s.core.inMon = false →
    exec .tret s = .next (s.raise { cause := 0x02, slot := s.slot, i0 := 3#32 })
    ∧ ∀ i, i ∈ [Instr.mctlKill, .mctlSave, .mctlCont] → exec i s = .next (s.raise { cause := 0x02, slot := s.slot, i0 := 0x809#32 })))
  ∧ (
  ∀ (s : State) (d : BitVec 6) (c : BitVec 16) (h : BitVec 4),
  let g := s.gcyc + s.haltSum
  let t := s.gcyc - s.here.lag
  exec (.cycGl d) s = .next ((s.upCore fun y => { y with snapG := BitVec.ofNat 32 (g / 2 ^ 32) }).putS 1 d ⟨BitVec.ofNat 32 g, false⟩)
  ∧ exec (.cycGh d) s = .next (s.putS 1 d ⟨s.core.snapG, false⟩)
  ∧ exec (.cycTl d) s = .next ((s.upCore fun y => { y with snapT := BitVec.ofNat 32 (t / 2 ^ 32) }).putS 1 d ⟨BitVec.ofNat 32 t, false⟩)
  ∧ exec (.cycTh d) s = .next (s.putS 1 d ⟨s.core.snapT, false⟩)
  ∧ exec (.ent d) s = .next (let u := s.putS 2 d ⟨Config.entropy s.free, false⟩; { u with free := u.free + 1 })
  ∧ (s.core.inMon = true → exec (.sig c) s = .next s)
  ∧ (s.core.inMon = false → s.core.crc = c → exec (.sig c) s = .next (s.upCore fun y => { y with crc := 0xFFFF#16 }))
  ∧ (s.core.inMon = false → s.core.crc ≠ c → exec (.sig c) s = .next (s.raise { cause := 0x1F, slot := s.slot }))
  ∧ exec (.pwr h) s = .next (s.upCore fun y => { y with hint := h.toNat, hintEnd := t + 1024 }))

/-- R214 to R216, R349, R391: trap lands its cause one cycle later, and bkpt where a session permits breakpoints, else it has no effect; the
token moves read and write counts of a token that has nothing in flight, else they are a token fault. That the commands of the bundle's lower
slots count among those in flight is the model's choice (log entry 30). -/
def Obligations.TrapsAndTokens : Prop := ∀ (s s1 : State) (c : BitVec 8) (k : BitVec 5) (r : BitVec 6) (n : BitVec 16) (x : PWord),
  let seen := s.seenCore.token k.toNat
  let t := s.core.token k.toNat
  let idle (u : State) : Prop := (u.core.token k.toNat).infl = 0
  exec (.trap c) s = .next (s.laterPart 1 [.cause { cause := 0x20, slot := s.slot, i0 := c.zeroExtend 32 }])
  ∧ (s.dbgAuth = true ∧ s.dbgMask.getLsbD 3 = true →
      exec (.bkpt c) s = .next (s.laterPart 1 [.cause { cause := 0x21, slot := s.slot, i0 := c.zeroExtend 32 }]))
  ∧ (s.dbgAuth = false ∨ s.dbgMask.getLsbD 3 = false → exec (.bkpt c) s = .next s)
  ∧ (idle s → exec (.tks k r) s = .next (s.putS 1 r ⟨BitVec.ofNat 32 (seen.arr % 65536 * 65536 + seen.errn % 16 * 4096 + seen.errc % 16 * 256), false⟩)
      ∧ exec (.tkz k) s = .next (s.laterPart 1 [.tkz k.toNat]))
  ∧ (¬idle s → ∀ i, i ∈ [Instr.tks k r, .tkz k] → exec i s = .next (s.raise
      { cause := 0x0D, slot := s.slot, i0 := BitVec.ofNat 32 (k.toNat * 65536 + t.errn * 4096 + t.errc * 256) }))
  ∧ (readS r s = .ok (x, s1) → idle s1 → x.poi = false → x.val.extractLsb' 0 8 = 0#8 → (x.val.extractLsb' 8 4).toNat ≤ 6 →
      exec (.tkr k r) s = .next (s1.laterPart 1 [.tkr k.toNat x.val]))
  ∧ (n ≠ 0#16 → exec (.tkp k n) s = .next (s.laterPart 1 [.tkp k.toNat n.toNat])) ∧ exec (.tkp k 0#16) s = .next s

/-- R337, R338, R342, R345: a synchronous cause of a task enters the monitor at 0xFF8000: the trap state holds the PC, the cause word, its
information words, the task cycle, the repetitions left with their header, and the dly remainder. The task's bank, queues, vectors, masks, tokens
(but the one a wait reports), its pending writes and every memory stand. That the monitor's first bundle is due in the cycle of the trap is the model's
choice (log entry 89).

R348: the return from a trap restores what the entry saved: the PC, the repetitions with their header, and the cycle at which the bundle is
due, counted from the task cycle on. That the monitor's queues are emptied (log entry 11), and that what it left open of loops and calls is gone (log
entry 28), is the model's choice.

R347: a synchronous cause in the monitor stops the core and records an uncorrectable event of source 8 with the monitor's PC; the job restore
follows as an event of the module. The event is stated where it is the first of its global cycle; others of the cycle come before it or after it
as R417 orders them. -/
def Obligations.TrapEntryAndReturn : Prop := (
  ∀ (s : State) (i : Info), s.core.inMon = false →
  let c := s.core
  let t := s.raise i
  let y := t.core
  y.mode = .monitor ∧ y.pc = 0xFF8000 ∧ y.npc = 0xFF8000 ∧ y.due = s.gcyc - s.here.lag
  ∧ y.tpc = BitVec.ofNat 32 c.pc ∧ y.ttask = BitVec.ofNat 32 c.tsk
  ∧ (y.tcause.extractLsb' 24 8).toNat = i.cause % 256 ∧ (y.tcause.extractLsb' 21 3).toNat = i.slot % 8 ∧ y.tcause.getLsbD 20 = i.defd
  ∧ (y.tcause.extractLsb' 17 3).toNat = i.mult % 8 ∧ y.tcause.extractLsb' 11 6 = i.flg ∧ (y.tcause.extractLsb' 4 7).toNat = c.repRem % 128
  ∧ sget 0#32 y.tinfo 0 = i.i0 ∧ sget 0#32 y.tinfo 1 = i.i1 ∧ sget 0#32 y.tinfo 2 = i.i2 ∧ sget 0#32 y.tinfo 3 = i.i3
  ∧ y.trep = (if c.repRem = 0 then 0#32 else c.repHdr) ∧ y.tdlr = BitVec.ofNat 32 ((c.due - c.tsk) % 65536) ∧ y.repRem = 0
  ∧ y.task = c.task ∧ y.mon = c.mon ∧ y.v = c.v ∧ y.m = c.m ∧ y.pend = c.pend ∧ y.aflags = c.aflags ∧ y.tsk = c.tsk ∧ y.calls = c.calls
  ∧ (∀ k, i.tok ≠ some k → y.token k = c.token k)
  ∧ (∀ k, i.tok = some k → y.token k = { c.token k with errn := 0, errc := 0 })
  ∧ t.here.tm = s.here.tm ∧ t.here.ds = s.here.ds ∧ (∀ u, u ≠ s.curT → t.tile u = s.tile u) ∧ (∀ e, e ≠ s.curC → t.here.core e = s.here.core e))
  ∧ (
  ∀ (c : Core),
  let y := c.leaveMon
  let rem := (c.tcause.extractLsb' 4 7).toNat
  y.mode = .task ∧ y.pc = (c.tpc.extractLsb' 0 24).toNat ∧ y.npc = y.pc ∧ y.due = c.tsk + (c.tdlr.extractLsb' 0 16).toNat
  ∧ y.repRem = rem ∧ y.repHdr = (if rem = 0 then 0#32 else c.trep) ∧ y.mon.ldq = [] ∧ y.mon.sdq = []
  ∧ y.task = c.task ∧ y.mon.s = c.mon.s ∧ y.v = c.v ∧ y.m = c.m ∧ y.tok = c.tok ∧ y.aflags = c.aflags ∧ y.tsk = c.tsk ∧ y.pend = c.pend
  ∧ (∀ l, l ∈ y.loops ↔ l ∈ c.loops ∧ l.depth < 1000) ∧ (∀ e, e ∈ y.calls ↔ e ∈ c.calls ∧ e.2 < 1000))
  ∧ (
  ∀ (s : State) (i : Info), s.core.inMon = true → s.curC < 4 →
  let t := s.raise i
  t.core.mode = .stopped ∧ t.core.task = s.core.task ∧ t.core.mon = s.core.mon ∧ t.here.tm = s.here.tm ∧ t.here.ds = s.here.ds
  ∧ t.inputs = s.inputs ++ [(s.gcyc, .event s.curT s.curC 0 .jobRestore)]
  ∧ (s.here.errAt ≠ s.gcyc + s.haltSum →
     let w := sget 0#32 s.here.errbank 0
     let v := sget 0#32 t.here.errbank 0
     (w.getLsbD 31 = false ∨ w.getLsbD 30 = false →
       v.getLsbD 31 = true ∧ v.getLsbD 30 = true ∧ (v.extractLsb' 24 6).toNat = 8 ∧ sget 0#32 t.here.errbank 1 = BitVec.ofNat 32 s.core.pc)
     ∧ (w.getLsbD 31 = true → w.getLsbD 30 = true → v.getLsbD 29 = true ∧ sget 0#32 t.here.errbank 1 = sget 0#32 s.here.errbank 1)))

/-- R374, R375, R377, R380, R383: the semaphore. An acquire of a free word takes it for the port with its tag, and of sem0 ownership with it; of
a taken word it is answered with bit 32 set, and of sem0 during a scrub with status 0x0A and the word as it stands. A release needs the holder's
port and tag, else it is refused with the word; of sem0 it ends ownership. That a second release of sem0 while the scrub of the first runs changes
nothing is the model's choice (log entry 90). SCRUB starts a scrub. What is not a command ends with 0x01. -/
def Obligations.SemaphoreCommands : Prop := ∀ (s : State) (port : Bool) (tag : Word) (word : BitVec 8) (st : BitVec 16) (otmo : Word),
  let n := word.toNat
  let acq : Instr := .semaphoreAcquire port tag word st otmo
  let rel : Instr := .semaphoreRelease port tag word st
  let rd : Instr := .semaphoreRead port tag word st
  let u (i : Instr) : State := s.openJob port tag i
  let w := sget 0#32 s.sem n
  let taken : Word := 1#1 ++ BitVec.ofBool port ++ 0#14 ++ st
  let mine : Prop := w.getLsbD 31 = true ∧ w.getLsbD 30 = port ∧ w.extractLsb' 0 16 = st
  let free : Need := { owner := false }
  (s.Starts port acq free →
    (n = 0 → s.scrubEnd.isSome = true → exec acq s = .next (s.ends port tag acq (u acq, 0x0A, w.toNat + 2 ^ 32)))
    ∧ (n = 0 → s.scrubEnd = none → w.getLsbD 31 = false →
        let v := ({ u acq with sem := sset 0#32 s.sem 0 taken } : State).takeOwner otmo.toNat
        exec acq s = .next (s.ends port tag acq (v, 0, taken.toNat)))
    ∧ (n ≠ 0 → w.getLsbD 31 = false →
        exec acq s = .next (s.ends port tag acq ({ u acq with sem := sset 0#32 s.sem n taken }, 0, taken.toNat)))
    ∧ ((n = 0 → s.scrubEnd = none) → w.getLsbD 31 = true → exec acq s = .next (s.ends port tag acq (u acq, 0, w.toNat + 2 ^ 32))))
  ∧ (s.Starts port rel free →
    (¬mine → exec rel s = .next (s.ends port tag rel (u rel, 0, w.toNat + 2 ^ 32)))
    ∧ (mine → n ≠ 0 → exec rel s = .next (s.ends port tag rel ({ u rel with sem := sset 0#32 s.sem n 0#32 }, 0, 0)))
    ∧ (mine → n = 0 → s.scrubFree = false → exec rel s = .next (s.ends port tag rel ((u rel).stopJob.endOwnership.semAnswer 0 false)))
    ∧ (mine → n = 0 → s.scrubFree = true → exec rel s = .next (s.ends port tag rel (u rel, 0, w.toNat))))
  ∧ (s.Starts port rd free → exec rd s = .next (s.ends port tag rd (u rd, 0, w.toNat)))
  ∧ (s.Starts port (.scrub port tag) {} →
      exec (.scrub port tag) s = .next (((u (.scrub port tag)).startScrub false).putJob port { s.entryOf port tag (.scrub port tag) with stage := 1 }))
  ∧ (s.Starts port (.badOpcode port tag) free →
      exec (.badOpcode port tag) s = .next (s.ends port tag (.badOpcode port tag) (u (.badOpcode port tag), 0x01, 0)))

/-- R245, R246, R366, R368, R391, R392, R396: MAP writes a range entry, the table root, or drops translations; POWER sets the cap and the clock
point, opens a debug session on a certificate that verifies, names this device and answers the challenge, closes it, and moves a tile of the job
into retention and out of it. That the reserved bits of MAP's words are ignored is the model's choice (log entry 98), and so are the functions that
say what a certificate holds and whether it verifies (log entry 19). -/
def Obligations.MapAndPower : Prop := ∀ (s : State) (port : Bool) (tag name len : Word) (e point : BitVec 8) (w0 w1 w2 ta dva dl cert : BitVec 64)
    (cap : BitVec 16) (marks : BitVec 256),
  let u (i : Instr) : State := s.openJob port tag i
  let ok (i : Instr) : Prop := s.Starts port i {}
  let set (i : Instr) (f : State → State) : Prop := ok i → exec i s = .next (s.ends port tag i (f (u i), 0, 0))
  let l := [w0 &&& 0xF000FFFFFFFFFFFF#64, w1 &&& 0x0000FFFFFFFFFFFF#64, w2]
  let doc := getList (s.port port).mem cert.toNat len.toNat
  let f := Config.certificateFields doc
  let opn : Instr := .powerDebugOpen port tag cert len
  let enter : Instr := .powerRetentionEnter port tag name
  let leave : Instr := .powerRetentionExit port tag name
  let good : Bool := Config.certificateVerifies doc && decide (f.1 = Config.identityDigest) && decide (s.challenge = some f.2.2)
  set (.mapRangeEntry port tag e w0 w1 w2) (fun v => { v with range := sset [] v.range e.toNat (if l = [0#64, 0#64, 0#64] then [] else l) })
  ∧ set (.mapTableRoot port tag ta) (fun v => { v with ptRoot := ta.toNat, tlb := [] })
  ∧ set (.mapInvalidate port tag dva dl) (fun v => { v with tlb := v.tlb.filter fun x =>
      dl.toNat ≠ 0 ∧ (x.1 % 2 ^ 36 * 4096 + 4096 ≤ dva.toNat ∨ dva.toNat + dl.toNat ≤ x.1 % 2 ^ 36 * 4096) })
  ∧ set (.powerCap port tag cap point marks)
      (fun v => { v with cap := cap.toNat, reqPoint := point.toNat, chosen := point.toNat, lowWin := 0, markSet := marks })
  ∧ (s.Starts port opn { bufs := [(cert.toNat, len.toNat)] } →
      exec opn s = .next (s.ends port tag opn
        (if good then ({ u opn with dbgAuth := true, dbgEver := true, dbgMask := f.2.1, challenge := none }, 0, 0) else (u opn, 0x09, 0))))
  ∧ (s.dbgAuth = true → set (.powerDebugClose port tag) State.closeDebug) ∧ (s.dbgAuth = false → set (.powerDebugClose port tag) id)
  ∧ (∀ t, s.named name = some t →
      ((s.tile t).held = true → (s.tile t).replayTo = none → (∀ c < 4, ((s.tile t).core c).mode = .idle) → s.Starts port enter { name := some name } →
        exec enter s = .next (s.ends port tag enter ((u enter).upT t fun x => { x with ps := .retention }, 0, 0)))
      ∧ ((s.tile t).held = true → s.Starts port leave { name := some name } →
        exec leave s = .next (s.ends port tag leave ((u leave).upT t fun x => x.leaveRetention s.glob, 0, 0))))
  ∧ (s.named name = none → s.curArg = 0 → s.boot ≠ .bootFail → ∀ i, i ∈ [enter, leave] → exec i s = .next (s.refuses port tag i 0x01))

/-- R251, R303, R313, R354, R384, R426, R428: the commands that run a job. LOAD_IMAGE checks every image of its list before it loads one; LAUNCH sends
to the tiles of its rectangle, and starts no run on a busy one; STREAM moves its bytes up to the end of a sector and of a page in each turn, and
waits while the domain is halted; CHECKPOINT is to stop the domain no sooner than 400 cycles on, if its ranges can be read and its area can be written; RESTORE stops the job and, if the area and the ranges are in order, has the restore follow within its bound,
which is free within it; PREEMPT has the request reach its tile. The model's choice are the bounds of 170 cycles of a launch and of 1,024 of a PREEMPT (log
entry 83), one sector in each turn of a STREAM (log entry 97), and the status 0x01 of CHECKPOINT, RESTORE and PREEMPT in these cases (log entry 99). -/
def Obligations.JobCommands : Prop := ∀ (s : State) (port : Bool) (tag name count len : Word) (x0 y0 w h : BitVec 16) (mb : BitVec 256)
    (list host dva at' dlen : BitVec 64) (node : BitVec 8) (n16 : BitVec 16) (b : Bool) (t k : Nat) (y : Target),
  let u (i : Instr) : State := s.openJob port tag i
  let goes (i : Instr) (v : State) (a : Nat) : State := v.putJob port { s.entryOf port tag i with stage := 1, at' := a }
  let load : Instr := .loadImage port tag list count
  let start : Instr := if b then .launchStart port tag x0 y0 w h mb else .launchPost port tag x0 y0 w h mb
  let st : Instr := .stream port tag host dva len b
  let ck : Instr := .checkpoint port tag at' dva dlen list n16
  let re : Instr := .restore port tag dva
  let pre : Instr := .preempt port tag name node
  let ims := imageList (getList (s.port port).mem list.toNat (16 * count.toNat)) count.toNat
  let here := (rectTiles x0.toNat y0.toNat w.toNat h.toNat).filter fun t => (s.tile t).held
  let no := 2 * (s.port port).jobSeq + if port then 1 else 0
  let still : Prop := s.halted = true ∧ s.haltLeft = 0
  (s.Starts port load { map := true, bufs := [(list.toNat, 16 * count.toNat)] } →
    ((∀ e ∈ ims, e.2.2.1 ≠ 0 → (s.port port).enabled = true ∧ e.2.2.2 + e.2.2.1 ≤ 2 ^ 52) → exec load s = .next (s.ends port tag load ((u load).loadAll port ims)))
    ∧ ((∃ e ∈ ims, e.2.2.1 ≠ 0 ∧ 2 ^ 52 < e.2.2.2 + e.2.2.1) → exec load s = .next (s.ends port tag load (u load, 0x0C, 0))))
  ∧ (s.Starts port start { map := true } →
      (here = [] → exec start s = .next (s.ends port tag start (u start, 0x01, 0)))
      ∧ (here ≠ [] → b = true → (∃ t ∈ here, (s.tile t).busy = true) → exec start s = .next (s.ends port tag start (u start, 0x06, 0)))
      ∧ (here ≠ [] → (b = true → ∀ t ∈ here, (s.tile t).busy = false) →
          let v := u start
          exec start s = .next (goes start ((if b then { v with runs := v.runs ++ [here] } else v).launchTo b no mb here 170) 0)))
  ∧ (s.Starts port st { bufs := [(host.toNat, len.toNat)] } →
      let v := u st
      let z := v.fillTlb 0 dva.toNat
      let n := min len.toNat (min (512 - y.addr % 512) (4096 - dva.toNat % 4096))
      ¬still → v.translate 0 dva.toNat (!b) = .ok y → n = len.toNat →
        (b = true → z.media y n = [] → z.tagBad y n = false →
          exec st s = .next (s.ends port tag st (z.hostWrite port host.toNat (bytesOf (z.readAt y n) n), 0, n)))
        ∧ (b = false → z.partCheck y n = 0 →
          exec st s = .next (s.ends port tag st (z.writeAt y n (recNum (getList (s.port port).mem host.toNat n) 0 n), 0, n))))
  ∧ (s.Starts port st { bufs := [(host.toNat, len.toNat)] } → still → exec st s = .next ((u st).putJob port (s.entryOf port tag st)))
  ∧ (s.Starts port ck { bufs := [(list.toNat, 16 * n16.toNat)] } →
      let l := rangeList (getList (s.port port).mem list.toNat (16 * n16.toNat)) n16.toNat
      ((∃ e ∈ l, e.1 % 4096 ≠ 0 ∨ e.2 % 4096 ≠ 0) → exec ck s = .next (s.ends port tag ck (u ck, 0x01, 0)))
      ∧ ((∀ e ∈ l, e.1 % 4096 = 0 ∧ e.2 % 4096 = 0) → at'.toNat < s.glob + 400 → exec ck s = .next (s.ends port tag ck (u ck, 0x08, 0)))
      ∧ ((∀ e ∈ l, e.1 % 4096 = 0 ∧ e.2 % 4096 = 0) → s.glob + 400 ≤ at'.toNat → (u ck).writeCkpt dva.toNat dlen.toNat l = none →
          exec ck s = .next (s.ends port tag ck (u ck, 0x01, 0)))
      ∧ ((∀ e ∈ l, e.1 % 4096 = 0 ∧ e.2 % 4096 = 0) → s.glob + 400 ≤ at'.toNat → (u ck).writeCkpt dva.toNat dlen.toNat l ≠ none →
          exec ck s = .next ((u ck).putJob port { s.entryOf port tag ck with stage := 1, at' := at'.toNat, ranges := l })))
  ∧ (s.Starts port re {} →
      ((∀ c ∈ s.ckpts, c.dva ≠ dva.toNat) → exec re s = .next (s.ends port tag re (u re, 0x01, 0)))
      ∧ (∀ c, s.ckpts.findIdx? (fun c => c.dva == dva.toNat) = some k → s.ckpts[k]? = some c →
          let v := { (u re).stopJob with aborted := false }
          v.areaStatus c = 0 → v.rangesWrite c = true →
            ∃ d < 3000 * msCycles v.point,
              exec re s = .next (goes re { v with restoreAt := some (v.gcyc + 1 + d, k), free := v.free + 1 } 0)))
  ∧ (s.named name = none → s.curArg = 0 → s.boot ≠ .bootFail → exec pre s = .next (s.refuses port tag pre 0x01))
  ∧ (s.Starts port pre { name := some name } →
      (s.named name = some t → (s.tile t).held = false ∨ (s.tile t).nKind node.toNat ≠ 1 → exec pre s = .next (s.ends port tag pre (u pre, 0x01, 0)))
      ∧ (s.named name = some t → (s.tile t).held = true → (s.tile t).nKind node.toNat = 1 →
          let v := u pre
          ∃ d < 1024, exec pre s = .next (goes pre { v with
            inputs := v.inputs ++ [(v.gcyc + 1 + d, Turn.event t 0 node.toNat .preemptRequest)], free := v.free + 1 } (v.gcyc + 1 + d))))

/-- R383, R391, R393 to R395: the debug commands. Each needs an authorised session whose mask permits it, else it ends with 0x07. HALT_AT and RESUME
take effect no sooner than 400 cycles on; RESUME needs a halted domain or a stopped tile, STEP TILE a stopped tile and STEP WAFER a halted domain,
else 0x0D; READ_STATE writes the host's buffer alone. A name that is no tile of this wafer is refused with 0x01 before anything else. READ_STATE's
status 0x01 outside its space is the model's choice (log entry 99). -/
def Obligations.DebugCommands : Prop := ∀ (s : State) (port : Bool) (tag name n off len : Word) (at' buf : BitVec 64) (sc space core : BitVec 8) (t : Nat),
  let u (i : Instr) : State := s.openJob port tag i
  let goes (i : Instr) (v : State) : State := v.putJob port { s.entryOf port tag i with stage := 1 }
  let halt : Instr := .haltAt port tag at'
  let res : Instr := .resume port tag at' sc name
  let stT : Instr := .stepTile port tag n name
  let stW : Instr := .stepWafer port tag n
  let rd : Instr := .readState port tag name space core off len buf
  let stopped : Prop := ∃ f ∈ (s.tile t).frz, f = (.debug, none)
  let stands : Prop := ∃ f ∈ (s.tile t).frz, f.1 = .debug ∧ ∀ g, f.2 = some g → s.glob < g
  let still : Prop := s.halted = true ∧ s.haltLeft = 0
  let rdNeed : Need := { perm := some 2, bufs := [(buf.toNat, len.toNat + ((len.toNat / 4 + 7) / 8 + 63) / 64 * 64)], name := some name }
  (s.Starts port halt { perm := some 0 } →
    (at'.toNat < s.glob + 400 → exec halt s = .next (s.ends port tag halt (u halt, 0x08, 0)))
    ∧ (s.glob + 400 ≤ at'.toNat → exec halt s = .next (goes halt { u halt with haltAt := some at'.toNat })))
  ∧ (∀ c : Instr × Nat, c ∈ [(halt, 0), (res, 0), (stT, 1), (stW, 1), (rd, 2)] → s.Starts port c.1 {} → s.dbgAuth = false ∨ s.dbgMask.getLsbD c.2 = false →
      (c.1 = rd ∨ c.1 = stT ∨ (c.1 = res ∧ sc ≠ 0#8) → s.named name ≠ none) → exec c.1 s = .next (s.refuses port tag c.1 0x07))
  ∧ (∀ i, i ∈ [res, stT, rd] → (i = res → sc ≠ 0#8) → s.named name = none → s.curArg = 0 → s.boot ≠ .bootFail → exec i s = .next (s.refuses port tag i 0x01))
  ∧ (s.Starts port res { perm := some 0, name := if sc = 0#8 then none else some name } →
      (at'.toNat < s.glob + 400 → exec res s = .next (s.ends port tag res (u res, 0x08, 0)))
      ∧ (s.glob + 400 ≤ at'.toNat → sc = 0#8 → still → exec res s = .next (s.ends port tag res ({ u res with resumeAt := some at'.toNat }, 0, 0)))
      ∧ (s.glob + 400 ≤ at'.toNat → sc = 0#8 → ¬still → exec res s = .next (s.ends port tag res (u res, 0x0D, 0)))
      ∧ (s.glob + 400 ≤ at'.toNat → sc ≠ 0#8 → s.named name = some t → stopped →
          exec res s = .next (s.ends port tag res ((u res).upT t fun x => { x with frz := x.frz.map fun f =>
            if f.1 = .debug ∧ f.2 = none then (.debug, some at'.toNat) else f }, 0, 0)))
      ∧ (s.glob + 400 ≤ at'.toNat → sc ≠ 0#8 → s.named name = some t → ¬stopped → exec res s = .next (s.ends port tag res (u res, 0x0D, 0))))
  ∧ (s.Starts port stT { perm := some 1, name := some name } → s.named name = some t →
      (stopped → exec stT s = .next (goes stT ((u stT).upT t fun x => { x with
        stepLeft := n.toNat, frz := x.frz.filter fun f => !(f.1 == .debug && f.2.isNone) })))
      ∧ (¬stopped → exec stT s = .next (s.ends port tag stT (u stT, 0x0D, 0))))
  ∧ (s.Starts port stW { perm := some 1 } →
      (still → exec stW s = .next (goes stW { u stW with haltLeft := n.toNat + 1 }))
      ∧ (¬still → exec stW s = .next (s.ends port tag stW (u stW, 0x0D, 0))))
  ∧ (s.Starts port rd rdNeed → s.named name = some t →
      (¬still → ¬stands → exec rd s = .next (s.ends port tag rd (u rd, 0x0D, 0)))
      ∧ (∀ d, still ∨ stands → (u rd).space t space.toNat core.toNat off.toNat len.toNat = some d →
          let bytes := withBitmap d
          let v := (u rd).hostWrite port buf.toNat bytes
          exec rd s = .next (s.ends port tag rd ({ v with free := v.free + 1 }, 0, bytes.length)))
      ∧ (still ∨ stands → (u rd).space t space.toNat core.toNat off.toNat len.toNat = none →
          exec rd s = .next (s.ends port tag rd (u rd, 0x01, 0))))

/-- R300, R372, R384, R386, R388, R391: a QUERY needs no ownership and is answered after a failed boot too: as much of its report as fits goes to the
buffer, and the result gives both lengths. The challenge it hands out revokes the one before; router counters clear as they are read. ATTEST writes
448 bytes of report and 4,627 of signature. A tile that is not of this wafer is refused with 0x01. The layouts of the reports (log entry 20) and the
entropy of the challenge (log entry 14) are free values, the model's choice. -/
def Obligations.Reports : Prop := ∀ (s : State) (port : Bool) (tag name len : Word) (buf nonce : BitVec 64) (t : Nat),
  let u (i : Instr) : State := s.openJob port tag i
  let q : Need := { owner := false, query := true, bufs := [(buf.toNat, len.toNat)] }
  let answers (i : Instr) (v : State) (r : List Byte) : Prop :=
    let n := min len.toNat r.length
    let z := v.hostWrite port buf.toNat (r.take n)
    exec i s = .next (s.ends port tag i ({ z with free := z.free + 1 }, 0, n + r.length * 2 ^ 32))
  let reportsOn (i : Instr) (f : State → State × List Byte) (name : Option Word := none) : Prop :=
    s.Starts port i { q with name := name } → answers i (f (u i)).1 (f (u i)).2
  let byTile (i : Instr) (f : State → State × List Byte) : Prop :=
    (s.named name = some t → reportsOn i f (some name)) ∧ (s.named name = none → s.curArg = 0 → exec i s = .next (s.refuses port tag i 0x01))
  let att : Instr := .attest port tag nonce buf
  reportsOn (.queryModuleState port tag buf len) (fun v => (v, Config.moduleLayout ⟨v.boot, v.selfFail, v.recFail, v.defectCause⟩))
  ∧ reportsOn (.queryMirage port tag buf len) (fun v => (v, bytesOfWords (((upto 0 576).map (sget 0#32 v.seg)) ++ (upto 0 64).map (sget 0#32 v.ovl))))
  ∧ reportsOn (.queryEnergy port tag buf len) (fun v => (v, ((upto 0 256).map fun k => bytesOf (sget 0 v.energy k) 8).flatten ++ Config.totalLayout v.energyOff))
  ∧ reportsOn (.queryOpticalPorts port tag buf len) (fun v => (v, Config.portLayout portReport))
  ∧ reportsOn (.queryDebugChallenge port tag buf len) (fun v =>
      let l := bytesOfWords ((upto 0 16).map fun i => Config.entropy (v.free + i)); ({ v with free := v.free + 16, challenge := some (num512 l) }, l))
  ∧ byTile (.queryTileReport port tag name buf len) (fun v => (v, bytesOfWords (v.tile t).reportWords ++ Config.tileLayout
      { freezes := (v.tile t).nBal, links := (upto 0 4).map (v.hop t), hub := Config.homeHub t % 48, gangs := v.gangReport (v.tile t)
        chans := (upto 0 256).map fun k => (sget {} (v.tile t).chans k).run, groups := (upto 0 64).map fun k => (sget {} (v.tile t).groups k).run
        ignored := (v.tile t).crgIgn }))
  ∧ byTile (.queryRouterCounters port tag name buf len) (fun v =>
      let x := v.tile t
      (v.upT t fun x => { x with ccar := 0, cunc := 0, cres := 0 }, bytesOfWords [BitVec.ofNat 32 x.ccar, BitVec.ofNat 32 x.cunc, BitVec.ofNat 32 x.cres]))
  ∧ (s.Starts port att { owner := false, bufs := [(nonce.toNat, 64), (buf.toNat, 5075)] } →
      let r := (u att).report448 (getList (s.port port).mem nonce.toNat 64)
      let g := Config.identitySignature r
      exec att s = .next (s.ends port tag att ((u att).hostWrite port buf.toNat (r ++ (upto 0 4627).map fun i => g.getD i 0#8), 0, 5075)))

/-- R59, R60, R96, R99: a result that is due lands: its register takes the value, its flags join the sticky ones; of a task whose trap for one of
them is enabled, the write waits and the arithmetic cause lands in its place.

R206, R150, R152, R154, R156, R157, R230, R238: a lone store that is due gets its banks and writes its bytes and no other; a held array command starts with
the mode and the latch as they then are; and a gang row that has arrived waits only while its command has not yet been issued.

R138, R139: the lease is granted to the next requester after the last holder in the order of cores, once no span of the array or the latch path is
left; the grant posts the request's token. It ends with 64 commands or after 4,096 counted cycles; a cycle in the monitor does not count. After an
end by time LCYC holds 4,096, and another core may be granted the lease in that cycle, once its holder has taken no trap in it (log entry 100, the
model's choice). The gang buffer holds the rows of two commands (R156); that a row of a third is discarded is the model's choice (log entry 105). -/
def Obligations.TileCycleEvents : Prop := (
  ∀ (s : State) (p : Pend) (d : Nat) (v : PWord),
  let c := s.core
  s.here.paths = [] → c.mode = .task → c.pend = [p] → p.mon = false → p.at' ≤ c.tsk → p.effs = [.sreg d v] →
    (p.traps = false ∨ enabled c.aflags p.flags = 0#6 → s.Does .resultLanding fun t =>
      t.core.pend = [] ∧ (∀ n, t.core.task.sreg n = if n ≠ 0 ∧ n = d then v else c.task.sreg n) ∧ t.core.aflags = c.aflags ||| p.flags.setWidth 32
      ∧ t.core.lcause = c.lcause ∧ t.here.tm = s.here.tm ∧ t.core.v = c.v)
    ∧ (p.traps = true → enabled c.aflags p.flags ≠ 0#6 → s.Does .resultLanding fun t =>
      t.core.pend = [{ p with counts := true, last := c.tsk + 1 }] ∧ t.core.task = c.task ∧ t.core.aflags = c.aflags
      ∧ t.core.lcause = c.lcause ++ [(8 * p.id + p.slot, { cause := 0x10, slot := p.slot, flg := p.flags.extractLsb' 0 6, i0 := BitVec.ofNat 32 p.pc })]))
  ∧ (
  ∀ (s : State) (p : Pend) (q : Path) (n ea : Nat) (v : Bits256) (k : BitVec 64) (e f g : GangRow),
  let x := s.here
  let tc := s.tcyc s.curT
  (s.curC < 4 → x.paths = [] → x.streams = [] → (∀ c, c ≠ s.curC → (x.core c).pend = []) → s.core.pend = [p] → s.core.mode = .task → p.mon = false →
    p.at' ≤ s.core.tsk → p.effs = [.store n ea v k] → s.Does .staticBankAccess fun t =>
      t.core.pend = [] ∧ (∀ i < n, t.here.tmRead (ea + i) 1 = v.toNat / 2 ^ (8 * i) % 256) ∧ (∀ b, b < ea ∨ ea + n ≤ b → t.here.tmRead b 1 = x.tmRead b 1)
      ∧ t.here.ds = x.ds)
  ∧ (x.paths = [q] → q.started = false → q.s = tc → q.kind ≤ 2 → x.latchFits q.ty q.w = true → s.Does .deferredStart fun t =>
      t.here.paths = [q.begin x (x.core q.core).satm] ∧ (q.begin x (x.core q.core).satm).started = true ∧ t.here.cores = x.cores)
  ∧ (x.paths = [q] → q.started = false → q.s = tc → q.kind ≤ 2 → x.latchFits q.ty q.w = false → s.Does .deferredStart fun t =>
      t.here.paths = [{ q.begin x (x.core q.core).satm with stop := some 0 }])
  ∧ (x.paths = [] → x.gangBuf = [e] → s.Does .gangRowArrival fun t =>
      t.here.gangBuf = (if e.inBuf = false ∧ s.gcyc < e.due then [e] else if x.gangN ≤ e.n then [{ e with inBuf := true }] else [])
      ∧ t.here.cores = x.cores ∧ t.here.tm = x.tm)
  ∧ (x.paths = [] → x.gangBuf = [e, f, g] → e.inBuf = true → f.inBuf = true → g.inBuf = false → g.due ≤ s.gcyc →
      x.gangN ≤ e.n → x.gangN ≤ f.n → x.gangN ≤ g.n → e.n ≠ f.n → g.n ≠ e.n → g.n ≠ f.n → s.Does .gangRowArrival fun t => t.here.gangBuf = [e, f]))
  ∧ (
  ∀ (s : State) (c k : Nat),
  let x := s.here
  let tc := s.tcyc s.curT
  let y := x.core c
  let first := match x.leaseLast with | some c => c + 1 | none => 0
  (x.leaseCore = none → (∀ r ∈ x.arrSpans ++ x.lwtSpans, r.2 < tc) → c < 4 → (c, k) ∈ x.leaseReq → (∀ j, (c, j) ∈ x.leaseReq → j = k) →
    (∀ d j, (d, j) ∈ x.leaseReq → d < 4 → (c + 8 - first) % 4 ≤ (d + 8 - first) % 4) → first ≤ 4 → s.curArg ≠ 1 →
    (∀ d, x.leaseLast = some d → (x.core d).lcyc ≠ 4097) → s.Does .leaseGrant fun t =>
      t.here.leaseCore = some c ∧ t.here.leaseReq = x.leaseReq.filter (fun r => r.1 != c) ∧ (t.here.core c).token k = (y.token k).post 0
      ∧ (t.here.core c).cmds = 0 ∧ (t.here.core c).lcyc = 1)
  ∧ (x.leaseCore = none → s.curArg ≠ 1 → (∃ r ∈ x.arrSpans ++ x.lwtSpans, tc ≤ r.2) ∨ (∀ d < 4, ∀ j, (d, j) ∉ x.leaseReq) → s.Does .leaseGrant fun t => t.here = x)
  ∧ (x.leaseCore = none → x.leaseLast = some c → y.lcyc = 4097 →
      (s.curArg ≠ 1 → s.Does .leaseGrant fun t => t.here = x)
      ∧ (s.Does .leaseExpiry fun t => t.here.core c = { y with lcyc := 4096 } ∧ t.here.leaseCore = none)
      ∧ (s.curArg = 1 → (∀ r ∈ x.arrSpans ++ x.lwtSpans, r.2 < tc) → ∀ d, x.leaseReq = [(d, k)] → d < 4 → d ≠ c → s.Does .leaseGrant fun t =>
          t.here.leaseCore = some d ∧ (t.here.core c).lcyc = 4096 ∧ (t.here.core d).token k = ((x.core d).token k).post 0 ∧ (t.here.core d).lcyc = 1))
  ∧ ((∀ d, x.leaseLast = some d → (x.core d).lcyc ≠ 4097) → x.leaseCore = some c →
      (64 ≤ y.cmds → s.Does .leaseExpiry fun t => t.here.leaseCore = none ∧ t.here.leaseLast = some c ∧ t.here.cores = x.cores)
      ∧ (y.cmds < 64 → y.inMon = false → s.Does .leaseExpiry fun t =>
          t.here.core c = { y with lcyc := y.lcyc + 1 } ∧ t.here.leaseCore = (if y.lcyc < 4096 then some c else none)
          ∧ t.here.leaseLast = (if y.lcyc < 4096 then x.leaseLast else some c))
      ∧ (y.cmds < 64 → y.inMon = true → s.Does .leaseExpiry fun t => t.here = x)))

/-- R177, R178, R231, R242 to R244, R250 to R252, R414, R415: the engines' events, each on a tile where nothing else is under way. A block of a copy moves
where its bank and its bus are free; a summary command completes within its bound, its result with its post; a failing lane is replaced by a
free spare, and where the test names none the transfer's next failure is its last; a stream is translated as a whole before its pieces move, once its
hub has room among its 512 requests (R29), and ends with its STAT and its post; the flags of a copy land with its post, in the cycle after its last
block. That a stream's post lands in the cycle after STAT is the model's choice (log entry 53), and so are the start from which a summary's bound
counts (log entry 63) and the free times, below 64 and below 256, of a copy and of a stream (log entry 3). -/
def Obligations.EngineEvents : Prop := ∀ (s : State) (q : CopyCmd) (u : SumCmd) (r : List SumCmd) (j : StreamJob) (col lane e i b : Nat),
  let x := s.here
  let tc := s.tcyc s.curT
  let c := s.core
  let src := q.src + 64 * q.pos
  let dst := q.dst + 64 * q.pos
  let moves : Prop := x.paths = [] ∧ (∀ d < 4, (x.core d).sumQ = [] ∧ (x.core d).crg = []) ∧ x.copyQ = [q] ∧ q.going = true ∧ q.wake ≤ tc ∧ q.bad = false
    ∧ 64 * q.pos < q.len ∧ q.red = 0 ∧ x.banks = [] ∧ x.laneTest = none ∧ x.badBus = [] ∧ x.errs = []
  (moves → s.Does .asyncBankAccess fun t =>
      t.here.copyQ = [{ q with pos := q.pos + 1, tries := 0 }] ∧ t.here.cores = x.cores
      ∧ (q.dt = false → t.here.tm = x.tm ∧ t.here.dsRead dst 64 = x.tmRead src 64 ∧ ∀ a, a < dst ∨ dst + 64 ≤ a → t.here.dsRead a 1 = x.dsRead a 1)
      ∧ (q.dt = true → t.here.ds = x.ds ∧ t.here.tmRead dst 64 = x.dsRead src 64 ∧ ∀ a, a < dst ∨ dst + 64 ≤ a → t.here.tmRead a 1 = x.tmRead a 1))
  ∧ (c.sumQ = u :: r → u.started = false → u.op < 0x17 ∨ u.op = 0x1A → s.Does .summaryCommandStart fun t =>
      ∃ d, tc < d ∧ d ≤ tc + c.sumBound u ∧ t.core.sumQ = { u with started := true, done := d } :: r)
  ∧ (c.sumQ = u :: r → u.started = false → 0x17 ≤ u.op → u.op ≤ 0x19 → s.Does .summaryCommandStart fun t =>
      ∃ d, tc ≤ d ∧ u.issue + 3 ≤ d ∧ d < max tc (u.issue + 3) + (c.sumBound u - 1) ∧ t.core.sumQ = { u with started := true, done := d } :: r)
  ∧ (c.sumQ = u :: r → u.started = true → u.done ≤ tc → c.sumLines u ≤ u.pos → u.mon = false → c.inMon = false → s.Does .summaryCommandComplete fun t =>
      t.core.sumQ = r ∧ ∃ p, t.core.pend = c.pend ++ [p] ∧ p.effs = u.effs (c.sumOut u) ∧ p.at' = c.tsk ∧ p.mon = false ∧ p.id = u.id)
  ∧ (x.copyQ = [q] → q.going = false → q.held = false → q.start ≤ tc → s.Does .copyCommandStart fun t =>
      ∃ d < 64, t.here.copyQ = [{ q with going := true, wake := tc + d }])
  ∧ (x.copyQ = [q] → q.going = true → q.bad = true ∨ q.len ≤ 64 * q.pos → q.node = none → q.mon = false → s.curArg ≠ 1 → s.Does .copyComplete fun t =>
      t.here.copyQ = [] ∧ (t.here.core q.core).tok = (x.core q.core).tok ∧ (t.here.core q.core).aflags = (x.core q.core).aflags
      ∧ (t.here.core q.core).pend = (x.core q.core).pend ++ [{ at' := tc, mon := true, flags := q.flags, effs := [.post q.k (if q.bad then 4 else 0)] }])
  ∧ (x.copyQ = [q] → q.bad = false → 64 * q.pos < q.len → s.Does .copyComplete fun t => t.here = x)
  ∧ (x.laneTest = some (col, e) → e ≤ s.glob → x.badBus = [(col, lane, some b)] → s.Does .busLaneTest fun t =>
      t.here.laneTest = none ∧ t.here.laneNone = some col ∧ t.here.busLog = x.busLog ∧ t.here.badBus = x.badBus)
  ∧ (x.laneTest = some (col, e) → e ≤ s.glob → x.badBus = [(col, lane, none)] → i < 8 → (∀ n < i, (sget 0#32 x.busLog col).getLsbD (8 + n) = true) →
      (sget 0#32 x.busLog col).getLsbD (8 + i) = false → s.Does .busLaneTest fun t =>
        t.here.laneTest = none ∧ t.here.badBus = [] ∧ (sget 0#32 t.here.busLog col).getLsbD (8 + i) = true
        ∧ ((sget 0#32 t.here.busLog col).extractLsb' 16 8).toNat = lane % 256)
  ∧ (x.streams = [j] → j.held = false → j.read = true → j.fin = false → j.wake ≤ tc → j.going = false → x.replayTo = none →
      s.hubLoad (Config.homeHub s.curT % 48) < 512 → s.Does .streamPiece fun t =>
      (s.streamCheck (Config.homeHub s.curT % 48) j = none → ∃ d < 256, t.here.streams = [{ j with going := true, wake := tc + 1 + d }])
      ∧ (s.streamCheck (Config.homeHub s.curT % 48) j = some (e, b) → j.status = 0 →
          t.here.streams = [{ j with status := e, fail := min b 0xFFFFFF, fin := true, wake := tc + 1 }]))
  ∧ (∀ l, x.streams = j :: l → (∀ k ∈ l, tc < k.wake) → j.held = false → j.read = true → j.fin = false → j.wake ≤ tc → j.going = false → x.replayTo = none →
      512 ≤ s.hubLoad (Config.homeHub s.curT % 48) → s.Does .streamPiece fun t => t.here.streams = j :: l)
  ∧ (x.streams = [j] → j.fin = true → j.wake ≤ tc → j.killed = false → x.banks = [] → j.status ≠ 0x21 → s.Does .streamComplete fun t =>
      t.here.streams = [] ∧ t.here.tmRead (j.cb + 28) 4 = (j.status + j.fail * 256) % 2 ^ 32
      ∧ (t.here.core j.core).pend = (x.core j.core).pend ++ [{ at' := tc + 1, mon := true, effs := [.post j.k j.cls] }])

/-- R27, R258 to R260, R265, R266, R284, R285, R408: a packet is read into the lee buffer when its lines' banks are free, leaves it 160 cycles later, a
release only behind a fence at zero, and is counted by the fence; its head is delivered at its own tile and else goes on to the next router,
one hop later; while its class is held back on its input it waits (R275, R294, R295). What is held by the coder leaves uncoded after 64 cycles or when
its plan is no longer in force. That credits and acknowledgements follow the route word of their class (log entry 36), and that a head waits for a free
slot of its link while what the coder lets go does not (log entry 71), is the model's choice. -/
def Obligations.SendingEvents : Prop := ∀ (s : State) (j : SendJob) (e : LeeE) (f : Flight) (h : HoldE) (d : Nat),
  let x := s.here
  let t := s.curT
  let tc := s.tcyc t
  let last := j.pos + 1 = packetsOf j.len
  let w := x.route0 f.p.cls
  let slot := if f.p.ackLane then 4 * s.gcyc else max (4 * s.gcyc) (sget 0 x.linkFree d)
  let due : Prop := s.flights = [f] ∧ f.tile = t ∧ f.old = none ∧ f.at' ≤ s.gcyc ∧ f.p.dests = [] ∧ x.hold = []
  let passes : Prop := f.p.ackLane = true ∨ s.curArg ≠ 1 ∧ (f.via = 5 ∨ x.inputHeld f.via f.p.cls = false)
  let waits : Prop := f.p.ackLane = false ∧ f.via ≠ 5 ∧ x.inputHeld f.via f.p.cls = true
  (x.sends = [j] → j.held = false → j.going = true → j.wake ≤ tc → j.rel = false → x.banks = [] → x.errs = [] → x.leeLoad + 64 + j.size ≤ 262144 →
    s.Does .sendSourceRead fun u =>
      u.here.lee = x.lee ++ [{ p := s.packetOf t j (x.tmRead j.src j.size) (x.tmPoiR j.src j.size), out := tc + 160
                               tok := if last then j.tok.map fun k => (j.core, k) else none, n := j.n }]
      ∧ u.here.sends = (if last then [] else [{ j with pos := j.pos + 1 }]) ∧ u.here.tm = x.tm)
  ∧ (x.lee = [e] → e.out ≤ tc → e.p.rel = false → x.replayTo = none → s.Does .leeExit fun u =>
      u.here.lee = [] ∧ u.flights = s.flights ++ [{ p := e.p, tile := t, at' := s.gcyc }]
      ∧ u.here.gone = x.gone ++ [(tc, e.p.ident)]
      ∧ (e.p.ackLane = false → sget 0 u.here.fence e.p.cls = sget 0 x.fence e.p.cls + e.p.targets.length
          ∧ u.here.outst = x.outst ++ e.p.targets.map fun d => (e.p.cls, e.p.dch, d, e.p.seq, e.p.pix))
      ∧ (e.p.ackLane = true → u.here.fence = x.fence ∧ u.here.outst = x.outst)
      ∧ ∀ c k, e.tok = some (c, k) → (u.here.core c).token k = ((x.core c).token k).post 0)
  ∧ (x.lee = [e] → tc < e.out → s.Does .leeExit fun u => u.here.lee = [e] ∧ u.flights = s.flights)
  ∧ (x.lee = [e] → e.p.ackLane = false → e.p.rel = true → e.out ≤ tc → e.p.cls < 8 → s.Does .fenceRelease fun u =>
      (sget 0 x.fence e.p.cls = 0 → sget 0 u.here.relOpen e.p.cls = e.n + 1) ∧ (sget 0 x.fence e.p.cls ≠ 0 → u.here.relOpen = x.relOpen))
  ∧ (due → passes → s.nextDir t w f.p.dest = none → x.ps = .active → x.replayTo = none → s.planOf t f.p = none → s.Does .headFlitRoute fun u =>
      u.here.arrq = x.arrq ++ [{ f.p with via := f.via }] ∧ u.flights = [])
  ∧ (due → waits → s.Does .headFlitRoute fun u => u.flights = [f] ∧ u.here.arrq = x.arrq ∧ u.here.hold = [])
  ∧ (due → passes → s.nextDir t w f.p.dest = some d → d < 4 → f.via = 5 ∨ s.planOf t f.p = none → wrapsAt t d = false → slot < 4 * (s.gcyc + 1) →
      s.Does .headFlitRoute fun u => u.flights = [{ p := f.p, tile := stepTile t d, at' := s.gcyc + s.hop t d, via := d }] ∧ u.here.arrq = x.arrq)
  ∧ (x.hold = [h] → s.gcyc < h.since + 64 → s.Does .pairingWindowExpiry fun u => u.here.hold = [h] ∧ u.flights = s.flights)
  ∧ (x.hold = [h] → h.since + 64 ≤ s.gcyc → s.Does .pairingWindowExpiry fun u => u.here.hold = [] ∧ u.here.cunc = min (x.cunc + 1) 0xFFFFFFFF
      ∧ u.flights = s.flights ++ [{ p := h.p, tile := t, at' := s.gcyc, via := 5 }])
  ∧ (x.hold = [h] → s.Does .heldPacketFlush fun u =>
      (x.planValid h.p.cls h.plan = true → u.here.hold = [h] ∧ u.flights = s.flights)
      ∧ (x.planValid h.p.cls h.plan = false → u.here.hold = [] ∧ u.here.cunc = min (x.cunc + 1) 0xFFFFFFFF
          ∧ u.flights = s.flights ++ [{ p := h.p, tile := t, at' := s.gcyc, via := 5 }]))

/-- R256, R266, R269 to R271, R274, R275: an arrived packet performs where its side takes it and its lines' banks are free: it changes only the bytes of its
lines and its acknowledgement enters the lee; one that its side does not take changes no memory and is not acknowledged. An acknowledgement
that the fence waits for lowers it and counts for its send.rel, one of a packet acknowledged before changes nothing (R299); a credit raises its channel's up to the window.
That the post of a send.rel lands in the cycle after its last acknowledgement is the model's choice (log entry 53). -/
def Obligations.ArrivalEvents : Prop := ∀ (s : State) (p : Packet) (c : Chan) (e : CqE) (r : RelWait) (n : Nat),
  let x := s.here
  let tc := s.tcyc s.curT
  let quiet : Prop := x.banks = [] ∧ x.errs = [] ∧ x.arrq = [p] ∧ p.coderAck = false ∧ sget {} x.chans p.dch = c
  let ack (nak : Bool) : LeeE := { p := { kind := 6, dest := p.orig, orig := p.dest, cls := p.cls, dch := p.dch, tag := p.tag, seq := p.seq, pix := p.pix, entry := p.entry, nak := nak }, out := tc + 160 }
  let only (l : List Nat) (u : State) : Prop := (∀ a, (∀ b ∈ l, a < b ∨ b + 64 ≤ a) → u.here.tmRead a 1 = x.tmRead a 1) ∧ u.here.ds = x.ds
  let one (v : Nat × Nat) : Nat := v.1 % 2 ^ 512
  let dropped (u : State) : Prop := u.here.tm = x.tm ∧ u.here.lee = x.lee ∧ u.here.cores = x.cores ∧ u.here.arrq = []
  let refused (u : State) : Prop := u.here.tm = x.tm ∧ u.here.lee = x.lee ++ [ack true] ∧ u.here.cores = x.cores ∧ u.here.arrq = []
  let took (l : List Nat) (u : State) : Prop := u.here.arrq = [] ∧ u.here.lee = x.lee ++ [ack false] ∧ only l u
  (quiet → p.kind = 1 →
    (c.takes p 0 = true → c.again p = false → s.Does .ringDeposit fun u => took (c.ringLines p) u
      ∧ (p.nfl = 1 → u.here.tmRead ((c.ringLines p).headD 0) 64 = one (p.line 0)))
    ∧ (c.takes p 0 = false → s.Does .ringDeposit dropped)
    ∧ (c.takes p 0 = true → c.again p = true → s.Does .ringDeposit fun u => took [] u))
  ∧ (quiet → p.kind = 2 →
    (c.takes p 2 = true → c.again p = false → p.seq = c.eq → s.Does .reduceDeposit fun u =>
      let a := c.rbase + 512 * p.pix
      took (linesOf a (64 * p.nfl)) u
      ∧ (p.nfl = 1 → u.here.tmRead a 64 = (redBytes c.rop 64 (x.tmRead a 64) (x.tmPoiR a 64) (p.line 0).1 (p.line 0).2).1 % 2 ^ 512))
    ∧ (c.takes p 2 = true → c.again p = false → p.seq ≠ c.eq → s.Does .reduceDeposit fun u => u.here.arrq = [p] ∧ u.here.tm = x.tm)
    ∧ (c.takes p 2 = false → s.Does .reduceDeposit dropped))
  ∧ (quiet → p.kind = 3 →
    (c.rv = true → c.mode = 1 → p.rangeOk = true → s.Does .directWrite fun u => took (linesOf p.ofs (64 * p.nfl)) u
      ∧ (p.nfl = 1 → u.here.tmRead p.ofs 64 = one (p.line 0)))
    ∧ (c.rv = true → c.mode = 1 → p.rangeOk = false → s.Does .directWrite refused))
  ∧ (quiet → p.kind = 4 → c.rv = true → c.mode = 1 →
    (let e := sget {} x.cq (p.ofs % 256)
     let i := p.ofs / 256 % 64
     let good : Prop := e.v = true ∧ e.kind = 3 ∧ i ≤ e.idx ∧ p.slen = 64 * e.len
     let a := e.raddr + i * 64 * e.len + 512 * p.pix
     (good → i ∉ e.full → e.parts = [] → s.Does .contributionArrival fun u => took (linesOf a (64 * p.nfl)) u
        ∧ (p.slen ≤ 512 → 0 < p.slen → (sget {} u.here.cq (p.ofs % 256)).full = e.full ++ [i]) ∧ (p.nfl = 1 → u.here.tmRead a 64 = one (p.line 0)))
     ∧ (good → i ∈ e.full → s.Does .contributionArrival fun u => u.here.arrq = [p] ∧ u.here.tm = x.tm)
     ∧ (¬good → s.Does .contributionArrival refused)))
  ∧ (x.banks = [] → x.errs = [] → x.cq = [(n, e)] → e.v = true → e.kind = 3 → e.st = 1 → e.forced = true → e.j = 0 → 0 ∈ e.full → e.pos + 1 < e.len →
      s.Does .reduceTargetCombine fun u =>
        u.here.tmRead (e.loc + 64 * e.pos) 64 = x.tmRead (e.raddr + 64 * e.pos) 64 ∧ sget {} u.here.cq n = { e with pos := e.pos + 1 }
        ∧ only [e.loc + 64 * e.pos] u)
  ∧ (x.cq = [(n, e)] → e.v = true → e.st = 1 → e.forced = true ∨ e.thr ≤ ((x.core e.core).token e.atok).arr → s.Does .cqEntryFire fun u =>
      (e.kind = 3 → sget {} u.here.cq n = { e with forced := true } ∧ u.here.sends = x.sends)
      ∧ (e.kind ≠ 3 → (sget {} u.here.cq n).st = 2 ∧ (sget {} u.here.cq n).left = packetsOf (64 * e.len) ∧ ∃ j, u.here.sends = x.sends ++ [j]
          ∧ j.addr = e.loc ∧ j.len = 64 * e.len ∧ j.raddr = e.raddr ∧ j.entry = some n ∧ j.wake = tc + 3))
  ∧ (x.cq = [(n, e)] → e.v = true → e.st = 1 → e.forced = false → ((x.core e.core).token e.atok).arr < e.thr → s.Does .cqEntryFire fun u => u.here.cq = x.cq ∧ u.here.sends = x.sends)
  ∧ (quiet → p.kind = 6 → (p.cls, p.dch, p.orig, p.seq, p.pix) ∉ x.outst → s.Does .acknowledgementArrival fun u => u.here = { x with arrq := [] })
  ∧ (quiet → p.kind = 6 → (p.cls, p.dch, p.orig, p.seq, p.pix) ∈ x.outst → p.entry = none → s.Does .acknowledgementArrival fun u =>
      u.here.arrq = [] ∧ u.here.outst = x.outst.erase (p.cls, p.dch, p.orig, p.seq, p.pix) ∧ sget 0 u.here.fence p.cls = sget 0 x.fence p.cls - 1
      ∧ (x.rels = [r] → r.dch = p.dch → r.dest = p.orig → r.seq = p.seq →
          (r.left ≤ 1 → u.here.rels = [] ∧ (u.here.core r.core).pend = (x.core r.core).pend ++ [{ at' := tc + 1, mon := true, effs := [.post r.k 0] }])
          ∧ (1 < r.left → u.here.rels = [{ r with left := r.left - 1 }] ∧ u.here.cores = x.cores)))
  ∧ (quiet → p.kind = 5 → x.chans = [(p.dch, c)] → c.sv = true → c.grp = false → c.score = nameCore p.dest → c.dch = p.dch →
      nameX c.dest = nameX p.orig → nameY c.dest = nameY p.orig → s.Does .creditArrival fun u =>
        sget {} u.here.chans p.dch = { c with cr := min (c.cr + p.ofs) (4096 * 2 ^ c.win) } ∧ u.here.arrq = [])

/-- R288, R293 to R297, R300: caravans enter the decode buffer in order while no dec.cfg is pending; a decoded one joins the arrivals and its half
is acknowledged to the coder; one whose side block has gone is a decode fault. The coder frees the acknowledged half. A dec.cfg record is read,
judged, and in force. That a decode begins within 64 cycles (log entry 3) and when the coder's acknowledgement leaves (log entry 53) are the model's choice. -/
def Obligations.CaravanEvents : Prop := ∀ (s : State) (p : Packet) (l : List Packet) (d : DecCur) (c : Caravan) (i g a at' : Nat) (v : Nat × Nat) (q : List (Nat × Nat))
    (e : StoreE),
  let x := s.here
  let tc := s.tcyc s.curT
  let w : BitVec 128 := BitVec.ofNat 128 (x.tmRead a 16)
  let hv := s.halves s.curT d.p c
  (x.arrq = [p] → p.kind = 7 → s.Does .caravanAccept fun u =>
      (x.decCfgQ = [] → x.decBytes + p.carBytes ≤ 65536 → u.here.arrq = [] ∧ u.here.decQ = x.decQ ++ [p])
      ∧ (x.decCfgQ ≠ [] ∨ 65536 < x.decBytes + p.carBytes → u.here.arrq = [p] ∧ u.here.decQ = x.decQ))
  ∧ (x.decCur = none → x.decQ = p :: l → s.Does .caravanDecode fun u =>
      u.here.decQ = l ∧ ∃ n < 64, u.here.decCur = some { p := p, wake := tc + n })
  ∧ (x.decCur = some d → d.p.car = some c → c.cent < 256 → d.wake ≤ tc → d.look = some (i, g) → d.side = some v → s.Does .caravanDecode fun u =>
      let b := sget {} x.side i
      (b.held = true → b.gen = g → u.here.decCur = none ∧ u.here.dcar = min (x.dcar + 1) 0xFFFFFFFF ∧ u.here.dflt = x.dflt
        ∧ u.here.arrq = x.arrq ++ [d.p.decode hv.2.1 hv.2.2 v] ∧ ∃ k, u.here.lee = x.lee ++ [k] ∧ k.p.coderAck = true ∧ k.p.ofs.testBit 9 = false ∧ k.out = tc + 160)
      ∧ (b.held = false ∨ b.gen ≠ g → u.here.decCur = none ∧ u.here.dflt = min (x.dflt + 1) 0xFFFFFFFF ∧ u.here.dnak = min (x.dnak + 1) 0xFFFFFFFF
        ∧ u.here.dcar = x.dcar ∧ u.here.arrq = x.arrq ∧ ∃ k, u.here.lee = x.lee ++ [k] ∧ k.p.coderAck = true ∧ k.p.ofs.testBit 9 = true))
  ∧ (x.arrq = [p] → p.coderAck = true → p.ofs.testBit 9 = false → x.store = [e] → e.cent = p.ofs % 256 → s.Does .coderAckArrival fun u =>
      u.here.arrq = [] ∧ u.flights = s.flights
      ∧ (p.ofs.testBit 8 = false → u.here.store = if e.h2 = none then [] else [{ e with h1 := none }])
      ∧ (p.ofs.testBit 8 = true → u.here.store = if e.h1 = none then [] else [{ e with h2 := none }]))
  ∧ (x.decCfgQ = (a, at') :: q → at' ≤ tc → x.banks = [] → x.errs = [] → s.Does .decCfgTakesEffect fun u =>
      let good : Prop := x.tmPoiR a 16 = 0 ∧ w.extractLsb' 0 29 = 0#29 ∧ w.extractLsb' 32 96 = 0#96
      u.here.decCfgQ = q
      ∧ (good → u.here.decEn = w.getLsbD 31 ∧ u.here.decStrict = w.getLsbD 30 ∧ u.here.decBad = x.decBad ∧ (w.getLsbD 29 = true → u.here.dcar = 0 ∧ u.here.dflt = 0))
      ∧ (¬good → u.here.decEn = x.decEn ∧ u.here.decStrict = x.decStrict ∧ u.here.decBad = true))

/-- R304 to R308, R311, R313, R317, R332, R333: launches, and a graph of one node in each of its states: it is ready when its count falls to zero, starts its
cores at its first bundle with its task cycles at zero, completes when its cores are idle; a trigger fires at its count. A barrier releases
its participants once all have arrived. -/
def Obligations.WalkerEvents : Prop := ∀ (s : State) (n at' no b : Nat) (l : List Word) (mb : BitVec 256) (w : Word) (g u m : Nat),
  let x := s.here
  let tc := s.tcyc s.curT
  let rt := x.rt n
  let cs := coresOf (x.nMask n)
  let only (k : Nat) : Prop := x.nodes = [(n, l)] ∧ x.nKind n = k ∧ x.running = true
  let mailed (t : State) : Prop := ∀ c < 4, ∀ i < 8, sget {} (t.here.core c).mb i = ⟨mb.extractLsb' (32 * i) 32, false⟩
  let after (t : State) : Prop := t.here.comp = x.comp ++ (x.succs n).map fun i => (tc + 1, 0, i)
  (x.launchQ = [(at', false, no, mb)] → at' ≤ s.gcyc → s.Does .launchDelivery fun t =>
      t.here.launchQ = [] ∧ mailed t ∧ t.here.lcnt = min (x.lcnt + 1) 0xFFFFFFFF ∧ t.here.nrt = x.nrt)
  ∧ (x.launchQ = [(at', true, no, mb)] → at' ≤ s.gcyc → x.nodes = [(n, l)] → x.nKind n = 1 → s.Does .launchDelivery fun t =>
      t.here.launchQ = [] ∧ mailed t ∧ t.here.lcnt = 0 ∧ t.here.running = true ∧ (t.here.rt n).count = x.nPred n
      ∧ (x.nPred n = 0 → (t.here.rt n).st = .ready ∧ (t.here.rt n).ready = tc) ∧ (x.nPred n ≠ 0 → (t.here.rt n).st = .wait))
  ∧ (x.launchQ = [(at', false, no, mb)] → s.gcyc < at' → s.Does .launchDelivery fun t => t.here = x)
  ∧ (s.core.mode = .draining → s.core.killed = none → s.Does .coreIdle fun t =>
      (x.npw s.curC s.core.tsk = 0 → t.core = { s.core with mode := .idle }) ∧ (x.npw s.curC s.core.tsk ≠ 0 → t.core.mode = .draining))
  ∧ (∀ k, s.core.mode = .draining → s.core.killed = some k → x.npw s.curC s.core.tsk = 0 → s.Does .coreIdle fun t =>
      (s.core.quiet = true → t.core = { s.core with mode := .idle, killed := none }
        ∧ (t.here.rt s.core.node).kills = (x.rt s.core.node).kills ++ [(s.curC, k)]) ∧ (s.core.quiet = false → t.core.mode = .draining))
  ∧ (only 1 → rt.st = .running → rt.restoring = none → rt.lost = false → s.Does .nodeComplete fun t =>
      ((∀ c ∈ cs, (x.core c).mode = .idle ∨ (x.core c).node ≠ n) → rt.kills = [] → (t.here.rt n).st = .done ∧ after t)
      ∧ ((∃ c ∈ cs, (x.core c).mode ≠ .idle ∧ (x.core c).node = n) → t.here = x))
  ∧ (x.running = true → n < 256 → x.comp = [(at', 0, n)] → at' ≤ tc → 2 ≤ rt.count → s.Does .successorDecrement fun t =>
      t.here.comp = [] ∧ t.here.rt n = { rt with count := rt.count - 1 })
  ∧ (x.running = true → n < 256 → x.comp = [(at', 0, n)] → at' ≤ tc → rt.count = 1 → rt.st = .wait → x.nKind n = 1 → s.Does .successorDecrement fun t =>
      t.here.comp = [] ∧ t.here.rt n = { rt with count := 0, st := .ready, ready := tc })
  ∧ (only 3 → rt.st = .armed → s.Does .triggerFire fun t =>
      (x.triggered n = true → (t.here.rt n).st = .done ∧ after t) ∧ (x.triggered n = false → t.here = x))
  ∧ (only 1 → rt.st = .ready → rt.saved = none → (∀ c ∈ cs, (x.core c).mode = .idle) → s.Does .taskDispatch fun t =>
      (t.here.rt n).st = .running ∧ ∀ c ∈ cs, let y := t.here.core c
        y.mode = .task ∧ y.node = n ∧ y.pc = ((x.node n 2).extractLsb' 0 24).toNat ∧ y.tsk = 0 ∧ y.due = 0 ∧ y.loops = [] ∧ y.crc = 0xFFFF#16
        ∧ y.budget = (if (x.node n 3).toNat = 0xFFFFFFFF then none else some (x.node n 3).toNat)
        ∧ y.task.s = (x.core c).task.s ∧ y.tok = (x.core c).tok ∧ y.v = (x.core c).v ∧ y.aflags = (x.core c).aflags)
  ∧ (x.barE = [(b, w)] → w.getLsbD 31 = true → w.getLsbD 30 = false → barCores w ≠ [] → s.Does .barrierRelease fun t =>
      ((∀ c ∈ barCores w, (x.core c).bar (b % 64) = 1) → ∀ c ∈ barCores w, (t.here.core c).bar (b % 64) = 2)
      ∧ ((∃ c ∈ barCores w, (x.core c).bar (b % 64) ≠ 1) → t.here = x))
  ∧ (s.curArg = 0 → (∀ e ∈ s.tiles, e.2.barE = []) → s.gangRel = [(g, u, b, m)] → s.Does .gangBarrierRelease fun t =>
      (g ≤ s.gcyc → (s.tile u).frz = [] → (s.tile u).replayTo = none → t.gangRel = [] ∧ ∀ c ∈ coresOf m, (t.coreAt u c).bar b = 2)
      ∧ (s.gcyc < g → t.gangRel = s.gangRel ∧ t.tiles = s.tiles))

/-- R99, R315, R342, R343, R346, R354, R355, R381, R420: at its budget a task takes the deadline fault; a landed cause is taken as a trap, an arithmetic one with
its write gone, of which a queue entry alone is left; a pre-emption request reaches the cores of its node and is withdrawn past its bound; a killed node that may
replay is ready again once its cores are idle, and one that may not is lost at once. -/
def Obligations.TaskEvents : Prop := ∀ (s : State) (b n : Nat) (e : Nat × Info) (l : List Word) (p : Pend) (d : Nat) (v : PWord) (row : Bits256) (k : BitVec 64),
  let x := s.here
  let c := s.core
  let code (t : State) : Nat := (t.core.tcause.extractLsb' 24 8).toNat
  let cs := coresOf (x.nMask n)
  let ofNode : Prop := ∀ d ∈ cs, (x.core d).node = n ∧ (x.core d).mode = .task
  (c.mode = .task → c.budget = some b → s.Does .deadlineFault fun t =>
      (b ≤ c.tsk → t.core.mode = .monitor ∧ code t = 0x05 ∧ sget 0#32 t.core.tinfo 0 = BitVec.ofNat 32 b ∧ t.core.task = c.task ∧ t.core.pend = c.pend)
      ∧ (c.tsk < b → t = s))
  ∧ (c.mode = .task → c.lcause = [e] → c.deferred = [] → e.2.cause ≠ 0x10 → s.Does .trapEntry fun t =>
      t.core.mode = .monitor ∧ t.core.pc = 0xFF8000 ∧ code t = e.2.cause % 256 ∧ t.core.lcause = [] ∧ t.core.deferred = [] ∧ t.core.task = c.task)
  ∧ (c.mode = .task → c.lcause = [e] → c.deferred = [] → e.2.cause = 0x10 → c.pend = [p] → p.traps = true → p.mon = false → p.at' ≤ c.tsk →
      e.1 = 8 * p.id + p.slot → s.Does .trapEntry fun t =>
        t.core.mode = .monitor ∧ t.core.pc = 0xFF8000 ∧ code t = 0x10 ∧ t.core.tcause.extractLsb' 11 6 = e.2.flg ∧ t.core.lcause = [] ∧ t.core.deferred = []
        ∧ t.core.pend = [] ∧ t.core.aflags = c.aflags ∧ t.core.v = c.v
        ∧ (p.effs = [.sreg d v] → t.core.task = c.task)
        ∧ (p.effs = [.sdq d row k] → t.core.task.s = c.task.s ∧ ∃ z : Bits256, t.core.task.sdq = c.task.sdq.map fun q => if q.seq = d then
            { q with landed := true, val := if q.vec then z else (z.setWidth 32).setWidth 2048, poi := 0#64 } else q))
  ∧ (c.mode = .task → c.lcause = [] → c.deferred = [] → s.Does .trapEntry fun t => t = s)
  ∧ (s.curArg = n → ofNode → x.replayTo = none → s.Does .preemptRequest fun t =>
      ((∀ d ∈ cs, (x.core d).preReq = none ∧ (x.core d).killed = none) → (x.rt n).kills = [] →
        ∀ d ∈ cs, t.here.core d = { x.core d with preReq := some ⟨true, (x.core d).tsk⟩ })
      ∧ ((∃ d ∈ cs, (x.core d).preReq ≠ none ∨ (x.core d).killed ≠ none) ∨ (x.rt n).kills ≠ [] → t.here.cores = x.cores))
  ∧ (s.curC ∈ cs → ofNode → x.nPre n = true → s.Does .preemptOverrun fun t =>
      ((∃ r, c.preReq = some r ∧ r.q + x.nRun n < c.tsk) → ∀ d ∈ cs, (t.here.core d).preReq = none)
      ∧ ((∀ r, c.preReq = some r → c.tsk ≤ r.q + x.nRun n) → t.here = x))
  ∧ (x.nodes = [(n, l)] → x.nKind n = 1 → x.running = true → (x.rt n).st = .running → (x.rt n).restoring = none → (x.rt n).lost = false →
      (x.rt n).kills ≠ [] → s.aborted = false →
        let idle : Prop := ∀ d ∈ cs, (x.core d).mode = .idle ∨ (x.core d).node ≠ n
        (x.noReplay n = true ∨ (idle ∧ x.mayReplay n = false) → s.Does .taskReplay fun t =>
          (t.here.rt n).kills = [] ∧ (t.here.rt n).lost = true ∧ t.inputs = s.inputs ++ [(s.gcyc, .event s.curT 0 0 .jobRestore)])
        ∧ (x.noReplay n = false → ¬idle → s.Does .taskReplay fun t => t = s)
        ∧ (idle → x.mayReplay n = true → s.Does .taskReplay fun t =>
          (t.here.rt n).kills = [] ∧ (t.here.rt n).st = .ready ∧ (t.here.rt n).ready = s.tcyc s.curT ∧ (t.here.rt n).replayed = true ∧ t.inputs = s.inputs))

/-- R25, R26, R358 to R360, R396, R404 to R413, R421 to R428: a save begins on quiet cores and stops where its area is too small; the seal leaves the node ready and
its cores idle; tile checkpoints, each with its log, journal and shadows; a strike rolls the tile back to the newer checkpoint, or to the older where that
one is not 160 cycles old: memories by the undo records, accumulators by the shadows, the rest from the copy, and a replay begins that ends at the tile
cycle it had reached; a full log freezes the tile; corrected errors are recorded, and Rotrum clears the bank; a job restores from its newest
checkpoint or is aborted; overlay writes and a rebuilt map apply on their cycle; a migration ends; a tile leaves retention. The model's choice are a
checkpoint at any TCYC where none is held and the end of the freeze of a full log (log entry 78), a rollback that takes no time of its own (log entry
79), and what a parity loss in retention leaves (log entry 121). -/
def Obligations.RecoveryEvents : Prop := ∀ (s z : State) (v : SaveEng) (k : Ckpt) (g i t o : Nat) (w : Word) (n : Nat) (b : Nat × Nat) (l : List (Nat × Nat))
    (e q : Nat × Nat × Nat) (r : List (Nat × Nat × Nat)) (copy : Tile) (recs : List Undo),
  let x := s.here
  let tc := s.tcyc s.curT
  let a := s.curArg
  let cs := coresOf v.cmask
  let thawed (kind : Frz) (f : List (Frz × Option Nat)) : List (Frz × Option Nat) := f.filter fun e => e.1 != kind || e.2.all fun g => decide (s.gcyc < g)
  let rests (u : State) : Prop := u.here.tm = x.tm ∧ u.here.ds = x.ds ∧ u.here.cores = x.cores
  (x.save = some v → v.restore = false → a = 0 → v.stopped = false → v.wake ≤ tc → v.going = false → s.Does .contextSave fun u =>
      (x.quietFor cs = true → rests u ∧ ∃ e, u.here.save = some e ∧ e.going = true ∧ e.pos = 0x40 ∧ tc ≤ e.wake) ∧ (x.quietFor cs = false → u = s))
  ∧ (x.save = some v → v.restore = false → a = 0 → v.stopped = false → v.wake ≤ tc → v.going = true → v.regs = [] → v.pos < v.bodyEnd → v.len ≤ v.pos → s.Does .contextSave fun u =>
      u.here.save = some { v with stopped := true } ∧ ∀ c ∈ cs, (u.here.core c).svst = 2#32 ∧ (u.here.core c).svcur = BitVec.ofNat 32 v.pos)
  ∧ (x.save = some v → v.restore = false → v.stopped = false → v.going = true → v.regs = [] → v.bodyEnd ≤ v.pos → v.wake ≤ tc → x.replayTo = none →
      s.pushDva (Config.homeHub s.curT % 48) v.area 0x40 (recNum (v.header s.glob) 0 0x40) = .ok z → s.Does .seal fun u =>
        (u.tile s.curT).save = none ∧ ((u.tile s.curT).rt v.node).st = .ready ∧ ((u.tile s.curT).rt v.node).saved = some (v.area, v.len)
        ∧ ∀ c ∈ cs, let y := (u.tile s.curT).core c; y.mode = .idle ∧ y.task = {} ∧ y.tok = [] ∧ y.v = [] ∧ y.loops = [])
  ∧ (a ≠ 1 → x.ck = [] ∨ (x.ck = e :: r ∧ tc % 512 = 0 ∧ e.1 ≠ tc) → s.Does .tileCheckpoint fun u =>
      u.here.tm = x.tm ∧ u.here.ds = x.ds ∧ u.here.undo = [] ∧ u.here.journal = 0 ∧ u.here.undoOld = x.undo ∧ u.here.outside = [] ∧ u.here.outsideOld = x.outside
      ∧ (∀ c < 4, u.here.core c = { x.core c with shadow := [], shadowOld := (x.core c).shadow })
      ∧ (x.ck = [] → u.here.ck = [(tc, s.gcyc, 0)] ∧ sget [] u.snaps s.curT = [x.copied])
      ∧ (x.ck = e :: r → u.here.ck = [(tc, s.gcyc, 0), (e.1, e.2.1, x.undo.length + x.journal)]
          ∧ sget [] u.snaps s.curT = x.copied :: (sget [] s.snaps s.curT).take 1))
  ∧ (a ≠ 1 → x.ck = e :: r → tc % 512 ≠ 0 ∨ e.1 = tc → s.Does .tileCheckpoint fun u => u = s)
  ∧ (a = 1 → x.ck = e :: q :: r → 4096 ≤ x.records → (∀ f ∈ x.frz, f.1 ≠ .undo) → s.Does .tileCheckpoint fun u => rests u
      ∧ u.here.frz = x.frz ++ [(.undo, some (max (s.gcyc + 1) (e.2.1 + 160)))])
  ∧ (a = 0 → x.ck = e :: r → (sget [] s.snaps s.curT)[i]? = some copy → s.stands s.curT = false → x.replayTo = none → q.1 ≤ s.gcyc →
      (i = 0 ∧ (r = [] ∨ e.2.1 + 160 ≤ s.gcyc) ∧ q = e ∧ recs = x.undo) ∨ (i = 1 ∧ s.gcyc < e.2.1 + 160 ∧ r.head? = some q ∧ recs = x.undo ++ x.undoOld) →
      s.Does .strikeReport fun u =>
        u.tcyc s.curT = q.1 ∧ u.here.replayTo = some (tc - 1) ∧ (.replay, none) ∈ u.here.frz ∧ u.here.strikes.head? = some s.glob
        ∧ u.inputs = s.inputs ∧ u.flights = s.flights ∧ (∀ t, t ≠ s.curT → u.tile t = s.tile t)
        ∧ u.here.tm = (recs.foldl Tile.undoOne x).tm ∧ u.here.ds = (recs.foldl Tile.undoOne x).ds ∧ u.here.latch = (recs.foldl Tile.undoOne x).latch
        ∧ ∀ c < 4, let y := u.here.core c
          let o := copy.core c
          y.task = o.task ∧ y.m = o.m ∧ y.tok = o.tok ∧ y.aflags = o.aflags ∧ y.pc = o.pc ∧ y.tsk = o.tsk ∧ y.pend = o.pend
          ∧ y.v = ((x.core c).shadow ++ if i = 1 then (x.core c).shadowOld else []).foldl (fun m e => sset {} m e.1 e.2) (x.core c).v)
  ∧ (a = 65 → s.Does .strikeReport fun u => rests u ∧ u.inputs = s.inputs ++ [(s.gcyc, .event s.curT 0 0 .jobRestore)])
  ∧ (s.Does .replayEnd fun u => ((s.tile t).replayTo = none → u.tile t = s.tile t)
      ∧ ∀ r, (s.tile t).replayTo = some r → s.stands t = false →
        (s.tcyc t - 1 < r → u.tile t = s.tile t)
        ∧ (r ≤ s.tcyc t - 1 → (u.tile t).replayTo = none ∧ (u.tile t).frz = (s.tile t).frz.filter (fun f => f.1 != .replay) ∧ (u.tile t).toRedo = []
            ∧ (u.tile t).late = [] ∧ (u.tile t).tm = (s.tile t).tm ∧ (u.tile t).ds = (s.tile t).ds))
  ∧ (s.Does .undoFreezeEnd fun u => ∀ t, (u.tile t).frz = thawed .undo (s.tile t).frz ∧ (u.tile t).tm = (s.tile t).tm
      ∧ ((u.tile t).frz ≠ (s.tile t).frz → (u.tile t).ck = (s.tile t).ck.take 1))
  ∧ (a = 1 → s.Does .correctedWriteback fun u => rests u ∧ (∀ i < 3, sget 0#32 u.here.errbank i = 0#32) ∧ sget 0#32 u.here.errbank 3 = sget 0#32 x.errbank 3)
  ∧ (a ≠ 1 → s.Does .correctedWriteback fun u => rests u ∧ u.here.seen = [] ∧ (x.seen = [] → u.here.errbank = x.errbank))
  ∧ (s.aborted = true → s.Does .jobRestore fun u => u = s)
  ∧ (s.aborted = false → a ≠ 1 → s.restoreAt = none → s.Does .jobRestore fun u =>
      (s.ckpts = [] → u.aborted = true ∧ u.restoreAt = none)
      ∧ (s.ckpts ≠ [] → u.aborted = false ∧ ∃ d < 3000 * msCycles s.point, u.restoreAt = some (s.gcyc + 1 + d, s.ckpts.length - 1)))
  ∧ (s.aborted = false → a = 1 → s.Does .jobRestore fun u => u.aborted = true)
  ∧ (s.aborted = false → a ≠ 1 → s.restoreAt = some (g, i) → s.Does .jobRestore fun u =>
      (s.gcyc < g → u = s) ∧ (g ≤ s.gcyc → s.ckpts[i]? = some k → s.areaStatus k = 0 → k.ranges = [] → k.gcyc ≤ s.gcyc →
        (let y := u.tile t
         let o := sget {} k.tiles t
         y.cores = o.cores ∧ y.tm = o.tm ∧ y.ds = o.ds ∧ y.lag = o.lag ∧ y.errbank = (s.tile t).errbank ∧ y.badBus = (s.tile t).badBus)
        ∧ u.flights = k.flights ∧ u.glob = s.glob ∧ u.gcyc = k.gcyc ∧ u.t2 = s.t2 ∧ u.restoreAt = none)
      ∧ (g ≤ s.gcyc → s.ckpts[i]? = some k → s.areaStatus k ≠ 0 → u.aborted = true))
  ∧ (s.migs = [(t, n, g, o)] → 2 ≤ n → g ≤ s.gcyc → (∀ e ∈ s.tiles, e.2.wantMig = false) → s.Does .migration fun u =>
      u.migs = [] ∧ (u.tile t).frz = (s.tile t).frz.filter (fun f => f.1 != .migrate) ∧ (u.tile t).noCode = false ∧ (u.tile t).tm = (s.tile t).tm)
  ∧ (s.pendOvl = [(g, i, w)] → s.pendMap = none → s.Does .overlayApply fun u => (g ≤ s.gcyc → u.pendOvl = [] ∧ sget 0#32 u.ovl i = w) ∧ (s.gcyc < g → u = s))
  ∧ (∀ m : SMap Word × SMap Word, s.pendOvl = [] → s.pendMap = some (g, m) → s.Does .overlayApply fun u =>
      (g ≤ s.gcyc → u.pendMap = none ∧ u.seg = m.1 ∧ u.ovl = m.2 ∧ u.tiles = s.tiles) ∧ (s.gcyc < g → u = s))
  ∧ (x.ps = .retention → a = 0 → s.Does .retentionExit fun u => u.here.ps = .active ∧ u.here.tm = x.tm
      ∧ (x.retBad = [] → u.here = { x with ps := .active })
      ∧ (x.retBad = b :: l → u.here.retBad = [] ∧ u.here.retLoss = x.retLoss + 1 ∧ (∀ c, (u.here.core c).mode = .idle) ∧ u.here.wantMig = decide (1 ≤ x.retLoss)))

/-- R362 to R368, R372, R375 to R378, R386, R392 to R395: the events of the module as a whole. A balance window
freezes tiles for at most 64 cycles; a power window lowers the clock point over the cap and raises it after two windows below nine tenths; the clock changes 64
cycles after the tiles have reached a mark; the energy counter of a tag rises where something of the tag has worked since the last update; boot builds the map and starts a scrub; an idle
owner loses ownership; a scrub, a halt and a resume end at their times; a stepped tile stops at the end of its last step, with its tasks trapped by cause 0x23. Across a clock
change a power window stays as long in time (R366). The model's choice are the ports that boot enables (log entry 8), the cap of 28,000 W and P4 after a
scrub (log entry 9), the powers and energies, free values (log entry 17), OTMO in cycles of the present clock (log entry 82), and the trap point of a
step's end (log entry 103). -/
def Obligations.ModuleEvents : Prop := ∀ (s : State) (n g : Nat),
  let x := s.here
  let w := Config.windowPower s.nWin
  let m := buildMap (s.selfFail ++ s.recFail)
  let counted : State := { s with nWin := s.nWin + 1, winAt := s.gcyc + msCycles s.point }
  let ended (k : Frz) (now : Nat) (f : Frz × Option Nat) : Bool := f.1 == k && f.2.any fun g => decide (g ≤ now)
  let old := msCycles s.point
  let left (p : Nat) : Nat := s.gcyc + ((s.winAt - s.gcyc) * msCycles p + old - 1) / old
  (s.Does .balanceWindow fun u => ∀ t, (u.tile t).tm = (s.tile t).tm ∧ (u.tile t).ds = (s.tile t).ds ∧ (u.tile t).cores = (s.tile t).cores
      ∧ ∀ f ∈ (u.tile t).frz, f ∈ (s.tile t).frz ∨ ∃ e, f = (.balance, some e) ∧ s.gcyc + 1 < e ∧ e ≤ s.gcyc + 65)
  ∧ (s.Does .freezeEnd fun u => ∀ t, (u.tile t).frz = ((s.tile t).frz.filter fun f => !ended .balance s.gcyc f && !ended .debug (s.gcyc + s.haltSum) f) ∧ (u.tile t).cores = (s.tile t).cores)
  ∧ exec .powerWindow s = .next (
      if 1000 * s.cap < w then { counted with chosen := s.chosen - 1, lowWin := 0 }
      else if 900 * s.cap ≤ w then { counted with lowWin := 0 }
      else if s.lowWin = 1 then { counted with lowWin := 0, chosen := if s.chosen < s.reqPoint then s.chosen + 1 else s.chosen }
      else { counted with lowWin := s.lowWin + 1 })
  ∧ exec .electricalLimit s = .next { s with chosen := 0, point := 0, winAt := left 0, clkAt := none, inputs := s.inputs ++ [(s.gcyc, .event s.curT 0 0 .jobRestore)] }
  ∧ ((∀ k < 256, s.reached k = false) → exec .markConsidered s = .next s)
  ∧ (n < 256 → (∀ k < 256, k ≠ n → s.markSet.getLsbD k = false) → s.reached n = true → s.changing = false → s.Does .markConsidered fun u =>
      (∀ t, (u.tile t).marks = (s.tile t).marks.filter (· != n))
      ∧ (s.chosen ≠ s.point → u.clkAt = some (s.gcyc + 64) ∧ u.clkTo = s.chosen) ∧ (s.chosen = s.point → u.clkAt = s.clkAt))
  ∧ (s.clkAt = some g → exec .clockChange s = .next (if s.gcyc = g then { s with point := s.clkTo, winAt := left s.clkTo } else s))
  ∧ (s.worked.Nodup → s.Does .energyUpdate fun u => u.tiles = s.tiles ∧ u.worked = []
      ∧ (∀ k, sget 0 u.energy k = if k ∈ s.worked then min (sget 0 s.energy k + Config.energy k (s.gcyc / 4096)) (2 ^ 64 - 1) else sget 0 s.energy k)
      ∧ ∀ k < 3, sget 0 u.energyOff k = min (sget 0 s.energyOff k + Config.energyOff k (s.gcyc / 4096)) (2 ^ 64 - 1))
  ∧ (s.boot = .pending → s.flashOk = true → s.pufOk = true → s.Does .boot fun u =>
      u.boot = (if m.cause = 0 then .normal else .defectLimit) ∧ u.seg = m.seg ∧ u.ovl = m.ovl ∧ u.scrubFree = true ∧ u.defectCause = m.cause
      ∧ u.portA.enabled = true ∧ u.portB.enabled = true ∧ ∃ d, s.glob < d ∧ d ≤ s.glob + 1500 * msCycles s.point ∧ u.scrubEnd = some d)
  ∧ (s.boot = .pending → s.flashOk = false ∨ s.pufOk = false → exec .boot s = .next
      { s with boot := .bootFail, portA := { s.portA with enabled := true }, portB := { s.portB with enabled := true } })
  ∧ (s.Does .ownershipTimeout fun u =>
      (s.owner.isSome = true → s.scrubEnd = none → s.idleSince + s.otmo * 1000 * msCycles s.point ≤ s.glob →
        u.dbgAuth = false ∧ u.challenge = none ∧ u.keysEpoch = s.keysEpoch + 1 ∧ u.t2 = [] ∧ u.scrubEnd ≠ none ∧ u.scrubFree = true ∧ u.sem = s.sem
          ∧ u.cap = 28000 ∧ u.reqPoint = 4 ∧ u.chosen = 4 ∧ u.markSet = 0#256)
      ∧ (s.owner = none ∨ s.scrubEnd ≠ none ∨ s.glob < s.idleSince + s.otmo * 1000 * msCycles s.point → u = s))
  ∧ (s.scrubEnd = some g → s.Does .scrubEnd fun u =>
      (g ≤ s.glob → u.scrubEnd = none ∧ (s.scrubFree = true → u.owner = none) ∧ (s.scrubFree = false → u.sem = s.sem)) ∧ (s.glob < g → u = s))
  ∧ (s.haltAt = some g → (∀ j ∈ s.portA.jobs ++ s.portB.jobs, j.stopsAt = none) →
      exec .domainHalt s = .next (if g ≤ s.glob then { s with halted := true, haltAt := none } else s))
  ∧ ((∃ j ∈ s.portA.jobs ++ s.portB.jobs, ∃ c, j.stopsAt = some c ∧ c ≤ s.glob) → s.Does .domainHalt fun u => u.halted = true ∧ u.tiles = s.tiles ∧ u.portA = s.portA ∧ u.portB = s.portB)
  ∧ (s.resumeAt = some g → exec .domainResume s = .next (if g ≤ s.glob then { s with halted := false, resumeAt := none } else s))
  ∧ (s.Does .stepEnd fun u => u.here.tm = x.tm
      ∧ (x.stepLeft = 0 → u.here = x) ∧ (2 ≤ x.stepLeft → u.here = { x with stepLeft := x.stepLeft - 1 })
      ∧ (x.stepLeft = 1 → x.late = [] → u.here.stepLeft = 0 ∧ u.here.frz = x.frz.filter (fun f => f.1 != .replay) ++ [(.debug, none)]
          ∧ ∀ c < 4, let y := u.here.core c
            y.task = (x.core c).task ∧ y.pend = (x.core c).pend
            ∧ ((x.core c).mode ≠ .task → y.mode = (x.core c).mode ∧ y.pc = (x.core c).pc)
            ∧ ((x.core c).mode = .task → (x.core c).decFault = [] → y.mode = .monitor ∧ y.pc = 0xFF8000 ∧ (y.tcause.extractLsb' 24 8).toNat = 0x23)))

/-- R3, R42, R207: one step is the turn at the head of the agenda: an event or command runs its meaning; a due bundle of one slot, whose words are mapped, runs
its decoded instruction on the state in which its core has begun the bundle, and the core goes on behind it, unless the instruction
raised a cause, its core holds too much, or an asynchronous cause is pending. A tile's own turns, its issue turns among them, draw from the tile's
own counter of free values (log 79); in a replay they change no other tile and nothing of the module but what leaves by the tile's links (R410). The slot
that a capacity fault names, and that it is checked last, is the model's choice (log entry 31). -/
def Obligations.StepRunsInstruction : Prop := ∀ (s : State) (r : List Turn) (t c a : Nat) (i : Instr) (w : Word) (sl : Slot) (y : Core) (k e : Nat),
  let base := drawBase t s.restores
  let close (o : Host.Outcome State Fault Refusal) : Host.Outcome State Fault Refusal := match o with
    | .next u => .next { u.upT t (fun x => { x with draws := u.free - base }) with free := s.free }
    | o => o
  (s.agenda = .event t c a i :: r → step s = exec i { s with agenda := r, curT := t, curC := c, curArg := a })
  ∧ (s.agenda = [] → step s = .next s.nextCycle)
  ∧ (s.agenda = .own t c a i :: r → (s.tile t).replayTo = none →
      step s = close (exec i { s with agenda := r, curT := t, curC := c, curArg := a, free := base + (s.tile t).draws }))
  ∧ (s.agenda = .own t c a i :: r ∨ s.agenda = .issue t c :: r → (s.tile t).replayTo ≠ none → ∃ u, step s = .next u
      ∧ (∀ v, v ≠ t → u.tile v = s.tile v) ∧ u.agenda = r ∧ u.gcyc = s.gcyc ∧ u.haltSum = s.haltSum ∧ u.free = s.free ∧ u.inputs = s.inputs ∧ u.t2 = s.t2
      ∧ u.portA = s.portA ∧ u.portB = s.portB ∧ u.sem = s.sem ∧ u.gangRel = s.gangRel ∧ u.runs = s.runs ∧ u.flights.take s.flights.length = s.flights)
  ∧ (let s0 : State := { s with agenda := r, curT := t, curC := c, curArg := 0, free := base + (s.tile t).draws
                                slot := 1, leaf := none, words := [], before := none, raised := none }
     let pre := s0.upCore fun y => { y with loopTest := false }
     let behind := (pre.core.pc + 4) % 2 ^ 24
     let b := ({ pre with words := [w], before := some pre.here } : State).upCore fun y => y.begin behind true (match i with | .sig _ => [] | _ => [w])
     s.agenda = .issue t c :: r → (s.tile t).replayTo = none → s0.issues = true → s0.core.due ≤ s0.clock → s0.core.loopTest = false → s0.core.repRem = 0 →
     pre.here.fetchBundle pre.core.inMon pre.core.pc 4 = .ok [w] → decodeBundle [w] = some ⟨none, [sl]⟩ → decodeSlot sl.word sl.lent = .ok i →
     (∀ o, i ≠ .brTree o) → pre.stalls i = false → pre.core.pastLoop 1 = none →
       step s = close (match exec i { b with slot := sl.pos } with
         | .next u => (match u.raised with
           | some f => .next (pre.raise f)
           | none => if u.overfull then .next (pre.raise { cause := 0x0B, slot := sl.pos })
             else match (if pre.core.inMon then none else pre.here.asyncCause pre.curC false) with
               | some f => .next (pre.takeAsync pre.curT pre.curC f)
               | none => .next (u.upCore fun y => y.advance behind pre.clock).applyExit)
         | o => o))
  ∧ (y.jumped = false → y.loops = [] → y.repRem ≤ 1 → let z := y.advance e k; z.pc = y.npc ∧ z.due = k + y.gap ∧ z.seq = y.seq + 1)
  ∧ (y.begin e true [] |>.npc) = e ∧ (y.begin e true []).gap = 1 ∧ (y.begin e true []).jumped = false

/-- R208: nop, in either place of the stop bit, has no effect, and the next bundle issues in the cycle after it: what its bundle's beginning and its end do to the core
say when. dly 1 has the same effect. -/
def Obligations.NopHasNoEffect : Prop := ∀ (s : State) (y : Core) (a k : Nat) (ws : List Word),
  decodeSlot 0xB1400000#32 0#9 = .ok .nop ∧ decodeSlot 0x31400000#32 0#9 = .ok .nop ∧ decodeSlot 0xB1200000#32 0#9 = .ok (.dly 0#16)
  ∧ (∀ x : BitVec 21, x ≠ 0#21 → decodeSlot (0x58A#11 ++ x) 0#9 = .illegalInstruction)
  ∧ exec .nop s = .next s
  ∧ ((y.begin a true ws).advance a k).due = k + 1
  ∧ ∃ t, exec (.dly 0#16) s = .next t ∧ t.core = { s.core with gap := 1 } ∧ (s.core.gap = 1 → t.core = s.core)
      ∧ (∀ u, u ≠ s.curT → t.tile u = s.tile u) ∧ (∀ c, c ≠ s.curC → t.here.core c = s.here.core c) ∧ t.here.tm = s.here.tm ∧ t.here.ds = s.here.ds

/-- R54: the lowest valid entry that holds a word's page serves it; with none the fetch is a code-page fault, and a task's fetch that an entry with M
serves is a privilege fault. The words of a bundle are fetched in ascending order up to its stop bit, and the first fault is the bundle's. At the due cycle a fetch
fault is raised before anything is decoded; of words (under the header that the core holds, where repetitions are left, R348) that are all there, an illegal bundle is raised before any slot's opcode; and the lowest slot that holds no
instruction before any slot executes.

R40, R48, R82, R87, R323: a bundle of four words without a stop bit is illegal, and a word after the stop bit is not fetched; a br.tree outside a
tree bundle, or with a record not at a multiple of 16, is a slot that holds no instruction. The repetitions that the trap then finds left are the model's
choice (log entry 87). -/
def Obligations.FetchFaults : Prop :=  (∀ (x : Tile) (m : Bool) (b i : Nat),
    let hit (j : Nat) : Prop := (x.cmapAt j).getLsbD 31 = true ∧ ((x.cmapAt j).extractLsb' 12 12).toNat = b / 4096 % 4096
    ((∀ j < 128, ¬hit j) → x.fetch m b = .error (.page b))
    ∧ (i < 128 → hit i → (∀ j < i, ¬hit j) → x.fetch m b =
        if (x.cmapAt i).getLsbD 30 = true ∧ m = false then .error (.privilege b) else .ok (BitVec.ofNat 32 (sgetBytes x.code (i * 4096 + b % 4096) 4))))
  ∧ (∀ (x : Tile) (m : Bool) (b : Nat) (ws : List Word) (f : FetchFault), ws.length < 4 →
      (∀ k < ws.length, x.fetch m ((b + 4 * k) % 2 ^ 24) = .ok (ws.getD k 0#32) ∧ (ws.getD k 0#32).getLsbD 31 = false) →
      (x.fetch m ((b + 4 * ws.length) % 2 ^ 24) = .error f → x.fetchBundle m b 4 = .error f)
      ∧ ∀ w, x.fetch m ((b + 4 * ws.length) % 2 ^ 24) = .ok w → w.getLsbD 31 = true ∨ ws.length = 3 → x.fetchBundle m b 4 = .ok (ws ++ [w]))
  ∧ (∀ (s : State) (r : List Turn) (t c a : Nat) (ws : List Word) (b : Bundle) (e : Info),
      let base := drawBase t s.restores
      let close (u : State) : Host.Outcome State Fault Refusal := .next { u.upT t (fun x => { x with draws := u.free - base }) with free := s.free }
      let s0 : State := { s with agenda := r, curT := t, curC := c, curArg := 0, free := base + (s.tile t).draws
                                 slot := 1, leaf := none, words := [], before := none, raised := none }
      let pre := s0.upCore fun y => { y with loopTest := false }
      let read (ws : List Word) : List Word := if pre.core.repRem = 0 then ws else pre.core.repHdr :: ws.tail
      let words := pre.here.fetchBundle pre.core.inMon pre.core.pc 4
      s.agenda = .issue t c :: r → (s.tile t).replayTo = none → s0.issues = true → s0.core.due ≤ s0.clock → s0.core.loopTest = false →
        (words = .error (.page a) → step s = close (pre.raise { cause := 0x01, i0 := BitVec.ofNat 32 a }))
        ∧ (words = .error (.privilege a) → step s = close (pre.raise { cause := 0x02, i0 := BitVec.ofNat 32 a }))
        ∧ (words = .ok ws → decodeBundle ws = none → decodeBundle (read ws) = none → step s = close (pre.raise { cause := 0x03 }))
        ∧ (words = .ok ws → decodeBundle ws = some b → pre.core.repRem = 0 → slotInstrs pre.core.pc b.hdr 0 b.slots = .error e →
            step s = close ((pre.upHere fun x => x.prime pre.curC).raise e)))
  ∧ ∀ (pc : Nat) (h : Option Instr) (l q : List Slot) (sl : Slot) (o : BitVec 21), (∀ n x y z, h ≠ some (.hdrRep n x y z)) →
      (∀ k ∈ l, ∃ i, decodeSlot k.word k.lent = .ok i ∧ ∀ o, i ≠ .brTree o) →
      (decodeSlot sl.word sl.lent = .illegalInstruction ∨ decodeSlot sl.word sl.lent = .ok (.brTree o)
        ∧ ((BitVec.ofNat 24 pc + 4#24 * o.signExtend 24).toNat % 16 ≠ 0 ∨ ∀ a b c d e f g w x y z, h ≠ some (.hdrTree a b c d e f g w x y z))) →
        slotInstrs pc h 0 (l ++ sl :: q) = .error { cause := 0x04, slot := sl.pos }

/-- R12, R42, R59: what issue leaves alone, for every instruction of a slot and whether or not it traps: every register of the core, its flags, all memory, every other
core and every other tile. What it does to them it does when it lands; and a landing touches no memory and no other tile.

R57, R59, R350: what lands on a core touches no byte of tile memory, dune store or code store and nothing of another tile. -/
def Obligations.IssueAndLandingFrames : Prop := (
  ∀ (i : Instr) (s t : State), (encode i).isSome = true → exec i s = .next t →
  (∀ u, u ≠ s.curT → t.tile u = s.tile u)
  ∧ (∀ e, e ≠ s.curC → (t.tile s.curT).core e = s.here.core e)
  ∧ (let x := t.tile s.curT
     let y := x.core s.curC
     let c := s.core
     x.tm = s.here.tm ∧ x.ds = s.here.ds ∧ x.code = s.here.code ∧ x.routes = s.here.routes ∧ x.cw = s.here.cw
     ∧ y.task.s = c.task.s ∧ y.task.a = c.task.a ∧ y.task.p = c.task.p ∧ y.mon.s = c.mon.s ∧ y.mon.a = c.mon.a ∧ y.mon.p = c.mon.p
     ∧ y.v = c.v ∧ y.m = c.m ∧ y.aflags = c.aflags ∧ y.satm = c.satm ∧ y.mb = c.mb ∧ y.z = c.z ∧ y.seed = c.seed ∧ y.tab = c.tab ∧ y.tcfg = c.tcfg
     ∧ y.wnext = c.wnext ∧ y.tdisp = c.tdisp ∧ y.tsk = c.tsk)
  ∧ t.t2 = s.t2 ∧ t.portA = s.portA ∧ t.portB = s.portB ∧ t.sem = s.sem ∧ t.flights = s.flights ∧ t.gcyc = s.gcyc)
  ∧ (
  ∀ (s : State) (t c : Nat) (p : Pend) (e : Eff),
  let u := s.landEff t c p e
  (∀ k, k ≠ t → u.tile k = s.tile k) ∧ (u.tile t).tm = (s.tile t).tm ∧ (u.tile t).ds = (s.tile t).ds ∧ (u.tile t).code = (s.tile t).code
  ∧ u.t2 = s.t2 ∧ u.portA = s.portA ∧ u.portB = s.portB ∧ (∀ k, k ≠ c → (u.coreAt t k).v = (s.coreAt t k).v ∧ (u.coreAt t k).task = (s.coreAt t k).task))

/-- Every instruction, command and event answers some next state, and so does every step: no fault, no refusal, in any state. Which state that is, the
statements of the instruction say. -/
def Obligations.NoStop : Prop := (∀ i s, ∃ t, exec i s = .next t) ∧ ∀ s, ∃ t, step s = .next t

/-- R6, R228: the memories of addressable bytes keep their canonical form (logs 2, 110) at every step, from every state: tile memory, dune store and code store
of every tile, the memory modules, both host memories, and the tile memories that a sealed job checkpoint keeps. Array latches, summary memory, tables and the poison
maps are not among them: they are of the same sparse form, but the claim is about these. -/
def Obligations.MemoryCanonical : Prop := ∀ s t : State, s.memWf = true → step s = .next t → t.memWf = true

/-- R10, R57, R386: the state after reset is safe, and boot comes first; what the spec gives no reset value is the model's choice (log entries 1 to 11).

R3, R57, R138, R147, R181, R209, R255, R350, R401: what reset leaves, in every tile and core. The counters at 0 (log entry 1), the bytes of memory
(log entry 2), the monitor's registers (log entry 11), the running CRC (log entry 13) and the mode (log entry 23) are the model's choice. -/
def Obligations.ResetState : Prop := (
  State.reset.safe = true ∧ State.reset.portA.enabled = false ∧ State.reset.portB.enabled = false ∧ State.reset.agenda = [.event 0 0 0 .boot] ∧ step State.reset = exec .boot { State.reset with agenda := [] })
  ∧ (
  ∀ t c : Nat,
  let s := State.reset
  let x := s.tile t
  let y := x.core c
  s.glob = 0 ∧ s.tcyc t = 0
  ∧ (∀ n, y.task.sreg n = ⟨0#32, false⟩ ∧ y.mon.sreg n = ⟨0#32, false⟩ ∧ y.task.areg n = ⟨0#32, false⟩ ∧ y.task.preg n = ⟨decide (n = 0), false⟩)
  ∧ (∀ n, y.vreg n = ⟨0#2048, 0#64⟩ ∧ y.mreg n = ⟨if n = 0 then BitVec.allOnes 128 else 0#128, 0#128⟩) ∧ (∀ k, y.token k = ⟨0, 0, 0, 0⟩)
  ∧ y.aflags = 0#32 ∧ y.satm = false ∧ y.strict = false ∧ y.qs = false ∧ y.qv = false ∧ y.mode = .idle ∧ y.crc = 0xFFFF#16 ∧ y.seed.val = 0x2545F491#32
  ∧ y.tdisp = 6#32 ∧ (∀ b, sget ⟨0x7F00#32, false⟩ y.tcfg b = ⟨0x7F00#32, false⟩) ∧ y.loops = [] ∧ y.calls = [] ∧ y.pend = []
  ∧ x.leaseCore = none ∧ x.decEn = true ∧ x.decStrict = false ∧ (∀ a, x.tmRead a 1 = 0 ∧ x.dsRead a 1 = 0)
  ∧ (∀ i, 120 ≤ i → i < 128 → x.cmapAt i = BitVec.ofNat 32 (0xC0000000 + (0xFF8 + (i - 120)) * 4096)) ∧ ∀ i < 120, (x.cmapAt i).getLsbD 31 = false)

/-- R37, R43, R66, R67, R69 to R83, R380, R384: decoding what is encoded gives the instruction back, for every well-formed instruction of a slot, every header and every host
command, with every operand at every value. -/
def Obligations.DecodeEncode : Prop :=  (∀ i lent w, i.wf = true → encode i = some (lent, w) →
    if w.getLsbD 30 then decodeHeader w = some i else decodeSlot w lent = .ok i)
  ∧ ∀ i e, i.wf = true → encodeCommand i = some e → decodeCommand false e = i ∨ decodeCommand true e = i

/-- R40, R44, R67, R208: what the words worked out in chapter 3 decode to: the bundle of an addi and a vadd under its lend header with each of its slots,
the nop that .align emits, and the two patterns of unwritten code. -/
def Obligations.WorkedEncodings : Prop :=  decodeBundle [0x45DC5200#32, 0x04038570#32, 0x9003062A#32]
    = some ⟨some (.hdrLend 0x177#9 0x029#9 0#9), [⟨2, 0x04038570#32, 0x177#9⟩, ⟨3, 0x9003062A#32, 0x029#9⟩]⟩
  ∧ decodeSlot 0x04038570#32 0x177#9 = .ok (.addi 7#6 2#6 70000#18)
  ∧ decodeSlot 0x9003062A#32 0x029#9 = .ok (.vadd 70#7 3#7 5#7 2#3 1#3 1#2)
  ∧ decodeSlot 0xB1400000#32 0#9 = .ok .nop ∧ decodeSlot 0#32 0#9 = .ok (.add 0#6 0#6 0#6)
  ∧ decodeBundle [0#32, 0#32, 0#32, 0#32] = none ∧ decodeBundle [0xFFFFFFFF#32] = none
end

