-- ==== Sys2Proof/Laws/Store.lean ====
section
/-! SUPPORT. Sparse maps: a read after a write, and that every operation keeps the canonical form. -/

namespace Sys2Proof.Machine

variable {α : Type}

/-! ### Reads after writes -/

theorem sget_serase (d : α) (m : SMap α) (k j : Nat) : sget d (serase k m) j = if j = k then d else sget d m j := by
  induction m with
  | nil => simp [serase, sget]
  | cons e r ih =>
    obtain ⟨a, v⟩ := e
    by_cases h : a = k
    · subst h; simp only [serase, if_true, ih, sget]
      by_cases h1 : j = a
      · rw [if_pos h1, if_pos h1]
      · rw [if_neg h1, if_neg h1, if_neg fun e => h1 e.symm]
    · simp only [serase, h, if_false, sget, ih]
      by_cases h1 : a = j
      · subst h1; simp [h]
      · simp [h1]

theorem sget_sinsert_self (d : α) (m : SMap α) (k : Nat) (v : α) (h : ∀ e ∈ m, e.1 ≠ k) : sget d (sinsert k v m) k = v := by
  induction m with
  | nil => simp [sinsert, sget]
  | cons e r ih =>
    obtain ⟨a, w⟩ := e
    have ha : a ≠ k := h (a, w) (by simp)
    simp only [sinsert]; split
    · simp [sget]
    · simp only [sget, ha, if_false]; exact ih fun e he => h e (by simp [he])

theorem sget_sinsert_ne (d : α) (m : SMap α) (k j : Nat) (v : α) (h : j ≠ k) : sget d (sinsert k v m) j = sget d m j := by
  induction m with
  | nil => simp [sinsert, sget, Ne.symm h]
  | cons e r ih =>
    obtain ⟨a, w⟩ := e
    simp only [sinsert]; split
    · simp [sget, Ne.symm h]
    · simp only [sget, ih]

theorem mem_serase (m : SMap α) (k : Nat) (e : Nat × α) (h : e ∈ serase k m) : e ∈ m ∧ e.1 ≠ k := by
  induction m with
  | nil => simp [serase] at h
  | cons x r ih =>
    obtain ⟨a, v⟩ := x
    simp only [serase] at h
    split at h
    · exact ⟨by simp [(ih h).1], (ih h).2⟩
    · rcases List.mem_cons.1 h with rfl | h
      · exact ⟨by simp, by assumption⟩
      · exact ⟨by simp [(ih h).1], (ih h).2⟩

variable [DecidableEq α]

/-- A read after a write: the value written at its key, every other key as before. -/
theorem sget_sset (d : α) (m : SMap α) (k j : Nat) (v : α) : sget d (sset d m k v) j = if j = k then v else sget d m j := by
  unfold sset
  split
  · rename_i h; subst h; rw [sget_serase]
  · by_cases h : j = k
    · subst h; rw [if_pos rfl]; exact sget_sinsert_self d _ _ v fun e he => (mem_serase m _ e he).2
    · rw [sget_sinsert_ne d _ _ _ v h, sget_serase, if_neg h, if_neg h]

@[simp] theorem sget_sset_self (d : α) (m : SMap α) (k : Nat) (v : α) : sget d (sset d m k v) k = v := by rw [sget_sset, if_pos rfl]
theorem sget_sset_ne (d : α) (m : SMap α) (k j : Nat) (v : α) (h : j ≠ k) : sget d (sset d m k v) j = sget d m j := by
  rw [sget_sset, if_neg h]
omit [DecidableEq α] in
@[simp] theorem sget_nil (d : α) (k : Nat) : sget d ([] : SMap α) k = d := rfl

theorem sget_sfill (d : α) (m : SMap α) (k n j : Nat) (v : α) :
    sget d (sfill d m k n v) j = if k ≤ j ∧ j < k + n then v else sget d m j := by
  induction n generalizing m k with
  | zero => rw [if_neg (by omega)]; rfl
  | succ n ih =>
    simp only [sfill, ih, sget_sset]
    by_cases h : j = k
    · subst h; simp
    · rw [if_neg h]
      by_cases h1 : k + 1 ≤ j ∧ j < k + 1 + n
      · rw [if_pos h1, if_pos (by omega)]
      · rw [if_neg h1, if_neg (by omega)]

/-- A write of n bytes leaves every byte outside them alone. -/
theorem sget_ssetBytes_of_out (m : SMap Byte) (k n v a : Nat) (h : ¬(k ≤ a ∧ a < k + n)) : sget 0#8 (ssetBytes m k n v) a = sget 0#8 m a := by
  induction n generalizing m k v with
  | zero => rfl
  | succ n ih =>
    simp only [ssetBytes]
    rw [ih _ _ _ (by omega), sget_sset_ne]; omega

/-- A write of n bytes puts byte i of the value at k + i. -/
theorem sget_ssetBytes_of_in (m : SMap Byte) (k n v i : Nat) (h : i < n) :
    sget 0#8 (ssetBytes m k n v) (k + i) = BitVec.ofNat 8 (v / 256 ^ i) := by
  induction n generalizing m k v i with
  | zero => omega
  | succ n ih =>
    simp only [ssetBytes]
    cases i with
    | zero => rw [sget_ssetBytes_of_out _ _ _ _ _ (by omega), Nat.add_zero, sget_sset_self]; simp
    | succ i =>
      have := ih (sset 0#8 m k (BitVec.ofNat 8 v)) (k + 1) (v / 256) i (by omega)
      rw [show k + (i + 1) = k + 1 + i by omega, this, Nat.div_div_eq_div_mul, Nat.pow_succ, Nat.mul_comm]

theorem sgetBytes_congr (m m' : SMap Byte) (k n : Nat) (h : ∀ a, k ≤ a → a < k + n → sget 0#8 m a = sget 0#8 m' a) :
    sgetBytes m k n = sgetBytes m' k n := by
  induction n generalizing k with
  | zero => rfl
  | succ n ih => simp only [sgetBytes]; rw [h k (by omega) (by omega), ih _ fun a h1 h2 => h a (by omega) (by omega)]

/-- A read of the bytes just written gives the value's low bytes. -/
theorem sgetBytes_ssetBytes (m : SMap Byte) (k n v : Nat) : sgetBytes (ssetBytes m k n v) k n = v % 256 ^ n := by
  induction n generalizing m k v with
  | zero => simp [sgetBytes, Nat.mod_one]
  | succ n ih =>
    simp only [sgetBytes]
    rw [show ssetBytes m k (n + 1) v = ssetBytes (sset 0#8 m k (BitVec.ofNat 8 v)) (k + 1) n (v / 256) from rfl, ih,
      sget_ssetBytes_of_out _ _ _ _ _ (by omega), sget_sset_self, Nat.pow_succ, Nat.mul_comm (256 ^ n), Nat.mod_mul]
    simp

/-- A read of bytes that a write did not touch is as before. -/
theorem sgetBytes_ssetBytes_disjoint (m : SMap Byte) (k n v a l : Nat) (h : a + l ≤ k ∨ k + n ≤ a) :
    sgetBytes (ssetBytes m k n v) a l = sgetBytes m a l :=
  sgetBytes_congr _ _ _ _ fun b h1 h2 => sget_ssetBytes_of_out _ _ _ _ _ (by omega)

/-! ### The canonical form -/

theorem swfFrom_cons (d : α) (lo : Option Nat) (k : Nat) (v : α) (r : SMap α) :
    swfFrom d lo ((k, v) :: r) = true ↔ (∀ l, lo = some l → l < k) ∧ v ≠ d ∧ swfFrom d (some k) r = true := by
  cases lo <;> simp [swfFrom, and_assoc]

theorem swfFrom_lower (d : α) (m : SMap α) (lo lo' : Option Nat) (hl : ∀ a, lo = some a → ∃ b, lo' = some b ∧ a ≤ b)
    (h : swfFrom d lo' m = true) : swfFrom d lo m = true := by
  cases m with
  | nil => rfl
  | cons e r =>
    obtain ⟨k, v⟩ := e
    rw [swfFrom_cons] at *
    refine ⟨fun a ha => ?_, h.2⟩
    obtain ⟨b, hb, hab⟩ := hl a ha
    have := h.1 b hb; omega

/-- The rest of a list in the form is in the form from the same bound. -/
theorem swfFrom_tail (d : α) (lo : Option Nat) (k : Nat) (v : α) (r : SMap α) (h : swfFrom d lo ((k, v) :: r) = true) :
    swfFrom d lo r = true := by
  rw [swfFrom_cons] at h
  exact swfFrom_lower d r lo (some k) (fun a ha => ⟨k, rfl, Nat.le_of_lt (h.1 a ha)⟩) h.2.2

theorem swfFrom_filter (d : α) (m : SMap α) (f : Nat × α → Bool) (lo : Option Nat) (h : swfFrom d lo m = true) :
    swfFrom d lo (m.filter f) = true := by
  induction m generalizing lo with
  | nil => exact h
  | cons e r ih =>
    obtain ⟨a, v⟩ := e
    simp only [List.filter_cons]; split
    · rw [swfFrom_cons] at *; exact ⟨h.1, h.2.1, ih _ h.2.2⟩
    · exact ih _ (swfFrom_tail d lo a v r h)

omit [DecidableEq α] in
theorem serase_eq_filter (m : SMap α) (k : Nat) : serase k m = m.filter fun e => decide (e.1 ≠ k) := by
  induction m with
  | nil => rfl
  | cons e r ih => obtain ⟨a, v⟩ := e; by_cases h : a = k <;> simp [serase, h, ih]

theorem swfFrom_sinsert (d : α) (m : SMap α) (k : Nat) (v : α) (lo : Option Nat) (hv : v ≠ d) (hk : ∀ l, lo = some l → l < k)
    (hm : ∀ e ∈ m, e.1 ≠ k) (h : swfFrom d lo m = true) : swfFrom d lo (sinsert k v m) = true := by
  induction m generalizing lo with
  | nil => rw [sinsert, swfFrom_cons]; exact ⟨hk, hv, rfl⟩
  | cons e r ih =>
    obtain ⟨a, w⟩ := e
    rw [swfFrom_cons] at h
    have ha : a ≠ k := hm (a, w) (by simp)
    simp only [sinsert]; split
    · rename_i hka
      rw [swfFrom_cons, swfFrom_cons]
      exact ⟨hk, hv, fun l hl => by cases hl; exact hka, h.2⟩
    · rw [swfFrom_cons]
      exact ⟨h.1, h.2.1, ih (some a) (fun l hl => by cases hl; omega) (fun e he => hm e (by simp [he])) h.2.2⟩

/-- Writing one key keeps the canonical form. -/
theorem swf_sset (d : α) (m : SMap α) (k : Nat) (v : α) (h : swf d m = true) : swf d (sset d m k v) = true := by
  have he : swf d (serase k m) = true := by rw [serase_eq_filter]; exact swfFrom_filter d m _ none h
  unfold sset; split
  · exact he
  · exact swfFrom_sinsert d _ k v none (by assumption) (by simp) (fun e h => (mem_serase m k e h).2) he

theorem swf_filter (d : α) (m : SMap α) (f : Nat × α → Bool) (h : swf d m = true) : swf d (m.filter f) = true := swfFrom_filter d m f none h

theorem swf_sfill (d : α) (m : SMap α) (k n : Nat) (v : α) (h : swf d m = true) : swf d (sfill d m k n v) = true := by
  induction n generalizing m k with
  | zero => exact h
  | succ n ih => exact ih _ _ (swf_sset d m k v h)

theorem swf_ssetBytes (m : SMap Byte) (k n v : Nat) (h : swf 0#8 m = true) : swf 0#8 (ssetBytes m k n v) = true := by
  induction n generalizing m k v with
  | zero => exact h
  | succ n ih => exact ih _ _ _ (swf_sset 0#8 m k _ h)

/-- Two maps in the form that read alike are equal. -/
theorem swf_ext (d : α) (m m' : SMap α) (h : swf d m = true) (h' : swf d m' = true) (hr : ∀ k, sget d m k = sget d m' k) : m = m' := by
  have low : ∀ (m : SMap α) (lo : Option Nat) (k : Nat), swfFrom d lo m = true → (∃ l, lo = some l ∧ k ≤ l) → sget d m k = d := by
    intro m
    induction m with
    | nil => intros; rfl
    | cons e r ih =>
      obtain ⟨a, v⟩ := e
      rintro lo k h ⟨l, rfl, hk⟩
      rw [swfFrom_cons] at h
      have ha := h.1 l rfl
      simp only [sget, show a ≠ k by omega, if_false]
      exact ih _ _ h.2.2 ⟨a, rfl, by omega⟩
  suffices key : ∀ (m m' : SMap α) (lo : Option Nat), swfFrom d lo m = true → swfFrom d lo m' = true → (∀ k, sget d m k = sget d m' k) → m = m' from
    key m m' none h h' hr
  intro m
  induction m with
  | nil =>
    intro m' lo _ h' hr
    cases m' with
    | nil => rfl
    | cons e r => obtain ⟨a, v⟩ := e; rw [swfFrom_cons] at h'; exact absurd (hr a).symm (by simp [sget, h'.2.1])
  | cons e r ih =>
    obtain ⟨a, v⟩ := e
    intro m' lo h h' hr
    cases m' with
    | nil => rw [swfFrom_cons] at h; exact absurd (hr a) (by simp [sget, h.2.1])
    | cons e' r' =>
      obtain ⟨b, w⟩ := e'
      rw [swfFrom_cons] at h h'
      have hab : a = b := by
        by_cases h1 : a < b
        · have := hr a
          simp only [sget, if_true, show b ≠ a by omega, if_false] at this
          rw [low r' (some b) a h'.2.2 ⟨b, rfl, by omega⟩] at this
          exact absurd this h.2.1
        · by_cases h2 : b < a
          · have := hr b
            simp only [sget, if_true, show a ≠ b by omega, if_false] at this
            rw [low r (some a) b h.2.2 ⟨a, rfl, by omega⟩] at this
            exact absurd this.symm h'.2.1
          · omega
      subst hab
      have hv : v = w := by have := hr a; simpa [sget] using this
      subst hv
      have : r = r' := ih r' (some a) h.2.2 h'.2.2 fun k => by
        by_cases hk : a = k
        · subst hk; rw [low r (some a) a h.2.2 ⟨a, rfl, by omega⟩, low r' (some a) a h'.2.2 ⟨a, rfl, by omega⟩]
        · have := hr k; simpa [sget, hk] using this
      rw [this]

/-! ### Writing a key twice -/

theorem serase_serase {α : Type} (k : Nat) (m : SMap α) : serase k (serase k m) = serase k m := by
  induction m with
  | nil => rfl
  | cons e r ih =>
    by_cases h : e.1 = k
    · simp [serase, h, ih]
    · simp [serase, h, ih]
theorem serase_sinsert {α : Type} (k : Nat) (v : α) (m : SMap α) : serase k (sinsert k v m) = serase k m := by
  induction m with
  | nil => simp [serase, sinsert]
  | cons e r ih =>
    by_cases h : k < e.1
    · simp [serase, sinsert, h]
    · by_cases h' : e.1 = k
      · simp [serase, sinsert, h', ih]
      · simp [serase, sinsert, h, h', ih]
/-- The second write of a key alone counts. -/
@[simp] theorem sset_sset {α : Type} [DecidableEq α] (d : α) (m : SMap α) (k : Nat) (v w : α) : sset d (sset d m k v) k w = sset d m k w := by
  have h : serase k (sset d m k v) = serase k m := by
    unfold sset
    split
    · exact serase_serase k m
    · rw [serase_sinsert, serase_serase]
  rw [sset, h]; rfl

end Sys2Proof.Machine
end

