-- ==== Sys2Proof/Laws/State.lean ====
section
/-! SUPPORT. What each update of the state leaves alone, one lemma for each field, so that no proof unfolds a record update. An update by
name is rewritten to setTile, setCore, setBank and the like; a field then passes through. -/

namespace Sys2Proof.Machine

/-! ### Updates by name -/

@[simp] theorem State.upT_eq (s : State) (t : Nat) (f : Tile → Tile) : s.upT t f = s.setTile t (f (s.tile t)) := rfl
@[simp] theorem State.upHere_eq (s : State) (f : Tile → Tile) : s.upHere f = s.setTile s.curT (f s.here) := rfl
@[simp] theorem State.upCore_eq (s : State) (f : Core → Core) : s.upCore f = s.setTile s.curT (s.here.setCore s.curC (f s.core)) := rfl
@[simp] theorem State.upCoreAt_eq (s : State) (t c : Nat) (f : Core → Core) :
    s.upCoreAt t c f = s.setTile t ((s.tile t).setCore c (f (s.coreAt t c))) := rfl
@[simp] theorem Tile.upC_eq (x : Tile) (c : Nat) (f : Core → Core) : x.upC c f = x.setCore c (f (x.core c)) := rfl

/-! ### Reads after updates -/

@[simp] theorem State.tile_setTile (s : State) (t : Nat) (x : Tile) : (s.setTile t x).tile t = x := sget_sset_self _ _ _ _
theorem State.tile_setTile_ne (s : State) (t u : Nat) (x : Tile) (h : u ≠ t) : (s.setTile t x).tile u = s.tile u := sget_sset_ne _ _ _ _ _ h
theorem State.tile_setTile_if (s : State) (t u : Nat) (x : Tile) : (s.setTile t x).tile u = if u = t then x else s.tile u := sget_sset _ _ _ _ _
@[simp] theorem State.here_setTile (s : State) (x : Tile) : (s.setTile s.curT x).here = x := sget_sset_self _ _ _ _
@[simp] theorem Tile.core_setCore (x : Tile) (c : Nat) (y : Core) : (x.setCore c y).core c = y := sget_sset_self _ _ _ _
theorem Tile.core_setCore_ne (x : Tile) (c d : Nat) (y : Core) (h : d ≠ c) : (x.setCore c y).core d = x.core d := sget_sset_ne _ _ _ _ _ h
theorem Tile.core_setCore_if (x : Tile) (c d : Nat) (y : Core) : (x.setCore c y).core d = if d = c then y else x.core d := sget_sset _ _ _ _ _
/-! ### State -/

@[simp] theorem State.setTile_gcyc (s : State) (t : Nat) (x : Tile) : (s.setTile t x).gcyc = s.gcyc := rfl
@[simp] theorem State.setTile_haltSum (s : State) (t : Nat) (x : Tile) : (s.setTile t x).haltSum = s.haltSum := rfl
@[simp] theorem State.setTile_agenda (s : State) (t : Nat) (x : Tile) : (s.setTile t x).agenda = s.agenda := rfl
@[simp] theorem State.setTile_curT (s : State) (t : Nat) (x : Tile) : (s.setTile t x).curT = s.curT := rfl
@[simp] theorem State.setTile_curC (s : State) (t : Nat) (x : Tile) : (s.setTile t x).curC = s.curC := rfl
@[simp] theorem State.setTile_curArg (s : State) (t : Nat) (x : Tile) : (s.setTile t x).curArg = s.curArg := rfl
@[simp] theorem State.setTile_slot (s : State) (t : Nat) (x : Tile) : (s.setTile t x).slot = s.slot := rfl
@[simp] theorem State.setTile_leaf (s : State) (t : Nat) (x : Tile) : (s.setTile t x).leaf = s.leaf := rfl
@[simp] theorem State.setTile_words (s : State) (t : Nat) (x : Tile) : (s.setTile t x).words = s.words := rfl
@[simp] theorem State.setTile_before (s : State) (t : Nat) (x : Tile) : (s.setTile t x).before = s.before := rfl
@[simp] theorem State.setTile_raised (s : State) (t : Nat) (x : Tile) : (s.setTile t x).raised = s.raised := rfl
@[simp] theorem State.setTile_free (s : State) (t : Nat) (x : Tile) : (s.setTile t x).free = s.free := rfl
@[simp] theorem State.setTile_inputs (s : State) (t : Nat) (x : Tile) : (s.setTile t x).inputs = s.inputs := rfl
@[simp] theorem State.setTile_hostIn (s : State) (t : Nat) (x : Tile) : (s.setTile t x).hostIn = s.hostIn := rfl
@[simp] theorem State.setTile_domW (s : State) (t : Nat) (x : Tile) : (s.setTile t x).domW = s.domW := rfl
@[simp] theorem State.setTile_domH (s : State) (t : Nat) (x : Tile) : (s.setTile t x).domH = s.domH := rfl
@[simp] theorem State.setTile_wx (s : State) (t : Nat) (x : Tile) : (s.setTile t x).wx = s.wx := rfl
@[simp] theorem State.setTile_wy (s : State) (t : Nat) (x : Tile) : (s.setTile t x).wy = s.wy := rfl
@[simp] theorem State.setTile_boot (s : State) (t : Nat) (x : Tile) : (s.setTile t x).boot = s.boot := rfl
@[simp] theorem State.setTile_selfFail (s : State) (t : Nat) (x : Tile) : (s.setTile t x).selfFail = s.selfFail := rfl
@[simp] theorem State.setTile_recFail (s : State) (t : Nat) (x : Tile) : (s.setTile t x).recFail = s.recFail := rfl
@[simp] theorem State.setTile_flashOk (s : State) (t : Nat) (x : Tile) : (s.setTile t x).flashOk = s.flashOk := rfl
@[simp] theorem State.setTile_pufOk (s : State) (t : Nat) (x : Tile) : (s.setTile t x).pufOk = s.pufOk := rfl
@[simp] theorem State.setTile_defectCause (s : State) (t : Nat) (x : Tile) : (s.setTile t x).defectCause = s.defectCause := rfl
@[simp] theorem State.setTile_seg (s : State) (t : Nat) (x : Tile) : (s.setTile t x).seg = s.seg := rfl
@[simp] theorem State.setTile_ovl (s : State) (t : Nat) (x : Tile) : (s.setTile t x).ovl = s.ovl := rfl
@[simp] theorem State.setTile_pendOvl (s : State) (t : Nat) (x : Tile) : (s.setTile t x).pendOvl = s.pendOvl := rfl
@[simp] theorem State.setTile_physFail (s : State) (t : Nat) (x : Tile) : (s.setTile t x).physFail = s.physFail := rfl
@[simp] theorem State.setTile_migs (s : State) (t : Nat) (x : Tile) : (s.setTile t x).migs = s.migs := rfl
@[simp] theorem State.setTile_flights (s : State) (t : Nat) (x : Tile) : (s.setTile t x).flights = s.flights := rfl
@[simp] theorem State.setTile_optOut (s : State) (t : Nat) (x : Tile) : (s.setTile t x).optOut = s.optOut := rfl
@[simp] theorem State.setTile_t2 (s : State) (t : Nat) (x : Tile) : (s.setTile t x).t2 = s.t2 := rfl
@[simp] theorem State.setTile_t2media (s : State) (t : Nat) (x : Tile) : (s.setTile t x).t2media = s.t2media := rfl
@[simp] theorem State.setTile_t2tag (s : State) (t : Nat) (x : Tile) : (s.setTile t x).t2tag = s.t2tag := rfl
@[simp] theorem State.setTile_range (s : State) (t : Nat) (x : Tile) : (s.setTile t x).range = s.range := rfl
@[simp] theorem State.setTile_ptRoot (s : State) (t : Nat) (x : Tile) : (s.setTile t x).ptRoot = s.ptRoot := rfl
@[simp] theorem State.setTile_tlb (s : State) (t : Nat) (x : Tile) : (s.setTile t x).tlb = s.tlb := rfl
@[simp] theorem State.setTile_portA (s : State) (t : Nat) (x : Tile) : (s.setTile t x).portA = s.portA := rfl
@[simp] theorem State.setTile_portB (s : State) (t : Nat) (x : Tile) : (s.setTile t x).portB = s.portB := rfl
@[simp] theorem State.setTile_sem (s : State) (t : Nat) (x : Tile) : (s.setTile t x).sem = s.sem := rfl
@[simp] theorem State.setTile_semTie (s : State) (t : Nat) (x : Tile) : (s.setTile t x).semTie = s.semTie := rfl
@[simp] theorem State.setTile_otmo (s : State) (t : Nat) (x : Tile) : (s.setTile t x).otmo = s.otmo := rfl
@[simp] theorem State.setTile_idleSince (s : State) (t : Nat) (x : Tile) : (s.setTile t x).idleSince = s.idleSince := rfl
@[simp] theorem State.setTile_scrubEnd (s : State) (t : Nat) (x : Tile) : (s.setTile t x).scrubEnd = s.scrubEnd := rfl
@[simp] theorem State.setTile_scrubFree (s : State) (t : Nat) (x : Tile) : (s.setTile t x).scrubFree = s.scrubFree := rfl
@[simp] theorem State.setTile_keysEpoch (s : State) (t : Nat) (x : Tile) : (s.setTile t x).keysEpoch = s.keysEpoch := rfl
@[simp] theorem State.setTile_imgHash (s : State) (t : Nat) (x : Tile) : (s.setTile t x).imgHash = s.imgHash := rfl
@[simp] theorem State.setTile_dbgAuth (s : State) (t : Nat) (x : Tile) : (s.setTile t x).dbgAuth = s.dbgAuth := rfl
@[simp] theorem State.setTile_dbgEver (s : State) (t : Nat) (x : Tile) : (s.setTile t x).dbgEver = s.dbgEver := rfl
@[simp] theorem State.setTile_dbgMask (s : State) (t : Nat) (x : Tile) : (s.setTile t x).dbgMask = s.dbgMask := rfl
@[simp] theorem State.setTile_challenge (s : State) (t : Nat) (x : Tile) : (s.setTile t x).challenge = s.challenge := rfl
@[simp] theorem State.setTile_haltAt (s : State) (t : Nat) (x : Tile) : (s.setTile t x).haltAt = s.haltAt := rfl
@[simp] theorem State.setTile_halted (s : State) (t : Nat) (x : Tile) : (s.setTile t x).halted = s.halted := rfl
@[simp] theorem State.setTile_haltLeft (s : State) (t : Nat) (x : Tile) : (s.setTile t x).haltLeft = s.haltLeft := rfl
@[simp] theorem State.setTile_resumeAt (s : State) (t : Nat) (x : Tile) : (s.setTile t x).resumeAt = s.resumeAt := rfl
@[simp] theorem State.setTile_cap (s : State) (t : Nat) (x : Tile) : (s.setTile t x).cap = s.cap := rfl
@[simp] theorem State.setTile_reqPoint (s : State) (t : Nat) (x : Tile) : (s.setTile t x).reqPoint = s.reqPoint := rfl
@[simp] theorem State.setTile_chosen (s : State) (t : Nat) (x : Tile) : (s.setTile t x).chosen = s.chosen := rfl
@[simp] theorem State.setTile_point (s : State) (t : Nat) (x : Tile) : (s.setTile t x).point = s.point := rfl
@[simp] theorem State.setTile_markSet (s : State) (t : Nat) (x : Tile) : (s.setTile t x).markSet = s.markSet := rfl
@[simp] theorem State.setTile_marksOut (s : State) (t : Nat) (x : Tile) : (s.setTile t x).marksOut = s.marksOut := rfl
@[simp] theorem State.setTile_clkAt (s : State) (t : Nat) (x : Tile) : (s.setTile t x).clkAt = s.clkAt := rfl
@[simp] theorem State.setTile_clkTo (s : State) (t : Nat) (x : Tile) : (s.setTile t x).clkTo = s.clkTo := rfl
@[simp] theorem State.setTile_winAt (s : State) (t : Nat) (x : Tile) : (s.setTile t x).winAt = s.winAt := rfl
@[simp] theorem State.setTile_lowWin (s : State) (t : Nat) (x : Tile) : (s.setTile t x).lowWin = s.lowWin := rfl
@[simp] theorem State.setTile_nWin (s : State) (t : Nat) (x : Tile) : (s.setTile t x).nWin = s.nWin := rfl
@[simp] theorem State.setTile_energy (s : State) (t : Nat) (x : Tile) : (s.setTile t x).energy = s.energy := rfl
@[simp] theorem State.setTile_ckpts (s : State) (t : Nat) (x : Tile) : (s.setTile t x).ckpts = s.ckpts := rfl
@[simp] theorem State.setTile_aborted (s : State) (t : Nat) (x : Tile) : (s.setTile t x).aborted = s.aborted := rfl
@[simp] theorem State.setTile_runs (s : State) (t : Nat) (x : Tile) : (s.setTile t x).runs = s.runs := rfl
@[simp] theorem State.setTile_gangRel (s : State) (t : Nat) (x : Tile) : (s.setTile t x).gangRel = s.gangRel := rfl
@[simp] theorem State.setTile_restoreAt (s : State) (t : Nat) (x : Tile) : (s.setTile t x).restoreAt = s.restoreAt := rfl
@[simp] theorem State.setTile_balAt (s : State) (t : Nat) (x : Tile) : (s.setTile t x).balAt = s.balAt := rfl
@[simp] theorem State.setTile_snaps (s : State) (t : Nat) (x : Tile) : (s.setTile t x).snaps = s.snaps := rfl
@[simp] theorem State.setTile_restores (s : State) (t : Nat) (x : Tile) : (s.setTile t x).restores = s.restores := rfl
@[simp] theorem State.setTile_pendMap (s : State) (t : Nat) (x : Tile) : (s.setTile t x).pendMap = s.pendMap := rfl
@[simp] theorem State.setTile_worked (s : State) (t : Nat) (x : Tile) : (s.setTile t x).worked = s.worked := rfl
@[simp] theorem State.setTile_energyOff (s : State) (t : Nat) (x : Tile) : (s.setTile t x).energyOff = s.energyOff := rfl

@[simp] theorem State.draw_gcyc (s : State) : (s.draw).gcyc = s.gcyc := rfl
@[simp] theorem State.draw_haltSum (s : State) : (s.draw).haltSum = s.haltSum := rfl
@[simp] theorem State.draw_agenda (s : State) : (s.draw).agenda = s.agenda := rfl
@[simp] theorem State.draw_curT (s : State) : (s.draw).curT = s.curT := rfl
@[simp] theorem State.draw_curC (s : State) : (s.draw).curC = s.curC := rfl
@[simp] theorem State.draw_curArg (s : State) : (s.draw).curArg = s.curArg := rfl
@[simp] theorem State.draw_slot (s : State) : (s.draw).slot = s.slot := rfl
@[simp] theorem State.draw_leaf (s : State) : (s.draw).leaf = s.leaf := rfl
@[simp] theorem State.draw_words (s : State) : (s.draw).words = s.words := rfl
@[simp] theorem State.draw_before (s : State) : (s.draw).before = s.before := rfl
@[simp] theorem State.draw_raised (s : State) : (s.draw).raised = s.raised := rfl
@[simp] theorem State.draw_inputs (s : State) : (s.draw).inputs = s.inputs := rfl
@[simp] theorem State.draw_hostIn (s : State) : (s.draw).hostIn = s.hostIn := rfl
@[simp] theorem State.draw_domW (s : State) : (s.draw).domW = s.domW := rfl
@[simp] theorem State.draw_domH (s : State) : (s.draw).domH = s.domH := rfl
@[simp] theorem State.draw_wx (s : State) : (s.draw).wx = s.wx := rfl
@[simp] theorem State.draw_wy (s : State) : (s.draw).wy = s.wy := rfl
@[simp] theorem State.draw_boot (s : State) : (s.draw).boot = s.boot := rfl
@[simp] theorem State.draw_selfFail (s : State) : (s.draw).selfFail = s.selfFail := rfl
@[simp] theorem State.draw_recFail (s : State) : (s.draw).recFail = s.recFail := rfl
@[simp] theorem State.draw_flashOk (s : State) : (s.draw).flashOk = s.flashOk := rfl
@[simp] theorem State.draw_pufOk (s : State) : (s.draw).pufOk = s.pufOk := rfl
@[simp] theorem State.draw_defectCause (s : State) : (s.draw).defectCause = s.defectCause := rfl
@[simp] theorem State.draw_seg (s : State) : (s.draw).seg = s.seg := rfl
@[simp] theorem State.draw_ovl (s : State) : (s.draw).ovl = s.ovl := rfl
@[simp] theorem State.draw_pendOvl (s : State) : (s.draw).pendOvl = s.pendOvl := rfl
@[simp] theorem State.draw_physFail (s : State) : (s.draw).physFail = s.physFail := rfl
@[simp] theorem State.draw_migs (s : State) : (s.draw).migs = s.migs := rfl
@[simp] theorem State.draw_tiles (s : State) : (s.draw).tiles = s.tiles := rfl
@[simp] theorem State.draw_flights (s : State) : (s.draw).flights = s.flights := rfl
@[simp] theorem State.draw_optOut (s : State) : (s.draw).optOut = s.optOut := rfl
@[simp] theorem State.draw_t2 (s : State) : (s.draw).t2 = s.t2 := rfl
@[simp] theorem State.draw_t2media (s : State) : (s.draw).t2media = s.t2media := rfl
@[simp] theorem State.draw_t2tag (s : State) : (s.draw).t2tag = s.t2tag := rfl
@[simp] theorem State.draw_range (s : State) : (s.draw).range = s.range := rfl
@[simp] theorem State.draw_ptRoot (s : State) : (s.draw).ptRoot = s.ptRoot := rfl
@[simp] theorem State.draw_tlb (s : State) : (s.draw).tlb = s.tlb := rfl
@[simp] theorem State.draw_portA (s : State) : (s.draw).portA = s.portA := rfl
@[simp] theorem State.draw_portB (s : State) : (s.draw).portB = s.portB := rfl
@[simp] theorem State.draw_sem (s : State) : (s.draw).sem = s.sem := rfl
@[simp] theorem State.draw_semTie (s : State) : (s.draw).semTie = s.semTie := rfl
@[simp] theorem State.draw_otmo (s : State) : (s.draw).otmo = s.otmo := rfl
@[simp] theorem State.draw_idleSince (s : State) : (s.draw).idleSince = s.idleSince := rfl
@[simp] theorem State.draw_scrubEnd (s : State) : (s.draw).scrubEnd = s.scrubEnd := rfl
@[simp] theorem State.draw_scrubFree (s : State) : (s.draw).scrubFree = s.scrubFree := rfl
@[simp] theorem State.draw_keysEpoch (s : State) : (s.draw).keysEpoch = s.keysEpoch := rfl
@[simp] theorem State.draw_imgHash (s : State) : (s.draw).imgHash = s.imgHash := rfl
@[simp] theorem State.draw_dbgAuth (s : State) : (s.draw).dbgAuth = s.dbgAuth := rfl
@[simp] theorem State.draw_dbgEver (s : State) : (s.draw).dbgEver = s.dbgEver := rfl
@[simp] theorem State.draw_dbgMask (s : State) : (s.draw).dbgMask = s.dbgMask := rfl
@[simp] theorem State.draw_challenge (s : State) : (s.draw).challenge = s.challenge := rfl
@[simp] theorem State.draw_haltAt (s : State) : (s.draw).haltAt = s.haltAt := rfl
@[simp] theorem State.draw_halted (s : State) : (s.draw).halted = s.halted := rfl
@[simp] theorem State.draw_haltLeft (s : State) : (s.draw).haltLeft = s.haltLeft := rfl
@[simp] theorem State.draw_resumeAt (s : State) : (s.draw).resumeAt = s.resumeAt := rfl
@[simp] theorem State.draw_cap (s : State) : (s.draw).cap = s.cap := rfl
@[simp] theorem State.draw_reqPoint (s : State) : (s.draw).reqPoint = s.reqPoint := rfl
@[simp] theorem State.draw_chosen (s : State) : (s.draw).chosen = s.chosen := rfl
@[simp] theorem State.draw_point (s : State) : (s.draw).point = s.point := rfl
@[simp] theorem State.draw_markSet (s : State) : (s.draw).markSet = s.markSet := rfl
@[simp] theorem State.draw_marksOut (s : State) : (s.draw).marksOut = s.marksOut := rfl
@[simp] theorem State.draw_clkAt (s : State) : (s.draw).clkAt = s.clkAt := rfl
@[simp] theorem State.draw_clkTo (s : State) : (s.draw).clkTo = s.clkTo := rfl
@[simp] theorem State.draw_winAt (s : State) : (s.draw).winAt = s.winAt := rfl
@[simp] theorem State.draw_lowWin (s : State) : (s.draw).lowWin = s.lowWin := rfl
@[simp] theorem State.draw_nWin (s : State) : (s.draw).nWin = s.nWin := rfl
@[simp] theorem State.draw_energy (s : State) : (s.draw).energy = s.energy := rfl
@[simp] theorem State.draw_ckpts (s : State) : (s.draw).ckpts = s.ckpts := rfl
@[simp] theorem State.draw_aborted (s : State) : (s.draw).aborted = s.aborted := rfl
@[simp] theorem State.draw_runs (s : State) : (s.draw).runs = s.runs := rfl
@[simp] theorem State.draw_gangRel (s : State) : (s.draw).gangRel = s.gangRel := rfl
@[simp] theorem State.draw_restoreAt (s : State) : (s.draw).restoreAt = s.restoreAt := rfl
@[simp] theorem State.draw_balAt (s : State) : (s.draw).balAt = s.balAt := rfl
@[simp] theorem State.draw_snaps (s : State) : (s.draw).snaps = s.snaps := rfl
@[simp] theorem State.draw_restores (s : State) : (s.draw).restores = s.restores := rfl
@[simp] theorem State.draw_pendMap (s : State) : (s.draw).pendMap = s.pendMap := rfl
@[simp] theorem State.draw_worked (s : State) : (s.draw).worked = s.worked := rfl
@[simp] theorem State.draw_energyOff (s : State) : (s.draw).energyOff = s.energyOff := rfl

/-! ### Tile -/

@[simp] theorem Tile.setCore_held (x : Tile) (c : Nat) (y : Core) : (x.setCore c y).held = x.held := rfl
@[simp] theorem Tile.setCore_stage (x : Tile) (c : Nat) (y : Core) : (x.setCore c y).stage = x.stage := rfl
@[simp] theorem Tile.setCore_lag (x : Tile) (c : Nat) (y : Core) : (x.setCore c y).lag = x.lag := rfl
@[simp] theorem Tile.setCore_frz (x : Tile) (c : Nat) (y : Core) : (x.setCore c y).frz = x.frz := rfl
@[simp] theorem Tile.setCore_lastBal (x : Tile) (c : Nat) (y : Core) : (x.setCore c y).lastBal = x.lastBal := rfl
@[simp] theorem Tile.setCore_nBal (x : Tile) (c : Nat) (y : Core) : (x.setCore c y).nBal = x.nBal := rfl
@[simp] theorem Tile.setCore_ps (x : Tile) (c : Nat) (y : Core) : (x.setCore c y).ps = x.ps := rfl
@[simp] theorem Tile.setCore_retLoss (x : Tile) (c : Nat) (y : Core) : (x.setCore c y).retLoss = x.retLoss := rfl
@[simp] theorem Tile.setCore_retBad (x : Tile) (c : Nat) (y : Core) : (x.setCore c y).retBad = x.retBad := rfl
@[simp] theorem Tile.setCore_tm (x : Tile) (c : Nat) (y : Core) : (x.setCore c y).tm = x.tm := rfl
@[simp] theorem Tile.setCore_tmPoi (x : Tile) (c : Nat) (y : Core) : (x.setCore c y).tmPoi = x.tmPoi := rfl
@[simp] theorem Tile.setCore_ds (x : Tile) (c : Nat) (y : Core) : (x.setCore c y).ds = x.ds := rfl
@[simp] theorem Tile.setCore_dsPoi (x : Tile) (c : Nat) (y : Core) : (x.setCore c y).dsPoi = x.dsPoi := rfl
@[simp] theorem Tile.setCore_errs (x : Tile) (c : Nat) (y : Core) : (x.setCore c y).errs = x.errs := rfl
@[simp] theorem Tile.setCore_seen (x : Tile) (c : Nat) (y : Core) : (x.setCore c y).seen = x.seen := rfl
@[simp] theorem Tile.setCore_code (x : Tile) (c : Nat) (y : Core) : (x.setCore c y).code = x.code := rfl
@[simp] theorem Tile.setCore_cmap (x : Tile) (c : Nat) (y : Core) : (x.setCore c y).cmap = x.cmap := rfl
@[simp] theorem Tile.setCore_pages (x : Tile) (c : Nat) (y : Core) : (x.setCore c y).pages = x.pages := rfl
@[simp] theorem Tile.setCore_monRom (x : Tile) (c : Nat) (y : Core) : (x.setCore c y).monRom = x.monRom := rfl
@[simp] theorem Tile.setCore_latch (x : Tile) (c : Nat) (y : Core) : (x.setCore c y).latch = x.latch := rfl
@[simp] theorem Tile.setCore_latchPoi (x : Tile) (c : Nat) (y : Core) : (x.setCore c y).latchPoi = x.latchPoi := rfl
@[simp] theorem Tile.setCore_leaseCore (x : Tile) (c : Nat) (y : Core) : (x.setCore c y).leaseCore = x.leaseCore := rfl
@[simp] theorem Tile.setCore_leaseLast (x : Tile) (c : Nat) (y : Core) : (x.setCore c y).leaseLast = x.leaseLast := rfl
@[simp] theorem Tile.setCore_leaseReq (x : Tile) (c : Nat) (y : Core) : (x.setCore c y).leaseReq = x.leaseReq := rfl
@[simp] theorem Tile.setCore_arrSpans (x : Tile) (c : Nat) (y : Core) : (x.setCore c y).arrSpans = x.arrSpans := rfl
@[simp] theorem Tile.setCore_lwtSpans (x : Tile) (c : Nat) (y : Core) : (x.setCore c y).lwtSpans = x.lwtSpans := rfl
@[simp] theorem Tile.setCore_latchRdy (x : Tile) (c : Nat) (y : Core) : (x.setCore c y).latchRdy = x.latchRdy := rfl
@[simp] theorem Tile.setCore_latchRead (x : Tile) (c : Nat) (y : Core) : (x.setCore c y).latchRead = x.latchRead := rfl
@[simp] theorem Tile.setCore_paths (x : Tile) (c : Nat) (y : Core) : (x.setCore c y).paths = x.paths := rfl
@[simp] theorem Tile.setCore_banks (x : Tile) (c : Nat) (y : Core) : (x.setCore c y).banks = x.banks := rfl
@[simp] theorem Tile.setCore_cmdSeq (x : Tile) (c : Nat) (y : Core) : (x.setCore c y).cmdSeq = x.cmdSeq := rfl
@[simp] theorem Tile.setCore_gang (x : Tile) (c : Nat) (y : Core) : (x.setCore c y).gang = x.gang := rfl
@[simp] theorem Tile.setCore_gangN (x : Tile) (c : Nat) (y : Core) : (x.setCore c y).gangN = x.gangN := rfl
@[simp] theorem Tile.setCore_gangBuf (x : Tile) (c : Nat) (y : Core) : (x.setCore c y).gangBuf = x.gangBuf := rfl
@[simp] theorem Tile.setCore_copyQ (x : Tile) (c : Nat) (y : Core) : (x.setCore c y).copyQ = x.copyQ := rfl
@[simp] theorem Tile.setCore_busLog (x : Tile) (c : Nat) (y : Core) : (x.setCore c y).busLog = x.busLog := rfl
@[simp] theorem Tile.setCore_badBus (x : Tile) (c : Nat) (y : Core) : (x.setCore c y).badBus = x.badBus := rfl
@[simp] theorem Tile.setCore_laneTest (x : Tile) (c : Nat) (y : Core) : (x.setCore c y).laneTest = x.laneTest := rfl
@[simp] theorem Tile.setCore_streams (x : Tile) (c : Nat) (y : Core) : (x.setCore c y).streams = x.streams := rfl
@[simp] theorem Tile.setCore_chans (x : Tile) (c : Nat) (y : Core) : (x.setCore c y).chans = x.chans := rfl
@[simp] theorem Tile.setCore_groups (x : Tile) (c : Nat) (y : Core) : (x.setCore c y).groups = x.groups := rfl
@[simp] theorem Tile.setCore_cq (x : Tile) (c : Nat) (y : Core) : (x.setCore c y).cq = x.cq := rfl
@[simp] theorem Tile.setCore_routes (x : Tile) (c : Nat) (y : Core) : (x.setCore c y).routes = x.routes := rfl
@[simp] theorem Tile.setCore_sends (x : Tile) (c : Nat) (y : Core) : (x.setCore c y).sends = x.sends := rfl
@[simp] theorem Tile.setCore_lee (x : Tile) (c : Nat) (y : Core) : (x.setCore c y).lee = x.lee := rfl
@[simp] theorem Tile.setCore_fence (x : Tile) (c : Nat) (y : Core) : (x.setCore c y).fence = x.fence := rfl
@[simp] theorem Tile.setCore_relOpen (x : Tile) (c : Nat) (y : Core) : (x.setCore c y).relOpen = x.relOpen := rfl
@[simp] theorem Tile.setCore_rels (x : Tile) (c : Nat) (y : Core) : (x.setCore c y).rels = x.rels := rfl
@[simp] theorem Tile.setCore_arrq (x : Tile) (c : Nat) (y : Core) : (x.setCore c y).arrq = x.arrq := rfl
@[simp] theorem Tile.setCore_hold (x : Tile) (c : Nat) (y : Core) : (x.setCore c y).hold = x.hold := rfl
@[simp] theorem Tile.setCore_store (x : Tile) (c : Nat) (y : Core) : (x.setCore c y).store = x.store := rfl
@[simp] theorem Tile.setCore_linkFree (x : Tile) (c : Nat) (y : Core) : (x.setCore c y).linkFree = x.linkFree := rfl
@[simp] theorem Tile.setCore_rr (x : Tile) (c : Nat) (y : Core) : (x.setCore c y).rr = x.rr := rfl
@[simp] theorem Tile.setCore_noCode (x : Tile) (c : Nat) (y : Core) : (x.setCore c y).noCode = x.noCode := rfl
@[simp] theorem Tile.setCore_side (x : Tile) (c : Nat) (y : Core) : (x.setCore c y).side = x.side := rfl
@[simp] theorem Tile.setCore_decEn (x : Tile) (c : Nat) (y : Core) : (x.setCore c y).decEn = x.decEn := rfl
@[simp] theorem Tile.setCore_decStrict (x : Tile) (c : Nat) (y : Core) : (x.setCore c y).decStrict = x.decStrict := rfl
@[simp] theorem Tile.setCore_decBad (x : Tile) (c : Nat) (y : Core) : (x.setCore c y).decBad = x.decBad := rfl
@[simp] theorem Tile.setCore_decCfgQ (x : Tile) (c : Nat) (y : Core) : (x.setCore c y).decCfgQ = x.decCfgQ := rfl
@[simp] theorem Tile.setCore_decQ (x : Tile) (c : Nat) (y : Core) : (x.setCore c y).decQ = x.decQ := rfl
@[simp] theorem Tile.setCore_decCur (x : Tile) (c : Nat) (y : Core) : (x.setCore c y).decCur = x.decCur := rfl
@[simp] theorem Tile.setCore_dcar (x : Tile) (c : Nat) (y : Core) : (x.setCore c y).dcar = x.dcar := rfl
@[simp] theorem Tile.setCore_dflt (x : Tile) (c : Nat) (y : Core) : (x.setCore c y).dflt = x.dflt := rfl
@[simp] theorem Tile.setCore_dnak (x : Tile) (c : Nat) (y : Core) : (x.setCore c y).dnak = x.dnak := rfl
@[simp] theorem Tile.setCore_dres (x : Tile) (c : Nat) (y : Core) : (x.setCore c y).dres = x.dres := rfl
@[simp] theorem Tile.setCore_ccar (x : Tile) (c : Nat) (y : Core) : (x.setCore c y).ccar = x.ccar := rfl
@[simp] theorem Tile.setCore_cunc (x : Tile) (c : Nat) (y : Core) : (x.setCore c y).cunc = x.cunc := rfl
@[simp] theorem Tile.setCore_cres (x : Tile) (c : Nat) (y : Core) : (x.setCore c y).cres = x.cres := rfl
@[simp] theorem Tile.setCore_nodes (x : Tile) (c : Nat) (y : Core) : (x.setCore c y).nodes = x.nodes := rfl
@[simp] theorem Tile.setCore_succ (x : Tile) (c : Nat) (y : Core) : (x.setCore c y).succ = x.succ := rfl
@[simp] theorem Tile.setCore_nrt (x : Tile) (c : Nat) (y : Core) : (x.setCore c y).nrt = x.nrt := rfl
@[simp] theorem Tile.setCore_running (x : Tile) (c : Nat) (y : Core) : (x.setCore c y).running = x.running := rfl
@[simp] theorem Tile.setCore_comp (x : Tile) (c : Nat) (y : Core) : (x.setCore c y).comp = x.comp := rfl
@[simp] theorem Tile.setCore_lcnt (x : Tile) (c : Nat) (y : Core) : (x.setCore c y).lcnt = x.lcnt := rfl
@[simp] theorem Tile.setCore_launchQ (x : Tile) (c : Nat) (y : Core) : (x.setCore c y).launchQ = x.launchQ := rfl
@[simp] theorem Tile.setCore_barE (x : Tile) (c : Nat) (y : Core) : (x.setCore c y).barE = x.barE := rfl
@[simp] theorem Tile.setCore_gangE (x : Tile) (c : Nat) (y : Core) : (x.setCore c y).gangE = x.gangE := rfl
@[simp] theorem Tile.setCore_cw (x : Tile) (c : Nat) (y : Core) : (x.setCore c y).cw = x.cw := rfl
@[simp] theorem Tile.setCore_replays (x : Tile) (c : Nat) (y : Core) : (x.setCore c y).replays = x.replays := rfl
@[simp] theorem Tile.setCore_marks (x : Tile) (c : Nat) (y : Core) : (x.setCore c y).marks = x.marks := rfl
@[simp] theorem Tile.setCore_errbank (x : Tile) (c : Nat) (y : Core) : (x.setCore c y).errbank = x.errbank := rfl
@[simp] theorem Tile.setCore_corr (x : Tile) (c : Nat) (y : Core) : (x.setCore c y).corr = x.corr := rfl
@[simp] theorem Tile.setCore_wantMig (x : Tile) (c : Nat) (y : Core) : (x.setCore c y).wantMig = x.wantMig := rfl
@[simp] theorem Tile.setCore_strikes (x : Tile) (c : Nat) (y : Core) : (x.setCore c y).strikes = x.strikes := rfl
@[simp] theorem Tile.setCore_ck (x : Tile) (c : Nat) (y : Core) : (x.setCore c y).ck = x.ck := rfl
@[simp] theorem Tile.setCore_undo (x : Tile) (c : Nat) (y : Core) : (x.setCore c y).undo = x.undo := rfl
@[simp] theorem Tile.setCore_journal (x : Tile) (c : Nat) (y : Core) : (x.setCore c y).journal = x.journal := rfl
@[simp] theorem Tile.setCore_save (x : Tile) (c : Nat) (y : Core) : (x.setCore c y).save = x.save := rfl
@[simp] theorem Tile.setCore_savedArr (x : Tile) (c : Nat) (y : Core) : (x.setCore c y).savedArr = x.savedArr := rfl
@[simp] theorem Tile.setCore_stepLeft (x : Tile) (c : Nat) (y : Core) : (x.setCore c y).stepLeft = x.stepLeft := rfl
@[simp] theorem Tile.setCore_leaseAt (x : Tile) (c : Nat) (y : Core) : (x.setCore c y).leaseAt = x.leaseAt := rfl
@[simp] theorem Tile.setCore_outst (x : Tile) (c : Nat) (y : Core) : (x.setCore c y).outst = x.outst := rfl
@[simp] theorem Tile.setCore_errEvts (x : Tile) (c : Nat) (y : Core) : (x.setCore c y).errEvts = x.errEvts := rfl
@[simp] theorem Tile.setCore_errAt (x : Tile) (c : Nat) (y : Core) : (x.setCore c y).errAt = x.errAt := rfl
@[simp] theorem Tile.setCore_errBase (x : Tile) (c : Nat) (y : Core) : (x.setCore c y).errBase = x.errBase := rfl
@[simp] theorem Tile.setCore_back (x : Tile) (c : Nat) (y : Core) : (x.setCore c y).back = x.back := rfl
@[simp] theorem Tile.setCore_undoOld (x : Tile) (c : Nat) (y : Core) : (x.setCore c y).undoOld = x.undoOld := rfl
@[simp] theorem Tile.setCore_outside (x : Tile) (c : Nat) (y : Core) : (x.setCore c y).outside = x.outside := rfl
@[simp] theorem Tile.setCore_outsideOld (x : Tile) (c : Nat) (y : Core) : (x.setCore c y).outsideOld = x.outsideOld := rfl
@[simp] theorem Tile.setCore_clock (x : Tile) (c : Nat) (y : Core) : (x.setCore c y).clock = x.clock := rfl
@[simp] theorem Tile.setCore_draws (x : Tile) (c : Nat) (y : Core) : (x.setCore c y).draws = x.draws := rfl
@[simp] theorem Tile.setCore_gone (x : Tile) (c : Nat) (y : Core) : (x.setCore c y).gone = x.gone := rfl
@[simp] theorem Tile.setCore_parity (x : Tile) (c : Nat) (y : Core) : (x.setCore c y).parity = x.parity := rfl
@[simp] theorem Tile.setCore_crgIgn (x : Tile) (c : Nat) (y : Core) : (x.setCore c y).crgIgn = x.crgIgn := rfl
@[simp] theorem Tile.setCore_replayTo (x : Tile) (c : Nat) (y : Core) : (x.setCore c y).replayTo = x.replayTo := rfl
@[simp] theorem Tile.setCore_toRedo (x : Tile) (c : Nat) (y : Core) : (x.setCore c y).toRedo = x.toRedo := rfl
@[simp] theorem Tile.setCore_late (x : Tile) (c : Nat) (y : Core) : (x.setCore c y).late = x.late := rfl
@[simp] theorem Tile.setCore_barsAt (x : Tile) (c : Nat) (y : Core) : (x.setCore c y).barsAt = x.barsAt := rfl
@[simp] theorem Tile.setCore_answers (x : Tile) (c : Nat) (y : Core) : (x.setCore c y).answers = x.answers := rfl
@[simp] theorem Tile.setCore_redo (x : Tile) (c : Nat) (y : Core) : (x.setCore c y).redo = x.redo := rfl
@[simp] theorem Tile.setCore_laneNone (x : Tile) (c : Nat) (y : Core) : (x.setCore c y).laneNone = x.laneNone := rfl
@[simp] theorem Tile.setCore_adding (x : Tile) (c : Nat) (y : Core) : (x.setCore c y).adding = x.adding := rfl

/-! ### Core -/

@[simp] theorem Core.setTok_task (c : Core) (k : Nat) (t : Token) : (c.setTok k t).task = c.task := rfl
@[simp] theorem Core.setTok_mon (c : Core) (k : Nat) (t : Token) : (c.setTok k t).mon = c.mon := rfl
@[simp] theorem Core.setTok_m (c : Core) (k : Nat) (t : Token) : (c.setTok k t).m = c.m := rfl
@[simp] theorem Core.setTok_v (c : Core) (k : Nat) (t : Token) : (c.setTok k t).v = c.v := rfl
@[simp] theorem Core.setTok_aflags (c : Core) (k : Nat) (t : Token) : (c.setTok k t).aflags = c.aflags := rfl
@[simp] theorem Core.setTok_satm (c : Core) (k : Nat) (t : Token) : (c.setTok k t).satm = c.satm := rfl
@[simp] theorem Core.setTok_cmds (c : Core) (k : Nat) (t : Token) : (c.setTok k t).cmds = c.cmds := rfl
@[simp] theorem Core.setTok_lcyc (c : Core) (k : Nat) (t : Token) : (c.setTok k t).lcyc = c.lcyc := rfl
@[simp] theorem Core.setTok_strict (c : Core) (k : Nat) (t : Token) : (c.setTok k t).strict = c.strict := rfl
@[simp] theorem Core.setTok_ranges (c : Core) (k : Nat) (t : Token) : (c.setTok k t).ranges = c.ranges := rfl
@[simp] theorem Core.setTok_qs (c : Core) (k : Nat) (t : Token) : (c.setTok k t).qs = c.qs := rfl
@[simp] theorem Core.setTok_qv (c : Core) (k : Nat) (t : Token) : (c.setTok k t).qv = c.qv := rfl
@[simp] theorem Core.setTok_tsk (c : Core) (k : Nat) (t : Token) : (c.setTok k t).tsk = c.tsk := rfl
@[simp] theorem Core.setTok_mode (c : Core) (k : Nat) (t : Token) : (c.setTok k t).mode = c.mode := rfl
@[simp] theorem Core.setTok_node (c : Core) (k : Nat) (t : Token) : (c.setTok k t).node = c.node := rfl
@[simp] theorem Core.setTok_budget (c : Core) (k : Nat) (t : Token) : (c.setTok k t).budget = c.budget := rfl
@[simp] theorem Core.setTok_pc (c : Core) (k : Nat) (t : Token) : (c.setTok k t).pc = c.pc := rfl
@[simp] theorem Core.setTok_npc (c : Core) (k : Nat) (t : Token) : (c.setTok k t).npc = c.npc := rfl
@[simp] theorem Core.setTok_due (c : Core) (k : Nat) (t : Token) : (c.setTok k t).due = c.due := rfl
@[simp] theorem Core.setTok_repHdr (c : Core) (k : Nat) (t : Token) : (c.setTok k t).repHdr = c.repHdr := rfl
@[simp] theorem Core.setTok_repRem (c : Core) (k : Nat) (t : Token) : (c.setTok k t).repRem = c.repRem := rfl
@[simp] theorem Core.setTok_loops (c : Core) (k : Nat) (t : Token) : (c.setTok k t).loops = c.loops := rfl
@[simp] theorem Core.setTok_calls (c : Core) (k : Nat) (t : Token) : (c.setTok k t).calls = c.calls := rfl
@[simp] theorem Core.setTok_jumped (c : Core) (k : Nat) (t : Token) : (c.setTok k t).jumped = c.jumped := rfl
@[simp] theorem Core.setTok_gap (c : Core) (k : Nat) (t : Token) : (c.setTok k t).gap = c.gap := rfl
@[simp] theorem Core.setTok_loopTest (c : Core) (k : Nat) (t : Token) : (c.setTok k t).loopTest = c.loopTest := rfl
@[simp] theorem Core.setTok_taskTest (c : Core) (k : Nat) (t : Token) : (c.setTok k t).taskTest = c.taskTest := rfl
@[simp] theorem Core.setTok_preBoundary (c : Core) (k : Nat) (t : Token) : (c.setTok k t).preBoundary = c.preBoundary := rfl
@[simp] theorem Core.setTok_pend (c : Core) (k : Nat) (t : Token) : (c.setTok k t).pend = c.pend := rfl
@[simp] theorem Core.setTok_seq (c : Core) (k : Nat) (t : Token) : (c.setTok k t).seq = c.seq := rfl
@[simp] theorem Core.setTok_lcause (c : Core) (k : Nat) (t : Token) : (c.setTok k t).lcause = c.lcause := rfl
@[simp] theorem Core.setTok_deferred (c : Core) (k : Nat) (t : Token) : (c.setTok k t).deferred = c.deferred := rfl
@[simp] theorem Core.setTok_decFault (c : Core) (k : Nat) (t : Token) : (c.setTok k t).decFault = c.decFault := rfl
@[simp] theorem Core.setTok_preReq (c : Core) (k : Nat) (t : Token) : (c.setTok k t).preReq = c.preReq := rfl
@[simp] theorem Core.setTok_dbgStep (c : Core) (k : Nat) (t : Token) : (c.setTok k t).dbgStep = c.dbgStep := rfl
@[simp] theorem Core.setTok_crc (c : Core) (k : Nat) (t : Token) : (c.setTok k t).crc = c.crc := rfl
@[simp] theorem Core.setTok_lastEnd (c : Core) (k : Nat) (t : Token) : (c.setTok k t).lastEnd = c.lastEnd := rfl
@[simp] theorem Core.setTok_z (c : Core) (k : Nat) (t : Token) : (c.setTok k t).z = c.z := rfl
@[simp] theorem Core.setTok_seed (c : Core) (k : Nat) (t : Token) : (c.setTok k t).seed = c.seed := rfl
@[simp] theorem Core.setTok_sumQ (c : Core) (k : Nat) (t : Token) : (c.setTok k t).sumQ = c.sumQ := rfl
@[simp] theorem Core.setTok_tab (c : Core) (k : Nat) (t : Token) : (c.setTok k t).tab = c.tab := rfl
@[simp] theorem Core.setTok_tabPoi (c : Core) (k : Nat) (t : Token) : (c.setTok k t).tabPoi = c.tabPoi := rfl
@[simp] theorem Core.setTok_tshadow (c : Core) (k : Nat) (t : Token) : (c.setTok k t).tshadow = c.tshadow := rfl
@[simp] theorem Core.setTok_tshadowPoi (c : Core) (k : Nat) (t : Token) : (c.setTok k t).tshadowPoi = c.tshadowPoi := rfl
@[simp] theorem Core.setTok_tcfg (c : Core) (k : Nat) (t : Token) : (c.setTok k t).tcfg = c.tcfg := rfl
@[simp] theorem Core.setTok_acc0 (c : Core) (k : Nat) (t : Token) : (c.setTok k t).acc0 = c.acc0 := rfl
@[simp] theorem Core.setTok_acc1 (c : Core) (k : Nat) (t : Token) : (c.setTok k t).acc1 = c.acc1 := rfl
@[simp] theorem Core.setTok_retSpans (c : Core) (k : Nat) (t : Token) : (c.setTok k t).retSpans = c.retSpans := rfl
@[simp] theorem Core.setTok_wnext (c : Core) (k : Nat) (t : Token) : (c.setTok k t).wnext = c.wnext := rfl
@[simp] theorem Core.setTok_wlim (c : Core) (k : Nat) (t : Token) : (c.setTok k t).wlim = c.wlim := rfl
@[simp] theorem Core.setTok_wcfg (c : Core) (k : Nat) (t : Token) : (c.setTok k t).wcfg = c.wcfg := rfl
@[simp] theorem Core.setTok_mb (c : Core) (k : Nat) (t : Token) : (c.setTok k t).mb = c.mb := rfl
@[simp] theorem Core.setTok_snapG (c : Core) (k : Nat) (t : Token) : (c.setTok k t).snapG = c.snapG := rfl
@[simp] theorem Core.setTok_snapT (c : Core) (k : Nat) (t : Token) : (c.setTok k t).snapT = c.snapT := rfl
@[simp] theorem Core.setTok_tpc (c : Core) (k : Nat) (t : Token) : (c.setTok k t).tpc = c.tpc := rfl
@[simp] theorem Core.setTok_tcause (c : Core) (k : Nat) (t : Token) : (c.setTok k t).tcause = c.tcause := rfl
@[simp] theorem Core.setTok_tinfo (c : Core) (k : Nat) (t : Token) : (c.setTok k t).tinfo = c.tinfo := rfl
@[simp] theorem Core.setTok_ttask (c : Core) (k : Nat) (t : Token) : (c.setTok k t).ttask = c.ttask := rfl
@[simp] theorem Core.setTok_trep (c : Core) (k : Nat) (t : Token) : (c.setTok k t).trep = c.trep := rfl
@[simp] theorem Core.setTok_tdlr (c : Core) (k : Nat) (t : Token) : (c.setTok k t).tdlr = c.tdlr := rfl
@[simp] theorem Core.setTok_tdisp (c : Core) (k : Nat) (t : Token) : (c.setTok k t).tdisp = c.tdisp := rfl
@[simp] theorem Core.setTok_tlast (c : Core) (k : Nat) (t : Token) : (c.setTok k t).tlast = c.tlast := rfl
@[simp] theorem Core.setTok_svlo (c : Core) (k : Nat) (t : Token) : (c.setTok k t).svlo = c.svlo := rfl
@[simp] theorem Core.setTok_svhi (c : Core) (k : Nat) (t : Token) : (c.setTok k t).svhi = c.svhi := rfl
@[simp] theorem Core.setTok_svlen (c : Core) (k : Nat) (t : Token) : (c.setTok k t).svlen = c.svlen := rfl
@[simp] theorem Core.setTok_svcur (c : Core) (k : Nat) (t : Token) : (c.setTok k t).svcur = c.svcur := rfl
@[simp] theorem Core.setTok_svst (c : Core) (k : Nat) (t : Token) : (c.setTok k t).svst = c.svst := rfl
@[simp] theorem Core.setTok_crg (c : Core) (k : Nat) (t : Token) : (c.setTok k t).crg = c.crg := rfl
@[simp] theorem Core.setTok_bars (c : Core) (k : Nat) (t : Token) : (c.setTok k t).bars = c.bars := rfl
@[simp] theorem Core.setTok_hint (c : Core) (k : Nat) (t : Token) : (c.setTok k t).hint = c.hint := rfl
@[simp] theorem Core.setTok_hintEnd (c : Core) (k : Nat) (t : Token) : (c.setTok k t).hintEnd = c.hintEnd := rfl
@[simp] theorem Core.setTok_trapLog (c : Core) (k : Nat) (t : Token) : (c.setTok k t).trapLog = c.trapLog := rfl
@[simp] theorem Core.setTok_killed (c : Core) (k : Nat) (t : Token) : (c.setTok k t).killed = c.killed := rfl
@[simp] theorem Core.setTok_sideEff (c : Core) (k : Nat) (t : Token) : (c.setTok k t).sideEff = c.sideEff := rfl
@[simp] theorem Core.setTok_monAt (c : Core) (k : Nat) (t : Token) : (c.setTok k t).monAt = c.monAt := rfl
@[simp] theorem Core.setTok_shadow (c : Core) (k : Nat) (t : Token) : (c.setTok k t).shadow = c.shadow := rfl
@[simp] theorem Core.setTok_shadowOld (c : Core) (k : Nat) (t : Token) : (c.setTok k t).shadowOld = c.shadowOld := rfl
@[simp] theorem Core.setTok_recalled (c : Core) (k : Nat) (t : Token) : (c.setTok k t).recalled = c.recalled := rfl
@[simp] theorem Core.setTok_mctl (c : Core) (k : Nat) (t : Token) : (c.setTok k t).mctl = c.mctl := rfl

@[simp] theorem Core.setV_task (c : Core) (n : Nat) (r : VRow) : (c.setV n r).task = c.task := rfl
@[simp] theorem Core.setV_mon (c : Core) (n : Nat) (r : VRow) : (c.setV n r).mon = c.mon := rfl
@[simp] theorem Core.setV_m (c : Core) (n : Nat) (r : VRow) : (c.setV n r).m = c.m := rfl
@[simp] theorem Core.setV_tok (c : Core) (n : Nat) (r : VRow) : (c.setV n r).tok = c.tok := rfl
@[simp] theorem Core.setV_aflags (c : Core) (n : Nat) (r : VRow) : (c.setV n r).aflags = c.aflags := rfl
@[simp] theorem Core.setV_satm (c : Core) (n : Nat) (r : VRow) : (c.setV n r).satm = c.satm := rfl
@[simp] theorem Core.setV_cmds (c : Core) (n : Nat) (r : VRow) : (c.setV n r).cmds = c.cmds := rfl
@[simp] theorem Core.setV_lcyc (c : Core) (n : Nat) (r : VRow) : (c.setV n r).lcyc = c.lcyc := rfl
@[simp] theorem Core.setV_strict (c : Core) (n : Nat) (r : VRow) : (c.setV n r).strict = c.strict := rfl
@[simp] theorem Core.setV_ranges (c : Core) (n : Nat) (r : VRow) : (c.setV n r).ranges = c.ranges := rfl
@[simp] theorem Core.setV_qs (c : Core) (n : Nat) (r : VRow) : (c.setV n r).qs = c.qs := rfl
@[simp] theorem Core.setV_qv (c : Core) (n : Nat) (r : VRow) : (c.setV n r).qv = c.qv := rfl
@[simp] theorem Core.setV_tsk (c : Core) (n : Nat) (r : VRow) : (c.setV n r).tsk = c.tsk := rfl
@[simp] theorem Core.setV_mode (c : Core) (n : Nat) (r : VRow) : (c.setV n r).mode = c.mode := rfl
@[simp] theorem Core.setV_node (c : Core) (n : Nat) (r : VRow) : (c.setV n r).node = c.node := rfl
@[simp] theorem Core.setV_budget (c : Core) (n : Nat) (r : VRow) : (c.setV n r).budget = c.budget := rfl
@[simp] theorem Core.setV_pc (c : Core) (n : Nat) (r : VRow) : (c.setV n r).pc = c.pc := rfl
@[simp] theorem Core.setV_npc (c : Core) (n : Nat) (r : VRow) : (c.setV n r).npc = c.npc := rfl
@[simp] theorem Core.setV_due (c : Core) (n : Nat) (r : VRow) : (c.setV n r).due = c.due := rfl
@[simp] theorem Core.setV_repHdr (c : Core) (n : Nat) (r : VRow) : (c.setV n r).repHdr = c.repHdr := rfl
@[simp] theorem Core.setV_repRem (c : Core) (n : Nat) (r : VRow) : (c.setV n r).repRem = c.repRem := rfl
@[simp] theorem Core.setV_loops (c : Core) (n : Nat) (r : VRow) : (c.setV n r).loops = c.loops := rfl
@[simp] theorem Core.setV_calls (c : Core) (n : Nat) (r : VRow) : (c.setV n r).calls = c.calls := rfl
@[simp] theorem Core.setV_jumped (c : Core) (n : Nat) (r : VRow) : (c.setV n r).jumped = c.jumped := rfl
@[simp] theorem Core.setV_gap (c : Core) (n : Nat) (r : VRow) : (c.setV n r).gap = c.gap := rfl
@[simp] theorem Core.setV_loopTest (c : Core) (n : Nat) (r : VRow) : (c.setV n r).loopTest = c.loopTest := rfl
@[simp] theorem Core.setV_taskTest (c : Core) (n : Nat) (r : VRow) : (c.setV n r).taskTest = c.taskTest := rfl
@[simp] theorem Core.setV_preBoundary (c : Core) (n : Nat) (r : VRow) : (c.setV n r).preBoundary = c.preBoundary := rfl
@[simp] theorem Core.setV_pend (c : Core) (n : Nat) (r : VRow) : (c.setV n r).pend = c.pend := rfl
@[simp] theorem Core.setV_seq (c : Core) (n : Nat) (r : VRow) : (c.setV n r).seq = c.seq := rfl
@[simp] theorem Core.setV_lcause (c : Core) (n : Nat) (r : VRow) : (c.setV n r).lcause = c.lcause := rfl
@[simp] theorem Core.setV_deferred (c : Core) (n : Nat) (r : VRow) : (c.setV n r).deferred = c.deferred := rfl
@[simp] theorem Core.setV_decFault (c : Core) (n : Nat) (r : VRow) : (c.setV n r).decFault = c.decFault := rfl
@[simp] theorem Core.setV_preReq (c : Core) (n : Nat) (r : VRow) : (c.setV n r).preReq = c.preReq := rfl
@[simp] theorem Core.setV_dbgStep (c : Core) (n : Nat) (r : VRow) : (c.setV n r).dbgStep = c.dbgStep := rfl
@[simp] theorem Core.setV_crc (c : Core) (n : Nat) (r : VRow) : (c.setV n r).crc = c.crc := rfl
@[simp] theorem Core.setV_lastEnd (c : Core) (n : Nat) (r : VRow) : (c.setV n r).lastEnd = c.lastEnd := rfl
@[simp] theorem Core.setV_z (c : Core) (n : Nat) (r : VRow) : (c.setV n r).z = c.z := rfl
@[simp] theorem Core.setV_seed (c : Core) (n : Nat) (r : VRow) : (c.setV n r).seed = c.seed := rfl
@[simp] theorem Core.setV_sumQ (c : Core) (n : Nat) (r : VRow) : (c.setV n r).sumQ = c.sumQ := rfl
@[simp] theorem Core.setV_tab (c : Core) (n : Nat) (r : VRow) : (c.setV n r).tab = c.tab := rfl
@[simp] theorem Core.setV_tabPoi (c : Core) (n : Nat) (r : VRow) : (c.setV n r).tabPoi = c.tabPoi := rfl
@[simp] theorem Core.setV_tshadow (c : Core) (n : Nat) (r : VRow) : (c.setV n r).tshadow = c.tshadow := rfl
@[simp] theorem Core.setV_tshadowPoi (c : Core) (n : Nat) (r : VRow) : (c.setV n r).tshadowPoi = c.tshadowPoi := rfl
@[simp] theorem Core.setV_tcfg (c : Core) (n : Nat) (r : VRow) : (c.setV n r).tcfg = c.tcfg := rfl
@[simp] theorem Core.setV_acc0 (c : Core) (n : Nat) (r : VRow) : (c.setV n r).acc0 = c.acc0 := rfl
@[simp] theorem Core.setV_acc1 (c : Core) (n : Nat) (r : VRow) : (c.setV n r).acc1 = c.acc1 := rfl
@[simp] theorem Core.setV_retSpans (c : Core) (n : Nat) (r : VRow) : (c.setV n r).retSpans = c.retSpans := rfl
@[simp] theorem Core.setV_wnext (c : Core) (n : Nat) (r : VRow) : (c.setV n r).wnext = c.wnext := rfl
@[simp] theorem Core.setV_wlim (c : Core) (n : Nat) (r : VRow) : (c.setV n r).wlim = c.wlim := rfl
@[simp] theorem Core.setV_wcfg (c : Core) (n : Nat) (r : VRow) : (c.setV n r).wcfg = c.wcfg := rfl
@[simp] theorem Core.setV_mb (c : Core) (n : Nat) (r : VRow) : (c.setV n r).mb = c.mb := rfl
@[simp] theorem Core.setV_snapG (c : Core) (n : Nat) (r : VRow) : (c.setV n r).snapG = c.snapG := rfl
@[simp] theorem Core.setV_snapT (c : Core) (n : Nat) (r : VRow) : (c.setV n r).snapT = c.snapT := rfl
@[simp] theorem Core.setV_tpc (c : Core) (n : Nat) (r : VRow) : (c.setV n r).tpc = c.tpc := rfl
@[simp] theorem Core.setV_tcause (c : Core) (n : Nat) (r : VRow) : (c.setV n r).tcause = c.tcause := rfl
@[simp] theorem Core.setV_tinfo (c : Core) (n : Nat) (r : VRow) : (c.setV n r).tinfo = c.tinfo := rfl
@[simp] theorem Core.setV_ttask (c : Core) (n : Nat) (r : VRow) : (c.setV n r).ttask = c.ttask := rfl
@[simp] theorem Core.setV_trep (c : Core) (n : Nat) (r : VRow) : (c.setV n r).trep = c.trep := rfl
@[simp] theorem Core.setV_tdlr (c : Core) (n : Nat) (r : VRow) : (c.setV n r).tdlr = c.tdlr := rfl
@[simp] theorem Core.setV_tdisp (c : Core) (n : Nat) (r : VRow) : (c.setV n r).tdisp = c.tdisp := rfl
@[simp] theorem Core.setV_tlast (c : Core) (n : Nat) (r : VRow) : (c.setV n r).tlast = c.tlast := rfl
@[simp] theorem Core.setV_svlo (c : Core) (n : Nat) (r : VRow) : (c.setV n r).svlo = c.svlo := rfl
@[simp] theorem Core.setV_svhi (c : Core) (n : Nat) (r : VRow) : (c.setV n r).svhi = c.svhi := rfl
@[simp] theorem Core.setV_svlen (c : Core) (n : Nat) (r : VRow) : (c.setV n r).svlen = c.svlen := rfl
@[simp] theorem Core.setV_svcur (c : Core) (n : Nat) (r : VRow) : (c.setV n r).svcur = c.svcur := rfl
@[simp] theorem Core.setV_svst (c : Core) (n : Nat) (r : VRow) : (c.setV n r).svst = c.svst := rfl
@[simp] theorem Core.setV_crg (c : Core) (n : Nat) (r : VRow) : (c.setV n r).crg = c.crg := rfl
@[simp] theorem Core.setV_bars (c : Core) (n : Nat) (r : VRow) : (c.setV n r).bars = c.bars := rfl
@[simp] theorem Core.setV_hint (c : Core) (n : Nat) (r : VRow) : (c.setV n r).hint = c.hint := rfl
@[simp] theorem Core.setV_hintEnd (c : Core) (n : Nat) (r : VRow) : (c.setV n r).hintEnd = c.hintEnd := rfl
@[simp] theorem Core.setV_trapLog (c : Core) (n : Nat) (r : VRow) : (c.setV n r).trapLog = c.trapLog := rfl
@[simp] theorem Core.setV_killed (c : Core) (n : Nat) (r : VRow) : (c.setV n r).killed = c.killed := rfl
@[simp] theorem Core.setV_sideEff (c : Core) (n : Nat) (r : VRow) : (c.setV n r).sideEff = c.sideEff := rfl
@[simp] theorem Core.setV_monAt (c : Core) (n : Nat) (r : VRow) : (c.setV n r).monAt = c.monAt := rfl
@[simp] theorem Core.setV_shadowOld (c : Core) (n : Nat) (r : VRow) : (c.setV n r).shadowOld = c.shadowOld := rfl
@[simp] theorem Core.setV_recalled (c : Core) (n : Nat) (r : VRow) : (c.setV n r).recalled = c.recalled := rfl
@[simp] theorem Core.setV_mctl (c : Core) (n : Nat) (r : VRow) : (c.setV n r).mctl = c.mctl := rfl

@[simp] theorem Core.push_task (c : Core) (p : Pend) : (c.push p).task = c.task := rfl
@[simp] theorem Core.push_mon (c : Core) (p : Pend) : (c.push p).mon = c.mon := rfl
@[simp] theorem Core.push_m (c : Core) (p : Pend) : (c.push p).m = c.m := rfl
@[simp] theorem Core.push_v (c : Core) (p : Pend) : (c.push p).v = c.v := rfl
@[simp] theorem Core.push_tok (c : Core) (p : Pend) : (c.push p).tok = c.tok := rfl
@[simp] theorem Core.push_aflags (c : Core) (p : Pend) : (c.push p).aflags = c.aflags := rfl
@[simp] theorem Core.push_satm (c : Core) (p : Pend) : (c.push p).satm = c.satm := rfl
@[simp] theorem Core.push_cmds (c : Core) (p : Pend) : (c.push p).cmds = c.cmds := rfl
@[simp] theorem Core.push_lcyc (c : Core) (p : Pend) : (c.push p).lcyc = c.lcyc := rfl
@[simp] theorem Core.push_strict (c : Core) (p : Pend) : (c.push p).strict = c.strict := rfl
@[simp] theorem Core.push_ranges (c : Core) (p : Pend) : (c.push p).ranges = c.ranges := rfl
@[simp] theorem Core.push_qs (c : Core) (p : Pend) : (c.push p).qs = c.qs := rfl
@[simp] theorem Core.push_qv (c : Core) (p : Pend) : (c.push p).qv = c.qv := rfl
@[simp] theorem Core.push_tsk (c : Core) (p : Pend) : (c.push p).tsk = c.tsk := rfl
@[simp] theorem Core.push_mode (c : Core) (p : Pend) : (c.push p).mode = c.mode := rfl
@[simp] theorem Core.push_node (c : Core) (p : Pend) : (c.push p).node = c.node := rfl
@[simp] theorem Core.push_budget (c : Core) (p : Pend) : (c.push p).budget = c.budget := rfl
@[simp] theorem Core.push_pc (c : Core) (p : Pend) : (c.push p).pc = c.pc := rfl
@[simp] theorem Core.push_npc (c : Core) (p : Pend) : (c.push p).npc = c.npc := rfl
@[simp] theorem Core.push_due (c : Core) (p : Pend) : (c.push p).due = c.due := rfl
@[simp] theorem Core.push_repHdr (c : Core) (p : Pend) : (c.push p).repHdr = c.repHdr := rfl
@[simp] theorem Core.push_repRem (c : Core) (p : Pend) : (c.push p).repRem = c.repRem := rfl
@[simp] theorem Core.push_loops (c : Core) (p : Pend) : (c.push p).loops = c.loops := rfl
@[simp] theorem Core.push_calls (c : Core) (p : Pend) : (c.push p).calls = c.calls := rfl
@[simp] theorem Core.push_jumped (c : Core) (p : Pend) : (c.push p).jumped = c.jumped := rfl
@[simp] theorem Core.push_gap (c : Core) (p : Pend) : (c.push p).gap = c.gap := rfl
@[simp] theorem Core.push_loopTest (c : Core) (p : Pend) : (c.push p).loopTest = c.loopTest := rfl
@[simp] theorem Core.push_taskTest (c : Core) (p : Pend) : (c.push p).taskTest = c.taskTest := rfl
@[simp] theorem Core.push_preBoundary (c : Core) (p : Pend) : (c.push p).preBoundary = c.preBoundary := rfl
@[simp] theorem Core.push_seq (c : Core) (p : Pend) : (c.push p).seq = c.seq := rfl
@[simp] theorem Core.push_lcause (c : Core) (p : Pend) : (c.push p).lcause = c.lcause := rfl
@[simp] theorem Core.push_deferred (c : Core) (p : Pend) : (c.push p).deferred = c.deferred := rfl
@[simp] theorem Core.push_decFault (c : Core) (p : Pend) : (c.push p).decFault = c.decFault := rfl
@[simp] theorem Core.push_preReq (c : Core) (p : Pend) : (c.push p).preReq = c.preReq := rfl
@[simp] theorem Core.push_dbgStep (c : Core) (p : Pend) : (c.push p).dbgStep = c.dbgStep := rfl
@[simp] theorem Core.push_crc (c : Core) (p : Pend) : (c.push p).crc = c.crc := rfl
@[simp] theorem Core.push_lastEnd (c : Core) (p : Pend) : (c.push p).lastEnd = c.lastEnd := rfl
@[simp] theorem Core.push_z (c : Core) (p : Pend) : (c.push p).z = c.z := rfl
@[simp] theorem Core.push_seed (c : Core) (p : Pend) : (c.push p).seed = c.seed := rfl
@[simp] theorem Core.push_sumQ (c : Core) (p : Pend) : (c.push p).sumQ = c.sumQ := rfl
@[simp] theorem Core.push_tab (c : Core) (p : Pend) : (c.push p).tab = c.tab := rfl
@[simp] theorem Core.push_tabPoi (c : Core) (p : Pend) : (c.push p).tabPoi = c.tabPoi := rfl
@[simp] theorem Core.push_tshadow (c : Core) (p : Pend) : (c.push p).tshadow = c.tshadow := rfl
@[simp] theorem Core.push_tshadowPoi (c : Core) (p : Pend) : (c.push p).tshadowPoi = c.tshadowPoi := rfl
@[simp] theorem Core.push_tcfg (c : Core) (p : Pend) : (c.push p).tcfg = c.tcfg := rfl
@[simp] theorem Core.push_acc0 (c : Core) (p : Pend) : (c.push p).acc0 = c.acc0 := rfl
@[simp] theorem Core.push_acc1 (c : Core) (p : Pend) : (c.push p).acc1 = c.acc1 := rfl
@[simp] theorem Core.push_retSpans (c : Core) (p : Pend) : (c.push p).retSpans = c.retSpans := rfl
@[simp] theorem Core.push_wnext (c : Core) (p : Pend) : (c.push p).wnext = c.wnext := rfl
@[simp] theorem Core.push_wlim (c : Core) (p : Pend) : (c.push p).wlim = c.wlim := rfl
@[simp] theorem Core.push_wcfg (c : Core) (p : Pend) : (c.push p).wcfg = c.wcfg := rfl
@[simp] theorem Core.push_mb (c : Core) (p : Pend) : (c.push p).mb = c.mb := rfl
@[simp] theorem Core.push_snapG (c : Core) (p : Pend) : (c.push p).snapG = c.snapG := rfl
@[simp] theorem Core.push_snapT (c : Core) (p : Pend) : (c.push p).snapT = c.snapT := rfl
@[simp] theorem Core.push_tpc (c : Core) (p : Pend) : (c.push p).tpc = c.tpc := rfl
@[simp] theorem Core.push_tcause (c : Core) (p : Pend) : (c.push p).tcause = c.tcause := rfl
@[simp] theorem Core.push_tinfo (c : Core) (p : Pend) : (c.push p).tinfo = c.tinfo := rfl
@[simp] theorem Core.push_ttask (c : Core) (p : Pend) : (c.push p).ttask = c.ttask := rfl
@[simp] theorem Core.push_trep (c : Core) (p : Pend) : (c.push p).trep = c.trep := rfl
@[simp] theorem Core.push_tdlr (c : Core) (p : Pend) : (c.push p).tdlr = c.tdlr := rfl
@[simp] theorem Core.push_tdisp (c : Core) (p : Pend) : (c.push p).tdisp = c.tdisp := rfl
@[simp] theorem Core.push_tlast (c : Core) (p : Pend) : (c.push p).tlast = c.tlast := rfl
@[simp] theorem Core.push_svlo (c : Core) (p : Pend) : (c.push p).svlo = c.svlo := rfl
@[simp] theorem Core.push_svhi (c : Core) (p : Pend) : (c.push p).svhi = c.svhi := rfl
@[simp] theorem Core.push_svlen (c : Core) (p : Pend) : (c.push p).svlen = c.svlen := rfl
@[simp] theorem Core.push_svcur (c : Core) (p : Pend) : (c.push p).svcur = c.svcur := rfl
@[simp] theorem Core.push_svst (c : Core) (p : Pend) : (c.push p).svst = c.svst := rfl
@[simp] theorem Core.push_crg (c : Core) (p : Pend) : (c.push p).crg = c.crg := rfl
@[simp] theorem Core.push_bars (c : Core) (p : Pend) : (c.push p).bars = c.bars := rfl
@[simp] theorem Core.push_hint (c : Core) (p : Pend) : (c.push p).hint = c.hint := rfl
@[simp] theorem Core.push_hintEnd (c : Core) (p : Pend) : (c.push p).hintEnd = c.hintEnd := rfl
@[simp] theorem Core.push_trapLog (c : Core) (p : Pend) : (c.push p).trapLog = c.trapLog := rfl
@[simp] theorem Core.push_killed (c : Core) (p : Pend) : (c.push p).killed = c.killed := rfl
@[simp] theorem Core.push_sideEff (c : Core) (p : Pend) : (c.push p).sideEff = c.sideEff := rfl
@[simp] theorem Core.push_monAt (c : Core) (p : Pend) : (c.push p).monAt = c.monAt := rfl
@[simp] theorem Core.push_shadow (c : Core) (p : Pend) : (c.push p).shadow = c.shadow := rfl
@[simp] theorem Core.push_shadowOld (c : Core) (p : Pend) : (c.push p).shadowOld = c.shadowOld := rfl
@[simp] theorem Core.push_recalled (c : Core) (p : Pend) : (c.push p).recalled = c.recalled := rfl
@[simp] theorem Core.push_mctl (c : Core) (p : Pend) : (c.push p).mctl = c.mctl := rfl

/-! ### Banks and registers -/

@[simp] theorem State.core_setTile (s : State) (x : Tile) (y : Core) : (s.setTile s.curT (x.setCore s.curC y)).core = y := by
  simp [State.core, State.here]
@[simp] theorem State.coreAt_setTile (s : State) (t c : Nat) (x : Tile) (y : Core) : (s.setTile t (x.setCore c y)).coreAt t c = y := by
  simp [State.coreAt]

@[simp] theorem Core.setBank_inMon (c : Core) (b : Bank) : (c.setBank b).inMon = c.inMon := by
  unfold Core.setBank Core.inMon; split <;> rfl
@[simp] theorem Core.bank_setBank (c : Core) (b : Bank) : (c.setBank b).bank = b := by
  cases h : c.inMon
  · simp only [Core.setBank, Core.bank, h, Bool.false_eq_true, if_false]
    rw [show Core.inMon { c with task := b } = false from h]; simp
  · simp only [Core.setBank, Core.bank, h, if_true]
    rw [show Core.inMon { c with mon := b } = true from h]; simp
@[simp] theorem Bank.sreg_zero (b : Bank) : b.sreg 0 = {} := rfl
@[simp] theorem Bank.setS_zero (b : Bank) (v : PWord) : b.setS 0 v = b := rfl
@[simp] theorem Bank.preg_zero (b : Bank) : b.preg 0 = ⟨true, false⟩ := rfl
@[simp] theorem Bank.setP_zero (b : Bank) (v : PBit) : b.setP 0 v = b := rfl
@[simp] theorem Core.mreg_zero (c : Core) : c.mreg 0 = ⟨BitVec.allOnes 128, 0#128⟩ := rfl
@[simp] theorem Core.setM_zero (c : Core) (sel v p : BitVec 128) : c.setM 0 sel v p = c := rfl
theorem Bank.sreg_setS (b : Bank) (n m : Nat) (v : PWord) : (b.setS n v).sreg m = if m = n ∧ n ≠ 0 then v else b.sreg m := by
  unfold Bank.setS Bank.sreg
  by_cases hn : n = 0
  · simp [hn]
  · by_cases hm : m = 0
    · simp [hm, Ne.symm hn]
    · simp [hn, hm, sget_sset]
theorem Bank.areg_setA (b : Bank) (n m : Nat) (v : PWord) : (b.setA n v).areg m = if m = n then v else b.areg m := sget_sset _ _ _ _ _
theorem Bank.preg_setP (b : Bank) (n m : Nat) (v : PBit) : (b.setP n v).preg m = if m = n ∧ n ≠ 0 then v else b.preg m := by
  unfold Bank.setP Bank.preg
  by_cases hn : n = 0
  · simp [hn]
  · by_cases hm : m = 0
    · simp [hm, Ne.symm hn]
    · simp [hn, hm, sget_sset]
theorem Core.vreg_setV (c : Core) (n m : Nat) (r : VRow) : (c.setV n r).vreg m = if m = n then r else c.vreg m := sget_sset _ _ _ _ _
theorem Core.token_setTok (c : Core) (k j : Nat) (t : Token) : (c.setTok k t).token j = if j = k then t else c.token j := sget_sset _ _ _ _ _

/-! ### Writing a home twice -/

@[simp] theorem setTile_setTile (s : State) (t : Nat) (x y : Tile) : (s.setTile t x).setTile t y = s.setTile t y := by
  simp [State.setTile]
@[simp] theorem setCore_setCore (x : Tile) (c : Nat) (y z : Core) : (x.setCore c y).setCore c z = x.setCore c z := by
  simp [Tile.setCore]

end Sys2Proof.Machine
end

