-- ==== Sys2Proof/Laws/Ops.lean ====
section
/-! SUPPORT. What each shared operation of an issue can do: sequencing, checks, operand reads, results, tokens, traps. -/

namespace Sys2Proof.Machine

/-! ### Sequencing -/

@[simp] theorem iss_pure {α : Type} (a : α) (s : State) : (pure a : Iss α) s = .ok (a, s) := rfl
theorem iss_bind {α β : Type} (m : Iss α) (f : α → Iss β) (s : State) :
    (m >>= f) s = match m s with | .ok (a, s') => f a s' | .error i => .error i := by
  show (Except.bind (m s) _) = _
  cases m s <;> rfl
theorem iss_bind_ok {α β : Type} {m : Iss α} {f : α → Iss β} {s s' : State} {a : α} (h : m s = .ok (a, s')) : (m >>= f) s = f a s' := by
  rw [iss_bind, h]
theorem iss_bind_error {α β : Type} {m : Iss α} {f : α → Iss β} {s : State} {i : Info} (h : m s = .error i) : (m >>= f) s = .error i := by
  rw [iss_bind, h]
@[simp] theorem act_ok (f : State → State) (s : State) : act f s = .ok ((), f s) := rfl
@[simp] theorem act_last (f : State → State) (s : State) : issue (act f) s = .next (f s) := rfl
theorem bind_act {β : Type} (f : State → State) (g : Unit → Iss β) (s : State) : (act f >>= g) s = g () (f s) := rfl

/-- A meaning answers a next state: that of its effect, or that in which its cause is taken. -/
theorem issue_cases (m : Iss Unit) (s : State) : (∃ t, m s = .ok ((), t) ∧ issue m s = .next t) ∨ ∃ i, m s = .error i ∧ issue m s = .next (s.raise i) := by
  unfold issue
  cases h : m s with
  | ok r => exact .inl ⟨r.2, rfl, rfl⟩
  | error i => exact .inr ⟨i, rfl, rfl⟩
theorem issue_next (m : Iss Unit) (s : State) : ∃ t, issue m s = .next t := by
  rcases issue_cases m s with ⟨t, -, h⟩ | ⟨i, -, h⟩ <;> exact ⟨_, h⟩
theorem issue_ok {m : Iss Unit} {s t : State} (h : m s = .ok ((), t)) : issue m s = .next t := by rw [issue, h]
theorem issue_error {m : Iss Unit} {s : State} {i : Info} (h : m s = .error i) : issue m s = .next (s.raise i) := by rw [issue, h]

/-! ### Checks -/

@[simp] theorem trapI_error {α : Type} (c : Nat) (x y : Word) (s : State) :
    (trapI c x y : Iss α) s = .error { cause := c, slot := s.slot, i0 := x, i1 := y } := rfl
@[simp] theorem need_true (c : Nat) (x y : Word) (s : State) : need true c x y s = .ok ((), s) := rfl
@[simp] theorem need_false (c : Nat) (x y : Word) (s : State) : need false c x y s = .error { cause := c, slot := s.slot, i0 := x, i1 := y } := rfl
theorem need_ok {b : Bool} (h : b = true) (c : Nat) (x y : Word) (s : State) : need b c x y s = .ok ((), s) := by subst h; rfl
theorem need_error {b : Bool} (h : b = false) (c : Nat) (x y : Word) (s : State) :
    need b c x y s = .error { cause := c, slot := s.slot, i0 := x, i1 := y } := by subst h; rfl
@[simp] theorem consume_false (s : State) : consume false s = .ok ((), s) := rfl
@[simp] theorem consume_true (s : State) : consume true s = .error { cause := cPoison, slot := s.slot } := rfl
theorem needAddr_ok {ea len al sp : Nat} (h : addrOk ea len al sp = true) (s : State) : needAddr ea len al sp s = .ok ((), s) := need_ok h _ _ _ s
theorem needAddr_error {ea len al sp : Nat} (h : addrOk ea len al sp = false) (s : State) :
    needAddr ea len al sp s = .error { cause := cAddr, slot := s.slot, i0 := BitVec.ofNat 32 ea, i1 := BitVec.ofNat 32 len } := need_error h _ _ _ s

/-! ### Operands -/

@[simp] theorem readA_ok (n : BitVec 4) (s : State) : readA n s = .ok (s.core.bank.areg n.toNat, s) := rfl
@[simp] theorem readP_ok (n : BitVec 3) (s : State) : readP n s = .ok (s.core.bank.preg n.toNat, s) := rfl
@[simp] theorem readM_ok (n : BitVec 3) (s : State) : readM n s = .ok (s.core.mreg n.toNat, s) := rfl

/-- What the head of the LDQ gives. -/
theorem popLdq_cases (vec : Bool) (s : State) :
    (∃ e r, s.core.bank.ldq = e :: r ∧ e.landed = true ∧ e.vec = vec ∧
      popLdq vec s = .ok (e, s.upCore fun c => c.setBank { c.bank with ldq := r })) ∨
    popLdq vec s = .error { cause := cQueue, slot := s.slot } := by
  unfold popLdq
  cases h : s.core.bank.ldq with
  | nil => exact .inr rfl
  | cons e r =>
    by_cases hb : (e.landed && e.vec == vec) = true
    · simp only [Bool.and_eq_true, beq_iff_eq] at hb
      exact .inl ⟨e, r, rfl, hb.1, hb.2, by simp [hb.1, hb.2]⟩
    · right; simp only [hb]; rfl

/-- A scalar source's value: the register, the head of the LDQ, or a queue fault. -/
theorem takeS_cases (n : BitVec 6) (s : State) :
    (s.core.sAlias n = false ∧ takeS n s = .ok (s.core.bank.sreg n.toNat, s)) ∨
    (∃ e r, s.core.sAlias n = true ∧ s.core.bank.ldq = e :: r ∧ e.landed = true ∧ e.vec = false ∧
      takeS n s = .ok (⟨e.val.setWidth 32, e.poi.getLsbD 0⟩, s.upCore fun c => c.setBank { c.bank with ldq := r })) ∨
    (s.core.sAlias n = true ∧ takeS n s = .error { cause := cQueue, slot := s.slot }) := by
  unfold takeS
  cases ha : s.core.sAlias n with
  | true =>
    rcases popLdq_cases false s with ⟨e, r, h1, h2, h3, h4⟩ | h
    · exact .inr (.inl ⟨e, r, rfl, h1, h2, h3, by simp [h4]⟩)
    · exact .inr (.inr ⟨rfl, by simp [h]⟩)
  | false => exact .inl ⟨rfl, by simp⟩
theorem takeS_plain (n : BitVec 6) (s : State) (h : s.core.sAlias n = false) : takeS n s = .ok (s.core.bank.sreg n.toNat, s) := by
  unfold takeS; rw [h]; simp
/-- The under-wait check of a scalar passes, or is a fault in strict mode. -/
theorem underS_cases (n : BitVec 6) (s : State) :
    underS n s = .ok ((), s) ∨ (s.core.sAlias n = false ∧ s.core.strict = true ∧ underS n s = .error { cause := cUnder, slot := s.slot }) := by
  unfold underS
  cases ha : s.core.sAlias n with
  | true => exact .inl rfl
  | false =>
    cases hs : s.core.strict with
    | false => exact .inl rfl
    | true =>
      cases h : s.core.ranges.any (fun r => r.space == s.core.sSpace && r.lo == n.toNat)
      · exact .inl (by simp [need_ok])
      · exact .inr ⟨rfl, rfl, by simp [need_error]⟩
theorem underS_ok (n : BitVec 6) (s : State) (h : s.core.strict = false) : underS n s = .ok ((), s) := by
  unfold underS; rw [h]; simp [need_ok]

/-- A scalar source: the register, the head of the LDQ, or a cause. -/
theorem readS_cases (n : BitVec 6) (s : State) :
    (s.core.sAlias n = false ∧ readS n s = .ok (s.core.bank.sreg n.toNat, s)) ∨
    (∃ e r, s.core.sAlias n = true ∧ s.core.bank.ldq = e :: r ∧ e.landed = true ∧ e.vec = false ∧
      readS n s = .ok (⟨e.val.setWidth 32, e.poi.getLsbD 0⟩, s.upCore fun c => c.setBank { c.bank with ldq := r })) ∨
    (s.core.sAlias n = true ∧ readS n s = .error { cause := cQueue, slot := s.slot }) ∨
    (s.core.sAlias n = false ∧ s.core.strict = true ∧ readS n s = .error { cause := cUnder, slot := s.slot }) := by
  unfold readS
  rcases takeS_cases n s with ⟨ha, h⟩ | ⟨e, r, ha, h1, h2, h3, h⟩ | ⟨ha, h⟩
  · rw [iss_bind_ok h]
    rcases underS_cases n s with hu | ⟨-, hs, hu⟩
    · exact .inl ⟨ha, by rw [iss_bind_ok hu]; rfl⟩
    · exact .inr (.inr (.inr ⟨ha, hs, iss_bind_error hu⟩))
  · refine .inr (.inl ⟨e, r, ha, h1, h2, h3, ?_⟩)
    rw [iss_bind_ok h, iss_bind_ok (a := ()) (s' := s.upCore fun c => c.setBank { c.bank with ldq := r })]
    · rfl
    · unfold underS Core.sAlias at *; apply need_ok; simp_all [Core.setBank]; split <;> simp_all
  · exact .inr (.inr (.inl ⟨ha, iss_bind_error h⟩))

/-- A plain scalar register is read as it stands. -/
theorem readS_plain (n : BitVec 6) (s : State) (hq : s.core.sAlias n = false) (hs : s.core.strict = false) :
    readS n s = .ok (s.core.bank.sreg n.toNat, s) := by
  unfold readS; rw [iss_bind_ok (takeS_plain n s hq), iss_bind_ok (underS_ok n s hs)]; rfl
/-- A pop leaves the strict-mode records, the mode and the queue names. -/
theorem takeS_keeps {n : BitVec 6} {s s1 : State} {x : PWord} (h : takeS n s = .ok (x, s1)) (m : BitVec 6) : underS m s1 = .ok ((), s1) ↔ underS m s = .ok ((), s) := by
  rcases takeS_cases n s with ⟨-, h'⟩ | ⟨e, r, -, -, -, -, h'⟩ | ⟨-, h'⟩ <;> rw [h'] at h
  · cases h; rfl
  · cases h
    have (b : Bool) (u : State) : (need b cUnder 0#32 0#32 u = .ok ((), u)) ↔ b = true := by cases b <;> simp
    unfold underS
    rw [this, this]
    simp only [State.upCore_eq, State.core_setTile, Core.sAlias, Core.sSpace, Core.setBank_inMon]
    have hq : (s.core.setBank { s.core.bank with ldq := r }).qs = s.core.qs := by unfold Core.setBank; split <;> rfl
    have hs : (s.core.setBank { s.core.bank with ldq := r }).strict = s.core.strict := by unfold Core.setBank; split <;> rfl
    have hr : (s.core.setBank { s.core.bank with ldq := r }).ranges = s.core.ranges := by unfold Core.setBank; split <;> rfl
    rw [hq, hs, hr]
  · cases h
/-- A source that has been read: its value was taken, and it was not under-waited. -/
theorem readS_split {n : BitVec 6} {s s1 : State} {x : PWord} (h : readS n s = .ok (x, s1)) : takeS n s = .ok (x, s1) ∧ underS n s = .ok ((), s) := by
  unfold readS at h
  cases ht : takeS n s with
  | error i => rw [iss_bind_error ht] at h; cases h
  | ok r =>
    obtain ⟨y, s2⟩ := r
    rw [iss_bind_ok ht] at h
    rcases underS_cases n s2 with hu | ⟨-, -, hu⟩
    · rw [iss_bind_ok hu] at h; cases h; exact ⟨rfl, (takeS_keeps ht n).1 hu⟩
    · rw [iss_bind_error hu] at h; cases h
/-- Two sources that can be read one after the other. -/
theorem readS2_ok {a b : BitVec 6} {s s1 s2 : State} {x y : PWord} (ha : readS a s = .ok (x, s1)) (hb : readS b s1 = .ok (y, s2)) :
    readS2 a b s = .ok ((x, y), s2) := by
  obtain ⟨h1, h2⟩ := readS_split ha
  obtain ⟨h3, h4⟩ := readS_split hb
  have h5 := (takeS_keeps h3 a).2 ((takeS_keeps h1 a).2 h2)
  have h6 := (takeS_keeps h3 b).2 h4
  unfold readS2
  rw [iss_bind_ok h1, iss_bind_ok h3, iss_bind_ok h5, iss_bind_ok h6]; rfl
/-- Two of them. -/
theorem readS2_plain (a b : BitVec 6) (s : State) (ha : s.core.sAlias a = false) (hb : s.core.sAlias b = false) (hs : s.core.strict = false) :
    readS2 a b s = .ok ((s.core.bank.sreg a.toNat, s.core.bank.sreg b.toNat), s) := by
  unfold readS2
  rw [iss_bind_ok (takeS_plain a s ha), iss_bind_ok (takeS_plain b s hb), iss_bind_ok (underS_ok a s hs), iss_bind_ok (underS_ok b s hs)]; rfl

/-- A vector source: the register, the head of the LDQ, or a queue fault. -/
theorem readV_cases (n : BitVec 7) (s : State) :
    (s.core.vAlias n = false ∧ readV n s = .ok (s.core.vreg n.toNat, s)) ∨
    (∃ e r, s.core.vAlias n = true ∧ s.core.bank.ldq = e :: r ∧ e.landed = true ∧ e.vec = true ∧
      readV n s = .ok (⟨e.val, e.poi⟩, s.upCore fun c => c.setBank { c.bank with ldq := r })) ∨
    (s.core.vAlias n = true ∧ readV n s = .error { cause := cQueue, slot := s.slot }) := by
  unfold readV
  cases ha : s.core.vAlias n with
  | true =>
    rcases popLdq_cases true s with ⟨e, r, h1, h2, h3, h4⟩ | h
    · exact .inr (.inl ⟨e, r, rfl, h1, h2, h3, by simp [h4]⟩)
    · exact .inr (.inr ⟨rfl, by simp [h]⟩)
  | false => exact .inl ⟨rfl, by simp⟩

theorem readV_plain (n : BitVec 7) (s : State) (h : s.core.vAlias n = false) : readV n s = .ok (s.core.vreg n.toNat, s) := by
  unfold readV; rw [h]; simp
theorem readVD_ok (n : BitVec 7) (s : State) (h : s.core.vAlias n = false) : readVD n s = .ok (s.core.vreg n.toNat, s) := by
  unfold readVD; rw [h]; simp
theorem readSD_ok (n : BitVec 6) (s : State) (h : s.core.sAlias n = false) (hs : s.core.strict = false) :
    readSD n s = .ok (s.core.bank.sreg n.toNat, s) := by
  unfold readSD; rw [h]; simp [readS_plain n s h hs]

/-! ### Tokens, start offsets, strict mode -/

theorem takeToken_ok (k : BitVec 5) (s : State) (h : (s.core.token k.toNat).infl + 1 ≤ 0xFFFF) :
    takeToken k s = .ok ((), s.upCore fun c => c.inflight k.toNat) := by
  unfold takeToken; simp only [h, if_true]
theorem takeToken_error (k : BitVec 5) (s : State) (h : ¬(s.core.token k.toNat).infl + 1 ≤ 0xFFFF) :
    takeToken k s = .error { cause := cToken, slot := s.slot, i0 := tokWord k.toNat (s.core.token k.toNat) } := by
  unfold takeToken; simp only [h, if_false]; rfl
@[simp] theorem startOf_zero (s : State) : startOf 0#9 s = .ok (s.clock, s) := rfl
theorem startOf_ok (st : BitVec 9) (s : State) (h : s.core.tsk ≤ 16 * st.toNat) :
    startOf st s = .ok (if st = 0#9 then s.clock else s.clock + (16 * st.toNat - s.core.tsk), s) := by
  unfold startOf
  by_cases h0 : st = 0#9
  · simp [h0]
  · simp [h0, h]
theorem underWait_ok (sp lo len : Nat) (s : State) (h : s.core.strict = false) : underWait sp lo len s = .ok ((), s) := by
  unfold underWait; rw [h]; rfl
theorem track_off (sp lo len : Nat) (k : BitVec 5) (n : Nat) (s : State) (h : s.core.strict = false) : track sp lo len k n s = .ok ((), s) := by
  unfold track; rw [h]; rfl

/-! ### Taking a cause -/

/-- Of a task: the trap. -/
theorem raise_task (s : State) (i : Info) (h : s.core.inMon = false) :
    s.raise i = { s.upHere (fun x => (x.uncount s.curC).upC s.curC fun c => c.enter (s.tcyc s.curT) i) with raised := some i } := by
  unfold State.raise; rw [h]; rfl
/-- Of the monitor: the monitor fault. -/
theorem raise_mon (s : State) (i : Info) (h : s.core.inMon = true) : s.raise i = { s.monitorFault with raised := some i } := by
  unfold State.raise; rw [h]; rfl
/-- A cause that is raised is noted. -/
@[simp] theorem raise_raised (s : State) (i : Info) : (s.raise i).raised = some i := by
  unfold State.raise; split <;> rfl

end Sys2Proof.Machine
end

