-- ==== Sys2Proof/Laws/Claims.lean ====
section
/-! SUPPORT. The checks of an issue pass where the words of the claims say so (Sys2Proof/Safety.lean). -/

namespace Sys2Proof.Machine

/-- One check or read of an issue, done: the rest goes on. -/
theorem iss_seq {α β : Type} {m : Iss α} {f : α → Iss β} {s s1 : State} {a : α} {r : Except Info (β × State)}
    (h : m s = .ok (a, s1)) (h' : f a s1 = r) : (m >>= f) s = r := (iss_bind_ok h).trans h'

theorem access_addr {a : PWord} {ea n al sp : Nat} (h : Access a ea n al sp) (s : State) : needAddr ea n al sp s = .ok ((), s) :=
  needAddr_ok (by simp [addrOk, h.1, h.2.1]) s
theorem access_clean {a : PWord} {ea n al sp : Nat} (h : Access a ea n al sp) (s : State) : consume a.poi s = .ok ((), s) := by
  rw [h.2.2]; rfl
theorem clear_ok {s : State} {sp lo n : Nat} (h : s.ClearOf sp lo n) : underWait sp lo n s = .ok ((), s) := by
  unfold underWait
  apply need_ok
  cases hs : s.core.strict with
  | false => rfl
  | true =>
    have := h hs
    simp only [Bool.true_and, Bool.not_eq_true', List.any_eq_false, Bool.and_eq_true, beq_iff_eq, decide_eq_true_eq]
    exact fun r hr hh => this r hr hh.1.1.1.1 hh.1.1.1.2 hh.1.1.2 hh.1.2 hh.2
theorem starts_ok {s : State} {st : BitVec 9} {c : Nat} (h : s.StartsAt st c) : startOf st s = .ok (c, s) := by
  unfold State.StartsAt at h
  split at h
  · rename_i h0; subst h0 h; rfl
  · rename_i h0; rw [startOf_ok st s h.1, if_neg h0, h.2]
theorem token_ok {s : State} {k : BitVec 5} (h : s.TokenFree k) : takeToken k s = .ok ((), s.posting k) := takeToken_ok k s h
theorem record_ok {s : State} {sp lo n m : Nat} {k : BitVec 5} (h : s.RecordFree) : track sp lo n k m s = .ok ((), s.tracking sp lo n k m) := by
  unfold track State.tracking
  cases hs : s.core.strict with
  | false => rfl
  | true => simp [h hs]
theorem popSdq_ok {s : State} {vec : Bool} {e : QEntry} {r : List QEntry} (h : Ready s.core.bank.sdq vec e r) :
    popSdq vec s = .ok (e, s.upCore fun c => c.setBank { c.bank with sdq := r }) := by
  unfold popSdq; rw [h.1]; simp [h.2.1, h.2.2]
theorem popLdq_ok {s : State} {vec : Bool} {e : QEntry} {r : List QEntry} (h : Ready s.core.bank.ldq vec e r) :
    popLdq vec s = .ok (e, s.upCore fun c => c.setBank { c.bank with ldq := r }) := by
  unfold popLdq; rw [h.1]; simp [h.2.1, h.2.2]

/-- Passing to the token's in-flight count changes neither the clock nor the strict-mode records. -/
@[simp] theorem posting_core (s : State) (k : BitVec 5) : (s.posting k).core = s.core.inflight k.toNat := by simp [State.posting]
theorem posting_record {s : State} {k : BitVec 5} (h : s.RecordFree) : (s.posting k).RecordFree := by
  unfold State.RecordFree at *; simpa [Core.inflight] using h

/-! ### Host commands -/

theorem openJob_port (s : State) (p q : Bool) (tag : Word) (i : Instr) : ((s.openJob p tag i).port q).enabled = (s.port q).enabled := by
  cases p <;> cases q <;> rfl
theorem openJob_status (s : State) (port : Bool) (tag : Word) (i : Instr) (n : Need) :
    (s.openJob port tag i).firstStatus port i n = s.firstStatus port i n := by
  have h (b : Nat × Nat) : (s.openJob port tag i).hostOk port b = s.hostOk port b := by
    unfold State.hostOk; rw [openJob_port]
  have hn (w : Word) : (s.openJob port tag i).named w = s.named w := by cases port <;> rfl
  unfold State.firstStatus
  rw [show (s.openJob port tag i).hostOk port = s.hostOk port from funext h, show (s.openJob port tag i).named = s.named from funext hn]
  cases port <;> rfl
/-- Nothing stands against a command that starts. -/
theorem starts_status {s : State} {port : Bool} {i : Instr} {n : Need} (h : s.Starts port i n) : s.firstStatus port i n = 0 := by
  obtain ⟨-, -, h1, h2, h3, h4, h5, h6⟩ := h
  have a0 : (n.name.any fun w => (s.named w).isNone) = false := by
    cases hn : n.name with
    | none => rfl
    | some w => simpa [Option.ne_none_iff_isSome] using h6 w hn
  unfold State.firstStatus
  simp only [h1, a0, Bool.not_true, Bool.or_self, Bool.false_eq_true, if_false]
  have a1 : (n.owner && !s.owns port) = false := by
    cases ho : n.owner with
    | false => rfl
    | true => simp [State.owns, (h2 ho).1]
  have a2 : (n.owner && s.scrubEnd.isSome) = false := by
    cases ho : n.owner with
    | false => rfl
    | true => simp [(h2 ho).2]
  have a3 : (n.map && s.boot == .defectLimit) = false := by
    cases ho : n.map with
    | false => rfl
    | true => simp [h3 ho]
  have a4 : (n.perm.any fun k => !(s.dbgAuth && s.dbgMask.getLsbD k)) = false := by
    cases ho : n.perm with
    | none => rfl
    | some k => simp [(h4 k ho).1, (h4 k ho).2]
  have a5 : n.bufs.all (s.hostOk port) = true := by
    simp only [List.all_eq_true, State.hostOk, Bool.or_eq_true, beq_iff_eq, Bool.and_eq_true, decide_eq_true_eq]
    intro b hb
    by_cases h0 : b.2 = 0
    · exact .inl h0
    · exact .inr (h5 b hb h0)
  rw [a1, a2, a3, a4, a5]; rfl
/-- It has its first turn. -/
theorem starts_turn {s : State} {port : Bool} {i : Instr} {n : Need} (h : s.Starts port i n) (tag : Word) (run : HostAct) :
    hostCommand port tag i n run s = .next ((s.openJob port tag i).hostTurn port (s.entryOf port tag i) run) := by
  have hb : ¬(s.boot = .bootFail ∧ (!n.query) = true) := fun hb => by simp [h.1 hb.1] at hb
  unfold hostCommand
  rw [if_neg hb, if_pos h.2.1]
  unfold State.commandTurn
  rw [openJob_status, starts_status h]
  rfl
/-- A command of one turn ends in it. -/
theorem starts_ends {s : State} {port : Bool} {i : Instr} {n : Need} (h : s.Starts port i n) (tag : Word) (f : State → State × Nat × Nat) :
    hostCommand port tag i n (atOnce f) s = .next (s.ends port tag i (f (s.openJob port tag i))) := by
  rw [starts_turn h]; rfl

end Sys2Proof.Machine
end

