-- ==== Sys2Proof/Laws/Memory.lean ====
section
/-! SUPPORT. Every operation on a memory keeps its canonical form, and every memory has it at reset. -/

namespace Sys2Proof.Machine

theorem wf_sset (m : Memory) (k : Nat) (v : Byte) (h : Memory.wf m = true) : Memory.wf (sset 0#8 m k v) = true := swf_sset _ _ _ _ h
theorem wf_sfill (m : Memory) (k n : Nat) (v : Byte) (h : Memory.wf m = true) : Memory.wf (sfill 0#8 m k n v) = true := swf_sfill _ _ _ _ _ h
theorem wf_ssetBytes (m : Memory) (k n v : Nat) (h : Memory.wf m = true) : Memory.wf (ssetBytes m k n v) = true := swf_ssetBytes _ _ _ _ h
theorem wf_filter (m : Memory) (f : Nat × Byte → Bool) (h : Memory.wf m = true) : Memory.wf (m.filter f) = true := swf_filter _ _ _ h
theorem wf_putList (l : List Byte) (m : Memory) (a : Nat) (h : Memory.wf m = true) : Memory.wf (putList m a l) = true := by
  induction l generalizing m a with
  | nil => exact h
  | cons b r ih => exact ih _ _ (wf_sset _ _ _ h)

theorem wf_unitsPut (k : Nat) : ∀ (m : Memory) (a n v : Nat), Memory.wf m = true → Memory.wf (unitsPut m a n v k) = true := by
  induction k with
  | zero => intro m a n v h; exact h
  | succ k ih => intro m a n v h; exact ih _ _ _ _ (wf_ssetBytes _ _ _ _ h)

/-! ### Tiles -/

theorem memWf_parts (x : Tile) : x.memWf = true ↔ Memory.wf x.tm = true ∧ Memory.wf x.ds = true ∧ Memory.wf x.code = true := by
  unfold Tile.memWf; simp [Bool.and_eq_true, and_assoc]
theorem touch_mem (y : Tile) (i j : Nat) : (y.touch i j).tm = y.tm ∧ (y.touch i j).ds = y.ds ∧ (y.touch i j).code = y.code := by
  unfold Tile.touch; repeat' split
  all_goals exact ⟨rfl, rfl, rfl⟩
/-- Meeting latent errors writes poison and the undo log only. -/
theorem meetWords_mem (x : Tile) (k : Nat) (f : Nat → Bool) :
    (x.meetWords k f).tm = x.tm ∧ (x.meetWords k f).ds = x.ds ∧ (x.meetWords k f).code = x.code := by
  have fold : ∀ (g : Tile → LatentErr → Tile) (_ : ∀ y e, (g y e).tm = y.tm ∧ (g y e).ds = y.ds ∧ (g y e).code = y.code) (l : List LatentErr) (y : Tile),
      (l.foldl g y).tm = y.tm ∧ (l.foldl g y).ds = y.ds ∧ (l.foldl g y).code = y.code := by
    intro g hg l
    induction l with
    | nil => intro y; exact ⟨rfl, rfl, rfl⟩
    | cons b r ih => intro y; obtain ⟨h1, h2, h3⟩ := ih (g y b); obtain ⟨g1, g2, g3⟩ := hg y b; exact ⟨h1.trans g1, h2.trans g2, h3.trans g3⟩
  unfold Tile.meetWords
  split
  · exact ⟨rfl, rfl, rfl⟩
  · dsimp only
    refine ⟨((fold _ ?_ _ _).1).trans (fold _ ?_ _ _).1, ((fold _ ?_ _ _).2.1).trans (fold _ ?_ _ _).2.1, ((fold _ ?_ _ _).2.2).trans (fold _ ?_ _ _).2.2⟩
    all_goals intro y e
    all_goals first
      | exact touch_mem _ _ _
      | (split <;> exact ⟨rfl, rfl, rfl⟩)
theorem touchRange_mem (x : Tile) (k a n : Nat) : (x.touchRange k a n).tm = x.tm ∧ (x.touchRange k a n).ds = x.ds ∧ (x.touchRange k a n).code = x.code := by
  have fold : ∀ (l : List Nat) (f : Nat → Nat) (y : Tile),
      (l.foldl (fun y j => y.touch k (f j)) y).tm = y.tm ∧ (l.foldl (fun y j => y.touch k (f j)) y).ds = y.ds
        ∧ (l.foldl (fun y j => y.touch k (f j)) y).code = y.code := by
    intro l f
    induction l with
    | nil => intro y; exact ⟨rfl, rfl, rfl⟩
    | cons b r ih =>
      intro y
      obtain ⟨h1, h2, h3⟩ := ih (y.touch k (f b))
      obtain ⟨g1, g2, g3⟩ := touch_mem y k (f b)
      exact ⟨h1.trans g1, h2.trans g2, h3.trans g3⟩
  unfold Tile.touchRange
  split
  · exact ⟨rfl, rfl, rfl⟩
  · exact fold _ _ _
theorem meetParts_memWf (x : Tile) (k a n : Nat) (h : x.memWf = true) : (x.meetParts k a n).memWf = true := by
  obtain ⟨h1, h2, h3⟩ := meetWords_mem x k fun w => wordTouched (eccWord k) a n w && !wordFilled (eccWord k) a n w
  rw [memWf_parts] at h ⊢
  unfold Tile.meetParts
  rw [h1, h2, h3]; exact h
theorem memWf_tmWrite (x : Tile) (a n v p : Nat) (h : x.memWf = true) : (x.tmWrite a n v p).memWf = true := by
  obtain ⟨-, h2, h3⟩ := touchRange_mem (x.meetParts 0 a n) 0 a n
  have h := (memWf_parts _).1 (meetParts_memWf x 0 a n h)
  rw [memWf_parts]
  exact ⟨wf_ssetBytes _ _ _ _ h.1, by show Memory.wf ((x.meetParts 0 a n).touchRange 0 a n).ds = true; rw [h2]; exact h.2.1,
    by show Memory.wf ((x.meetParts 0 a n).touchRange 0 a n).code = true; rw [h3]; exact h.2.2⟩
theorem memWf_dsWrite (x : Tile) (a n v p : Nat) (h : x.memWf = true) : (x.dsWrite a n v p).memWf = true := by
  obtain ⟨h1, -, h3⟩ := touchRange_mem (x.meetParts 1 a n) 1 a n
  have h := (memWf_parts _).1 (meetParts_memWf x 1 a n h)
  rw [memWf_parts]
  exact ⟨by show Memory.wf ((x.meetParts 1 a n).touchRange 1 a n).tm = true; rw [h1]; exact h.1, wf_ssetBytes _ _ _ _ h.2.1,
    by show Memory.wf ((x.meetParts 1 a n).touchRange 1 a n).code = true; rw [h3]; exact h.2.2⟩
/-- A page of code that is mapped in. -/
theorem memWf_mapPage (x y : Tile) (v : Nat) (h : x.memWf = true) (hy : x.mapPage v = some y) : y.memWf = true := by
  unfold Tile.mapPage at hy
  split at hy
  · cases hy; rw [memWf_parts] at h ⊢; exact ⟨h.1, h.2.1, wf_putList _ _ _ h.2.2⟩
  · cases hy

/-- A record of the undo log that is taken back (R410). -/
theorem memWf_undoOne (x : Tile) (u : Undo) (h : x.memWf = true) : (x.undoOne u).memWf = true := by
  rw [memWf_parts] at h ⊢
  unfold Tile.undoOne
  split
  · exact ⟨wf_ssetBytes _ _ _ _ h.1, h.2.1, h.2.2⟩
  split
  · exact ⟨h.1, wf_ssetBytes _ _ _ _ h.2.1, h.2.2⟩
  split
  · exact h
  split <;> exact h
theorem memWf_undoAll (l : List Undo) (x : Tile) (h : x.memWf = true) : (l.foldl Tile.undoOne x).memWf = true := by
  induction l generalizing x with
  | nil => exact h
  | cons u r ih => exact ih _ (memWf_undoOne x u h)
/-- A tile that goes back to a checkpoint. -/
theorem memWf_rolled (x c : Tile) (deep : Bool) (h : x.memWf = true) : (x.rolled c deep).memWf = true := by
  have hm := memWf_undoAll (x.undo ++ if deep then x.undoOld else []) x h
  rw [memWf_parts] at hm h ⊢
  exact ⟨hm.1, hm.2.1, h.2.2⟩

/-! ### The module -/

/-- A write of the second tier or of host memory. -/
theorem memWf_writeAt (s : State) (x : Target) (n v : Nat) (h : s.memWf = true) : (s.writeAt x n v).memWf = true := by
  unfold State.memWf at h ⊢
  simp only [Bool.and_eq_true] at h
  unfold State.writeAt
  split
  · simp only [Bool.and_eq_true]; exact ⟨⟨⟨⟨wf_unitsPut _ _ _ _ _ h.1.1.1.1, h.1.1.1.2⟩, h.1.1.2⟩, h.1.2⟩, h.2⟩
  · unfold State.upPort State.setPort State.port
    cases x.tgt == 2 <;> simp only [Bool.and_eq_true]
    · exact ⟨⟨⟨⟨h.1.1.1.1, wf_ssetBytes _ _ _ _ h.1.1.1.2⟩, h.1.1.2⟩, h.1.2⟩, h.2⟩
    · exact ⟨⟨⟨⟨h.1.1.1.1, h.1.1.1.2⟩, wf_ssetBytes _ _ _ _ h.1.1.2⟩, h.1.2⟩, h.2⟩
/-- A write of host memory by a command. -/
theorem memWf_hostWrite (s : State) (port : Bool) (a : Nat) (l : List Byte) (h : s.memWf = true) : (s.hostWrite port a l).memWf = true := by
  unfold State.memWf at h ⊢
  simp only [Bool.and_eq_true] at h
  unfold State.hostWrite State.upPort State.setPort State.port
  cases port <;> simp only [Bool.and_eq_true]
  · exact ⟨⟨⟨⟨h.1.1.1.1, wf_putList _ _ _ h.1.1.1.2⟩, h.1.1.2⟩, h.1.2⟩, h.2⟩
  · exact ⟨⟨⟨⟨h.1.1.1.1, h.1.1.1.2⟩, wf_putList _ _ _ h.1.1.2⟩, h.1.2⟩, h.2⟩

theorem all_sinsert {α : Type} (f : Nat × α → Bool) (m : SMap α) (k : Nat) (v : α) (h : m.all f = true) (hv : f (k, v) = true) :
    (sinsert k v m).all f = true := by
  induction m with
  | nil => simp [sinsert, hv]
  | cons e r ih =>
    simp only [List.all_cons, Bool.and_eq_true] at h
    simp only [sinsert]; split
    · simp [hv, h.1, h.2]
    · simp [h.1, ih h.2]
theorem all_serase {α : Type} (f : Nat × α → Bool) (m : SMap α) (k : Nat) (h : m.all f = true) : (serase k m).all f = true := by
  rw [serase_eq_filter]; simp only [List.all_eq_true, List.mem_filter] at h ⊢; exact fun e he => h e he.1
/-- What is done to one tile. -/
theorem memWf_setTile (s : State) (t : Nat) (x : Tile) (h : s.memWf = true) (hx : x.memWf = true) : (s.setTile t x).memWf = true := by
  unfold State.memWf at h ⊢
  simp only [Bool.and_eq_true] at h
  unfold State.setTile
  simp only [Bool.and_eq_true]
  refine ⟨⟨h.1.1, ?_⟩, h.2⟩
  unfold sset
  split
  · exact all_serase _ _ _ h.1.2
  · exact all_sinsert _ _ _ _ (all_serase _ _ _ h.1.2) hx
theorem memWf_tile (s : State) (t : Nat) (h : s.memWf = true) : (s.tile t).memWf = true := by
  unfold State.memWf at h
  simp only [Bool.and_eq_true] at h
  have : ∀ m : SMap Tile, (m.all fun e => e.2.memWf) = true → (sget {} m t).memWf = true := by
    intro m hm
    induction m with
    | nil => rfl
    | cons e r ih =>
      simp only [List.all_cons, Bool.and_eq_true] at hm
      simp only [sget]; split
      · exact hm.1
      · exact ih hm.2
  exact this _ h.1.2

/-- Every memory has the canonical form at reset. -/
theorem reset_memWf : State.reset.memWf = true := rfl

end Sys2Proof.Machine
end

