-- ==== Sys2Proof/Laws/Streams.lean ====
section
/-! SUPPORT. The error codes of a translation: from 0x10 to 0x21 (R251). -/

namespace Sys2Proof.Machine

theorem reach_code {s : State} {tgt addr e : Nat} (h : s.reach tgt addr = .error e) : 0x10 ≤ e ∧ e ≤ 0x21 := by
  unfold State.reach at h
  repeat' split at h
  all_goals first | (cases h; decide) | cases h
theorem walkEntry_code {s : State} {dva lv base e : Nat} {go : Nat → Except Nat (Nat × Bool × Nat)}
    (hgo : ∀ b e, go b = .error e → 0x10 ≤ e ∧ e ≤ 0x21) (h : s.walkEntry dva lv base go = .error e) : 0x10 ≤ e ∧ e ≤ 0x21 := by
  unfold State.walkEntry at h
  dsimp only at h
  repeat' split at h
  all_goals first | exact hgo _ _ h | (cases h; decide) | cases h
theorem walk_code {s : State} {dva lv base e : Nat} (h : s.walk dva lv base = .error e) : 0x10 ≤ e ∧ e ≤ 0x21 := by
  induction lv generalizing base e with
  | zero => exact walkEntry_code (fun _ _ h => by cases h; decide) h
  | succ n ih => exact walkEntry_code (fun _ _ h => ih h) h
theorem translate_code {s : State} {hub dva e : Nat} {wr : Bool} (h : s.translate hub dva wr = .error e) : 0x10 ≤ e ∧ e ≤ 0x21 := by
  unfold State.translate at h
  dsimp only at h
  repeat' split at h
  all_goals first | exact reach_code h | (cases h; decide) | (cases h; exact walk_code ‹_›) | cases h

/-- A fold that keeps the first error it finds keeps a property of every error it can find. -/
theorem firstError {α : Type} {P : Nat × Nat → Prop} {f : α → Option (Nat × Nat)} (l : List α) (o : Option (Nat × Nat)) {r : Nat × Nat}
    (ho : ∀ q, o = some q → P q) (hf : ∀ a q, f a = some q → P q)
    (h : l.foldl (fun o a => match o with | some _ => o | none => f a) o = some r) : P r := by
  induction l generalizing o with
  | nil => exact ho r h
  | cons a l ih =>
    rw [List.foldl_cons] at h
    cases o with
    | some p => exact ih (some p) ho h
    | none => exact ih (f a) (hf a) h

/-- A stream that cannot start says why. -/
theorem streamCheck_code {s : State} {hub : Nat} {j : StreamJob} {e b : Nat} (h : s.streamCheck hub j = some (e, b)) : 0x10 ≤ e ∧ e ≤ 0x21 := by
  unfold State.streamCheck at h
  refine firstError (P := fun q => 0x10 ≤ q.1 ∧ q.1 ≤ 0x21) _ none (by simp) ?_ h
  intro row q hq
  refine firstError (P := fun q => 0x10 ≤ q.1 ∧ q.1 ≤ 0x21) _ none (by simp) ?_ hq
  intro off q hq
  unfold State.pageCheck at hq
  dsimp only at hq
  repeat' split at hq
  all_goals first
    | (cases hq; exact translate_code ‹_›)
    | (cases hq; exact ⟨by dsimp only; omega, by dsimp only; omega⟩)
    | cases hq

end Sys2Proof.Machine
end

