-- ==== Sys2Proof/Tests/Slice0.lean ====
section
/-! SUPPORT. Tests of the model, and for every statement with hypotheses a concrete state and operands that meet them.

The decode tests give words written from the encoding tables of the spec; the tests of one step take their results from the worked cases of the
spec or from a calculation by hand. A witness has one part for each choice of state and operands: the premises of the clauses that this choice
meets, all together. Two kinds of value have no witness, because nothing fixes them: the power of a window and what a certificate says (Config);
the statements that turn on them give the outcome of both cases. -/

namespace Sys2Proof.Tests
open Sys2Proof Sys2Proof.Machine

set_option Elab.async false

/-! ### States of the tests -/

/-- A module after boot in global cycle 1000, whose tile 0 is x. -/
def one (x : Tile) : State := { State.reset with agenda := [], boot := .normal, gcyc := 1000, portA := { enabled := true }, portB := { enabled := true }, tiles := [(0, { x with held := true })] }

/-- Registers of the tests: s1 = 7, s2 = -16, s3 poisoned, s4 = 0, s5 = 128, s6 = 2^31; a3 = 0x1000, a4 poisoned, a6 = 0x2040; p1 true, p2 false, p3 poisoned. -/
def bank : Bank :=
  { s := [(1, ⟨7#32, false⟩), (2, ⟨0xFFFFFFF0#32, false⟩), (3, ⟨5#32, true⟩), (5, ⟨128#32, false⟩), (6, ⟨0x80000000#32, false⟩)]
    a := [(3, ⟨0x1000#32, false⟩), (4, ⟨0x1000#32, true⟩), (6, ⟨0x2040#32, false⟩)]
    p := [(1, ⟨true, false⟩), (3, ⟨false, true⟩)] }

/-- A core that runs a task: task cycle 100, its bundle at 0x1000. -/
def core0 : Core := { task := bank, mode := .task, tsk := 100, due := 100, pc := 0x1000 }

/-- A module whose tile 0 has core c as its core 0. -/
def at0 (c : Core) (x : Tile := {}) : State := one { x with cores := [(0, c)] }

/-- The module of core0. -/
def s0 : State := at0 core0

/-! ### Closing the premises of the witnesses -/

/-- A range of numbers, checked one by one. -/
theorem ball {lo hi : Nat} {P : Nat → Prop} (h : ∀ e < hi, lo ≤ e → P e) : ∀ e, lo ≤ e → e < hi → P e := fun e a b => h e b a
/-- The entries of a list under one key. -/
theorem mem_val {l : List (Nat × Nat)} {c v : Nat} (h : ∀ p ∈ l, p.1 = c → p.2 = v) : ∀ j, (c, j) ∈ l → j = v := fun _ m => h _ m rfl
theorem mem_all {l : List (Nat × Nat)} {P : Nat → Prop} (h : ∀ p ∈ l, P p.1) : ∀ d r, (d, r) ∈ l → P d := fun _ _ m => h _ m
/-- With one tile in the module, its hub has that tile's streams under way. -/
theorem hub_one {s : State} {x : Tile} (h : s.tiles = [(0, x)]) :
    s.hubLoad (Config.homeHub 0 % 48) = (x.streams.filter fun j => j.going && !j.fin).length := by simp [State.hubLoad, homeHub, h]
theorem lt_hub {a b c : Nat} (h : b < c) (e : a = b) : a < c := e ▸ h
theorem le_hub {a b c : Nat} (h : c ≤ b) (e : a = b) : c ≤ a := e ▸ h
/-- A command that names no tile, and one that names a tile of this wafer. -/
theorem name_none {s : State} : ∀ w, (none : Option Word) = some w → s.named w ≠ none := nofun
theorem name_some {s : State} {v : Word} (h : s.named v ≠ none) : ∀ w, some v = some w → s.named w ≠ none := fun _ e => by cases e; exact h

/-! ### Well-formedness: each check refuses an ill-formed term, and takes the one at its limit -/

/-- R70, R71: shift counts, comparison codes. -/
theorem test_wf_scalar :
    (∀ i ∈ [Instr.shlImm 1#6 2#6 32#18, .shrImm 1#6 2#6 32#18, .sarImm 1#6 2#6 0x3FFFF#18, .rolImm 1#6 2#6 32#18, .cmp 1#3 6#3 1#6 2#6,
      .cmpImm 1#3 7#3 1#6 0#15, .fcmp 1#3 4#3 1#6 2#6], i.wf = false)
    ∧ ∀ i ∈ [Instr.shlImm 1#6 2#6 31#18, .shrImm 1#6 2#6 0#18, .sarImm 1#6 2#6 31#18, .rolImm 1#6 2#6 31#18, .cmp 1#3 5#3 1#6 2#6,
      .cmpImm 1#3 5#3 1#6 0#15, .fcmp 1#3 3#3 1#6 2#6], i.wf = true := by decide +kernel

/-- R75, R76: classes, types, rounding modes, counts and lanes. -/
theorem test_wf_vector :
    (∀ i ∈ [Instr.vadd 1#7 2#7 3#7 0#3 7#3 0#2, .vsub 1#7 2#7 3#7 0#3 3#3 1#2, .vmul 1#7 2#7 3#7 0#3 6#3 3#2, .vfma 1#7 2#7 3#7 0#3 3#3 0#2,
      .vfms 1#7 2#7 3#7 0#3 7#3 0#2, .vmin 1#7 2#7 3#7 0#3 7#3, .vmax 1#7 2#7 3#7 0#3 7#3, .vminn 1#7 2#7 3#7 0#3 3#3, .vmaxn 1#7 2#7 3#7 0#3 5#3,
      .vabs 1#7 2#7 0#3 7#3, .vneg 1#7 2#7 0#3 7#3, .vadds 1#7 2#7 3#7 0#3 0#3, .vsubs 1#7 2#7 3#7 0#3 1#3, .vand 1#7 2#7 3#7 0#3 2#3,
      .vor 1#7 2#7 3#7 0#3 0#3, .vxor 1#7 2#7 3#7 0#3 7#3, .vshl 1#7 2#7 3#7 0#3 0#3, .vshr 1#7 2#7 3#7 0#3 1#3, .vsar 1#7 2#7 3#7 0#3 2#3,
      .vshlImm 1#7 2#7 32#6 0#3 3#3, .vshrImm 1#7 2#7 16#6 0#3 4#3, .vsarImm 1#7 2#7 1#6 0#3 0#3, .vcmp 7#3 1#3 2#7 3#7 0#3 0#3,
      .vcmp 6#3 1#3 2#7 3#7 0#3 3#3, .vcmp 0#3 1#3 2#7 3#7 0#3 7#3, .vsel 1#7 2#7 3#7 0#3 7#3, .vclamp 1#7 2#6 3#6 0#3 7#3, .vperm 1#7 2#7 3#7 0#3 7#3,
      .vmov 1#7 2#7 0#3 7#3, .vbcast 1#7 2#6 0#3 7#3, .vext 1#6 2#7 64#7 0#3, .vext 1#6 2#7 0#7 7#3, .vrot 1#7 2#7 64#7 0#3 5#3,
      .vslide 1#7 2#7 3#7 0#3 7#3, .vredAdd 1#6 2#7 0#3 3#3 1#2, .vredMax 1#6 2#7 0#3 7#3, .vredMin 1#6 2#7 0#3 7#3,
      .vcvt 1#7 2#7 3#3 3#3 0#3 0#2 false, .vcvt 1#7 2#7 3#3 4#3 0#3 1#2 false, .vpackSb 1#7 2#7 1#6 0#3 0#2, .vpackSb 1#7 2#7 9#6 0#3 0#2,
      .vpackSb 1#7 2#7 4#6 3#3 0#2, .vpackSb 1#7 63#7 5#6 0#3 0#2, .vunpackSb 1#7 2#7 4#3 0#2, .vunpackSb 127#7 2#7 0#3 0#2], i.wf = false)
    ∧ ∀ i ∈ [Instr.vadd 1#7 2#7 3#7 0#3 2#3 3#2, .vsub 1#7 2#7 3#7 0#3 6#3 0#2, .vfma 1#7 2#7 3#7 0#3 2#3 1#2, .vminn 1#7 2#7 3#7 0#3 1#3,
      .vadds 1#7 2#7 3#7 0#3 3#3, .vshlImm 1#7 2#7 31#6 0#3 5#3, .vshrImm 1#7 2#7 15#6 0#3 6#3, .vcmp 6#3 1#3 2#7 3#7 0#3 2#3, .vext 1#6 2#7 63#7 3#3,
      .vext 1#6 2#7 127#7 4#3, .vrot 1#7 2#7 127#7 0#3 1#3, .vredAdd 1#6 2#7 0#3 1#3 3#2, .vcvt 1#7 2#7 3#3 0#3 0#3 3#2 true,
      .vcvt 1#7 2#7 3#3 4#3 0#3 0#2 false, .vpackSb 1#7 63#7 6#6 0#3 0#2, .vpackSb 1#7 62#7 2#6 0#3 0#2, .vunpackSb 126#7 2#7 0#3 3#2], i.wf = true := by
  decide +kernel

/-- R77, R78, R79 to R83: beats, matrix types, conversions, tables, summaries, lengths, groups, loops, CSR numbers. -/
theorem test_wf_commands :
    (∀ i ∈ [Instr.lwt 0#2 1#4 0#7 0#9, .lwt 0#2 1#4 7#7 0#9, .mma false 0#2 1#4 0#7 0#4 0#9, .mmaz false 0#2 1#4 65#7 0#4 0#9, .gmma false 0#2 1#4 8#7 6#4 0#9,
      .mma false 0#2 1#4 8#7 15#4 0#9, .mma false 0#2 1#4 9#7 8#4 0#9, .accld true 1#4 8#4 0#6 0#9, .accret true 1#4 15#4 0#6 0#9, .tev 1#7 2#7 10#4 0#2 0#3,
      .tev 1#7 2#7 11#4 0#2 0#3, .tev 1#7 2#7 0#4 3#2 0#3, .skinitHh 0#3 3#2 1#5, .skinitDc 0#3 2#2 1#5, .send 1#8 2#4 0#9 0#9, .sendRel 1#8 2#4 0#9 0#9,
      .sendM 1#6 2#4 0#9 0#9, .sendr 1#8 2#4 0#9 0#9, .loop 1#6 0#10 1#14, .loopP 1#6 1#10 0#14, .loopW false 1#3 0#10 1#14, .csrr 1#6 7#12, .csrr 1#6 0xC51#12,
      .csrw 1#6 0x30#12, .csrw 1#6 0x35#12, .csrw 1#6 0x18#12], i.wf = false)
    ∧ ∀ i ∈ [Instr.lwt 0#2 1#4 6#7 0#9, .mma false 0#2 1#4 64#7 14#4 0#9, .mmaz false 0#2 1#4 1#7 5#4 0#9, .gmma false 0#2 1#4 8#7 8#4 0#9, .accld true 1#4 7#4 63#6 0#9,
      .tev 1#7 2#7 15#4 2#2 0#3, .skinitHh 0#3 2#2 1#5, .skinitDc 0#3 1#2 1#5, .send 1#8 2#4 511#9 0#9, .loop 1#6 1023#10 16383#14, .csrr 1#6 0x35#12,
      .csrr 1#6 0xC50#12, .csrw 1#6 0x47#12], i.wf = true := by decide +kernel

/-- R384: ranges of the arguments of host commands. -/
theorem test_wf_host :
    (∀ i ∈ [Instr.loadImage false 0#32 8#64 1#32, .loadImage false 0#32 16#64 0#32, .loadImage false 0#32 16#64 6913#32, .launchStart false 0#32 96#16 0#16 0#16 0#16 0#256,
      .launchPost false 0#32 0#16 72#16 0#16 0#16 0#256, .launchStart false 0#32 0#16 0#16 96#16 0#16 0#256, .launchPost false 0#32 0#16 0#16 0#16 72#16 0#256,
      .stream false 0#32 0#64 0#64 0#32 false, .stream false 0#32 0#64 0#64 65#32 true, .mapRangeEntry false 0#32 64#8 0#64 0#64 0#64,
      .mapRangeEntry false 0#32 0#8 1#64 0#64 0#64, .mapRangeEntry false 0#32 0#8 0#64 0x800#64 0#64, .mapTableRoot false 0#32 0x800#64,
      .mapTableRoot false 0#32 6144000000000#64, .checkpoint false 0#32 0#64 0#64 0x800#64 0#64 0#16, .checkpoint false 0#32 0#64 0#64 0#64 0#64 65#16,
      .queryTileReport false 0#32 1#32 0#64 0#32, .queryRouterCounters false 0#32 0x400000#32 0#64 0#32, .preempt false 0#32 2#32 0#8, .resume false 0#32 0#64 2#8 0#32,
      .resume false 0#32 0#64 1#8 3#32, .resume false 0#32 0#64 0#8 3#32, .stepTile false 0#32 0#32 0#32, .stepTile false 0#32 65536#32 0#32, .stepTile false 0#32 1#32 1#32, .stepWafer false 0#32 0#32,
      .readState false 0#32 1#32 0#8 0#8 0#32 4#32 0#64, .readState false 0#32 0#32 8#8 0#8 0#32 4#32 0#64, .readState false 0#32 0#32 0#8 4#8 0#32 4#32 0#64,
      .readState false 0#32 0#32 0#8 0#8 0#32 2#32 0#64, .readState false 0#32 0#32 0#8 0#8 0#32 1048580#32 0#64, .powerCap false 0#32 7999#16 0#8 0#256,
      .powerCap false 0#32 28001#16 0#8 0#256, .powerCap false 0#32 8000#16 5#8 0#256, .powerRetentionEnter false 0#32 1#32, .powerRetentionExit false 0#32 1#32,
      .semaphoreAcquire false 0#32 16#8 0#16 0#32, .semaphoreAcquire false 0#32 0#8 0#16 0#32, .semaphoreAcquire false 0#32 0#8 0#16 3601#32,
      .semaphoreAcquire false 0#32 1#8 0#16 1#32, .semaphoreRelease false 0#32 16#8 0#16, .semaphoreRead false 0#32 16#8 0#16], i.wf = false)
    ∧ ∀ i ∈ [Instr.loadImage false 0#32 16#64 6912#32, .launchStart false 0#32 95#16 71#16 95#16 71#16 0#256, .stream false 0#32 0#64 0#64 64#32 false,
      .mapRangeEntry false 0#32 63#8 0xF000000000001000#64 0x1000#64 1#64, .mapTableRoot false 0#32 6143999995904#64, .checkpoint false 0#32 0#64 0#64 0x1000#64 0#64 64#16,
      .queryTileReport false 0#32 0x6547C#32 0#64 0#32, .resume false 0#32 0#64 0#8 0#32, .resume false 0#32 0#64 1#8 0x6547C#32, .stepTile false 0#32 65535#32 0#32, .readState false 0#32 0#32 7#8 3#8 0#32 1048576#32 0#64,
      .powerCap false 0#32 8000#16 4#8 0#256, .semaphoreAcquire false 0#32 0#8 0#16 3600#32, .semaphoreAcquire false 0#32 15#8 0#16 0#32], i.wf = true := by decide +kernel

/-- R69 to R71: words laid out field by field from the formats of the spec. -/
theorem test_decode_scalar_1 :
    decodeSlot 0x800B5A80#32 0#9 = .ok (.add 22#6 45#6 16#6)
    ∧ decodeSlot 0x802BE0A8#32 0#9 = .ok (.sub 23#6 48#6 21#6)
    ∧ decodeSlot 0x804C66D0#32 0#9 = .ok (.and 24#6 51#6 26#6)
    ∧ decodeSlot 0x806CECF8#32 0#9 = .ok (.or 25#6 54#6 31#6)
    ∧ decodeSlot 0x808D7320#32 0#9 = .ok (.xor 26#6 57#6 36#6)
    ∧ decodeSlot 0x80ADF948#32 0#9 = .ok (.andn 27#6 60#6 41#6)
    ∧ decodeSlot 0x80CE7F70#32 0#9 = .ok (.shl 28#6 63#6 46#6)
    ∧ decodeSlot 0x80EE8598#32 0#9 = .ok (.shr 29#6 2#6 51#6)
    ∧ decodeSlot 0x810F0BC0#32 0#9 = .ok (.sar 30#6 5#6 56#6)
    ∧ decodeSlot 0x812F91E8#32 0#9 = .ok (.rol 31#6 8#6 61#6)
    ∧ decodeSlot 0x81501610#32 0#9 = .ok (.min 32#6 11#6 2#6)
    ∧ decodeSlot 0x81709C38#32 0#9 = .ok (.max 33#6 14#6 7#6)
    ∧ decodeSlot 0x81912260#32 0#9 = .ok (.minu 34#6 17#6 12#6)
    ∧ decodeSlot 0x81B1A888#32 0#9 = .ok (.maxu 35#6 20#6 17#6)
    ∧ decodeSlot 0x81D22EB0#32 0#9 = .ok (.adds 36#6 23#6 22#6)
    ∧ decodeSlot 0x81F2B4D8#32 0#9 = .ok (.subs 37#6 26#6 27#6)
    ∧ decodeSlot 0x82133B00#32 0#9 = .ok (.mul 38#6 29#6 32#6)
    ∧ decodeSlot 0x8233C128#32 0#9 = .ok (.mulh 39#6 32#6 37#6)
    ∧ decodeSlot 0x82544750#32 0#9 = .ok (.mulhu 40#6 35#6 42#6)
    ∧ decodeSlot 0x8274CD78#32 0#9 = .ok (.div 41#6 38#6 47#6)
    ∧ decodeSlot 0x829553A0#32 0#9 = .ok (.divu 42#6 41#6 52#6)
    ∧ decodeSlot 0x82B5D9C8#32 0#9 = .ok (.rem 43#6 44#6 57#6)
    ∧ decodeSlot 0x82D65FF0#32 0#9 = .ok (.remu 44#6 47#6 62#6)
    ∧ decodeSlot 0x82F6E400#32 0#9 = .ok (.abs 45#6 50#6) :=
  ⟨rfl, rfl, rfl, rfl, rfl, rfl, rfl, rfl, rfl, rfl, rfl, rfl, rfl, rfl, rfl, rfl, rfl, rfl, rfl, rfl, rfl, rfl, rfl, rfl⟩

/-- R69 to R71: words laid out field by field from the formats of the spec. -/
theorem test_decode_scalar_2 :
    decodeSlot 0x83176A00#32 0#9 = .ok (.clz 46#6 53#6)
    ∧ decodeSlot 0x8337F000#32 0#9 = .ok (.popc 47#6 56#6)
    ∧ decodeSlot 0x83587600#32 0#9 = .ok (.extB 48#6 59#6)
    ∧ decodeSlot 0x8358FC01#32 0#9 = .ok (.extH 49#6 62#6)
    ∧ decodeSlot 0x83590202#32 0#9 = .ok (.extBu 50#6 1#6)
    ∧ decodeSlot 0x83598803#32 0#9 = .ok (.extHu 51#6 4#6)
    ∧ decodeSlot 0x8364A2F5#32 0#9 = .ok (.sel 9#6 17#6 30#6 5#3)
    ∧ decodeSlot 0x84038570#32 0x177#9 = .ok (.addi 7#6 2#6 0x11170#18)
    ∧ decodeSlot 0x842417F0#32 0#9 = .ok (.andImm 8#6 11#6 0x3FFF0#18)
    ∧ decodeSlot 0x8444A800#32 0x100#9 = .ok (.orImm 9#6 20#6 0x20000#18)
    ∧ decodeSlot 0x84653BFF#32 0x100#9 = .ok (.xorImm 10#6 29#6 0x1FFFF#18)
    ∧ decodeSlot 0x8485CD70#32 0x177#9 = .ok (.andnImm 11#6 38#6 0x11170#18)
    ∧ decodeSlot 0x84B0861F#32 0#9 = .ok (.shlImm 33#6 3#6 31#18)
    ∧ decodeSlot 0x84D11001#32 0#9 = .ok (.shrImm 34#6 8#6 1#18)
    ∧ decodeSlot 0x84F19A00#32 0#9 = .ok (.sarImm 35#6 13#6 0#18)
    ∧ decodeSlot 0x85122411#32 0#9 = .ok (.rolImm 36#6 18#6 17#18)
    ∧ decodeSlot 0x859A7FFB#32 0#9 = .ok (.movi 52#6 0xFFFFFB#24)
    ∧ decodeSlot 0x859A7FFF#32 0x100#9 = .ok (.movi 52#6 0x7FFFFF#24)
    ∧ decodeSlot 0x85A69234#32 0x1#9 = .ok (.movhi 13#6 0x9234#16)
    ∧ decodeSlot 0x85CE2D68#32 0#9 = .ok (.cmp 3#3 4#3 22#6 45#6)
    ∧ decodeSlot 0x85E90AE0#32 0x1fe#9 = .ok (.cmpImm 2#3 2#3 5#6 0x7F9C#15)
    ∧ decodeSlot 0x86183144#32 0#9 = .ok (.pand 6#3 3#3 5#3 true false)
    ∧ decodeSlot 0x86383142#32 0#9 = .ok (.por 6#3 3#3 5#3 false true)
    ∧ decodeSlot 0x86583146#32 0#9 = .ok (.pxor 6#3 3#3 5#3 true true) :=
  ⟨rfl, rfl, rfl, rfl, rfl, rfl, rfl, rfl, rfl, rfl, rfl, rfl, rfl, rfl, rfl, rfl, rfl, rfl, rfl, rfl, rfl, rfl, rfl, rfl⟩

/-- R69 to R71: words laid out field by field from the formats of the spec. -/
theorem test_decode_scalar_3 :
    decodeSlot 0x86783004#32 0#9 = .ok (.pnot 6#3 3#3 true)
    ∧ decodeSlot 0x86872941#32 0#9 = .ok (.fadd 14#6 20#6 40#6 1#2)
    ∧ decodeSlot 0x86A7A942#32 0#9 = .ok (.fsub 15#6 20#6 40#6 2#2)
    ∧ decodeSlot 0x86C82943#32 0#9 = .ok (.fmul 16#6 20#6 40#6 3#2)
    ∧ decodeSlot 0x86E51662#32 0x28#9 = .ok (.ffma 10#6 11#6 12#6 40#6 2#2)
    ∧ decodeSlot 0x871A0F30#32 0#9 = .ok (.fmin 52#6 7#6 38#6)
    ∧ decodeSlot 0x873A9558#32 0#9 = .ok (.fmax 53#6 10#6 43#6)
    ∧ decodeSlot 0x875B1B80#32 0#9 = .ok (.fminn 54#6 13#6 48#6)
    ∧ decodeSlot 0x877BA1A8#32 0#9 = .ok (.fmaxn 55#6 16#6 53#6)
    ∧ decodeSlot 0x87854270#32 0#9 = .ok (.fcmp 1#3 2#3 33#6 14#6)
    ∧ decodeSlot 0x87A41233#32 0#9 = .ok (.fcvt 8#6 9#6 6#3 3#2)
    ∧ decodeSlot 0x87DC27D0#32 0#9 = .ok (.fsgn 56#6 19#6 58#6)
    ∧ decodeSlot 0x87DCADF9#32 0#9 = .ok (.fsgnN 57#6 22#6 63#6)
    ∧ decodeSlot 0x87DD3222#32 0#9 = .ok (.fsgnX 58#6 25#6 4#6) :=
  ⟨rfl, rfl, rfl, rfl, rfl, rfl, rfl, rfl, rfl, rfl, rfl, rfl, rfl, rfl⟩

/-- R72, R73: words laid out field by field from the formats of the spec. -/
theorem test_decode_address :
    decodeSlot 0x88060005#32 0#9 = .ok (.ldB 3#4 false 5#24)
    ∧ decodeSlot 0x8829FFFE#32 0#9 = .ok (.ldH 4#4 true 0xFFFFFE#24)
    ∧ decodeSlot 0x884A3456#32 0x12#9 = .ok (.ldW 5#4 false 0x123456#24)
    ∧ decodeSlot 0x886D0000#32 0xc0#9 = .ok (.ldV 6#4 true 0xC00000#24)
    ∧ decodeSlot 0x888E0007#32 0#9 = .ok (.stB 7#4 false 7#24)
    ∧ decodeSlot 0x88B18000#32 0#9 = .ok (.stH 8#4 true 0xFF8000#24)
    ∧ decodeSlot 0x88D2FFFF#32 0x80#9 = .ok (.stW 9#4 false 0x7FFFFF#24)
    ∧ decodeSlot 0x88F50100#32 0#9 = .ok (.stV 10#4 true 256#24)
    ∧ decodeSlot 0x89191BFF#32 0x1#9 = .ok (.ldDs 70#7 12#4 true 0x3FFFF#18)
    ∧ decodeSlot 0x8938FFCD#32 0x12a#9 = .ok (.stDs 63#7 12#4 false 0x1ABCD#18)
    ∧ decodeSlot 0x89536002#32 0#9 = .ok (.amoAdd 9#4 44#6 2#14)
    ∧ decodeSlot 0x8973601D#32 0#9 = .ok (.amoMin 9#4 44#6 0x3FFD#14)
    ∧ decodeSlot 0x8993601F#32 0x100#9 = .ok (.amoMax 9#4 44#6 0x1FFF#14)
    ∧ decodeSlot 0x89B36000#32 0x100#9 = .ok (.amoSwap 9#4 44#6 0x2000#14)
    ∧ decodeSlot 0x89D363B8#32 0x1#9 = .ok (.amoCas 9#4 44#6 29#6 0x3FD8#14)
    ∧ decodeSlot 0x8A1CA979#32 0x169#9 = .ok (.aaddImm 14#4 5#4 0x2D2979#22)
    ∧ decodeSlot 0x8A3CB980#32 0#9 = .ok (.aadd 14#4 5#4 51#6)
    ∧ decodeSlot 0x8A5C1980#32 0#9 = .ok (.amovA 14#4 51#6)
    ∧ decodeSlot 0x8A79E800#32 0#9 = .ok (.amovS 51#6 13#4)
    ∧ decodeSlot 0x8A996ABC#32 0x155#9 = .ok (.streamRd 25#5 6#4 0xABC#12 0x155#9)
    ∧ decodeSlot 0x8AB96ABC#32 0xaa#9 = .ok (.streamWr 25#5 6#4 0xABC#12 0xAA#9) :=
  ⟨rfl, rfl, rfl, rfl, rfl, rfl, rfl, rfl, rfl, rfl, rfl, rfl, rfl, rfl, rfl, rfl, rfl, rfl, rfl, rfl, rfl⟩

/-- R74 to R76: words laid out field by field from the formats of the spec. -/
theorem test_decode_vector_1 :
    decodeSlot 0x9003062A#32 0x29#9 = .ok (.vadd 70#7 3#7 5#7 2#3 1#3 1#2)
    ∧ decodeSlot 0x902085FB#32 0x56#9 = .ok (.vsub 1#7 66#7 127#7 3#3 2#3 2#2)
    ∧ decodeSlot 0x90524A14#32 0x1b#9 = .ok (.vmul 100#7 101#7 2#7 4#3 0#3 3#2)
    ∧ decodeSlot 0x9060000D#32 0x25#9 = .ok (.vfma 64#7 0#7 65#7 5#3 1#3 0#2)
    ∧ decodeSlot 0x9082FC4E#32 0x4a#9 = .ok (.vfms 5#7 126#7 9#7 6#3 2#3 1#2)
    ∧ decodeSlot 0x90A001F8#32 0x65#9 = .ok (.vmin 64#7 0#7 127#7 0#3 3#3)
    ∧ decodeSlot 0x90C08FE1#32 0x85#9 = .ok (.vmax 65#7 7#7 124#7 1#3 4#3)
    ∧ decodeSlot 0x90E11DCA#32 0x25#9 = .ok (.vminn 66#7 14#7 121#7 2#3 1#3)
    ∧ decodeSlot 0x9101ABB3#32 0x45#9 = .ok (.vmaxn 67#7 21#7 118#7 3#3 2#3)
    ∧ decodeSlot 0x9162399C#32 0x65#9 = .ok (.vadds 68#7 28#7 115#7 4#3 3#3)
    ∧ decodeSlot 0x9182C785#32 0x85#9 = .ok (.vsubs 69#7 35#7 112#7 5#3 4#3)
    ∧ decodeSlot 0x91A3556E#32 0xa5#9 = .ok (.vand 70#7 42#7 109#7 6#3 5#3)
    ∧ decodeSlot 0x91C3E357#32 0xc5#9 = .ok (.vor 71#7 49#7 106#7 7#3 6#3)
    ∧ decodeSlot 0x91E47138#32 0x65#9 = .ok (.vxor 72#7 56#7 103#7 0#3 3#3)
    ∧ decodeSlot 0x9204FF21#32 0x85#9 = .ok (.vshl 73#7 63#7 100#7 1#3 4#3)
    ∧ decodeSlot 0x92250D0A#32 0xa7#9 = .ok (.vshr 74#7 70#7 97#7 2#3 5#3)
    ∧ decodeSlot 0x92459AF3#32 0xc7#9 = .ok (.vsar 75#7 77#7 94#7 3#3 6#3)
    ∧ decodeSlot 0x92E628DC#32 0x67#9 = .ok (.vsel 76#7 84#7 91#7 4#3 3#3)
    ∧ decodeSlot 0x9386B6C5#32 0x87#9 = .ok (.vperm 77#7 91#7 88#7 5#3 4#3)
    ∧ decodeSlot 0x91283403#32 0x3#9 = .ok (.vabs 80#7 90#7 3#3 0#3)
    ∧ decodeSlot 0x9148B604#32 0x23#9 = .ok (.vneg 81#7 91#7 4#3 1#3)
    ∧ decodeSlot 0x93293805#32 0x43#9 = .ok (.vmov 82#7 92#7 5#3 2#3)
    ∧ decodeSlot 0x9266C2F8#32 0x61#9 = .ok (.vshlImm 77#7 33#7 31#6 0#3 3#3)
    ∧ decodeSlot 0x9286C479#32 0x81#9 = .ok (.vshrImm 77#7 34#7 15#6 1#3 4#3) :=
  ⟨rfl, rfl, rfl, rfl, rfl, rfl, rfl, rfl, rfl, rfl, rfl, rfl, rfl, rfl, rfl, rfl, rfl, rfl, rfl, rfl, rfl, rfl, rfl, rfl⟩

/-- R74 to R76: words laid out field by field from the formats of the spec. -/
theorem test_decode_vector_2 :
    decodeSlot 0x92A6C6F2#32 0xa1#9 = .ok (.vsarImm 77#7 35#7 30#6 2#3 5#3)
    ∧ decodeSlot 0x92DA8C39#32 0x26#9 = .ok (.vcmp 6#3 5#3 70#7 71#7 1#3 1#3)
    ∧ decodeSlot 0x931199BA#32 0xc1#9 = .ok (.vclamp 99#7 12#6 55#6 2#3 6#3)
    ∧ decodeSlot 0x93519802#32 0x41#9 = .ok (.vbcast 99#7 12#6 2#3 2#3)
    ∧ decodeSlot 0x937645F8#32 0x86#9 = .ok (.vext 44#6 98#7 127#7 4#3)
    ∧ decodeSlot 0x93A003FE#32 0x27#9 = .ok (.vrot 64#7 65#7 127#7 6#3 1#3)
    ∧ decodeSlot 0x93C00217#32 0x67#9 = .ok (.vslide 64#7 65#7 66#7 7#3 3#3)
    ∧ decodeSlot 0x93F64402#32 0x3a#9 = .ok (.vredAdd 44#6 98#7 2#3 1#3 3#2)
    ∧ decodeSlot 0x94164402#32 0x62#9 = .ok (.vredMax 44#6 98#7 2#3 3#3)
    ∧ decodeSlot 0x94364402#32 0xc2#9 = .ok (.vredMin 44#6 98#7 2#3 6#3)
    ∧ decodeSlot 0x94439142#32 0x113#9 = .ok (.vcvt 71#7 72#7 5#3 0#3 2#3 2#2 true)
    ∧ decodeSlot 0x94639040#32 0x4b#9 = .ok (.vpackSb 71#7 72#7 8#6 2#3 1#2)
    ∧ decodeSlot 0x94839000#32 0x23#9 = .ok (.vunpackSb 71#7 72#7 1#3 0#2) :=
  ⟨rfl, rfl, rfl, rfl, rfl, rfl, rfl, rfl, rfl, rfl, rfl, rfl, rfl⟩

/-- R77, R78: words laid out field by field from the formats of the spec. -/
theorem test_decode_matrix :
    decodeSlot 0x98030000#32 0#9 = .ok (.lease 3#5)
    ∧ decodeSlot 0x98200000#32 0#9 = .ok (.unlease)
    ∧ decodeSlot 0x98548600#32 0x101#9 = .ok (.lwt 2#2 9#4 6#7 0x101#9)
    ∧ decodeSlot 0x987A6070#32 0x1ff#9 = .ok (.mma true 2#2 9#4 64#7 14#4 0x1FF#9)
    ∧ decodeSlot 0x988690A8#32 0x1#9 = .ok (.mmaz false 1#2 10#4 33#7 5#4 1#9)
    ∧ decodeSlot 0x98BEC080#32 0#9 = .ok (.gmma true 3#2 11#4 1#7 0#4 0#9)
    ∧ decodeSlot 0x98D00000#32 0#9 = .ok (.accz true)
    ∧ decodeSlot 0x98FC4FC0#32 0x80#9 = .ok (.accld true 12#4 4#4 63#6 0x80#9)
    ∧ decodeSlot 0x990D7140#32 0x7f#9 = .ok (.accret false 13#4 7#4 5#6 0x7F#9)
    ∧ decodeSlot 0x99200000#32 0#9 = .ok (.amodeWrap)
    ∧ decodeSlot 0x99300000#32 0#9 = .ok (.amodeSat) :=
  ⟨rfl, rfl, rfl, rfl, rfl, rfl, rfl, rfl, rfl, rfl, rfl⟩

/-- R79, R80: words laid out field by field from the formats of the spec. -/
theorem test_decode_engine :
    decodeSlot 0xA0030BB3#32 0x1#9 = .ok (.tev 70#7 5#7 13#4 2#2 3#3)
    ∧ decodeSlot 0xA004FF28#32 0x2#9 = .ok (.tev 9#7 127#7 9#4 1#2 0#3)
    ∧ decodeSlot 0xA034D400#32 0#9 = .ok (.tld 2#2 9#4 21#5)
    ∧ decodeSlot 0xA05D2000#32 0#9 = .ok (.tcfg 3#2 41#6)
    ∧ decodeSlot 0xA2162C00#32 0#9 = .ok (.skinitQs 5#3 2#2 17#5)
    ∧ decodeSlot 0xA21A5200#32 0#9 = .ok (.skinitHh 6#3 1#2 18#5)
    ∧ decodeSlot 0xA21E7A00#32 0#9 = .ok (.skinitDc 7#3 1#2 19#5)
    ∧ decodeSlot 0xA2217680#32 0#9 = .ok (.skseed 45#6 11#5)
    ∧ decodeSlot 0xA24D918C#32 0x1#9 = .ok (.skfold 3#3 99#7 6#3 12#5)
    ∧ decodeSlot 0xA26D800A#32 0#9 = .ok (.skmerge 3#3 5#3 12#5)
    ∧ decodeSlot 0xA2893766#32 0#9 = .ok (.skq 46#6 2#3 51#6 9#5)
    ∧ decodeSlot 0xA2B157E8#32 0#9 = .ok (.skrank 47#6 4#3 52#6 10#5)
    ∧ decodeSlot 0xA2C51800#32 0#9 = .ok (.skcard 48#6 1#3 8#5)
    ∧ decodeSlot 0xA2F8E680#32 0#9 = .ok (.sktop 6#3 13#4 7#5)
    ∧ decodeSlot 0xA318E680#32 0#9 = .ok (.skld 6#3 13#4 7#5)
    ∧ decodeSlot 0xA338E680#32 0#9 = .ok (.skst 6#3 13#4 7#5)
    ∧ decodeSlot 0xA358E000#32 0#9 = .ok (.skclr 6#3 7#5)
    ∧ decodeSlot 0xA4142794#32 0x111#9 = .ok (.cpyTd 20#5 2#4 7#4 37#6 0x111#9)
    ∧ decodeSlot 0xA4042726#32 0#9 = .ok (.cpyDt 4#5 2#4 7#4 9#6 0#9)
    ∧ decodeSlot 0xA4342796#32 0x3#9 = .ok (.cpyRedF32 20#5 2#4 7#4 37#6 true 3#9)
    ∧ decodeSlot 0xA4542794#32 0x4#9 = .ok (.cpyRedBf16 20#5 2#4 7#4 37#6 false 4#9)
    ∧ decodeSlot 0xA4742796#32 0x5#9 = .ok (.cpyRedI32 20#5 2#4 7#4 37#6 true 5#9) :=
  ⟨rfl, rfl, rfl, rfl, rfl, rfl, rfl, rfl, rfl, rfl, rfl, rfl, rfl, rfl, rfl, rfl, rfl, rfl, rfl, rfl, rfl, rfl⟩

/-- R81: words laid out field by field from the formats of the spec. -/
theorem test_decode_network :
    decodeSlot 0xA81907FF#32 0x123#9 = .ok (.send 200#8 3#4 511#9 0x123#9)
    ∧ decodeSlot 0xA8392801#32 0#9 = .ok (.sendRel 201#8 4#4 1#9 0#9)
    ∧ decodeSlot 0xA847EA40#32 0x7#9 = .ok (.sendM 63#6 5#4 64#9 7#9)
    ∧ decodeSlot 0xA8794D2C#32 0x9#9 = .ok (.sendr 202#8 6#4 300#9 9#9)
    ∧ decodeSlot 0xA8903700#32 0#9 = .ok (.recvArm 129#8 46#6)
    ∧ decodeSlot 0xA8BFC000#32 0#9 = .ok (.qpost 254#8)
    ∧ decodeSlot 0xA8DFB5C8#32 0#9 = .ok (.qarm 253#8 21#5 50#6)
    ∧ decodeSlot 0xA8F2CB40#32 0#9 = .ok (.sideAdd 37#6 9#4 26#6)
    ∧ decodeSlot 0xA9130000#32 0#9 = .ok (.sideRel 38#6)
    ∧ decodeSlot 0xA9360000#32 0#9 = .ok (.decCfg 11#4)
    ∧ decodeSlot 0xA95B8000#32 0#9 = .ok (.barArr 55#6)
    ∧ decodeSlot 0xA96A0000#32 0#9 = .ok (.nxt 20#6)
    ∧ decodeSlot 0xA9944980#32 0#9 = .ok (.route 2#2 34#6 19#6) :=
  ⟨rfl, rfl, rfl, rfl, rfl, rfl, rfl, rfl, rfl, rfl, rfl, rfl, rfl⟩

/-- R82: words laid out field by field from the formats of the spec. -/
theorem test_decode_control :
    decodeSlot 0xB01FFFFD#32 0#9 = .ok (.br 0xFFFFFD#24)
    ∧ decodeSlot 0xB06FFFFF#32 0x3#9 = .ok (.call 0x6FFFFF#24)
    ∧ decodeSlot 0xB034EE90#32 0x7f#9 = .ok (.brC true 2#3 0xFEEE90#24)
    ∧ decodeSlot 0xB05FFFF0#32 0#9 = .ok (.brTree 0x1FFFF0#21)
    ∧ decodeSlot 0xB0800000#32 0#9 = .ok (.ret)
    ∧ decodeSlot 0xB0B4FFFF#32 0x1ff#9 = .ok (.loop 41#6 1023#10 16383#14)
    ∧ decodeSlot 0xB0F4FFFF#32 0x1ff#9 = .ok (.loopP 41#6 1023#10 16383#14)
    ∧ decodeSlot 0xB0DA0064#32 0x3#9 = .ok (.loopW true 5#3 3#10 100#14)
    ∧ decodeSlot 0xB1160000#32 0#9 = .ok (.brk true 3#3)
    ∧ decodeSlot 0xB120BEEF#32 0#9 = .ok (.dly 0xBEEF#16)
    ∧ decodeSlot 0xB1400000#32 0#9 = .ok (.nop)
    ∧ decodeSlot 0xB17D8001#32 0#9 = .ok (.wait 29#5 0x8001#16)
    ∧ decodeSlot 0xB1918000#32 0#9 = .ok (.barWait 35#6)
    ∧ decodeSlot 0xB1A00000#32 0#9 = .ok (.exit)
    ∧ decodeSlot 0xB1C000A5#32 0#9 = .ok (.phase 0xA5#8) :=
  ⟨rfl, rfl, rfl, rfl, rfl, rfl, rfl, rfl, rfl, rfl, rfl, rfl, rfl, rfl, rfl⟩

/-- R83: words laid out field by field from the formats of the spec. -/
theorem test_decode_system :
    decodeSlot 0xB804880E#32 0#9 = .ok (.csrr 9#6 0x80E#12)
    ∧ decodeSlot 0xB8248062#32 0#9 = .ok (.csrw 9#6 0x62#12)
    ∧ decodeSlot 0xB8400097#32 0#9 = .ok (.trap 0x97#8)
    ∧ decodeSlot 0xB9400098#32 0#9 = .ok (.bkpt 0x98#8)
    ∧ decodeSlot 0xB8600000#32 0#9 = .ok (.tret)
    ∧ decodeSlot 0xB895AC00#32 0#9 = .ok (.tks 21#5 43#6)
    ∧ decodeSlot 0xB8B6B000#32 0#9 = .ok (.tkr 22#5 44#6)
    ∧ decodeSlot 0xB8D70000#32 0#9 = .ok (.tkz 23#5)
    ∧ decodeSlot 0xB8F8FEDC#32 0#9 = .ok (.tkp 24#5 0xFEDC#16)
    ∧ decodeSlot 0xB9108000#32 0#9 = .ok (.cycGl 33#6)
    ∧ decodeSlot 0xB9110001#32 0#9 = .ok (.cycGh 34#6)
    ∧ decodeSlot 0xB9118002#32 0#9 = .ok (.cycTl 35#6)
    ∧ decodeSlot 0xB9120003#32 0#9 = .ok (.cycTh 36#6)
    ∧ decodeSlot 0xB9201D0F#32 0#9 = .ok (.sig 0x1D0F#16)
    ∧ decodeSlot 0xB9600009#32 0#9 = .ok (.pwr 9#4)
    ∧ decodeSlot 0xB9860000#32 0#9 = .ok (.ent 12#6) :=
  ⟨rfl, rfl, rfl, rfl, rfl, rfl, rfl, rfl, rfl, rfl, rfl, rfl, rfl, rfl, rfl, rfl⟩

/-- R43, R45, R48: header words laid out field by field. -/
theorem test_decode_headers :
    decodeHeader 0x45DC53F0#32 = some (.hdrLend 0x177#9 0x29#9 0x1F0#9)
    ∧ decodeHeader 0x592B7A5F#32 = some (.hdrTree true 1#3 false 2#3 true 3#3 false 7#3 0xA#4 5#4 0xF#4)
    ∧ decodeHeader 0x6FFA5000#32 = some (.hdrRep 63#6 0xE#4 9#4 4#4) :=
  ⟨rfl, rfl, rfl⟩

/-- R380, R384: submission entries laid out byte by byte; what is out of its range is status 0x01. -/
theorem test_decode_commands_1 :
    decodeCommand false 0x1B0000000000001234501122334400000001#512 = .loadImage false 0x11223344#32 0x123450#64 0x1B00#32
    ∧ decodeCommand true 0x1F1E1D1C1B1A191817161514131211100F0E0D0C0B0A0908070605040302010000000000000400030047005F000000001122334400000002#512 = .launchStart true 0x11223344#32 95#16 71#16 3#16 4#16 0x1F1E1D1C1B1A191817161514131211100F0E0D0C0B0A09080706050403020100#256
    ∧ decodeCommand false 0x838281807F7E7D7C7B7A797877767574737271706F6E6D6C6B6A696867666564000000000047005F00020001000000011122334400000002#512 = .launchPost false 0x11223344#32 1#16 2#16 95#16 71#16 0x838281807F7E7D7C7B7A797877767574737271706F6E6D6C6B6A696867666564#256
    ∧ decodeCommand false 0x1FFFFFFC099AABBCCDDEEFF0111223344556677881122334400000003#512 = .stream false 0x11223344#32 0x1122334455667788#64 0x99AABBCCDDEEFF01#64 0xFFFFFFC0#32 true
    ∧ decodeCommand false 0x10203040506070899AABBCCDDEEF00011223344556670000000003F000000001122334400000004#512 = .mapRangeEntry false 0x11223344#32 63#8 0x1122334455667000#64 0x99AABBCCDDEEF000#64 0x102030405060708#64
    ∧ decodeCommand false 0x12345600000000000000000011122334400000004#512 = .mapTableRoot false 0x11223344#32 0x123456000#64
    ∧ decodeCommand true 0x99AABBCCDDEEFF01112233445566778800000000000000021122334400000004#512 = .mapInvalidate true 0x11223344#32 0x1122334455667788#64 0x99AABBCCDDEEFF01#64
    ∧ decodeCommand false 0x4D112233445566778800000000000000001122334400000005#512 = .queryModuleState false 0x11223344#32 0x1122334455667788#64 77#32
    ∧ decodeCommand false 0x4E112233445566778900000000000000011122334400000005#512 = .queryMirage false 0x11223344#32 0x1122334455667789#64 78#32
    ∧ decodeCommand false 0x50112233445566778B00000000000000031122334400000005#512 = .queryEnergy false 0x11223344#32 0x112233445566778B#64 80#32
    ∧ decodeCommand false 0x51112233445566778C00000000000000041122334400000005#512 = .queryDebugChallenge false 0x11223344#32 0x112233445566778C#64 81#32
    ∧ decodeCommand false 0x53112233445566778E00000000000000061122334400000005#512 = .queryOpticalPorts false 0x11223344#32 0x112233445566778E#64 83#32
    ∧ decodeCommand false 0x4F112233445566778A00004014000000021122334400000005#512 = .queryTileReport false 0x11223344#32 0x4014#32 0x112233445566778A#64 79#32
    ∧ decodeCommand false 0x52112233445566778D00004014000000051122334400000005#512 = .queryRouterCounters false 0x11223344#32 0x4014#32 0x112233445566778D#64 82#32
    ∧ decodeCommand false 0x400102030405060708000000000000500099AABBCCDDEEFF0111223344556677881122334400000006#512 = .checkpoint false 0x11223344#32 0x1122334455667788#64 0x99AABBCCDDEEFF01#64 0x5000#64 0x102030405060708#64 64#16
    ∧ decodeCommand false 0x99AABBCCDDEEFF0100000000000000001122334400000007#512 = .restore false 0x11223344#32 0x99AABBCCDDEEFF01#64
    ∧ decodeCommand false 0xC8000040141122334400000008#512 = .preempt false 0x11223344#32 0x4014#32 200#8
    ∧ decodeCommand false 0x40140000000111223344556677881122334400000009#512 = .resume false 0x11223344#32 0x1122334455667788#64 1#8 0x4014#32 :=
  by decide +kernel

/-- R380, R384: submission entries laid out byte by byte; what is out of its range is status 0x01. -/
theorem test_decode_commands_2 :
    decodeCommand false 0x1122334455667788112233440000000A#512 = .haltAt false 0x11223344#32 0x1122334455667788#64
    ∧ decodeCommand false 0x40140000FFFF00000000112233440000000B#512 = .stepTile false 0x11223344#32 65535#32 0x4014#32
    ∧ decodeCommand false 0x100000001112233440000000B#512 = .stepWafer false 0x11223344#32 1#32
    ∧ decodeCommand false 0x112233445566778800100000000012340000030700004014112233440000000C#512 = .readState false 0x11223344#32 0x4014#32 7#8 3#8 0x1234#32 0x100000#32 0x1122334455667788#64
    ∧ decodeCommand false 0x1F1E1D1C1B1A191817161514131211100F0E0D0C0B0A0908070605040302010000046D6000000000112233440000000D#512 = .powerCap false 0x11223344#32 28000#16 4#8 0x1F1E1D1C1B1A191817161514131211100F0E0D0C0B0A09080706050403020100#256
    ∧ decodeCommand false 0x3E711223344556677880000000000000001112233440000000D#512 = .powerDebugOpen false 0x11223344#32 0x1122334455667788#64 999#32
    ∧ decodeCommand false 0x2112233440000000D#512 = .powerDebugClose false 0x11223344#32
    ∧ decodeCommand false 0x401400000003112233440000000D#512 = .powerRetentionEnter false 0x11223344#32 0x4014#32
    ∧ decodeCommand false 0x401400000004112233440000000D#512 = .powerRetentionExit false 0x11223344#32 0x4014#32
    ∧ decodeCommand false 0x99AABBCCDDEEFF011122334455667788112233440000000E#512 = .attest false 0x11223344#32 0x1122334455667788#64 0x99AABBCCDDEEFF01#64
    ∧ decodeCommand false 0x112233440000000F#512 = .scrub false 0x11223344#32
    ∧ decodeCommand true 0xE100000BEEF000000001122334400000010#512 = .semaphoreAcquire true 0x11223344#32 0#8 0xBEEF#16 3600#32
    ∧ decodeCommand false 0xBEEF00000F011122334400000010#512 = .semaphoreRelease false 0x11223344#32 15#8 0xBEEF#16
    ∧ decodeCommand false 0xBEEF000007021122334400000010#512 = .semaphoreRead false 0x11223344#32 7#8 0xBEEF#16
    ∧ decodeCommand false 0x1122334400000011#512 = .badOpcode false 0x11223344#32
    ∧ decodeCommand false 0x112233440000010F#512 = .badOpcode false 0x11223344#32
    ∧ decodeCommand false 0x100000000000000000000000000000000000000000000000000000000000000000000000000000000000000000000000000000000000000112233440000000F#512 = .badOpcode false 0x11223344#32
    ∧ decodeCommand false 0x100000001000003001122334400000010#512 = .badOpcode false 0x11223344#32 :=
  by decide +kernel

/-- R380, R384: submission entries laid out byte by byte; what is out of its range is status 0x01. -/
theorem test_decode_commands_3 :
    decodeCommand false 0x21122334400000002#512 = .badOpcode false 0x11223344#32 :=
  by decide +kernel

/-! ### One step, against results worked by hand or in the spec -/

/-- What an instruction leaves in flight: landing cycle, effects, flags. -/
def inFlight (o : Host.Outcome State Fault Refusal) : List (Nat × List Eff × BitVec 11) := match o with
  | .next t => t.core.pend.map fun p => (p.at', p.effs, p.flags)
  | _ => []
/-- A core with the scalars of a worked case. -/
def scal (l : List (Nat × Word)) : State := at0 { core0 with task := { bank with s := l.map fun e => (e.1, ⟨e.2, false⟩) } }
/-- The scalar d with value v lands lat cycles after cycle 100. -/
def lands (lat d : Nat) (v : Word) (f : BitVec 11) : List (Nat × List Eff × BitVec 11) := [(100 + lat, [.sreg d ⟨v, false⟩], f)]

/-- The integer worked cases of 05_scalar_and_vector.md, and the worked constant there. -/
theorem test_div_by_zero : inFlight (exec (.div 3#6 1#6 2#6) (scal [(1, 7#32)])) = lands 18 3 0xFFFFFFFF#32 fIDZ
    ∧ inFlight (exec (.rem 3#6 1#6 2#6) (scal [(1, 7#32)])) = lands 18 3 7#32 fIDZ := by decide +kernel
theorem test_div_truncates : inFlight (exec (.div 3#6 1#6 2#6) (scal [(1, 0xFFFFFFF9#32), (2, 2#32)])) = lands 18 3 0xFFFFFFFD#32 0#11
    ∧ inFlight (exec (.rem 3#6 1#6 2#6) (scal [(1, 0xFFFFFFF9#32), (2, 2#32)])) = lands 18 3 0xFFFFFFFF#32 0#11
    ∧ inFlight (exec (.div 3#6 1#6 2#6) (scal [(1, 0x80000000#32), (2, 0xFFFFFFFF#32)])) = lands 18 3 0x80000000#32 0#11 := by decide +kernel
theorem test_adds_saturates : inFlight (exec (.adds 9#6 3#6 4#6) (scal [(3, 0x7FFFFFF0#32), (4, 0x20#32)])) = lands 1 9 0x7FFFFFFF#32 fSAT := by decide +kernel
theorem test_mul : inFlight (exec (.mul 3#6 1#6 2#6) (scal [(1, 0x80000000#32), (2, 2#32)])) = lands 3 3 0#32 0#11
    ∧ inFlight (exec (.mulh 3#6 1#6 2#6) (scal [(1, 0x80000000#32), (2, 2#32)])) = lands 3 3 0xFFFFFFFF#32 0#11
    ∧ inFlight (exec (.mulhu 3#6 1#6 2#6) (scal [(1, 0x80000000#32), (2, 2#32)])) = lands 3 3 1#32 0#11 := by decide +kernel
theorem test_shift_counts : inFlight (exec (.shl 3#6 1#6 2#6) (scal [(1, 1#32), (2, 35#32)])) = lands 1 3 8#32 0#11
    ∧ inFlight (exec (.rolImm 3#6 1#6 4#18) (scal [(1, 0x80000001#32)])) = lands 1 3 0x18#32 0#11
    ∧ inFlight (exec (.sar 3#6 1#6 2#6) (scal [(1, 0x80000000#32), (2, 31#32)])) = lands 1 3 0xFFFFFFFF#32 0#11 := by decide +kernel
theorem test_clz_zero : inFlight (exec (.clz 3#6 1#6) (scal [])) = lands 1 3 32#32 0#11 := by decide +kernel
theorem test_movhi : inFlight (exec (.movhi 1#6 0x1234#16) (scal [(1, 0x5678#32)])) = lands 1 1 0x12345678#32 0#11 := by decide +kernel
theorem test_add_wraps : inFlight (exec (.add 3#6 1#6 1#6) (scal [(1, 0x80000000#32)])) = lands 1 3 0#32 0#11 := by decide +kernel
theorem test_add_poison : inFlight (exec (.adds 7#6 6#6 3#6) s0) = [(101, [.sreg 7 ⟨0x80000005#32, true⟩], 0#11)] := by decide +kernel
theorem test_abs_min : inFlight (exec (.abs 3#6 1#6) (scal [(1, 0x80000000#32)])) = lands 1 3 0x80000000#32 0#11 := by decide +kernel
theorem test_cmp_signed : inFlight (exec (.cmp 3#3 2#3 1#6 2#6) (scal [(1, 0xFFFFFFFF#32)])) = [(101, [.preg 3 ⟨true, false⟩], 0#11)]
    ∧ inFlight (exec (.cmp 3#3 4#3 1#6 2#6) (scal [(1, 0xFFFFFFFF#32)])) = [(101, [.preg 3 ⟨false, false⟩], 0#11)] := by decide +kernel

/-- Worked by hand: 1.0 + 2^-24 is a tie that goes to 1.0; 2^127 + 2^127 overflows; (2^12 + 1)^2 - 2^24 = 2^13 + 1 in one rounding. -/
theorem test_fadd : inFlight (exec (.fadd 3#6 1#6 2#6 0#2) (scal [(1, 0x3F800000#32), (2, 0x33800000#32)])) = lands 4 3 0x3F800000#32 fNX
    ∧ inFlight (exec (.fadd 3#6 1#6 1#6 0#2) (scal [(1, 0x7F000000#32)])) = lands 4 3 0x7F800000#32 (fOF ||| fNX) := by decide +kernel
theorem test_ffma : inFlight (exec (.ffma 3#6 1#6 1#6 2#6 0#2) (scal [(1, 0x45800800#32), (2, 0xCB800000#32)])) = lands 4 3 0x46000400#32 0#11 := by
  decide +kernel

/-- The worked conversions of 04_number_formats.md. -/
theorem test_conversions : convert (.fl fp32) (.fl fpBf16) 0#2 false 0x3F808000 = (0x3F80, fNX) ∧ convert (.fl fp32) (.fl fpBf16) rmRup false 0x3F808000 = (0x3F81, fNX)
    ∧ convert (.fl fp32) (.fl fpE4m3) 0#2 false 0x43960000 = (0x79, fNX) ∧ convert (.fl fp32) (.fl fpE4m3) 0#2 false 0x43FA0000 = (0x7F, fOF ||| fNX)
    ∧ convert (.fl fp32) (.fl fpE4m3) 0#2 true 0x43FA0000 = (0x7E, fOF ||| fNX) ∧ convert (.fl fpF16) (.fl fp32) 0#2 false 1 = (0x33800000, 0#11)
    ∧ convert (.fl fp32) (.int 16 true) 1#2 false 0xC71C40B3 = (0x8000, fNV) ∧ convert (.int 32 true) (.fl fp32) 0#2 false 0x01000001 = (0x4B800000, fNX) := by
  decide +kernel

/-- The worked SB8 block of 04_number_formats.md, packed and read back. -/
theorem test_sb8_block :
    sbPack 8 0#2 ([0x40400000, 0xBF000000, 0x3DD00000].map fp32.unpack ++ (List.range 45).map fun _ => fp32.unpack 0) = (0x06B80D8081B8, 0#11)
    ∧ (List.range 4).map (fun i => (sbElem 0x06B80D8081B8 i).map fun x => fp32.roundDy 0#2 false x false)
        = [some (0x40400000, 0#11), some (0xBF000000, 0#11), some (0x3DD00000, 0#11), some (0, 0#11)] := by decide +kernel

/-- Worked in 06_the_array.md: elements (0, 0) and (1, 3) of the FP multiply, and the two i8 cases of R149 with their sums written out:
0x7FFFFF00 + 96 * 127 * 127 = 2149031776, which is -2145935520 modulo 2^32 (log 27). -/
theorem test_beats :
    beatFp ([0x7180, 0xF180, 0x4040].map fpBf16.unpack) ([0x3F80, 0x3F80, 0x3F80].map fpBf16.unpack) (some 0x3F000000) = (0x40600000, 0#11)
    ∧ beatFp ([0x3F80, 0x3F80].map fpBf16.unpack) ([0x3380, 0x3380].map fpBf16.unpack) (some 0x3F800000) = (0x3F800001, 0#11)
    ∧ beatInt true (List.replicate 96 (flInt 127)) (List.replicate 96 (flInt 127)) (some 0x7FFFFF00) = (0x7FFFFFFF, fAOV)
    ∧ beatInt false (List.replicate 96 (flInt 127)) (List.replicate 96 (flInt 127)) (some 0x7FFFFF00) = (2149031776, fAOV) := by decide +kernel

/-- The worked exp2 of 07_table_engine.md. -/
theorem test_exp2 : [0x40400000, 0x3F000000, 0x43000000, 0xC3160000, 0xFF800000, 0].map (romFn fp32 0 0#2)
    = [(0x41000000, 0#11), (0x3FB504F3, fNX), (0x7F800000, fOF ||| fNX), (0, fUF ||| fNX), (0, 0#11), (0x3F800000, 0#11)] := by decide +kernel

/-- R228, R345: a word at an address that is not a multiple of 4 is an address fault, before anything else. -/
theorem test_misaligned : (match exec (.ldW 3#4 true 2#24) (at0 { core0 with task := { bank with a := [(3, ⟨0x1002#32, false⟩)] } }) with
    | .next t => t.raised.map fun f => (f.cause, f.i0, f.i1)
    | _ => none) = some (0x08, 0x1002#32, 4#32) := by decide +kernel

/-- R10, R386: the first step is boot; a nop placed where the machine fetches next goes on to the bundle behind it. -/
theorem test_first_step : (match step State.reset with | .next t => t.boot | _ => .pending) = .normal := by decide +kernel
theorem test_fetch_word : (match step (State.reset.withFetchWord 32 0xB1400000) with
    | .next t => t.core.pc - (State.reset.withFetchWord 32 0xB1400000).core.pc
    | _ => 0) = 4 := by decide +kernel

namespace Scalar

/-! States of the witnesses of the scalar unit. -/
def sq : State := at0 { core0 with qs := true, qv := true, task := { bank with ldq := [{ seq := 0, landed := true, val := 9#2048, poi := 1#64 }, { seq := 1 , vec := true}] , ldqSeq := 2, sdq := [{seq := 4}], sdqSeq := 5 } }
def sqv : State := at0 { core0 with qs := true, qv := true, task := { bank with ldq := [{ seq := 0, landed := true, val := 9#2048, vec := true }] } }
def sstrict : State := at0 { core0 with strict := true, ranges := [⟨2, 7, 1, 3, 1, 0⟩] }
def smon : State := at0 { core0 with mode := .monitor, mon := bank }
def sstrict2 : State := at0 { core0 with strict := true, qs := true, ranges := [⟨2, 7, 1, 3, 1, 0⟩, ⟨3, 8, 1, 3, 1, 0⟩] }
def smonst : State := at0 { core0 with mode := .monitor, mon := bank, strict := true, ranges := [⟨2, 7, 1, 3, 1, 0⟩, ⟨3, 8, 1, 3, 1, 0⟩] }
def w1 : State := (at0 { core0 with mode := .monitor, qs := true, mon := bank })

theorem witness_SourceOperands :
    (s0.core.sAlias 1#6 = false ∧ s0.core.strict = false ∧ readS (1#6) s0 = Except.ok (s0.core.bank.sreg (1#6).toNat, s0))
    ∧ (sq.core.sAlias 63#6 = true ∧ sq.core.bank.ldq = [{ seq := 0, landed := true, val := 9#2048, poi := 1#64 : QEntry }, { seq := 1, vec := true : QEntry }] ∧ { seq := 0, landed := true, val := 9#2048, poi := 1#64 : QEntry }.landed = true ∧ { seq := 0, landed := true, val := 9#2048, poi := 1#64 : QEntry }.vec = false)
    ∧ (sqv.core.sAlias 63#6 = true ∧ (∀ (e : QEntry) (r : List QEntry), sqv.core.bank.ldq = e :: r → e.landed = false ∨ e.vec = true))
    ∧ (sstrict.core.sAlias 7#6 = false ∧ sstrict.core.strict = true)
    ∧ (sstrict.core.sAlias 8#6 = false ∧ sstrict.core.strict = true)
    ∧ (smon.core.sAlias 8#6 = false ∧ smon.core.strict = false ∧ readS (8#6) smon = Except.ok (smon.core.bank.sreg (8#6).toNat, smon))
    ∧ (s0.core.vAlias 8#7 = false)
    ∧ (sq.core.vAlias 127#7 = true ∧ (∀ (e : QEntry) (r : List QEntry), sq.core.bank.ldq = e :: r → e.landed = false ∨ e.vec = false))
    ∧ (sqv.core.vAlias 127#7 = true ∧ Ready sqv.core.bank.ldq true { seq := 0, vec := true, landed := true, val := 9#2048 : QEntry } [])
    ∧ (smonst.core.sAlias 7#6 = false ∧ smonst.core.strict = true)
    ∧ (smonst.core.sAlias 8#6 = false ∧ smonst.core.strict = true)
    ∧ (sstrict2.core.sAlias 63#6 = true ∧ (∀ (e : QEntry) (r : List QEntry), sstrict2.core.bank.ldq = e :: r → e.landed = false ∨ e.vec = true))
    ∧ (sstrict2.core.sAlias 8#6 = false ∧ sstrict2.core.strict = true) := by
  and_intros <;> first | exact name_none | decide +kernel | exact rfl | (intro _ r h; cases h; done) | (intro e r h; cases h; exact .inr rfl)
theorem witness_ResultPlacement :
    (let c : Core := s0.core; c.sAlias 7#6 = false)
    ∧ (let c : Core := sq.core; c.sAlias 63#6 = true ∧ c.inMon = false)
    ∧ (let c : Core := sq.core; c.sAlias 62#6 = false)
    ∧ (s0.core.vAlias 7#7 = false)
    ∧ (sq.core.vAlias 127#7 = true)
    ∧ (let c : Core := w1.core; c.sAlias 63#6 = true ∧ c.inMon = true) := by
  and_intros <;> first | exact name_none | decide +kernel
theorem witness_IntegerTwoSourceForms :
    (readS (1#6) s0 = Except.ok ({ val := 7#32 : PWord }, s0) ∧ readS (2#6) s0 = Except.ok ({ val := 4294967280#32 : PWord }, s0))
    ∧ (readS (6#6) s0 = Except.ok ({ val := 2147483648#32 : PWord }, s0) ∧ readS (2#6) s0 = Except.ok ({ val := 4294967280#32 : PWord }, s0))
    ∧ (readS (6#6) s0 = Except.ok ({ val := 2147483648#32 : PWord }, s0) ∧ readS (3#6) s0 = Except.ok ({ val := 5#32, poi := true : PWord }, s0))
    ∧ (readS (6#6) s0 = Except.ok ({ val := 2147483648#32 : PWord }, s0) ∧ readS (4#6) s0 = Except.ok ({ : PWord }, s0))
    ∧ (readS (2#6) s0 = Except.ok ({ val := 4294967280#32 : PWord }, s0) ∧ readS (1#6) s0 = Except.ok ({ val := 7#32 : PWord }, s0)) := by
  and_intros <;> first | exact name_none | decide +kernel | exact rfl
theorem witness_IntegerOneSourceForms :
    (readS (2#6) s0 = Except.ok ({ val := 4294967280#32 : PWord }, s0))
    ∧ (let p : PBit := s0.core.bank.preg (1#3).toNat; readS (2#6) s0 = Except.ok ({ val := 4294967280#32 : PWord }, s0) ∧ readS (if p.val = true then 2#6 else 1#6) s0 = Except.ok ({ val := 4294967280#32 : PWord }, s0))
    ∧ (let p : PBit := s0.core.bank.preg (3#3).toNat; readS (if p.val = true then 2#6 else 1#6) s0 = Except.ok ({ val := 7#32 : PWord }, s0))
    ∧ (readS (2#6) sq = Except.ok ({ val := 4294967280#32 : PWord }, sq) ∧ sq.core.sAlias 63#6 = true)
    ∧ (readS (2#6) sstrict = Except.ok ({ val := 4294967280#32 : PWord }, sstrict))
    ∧ (readS (2#6) s0 = Except.ok ({ val := 4294967280#32 : PWord }, s0) ∧ s0.core.sAlias 2#6 = false) := by
  and_intros <;> first | exact name_none | decide +kernel | exact rfl
theorem witness_PredicateForms :
    (readS (2#6) s0 = Except.ok ({ val := 4294967280#32 : PWord }, s0) ∧ readS (1#6) s0 = Except.ok ({ val := 7#32 : PWord }, s0)) := by
  and_intros <;> first | exact name_none | decide +kernel | exact rfl
theorem witness_ScalarFloatForms :
    (readS (2#6) s0 = Except.ok ({ val := 4294967280#32 : PWord }, s0) ∧ readS (1#6) s0 = Except.ok ({ val := 7#32 : PWord }, s0) ∧ readS (6#6) s0 = Except.ok ({ val := 2147483648#32 : PWord }, s0)) := by
  and_intros <;> first | exact name_none | decide +kernel | exact rfl
theorem witness_RegisterLanding :
    ((¬{ at' := 0 : Pend }.mon = true))
    ∧ (3 < 128) := by
  and_intros <;> first | exact name_none | decide +kernel

end Scalar

namespace Memory

/-! States of the witnesses of loads, stores and streams. -/
def r1 : VRow := ⟨0x0123456789ABCDEF00112233445566778899AABBCCDDEEFF#2048 , 0x5#64⟩
def r2 : VRow := ⟨(0xFFFF00003F80000040000000BF800000#2048 <<< 1000) ||| 0x7FC000003F8000007F800000#2048, 0x10#64⟩
def x0 : Tile := { tm := [(0x1000, 0x11#8), (0x1001, 0x22#8), (0x1007, 0x33#8)], ds := [(5, 1#8)], tmPoi := [(0x400, true)] }
def sst (vec : Bool) : State := at0 { core0 with task := { bank with sdq := [{ seq := 4, landed := true, vec := vec, val := 0xABCDEF#2048, poi := 1#64 }, { seq := 5 }], sdqSeq := 6 } }
def sdv : State := at0 core0 { paths := [] }
def sqv2 : State := at0 { core0 with qv := true, task := { bank with ldq := [{ seq := 0, landed := true, val := 9#2048, vec := true }] } }
def w1 : Bits256 := 0xFFEEDDCCBBAA9988776655443322110099#2048
def w2 : Nat → LRes := fun i => ⟨i * 77777777, decide (i % 3 = 0), BitVec.ofNat 11 i⟩
def w3 : Nat → LRes := fun i => ⟨i * 77777, decide (i % 3 = 0), BitVec.ofNat 11 i⟩
def w4 : Nat → LRes := fun i => ⟨i * 77, decide (i % 3 = 0), BitVec.ofNat 11 i⟩
def w5 : State := (at0 { core0 with tok := [(5, ⟨0xFFFD, 2, 3, 2⟩)] })
def w6 : State := (at0 { core0 with tok := [(5, ⟨0, 0xFFFF, 3, 2⟩)] })
def w7 : QEntry := { seq := 4, landed := true, val := 0xABCDEF#2048, poi := 1#64 }
def w8 : QEntry := { seq := 4, landed := true, vec := true, val := 0xABCDEF#2048, poi := 1#64 }
def w9 : State := (sqv2.upCore fun c => c.setBank { c.bank with ldq := [] })
def w10 : State := (at0 { core0 with mode := .monitor, strict := true, mon := bank })

theorem witness_RowWrites :
    ((32 = 8 ∨ 32 = 16 ∨ 32 = 32) ∧ 32 * 64 ≤ 2048 ∧ 64 ≤ 128)
    ∧ ((16 = 8 ∨ 16 = 16 ∨ 16 = 32) ∧ 16 * 128 ≤ 2048 ∧ 128 ≤ 128)
    ∧ ((8 = 8 ∨ 8 = 16 ∨ 8 = 32) ∧ 8 * 128 ≤ 2048 ∧ 128 ≤ 128) := by
  and_intros <;> first | exact name_none | decide +kernel
theorem witness_TokenCounts :
    ({ infl := 1 : Token }.arr ≤ 65535 ∧ { infl := 1 : Token }.errn ≤ 15 ∧ 0 = 0 ∧ { infl := 1 : Token }.arr < 65535 ∧ { infl := 1 : Token }.arr + 1 ≤ 65535)
    ∧ ({ arr := 65534, infl := 1, errn := 14 : Token }.arr ≤ 65535 ∧ { arr := 65534, infl := 1, errn := 14 : Token }.errn ≤ 15 ∧ 3 ≠ 0 ∧ { arr := 65534, infl := 1, errn := 14 : Token }.arr < 65535 ∧ { arr := 65534, infl := 1, errn := 14 : Token }.arr + 1 ≤ 65535)
    ∧ ({ arr := 65535, infl := 1, errn := 15, errc := 2 : Token }.arr ≤ 65535 ∧ { arr := 65535, infl := 1, errn := 15, errc := 2 : Token }.errn ≤ 15 ∧ 65535 < { arr := 65535, infl := 1, errn := 15, errc := 2 : Token }.arr + 1)
    ∧ ({ arr := 65535, errn := 3, errc := 2 : Token }.arr ≤ 65535 ∧ { arr := 65535, errn := 3, errc := 2 : Token }.errn ≤ 15 ∧ { arr := 65535, errn := 3, errc := 2 : Token }.arr + 0 ≤ 65535)
    ∧ (let t : Token := s0.core.token (5#5).toNat; (¬(s0.here.leaseCore = some s0.curC ∨ ∃ j, (s0.curC, j) ∈ s0.here.leaseReq)) ∧ t.infl < 65535)
    ∧ (7#16 ≠ 0#16)
    ∧ (9#16 ≠ 0#16)
    ∧ (let t : Token := w6.core.token (5#5).toNat; (¬(w6.here.leaseCore = some w6.curC ∨ ∃ j, (w6.curC, j) ∈ w6.here.leaseReq)) ∧ 65535 ≤ t.infl) := by
  and_intros <;> first | exact name_none | decide +kernel | (rintro (h | ⟨j, h⟩) <;> cases h; done)
theorem witness_StorePerforms :
    ((1 = 1 ∨ 1 = 2 ∨ 1 = 4 ∨ 1 = 256) ∧ 4097 % min 1 4 = 0 ∧ 1 < 4)
    ∧ ((2 = 1 ∨ 2 = 2 ∨ 2 = 4 ∨ 2 = 256) ∧ 4098 % min 2 4 = 0 ∧ 2 < 4)
    ∧ ((4 = 1 ∨ 4 = 2 ∨ 4 = 4 ∨ 4 = 256) ∧ 4100 % min 4 4 = 0)
    ∧ ((4 = 1 ∨ 4 = 2 ∨ 4 = 4 ∨ 4 = 256) ∧ 4096 % min 4 4 = 0)
    ∧ ((256 = 1 ∨ 256 = 2 ∨ 256 = 4 ∨ 256 = 256) ∧ 4096 % min 256 4 = 0) := by
  and_intros <;> first | exact name_none | decide +kernel
theorem witness_LoadsAndStores :
    (let a : PWord := s0.core.bank.areg (3#4).toNat; let sum : Word := a.val + BitVec.signExtend 32 4#24; let ea : Nat := BitVec.toNat (if false = true then a.val else sum); (Access a ea 1 1 6291456 ∧ s0.ClearOf 0 ea 1) ∧ (Access a ea 2 2 6291456 ∧ s0.ClearOf 0 ea 2) ∧ (Access a ea 4 4 6291456 ∧ s0.ClearOf 0 ea 4))
    ∧ (let a : PWord := s0.core.bank.areg (3#4).toNat; let sum : Word := a.val + BitVec.signExtend 32 16776960#24; let ea : Nat := BitVec.toNat (if true = true then a.val else sum); (Access a ea 1 1 6291456 ∧ s0.ClearOf 0 ea 1) ∧ (Access a ea 2 2 6291456 ∧ s0.ClearOf 0 ea 2) ∧ (Access a ea 4 4 6291456 ∧ s0.ClearOf 0 ea 4) ∧ (Access a ea 256 64 6291456 ∧ s0.ClearOf 0 ea 256))
    ∧ (let a : PWord := s0.core.bank.areg (6#4).toNat; let sum : Word := a.val + BitVec.signExtend 32 16776960#24; let ea : Nat := BitVec.toNat (if true = true then a.val else sum); (Access a ea 1 1 6291456 ∧ s0.ClearOf 0 ea 1) ∧ (Access a ea 2 2 6291456 ∧ s0.ClearOf 0 ea 2) ∧ (Access a ea 4 4 6291456 ∧ s0.ClearOf 0 ea 4) ∧ (Access a ea 256 64 6291456 ∧ s0.ClearOf 0 ea 256))
    ∧ (let a : PWord := (sst false).core.bank.areg (3#4).toNat; let sum : Word := a.val + BitVec.signExtend 32 4#24; let ea : Nat := BitVec.toNat (if true = true then a.val else sum); (Access a ea 1 1 6291456 ∧ (sst false).ClearOf 0 ea 1 ∧ Ready (sst false).core.bank.sdq false w7 [{ seq := 5 : QEntry }]) ∧ (Access a ea 2 2 6291456 ∧ (sst false).ClearOf 0 ea 2 ∧ Ready (sst false).core.bank.sdq false w7 [{ seq := 5 : QEntry }]) ∧ (Access a ea 4 4 6291456 ∧ (sst false).ClearOf 0 ea 4 ∧ Ready (sst false).core.bank.sdq false w7 [{ seq := 5 : QEntry }]))
    ∧ (let a : PWord := (sst true).core.bank.areg (6#4).toNat; let sum : Word := a.val + BitVec.signExtend 32 64#24; let ea : Nat := BitVec.toNat (if false = true then a.val else sum); (Access a ea 256 64 6291456 ∧ (sst true).ClearOf 0 ea 256 ∧ Ready (sst true).core.bank.sdq true w8 [{ seq := 5 : QEntry }]))
    ∧ (let a : PWord := s0.core.bank.areg (3#4).toNat; let ea : Nat := BitVec.toNat (if false = true then a.val else a.val + BitVec.signExtend 32 1#24); let forms : List (Instr × Nat × Nat) := [(Instr.ldB (3#4) false 1#24, 1, 1), (Instr.ldH (3#4) false 1#24, 2, 2), (Instr.ldW (3#4) false 1#24, 4, 4), (Instr.ldV (3#4) false 1#24, 256, 64), (Instr.stB (3#4) false 1#24, 1, 1), (Instr.stH (3#4) false 1#24, 2, 2), (Instr.stW (3#4) false 1#24, 4, 4), (Instr.stV (3#4) false 1#24, 256, 64)]; (Instr.ldH (3#4) false 1#24, 2, 2) ∈ forms ∧ (ea % 2 ≠ 0 ∨ 6291456 < ea + 2) ∧ (Instr.ldW (3#4) false 1#24, 4, 4) ∈ forms ∧ (ea % 4 ≠ 0 ∨ 6291456 < ea + 4) ∧ (Instr.ldV (3#4) false 1#24, 256, 64) ∈ forms ∧ (ea % 64 ≠ 0 ∨ 6291456 < ea + 256) ∧ (Instr.stH (3#4) false 1#24, 2, 2) ∈ forms ∧ (Instr.stW (3#4) false 1#24, 4, 4) ∈ forms ∧ (Instr.stV (3#4) false 1#24, 256, 64) ∈ forms)
    ∧ (let a : PWord := s0.core.bank.areg (4#4).toNat; let ea : Nat := BitVec.toNat (if false = true then a.val else a.val + BitVec.signExtend 32 0#24); let forms : List (Instr × Nat × Nat) := [(Instr.ldB (4#4) false 0#24, 1, 1), (Instr.ldH (4#4) false 0#24, 2, 2), (Instr.ldW (4#4) false 0#24, 4, 4), (Instr.ldV (4#4) false 0#24, 256, 64), (Instr.stB (4#4) false 0#24, 1, 1), (Instr.stH (4#4) false 0#24, 2, 2), (Instr.stW (4#4) false 0#24, 4, 4), (Instr.stV (4#4) false 0#24, 256, 64)]; (Instr.ldB (4#4) false 0#24, 1, 1) ∈ forms ∧ ea % 1 = 0 ∧ ea + 1 ≤ 6291456 ∧ a.poi = true ∧ (Instr.ldH (4#4) false 0#24, 2, 2) ∈ forms ∧ ea % 2 = 0 ∧ ea + 2 ≤ 6291456 ∧ (Instr.ldW (4#4) false 0#24, 4, 4) ∈ forms ∧ ea % 4 = 0 ∧ ea + 4 ≤ 6291456 ∧ (Instr.ldV (4#4) false 0#24, 256, 64) ∈ forms ∧ ea % 64 = 0 ∧ ea + 256 ≤ 6291456 ∧ (Instr.stB (4#4) false 0#24, 1, 1) ∈ forms ∧ (Instr.stH (4#4) false 0#24, 2, 2) ∈ forms ∧ (Instr.stW (4#4) false 0#24, 4, 4) ∈ forms ∧ (Instr.stV (4#4) false 0#24, 256, 64) ∈ forms)
    ∧ (let a : PWord := s0.core.bank.areg (3#4).toNat; let ea : Nat := BitVec.toNat (if false = true then a.val else a.val + BitVec.signExtend 32 6287360#24); let forms : List (Instr × Nat × Nat) := [(Instr.ldB (3#4) false 6287360#24, 1, 1), (Instr.ldH (3#4) false 6287360#24, 2, 2), (Instr.ldW (3#4) false 6287360#24, 4, 4), (Instr.ldV (3#4) false 6287360#24, 256, 64), (Instr.stB (3#4) false 6287360#24, 1, 1), (Instr.stH (3#4) false 6287360#24, 2, 2), (Instr.stW (3#4) false 6287360#24, 4, 4), (Instr.stV (3#4) false 6287360#24, 256, 64)]; (Instr.ldB (3#4) false 6287360#24, 1, 1) ∈ forms ∧ (ea % 1 ≠ 0 ∨ 6291456 < ea + 1) ∧ (Instr.ldH (3#4) false 6287360#24, 2, 2) ∈ forms ∧ (ea % 2 ≠ 0 ∨ 6291456 < ea + 2) ∧ (Instr.ldW (3#4) false 6287360#24, 4, 4) ∈ forms ∧ (ea % 4 ≠ 0 ∨ 6291456 < ea + 4) ∧ (Instr.ldV (3#4) false 6287360#24, 256, 64) ∈ forms ∧ (ea % 64 ≠ 0 ∨ 6291456 < ea + 256) ∧ (Instr.stB (3#4) false 6287360#24, 1, 1) ∈ forms ∧ (Instr.stH (3#4) false 6287360#24, 2, 2) ∈ forms ∧ (Instr.stW (3#4) false 6287360#24, 4, 4) ∈ forms ∧ (Instr.stV (3#4) false 6287360#24, 256, 64) ∈ forms)
    ∧ (let a : PWord := s0.core.bank.areg (3#4).toNat; let ea : Nat := BitVec.toNat (if false = true then a.val else a.val + BitVec.signExtend 32 6287359#24); let forms : List (Instr × Nat × Nat) := [(Instr.ldB (3#4) false 6287359#24, 1, 1), (Instr.ldH (3#4) false 6287359#24, 2, 2), (Instr.ldW (3#4) false 6287359#24, 4, 4), (Instr.ldV (3#4) false 6287359#24, 256, 64), (Instr.stB (3#4) false 6287359#24, 1, 1), (Instr.stH (3#4) false 6287359#24, 2, 2), (Instr.stW (3#4) false 6287359#24, 4, 4), (Instr.stV (3#4) false 6287359#24, 256, 64)]; (Instr.ldH (3#4) false 6287359#24, 2, 2) ∈ forms ∧ (ea % 2 ≠ 0 ∨ 6291456 < ea + 2) ∧ (Instr.ldW (3#4) false 6287359#24, 4, 4) ∈ forms ∧ (ea % 4 ≠ 0 ∨ 6291456 < ea + 4) ∧ (Instr.ldV (3#4) false 6287359#24, 256, 64) ∈ forms ∧ (ea % 64 ≠ 0 ∨ 6291456 < ea + 256) ∧ (Instr.stH (3#4) false 6287359#24, 2, 2) ∈ forms ∧ (Instr.stW (3#4) false 6287359#24, 4, 4) ∈ forms ∧ (Instr.stV (3#4) false 6287359#24, 256, 64) ∈ forms) := by
  and_intros <;> first | exact name_none | decide +kernel | (intro h; exact absurd h (by decide +kernel))
theorem witness_AddressMovesAndAtomics :
    (readS (2#6) s0 = Except.ok ({ val := 4294967280#32 : PWord }, s0))
    ∧ (let a : PWord := s0.core.bank.areg (3#4).toNat; let ea : Nat := BitVec.toNat (a.val + 4#32 * BitVec.signExtend 32 16383#14); Access a ea 4 4 6291456 ∧ readS (2#6) s0 = Except.ok ({ val := 4294967280#32 : PWord }, s0) ∧ s0.ClearOf 0 ea 4 ∧ readS (1#6) s0 = Except.ok ({ val := 7#32 : PWord }, s0)) := by
  and_intros <;> first | exact name_none | decide +kernel | exact rfl | (intro h; exact absurd h (by decide +kernel))
theorem witness_DuneVectors :
    (let a : PWord := s0.core.bank.areg (3#4).toNat; let sum : Word := a.val + 256#32 * BitVec.signExtend 32 3#18; let ea : Nat := BitVec.toNat (if true = true then a.val else sum); Access a ea 256 256 25165824 ∧ s0.ClearOf 1 ea 256 ∧ (∀ (p : Path), p ∈ s0.here.paths → p.onBus (ea / 393216) (s0.tcyc s0.curT + 2) (s0.tcyc s0.curT + 9) = false) ∧ s0.core.vAlias 5#7 = false ∧ readV (5#7) s0 = Except.ok ({ : VRow }, s0))
    ∧ (let a : PWord := s0.core.bank.areg (3#4).toNat; let sum : Word := a.val + 256#32 * BitVec.signExtend 32 262143#18; let ea : Nat := BitVec.toNat (if false = true then a.val else sum); Access a ea 256 256 25165824 ∧ s0.ClearOf 1 ea 256 ∧ (∀ (p : Path), p ∈ s0.here.paths → p.onBus (ea / 393216) (s0.tcyc s0.curT + 2) (s0.tcyc s0.curT + 9) = false) ∧ s0.core.vAlias 5#7 = false ∧ readV (5#7) s0 = Except.ok ({ : VRow }, s0))
    ∧ (let a : PWord := sqv2.core.bank.areg (3#4).toNat; let sum : Word := a.val + 256#32 * BitVec.signExtend 32 0#18; let ea : Nat := BitVec.toNat (if false = true then a.val else sum); Access a ea 256 256 25165824 ∧ sqv2.ClearOf 1 ea 256 ∧ (∀ (p : Path), p ∈ sqv2.here.paths → p.onBus (ea / 393216) (sqv2.tcyc sqv2.curT + 2) (sqv2.tcyc sqv2.curT + 9) = false) ∧ sqv2.core.vAlias 127#7 = true ∧ readV (127#7) sqv2 = Except.ok ({ val := 9#2048 : VRow }, w9) ∧ w9.ClearOf 1 ea 256 ∧ (∀ (p : Path), p ∈ w9.here.paths → p.onBus (ea / 393216) (w9.tcyc w9.curT + 2) (w9.tcyc w9.curT + 9) = false)) := by
  and_intros <;> first | exact name_none | decide +kernel | exact rfl | (intro h; exact absurd h (by decide +kernel))
theorem witness_Streams :
    (let a : PWord := s0.core.bank.areg (6#4).toNat; let cb : Nat := BitVec.toNat (a.val + BitVec.zeroExtend 32 0#12); Access a cb 32 32 6291456 ∧ s0.StartsAt (0#9) 100 ∧ s0.TokenFree 9#5 ∧ s0.RecordFree)
    ∧ (let a : PWord := s0.core.bank.areg (6#4).toNat; let cb : Nat := BitVec.toNat (a.val + BitVec.zeroExtend 32 32#12); Access a cb 32 32 6291456 ∧ s0.StartsAt (7#9) 112 ∧ s0.TokenFree 9#5 ∧ s0.RecordFree) := by
  and_intros <;> first | exact name_none | decide +kernel | exact rfl | (intro h; exact absurd h (by decide +kernel)) | (unfold State.TokenFree; decide +kernel)

end Memory

namespace Vectors

/-! States of the witnesses of the vector unit. -/
def r1 : VRow := ⟨0x0123456789ABCDEF00112233445566778899AABBCCDDEEFF#2048 , 0x5#64⟩
def r2 : VRow := ⟨(0xFFFF00003F80000040000000BF800000#2048 <<< 1000) ||| 0x7FC000003F8000007F800000#2048, 0x10#64⟩
def r3 : VRow := ⟨(0xFFFF00003F80000040000000BF80000033334444555566667777888899990000#2048 <<< 1000) ||| 0xC2F00000402000007FC000003F8000007F800000#2048, 0x0#64⟩
def mm : SMap MaskReg := [(1, ⟨0xFFFF5555FFFF5555FFFF5555FFFF5557#128, 0#128⟩), (2, ⟨0xFF5#128, 0x3#128⟩), (3, ⟨1#128, 0#128⟩)]
def sv : State := at0 { core0 with v := [(1, r1), (2, r2), (3, r3)], m := mm }

theorem witness_VectorArithmetic :
    (readV (1#7) sv = Except.ok (r1, sv) ∧ readV (2#7) sv = Except.ok (r2, sv) ∧ tyIsF 0#3 = true)
    ∧ (readV (1#7) sv = Except.ok (r1, sv) ∧ readV (2#7) sv = Except.ok (r2, sv) ∧ tyIsF 1#3 = true)
    ∧ (readV (3#7) sv = Except.ok (r3, sv) ∧ readV (2#7) sv = Except.ok (r2, sv) ∧ tyIsF 2#3 = true)
    ∧ (readV (1#7) sv = Except.ok (r1, sv) ∧ readV (2#7) sv = Except.ok (r2, sv) ∧ tyIsF 3#3 = false)
    ∧ (readV (1#7) sv = Except.ok (r1, sv) ∧ readV (2#7) sv = Except.ok (r2, sv) ∧ tyIsF 4#3 = false)
    ∧ (readV (1#7) sv = Except.ok (r1, sv) ∧ readV (2#7) sv = Except.ok (r2, sv) ∧ tyIsF 5#3 = false)
    ∧ (readV (1#7) sv = Except.ok (r1, sv) ∧ readV (2#7) sv = Except.ok (r2, sv) ∧ tyIsF 6#3 = false) := by
  and_intros <;> first | exact name_none | decide +kernel | exact rfl
theorem witness_VectorBitsAndUnary :
    (readV (1#7) sv = Except.ok (r1, sv) ∧ readV (2#7) sv = Except.ok (r2, sv))
    ∧ (readV (1#7) sv = Except.ok (r1, sv) ∧ tyIsF 6#3 = false ∧ readS (2#6) sv = Except.ok ({ val := 4294967280#32 : PWord }, sv))
    ∧ (readV (3#7) sv = Except.ok (r3, sv) ∧ tyIsF 3#3 = false ∧ readS (2#6) sv = Except.ok ({ val := 4294967280#32 : PWord }, sv))
    ∧ (readV (2#7) sv = Except.ok (r2, sv) ∧ tyIsF 0#3 = true ∧ readS (2#6) sv = Except.ok ({ val := 4294967280#32 : PWord }, sv)) := by
  and_intros <;> first | exact name_none | decide +kernel | exact rfl
theorem witness_VectorFused :
    (readVD (1#7) sv = Except.ok (r1, sv) ∧ readV (2#7) sv = Except.ok (r2, sv) ∧ readV (3#7) sv = Except.ok (r3, sv) ∧ readS (2#6) sv = Except.ok ({ val := 4294967280#32 : PWord }, sv) ∧ readS (1#6) sv = Except.ok ({ val := 7#32 : PWord }, sv) ∧ tyIsF 0#3 = true)
    ∧ (readVD (1#7) sv = Except.ok (r1, sv) ∧ readV (2#7) sv = Except.ok (r2, sv) ∧ readV (3#7) sv = Except.ok (r3, sv) ∧ readS (2#6) sv = Except.ok ({ val := 4294967280#32 : PWord }, sv) ∧ readS (1#6) sv = Except.ok ({ val := 7#32 : PWord }, sv) ∧ tyIsF 2#3 = true)
    ∧ (readVD (1#7) sv = Except.ok (r1, sv) ∧ readV (2#7) sv = Except.ok (r2, sv) ∧ readV (3#7) sv = Except.ok (r3, sv) ∧ readS (2#6) sv = Except.ok ({ val := 4294967280#32 : PWord }, sv) ∧ readS (1#6) sv = Except.ok ({ val := 7#32 : PWord }, sv) ∧ tyIsF 3#3 = false)
    ∧ (readVD (1#7) sv = Except.ok (r1, sv) ∧ readV (2#7) sv = Except.ok (r2, sv) ∧ readV (3#7) sv = Except.ok (r3, sv) ∧ readS (2#6) sv = Except.ok ({ val := 4294967280#32 : PWord }, sv) ∧ readS (1#6) sv = Except.ok ({ val := 7#32 : PWord }, sv) ∧ tyIsF 6#3 = false) := by
  and_intros <;> first | exact name_none | decide +kernel | exact rfl
theorem witness_VectorMoves :
    (readV (1#7) sv = Except.ok (r1, sv) ∧ readV (2#7) sv = Except.ok (r2, sv)) := by
  and_intros <;> first | exact name_none | decide +kernel | exact rfl
theorem witness_VectorConversions :
    (let blk : Nat := BitVec.toNat r2.val % 2 ^ 512; readV (2#7) sv = Except.ok (r2, sv) ∧ sbOk blk 8 = true)
    ∧ (let blk : Nat := BitVec.toNat r1.val % 2 ^ 512; readV (1#7) sv = Except.ok (r1, sv) ∧ sbOk blk 8 = true)
    ∧ (let blk : Nat := BitVec.toNat r3.val % 2 ^ 512; readV (3#7) sv = Except.ok (r3, sv) ∧ sbOk blk 8 = true) := by
  and_intros <;> first | exact name_none | decide +kernel | exact rfl

end Vectors

namespace Blocks

/-! States of the witnesses of packed blocks. -/
def mm : SMap MaskReg := [(1, ⟨0xFFFF5555FFFF5555FFFF5555FFFF5557#128, 0#128⟩), (2, ⟨0xFF5#128, 0x3#128⟩), (3, ⟨1#128, 0#128⟩)]
def r4 : VRow := ⟨BitVec.ofNat 2048 (sbPack 4 0#2 ((List.range 96).map fun i => fp32.unpack (0x3F800000 + i * 70000))).1, 2#64⟩
def r5 : VRow := ⟨BitVec.ofNat 2048 (sbPack 8 0#2 ((List.range 48).map fun i => fp32.unpack (0x3F800000 + i * 70000))).1, 0#64⟩
def r6 : VRow := ⟨0xFF#2048, 0#64⟩
def sv : State := at0 { core0 with v := [(1, r4), (2, r5), (3, r6)], m := mm }

theorem witness_VectorConversions :
    (let blk : Nat := BitVec.toNat r4.val % 2 ^ 512; readV (1#7) sv = Except.ok (r4, sv) ∧ sbOk blk 8 = true)
    ∧ (let blk : Nat := BitVec.toNat r5.val % 2 ^ 512; readV (2#7) sv = Except.ok (r5, sv) ∧ sbOk blk 8 = true)
    ∧ (let blk : Nat := BitVec.toNat r6.val % 2 ^ 512; readV (3#7) sv = Except.ok (r6, sv) ∧ sbOk blk 8 = true)
    ∧ (let blk : Nat := BitVec.toNat { : VRow }.val % 2 ^ 512; readV (9#7) sv = Except.ok ({ : VRow }, sv) ∧ sbOk blk 8 = true) := by
  and_intros <;> first | exact name_none | decide +kernel | exact rfl

end Blocks

namespace Engines

/-! States of the witnesses of the array and the engines. -/
def r6 : VRow := ⟨1#2048, 0#64⟩
def svx : State := at0 { core0 with v := [(3, r6)] }
def leased : Tile := { leaseCore := some 0, latchRdy := [(2, 1000)], arrSpans := [(990, 999), (1013, 1020)], lwtSpans := [(980, 999)], gang := 0x80000000#32 }
def sl : State := at0 { core0 with acc0 := [(3, 4)] } leased
def slg : State := at0 core0 { leased with gang := 0x81C02000#32 }
def slr : State := at0 core0 { leased with gang := 0x82800000#32 }
def st : State := at0 { core0 with task := { bank with s := [(2, ⟨0x7F00#32, false⟩)] ++ [(3, ⟨0x7F00#32, true⟩), (5, ⟨1#32, false⟩)] , a := bank.a} }
def sstr : State := at0 { core0 with strict := true }
def sqq : State := at0 { core0 with qs := true, task := { bank with sdqSeq := 4 } }
def sful : State := at0 { core0 with sumQ := List.replicate 16 { op := 0x1A } }
def ch (sm : Nat) : SMap Chan := [(5, { sv := true, stok := 3, cls := 2, win := 1, dch := 9, smode := sm, dest := 0x1004, ring := 4096, cr := 8192, sq := 0xFFFFFFFF, so := 4032 })]
def grp : SMap Group := [(6, { v := true, stok := 4, cls := 1, win := 1, dch := 8, dsts := [0x1004, 0x2008], ring := 4096, cr := [8192, 4096], sq := 3, so := 64})]
def w1 : State := (at0 {core0 with v := [(5, {val := 1#2048}), (64, {val := 2#2048})]} { leaseReq := [(0, 3), (1, 4)] })
def w2 : State := (at0 core0 { leased with gang := 0#32 })
def w3 : State := (at0 {core0 with pend := [{at' := 130, effs := [.tldSwitch 1 3]}]})
def w4 : State := (at0 core0 { chans := ch 0 , groups := grp })
def w5 : State := (at0 core0 { chans := ch 2 , groups := grp })
def w6 : State := (at0 {core0 with tok := [(3, ⟨4, 2, 0, 0⟩), (4, ⟨1, 1, 0, 0⟩)] } { leaseReq := [(0, 3), (1, 4)] })

theorem witness_VectorConversions :
    (let blk : Nat := BitVec.toNat r6.val % 2 ^ 512; readV (3#7) svx = Except.ok (r6, svx) ∧ sbOk blk 8 = false) := by
  and_intros <;> first | exact name_none | decide +kernel | exact rfl
theorem witness_LeaseLatchAndModes :
    ((¬(s0.here.leaseCore = some s0.curC ∨ ∃ j, (s0.curC, j) ∈ s0.here.leaseReq)) ∧ s0.TokenFree 3#5)
    ∧ ((sl.here.leaseCore = some sl.curC ∨ ∃ j, (sl.curC, j) ∈ sl.here.leaseReq))
    ∧ ((w1.here.leaseCore = some w1.curC ∨ ∃ j, (w1.curC, j) ∈ w1.here.leaseReq))
    ∧ (let a : PWord := sl.core.bank.areg (3#4).toNat; let o : Nat := BitVec.toNat a.val; let n : Nat := (6#7).toNat; let x : Tile := sl.here; let now : Nat := sl.tcyc sl.curT; let b : Nat := now + (100 - sl.clock); sl.here.leaseCore = some sl.curC ∧ Access a o (32 * n) 32 393216 ∧ sl.StartsAt (0#9) 100 ∧ (∀ (r : Nat × Nat), r ∈ x.lwtSpans → ¬(r.fst ≤ b ∧ b ≤ r.snd)) ∧ sget 0 x.latchRead (2#2).toNat ≤ b ∧ (∀ (p : Path), p ∈ x.paths → ∀ (j : Nat), j < 64 → p.onBus j b (b + n - 1) = false))
    ∧ (let a : PWord := sl.core.bank.areg (3#4).toNat; let o : Nat := BitVec.toNat a.val; let n : Nat := (1#7).toNat; let x : Tile := sl.here; let now : Nat := sl.tcyc sl.curT; let b : Nat := now + (112 - sl.clock); sl.here.leaseCore = some sl.curC ∧ Access a o (32 * n) 32 393216 ∧ sl.StartsAt (7#9) 112 ∧ (∀ (r : Nat × Nat), r ∈ x.lwtSpans → ¬(r.fst ≤ b ∧ b ≤ r.snd)) ∧ sget 0 x.latchRead (2#2).toNat ≤ b ∧ (∀ (p : Path), p ∈ x.paths → ∀ (j : Nat), j < 64 → p.onBus j b (b + n - 1) = false))
    ∧ ((w6.here.leaseCore = some w6.curC ∨ ∃ j, (w6.curC, j) ∈ w6.here.leaseReq) ∧ List.filter (fun r ↦ r.fst == 0) (w6.tile 0).leaseReq = [(0, 3)]) := by
  and_intros <;> first | exact name_none | decide +kernel | exact rfl | (unfold State.TokenFree; decide +kernel) | (rintro (h | ⟨j, h⟩) <;> cases h; done) | exact .inl rfl | exact .inr ⟨_, .head _⟩
theorem witness_ArrayCommands :
    (let a : PWord := sl.core.bank.areg (3#4).toNat; let ea : Nat := BitVec.toNat a.val; let n : Nat := (64#7).toNat; let len : Nat := n * arrRowBytes (0#4).toNat; let b : Nat := sl.tcyc sl.curT + (100 - sl.clock); (sl.here.leaseCore = some sl.curC ∧ sl.StartsAt (0#9) 100 ∧ (100 = sl.clock → sl.here.latchFits (0#4).toNat (2#2).toNat = true) ∧ (∀ (r : Nat × Nat), r ∈ sl.here.arrSpans → ¬(r.fst ≤ b ∧ b ≤ r.snd)) ∧ sget 0 sl.here.latchRdy (2#2).toNat ≤ b) ∧ (Access a ea len 64 6291456 ∧ sl.ClearOf 0 ea len) ∧ BitVec.getLsbD sl.here.gang 31 = true ∧ BitVec.extractLsb' 13 4 sl.here.gang = 0#4)
    ∧ (let a : PWord := sl.core.bank.areg (3#4).toNat; let ea : Nat := BitVec.toNat a.val; let n : Nat := (8#7).toNat; let len : Nat := n * arrRowBytes (8#4).toNat; let b : Nat := sl.tcyc sl.curT + (112 - sl.clock); (sl.here.leaseCore = some sl.curC ∧ sl.StartsAt (7#9) 112 ∧ (112 = sl.clock → sl.here.latchFits (8#4).toNat (2#2).toNat = true) ∧ (∀ (r : Nat × Nat), r ∈ sl.here.arrSpans → ¬(r.fst ≤ b ∧ b ≤ r.snd)) ∧ sget 0 sl.here.latchRdy (2#2).toNat ≤ b) ∧ (Access a ea len 64 6291456 ∧ sl.ClearOf 0 ea len) ∧ BitVec.getLsbD sl.here.gang 31 = true ∧ BitVec.extractLsb' 13 4 sl.here.gang = 0#4)
    ∧ (let a : PWord := slg.core.bank.areg (3#4).toNat; let ea : Nat := BitVec.toNat a.val; let n : Nat := (8#7).toNat; let len : Nat := n * arrRowBytes (8#4).toNat; let b : Nat := slg.tcyc slg.curT + (112 - slg.clock); (slg.here.leaseCore = some slg.curC ∧ slg.StartsAt (7#9) 112 ∧ (112 = slg.clock → slg.here.latchFits (8#4).toNat (2#2).toNat = true) ∧ (∀ (r : Nat × Nat), r ∈ slg.here.arrSpans → ¬(r.fst ≤ b ∧ b ≤ r.snd)) ∧ sget 0 slg.here.latchRdy (2#2).toNat ≤ b) ∧ (Access a ea len 64 6291456 ∧ slg.ClearOf 0 ea len) ∧ BitVec.getLsbD slg.here.gang 31 = true ∧ BitVec.extractLsb' 13 4 slg.here.gang ≠ 0#4)
    ∧ (let a : PWord := slr.core.bank.areg (3#4).toNat; let ea : Nat := BitVec.toNat a.val; let n : Nat := (8#7).toNat; let len : Nat := n * arrRowBytes (4#4).toNat; let b : Nat := slr.tcyc slr.curT + (100 - slr.clock); (slr.here.leaseCore = some slr.curC ∧ slr.StartsAt (0#9) 100 ∧ (100 = slr.clock → slr.here.latchFits (4#4).toNat (2#2).toNat = true) ∧ (∀ (r : Nat × Nat), r ∈ slr.here.arrSpans → ¬(r.fst ≤ b ∧ b ≤ r.snd)) ∧ sget 0 slr.here.latchRdy (2#2).toNat ≤ b) ∧ (Access a ea len 64 6291456 ∧ slr.ClearOf 0 ea len) ∧ BitVec.getLsbD slr.here.gang 31 = true ∧ BitVec.extractLsb' 13 4 slr.here.gang = 0#4)
    ∧ (s0.here.leaseCore ≠ some s0.curC ∧ Instr.mma false 2#2 3#4 8#7 4#4 0#9 ∈ [Instr.mma false 2#2 3#4 8#7 4#4 0#9, Instr.mmaz false 2#2 3#4 8#7 4#4 0#9, Instr.gmma false 2#2 3#4 8#7 4#4 0#9, Instr.lwt 2#2 3#4 8#7 0#9] ∧ Instr.mmaz false 2#2 3#4 8#7 4#4 0#9 ∈ [Instr.mma false 2#2 3#4 8#7 4#4 0#9, Instr.mmaz false 2#2 3#4 8#7 4#4 0#9, Instr.gmma false 2#2 3#4 8#7 4#4 0#9, Instr.lwt 2#2 3#4 8#7 0#9] ∧ Instr.gmma false 2#2 3#4 8#7 4#4 0#9 ∈ [Instr.mma false 2#2 3#4 8#7 4#4 0#9, Instr.mmaz false 2#2 3#4 8#7 4#4 0#9, Instr.gmma false 2#2 3#4 8#7 4#4 0#9, Instr.lwt 2#2 3#4 8#7 0#9] ∧ Instr.lwt 2#2 3#4 8#7 0#9 ∈ [Instr.mma false 2#2 3#4 8#7 4#4 0#9, Instr.mmaz false 2#2 3#4 8#7 4#4 0#9, Instr.gmma false 2#2 3#4 8#7 4#4 0#9, Instr.lwt 2#2 3#4 8#7 0#9])
    ∧ (let a : PWord := w2.core.bank.areg (3#4).toNat; let ea : Nat := BitVec.toNat a.val; let n : Nat := (8#7).toNat; let len : Nat := n * arrRowBytes (4#4).toNat; let b : Nat := w2.tcyc w2.curT + (100 - w2.clock); (w2.here.leaseCore = some w2.curC ∧ w2.StartsAt (0#9) 100 ∧ (100 = w2.clock → w2.here.latchFits (4#4).toNat (2#2).toNat = true) ∧ (∀ (r : Nat × Nat), r ∈ w2.here.arrSpans → ¬(r.fst ≤ b ∧ b ≤ r.snd)) ∧ sget 0 w2.here.latchRdy (2#2).toNat ≤ b) ∧ (Access a ea len 64 6291456 ∧ w2.ClearOf 0 ea len) ∧ w2.here.leaseCore = some w2.curC ∧ BitVec.getLsbD w2.here.gang 31 = false) := by
  and_intros <;> first | exact name_none | decide +kernel | exact rfl | (intro h; exact absurd h (by decide +kernel))
theorem witness_AccumulatorMoves :
    (let a : PWord := sl.core.bank.areg (3#4).toNat; let ea : Nat := BitVec.toNat a.val; let n : Nat := (3#6).toNat + 1; let len : Nat := n * (64 * cvBytes (0#4).toNat); let b : Nat := sl.tcyc sl.curT + (100 - sl.clock); Access a ea len 64 6291456 ∧ sl.ClearOf 0 ea len ∧ sl.StartsAt (0#9) 100 ∧ (∀ (r : Nat × Nat), r ∈ sl.core.retSpans → ¬(r.fst ≤ b ∧ b ≤ r.snd)))
    ∧ (let a : PWord := sl.core.bank.areg (3#4).toNat; let ea : Nat := BitVec.toNat a.val; let n : Nat := (63#6).toNat + 1; let len : Nat := n * (64 * cvBytes (5#4).toNat); let b : Nat := sl.tcyc sl.curT + (112 - sl.clock); Access a ea len 64 6291456 ∧ sl.ClearOf 0 ea len ∧ sl.StartsAt (7#9) 112 ∧ (∀ (r : Nat × Nat), r ∈ sl.core.retSpans → ¬(r.fst ≤ b ∧ b ≤ r.snd))) := by
  and_intros <;> first | exact name_none | decide +kernel | exact rfl | (intro h; exact absurd h (by decide +kernel))
theorem witness_TableForms :
    (readV (3#7) svx = Except.ok (r6, svx) ∧ (5#4).toNat < 12)
    ∧ (readV (3#7) svx = Except.ok (r6, svx) ∧ 12 ≤ (13#4).toNat)
    ∧ (readV (3#7) svx = Except.ok (r6, svx) ∧ 12 ≤ (12#4).toNat)
    ∧ (let a : PWord := st.core.bank.areg (3#4).toNat; let ea : Nat := BitVec.toNat a.val; Access a ea 2048 64 6291456 ∧ st.ClearOf 0 ea 2048 ∧ st.TokenFree 3#5 ∧ (¬∃ p, p ∈ st.core.pend ∧ ∃ j, Eff.tldSwitch (1#2).toNat j ∈ p.effs ∨ Eff.tldDone (1#2).toNat j ∈ p.effs) ∧ readS (2#6) st = Except.ok ({ val := 32512#32 : PWord }, st) ∧ { val := 32512#32 : PWord }.poi = false ∧ tcfgOk { val := 32512#32 : PWord }.val = true)
    ∧ (let a : PWord := st.core.bank.areg (3#4).toNat; let ea : Nat := BitVec.toNat a.val; Access a ea 2048 64 6291456 ∧ st.ClearOf 0 ea 2048 ∧ st.TokenFree 3#5 ∧ (¬∃ p, p ∈ st.core.pend ∧ ∃ j, Eff.tldSwitch (1#2).toNat j ∈ p.effs ∨ Eff.tldDone (1#2).toNat j ∈ p.effs) ∧ readS (3#6) st = Except.ok ({ val := 32512#32, poi := true : PWord }, st) ∧ ({ val := 32512#32, poi := true : PWord }.poi = true ∨ tcfgOk { val := 32512#32, poi := true : PWord }.val = false))
    ∧ (let a : PWord := st.core.bank.areg (3#4).toNat; let ea : Nat := BitVec.toNat a.val; Access a ea 2048 64 6291456 ∧ st.ClearOf 0 ea 2048 ∧ st.TokenFree 3#5 ∧ (¬∃ p, p ∈ st.core.pend ∧ ∃ j, Eff.tldSwitch (1#2).toNat j ∈ p.effs ∨ Eff.tldDone (1#2).toNat j ∈ p.effs) ∧ readS (5#6) st = Except.ok ({ val := 1#32 : PWord }, st) ∧ ({ val := 1#32 : PWord }.poi = true ∨ tcfgOk { val := 1#32 : PWord }.val = false))
    ∧ (let a : PWord := w3.core.bank.areg (3#4).toNat; let ea : Nat := BitVec.toNat a.val; Access a ea 2048 64 6291456 ∧ w3.ClearOf 0 ea 2048 ∧ w3.TokenFree 3#5 ∧ (∃ p, p ∈ w3.core.pend ∧ ∃ j, Eff.tldSwitch (1#2).toNat j ∈ p.effs ∨ Eff.tldDone (1#2).toNat j ∈ p.effs) ∧ readS (1#6) w3 = Except.ok ({ val := 7#32 : PWord }, w3) ∧ ({ val := 7#32 : PWord }.poi = true ∨ tcfgOk { val := 7#32 : PWord }.val = false)) := by
  and_intros <;> first | exact name_none | decide +kernel | exact rfl | (intro h; exact absurd h (by decide +kernel)) | (unfold State.TokenFree; decide +kernel) | (rintro ⟨p, h, j, h'⟩; cases h; done) | exact ⟨_, .head _, _, .inl (.head _)⟩
theorem witness_SummaryCommands :
    (let a : PWord := s0.core.bank.areg (3#4).toNat; let ea : Nat := BitVec.toNat a.val; (s0.TokenFree 5#5 ∧ s0.core.sumQ.length < 16) ∧ s0.RecordFree ∧ Access a ea 4096 64 6291456 ∧ s0.ClearOf 0 ea 4096 ∧ ea % 64 = 0 ∧ a.poi = false ∧ readS (1#6) s0 = Except.ok ({ val := 7#32 : PWord }, s0) ∧ readV (3#7) s0 = Except.ok ({ : VRow }, s0))
    ∧ (let a : PWord := sstr.core.bank.areg (3#4).toNat; let ea : Nat := BitVec.toNat a.val; (sstr.TokenFree 5#5 ∧ sstr.core.sumQ.length < 16) ∧ sstr.RecordFree ∧ Access a ea 4096 64 6291456 ∧ sstr.ClearOf 0 ea 4096 ∧ ea % 64 = 0 ∧ a.poi = false ∧ readS (1#6) sstr = Except.ok ({ val := 7#32 : PWord }, sstr) ∧ readV (3#7) sstr = Except.ok ({ : VRow }, sstr))
    ∧ (let a : PWord := sqq.core.bank.areg (3#4).toNat; let ea : Nat := BitVec.toNat a.val; (sqq.TokenFree 5#5 ∧ sqq.core.sumQ.length < 16) ∧ sqq.RecordFree ∧ Access a ea 4096 64 6291456 ∧ sqq.ClearOf 0 ea 4096 ∧ ea % 64 = 0 ∧ a.poi = false ∧ readS (1#6) sqq = Except.ok ({ val := 7#32 : PWord }, sqq) ∧ readV (3#7) sqq = Except.ok ({ : VRow }, sqq))
    ∧ (let a : PWord := sful.core.bank.areg (3#4).toNat; let ea : Nat := BitVec.toNat a.val; sful.TokenFree 5#5 ∧ 16 ≤ sful.core.sumQ.length ∧ Instr.skinitQs 3#3 1#2 5#5 ∈ [Instr.skinitQs 3#3 1#2 5#5, Instr.skinitHh 3#3 1#2 5#5, Instr.skinitDc 3#3 1#2 5#5, Instr.skmerge 3#3 5#3 5#5, Instr.skclr 3#3 5#5] ∧ Instr.skinitHh 3#3 1#2 5#5 ∈ [Instr.skinitQs 3#3 1#2 5#5, Instr.skinitHh 3#3 1#2 5#5, Instr.skinitDc 3#3 1#2 5#5, Instr.skmerge 3#3 5#3 5#5, Instr.skclr 3#3 5#5] ∧ Instr.skinitDc 3#3 1#2 5#5 ∈ [Instr.skinitQs 3#3 1#2 5#5, Instr.skinitHh 3#3 1#2 5#5, Instr.skinitDc 3#3 1#2 5#5, Instr.skmerge 3#3 5#3 5#5, Instr.skclr 3#3 5#5] ∧ Instr.skmerge 3#3 5#3 5#5 ∈ [Instr.skinitQs 3#3 1#2 5#5, Instr.skinitHh 3#3 1#2 5#5, Instr.skinitDc 3#3 1#2 5#5, Instr.skmerge 3#3 5#3 5#5, Instr.skclr 3#3 5#5] ∧ Instr.skclr 3#3 5#5 ∈ [Instr.skinitQs 3#3 1#2 5#5, Instr.skinitHh 3#3 1#2 5#5, Instr.skinitDc 3#3 1#2 5#5, Instr.skmerge 3#3 5#3 5#5, Instr.skclr 3#3 5#5] ∧ sful.RecordFree ∧ Access a ea 4096 64 6291456 ∧ sful.ClearOf 0 ea 4096 ∧ ea % 64 = 0 ∧ a.poi = false ∧ readS (1#6) sful = Except.ok ({ val := 7#32 : PWord }, sful) ∧ readV (3#7) sful = Except.ok ({ : VRow }, sful)) := by
  and_intros <;> first | exact name_none | decide +kernel | exact rfl | (unfold State.TokenFree; decide +kernel) | (intro _; decide +kernel)
theorem witness_Copies :
    (let d : PWord := s0.core.bank.areg (3#4).toNat; let a : PWord := s0.core.bank.areg (6#4).toNat; let len : Nat := BitVec.toNat { val := 128#32 : PWord }.val; readS (5#6) s0 = Except.ok ({ val := 128#32 : PWord }, s0) ∧ (len % 64 = 0 ∧ len ≤ 6291456 ∧ { val := 128#32 : PWord }.poi = false ∧ Access d (BitVec.toNat d.val) len 64 (if false = true then 6291456 else 25165824) ∧ Access a (BitVec.toNat a.val) len 64 (if (!false) = true then 6291456 else 25165824) ∧ s0.ClearOf (if false = true then 1 else 0) (BitVec.toNat a.val) len ∧ s0.ClearOf (if false = true then 0 else 1) (BitVec.toNat d.val) len ∧ s0.StartsAt (0#9) 100 ∧ s0.TokenFree 5#5 ∧ s0.RecordFree ∧ s0.here.copyQ.length < 32) ∧ (len % 64 = 0 ∧ len ≤ 6291456 ∧ { val := 128#32 : PWord }.poi = false ∧ Access d (BitVec.toNat d.val) len 64 (if true = true then 6291456 else 25165824) ∧ Access a (BitVec.toNat a.val) len 64 (if (!true) = true then 6291456 else 25165824) ∧ s0.ClearOf (if true = true then 1 else 0) (BitVec.toNat a.val) len ∧ s0.ClearOf (if true = true then 0 else 1) (BitVec.toNat d.val) len ∧ s0.StartsAt (0#9) 100 ∧ s0.TokenFree 5#5 ∧ s0.RecordFree ∧ s0.here.copyQ.length < 32))
    ∧ (let d : PWord := s0.core.bank.areg (3#4).toNat; let a : PWord := s0.core.bank.areg (6#4).toNat; let len : Nat := BitVec.toNat { val := 128#32 : PWord }.val; readS (5#6) s0 = Except.ok ({ val := 128#32 : PWord }, s0) ∧ (len % 64 = 0 ∧ len ≤ 6291456 ∧ { val := 128#32 : PWord }.poi = false ∧ Access d (BitVec.toNat d.val) len 64 (if false = true then 6291456 else 25165824) ∧ Access a (BitVec.toNat a.val) len 64 (if (!false) = true then 6291456 else 25165824) ∧ s0.ClearOf (if false = true then 1 else 0) (BitVec.toNat a.val) len ∧ s0.ClearOf (if false = true then 0 else 1) (BitVec.toNat d.val) len ∧ s0.StartsAt (7#9) 112 ∧ s0.TokenFree 5#5 ∧ s0.RecordFree ∧ s0.here.copyQ.length < 32) ∧ (len % 64 = 0 ∧ len ≤ 6291456 ∧ { val := 128#32 : PWord }.poi = false ∧ Access d (BitVec.toNat d.val) len 64 (if true = true then 6291456 else 25165824) ∧ Access a (BitVec.toNat a.val) len 64 (if (!true) = true then 6291456 else 25165824) ∧ s0.ClearOf (if true = true then 1 else 0) (BitVec.toNat a.val) len ∧ s0.ClearOf (if true = true then 0 else 1) (BitVec.toNat d.val) len ∧ s0.StartsAt (7#9) 112 ∧ s0.TokenFree 5#5 ∧ s0.RecordFree ∧ s0.here.copyQ.length < 32))
    ∧ (let d : PWord := sstr.core.bank.areg (3#4).toNat; let a : PWord := sstr.core.bank.areg (6#4).toNat; let len : Nat := BitVec.toNat { : PWord }.val; readS (4#6) sstr = Except.ok ({ : PWord }, sstr) ∧ (len % 64 = 0 ∧ len ≤ 6291456 ∧ { : PWord }.poi = false ∧ Access d (BitVec.toNat d.val) len 64 (if false = true then 6291456 else 25165824) ∧ Access a (BitVec.toNat a.val) len 64 (if (!false) = true then 6291456 else 25165824) ∧ sstr.ClearOf (if false = true then 1 else 0) (BitVec.toNat a.val) len ∧ sstr.ClearOf (if false = true then 0 else 1) (BitVec.toNat d.val) len ∧ sstr.StartsAt (7#9) 112 ∧ sstr.TokenFree 5#5 ∧ sstr.RecordFree ∧ sstr.here.copyQ.length < 32) ∧ (len % 64 = 0 ∧ len ≤ 6291456 ∧ { : PWord }.poi = false ∧ Access d (BitVec.toNat d.val) len 64 (if true = true then 6291456 else 25165824) ∧ Access a (BitVec.toNat a.val) len 64 (if (!true) = true then 6291456 else 25165824) ∧ sstr.ClearOf (if true = true then 1 else 0) (BitVec.toNat a.val) len ∧ sstr.ClearOf (if true = true then 0 else 1) (BitVec.toNat d.val) len ∧ sstr.StartsAt (7#9) 112 ∧ sstr.TokenFree 5#5 ∧ sstr.RecordFree ∧ sstr.here.copyQ.length < 32)) := by
  and_intros <;> first | exact name_none | decide +kernel | exact rfl | (unfold State.TokenFree; decide +kernel) | (intro _; decide +kernel)
theorem witness_Sends :
    (let a : PWord := w4.core.bank.areg (3#4).toNat; let ea : Nat := BitVec.toNat a.val; let n : Nat := 64 * (2#9).toNat; let d : Chan := sget { : Chan } w4.here.chans (5#8).toNat; let e : Group := sget { : Group } w4.here.groups (6#6).toNat; (d.sv = true ∧ d.score = w4.curC ∧ d.grp = false ∧ d.smode = 0 ∧ n ≤ 4096 * 2 ^ d.win) ∧ (Access a ea n 64 6291456 ∧ w4.ClearOf 0 ea n ∧ w4.StartsAt (0#9) 100 ∧ w4.TokenFree (BitVec.ofNat 5 d.stok)) ∧ (e.v = true ∧ e.core = w4.curC ∧ e.dsts ≠ [] ∧ n ≤ 4096 * 2 ^ e.win) ∧ (Access a ea n 64 6291456 ∧ w4.ClearOf 0 ea n ∧ w4.StartsAt (0#9) 100 ∧ w4.TokenFree (BitVec.ofNat 5 e.stok)) ∧ (¬(d.sv = true ∧ d.score = w4.curC ∧ d.grp = false ∧ d.smode = 2 ∧ n ≤ d.ring)))
    ∧ (let a : PWord := w5.core.bank.areg (3#4).toNat; let ea : Nat := BitVec.toNat a.val; let n : Nat := 64 * (64#9).toNat; let d : Chan := sget { : Chan } w5.here.chans (5#8).toNat; let e : Group := sget { : Group } w5.here.groups (6#6).toNat; (d.sv = true ∧ d.score = w5.curC ∧ d.grp = false ∧ d.smode = 2 ∧ n ≤ d.ring) ∧ (Access a ea n 64 6291456 ∧ w5.ClearOf 0 ea n ∧ w5.StartsAt (7#9) 112 ∧ w5.TokenFree (BitVec.ofNat 5 d.stok)) ∧ (e.v = true ∧ e.core = w5.curC ∧ e.dsts ≠ [] ∧ n ≤ 4096 * 2 ^ e.win) ∧ (Access a ea n 64 6291456 ∧ w5.ClearOf 0 ea n ∧ w5.StartsAt (7#9) 112 ∧ w5.TokenFree (BitVec.ofNat 5 e.stok)) ∧ (¬(d.sv = true ∧ d.score = w5.curC ∧ d.grp = false ∧ d.smode = 0 ∧ n ≤ 4096 * 2 ^ d.win)))
    ∧ (let n : Nat := 64 * (64#9).toNat; let d : Chan := sget { : Chan } s0.here.chans (5#8).toNat; let e : Group := sget { : Group } s0.here.groups (6#6).toNat; (¬(d.sv = true ∧ d.score = s0.curC ∧ d.grp = false ∧ d.smode = 0 ∧ n ≤ 4096 * 2 ^ d.win)) ∧ (¬(d.sv = true ∧ d.score = s0.curC ∧ d.grp = false ∧ d.smode = 2 ∧ n ≤ d.ring)) ∧ (¬(e.v = true ∧ e.core = s0.curC ∧ e.dsts ≠ [] ∧ n ≤ 4096 * 2 ^ e.win))) := by
  and_intros <;> first | exact name_none | decide +kernel | exact rfl | (intro h; exact absurd h (by decide +kernel)) | (unfold State.TokenFree; decide +kernel)

end Engines

namespace Control

/-! States of the witnesses of control flow and system state. -/
def xf : Tile := { chans := [(5, { rv := true, u := 256 })], cq := [(7, { v := true, kind := 2 })] }
def xg : Tile := { side := [(3, { held := true, bid := 7#32, len := 128 })] }
def sr : State := at0 { core0 with task := { bank with s := [(1, ⟨0x1FF#32, false⟩), (2, ⟨0xFF#32, false⟩), (3, ⟨0x80000007#32, false⟩)] } } { barE := [(3, 0x80000001#32)] }
def sb (n : Nat) : State := at0 { core0 with bars := [(3, n)] } { barE := [(3, 0x80000001#32)] }
def lp : LoopE := { start := 0x1000, stop := 0x1020, pc := 0xFFC, n := 3, mx := 5 }
def sw (c : Core) : State := { at0 c with words := [0#32] }
def rec5 : Tile := { code := [(0x41, 0x10#8), (0x45, 0x20#8), (0x49, 0x30#8), (0x4D, 0x10#8), (0x51, 0x18#8)], cmap := [(0, 0xC0001000#32)] }
def rect : Tile := { rec5 with cmap := [(0, 0x80001000#32)] }
def stt : State := { at0 core0 rect with words := [0#32, 0#32], leaf := some 4 }
def sm : State := at0 { core0 with mode := .monitor, mon := bank }
def sx : State := at0 { core0 with task := { bank with s := [(1, ⟨0xFFFF6600#32, false⟩)] }, tok := [(5, ⟨0xFFFF, 0, 15, 6⟩), (6, ⟨1, 1, 2, 3⟩)] }

def swch : Tile := { chans := [(5, { sv := true, score := 0, win := 3, cr := 64 })], groups := [(6, { v := true, core := 0, dsts := [1, 2], win := 3, cr := [4096, 64] })], barE := [(3, 0x80000001#32)] }
def swc : State := { at0 core0 swch with words := [0#32] }
def s6 : State := at0 {core0 with loops := [lp, lp, lp, lp, lp, lp]}
-- control registers
def w1 : State := (at0 { core0 with wnext := 11#32, wlim := 12#32, wcfg := 0x30004#32 })
def w2 : State := (at0 { core0 with wnext := 12#32, wlim := 12#32, wcfg := 0x30004#32 })
def w3 : State := (at0 { core0 with wnext := 65534#32, wlim := 0xFFFFFFFF#32, wcfg := 0xFFFF0000#32 })
def w4 : State := (at0 { core0 with wnext := 65535#32, wlim := 0xFFFFFFFF#32, wcfg := 0xFFFF0000#32 })
def w5 : State := (sw { core0 with loops := [lp] })
def w6 : State := (sw { core0 with loops := [{ lp with stop := 0x1004 }], calls := List.replicate 16 (0, 0) })
def w7 : State := (sw { core0 with loops := [lp], calls := List.replicate 15 (0, 0) })
def w8 : State := (sw { core0 with calls := [(0x2000, 1)], loops := [lp] })
def w9 : State := (sw { core0 with calls := [(0x2000, 0)], loops := [lp] })
def w10 : State := (sw { core0 with mode := .monitor, calls := [(0x2000, 1000)], loops := [] })
def w11 : State := (at0 {core0 with loops := [lp, lp, lp, lp, lp, lp]})
def w12 : State := (at0 {core0 with loops := [lp]})
def w13 : State := (sw { core0 with tok := [(4, ⟨3, 1, 2, 3⟩)] })
def w14 : State := (sw { core0 with tok := [(4, ⟨2, 1, 2, 3⟩)] })
def w15 : State := (at0 { core0 with crg := List.replicate 16 ⟨0, none⟩ })
def w16 : State := (at0 {core0 with crc := 0x1D0F#16})
def w17 : State := { sx with dbgAuth := true, dbgMask := 8#4 }
def w18 : Info := { cause := 0x1C, slot := 2, i0 := 5#32, i1 := 6#32, tok := some 6, flg := 9#6, mult := 3, defd := true }
def w19 : State := (at0 { core0 with repRem := 5, repHdr := 0x60000000#32, due := 130 })
def w20 : Core := { (s0.raise { cause := 4 }).core with loops := [{ lp with depth := 1000 }, lp], calls := [(5, 1001), (6, 1)], tcause := 0x01000050#32, trep := 5#32, tdlr := 9#32 }
def w21 : State := (at0 { core0 with mode := .monitor } { errbank := [(0, 0x80000000#32), (1, 5#32)] })
def w22 : State := (at0 { core0 with mode := .monitor } { errbank := [(0, 0xC1000000#32), (1, 5#32)] })
def w23 : State := (swc.upCore fun c => { c with mode := .monitor, mon := bank, bars := [(3, 1)] })
def w24 : State := (swc.upCore fun c => { c with bars := [(3, 2)] })
def w25 : State := (swc.upCore fun c => { c with preReq := some ⟨true, 50⟩ })
def w26 : State := (sw { core0 with loops := [{ lp with stop := 0x1004 }] })
def w27 : State := (sw { core0 with loops := [{ lp with stop := 0x1010 }] })
def w28 : State := { stt with words := [0#32, 0#32] , tiles := [(0, { rect with held := true, cores := [(0, { core0 with loops := [lp] })] })] }
def w29 : State := (sw { core0 with calls := [(0x2000, 1)], loops := [lp], tok := [(17, ⟨3, 1, 2, 3⟩), (20, ⟨3, 1, 2, 3⟩)] })
def w30 : State := (sw { core0 with mode := .monitor, calls := [(0x2000, 1)], loops := [] })
def w31 : State := (sw { core0 with calls := [] })
def w32 : State := (at0 { core0 with task := { bank with s := [(1, ⟨0#32, true⟩)] } })
def w33 : State := (s0.upCore fun c => { c with task := { bank with s := [(1, ⟨0x40#32, false⟩), (2, ⟨0x40#32, true⟩), (3, ⟨0x41#32, true⟩)] } })

theorem witness_FabricControls :
    (let ring : Chan := sget { : Chan } (at0 core0 xf).here.chans (5#8).toNat; let a : PWord := (at0 core0 xf).core.bank.areg (3#4).toNat; readS (5#6) (at0 core0 xf) = Except.ok ({ val := 128#32 : PWord }, at0 core0 xf) ∧ (ring.rv = true ∧ ring.mode = 0 ∧ ring.rcore = (at0 core0 xf).curC ∧ BitVec.toNat { val := 128#32 : PWord }.val % 64 = 0 ∧ BitVec.toNat { val := 128#32 : PWord }.val ≤ ring.u ∧ { val := 128#32 : PWord }.poi = false) ∧ (have q := sget { : CqE } (at0 core0 xf).here.cq (7#8).toNat; q.v = true ∧ 1 ≤ q.kind ∧ q.kind ≤ 3 ∧ q.core = (at0 core0 xf).curC ∧ q.st ≠ 2) ∧ BitVec.toNat { val := 128#32 : PWord }.val < 65536 ∧ { val := 128#32 : PWord }.poi = false ∧ Access a (BitVec.toNat a.val) 16 16 6291456)
    ∧ (let ring : Chan := sget { : Chan } (at0 core0 xf).here.chans (5#8).toNat; let a : PWord := (at0 core0 xf).core.bank.areg (3#4).toNat; readS (4#6) (at0 core0 xf) = Except.ok ({ : PWord }, at0 core0 xf) ∧ (ring.rv = true ∧ ring.mode = 0 ∧ ring.rcore = (at0 core0 xf).curC ∧ BitVec.toNat { : PWord }.val % 64 = 0 ∧ BitVec.toNat { : PWord }.val ≤ ring.u ∧ { : PWord }.poi = false) ∧ (have q := sget { : CqE } (at0 core0 xf).here.cq (7#8).toNat; q.v = true ∧ 1 ≤ q.kind ∧ q.kind ≤ 3 ∧ q.core = (at0 core0 xf).curC ∧ q.st ≠ 2) ∧ BitVec.toNat { : PWord }.val < 65536 ∧ { : PWord }.poi = false ∧ Access a (BitVec.toNat a.val) 16 16 6291456)
    ∧ (let ring : Chan := sget { : Chan } s0.here.chans (5#8).toNat; let a1 : PWord := s0.core.bank.areg (3#4).toNat; let n : Nat := BitVec.toNat { val := 128#32 : PWord }.val; let a : PWord := s0.core.bank.areg (3#4).toNat; readS (1#6) s0 = Except.ok ({ val := 7#32 : PWord }, s0) ∧ (¬(ring.rv = true ∧ ring.mode = 0 ∧ ring.rcore = s0.curC ∧ BitVec.toNat { val := 7#32 : PWord }.val % 64 = 0 ∧ BitVec.toNat { val := 7#32 : PWord }.val ≤ ring.u ∧ { val := 7#32 : PWord }.poi = false)) ∧ ((¬have q := sget { : CqE } s0.here.cq (7#8).toNat; q.v = true ∧ 1 ≤ q.kind ∧ q.kind ≤ 3 ∧ q.core = s0.curC ∧ q.st ≠ 2) ∨ 65536 ≤ BitVec.toNat { val := 7#32 : PWord }.val ∨ { val := 7#32 : PWord }.poi = true) ∧ (¬have q := sget { : CqE } s0.here.cq (7#8).toNat; q.v = true ∧ 1 ≤ q.kind ∧ q.kind ≤ 3 ∧ q.core = s0.curC ∧ q.st ≠ 2) ∧ readS (5#6) s0 = Except.ok ({ val := 128#32 : PWord }, s0) ∧ { val := 7#32 : PWord }.poi = false ∧ (¬{ val := 7#32 : PWord }.val ∈ s0.here.sideBids) ∧ s0.here.sideBids.length < 256 ∧ n % 64 = 0 ∧ 64 ≤ n ∧ n ≤ 32768 ∧ Access a1 (BitVec.toNat a1.val) n 64 6291456 ∧ { val := 128#32 : PWord }.poi = false ∧ ({ val := 7#32 : PWord }.poi = true ∨ ¬{ val := 7#32 : PWord }.val ∈ s0.here.sideBids) ∧ Access a (BitVec.toNat a.val) 16 16 6291456)
    ∧ (let ring : Chan := sget { : Chan } (at0 core0 xg).here.chans (5#8).toNat; let a : PWord := (at0 core0 xg).core.bank.areg (3#4).toNat; readS (1#6) (at0 core0 xg) = Except.ok ({ val := 7#32 : PWord }, at0 core0 xg) ∧ (¬(ring.rv = true ∧ ring.mode = 0 ∧ ring.rcore = (at0 core0 xg).curC ∧ BitVec.toNat { val := 7#32 : PWord }.val % 64 = 0 ∧ BitVec.toNat { val := 7#32 : PWord }.val ≤ ring.u ∧ { val := 7#32 : PWord }.poi = false)) ∧ ((¬have q := sget { : CqE } (at0 core0 xg).here.cq (7#8).toNat; q.v = true ∧ 1 ≤ q.kind ∧ q.kind ≤ 3 ∧ q.core = (at0 core0 xg).curC ∧ q.st ≠ 2) ∨ 65536 ≤ BitVec.toNat { val := 7#32 : PWord }.val ∨ { val := 7#32 : PWord }.poi = true) ∧ (¬have q := sget { : CqE } (at0 core0 xg).here.cq (7#8).toNat; q.v = true ∧ 1 ≤ q.kind ∧ q.kind ≤ 3 ∧ q.core = (at0 core0 xg).curC ∧ q.st ≠ 2) ∧ readS (5#6) (at0 core0 xg) = Except.ok ({ val := 128#32 : PWord }, at0 core0 xg) ∧ ({ val := 7#32 : PWord }.poi = true ∨ { val := 7#32 : PWord }.val ∈ (at0 core0 xg).here.sideBids ∨ 256 ≤ (at0 core0 xg).here.sideBids.length) ∧ { val := 7#32 : PWord }.poi = false ∧ { val := 7#32 : PWord }.val ∈ (at0 core0 xg).here.sideBids ∧ Access a (BitVec.toNat a.val) 16 16 6291456)
    ∧ (let ring : Chan := sget { : Chan } s0.here.chans (5#8).toNat; let a : PWord := s0.core.bank.areg (3#4).toNat; readS (3#6) s0 = Except.ok ({ val := 5#32, poi := true : PWord }, s0) ∧ (¬(ring.rv = true ∧ ring.mode = 0 ∧ ring.rcore = s0.curC ∧ BitVec.toNat { val := 5#32, poi := true : PWord }.val % 64 = 0 ∧ BitVec.toNat { val := 5#32, poi := true : PWord }.val ≤ ring.u ∧ { val := 5#32, poi := true : PWord }.poi = false)) ∧ ((¬have q := sget { : CqE } s0.here.cq (7#8).toNat; q.v = true ∧ 1 ≤ q.kind ∧ q.kind ≤ 3 ∧ q.core = s0.curC ∧ q.st ≠ 2) ∨ 65536 ≤ BitVec.toNat { val := 5#32, poi := true : PWord }.val ∨ { val := 5#32, poi := true : PWord }.poi = true) ∧ (¬have q := sget { : CqE } s0.here.cq (7#8).toNat; q.v = true ∧ 1 ≤ q.kind ∧ q.kind ≤ 3 ∧ q.core = s0.curC ∧ q.st ≠ 2) ∧ readS (5#6) s0 = Except.ok ({ val := 128#32 : PWord }, s0) ∧ ({ val := 5#32, poi := true : PWord }.poi = true ∨ { val := 5#32, poi := true : PWord }.val ∈ s0.here.sideBids ∨ 256 ≤ s0.here.sideBids.length) ∧ ({ val := 5#32, poi := true : PWord }.poi = true ∨ ¬{ val := 5#32, poi := true : PWord }.val ∈ s0.here.sideBids) ∧ Access a (BitVec.toNat a.val) 16 16 6291456) := by
  and_intros <;> first | exact name_none | decide +kernel | exact rfl
theorem witness_RoutesBarriersAndWork :
    (let res : Word := if { : PWord }.val = 0#32 then 4294967280#32 else match BitVec.toNat { : PWord }.val % 4 with | 0 => 7#32 | 1 => 65535#32 | 2 => 2147483655#32 | _ => 4294967040#32; let valid : Bool := (sget (0#32) s0.here.barE (64 * s0.curC + (3#6).toNat)).getLsbD 31; let st : Nat := sget 0 s0.core.bars (3#6).toNat; readS (0#6) s0 = Except.ok ({ : PWord }, s0) ∧ readS (4#6) s0 = Except.ok ({ : PWord }, s0) ∧ ({ : PWord }.poi = false ∧ { : PWord }.poi = false ∧ ({ : PWord }.val = 0#32 ∨ 256 ≤ BitVec.toNat { : PWord }.val ∧ BitVec.toNat { : PWord }.val ≤ 511) ∧ { : PWord }.val &&& res = 0#32) ∧ (valid = false ∨ st ≠ 0) ∧ valid = false)
    ∧ (let res : Word := if { val := 511#32 : PWord }.val = 0#32 then 4294967280#32 else match BitVec.toNat { val := 511#32 : PWord }.val % 4 with | 0 => 7#32 | 1 => 65535#32 | 2 => 2147483655#32 | _ => 4294967040#32; let valid : Bool := (sget (0#32) sr.here.barE (64 * sr.curC + (3#6).toNat)).getLsbD 31; let st : Nat := sget 0 sr.core.bars (3#6).toNat; readS (1#6) sr = Except.ok ({ val := 511#32 : PWord }, sr) ∧ readS (2#6) sr = Except.ok ({ val := 255#32 : PWord }, sr) ∧ ({ val := 511#32 : PWord }.poi = false ∧ { val := 255#32 : PWord }.poi = false ∧ ({ val := 511#32 : PWord }.val = 0#32 ∨ 256 ≤ BitVec.toNat { val := 511#32 : PWord }.val ∧ BitVec.toNat { val := 511#32 : PWord }.val ≤ 511) ∧ { val := 255#32 : PWord }.val &&& res = 0#32) ∧ valid = true ∧ st = 0)
    ∧ (let res : Word := if { val := 511#32 : PWord }.val = 0#32 then 4294967280#32 else match BitVec.toNat { val := 511#32 : PWord }.val % 4 with | 0 => 7#32 | 1 => 65535#32 | 2 => 2147483655#32 | _ => 4294967040#32; let valid : Bool := (sget (0#32) sr.here.barE (64 * sr.curC + (3#6).toNat)).getLsbD 31; let st : Nat := sget 0 sr.core.bars (3#6).toNat; readS (1#6) sr = Except.ok ({ val := 511#32 : PWord }, sr) ∧ readS (3#6) sr = Except.ok ({ val := 2147483655#32 : PWord }, sr) ∧ (¬({ val := 511#32 : PWord }.poi = false ∧ { val := 2147483655#32 : PWord }.poi = false ∧ ({ val := 511#32 : PWord }.val = 0#32 ∨ 256 ≤ BitVec.toNat { val := 511#32 : PWord }.val ∧ BitVec.toNat { val := 511#32 : PWord }.val ≤ 511) ∧ { val := 2147483655#32 : PWord }.val &&& res = 0#32)) ∧ valid = true ∧ st = 0)
    ∧ (let res : Word := if { val := 7#32 : PWord }.val = 0#32 then 4294967280#32 else match BitVec.toNat { val := 7#32 : PWord }.val % 4 with | 0 => 7#32 | 1 => 65535#32 | 2 => 2147483655#32 | _ => 4294967040#32; let valid : Bool := (sget (0#32) (sb 1).here.barE (64 * (sb 1).curC + (3#6).toNat)).getLsbD 31; let st : Nat := sget 0 (sb 1).core.bars (3#6).toNat; readS (1#6) (sb 1) = Except.ok ({ val := 7#32 : PWord }, sb 1) ∧ readS (2#6) (sb 1) = Except.ok ({ val := 4294967280#32 : PWord }, sb 1) ∧ (¬({ val := 7#32 : PWord }.poi = false ∧ { val := 4294967280#32 : PWord }.poi = false ∧ ({ val := 7#32 : PWord }.val = 0#32 ∨ 256 ≤ BitVec.toNat { val := 7#32 : PWord }.val ∧ BitVec.toNat { val := 7#32 : PWord }.val ≤ 511) ∧ { val := 4294967280#32 : PWord }.val &&& res = 0#32)) ∧ valid = true ∧ st = 1 ∧ (valid = false ∨ st ≠ 0))
    ∧ (let res : Word := if { val := 7#32 : PWord }.val = 0#32 then 4294967280#32 else match BitVec.toNat { val := 7#32 : PWord }.val % 4 with | 0 => 7#32 | 1 => 65535#32 | 2 => 2147483655#32 | _ => 4294967040#32; let valid : Bool := (sget (0#32) (sb 2).here.barE (64 * (sb 2).curC + (3#6).toNat)).getLsbD 31; let st : Nat := sget 0 (sb 2).core.bars (3#6).toNat; readS (1#6) (sb 2) = Except.ok ({ val := 7#32 : PWord }, sb 2) ∧ readS (2#6) (sb 2) = Except.ok ({ val := 4294967280#32 : PWord }, sb 2) ∧ (¬({ val := 7#32 : PWord }.poi = false ∧ { val := 4294967280#32 : PWord }.poi = false ∧ ({ val := 7#32 : PWord }.val = 0#32 ∨ 256 ≤ BitVec.toNat { val := 7#32 : PWord }.val ∧ BitVec.toNat { val := 7#32 : PWord }.val ≤ 511) ∧ { val := 4294967280#32 : PWord }.val &&& res = 0#32)) ∧ valid = true ∧ 2 ≤ st ∧ (valid = false ∨ st ≠ 0))
    ∧ (let i : Nat := BitVec.toNat w1.core.wnext; let w : Nat := BitVec.toNat w1.core.wcfg % 65536 + 1; i < BitVec.toNat w1.core.wlim ∧ i / w ≤ 65534)
    ∧ (let i : Nat := BitVec.toNat w2.core.wnext; let w : Nat := BitVec.toNat w2.core.wcfg % 65536 + 1; (BitVec.toNat w2.core.wlim ≤ i ∨ 65535 ≤ i / w))
    ∧ (let i : Nat := BitVec.toNat w3.core.wnext; let w : Nat := BitVec.toNat w3.core.wcfg % 65536 + 1; i < BitVec.toNat w3.core.wlim ∧ i / w ≤ 65534)
    ∧ (let i : Nat := BitVec.toNat w4.core.wnext; let w : Nat := BitVec.toNat w4.core.wcfg % 65536 + 1; (BitVec.toNat w4.core.wlim ≤ i ∨ 65535 ≤ i / w)) := by
  and_intros <;> first | exact name_none | decide +kernel | exact rfl
theorem witness_TransfersAndReturns :
    (let next : Nat := ((sw core0).core.pc + 4 * (sw core0).words.length) % 2 ^ 24; let x : PBit := (sw core0).core.bank.preg (1#3).toNat; (∀ (l : LoopE), (sw core0).core.inner = some l → l.stop ≠ next ∧ l.start ≤ (BitVec.ofNat 24 (sw core0).core.pc + 4#24 * BitVec.signExtend 24 16777213#24).toNat ∧ (BitVec.ofNat 24 (sw core0).core.pc + 4#24 * BitVec.signExtend 24 16777213#24).toNat < l.stop) ∧ x.poi = false ∧ x.val = true ∧ (sw core0).leaf = none ∧ (sw core0).core.calls.length < 16 ∧ (∀ (l : LoopE), (sw core0).core.inner = some l → l.stop ≠ next))
    ∧ (let next : Nat := (w5.core.pc + 4 * w5.words.length) % 2 ^ 24; let x : PBit := w5.core.bank.preg (1#3).toNat; (∀ (l : LoopE), w5.core.inner = some l → l.stop ≠ next ∧ l.start ≤ (BitVec.ofNat 24 w5.core.pc + 4#24 * BitVec.signExtend 24 7#24).toNat ∧ (BitVec.ofNat 24 w5.core.pc + 4#24 * BitVec.signExtend 24 7#24).toNat < l.stop) ∧ x.poi = false ∧ x.val ≠ false ∧ w5.leaf = none ∧ w5.core.calls.length < 16 ∧ (∀ (l : LoopE), w5.core.inner = some l → l.stop ≠ next))
    ∧ (let next : Nat := (w5.core.pc + 4 * w5.words.length) % 2 ^ 24; let x : PBit := w5.core.bank.preg (1#3).toNat; (w5.core.inner = some lp ∧ (lp.stop = next ∨ (BitVec.ofNat 24 w5.core.pc + 4#24 * BitVec.signExtend 24 8#24).toNat < lp.start ∨ lp.stop ≤ (BitVec.ofNat 24 w5.core.pc + 4#24 * BitVec.signExtend 24 8#24).toNat)) ∧ x.val ≠ false ∧ w5.leaf = none ∧ w5.core.calls.length < 16 ∧ (∀ (l : LoopE), w5.core.inner = some l → l.stop ≠ next))
    ∧ (let next : Nat := (w5.core.pc + 4 * w5.words.length) % 2 ^ 24; let x : PBit := w5.core.bank.preg (3#3).toNat; (w5.core.inner = some lp ∧ (lp.stop = next ∨ (BitVec.ofNat 24 w5.core.pc + 4#24 * BitVec.signExtend 24 16777215#24).toNat < lp.start ∨ lp.stop ≤ (BitVec.ofNat 24 w5.core.pc + 4#24 * BitVec.signExtend 24 16777215#24).toNat)) ∧ x.val ≠ true ∧ w5.leaf = none ∧ w5.core.calls.length < 16 ∧ (∀ (l : LoopE), w5.core.inner = some l → l.stop ≠ next))
    ∧ (let next : Nat := (w6.core.pc + 4 * w6.words.length) % 2 ^ 24; let x : PBit := w6.core.bank.preg (2#3).toNat; (∀ (l : LoopE), w6.core.inner = some l → l.stop ≠ next ∧ l.start ≤ (BitVec.ofNat 24 w6.core.pc + 4#24 * BitVec.signExtend 24 0#24).toNat ∧ (BitVec.ofNat 24 w6.core.pc + 4#24 * BitVec.signExtend 24 0#24).toNat < l.stop) ∧ x.poi = false ∧ x.val ≠ true ∧ w6.leaf = none ∧ 16 ≤ w6.core.calls.length)
    ∧ (let next : Nat := (w7.core.pc + 4 * w7.words.length) % 2 ^ 24; let x : PBit := w7.core.bank.preg (2#3).toNat; (∀ (l : LoopE), w7.core.inner = some l → l.stop ≠ next ∧ l.start ≤ (BitVec.ofNat 24 w7.core.pc + 4#24 * BitVec.signExtend 24 0#24).toNat ∧ (BitVec.ofNat 24 w7.core.pc + 4#24 * BitVec.signExtend 24 0#24).toNat < l.stop) ∧ x.poi = false ∧ x.val ≠ true ∧ w7.leaf = none ∧ w7.core.calls.length < 16 ∧ (∀ (l : LoopE), w7.core.inner = some l → l.stop ≠ next))
    ∧ (let next : Nat := (stt.core.pc + 4 * stt.words.length) % 2 ^ 24; let x : PBit := stt.core.bank.preg (2#3).toNat; (∀ (l : LoopE), stt.core.inner = some l → l.stop ≠ next ∧ l.start ≤ (BitVec.ofNat 24 stt.core.pc + 4#24 * BitVec.signExtend 24 4#24).toNat ∧ (BitVec.ofNat 24 stt.core.pc + 4#24 * BitVec.signExtend 24 4#24).toNat < l.stop) ∧ x.poi = false ∧ x.val ≠ true ∧ stt.leaf = some 4 ∧ treeTarget stt.here stt.core.inMon stt.slot (BitVec.ofNat 24 stt.core.pc + 4#24 * BitVec.signExtend 24 16#21).toNat 4 = Except.ok 20544 ∧ (∀ (l : LoopE), stt.core.inner = some l → l.stop ≠ next ∧ l.start ≤ 20544 ∧ 20544 < l.stop) ∧ stt.core.calls.length < 16 ∧ (∀ (l : LoopE), stt.core.inner = some l → l.stop ≠ next))
    ∧ (let loops : Nat := w8.core.loops.length; w8.core.calls = [(8192, 1)] ∧ (w8.core.inMon = true → 1000 ≤ 1) ∧ loops ≤ 1 % 1000 ∧ (∀ (k : Nat), 16 ≤ k → k < 28 → (w8.core.token k).infl = 0))
    ∧ (let loops : Nat := w9.core.loops.length; w9.core.calls = [(8192, 0)] ∧ (w9.core.inMon = true → 1000 ≤ 0) ∧ 0 % 1000 < loops)
    ∧ (let loops : Nat := w10.core.loops.length; w10.core.calls = [(8192, 1000)] ∧ (w10.core.inMon = true → 1000 ≤ 1000) ∧ loops ≤ 1000 % 1000 ∧ (∀ (k : Nat), 16 ≤ k → k < 28 → (w10.core.token k).infl = 0))
    ∧ (let next : Nat := (w26.core.pc + 4 * w26.words.length) % 2 ^ 24; let x : PBit := w26.core.bank.preg (2#3).toNat; (w26.core.inner = some ({ lp with stop := 4100 : LoopE }) ∧ (({ lp with stop := 4100 : LoopE }).stop = next ∨ (BitVec.ofNat 24 w26.core.pc + 4#24 * BitVec.signExtend 24 0#24).toNat < ({ lp with stop := 4100 : LoopE }).start ∨ ({ lp with stop := 4100 : LoopE }).stop ≤ (BitVec.ofNat 24 w26.core.pc + 4#24 * BitVec.signExtend 24 0#24).toNat)) ∧ x.val ≠ true ∧ w26.leaf = none ∧ w26.core.calls.length < 16 ∧ w26.core.inner = some ({ lp with stop := 4100 : LoopE }) ∧ ({ lp with stop := 4100 : LoopE }).stop = next)
    ∧ (let next : Nat := (w27.core.pc + 4 * w27.words.length) % 2 ^ 24; let x : PBit := w27.core.bank.preg (3#3).toNat; (w27.core.inner = some ({ lp with stop := 4112 : LoopE }) ∧ (({ lp with stop := 4112 : LoopE }).stop = next ∨ (BitVec.ofNat 24 w27.core.pc + 4#24 * BitVec.signExtend 24 16#24).toNat < ({ lp with stop := 4112 : LoopE }).start ∨ ({ lp with stop := 4112 : LoopE }).stop ≤ (BitVec.ofNat 24 w27.core.pc + 4#24 * BitVec.signExtend 24 16#24).toNat)) ∧ x.poi = true ∧ (x.val = false ∨ ∀ (l : LoopE), w27.core.inner = some l → l.stop ≠ next ∧ l.start ≤ (BitVec.ofNat 24 w27.core.pc + 4#24 * BitVec.signExtend 24 16#24).toNat ∧ (BitVec.ofNat 24 w27.core.pc + 4#24 * BitVec.signExtend 24 16#24).toNat < l.stop) ∧ w27.leaf = none ∧ w27.core.calls.length < 16 ∧ (∀ (l : LoopE), w27.core.inner = some l → l.stop ≠ next))
    ∧ (let next : Nat := (w27.core.pc + 4 * w27.words.length) % 2 ^ 24; let x : PBit := w27.core.bank.preg (3#3).toNat; (w27.core.inner = some ({ lp with stop := 4112 : LoopE }) ∧ (({ lp with stop := 4112 : LoopE }).stop = next ∨ (BitVec.ofNat 24 w27.core.pc + 4#24 * BitVec.signExtend 24 16#24).toNat < ({ lp with stop := 4112 : LoopE }).start ∨ ({ lp with stop := 4112 : LoopE }).stop ≤ (BitVec.ofNat 24 w27.core.pc + 4#24 * BitVec.signExtend 24 16#24).toNat)) ∧ x.val ≠ true ∧ w27.leaf = none ∧ w27.core.calls.length < 16 ∧ (∀ (l : LoopE), w27.core.inner = some l → l.stop ≠ next))
    ∧ (let next : Nat := (w28.core.pc + 4 * w28.words.length) % 2 ^ 24; let x : PBit := w28.core.bank.preg (2#3).toNat; (∀ (l : LoopE), w28.core.inner = some l → l.stop ≠ next ∧ l.start ≤ (BitVec.ofNat 24 w28.core.pc + 4#24 * BitVec.signExtend 24 4#24).toNat ∧ (BitVec.ofNat 24 w28.core.pc + 4#24 * BitVec.signExtend 24 4#24).toNat < l.stop) ∧ x.poi = false ∧ x.val ≠ true ∧ w28.leaf = some 4 ∧ treeTarget w28.here w28.core.inMon w28.slot (BitVec.ofNat 24 w28.core.pc + 4#24 * BitVec.signExtend 24 16#21).toNat 4 = Except.ok 20544 ∧ (w28.core.inner = some lp ∧ (lp.stop = next ∨ 20544 < lp.start ∨ lp.stop ≤ 20544)) ∧ w28.core.calls.length < 16 ∧ (∀ (l : LoopE), w28.core.inner = some l → l.stop ≠ next))
    ∧ (w30.core.calls = [(8192, 1)] ∧ w30.core.inMon = true ∧ 1 < 1000) := by
  and_intros <;> first | exact name_none | decide +kernel | exact rfl | (refine ball ?_; decide +kernel)
theorem witness_Loops :
    (let count : Nat := BitVec.toNat { val := 7#32 : PWord }.val; let q : PBit := s0.core.bank.preg (2#3).toNat; readS (1#6) s0 = Except.ok ({ val := 7#32 : PWord }, s0) ∧ count ≠ 0 ∧ count ≤ (7#14).toNat ∧ { val := 7#32 : PWord }.poi = false ∧ s0.core.loops.length < 6 ∧ q.poi = false ∧ q.val ≠ true ∧ s0.core.inner = none)
    ∧ (let count : Nat := BitVec.toNat { : PWord }.val; let q : PBit := s0.core.bank.preg (2#3).toNat; readS (0#6) s0 = Except.ok ({ : PWord }, s0) ∧ count = 0 ∧ { : PWord }.poi = false ∧ q.poi = false ∧ q.val = false ∧ s0.core.inner = none)
    ∧ (let count : Nat := BitVec.toNat { val := 7#32 : PWord }.val; let q : PBit := s0.core.bank.preg (1#3).toNat; readS (1#6) s0 = Except.ok ({ val := 7#32 : PWord }, s0) ∧ Instr.loop 1#6 4#10 6#14 ∈ [Instr.loop 1#6 4#10 6#14, Instr.loopP 1#6 4#10 6#14] ∧ (6#14).toNat < count ∧ s0.core.loops.length < 6 ∧ Instr.loopP 1#6 4#10 6#14 ∈ [Instr.loop 1#6 4#10 6#14, Instr.loopP 1#6 4#10 6#14] ∧ q.poi = false ∧ q.val ≠ false ∧ s0.core.inner = none)
    ∧ (let count : Nat := BitVec.toNat { val := 7#32 : PWord }.val; let q : PBit := w11.core.bank.preg (1#3).toNat; readS (1#6) w11 = Except.ok ({ val := 7#32 : PWord }, w11) ∧ Instr.loop 1#6 4#10 7#14 ∈ [Instr.loop 1#6 4#10 7#14, Instr.loopP 1#6 4#10 7#14] ∧ count ≠ 0 ∧ 6 ≤ w11.core.loops.length ∧ Instr.loopP 1#6 4#10 7#14 ∈ [Instr.loop 1#6 4#10 7#14, Instr.loopP 1#6 4#10 7#14] ∧ q.val ≠ false ∧ w11.core.inner = some lp ∧ q.poi = false)
    ∧ (let count : Nat := BitVec.toNat { val := 7#32 : PWord }.val; let q : PBit := w12.core.bank.preg (1#3).toNat; readS (1#6) w12 = Except.ok ({ val := 7#32 : PWord }, w12) ∧ count ≠ 0 ∧ count ≤ (7#14).toNat ∧ { val := 7#32 : PWord }.poi = false ∧ w12.core.loops.length < 6 ∧ q.poi = false ∧ q.val = true ∧ w12.core.inner = some lp)
    ∧ (let count : Nat := BitVec.toNat { val := 5#32, poi := true : PWord }.val; let q : PBit := s0.core.bank.preg (3#3).toNat; readS (3#6) s0 = Except.ok ({ val := 5#32, poi := true : PWord }, s0) ∧ Instr.loop 3#6 4#10 7#14 ∈ [Instr.loop 3#6 4#10 7#14, Instr.loopP 3#6 4#10 7#14] ∧ { val := 5#32, poi := true : PWord }.poi = true ∧ count ≤ (7#14).toNat ∧ (count = 0 ∨ s0.core.loops.length < 6) ∧ Instr.loopP 3#6 4#10 7#14 ∈ [Instr.loop 3#6 4#10 7#14, Instr.loopP 3#6 4#10 7#14] ∧ q.poi = true ∧ (q.val = true ∨ s0.core.loops.length < 6) ∧ s0.core.inner = none)
    ∧ (let count : Nat := BitVec.toNat { val := 5#32, poi := true : PWord }.val; let q : PBit := s0.core.bank.preg (3#3).toNat; readS (3#6) s0 = Except.ok ({ val := 5#32, poi := true : PWord }, s0) ∧ Instr.loop 3#6 4#10 3#14 ∈ [Instr.loop 3#6 4#10 3#14, Instr.loopP 3#6 4#10 3#14] ∧ (3#14).toNat < count ∧ s0.core.loops.length < 6 ∧ Instr.loopP 3#6 4#10 3#14 ∈ [Instr.loop 3#6 4#10 3#14, Instr.loopP 3#6 4#10 3#14] ∧ q.poi = true ∧ (q.val = false ∨ s0.core.loops.length < 6) ∧ s0.core.inner = none)
    ∧ (let count : Nat := BitVec.toNat { val := 5#32, poi := true : PWord }.val; let q : PBit := s6.core.bank.preg (3#3).toNat; readS (3#6) s6 = Except.ok ({ val := 5#32, poi := true : PWord }, s6) ∧ Instr.loop 3#6 4#10 7#14 ∈ [Instr.loop 3#6 4#10 7#14, Instr.loopP 3#6 4#10 7#14] ∧ count ≠ 0 ∧ 6 ≤ s6.core.loops.length ∧ Instr.loopP 3#6 4#10 7#14 ∈ [Instr.loop 3#6 4#10 7#14, Instr.loopP 3#6 4#10 7#14] ∧ q.val ≠ true ∧ s6.core.inner = some lp ∧ q.poi = true)
    ∧ (let count : Nat := BitVec.toNat { val := 5#32, poi := true : PWord }.val; let q : PBit := s6.core.bank.preg (3#3).toNat; readS (3#6) s6 = Except.ok ({ val := 5#32, poi := true : PWord }, s6) ∧ Instr.loop 3#6 4#10 7#14 ∈ [Instr.loop 3#6 4#10 7#14, Instr.loopP 3#6 4#10 7#14] ∧ count ≠ 0 ∧ 6 ≤ s6.core.loops.length ∧ Instr.loopP 3#6 4#10 7#14 ∈ [Instr.loop 3#6 4#10 7#14, Instr.loopP 3#6 4#10 7#14] ∧ q.poi = true ∧ (q.val = false ∨ s6.core.loops.length < 6) ∧ s6.core.inner = some lp)
    ∧ (let count : Nat := BitVec.toNat { val := 7#32 : PWord }.val; let q : PBit := s6.core.bank.preg (1#3).toNat; readS (1#6) s6 = Except.ok ({ val := 7#32 : PWord }, s6) ∧ Instr.loop 1#6 4#10 7#14 ∈ [Instr.loop 1#6 4#10 7#14, Instr.loopP 1#6 4#10 7#14] ∧ count ≠ 0 ∧ 6 ≤ s6.core.loops.length ∧ Instr.loopP 1#6 4#10 7#14 ∈ [Instr.loop 1#6 4#10 7#14, Instr.loopP 1#6 4#10 7#14] ∧ q.val ≠ false ∧ s6.core.inner = some lp ∧ q.poi = false)
    ∧ (let count : Nat := BitVec.toNat { val := 7#32 : PWord }.val; let q : PBit := s6.core.bank.preg (1#3).toNat; readS (1#6) s6 = Except.ok ({ val := 7#32 : PWord }, s6) ∧ Instr.loop 1#6 4#10 7#14 ∈ [Instr.loop 1#6 4#10 7#14, Instr.loopP 1#6 4#10 7#14] ∧ count ≠ 0 ∧ 6 ≤ s6.core.loops.length ∧ Instr.loopP 1#6 4#10 7#14 ∈ [Instr.loop 1#6 4#10 7#14, Instr.loopP 1#6 4#10 7#14] ∧ q.poi = false ∧ q.val = true ∧ s6.core.inner = some lp)
    ∧ (let count : Nat := BitVec.toNat { poi := true : PWord }.val; let q : PBit := w32.core.bank.preg (1#3).toNat; readS (1#6) w32 = Except.ok ({ poi := true : PWord }, w32) ∧ Instr.loop 1#6 4#10 7#14 ∈ [Instr.loop 1#6 4#10 7#14, Instr.loopP 1#6 4#10 7#14] ∧ { poi := true : PWord }.poi = true ∧ count ≤ (7#14).toNat ∧ (count = 0 ∨ w32.core.loops.length < 6) ∧ Instr.loopP 1#6 4#10 7#14 ∈ [Instr.loop 1#6 4#10 7#14, Instr.loopP 1#6 4#10 7#14] ∧ q.poi = false ∧ q.val = true ∧ w32.core.inner = none) := by
  and_intros <;> first | exact name_none | decide +kernel | exact rfl
theorem witness_BundleControl :
    (let t : Token := (sw core0).core.token (4#5).toNat; let leaf : Nat := if (fun n p ↦ ((sw core0).core.bank.preg p.toNat).val != n) false 2#3 = true then 0 else if (fun n p ↦ ((sw core0).core.bank.preg p.toNat).val != n) true 1#3 = true then 1 else if (fun n p ↦ ((sw core0).core.bank.preg p.toNat).val != n) false 1#3 = true then 2 else if (fun n p ↦ ((sw core0).core.bank.preg p.toNat).val != n) true 0#3 = true then 3 else 4; (t.errn = 0 ∨ t.arr < (3#16).toNat) ∧ (∀ (j : Nat), j < 32 → ((sw core0).core.token j).infl ≤ (List.filter (fun r ↦ r.fst == (sw core0).curC && r.snd == j) (sw core0).here.leaseReq).length) ∧ (∀ (j : Nat × BitVec 3), j ∈ [(0, 2#3), (1, 1#3), (2, 1#3), (3, 0#3)] → j.fst ≤ leaf → ((sw core0).core.bank.preg j.snd.toNat).poi = false) ∧ (sw core0).raised = none ∧ (sw core0).leaf = none ∧ (sw core0).core.pastLoop [0#32].length = none)
    ∧ (let t : Token := w13.core.token (4#5).toNat; t.errn ≠ 0 ∧ (3#16).toNat ≤ t.arr ∧ (w13.core.bank.preg (3#3).toNat).poi = true ∧ Instr.wait 4#5 3#16 ∈ [Instr.wait 4#5 3#16, Instr.barWait 3#6, Instr.send 5#8 3#4 2#9 0#9, Instr.sendRel 5#8 3#4 2#9 0#9, Instr.sendM 6#6 3#4 2#9 0#9])
    ∧ (let t : Token := w14.core.token (4#5).toNat; let leaf : Nat := if (fun n p ↦ (w14.core.bank.preg p.toNat).val != n) false 2#3 = true then 0 else if (fun n p ↦ (w14.core.bank.preg p.toNat).val != n) true 1#3 = true then 1 else if (fun n p ↦ (w14.core.bank.preg p.toNat).val != n) false 1#3 = true then 2 else if (fun n p ↦ (w14.core.bank.preg p.toNat).val != n) true 3#3 = true then 3 else 4; (t.errn = 0 ∨ t.arr < (3#16).toNat) ∧ (∀ (j : Nat × BitVec 3), j ∈ [(0, 2#3), (1, 1#3), (2, 1#3), (3, 3#3)] → j.fst ≤ leaf → (w14.core.bank.preg j.snd.toNat).poi = false) ∧ w14.raised = none ∧ w14.leaf = none ∧ w14.core.pastLoop [0#32].length = none)
    ∧ (let t : Token := swc.core.token (4#5).toNat; let leaf : Nat := if (fun n p ↦ (swc.core.bank.preg p.toNat).val != n) false 2#3 = true then 0 else if (fun n p ↦ (swc.core.bank.preg p.toNat).val != n) true 1#3 = true then 1 else if (fun n p ↦ (swc.core.bank.preg p.toNat).val != n) false 1#3 = true then 2 else if (fun n p ↦ (swc.core.bank.preg p.toNat).val != n) true 0#3 = true then 3 else 4; (t.errn = 0 ∨ t.arr < (3#16).toNat) ∧ (∀ (j : Nat), j < 32 → (swc.core.token j).infl ≤ (List.filter (fun r ↦ r.fst == swc.curC && r.snd == j) swc.here.leaseReq).length) ∧ (∀ (j : Nat × BitVec 3), j ∈ [(0, 2#3), (1, 1#3), (2, 1#3), (3, 0#3)] → j.fst ≤ leaf → (swc.core.bank.preg j.snd.toNat).poi = false) ∧ swc.raised = none ∧ swc.leaf = none ∧ swc.core.pastLoop [0#32].length = none)
    ∧ (let t : Token := swc.core.token (4#5).toNat; let leaf : Nat := if (fun n p ↦ (swc.core.bank.preg p.toNat).val != n) false 2#3 = true then 0 else if (fun n p ↦ (swc.core.bank.preg p.toNat).val != n) true 1#3 = true then 1 else if (fun n p ↦ (swc.core.bank.preg p.toNat).val != n) false 1#3 = true then 2 else if (fun n p ↦ (swc.core.bank.preg p.toNat).val != n) true 0#3 = true then 3 else 4; (t.errn = 0 ∨ t.arr < (3#16).toNat) ∧ (∀ (j : Nat), j < 32 → (swc.core.token j).infl ≤ (List.filter (fun r ↦ r.fst == swc.curC && r.snd == j) swc.here.leaseReq).length) ∧ (∀ (j : Nat × BitVec 3), j ∈ [(0, 2#3), (1, 1#3), (2, 1#3), (3, 0#3)] → j.fst ≤ leaf → (swc.core.bank.preg j.snd.toNat).poi = false) ∧ Instr.sendRel 5#8 3#4 1#9 0#9 ∈ [Instr.wait 4#5 3#16, Instr.barWait 3#6, Instr.send 5#8 3#4 1#9 0#9, Instr.sendRel 5#8 3#4 1#9 0#9, Instr.sendM 6#6 3#4 1#9 0#9])
    ∧ (let t : Token := swc.core.token (4#5).toNat; let leaf : Nat := if (fun n p ↦ (swc.core.bank.preg p.toNat).val != n) false 2#3 = true then 0 else if (fun n p ↦ (swc.core.bank.preg p.toNat).val != n) true 1#3 = true then 1 else if (fun n p ↦ (swc.core.bank.preg p.toNat).val != n) false 1#3 = true then 2 else if (fun n p ↦ (swc.core.bank.preg p.toNat).val != n) true 0#3 = true then 3 else 4; (t.errn = 0 ∨ t.arr < (3#16).toNat) ∧ (∀ (j : Nat), j < 32 → (swc.core.token j).infl ≤ (List.filter (fun r ↦ r.fst == swc.curC && r.snd == j) swc.here.leaseReq).length) ∧ (∀ (j : Nat × BitVec 3), j ∈ [(0, 2#3), (1, 1#3), (2, 1#3), (3, 0#3)] → j.fst ≤ leaf → (swc.core.bank.preg j.snd.toNat).poi = false) ∧ Instr.sendM 6#6 3#4 1#9 0#9 ∈ [Instr.wait 4#5 3#16, Instr.barWait 3#6, Instr.send 5#8 3#4 1#9 0#9, Instr.sendRel 5#8 3#4 1#9 0#9, Instr.sendM 6#6 3#4 1#9 0#9])
    ∧ (let t : Token := w23.core.token (4#5).toNat; let leaf : Nat := if (fun n p ↦ (w23.core.bank.preg p.toNat).val != n) false 2#3 = true then 0 else if (fun n p ↦ (w23.core.bank.preg p.toNat).val != n) true 1#3 = true then 1 else if (fun n p ↦ (w23.core.bank.preg p.toNat).val != n) false 1#3 = true then 2 else if (fun n p ↦ (w23.core.bank.preg p.toNat).val != n) true 0#3 = true then 3 else 4; (t.errn = 0 ∨ t.arr < (3#16).toNat) ∧ (∀ (j : Nat), j < 32 → (w23.core.token j).infl ≤ (List.filter (fun r ↦ r.fst == w23.curC && r.snd == j) w23.here.leaseReq).length) ∧ (∀ (j : Nat × BitVec 3), j ∈ [(0, 2#3), (1, 1#3), (2, 1#3), (3, 0#3)] → j.fst ≤ leaf → (w23.core.bank.preg j.snd.toNat).poi = false) ∧ w23.raised = none ∧ w23.leaf = none ∧ w23.core.pastLoop [0#32].length = none)
    ∧ (let t : Token := w24.core.token (4#5).toNat; let leaf : Nat := if (fun n p ↦ (w24.core.bank.preg p.toNat).val != n) false 2#3 = true then 0 else if (fun n p ↦ (w24.core.bank.preg p.toNat).val != n) true 1#3 = true then 1 else if (fun n p ↦ (w24.core.bank.preg p.toNat).val != n) false 1#3 = true then 2 else if (fun n p ↦ (w24.core.bank.preg p.toNat).val != n) true 0#3 = true then 3 else 4; (t.errn = 0 ∨ t.arr < (3#16).toNat) ∧ (∀ (j : Nat), j < 32 → (w24.core.token j).infl ≤ (List.filter (fun r ↦ r.fst == w24.curC && r.snd == j) w24.here.leaseReq).length) ∧ (∀ (j : Nat × BitVec 3), j ∈ [(0, 2#3), (1, 1#3), (2, 1#3), (3, 0#3)] → j.fst ≤ leaf → (w24.core.bank.preg j.snd.toNat).poi = false) ∧ Instr.barWait 3#6 ∈ [Instr.wait 4#5 3#16, Instr.barWait 3#6, Instr.send 5#8 3#4 2#9 0#9, Instr.sendRel 5#8 3#4 2#9 0#9, Instr.sendM 6#6 3#4 2#9 0#9])
    ∧ (let t : Token := w25.core.token (4#5).toNat; let leaf : Nat := if (fun n p ↦ (w25.core.bank.preg p.toNat).val != n) false 2#3 = true then 0 else if (fun n p ↦ (w25.core.bank.preg p.toNat).val != n) true 1#3 = true then 1 else if (fun n p ↦ (w25.core.bank.preg p.toNat).val != n) false 1#3 = true then 2 else if (fun n p ↦ (w25.core.bank.preg p.toNat).val != n) true 0#3 = true then 3 else 4; (t.errn = 0 ∨ t.arr < (3#16).toNat) ∧ (∀ (j : Nat), j < 32 → (w25.core.token j).infl ≤ (List.filter (fun r ↦ r.fst == w25.curC && r.snd == j) w25.here.leaseReq).length) ∧ (∀ (j : Nat × BitVec 3), j ∈ [(0, 2#3), (1, 1#3), (2, 1#3), (3, 0#3)] → j.fst ≤ leaf → (w25.core.bank.preg j.snd.toNat).poi = false) ∧ w25.raised = none ∧ w25.leaf = none ∧ w25.core.pastLoop [0#32].length = none) := by
  and_intros <;> first | exact name_none | decide +kernel
theorem witness_ControlRegisters :
    (let n : Nat := (71#12).toNat; csrAssigned n = true ∧ (n < 2048 ∨ s0.core.inMon = true) ∧ csrIx n = false ∧ readS (1#6) s0 = Except.ok ({ val := 7#32 : PWord }, s0) ∧ n ≠ 96 ∧ n ≠ 2057 ∧ ({ val := 7#32 : PWord }.poi = false ∨ 16 ≤ n ∧ n ≤ 23 ∨ 32 ≤ n ∧ n ≤ 47) ∧ (64#32).toNat % 32 = 0 ∧ (64#32).toNat + 32 ≤ 6291456 ∧ s0.core.crg.length < 16)
    ∧ (let n : Nat := (2048#12).toNat; csrAssigned n = true ∧ (¬(n < 2048 ∨ s0.core.inMon = true)) ∧ csrIx n = false ∧ (64#32).toNat % 32 = 0 ∧ (64#32).toNat + 32 ≤ 6291456 ∧ s0.core.crg.length < 16)
    ∧ (let n : Nat := (7#12).toNat; csrAssigned n = false ∧ (64#32).toNat % 32 = 0 ∧ (64#32).toNat + 32 ≤ 6291456 ∧ s0.core.crg.length < 16)
    ∧ (let n : Nat := (47#12).toNat; csrAssigned n = true ∧ (n < 2048 ∨ s0.core.inMon = true) ∧ csrIx n = false ∧ readS (3#6) s0 = Except.ok ({ val := 5#32, poi := true : PWord }, s0) ∧ n ≠ 96 ∧ n ≠ 2057 ∧ ({ val := 5#32, poi := true : PWord }.poi = false ∨ 16 ≤ n ∧ n ≤ 23 ∨ 32 ≤ n ∧ n ≤ 47) ∧ (64#32).toNat % 32 = 0 ∧ (64#32).toNat + 32 ≤ 6291456 ∧ s0.core.crg.length < 16)
    ∧ (let n : Nat := (1#12).toNat; csrAssigned n = true ∧ (n < 2048 ∨ w15.core.inMon = true) ∧ csrIx n = false ∧ readS (3#6) w15 = Except.ok ({ val := 5#32, poi := true : PWord }, w15) ∧ { val := 5#32, poi := true : PWord }.poi = true ∧ (¬(16 ≤ n ∧ n ≤ 23 ∨ 32 ≤ n ∧ n ≤ 47)) ∧ (n = 96 → BitVec.toNat { val := 5#32, poi := true : PWord }.val % 32 = 0 ∧ BitVec.toNat { val := 5#32, poi := true : PWord }.val + 32 ≤ 6291456) ∧ (6291424#32).toNat % 32 = 0 ∧ (6291424#32).toNat + 32 ≤ 6291456 ∧ 16 ≤ w15.core.crg.length)
    ∧ (let n : Nat := (2062#12).toNat; csrAssigned n = true ∧ (n < 2048 ∨ sm.core.inMon = true) ∧ csrIx n = false ∧ readS (1#6) sm = Except.ok ({ val := 7#32 : PWord }, sm) ∧ n ≠ 96 ∧ n ≠ 2057 ∧ ({ val := 7#32 : PWord }.poi = false ∨ 16 ≤ n ∧ n ≤ 23 ∨ 32 ≤ n ∧ n ≤ 47) ∧ (64#32).toNat % 32 = 0 ∧ (64#32).toNat + 32 ≤ 6291456 ∧ sm.core.crg.length < 16)
    ∧ (let n : Nat := (96#12).toNat; csrAssigned n = true ∧ (n < 2048 ∨ w33.core.inMon = true) ∧ csrIx n = false ∧ readS (1#6) w33 = Except.ok ({ val := 64#32 : PWord }, w33) ∧ n = 96 ∧ Access { val := 64#32 : PWord } (BitVec.toNat { val := 64#32 : PWord }.val) 32 32 6291456 ∧ w33.core.crg.length < 16 ∧ (64#32).toNat % 32 = 0 ∧ (64#32).toNat + 32 ≤ 6291456)
    ∧ (let n : Nat := (96#12).toNat; csrAssigned n = true ∧ (n < 2048 ∨ w33.core.inMon = true) ∧ csrIx n = false ∧ readS (2#6) w33 = Except.ok ({ val := 64#32, poi := true : PWord }, w33) ∧ { val := 64#32, poi := true : PWord }.poi = true ∧ (¬(16 ≤ n ∧ n ≤ 23 ∨ 32 ≤ n ∧ n ≤ 47)) ∧ (n = 96 → BitVec.toNat { val := 64#32, poi := true : PWord }.val % 32 = 0 ∧ BitVec.toNat { val := 64#32, poi := true : PWord }.val + 32 ≤ 6291456) ∧ (64#32).toNat % 32 = 0 ∧ (64#32).toNat + 32 ≤ 6291456 ∧ w33.core.crg.length < 16)
    ∧ (let n : Nat := (2057#12).toNat; csrAssigned n = true ∧ (n < 2048 ∨ sm.core.inMon = true) ∧ csrIx n = false ∧ readS (1#6) sm = Except.ok ({ val := 7#32 : PWord }, sm) ∧ n = 2057 ∧ { val := 7#32 : PWord }.poi = false ∧ BitVec.getLsbD { val := 7#32 : PWord }.val 31 = false ∧ (64#32).toNat % 32 = 0 ∧ (64#32).toNat + 32 ≤ 6291456 ∧ sm.core.crg.length < 16)
    ∧ (let n : Nat := (2057#12).toNat; csrAssigned n = true ∧ (n < 2048 ∨ sm.core.inMon = true) ∧ csrIx n = false ∧ readS (3#6) sm = Except.ok ({ val := 5#32, poi := true : PWord }, sm) ∧ { val := 5#32, poi := true : PWord }.poi = true ∧ (¬(16 ≤ n ∧ n ≤ 23 ∨ 32 ≤ n ∧ n ≤ 47)) ∧ (n = 96 → BitVec.toNat { val := 5#32, poi := true : PWord }.val % 32 = 0 ∧ BitVec.toNat { val := 5#32, poi := true : PWord }.val + 32 ≤ 6291456) ∧ (64#32).toNat % 32 = 0 ∧ (64#32).toNat + 32 ≤ 6291456 ∧ sm.core.crg.length < 16)
    ∧ (let n : Nat := (48#12).toNat; csrAssigned n = true ∧ (n < 2048 ∨ s0.core.inMon = true) ∧ 48 ≤ n ∧ n ≤ 53 ∧ (64#32).toNat % 32 = 0 ∧ (64#32).toNat + 32 ≤ 6291456 ∧ s0.core.crg.length < 16)
    ∧ (let n : Nat := (53#12).toNat; csrAssigned n = true ∧ (n < 2048 ∨ s0.core.inMon = true) ∧ 48 ≤ n ∧ n ≤ 53 ∧ (64#32).toNat % 32 = 0 ∧ (64#32).toNat + 32 ≤ 6291456 ∧ s0.core.crg.length < 16) := by
  and_intros <;> first | exact name_none | decide +kernel | exact rfl
theorem witness_MonitorAndCounters :
    (sm.core.inMon = true ∧ (∀ (k : Nat), 28 ≤ k → k < 32 → (sm.core.token k).infl = 0))
    ∧ (s0.core.inMon = false ∧ Instr.mctlKill ∈ [Instr.mctlKill, Instr.mctlSave, Instr.mctlCont] ∧ Instr.mctlSave ∈ [Instr.mctlKill, Instr.mctlSave, Instr.mctlCont] ∧ Instr.mctlCont ∈ [Instr.mctlKill, Instr.mctlSave, Instr.mctlCont])
    ∧ (sm.core.inMon = true)
    ∧ (s0.core.inMon = false ∧ s0.core.crc ≠ 0#16)
    ∧ (s0.core.inMon = false ∧ s0.core.crc ≠ 7439#16)
    ∧ (w16.core.inMon = false ∧ w16.core.crc = 7439#16) := by
  and_intros <;> first | exact name_none | decide +kernel | (refine ball ?_; decide +kernel)
theorem witness_TrapsAndTokens :
    ((s0.dbgAuth = false ∨ s0.dbgMask.getLsbD 3 = false) ∧ (s0.core.token (5#5).toNat).infl = 0 ∧ 3#16 ≠ 0#16)
    ∧ ((sx.dbgAuth = false ∨ sx.dbgMask.getLsbD 3 = false) ∧ (sx.core.token (5#5).toNat).infl = 0 ∧ readS (1#6) sx = Except.ok ({ val := 4294927872#32 : PWord }, sx) ∧ { val := 4294927872#32 : PWord }.poi = false ∧ BitVec.extractLsb' 0 8 { val := 4294927872#32 : PWord }.val = 0#8 ∧ (BitVec.extractLsb' 8 4 { val := 4294927872#32 : PWord }.val).toNat ≤ 6 ∧ 3#16 ≠ 0#16)
    ∧ ((w17.dbgAuth = true ∧ w17.dbgMask.getLsbD 3 = true) ∧ (¬(w17.core.token (6#5).toNat).infl = 0) ∧ Instr.tks 6#5 1#6 ∈ [Instr.tks 6#5 1#6, Instr.tkz 6#5] ∧ Instr.tkz 6#5 ∈ [Instr.tks 6#5 1#6, Instr.tkz 6#5]) := by
  and_intros <;> first | exact name_none | decide +kernel | exact rfl
theorem witness_TrapEntryAndReturn :
    (sx.core.inMon = false ∧ w18.tok = some 6)
    ∧ (w19.core.inMon = false)
    ∧ (let w : BitVec 32 := sget (0#32) sm.here.errbank 0; sm.core.inMon = true ∧ sm.curC < 4 ∧ sm.here.errAt ≠ sm.gcyc + sm.haltSum ∧ (w.getLsbD 31 = false ∨ w.getLsbD 30 = false))
    ∧ (let w : BitVec 32 := sget (0#32) w21.here.errbank 0; w21.core.inMon = true ∧ w21.curC < 4 ∧ w21.here.errAt ≠ w21.gcyc + w21.haltSum ∧ (w.getLsbD 31 = false ∨ w.getLsbD 30 = false))
    ∧ (let w : BitVec 32 := sget (0#32) w22.here.errbank 0; w22.core.inMon = true ∧ w22.curC < 4 ∧ w22.here.errAt ≠ w22.gcyc + w22.haltSum ∧ w.getLsbD 31 = true ∧ w.getLsbD 30 = true) := by
  and_intros <;> first | exact name_none | decide +kernel

end Control

namespace Commands

/-! States of the witnesses of host commands. -/
def sh : State := { one {} with sem := [(0, 0x80000001#32)] }
def sfree : State := one {}
def sret : State := { one { ps := .retention, retBad := [(0,3)] } with sem := [(0, 0x80000001#32)] }
def bytes8 (l : List (Nat × Nat × Nat)) : SMap Byte := l.foldl (fun m e => ssetBytes m e.1 e.2.1 e.2.2) []
def hm : SMap Byte := bytes8 [(0x104, 4, 16), (0x108, 8, 0x200)]
def sj (boot : Boot := .normal) : State := { sh with boot := boot, portA := { enabled := true, mem := hm } }
def y0 : Target := ⟨0, 0⟩
def rng : SMap (List DWord) := [(0, [0x9000000000010000#64, 0x20000#64, 0x1000#64])]
def sjr : State := { sj with range := rng, ckpts := [{ dva := 0x10000, len := 1024, gcyc := 500, tiles := [], flights := [], runs := [], gangRel := [], ranges := [] }], t2 := [(0x11005, 7#8)] }
def w1 : State := { sfree with scrubEnd := some 2000 }
def w2 : State := { sfree with sem := [(15, 0xC0000002#32)] }
def w3 : State := { sh with scrubFree := true, scrubEnd := some 2000 }
def w4 : State := { sh with scrubEnd := some 2000 }
def w5 : State := { sh with dbgAuth := true, tlb := [(5, 7), (6, 8)] }
def w6 : State := { sh with wx := 1, domW := 2 }
def w7 : State := {sj with portA := { enabled := true, mem := bytes8 [(0x104, 4, 16), (0x10E, 2, 0x10)] }}
def w8 : State := ((sj).upT 0 fun x => {x with running := true})
def w9 : State := (sjr.upT 0 fun x => { x with nodes := [(1, [0x20000000#32])]})
def w10 : State := { sjr with halted := true }
def w11 : State := { sjr with portA := { enabled := true, mem := bytes8 [(0x101, 1, 16), (0x109, 1, 16)] } }
def w12 : State := { sjr with range := [(0, [0x9000000000010000#64, 0x200000#64, 0x1000#64])] }
def w13 : State := { sjr with portA := { enabled := true, mem := bytes8 [(0x100, 1, 16)] } }

theorem witness_SemaphoreCommands :
    (let n : Nat := (0#8).toNat; let acq : Instr := Instr.semaphoreAcquire false 9#32 0#8 1#16 5#32; let w : BitVec 32 := sget (0#32) sh.sem n; let free : Need := { owner := false : Need }; let rel : Instr := Instr.semaphoreRelease false 9#32 0#8 1#16; let rd : Instr := Instr.semaphoreRead false 9#32 0#8 1#16; sh.Starts false acq free ∧ (n = 0 → sh.scrubEnd = none) ∧ w.getLsbD 31 = true ∧ sh.Starts false rel free ∧ (w.getLsbD 31 = true ∧ w.getLsbD 30 = false ∧ BitVec.extractLsb' 0 16 w = 1#16) ∧ n = 0 ∧ sh.scrubFree = false ∧ sh.Starts false rd free ∧ sh.Starts false (Instr.scrub false 9#32) { : Need } ∧ sh.Starts false (Instr.badOpcode false 9#32) free)
    ∧ (let n : Nat := (0#8).toNat; let acq : Instr := Instr.semaphoreAcquire false 9#32 0#8 2#16 5#32; let w : BitVec 32 := sget (0#32) sh.sem n; let free : Need := { owner := false : Need }; let rel : Instr := Instr.semaphoreRelease false 9#32 0#8 2#16; let rd : Instr := Instr.semaphoreRead false 9#32 0#8 2#16; sh.Starts false acq free ∧ (n = 0 → sh.scrubEnd = none) ∧ w.getLsbD 31 = true ∧ sh.Starts false rel free ∧ (¬(w.getLsbD 31 = true ∧ w.getLsbD 30 = false ∧ BitVec.extractLsb' 0 16 w = 2#16)) ∧ sh.Starts false rd free ∧ sh.Starts false (Instr.scrub false 9#32) { : Need } ∧ sh.Starts false (Instr.badOpcode false 9#32) free)
    ∧ (let n : Nat := (0#8).toNat; let acq : Instr := Instr.semaphoreAcquire true 9#32 0#8 2#16 3600#32; let w : BitVec 32 := sget (0#32) sfree.sem n; let free : Need := { owner := false : Need }; let rel : Instr := Instr.semaphoreRelease true 9#32 0#8 2#16; let rd : Instr := Instr.semaphoreRead true 9#32 0#8 2#16; sfree.Starts true acq free ∧ n = 0 ∧ sfree.scrubEnd = none ∧ w.getLsbD 31 = false ∧ sfree.Starts true rel free ∧ (¬(w.getLsbD 31 = true ∧ w.getLsbD 30 = true ∧ BitVec.extractLsb' 0 16 w = 2#16)) ∧ sfree.Starts true rd free ∧ sfree.Starts true (Instr.badOpcode true 9#32) free)
    ∧ (let n : Nat := (0#8).toNat; let acq : Instr := Instr.semaphoreAcquire true 9#32 0#8 2#16 1#32; let free : Need := { owner := false : Need }; let rel : Instr := Instr.semaphoreRelease true 9#32 0#8 2#16; let w : BitVec 32 := sget (0#32) w1.sem n; let rd : Instr := Instr.semaphoreRead true 9#32 0#8 2#16; w1.Starts true acq free ∧ n = 0 ∧ w1.scrubEnd.isSome = true ∧ w1.Starts true rel free ∧ (¬(w.getLsbD 31 = true ∧ w.getLsbD 30 = true ∧ BitVec.extractLsb' 0 16 w = 2#16)) ∧ w1.Starts true rd free ∧ w1.Starts true (Instr.badOpcode true 9#32) free)
    ∧ (let n : Nat := (15#8).toNat; let acq : Instr := Instr.semaphoreAcquire true 9#32 15#8 2#16 0#32; let w : BitVec 32 := sget (0#32) sfree.sem n; let free : Need := { owner := false : Need }; let rel : Instr := Instr.semaphoreRelease true 9#32 15#8 2#16; let rd : Instr := Instr.semaphoreRead true 9#32 15#8 2#16; sfree.Starts true acq free ∧ n ≠ 0 ∧ w.getLsbD 31 = false ∧ sfree.Starts true rel free ∧ (¬(w.getLsbD 31 = true ∧ w.getLsbD 30 = true ∧ BitVec.extractLsb' 0 16 w = 2#16)) ∧ sfree.Starts true rd free ∧ sfree.Starts true (Instr.badOpcode true 9#32) free)
    ∧ (let n : Nat := (15#8).toNat; let acq : Instr := Instr.semaphoreAcquire true 9#32 15#8 2#16 0#32; let w : BitVec 32 := sget (0#32) w2.sem n; let free : Need := { owner := false : Need }; let rel : Instr := Instr.semaphoreRelease true 9#32 15#8 2#16; let rd : Instr := Instr.semaphoreRead true 9#32 15#8 2#16; w2.Starts true acq free ∧ (n = 0 → w2.scrubEnd = none) ∧ w.getLsbD 31 = true ∧ w2.Starts true rel free ∧ (w.getLsbD 31 = true ∧ w.getLsbD 30 = true ∧ BitVec.extractLsb' 0 16 w = 2#16) ∧ n ≠ 0 ∧ w2.Starts true rd free ∧ w2.Starts true (Instr.badOpcode true 9#32) free)
    ∧ (let n : Nat := (0#8).toNat; let acq : Instr := Instr.semaphoreAcquire false 9#32 0#8 1#16 5#32; let free : Need := { owner := false : Need }; let rel : Instr := Instr.semaphoreRelease false 9#32 0#8 1#16; let w : BitVec 32 := sget (0#32) w3.sem n; let rd : Instr := Instr.semaphoreRead false 9#32 0#8 1#16; w3.Starts false acq free ∧ n = 0 ∧ w3.scrubEnd.isSome = true ∧ w3.Starts false rel free ∧ (w.getLsbD 31 = true ∧ w.getLsbD 30 = false ∧ BitVec.extractLsb' 0 16 w = 1#16) ∧ w3.scrubFree = true ∧ w3.Starts false rd free ∧ w3.Starts false (Instr.badOpcode false 9#32) free)
    ∧ (let n : Nat := (0#8).toNat; let acq : Instr := Instr.semaphoreAcquire false 9#32 0#8 1#16 5#32; let free : Need := { owner := false : Need }; let rel : Instr := Instr.semaphoreRelease false 9#32 0#8 1#16; let w : BitVec 32 := sget (0#32) w4.sem n; let rd : Instr := Instr.semaphoreRead false 9#32 0#8 1#16; w4.Starts false acq free ∧ n = 0 ∧ w4.scrubEnd.isSome = true ∧ w4.Starts false rel free ∧ (w.getLsbD 31 = true ∧ w.getLsbD 30 = false ∧ BitVec.extractLsb' 0 16 w = 1#16) ∧ w4.scrubFree = false ∧ w4.Starts false rd free ∧ w4.Starts false (Instr.badOpcode false 9#32) free) := by
  and_intros <;> first | exact name_none | decide +kernel
theorem witness_MapAndPower :
    (let opn : Instr := Instr.powerDebugOpen false 9#32 256#64 16#32; let enter : Instr := Instr.powerRetentionEnter false 9#32 0#32; let leave : Instr := Instr.powerRetentionExit false 9#32 0#32; sh.Starts false (Instr.mapRangeEntry false 9#32 63#8 9223372036854779904#64 8192#64 5#64) { : Need } ∧ sh.Starts false (Instr.mapTableRoot false 9#32 4096#64) { : Need } ∧ sh.Starts false (Instr.mapInvalidate false 9#32 20480#64 0#64) { : Need } ∧ sh.Starts false (Instr.powerCap false 9#32 8000#16 4#8 255#256) { : Need } ∧ sh.Starts false opn { bufs := [((256#64).toNat, (16#32).toNat)] : Need } ∧ sh.dbgAuth = false ∧ sh.Starts false (Instr.powerDebugClose false 9#32) { : Need } ∧ sh.named 0#32 = some (nameY (0#32).toNat % 72 * 96 + nameX (0#32).toNat % 96) ∧ (sh.tile (nameY (0#32).toNat % 72 * 96 + nameX (0#32).toNat % 96)).held = true ∧ (sh.tile (nameY (0#32).toNat % 72 * 96 + nameX (0#32).toNat % 96)).replayTo = none ∧ (∀ (c : Nat), c < 4 → ((sh.tile (nameY (0#32).toNat % 72 * 96 + nameX (0#32).toNat % 96)).core c).mode = Mode.idle) ∧ sh.Starts false enter { name := some 0#32 : Need } ∧ sh.Starts false leave { name := some 0#32 : Need })
    ∧ (let opn : Instr := Instr.powerDebugOpen false 9#32 256#64 16#32; w5.Starts false (Instr.mapRangeEntry false 9#32 63#8 0#64 0#64 0#64) { : Need } ∧ w5.Starts false (Instr.mapTableRoot false 9#32 4096#64) { : Need } ∧ w5.Starts false (Instr.mapInvalidate false 9#32 20480#64 4096#64) { : Need } ∧ w5.Starts false (Instr.powerCap false 9#32 28000#16 4#8 255#256) { : Need } ∧ w5.Starts false opn { bufs := [((256#64).toNat, (16#32).toNat)] : Need } ∧ w5.dbgAuth = true ∧ w5.Starts false (Instr.powerDebugClose false 9#32) { : Need })
    ∧ (let opn : Instr := Instr.powerDebugOpen false 9#32 256#64 16#32; let enter : Instr := Instr.powerRetentionEnter false 9#32 4#32; let leave : Instr := Instr.powerRetentionExit false 9#32 4#32; w6.Starts false (Instr.mapRangeEntry false 9#32 63#8 0#64 0#64 0#64) { : Need } ∧ w6.Starts false (Instr.mapTableRoot false 9#32 4096#64) { : Need } ∧ w6.Starts false (Instr.mapInvalidate false 9#32 20480#64 4096#64) { : Need } ∧ w6.Starts false (Instr.powerCap false 9#32 28000#16 4#8 255#256) { : Need } ∧ w6.Starts false opn { bufs := [((256#64).toNat, (16#32).toNat)] : Need } ∧ w6.dbgAuth = false ∧ w6.Starts false (Instr.powerDebugClose false 9#32) { : Need } ∧ w6.named 4#32 = none ∧ w6.curArg = 0 ∧ w6.boot ≠ Boot.bootFail ∧ enter ∈ [enter, leave] ∧ leave ∈ [enter, leave])
    ∧ (let opn : Instr := Instr.powerDebugOpen false 9#32 256#64 16#32; let enter : Instr := Instr.powerRetentionEnter false 9#32 0#32; let leave : Instr := Instr.powerRetentionExit false 9#32 0#32; sret.Starts false (Instr.mapRangeEntry false 9#32 63#8 0#64 0#64 0#64) { : Need } ∧ sret.Starts false (Instr.mapTableRoot false 9#32 4096#64) { : Need } ∧ sret.Starts false (Instr.mapInvalidate false 9#32 20480#64 4096#64) { : Need } ∧ sret.Starts false (Instr.powerCap false 9#32 28000#16 4#8 255#256) { : Need } ∧ sret.Starts false opn { bufs := [((256#64).toNat, (16#32).toNat)] : Need } ∧ sret.dbgAuth = false ∧ sret.Starts false (Instr.powerDebugClose false 9#32) { : Need } ∧ sret.named 0#32 = some (nameY (0#32).toNat % 72 * 96 + nameX (0#32).toNat % 96) ∧ (sret.tile (nameY (0#32).toNat % 72 * 96 + nameX (0#32).toNat % 96)).held = true ∧ (sret.tile (nameY (0#32).toNat % 72 * 96 + nameX (0#32).toNat % 96)).replayTo = none ∧ (∀ (c : Nat), c < 4 → ((sret.tile (nameY (0#32).toNat % 72 * 96 + nameX (0#32).toNat % 96)).core c).mode = Mode.idle) ∧ sret.Starts false enter { name := some 0#32 : Need } ∧ sret.Starts false leave { name := some 0#32 : Need }) := by
  and_intros <;> first | exact name_none | exact name_some (by decide +kernel) | decide +kernel
theorem witness_JobCommands :
    (let load : Instr := Instr.loadImage false 9#32 256#64 1#32; let ims : List (Nat × Nat × Nat × Nat) := imageList (getList (sj.port false).mem (256#64).toNat (16 * (1#32).toNat)) (1#32).toNat; let start : Instr := if true = true then Instr.launchStart false 9#32 0#16 0#16 0#16 0#16 5#256 else Instr.launchPost false 9#32 0#16 0#16 0#16 0#16 5#256; let here : List Nat := List.filter (fun t ↦ (sj.tile t).held) (rectTiles (0#16).toNat (0#16).toNat (0#16).toNat (0#16).toNat); let ck : Instr := Instr.checkpoint false 9#32 1400#64 65536#64 4096#64 256#64 0#16; let l : List (Nat × Nat) := rangeList (getList (sj.port false).mem (256#64).toNat (16 * (0#16).toNat)) (0#16).toNat; let re : Instr := Instr.restore false 9#32 65536#64; let pre : Instr := Instr.preempt false 9#32 0#32 1#8; sj.Starts false load { map := true, bufs := [((256#64).toNat, 16 * (1#32).toNat)] : Need } ∧ (∀ (e : Nat × Nat × Nat × Nat), e ∈ ims → e.snd.snd.fst ≠ 0 → (sj.port false).enabled = true ∧ e.snd.snd.snd + e.snd.snd.fst ≤ 2 ^ 52) ∧ sj.Starts false start { map := true : Need } ∧ here ≠ [] ∧ (true = true → ∀ (t : Nat), t ∈ here → (sj.tile t).busy = false) ∧ sj.Starts false ck { bufs := [((256#64).toNat, 16 * (0#16).toNat)] : Need } ∧ (∀ (e : Nat × Nat), e ∈ l → e.fst % 4096 = 0 ∧ e.snd % 4096 = 0) ∧ sj.glob + 400 ≤ (1400#64).toNat ∧ (sj.openJob false (9#32) ck).writeCkpt (65536#64).toNat (4096#64).toNat l = none ∧ sj.Starts false re { : Need } ∧ (∀ (c : Ckpt), c ∈ sj.ckpts → c.dva ≠ (65536#64).toNat) ∧ sj.Starts false pre { name := some 0#32 : Need } ∧ sj.named 0#32 = some 0 ∧ ((sj.tile 0).held = false ∨ (sj.tile 0).nKind (1#8).toNat ≠ 1))
    ∧ (let load : Instr := Instr.loadImage false 9#32 256#64 1#32; let ims : List (Nat × Nat × Nat × Nat) := imageList (getList (sj.port false).mem (256#64).toNat (16 * (1#32).toNat)) (1#32).toNat; let start : Instr := if false = true then Instr.launchStart false 9#32 1#16 0#16 0#16 0#16 5#256 else Instr.launchPost false 9#32 1#16 0#16 0#16 0#16 5#256; let here : List Nat := List.filter (fun t ↦ (sj.tile t).held) (rectTiles (1#16).toNat (0#16).toNat (0#16).toNat (0#16).toNat); let ck : Instr := Instr.checkpoint false 9#32 1399#64 65536#64 4096#64 256#64 0#16; let l : List (Nat × Nat) := rangeList (getList (sj.port false).mem (256#64).toNat (16 * (0#16).toNat)) (0#16).toNat; let re : Instr := Instr.restore false 9#32 65536#64; sj.Starts false load { map := true, bufs := [((256#64).toNat, 16 * (1#32).toNat)] : Need } ∧ (∀ (e : Nat × Nat × Nat × Nat), e ∈ ims → e.snd.snd.fst ≠ 0 → (sj.port false).enabled = true ∧ e.snd.snd.snd + e.snd.snd.fst ≤ 2 ^ 52) ∧ sj.Starts false start { map := true : Need } ∧ here = [] ∧ sj.Starts false ck { bufs := [((256#64).toNat, 16 * (0#16).toNat)] : Need } ∧ (∀ (e : Nat × Nat), e ∈ l → e.fst % 4096 = 0 ∧ e.snd % 4096 = 0) ∧ (1399#64).toNat < sj.glob + 400 ∧ sj.Starts false re { : Need } ∧ (∀ (c : Ckpt), c ∈ sj.ckpts → c.dva ≠ (65536#64).toNat) ∧ sj.named 393216#32 = none ∧ sj.curArg = 0 ∧ sj.boot ≠ Boot.bootFail)
    ∧ (let load : Instr := Instr.loadImage false 9#32 256#64 1#32; let ims : List (Nat × Nat × Nat × Nat) := imageList (getList (w7.port false).mem (256#64).toNat (16 * (1#32).toNat)) (1#32).toNat; let start : Instr := if false = true then Instr.launchStart false 9#32 95#16 0#16 2#16 1#16 5#256 else Instr.launchPost false 9#32 95#16 0#16 2#16 1#16 5#256; let here : List Nat := List.filter (fun t ↦ (w7.tile t).held) (rectTiles (95#16).toNat (0#16).toNat (2#16).toNat (1#16).toNat); let ck : Instr := Instr.checkpoint false 9#32 1400#64 65536#64 4096#64 256#64 1#16; let l : List (Nat × Nat) := rangeList (getList (w7.port false).mem (256#64).toNat (16 * (1#16).toNat)) (1#16).toNat; let re : Instr := Instr.restore false 9#32 65536#64; let pre : Instr := Instr.preempt false 9#32 0#32 1#8; w7.Starts false load { map := true, bufs := [((256#64).toNat, 16 * (1#32).toNat)] : Need } ∧ (∃ e, e ∈ ims ∧ e.snd.snd.fst ≠ 0 ∧ 2 ^ 52 < e.snd.snd.snd + e.snd.snd.fst) ∧ w7.Starts false start { map := true : Need } ∧ here ≠ [] ∧ (false = true → ∀ (t : Nat), t ∈ here → (w7.tile t).busy = false) ∧ w7.Starts false ck { bufs := [((256#64).toNat, 16 * (1#16).toNat)] : Need } ∧ (∀ (e : Nat × Nat), e ∈ l → e.fst % 4096 = 0 ∧ e.snd % 4096 = 0) ∧ w7.glob + 400 ≤ (1400#64).toNat ∧ (w7.openJob false (9#32) ck).writeCkpt (65536#64).toNat (4096#64).toNat l = none ∧ w7.Starts false re { : Need } ∧ (∀ (c : Ckpt), c ∈ w7.ckpts → c.dva ≠ (65536#64).toNat) ∧ w7.Starts false pre { name := some 0#32 : Need } ∧ w7.named 0#32 = some 0 ∧ ((w7.tile 0).held = false ∨ (w7.tile 0).nKind (1#8).toNat ≠ 1))
    ∧ (let load : Instr := Instr.loadImage false 9#32 256#64 1#32; let ims : List (Nat × Nat × Nat × Nat) := imageList (getList (w8.port false).mem (256#64).toNat (16 * (1#32).toNat)) (1#32).toNat; let start : Instr := if true = true then Instr.launchStart false 9#32 0#16 0#16 0#16 0#16 5#256 else Instr.launchPost false 9#32 0#16 0#16 0#16 0#16 5#256; let here : List Nat := List.filter (fun t ↦ (w8.tile t).held) (rectTiles (0#16).toNat (0#16).toNat (0#16).toNat (0#16).toNat); let ck : Instr := Instr.checkpoint false 9#32 1400#64 65536#64 4096#64 256#64 0#16; let l : List (Nat × Nat) := rangeList (getList (w8.port false).mem (256#64).toNat (16 * (0#16).toNat)) (0#16).toNat; let re : Instr := Instr.restore false 9#32 65536#64; let pre : Instr := Instr.preempt false 9#32 0#32 1#8; w8.Starts false load { map := true, bufs := [((256#64).toNat, 16 * (1#32).toNat)] : Need } ∧ (∀ (e : Nat × Nat × Nat × Nat), e ∈ ims → e.snd.snd.fst ≠ 0 → (w8.port false).enabled = true ∧ e.snd.snd.snd + e.snd.snd.fst ≤ 2 ^ 52) ∧ w8.Starts false start { map := true : Need } ∧ here ≠ [] ∧ true = true ∧ (∃ t, t ∈ here ∧ (w8.tile t).busy = true) ∧ w8.Starts false ck { bufs := [((256#64).toNat, 16 * (0#16).toNat)] : Need } ∧ (∀ (e : Nat × Nat), e ∈ l → e.fst % 4096 = 0 ∧ e.snd % 4096 = 0) ∧ w8.glob + 400 ≤ (1400#64).toNat ∧ (w8.openJob false (9#32) ck).writeCkpt (65536#64).toNat (4096#64).toNat l = none ∧ w8.Starts false re { : Need } ∧ (∀ (c : Ckpt), c ∈ w8.ckpts → c.dva ≠ (65536#64).toNat) ∧ w8.Starts false pre { name := some 0#32 : Need } ∧ w8.named 0#32 = some 0 ∧ ((w8.tile 0).held = false ∨ (w8.tile 0).nKind (1#8).toNat ≠ 1))
    ∧ (let load : Instr := Instr.loadImage false 9#32 256#64 1#32; let ims : List (Nat × Nat × Nat × Nat) := imageList (getList (w9.port false).mem (256#64).toNat (16 * (1#32).toNat)) (1#32).toNat; let start : Instr := if true = true then Instr.launchStart false 9#32 0#16 0#16 0#16 0#16 5#256 else Instr.launchPost false 9#32 0#16 0#16 0#16 0#16 5#256; let here : List Nat := List.filter (fun t ↦ (w9.tile t).held) (rectTiles (0#16).toNat (0#16).toNat (0#16).toNat (0#16).toNat); let st : Instr := Instr.stream false (9#32) (1024#64) (65536#64) (64#32) true; let v : State := (fun i ↦ w9.openJob false (9#32) i) st; let z : State := v.fillTlb 0 (65536#64).toNat; let n : Nat := min (64#32).toNat (min (512 - { tgt := 0, addr := 69632 : Target }.addr % 512) (4096 - (65536#64).toNat % 4096)); let ck : Instr := Instr.checkpoint false 9#32 1400#64 65536#64 4096#64 256#64 0#16; let l : List (Nat × Nat) := rangeList (getList (w9.port false).mem (256#64).toNat (16 * (0#16).toNat)) (0#16).toNat; let re : Instr := Instr.restore false 9#32 65536#64; let pre : Instr := Instr.preempt false 9#32 0#32 1#8; w9.Starts false load { map := true, bufs := [((256#64).toNat, 16 * (1#32).toNat)] : Need } ∧ (∀ (e : Nat × Nat × Nat × Nat), e ∈ ims → e.snd.snd.fst ≠ 0 → (w9.port false).enabled = true ∧ e.snd.snd.snd + e.snd.snd.fst ≤ 2 ^ 52) ∧ w9.Starts false start { map := true : Need } ∧ here ≠ [] ∧ (true = true → ∀ (t : Nat), t ∈ here → (w9.tile t).busy = false) ∧ w9.Starts false st { bufs := [((1024#64).toNat, (64#32).toNat)] : Need } ∧ (¬(w9.halted = true ∧ w9.haltLeft = 0)) ∧ (v.translate 0 (65536#64).toNat !true) = Except.ok { tgt := 0, addr := 69632 : Target } ∧ n = (64#32).toNat ∧ true = true ∧ z.media { tgt := 0, addr := 69632 : Target } n = [] ∧ z.tagBad { tgt := 0, addr := 69632 : Target } n = false ∧ w9.Starts false ck { bufs := [((256#64).toNat, 16 * (0#16).toNat)] : Need } ∧ (∀ (e : Nat × Nat), e ∈ l → e.fst % 4096 = 0 ∧ e.snd % 4096 = 0) ∧ w9.glob + 400 ≤ (1400#64).toNat ∧ (w9.openJob false (9#32) ck).writeCkpt (65536#64).toNat (4096#64).toNat l ≠ none ∧ w9.Starts false re { : Need } ∧ List.findIdx? (fun c ↦ c.dva == (65536#64).toNat) w9.ckpts = some 0 ∧ w9.ckpts[0]? = some { dva := 65536, len := 1024, gcyc := 500, tiles := [], flights := [], runs := [], gangRel := [], ranges := [] : Ckpt } ∧ v.areaStatus { dva := 65536, len := 1024, gcyc := 500, tiles := [], flights := [], runs := [], gangRel := [], ranges := [] : Ckpt } = 0 ∧ v.rangesWrite { dva := 65536, len := 1024, gcyc := 500, tiles := [], flights := [], runs := [], gangRel := [], ranges := [] : Ckpt } = true ∧ w9.Starts false pre { name := some 0#32 : Need } ∧ w9.named 0#32 = some 0 ∧ (w9.tile 0).held = true ∧ (w9.tile 0).nKind (1#8).toNat = 1)
    ∧ (let load : Instr := Instr.loadImage false 9#32 256#64 1#32; let ims : List (Nat × Nat × Nat × Nat) := imageList (getList (sjr.port false).mem (256#64).toNat (16 * (1#32).toNat)) (1#32).toNat; let start : Instr := if false = true then Instr.launchStart false 9#32 0#16 0#16 0#16 0#16 5#256 else Instr.launchPost false 9#32 0#16 0#16 0#16 0#16 5#256; let here : List Nat := List.filter (fun t ↦ (sjr.tile t).held) (rectTiles (0#16).toNat (0#16).toNat (0#16).toNat (0#16).toNat); let st : Instr := Instr.stream false (9#32) (256#64) (65600#64) (448#32) false; let v : State := (fun i ↦ sjr.openJob false (9#32) i) st; let z : State := v.fillTlb 0 (65600#64).toNat; let n : Nat := min (448#32).toNat (min (512 - { tgt := 0, addr := 69696 : Target }.addr % 512) (4096 - (65600#64).toNat % 4096)); let ck : Instr := Instr.checkpoint false 9#32 1400#64 65600#64 4096#64 256#64 0#16; let l : List (Nat × Nat) := rangeList (getList (sjr.port false).mem (256#64).toNat (16 * (0#16).toNat)) (0#16).toNat; let re : Instr := Instr.restore false 9#32 65600#64; let pre : Instr := Instr.preempt false 9#32 0#32 1#8; sjr.Starts false load { map := true, bufs := [((256#64).toNat, 16 * (1#32).toNat)] : Need } ∧ (∀ (e : Nat × Nat × Nat × Nat), e ∈ ims → e.snd.snd.fst ≠ 0 → (sjr.port false).enabled = true ∧ e.snd.snd.snd + e.snd.snd.fst ≤ 2 ^ 52) ∧ sjr.Starts false start { map := true : Need } ∧ here ≠ [] ∧ (false = true → ∀ (t : Nat), t ∈ here → (sjr.tile t).busy = false) ∧ sjr.Starts false st { bufs := [((256#64).toNat, (448#32).toNat)] : Need } ∧ (¬(sjr.halted = true ∧ sjr.haltLeft = 0)) ∧ (v.translate 0 (65600#64).toNat !false) = Except.ok { tgt := 0, addr := 69696 : Target } ∧ n = (448#32).toNat ∧ false = false ∧ z.partCheck { tgt := 0, addr := 69696 : Target } n = 0 ∧ sjr.Starts false ck { bufs := [((256#64).toNat, 16 * (0#16).toNat)] : Need } ∧ (∀ (e : Nat × Nat), e ∈ l → e.fst % 4096 = 0 ∧ e.snd % 4096 = 0) ∧ sjr.glob + 400 ≤ (1400#64).toNat ∧ (sjr.openJob false (9#32) ck).writeCkpt (65600#64).toNat (4096#64).toNat l ≠ none ∧ sjr.Starts false re { : Need } ∧ (∀ (c : Ckpt), c ∈ sjr.ckpts → c.dva ≠ (65600#64).toNat) ∧ sjr.Starts false pre { name := some 0#32 : Need } ∧ sjr.named 0#32 = some 0 ∧ ((sjr.tile 0).held = false ∨ (sjr.tile 0).nKind (1#8).toNat ≠ 1))
    ∧ (let load : Instr := Instr.loadImage false 9#32 256#64 1#32; let ims : List (Nat × Nat × Nat × Nat) := imageList (getList (w10.port false).mem (256#64).toNat (16 * (1#32).toNat)) (1#32).toNat; let start : Instr := if true = true then Instr.launchStart false 9#32 0#16 0#16 0#16 0#16 5#256 else Instr.launchPost false 9#32 0#16 0#16 0#16 0#16 5#256; let here : List Nat := List.filter (fun t ↦ (w10.tile t).held) (rectTiles (0#16).toNat (0#16).toNat (0#16).toNat (0#16).toNat); let st : Instr := Instr.stream false (9#32) (1024#64) (65536#64) (64#32) true; let ck : Instr := Instr.checkpoint false 9#32 1400#64 65536#64 4096#64 256#64 1#16; let l : List (Nat × Nat) := rangeList (getList (w10.port false).mem (256#64).toNat (16 * (1#16).toNat)) (1#16).toNat; let re : Instr := Instr.restore false 9#32 65536#64; let v : State := { (w10.openJob false (9#32) re).stopJob with  : State }; let pre : Instr := Instr.preempt false 9#32 0#32 1#8; w10.Starts false load { map := true, bufs := [((256#64).toNat, 16 * (1#32).toNat)] : Need } ∧ (∀ (e : Nat × Nat × Nat × Nat), e ∈ ims → e.snd.snd.fst ≠ 0 → (w10.port false).enabled = true ∧ e.snd.snd.snd + e.snd.snd.fst ≤ 2 ^ 52) ∧ w10.Starts false start { map := true : Need } ∧ here ≠ [] ∧ (true = true → ∀ (t : Nat), t ∈ here → (w10.tile t).busy = false) ∧ w10.Starts false st { bufs := [((1024#64).toNat, (64#32).toNat)] : Need } ∧ (w10.halted = true ∧ w10.haltLeft = 0) ∧ w10.Starts false ck { bufs := [((256#64).toNat, 16 * (1#16).toNat)] : Need } ∧ (∃ e, e ∈ l ∧ (e.fst % 4096 ≠ 0 ∨ e.snd % 4096 ≠ 0)) ∧ w10.Starts false re { : Need } ∧ List.findIdx? (fun c ↦ c.dva == (65536#64).toNat) w10.ckpts = some 0 ∧ w10.ckpts[0]? = some { dva := 65536, len := 1024, gcyc := 500, tiles := [], flights := [], runs := [], gangRel := [], ranges := [] : Ckpt } ∧ v.areaStatus { dva := 65536, len := 1024, gcyc := 500, tiles := [], flights := [], runs := [], gangRel := [], ranges := [] : Ckpt } = 0 ∧ v.rangesWrite { dva := 65536, len := 1024, gcyc := 500, tiles := [], flights := [], runs := [], gangRel := [], ranges := [] : Ckpt } = true ∧ w10.Starts false pre { name := some 0#32 : Need } ∧ w10.named 0#32 = some 0 ∧ ((w10.tile 0).held = false ∨ (w10.tile 0).nKind (1#8).toNat ≠ 1))
    ∧ (let load : Instr := Instr.loadImage false 9#32 256#64 1#32; let ims : List (Nat × Nat × Nat × Nat) := imageList (getList (w11.port false).mem (256#64).toNat (16 * (1#32).toNat)) (1#32).toNat; let start : Instr := if true = true then Instr.launchStart false 9#32 0#16 0#16 0#16 0#16 5#256 else Instr.launchPost false 9#32 0#16 0#16 0#16 0#16 5#256; let here : List Nat := List.filter (fun t ↦ (w11.tile t).held) (rectTiles (0#16).toNat (0#16).toNat (0#16).toNat (0#16).toNat); let st : Instr := Instr.stream false (9#32) (1024#64) (65536#64) (64#32) true; let v : State := (fun i ↦ w11.openJob false (9#32) i) st; let z : State := v.fillTlb 0 (65536#64).toNat; let n : Nat := min (64#32).toNat (min (512 - { tgt := 0, addr := 69632 : Target }.addr % 512) (4096 - (65536#64).toNat % 4096)); let ck : Instr := Instr.checkpoint false 9#32 1400#64 65536#64 4096#64 256#64 1#16; let l : List (Nat × Nat) := rangeList (getList (w11.port false).mem (256#64).toNat (16 * (1#16).toNat)) (1#16).toNat; let re : Instr := Instr.restore false 9#32 65536#64; let pre : Instr := Instr.preempt false 9#32 0#32 1#8; w11.Starts false load { map := true, bufs := [((256#64).toNat, 16 * (1#32).toNat)] : Need } ∧ (∀ (e : Nat × Nat × Nat × Nat), e ∈ ims → e.snd.snd.fst ≠ 0 → (w11.port false).enabled = true ∧ e.snd.snd.snd + e.snd.snd.fst ≤ 2 ^ 52) ∧ w11.Starts false start { map := true : Need } ∧ here ≠ [] ∧ (true = true → ∀ (t : Nat), t ∈ here → (w11.tile t).busy = false) ∧ w11.Starts false st { bufs := [((1024#64).toNat, (64#32).toNat)] : Need } ∧ (¬(w11.halted = true ∧ w11.haltLeft = 0)) ∧ (v.translate 0 (65536#64).toNat !true) = Except.ok { tgt := 0, addr := 69632 : Target } ∧ n = (64#32).toNat ∧ true = true ∧ z.media { tgt := 0, addr := 69632 : Target } n = [] ∧ z.tagBad { tgt := 0, addr := 69632 : Target } n = false ∧ w11.Starts false ck { bufs := [((256#64).toNat, 16 * (1#16).toNat)] : Need } ∧ (∀ (e : Nat × Nat), e ∈ l → e.fst % 4096 = 0 ∧ e.snd % 4096 = 0) ∧ w11.glob + 400 ≤ (1400#64).toNat ∧ (w11.openJob false (9#32) ck).writeCkpt (65536#64).toNat (4096#64).toNat l = none ∧ w11.Starts false re { : Need } ∧ List.findIdx? (fun c ↦ c.dva == (65536#64).toNat) w11.ckpts = some 0 ∧ w11.ckpts[0]? = some { dva := 65536, len := 1024, gcyc := 500, tiles := [], flights := [], runs := [], gangRel := [], ranges := [] : Ckpt } ∧ v.areaStatus { dva := 65536, len := 1024, gcyc := 500, tiles := [], flights := [], runs := [], gangRel := [], ranges := [] : Ckpt } = 0 ∧ v.rangesWrite { dva := 65536, len := 1024, gcyc := 500, tiles := [], flights := [], runs := [], gangRel := [], ranges := [] : Ckpt } = true ∧ w11.Starts false pre { name := some 0#32 : Need } ∧ w11.named 0#32 = some 0 ∧ ((w11.tile 0).held = false ∨ (w11.tile 0).nKind (1#8).toNat ≠ 1))
    ∧ (let load : Instr := Instr.loadImage false 9#32 256#64 1#32; let ims : List (Nat × Nat × Nat × Nat) := imageList (getList (w11.port false).mem (256#64).toNat (16 * (1#32).toNat)) (1#32).toNat; let start : Instr := if true = true then Instr.launchStart false 9#32 0#16 0#16 0#16 0#16 5#256 else Instr.launchPost false 9#32 0#16 0#16 0#16 0#16 5#256; let here : List Nat := List.filter (fun t ↦ (w11.tile t).held) (rectTiles (0#16).toNat (0#16).toNat (0#16).toNat (0#16).toNat); let st : Instr := Instr.stream false (9#32) (1024#64) (65536#64) (64#32) true; let v : State := (fun i ↦ w11.openJob false (9#32) i) st; let z : State := v.fillTlb 0 (65536#64).toNat; let n : Nat := min (64#32).toNat (min (512 - { tgt := 0, addr := 69632 : Target }.addr % 512) (4096 - (65536#64).toNat % 4096)); let ck : Instr := Instr.checkpoint false 9#32 1399#64 65536#64 4096#64 256#64 1#16; let l : List (Nat × Nat) := rangeList (getList (w11.port false).mem (256#64).toNat (16 * (1#16).toNat)) (1#16).toNat; let re : Instr := Instr.restore false 9#32 65536#64; let pre : Instr := Instr.preempt false 9#32 0#32 1#8; w11.Starts false load { map := true, bufs := [((256#64).toNat, 16 * (1#32).toNat)] : Need } ∧ (∀ (e : Nat × Nat × Nat × Nat), e ∈ ims → e.snd.snd.fst ≠ 0 → (w11.port false).enabled = true ∧ e.snd.snd.snd + e.snd.snd.fst ≤ 2 ^ 52) ∧ w11.Starts false start { map := true : Need } ∧ here ≠ [] ∧ (true = true → ∀ (t : Nat), t ∈ here → (w11.tile t).busy = false) ∧ w11.Starts false st { bufs := [((1024#64).toNat, (64#32).toNat)] : Need } ∧ (¬(w11.halted = true ∧ w11.haltLeft = 0)) ∧ (v.translate 0 (65536#64).toNat !true) = Except.ok { tgt := 0, addr := 69632 : Target } ∧ n = (64#32).toNat ∧ true = true ∧ z.media { tgt := 0, addr := 69632 : Target } n = [] ∧ z.tagBad { tgt := 0, addr := 69632 : Target } n = false ∧ w11.Starts false ck { bufs := [((256#64).toNat, 16 * (1#16).toNat)] : Need } ∧ (∀ (e : Nat × Nat), e ∈ l → e.fst % 4096 = 0 ∧ e.snd % 4096 = 0) ∧ (1399#64).toNat < w11.glob + 400 ∧ w11.Starts false re { : Need } ∧ List.findIdx? (fun c ↦ c.dva == (65536#64).toNat) w11.ckpts = some 0 ∧ w11.ckpts[0]? = some { dva := 65536, len := 1024, gcyc := 500, tiles := [], flights := [], runs := [], gangRel := [], ranges := [] : Ckpt } ∧ v.areaStatus { dva := 65536, len := 1024, gcyc := 500, tiles := [], flights := [], runs := [], gangRel := [], ranges := [] : Ckpt } = 0 ∧ v.rangesWrite { dva := 65536, len := 1024, gcyc := 500, tiles := [], flights := [], runs := [], gangRel := [], ranges := [] : Ckpt } = true ∧ w11.Starts false pre { name := some 0#32 : Need } ∧ w11.named 0#32 = some 0 ∧ ((w11.tile 0).held = false ∨ (w11.tile 0).nKind (1#8).toNat ≠ 1))
    ∧ (let load : Instr := Instr.loadImage false 9#32 256#64 1#32; let ims : List (Nat × Nat × Nat × Nat) := imageList (getList (w12.port false).mem (256#64).toNat (16 * (1#32).toNat)) (1#32).toNat; let start : Instr := if true = true then Instr.launchStart false 9#32 0#16 0#16 0#16 0#16 5#256 else Instr.launchPost false 9#32 0#16 0#16 0#16 0#16 5#256; let here : List Nat := List.filter (fun t ↦ (w12.tile t).held) (rectTiles (0#16).toNat (0#16).toNat (0#16).toNat (0#16).toNat); let st : Instr := Instr.stream false (9#32) (1024#64) (65536#64) (64#32) true; let v : State := (fun i ↦ w12.openJob false (9#32) i) st; let z : State := v.fillTlb 0 (65536#64).toNat; let n : Nat := min (64#32).toNat (min (512 - { tgt := 0, addr := 69632 : Target }.addr % 512) (4096 - (65536#64).toNat % 4096)); let ck : Instr := Instr.checkpoint false 9#32 1400#64 65536#64 1048576#64 256#64 0#16; let l : List (Nat × Nat) := rangeList (getList (w12.port false).mem (256#64).toNat (16 * (0#16).toNat)) (0#16).toNat; let re : Instr := Instr.restore false 9#32 65536#64; let pre : Instr := Instr.preempt false 9#32 0#32 1#8; w12.Starts false load { map := true, bufs := [((256#64).toNat, 16 * (1#32).toNat)] : Need } ∧ (∀ (e : Nat × Nat × Nat × Nat), e ∈ ims → e.snd.snd.fst ≠ 0 → (w12.port false).enabled = true ∧ e.snd.snd.snd + e.snd.snd.fst ≤ 2 ^ 52) ∧ w12.Starts false start { map := true : Need } ∧ here ≠ [] ∧ (true = true → ∀ (t : Nat), t ∈ here → (w12.tile t).busy = false) ∧ w12.Starts false st { bufs := [((1024#64).toNat, (64#32).toNat)] : Need } ∧ (¬(w12.halted = true ∧ w12.haltLeft = 0)) ∧ (v.translate 0 (65536#64).toNat !true) = Except.ok { tgt := 0, addr := 69632 : Target } ∧ n = (64#32).toNat ∧ true = true ∧ z.media { tgt := 0, addr := 69632 : Target } n = [] ∧ z.tagBad { tgt := 0, addr := 69632 : Target } n = false ∧ w12.Starts false ck { bufs := [((256#64).toNat, 16 * (0#16).toNat)] : Need } ∧ (∀ (e : Nat × Nat), e ∈ l → e.fst % 4096 = 0 ∧ e.snd % 4096 = 0) ∧ w12.glob + 400 ≤ (1400#64).toNat ∧ (w12.openJob false (9#32) ck).writeCkpt (65536#64).toNat (1048576#64).toNat l ≠ none ∧ w12.Starts false re { : Need } ∧ List.findIdx? (fun c ↦ c.dva == (65536#64).toNat) w12.ckpts = some 0 ∧ w12.ckpts[0]? = some { dva := 65536, len := 1024, gcyc := 500, tiles := [], flights := [], runs := [], gangRel := [], ranges := [] : Ckpt } ∧ v.areaStatus { dva := 65536, len := 1024, gcyc := 500, tiles := [], flights := [], runs := [], gangRel := [], ranges := [] : Ckpt } = 0 ∧ v.rangesWrite { dva := 65536, len := 1024, gcyc := 500, tiles := [], flights := [], runs := [], gangRel := [], ranges := [] : Ckpt } = true ∧ w12.Starts false pre { name := some 0#32 : Need } ∧ w12.named 0#32 = some 0 ∧ ((w12.tile 0).held = false ∨ (w12.tile 0).nKind (1#8).toNat ≠ 1))
    ∧ (let load : Instr := Instr.loadImage false 9#32 256#64 1#32; let ims : List (Nat × Nat × Nat × Nat) := imageList (getList (w13.port false).mem (256#64).toNat (16 * (1#32).toNat)) (1#32).toNat; let start : Instr := if true = true then Instr.launchStart false 9#32 0#16 0#16 0#16 0#16 5#256 else Instr.launchPost false 9#32 0#16 0#16 0#16 0#16 5#256; let here : List Nat := List.filter (fun t ↦ (w13.tile t).held) (rectTiles (0#16).toNat (0#16).toNat (0#16).toNat (0#16).toNat); let st : Instr := Instr.stream false (9#32) (1024#64) (65536#64) (64#32) true; let v : State := (fun i ↦ w13.openJob false (9#32) i) st; let z : State := v.fillTlb 0 (65536#64).toNat; let n : Nat := min (64#32).toNat (min (512 - { tgt := 0, addr := 69632 : Target }.addr % 512) (4096 - (65536#64).toNat % 4096)); let ck : Instr := Instr.checkpoint false 9#32 1400#64 65536#64 4096#64 256#64 1#16; let l : List (Nat × Nat) := rangeList (getList (w13.port false).mem (256#64).toNat (16 * (1#16).toNat)) (1#16).toNat; let re : Instr := Instr.restore false 9#32 65536#64; let pre : Instr := Instr.preempt false 9#32 0#32 1#8; w13.Starts false load { map := true, bufs := [((256#64).toNat, 16 * (1#32).toNat)] : Need } ∧ (∀ (e : Nat × Nat × Nat × Nat), e ∈ ims → e.snd.snd.fst ≠ 0 → (w13.port false).enabled = true ∧ e.snd.snd.snd + e.snd.snd.fst ≤ 2 ^ 52) ∧ w13.Starts false start { map := true : Need } ∧ here ≠ [] ∧ (true = true → ∀ (t : Nat), t ∈ here → (w13.tile t).busy = false) ∧ w13.Starts false st { bufs := [((1024#64).toNat, (64#32).toNat)] : Need } ∧ (¬(w13.halted = true ∧ w13.haltLeft = 0)) ∧ (v.translate 0 (65536#64).toNat !true) = Except.ok { tgt := 0, addr := 69632 : Target } ∧ n = (64#32).toNat ∧ true = true ∧ z.media { tgt := 0, addr := 69632 : Target } n = [] ∧ z.tagBad { tgt := 0, addr := 69632 : Target } n = false ∧ w13.Starts false ck { bufs := [((256#64).toNat, 16 * (1#16).toNat)] : Need } ∧ (∃ e, e ∈ l ∧ (e.fst % 4096 ≠ 0 ∨ e.snd % 4096 ≠ 0)) ∧ w13.Starts false re { : Need } ∧ List.findIdx? (fun c ↦ c.dva == (65536#64).toNat) w13.ckpts = some 0 ∧ w13.ckpts[0]? = some { dva := 65536, len := 1024, gcyc := 500, tiles := [], flights := [], runs := [], gangRel := [], ranges := [] : Ckpt } ∧ v.areaStatus { dva := 65536, len := 1024, gcyc := 500, tiles := [], flights := [], runs := [], gangRel := [], ranges := [] : Ckpt } = 0 ∧ v.rangesWrite { dva := 65536, len := 1024, gcyc := 500, tiles := [], flights := [], runs := [], gangRel := [], ranges := [] : Ckpt } = true ∧ w13.Starts false pre { name := some 0#32 : Need } ∧ w13.named 0#32 = some 0 ∧ ((w13.tile 0).held = false ∨ (w13.tile 0).nKind (1#8).toNat ≠ 1)) := by
  and_intros <;> first | exact name_none | exact name_some (by decide +kernel) | decide +kernel | exact rfl

end Commands

namespace Reports

/-! States of the witnesses of host commands, reports and debug. -/
def sh : State := { one {} with sem := [(0, 0x80000001#32)] }
def sfree : State := one {}
def hm : SMap Byte := [(0x105, 8#8)]
def sj : State := { sh with portA := { enabled := true, mem := hm } }
def dbg : State := { sh with dbgAuth := true, dbgMask := 7#4 }
def dstop : State := { one { frz := [(.debug, none)], cores := [(0, core0)] } with sem := [(0, 0x80000001#32)], dbgAuth := true, dbgMask := 7#4 }
def w1 : State := { dbg with halted := true }
def w2 : State := { sh with boot := .bootFail }
def w3 : State := { dstop with dbgMask := 4#4 }
def w4 : State := { dstop with dbgMask := 1#4 }

theorem witness_JobCommands :
    (let load : Instr := Instr.loadImage false 9#32 256#64 1#32; let ims : List (Nat × Nat × Nat × Nat) := imageList (getList (sj.port false).mem (256#64).toNat (16 * (1#32).toNat)) (1#32).toNat; let start : Instr := if false = true then Instr.launchStart false 9#32 1#16 0#16 0#16 0#16 5#256 else Instr.launchPost false 9#32 1#16 0#16 0#16 0#16 5#256; let here : List Nat := List.filter (fun t ↦ (sj.tile t).held) (rectTiles (1#16).toNat (0#16).toNat (0#16).toNat (0#16).toNat); let ck : Instr := Instr.checkpoint false 9#32 1399#64 65536#64 4096#64 256#64 1#16; let l : List (Nat × Nat) := rangeList (getList (sj.port false).mem (256#64).toNat (16 * (1#16).toNat)) (1#16).toNat; let re : Instr := Instr.restore false 9#32 65536#64; sj.Starts false load { map := true, bufs := [((256#64).toNat, 16 * (1#32).toNat)] : Need } ∧ (∀ (e : Nat × Nat × Nat × Nat), e ∈ ims → e.snd.snd.fst ≠ 0 → (sj.port false).enabled = true ∧ e.snd.snd.snd + e.snd.snd.fst ≤ 2 ^ 52) ∧ sj.Starts false start { map := true : Need } ∧ here = [] ∧ sj.Starts false ck { bufs := [((256#64).toNat, 16 * (1#16).toNat)] : Need } ∧ (∀ (e : Nat × Nat), e ∈ l → e.fst % 4096 = 0 ∧ e.snd % 4096 = 0) ∧ (1399#64).toNat < sj.glob + 400 ∧ sj.Starts false re { : Need } ∧ (∀ (c : Ckpt), c ∈ sj.ckpts → c.dva ≠ (65536#64).toNat)) := by
  and_intros <;> first | exact name_none | decide +kernel
theorem witness_DebugCommands :
    (let halt : Instr := Instr.haltAt false 9#32 1399#64; let res : Instr := Instr.resume false 9#32 1399#64 0#8 0#32; let stT : Instr := Instr.stepTile false 9#32 1#32 0#32; let stW : Instr := Instr.stepWafer false 9#32 1#32; let rd : Instr := Instr.readState false 9#32 0#32 0#8 0#8 0#32 4#32 256#64; let rdNeed : Need := { perm := some 2, bufs := [((256#64).toNat, (4#32).toNat + (((4#32).toNat / 4 + 7) / 8 + 63) / 64 * 64)], name := some 0#32 : Need }; dbg.Starts false halt { perm := some 0 : Need } ∧ (1399#64).toNat < dbg.glob + 400 ∧ dbg.Starts false res { perm := some 0, name := if 0#8 = 0#8 then none else some 0#32 : Need } ∧ dbg.Starts false stT { perm := some 1, name := some 0#32 : Need } ∧ dbg.named 0#32 = some 0 ∧ (¬∃ f, f ∈ (dbg.tile 0).frz ∧ f = (Frz.debug, none)) ∧ dbg.Starts false stW { perm := some 1 : Need } ∧ (¬(dbg.halted = true ∧ dbg.haltLeft = 0)) ∧ dbg.Starts false rd rdNeed ∧ (¬∃ f, f ∈ (dbg.tile 0).frz ∧ f.fst = Frz.debug ∧ ∀ (g : Nat), f.snd = some g → dbg.glob < g))
    ∧ (let halt : Instr := Instr.haltAt false 9#32 1400#64; let res : Instr := Instr.resume false 9#32 1400#64 1#8 0#32; let stT : Instr := Instr.stepTile false 9#32 1#32 0#32; let stW : Instr := Instr.stepWafer false 9#32 1#32; let rd : Instr := Instr.readState false 9#32 0#32 0#8 0#8 0#32 4#32 256#64; let rdNeed : Need := { perm := some 2, bufs := [((256#64).toNat, (4#32).toNat + (((4#32).toNat / 4 + 7) / 8 + 63) / 64 * 64)], name := some 0#32 : Need }; dbg.Starts false halt { perm := some 0 : Need } ∧ dbg.glob + 400 ≤ (1400#64).toNat ∧ dbg.Starts false res { perm := some 0, name := if 1#8 = 0#8 then none else some 0#32 : Need } ∧ 1#8 ≠ 0#8 ∧ dbg.named 0#32 = some 0 ∧ (¬∃ f, f ∈ (dbg.tile 0).frz ∧ f = (Frz.debug, none)) ∧ dbg.Starts false stT { perm := some 1, name := some 0#32 : Need } ∧ dbg.Starts false stW { perm := some 1 : Need } ∧ (¬(dbg.halted = true ∧ dbg.haltLeft = 0)) ∧ dbg.Starts false rd rdNeed ∧ (¬∃ f, f ∈ (dbg.tile 0).frz ∧ f.fst = Frz.debug ∧ ∀ (g : Nat), f.snd = some g → dbg.glob < g))
    ∧ (let halt : Instr := Instr.haltAt false 9#32 1400#64; let res : Instr := Instr.resume false 9#32 1400#64 0#8 0#32; let stT : Instr := Instr.stepTile false 9#32 65535#32 0#32; let stW : Instr := Instr.stepWafer false 9#32 65535#32; let rd : Instr := Instr.readState false 9#32 0#32 0#8 0#8 0#32 4#32 256#64; let rdNeed : Need := { perm := some 2, bufs := [((256#64).toNat, (4#32).toNat + (((4#32).toNat / 4 + 7) / 8 + 63) / 64 * 64)], name := some 0#32 : Need }; w1.Starts false halt { perm := some 0 : Need } ∧ w1.glob + 400 ≤ (1400#64).toNat ∧ w1.Starts false res { perm := some 0, name := if 0#8 = 0#8 then none else some 0#32 : Need } ∧ 0#8 = 0#8 ∧ (w1.halted = true ∧ w1.haltLeft = 0) ∧ w1.Starts false stT { perm := some 1, name := some 0#32 : Need } ∧ w1.named 0#32 = some 0 ∧ (¬∃ f, f ∈ (w1.tile 0).frz ∧ f = (Frz.debug, none)) ∧ w1.Starts false stW { perm := some 1 : Need } ∧ w1.Starts false rd rdNeed ∧ (w1.halted = true ∧ w1.haltLeft = 0 ∨ ∃ f, f ∈ (w1.tile 0).frz ∧ f.fst = Frz.debug ∧ ∀ (g : Nat), f.snd = some g → w1.glob < g) ∧ (w1.openJob false (9#32) rd).space 0 (0#8).toNat (0#8).toNat (0#32).toNat (4#32).toNat = some (bytesOfWords (List.map (fun i ↦ (csrRead ((w1.openJob false (9#32) rd).tile 0) (0#8).toNat i).val) (upto (0#32).toNat ((4#32).toNat / 4))), List.map (fun i ↦ (csrRead ((w1.openJob false (9#32) rd).tile 0) (0#8).toNat i).poi || ((w1.openJob false (9#32) rd).tile 0).lostReg 0 (0#8).toNat i) (upto (0#32).toNat ((4#32).toNat / 4))))
    ∧ (let halt : Instr := Instr.haltAt false 9#32 1400#64; let res : Instr := Instr.resume false 9#32 1400#64 0#8 0#32; let stT : Instr := Instr.stepTile false 9#32 1#32 0#32; let stW : Instr := Instr.stepWafer false 9#32 1#32; let rd : Instr := Instr.readState false 9#32 0#32 0#8 0#8 0#32 4#32 256#64; let rdNeed : Need := { perm := some 2, bufs := [((256#64).toNat, (4#32).toNat + (((4#32).toNat / 4 + 7) / 8 + 63) / 64 * 64)], name := some 0#32 : Need }; dbg.Starts false halt { perm := some 0 : Need } ∧ dbg.glob + 400 ≤ (1400#64).toNat ∧ dbg.Starts false res { perm := some 0, name := if 0#8 = 0#8 then none else some 0#32 : Need } ∧ 0#8 = 0#8 ∧ (¬(dbg.halted = true ∧ dbg.haltLeft = 0)) ∧ dbg.Starts false stT { perm := some 1, name := some 0#32 : Need } ∧ dbg.named 0#32 = some 0 ∧ (¬∃ f, f ∈ (dbg.tile 0).frz ∧ f = (Frz.debug, none)) ∧ dbg.Starts false stW { perm := some 1 : Need } ∧ dbg.Starts false rd rdNeed ∧ (¬∃ f, f ∈ (dbg.tile 0).frz ∧ f.fst = Frz.debug ∧ ∀ (g : Nat), f.snd = some g → dbg.glob < g))
    ∧ (let halt : Instr := Instr.haltAt false 9#32 1400#64; let res : Instr := Instr.resume false 9#32 1400#64 1#8 0#32; let stT : Instr := Instr.stepTile false 9#32 1#32 0#32; let stW : Instr := Instr.stepWafer false 9#32 1#32; let rd : Instr := Instr.readState false 9#32 0#32 0#8 0#8 0#32 4#32 256#64; let rdNeed : Need := { perm := some 2, bufs := [((256#64).toNat, (4#32).toNat + (((4#32).toNat / 4 + 7) / 8 + 63) / 64 * 64)], name := some 0#32 : Need }; dstop.Starts false halt { perm := some 0 : Need } ∧ dstop.glob + 400 ≤ (1400#64).toNat ∧ dstop.Starts false res { perm := some 0, name := if 1#8 = 0#8 then none else some 0#32 : Need } ∧ 1#8 ≠ 0#8 ∧ dstop.named 0#32 = some 0 ∧ (∃ f, f ∈ (dstop.tile 0).frz ∧ f = (Frz.debug, none)) ∧ dstop.Starts false stT { perm := some 1, name := some 0#32 : Need } ∧ dstop.Starts false stW { perm := some 1 : Need } ∧ (¬(dstop.halted = true ∧ dstop.haltLeft = 0)) ∧ dstop.Starts false rd rdNeed ∧ (dstop.halted = true ∧ dstop.haltLeft = 0 ∨ ∃ f, f ∈ (dstop.tile 0).frz ∧ f.fst = Frz.debug ∧ ∀ (g : Nat), f.snd = some g → dstop.glob < g) ∧ (dstop.openJob false (9#32) rd).space 0 (0#8).toNat (0#8).toNat (0#32).toNat (4#32).toNat = some (bytesOfWords (List.map (fun i ↦ (csrRead ((dstop.openJob false (9#32) rd).tile 0) (0#8).toNat i).val) (upto (0#32).toNat ((4#32).toNat / 4))), List.map (fun i ↦ (csrRead ((dstop.openJob false (9#32) rd).tile 0) (0#8).toNat i).poi || ((dstop.openJob false (9#32) rd).tile 0).lostReg 0 (0#8).toNat i) (upto (0#32).toNat ((4#32).toNat / 4))))
    ∧ (let halt : Instr := Instr.haltAt false 9#32 1400#64; let res : Instr := Instr.resume false 9#32 1400#64 1#8 0#32; let stT : Instr := Instr.stepTile false 9#32 1#32 0#32; let stW : Instr := Instr.stepWafer false 9#32 1#32; let rd : Instr := Instr.readState false 9#32 0#32 1#8 0#8 0#32 64#32 256#64; let rdNeed : Need := { perm := some 2, bufs := [((256#64).toNat, (64#32).toNat + (((64#32).toNat / 4 + 7) / 8 + 63) / 64 * 64)], name := some 0#32 : Need }; dstop.Starts false halt { perm := some 0 : Need } ∧ dstop.glob + 400 ≤ (1400#64).toNat ∧ dstop.Starts false res { perm := some 0, name := if 1#8 = 0#8 then none else some 0#32 : Need } ∧ 1#8 ≠ 0#8 ∧ dstop.named 0#32 = some 0 ∧ (∃ f, f ∈ (dstop.tile 0).frz ∧ f = (Frz.debug, none)) ∧ dstop.Starts false stT { perm := some 1, name := some 0#32 : Need } ∧ dstop.Starts false stW { perm := some 1 : Need } ∧ (¬(dstop.halted = true ∧ dstop.haltLeft = 0)) ∧ dstop.Starts false rd rdNeed ∧ (dstop.halted = true ∧ dstop.haltLeft = 0 ∨ ∃ f, f ∈ (dstop.tile 0).frz ∧ f.fst = Frz.debug ∧ ∀ (g : Nat), f.snd = some g → dstop.glob < g) ∧ (dstop.openJob false (9#32) rd).space 0 (1#8).toNat (0#8).toNat (0#32).toNat (64#32).toNat = some (getList (((dstop.openJob false (9#32) rd).tile 0).putBlock (0#8).toNat 0 (dstop.openJob false (9#32) rd).free []) (0#32).toNat (64#32).toNat, List.map (fun w ↦ poisonAt (((dstop.openJob false (9#32) rd).tile 0).blockPoison (0#8).toNat) w || ((dstop.openJob false (9#32) rd).tile 0).lostReg 1 (0#8).toNat w) ((fun k ↦ List.map (fun i ↦ (0#32).toNat / 4 + k * i) (upto 0 ((64#32).toNat / 4))) 1)))
    ∧ (let halt : Instr := Instr.haltAt false 9#32 1400#64; let res : Instr := Instr.resume false 9#32 1400#64 1#8 0#32; let stT : Instr := Instr.stepTile false 9#32 1#32 0#32; let stW : Instr := Instr.stepWafer false 9#32 1#32; let rd : Instr := Instr.readState false 9#32 0#32 2#8 0#8 0#32 64#32 256#64; let rdNeed : Need := { perm := some 2, bufs := [((256#64).toNat, (64#32).toNat + (((64#32).toNat / 4 + 7) / 8 + 63) / 64 * 64)], name := some 0#32 : Need }; dstop.Starts false halt { perm := some 0 : Need } ∧ dstop.glob + 400 ≤ (1400#64).toNat ∧ dstop.Starts false res { perm := some 0, name := if 1#8 = 0#8 then none else some 0#32 : Need } ∧ 1#8 ≠ 0#8 ∧ dstop.named 0#32 = some 0 ∧ (∃ f, f ∈ (dstop.tile 0).frz ∧ f = (Frz.debug, none)) ∧ dstop.Starts false stT { perm := some 1, name := some 0#32 : Need } ∧ dstop.Starts false stW { perm := some 1 : Need } ∧ (¬(dstop.halted = true ∧ dstop.haltLeft = 0)) ∧ dstop.Starts false rd rdNeed ∧ (dstop.halted = true ∧ dstop.haltLeft = 0 ∨ ∃ f, f ∈ (dstop.tile 0).frz ∧ f.fst = Frz.debug ∧ ∀ (g : Nat), f.snd = some g → dstop.glob < g) ∧ (dstop.openJob false (9#32) rd).space 0 (2#8).toNat (0#8).toNat (0#32).toNat (64#32).toNat = some (bytesOf (((dstop.openJob false (9#32) rd).tile 0).tmRead (0#32).toNat (64#32).toNat) (64#32).toNat, List.map (fun w ↦ sget false ((dstop.openJob false (9#32) rd).tile 0).tmPoi w || ((dstop.openJob false (9#32) rd).tile 0).lostWord 0 w) ((fun k ↦ List.map (fun i ↦ (0#32).toNat / 4 + k * i) (upto 0 ((64#32).toNat / 4))) 1)))
    ∧ (let halt : Instr := Instr.haltAt false 9#32 1400#64; let res : Instr := Instr.resume false 9#32 1400#64 1#8 0#32; let stT : Instr := Instr.stepTile false 9#32 1#32 0#32; let stW : Instr := Instr.stepWafer false 9#32 1#32; let rd : Instr := Instr.readState false 9#32 0#32 2#8 0#8 0#32 64#32 256#64; (halt, 0) ∈ [(halt, 0), (res, 0), (stT, 1), (stW, 1), (rd, 2)] ∧ sh.Starts false (halt, 0).fst { : Need } ∧ (sh.dbgAuth = false ∨ sh.dbgMask.getLsbD (halt, 0).snd = false) ∧ ((halt, 0).fst = rd ∨ (halt, 0).fst = stT ∨ (halt, 0).fst = res ∧ 1#8 ≠ 0#8 → sh.named 0#32 ≠ none) ∧ (res, 0) ∈ [(halt, 0), (res, 0), (stT, 1), (stW, 1), (rd, 2)] ∧ sh.Starts false (res, 0).fst { : Need } ∧ (sh.dbgAuth = false ∨ sh.dbgMask.getLsbD (res, 0).snd = false) ∧ ((res, 0).fst = rd ∨ (res, 0).fst = stT ∨ (res, 0).fst = res ∧ 1#8 ≠ 0#8 → sh.named 0#32 ≠ none) ∧ (stT, 1) ∈ [(halt, 0), (res, 0), (stT, 1), (stW, 1), (rd, 2)] ∧ sh.Starts false (stT, 1).fst { : Need } ∧ (sh.dbgAuth = false ∨ sh.dbgMask.getLsbD (stT, 1).snd = false) ∧ ((stT, 1).fst = rd ∨ (stT, 1).fst = stT ∨ (stT, 1).fst = res ∧ 1#8 ≠ 0#8 → sh.named 0#32 ≠ none) ∧ (stW, 1) ∈ [(halt, 0), (res, 0), (stT, 1), (stW, 1), (rd, 2)] ∧ sh.Starts false (stW, 1).fst { : Need } ∧ (sh.dbgAuth = false ∨ sh.dbgMask.getLsbD (stW, 1).snd = false) ∧ ((stW, 1).fst = rd ∨ (stW, 1).fst = stT ∨ (stW, 1).fst = res ∧ 1#8 ≠ 0#8 → sh.named 0#32 ≠ none) ∧ (rd, 2) ∈ [(halt, 0), (res, 0), (stT, 1), (stW, 1), (rd, 2)] ∧ sh.Starts false (rd, 2).fst { : Need } ∧ (sh.dbgAuth = false ∨ sh.dbgMask.getLsbD (rd, 2).snd = false) ∧ ((rd, 2).fst = rd ∨ (rd, 2).fst = stT ∨ (rd, 2).fst = res ∧ 1#8 ≠ 0#8 → sh.named 0#32 ≠ none))
    ∧ (let halt : Instr := Instr.haltAt false 9#32 1399#64; let res : Instr := Instr.resume false 9#32 1399#64 1#8 393216#32; let stT : Instr := Instr.stepTile false 9#32 1#32 393216#32; let rd : Instr := Instr.readState false 9#32 393216#32 0#8 0#8 0#32 4#32 256#64; let stW : Instr := Instr.stepWafer false 9#32 1#32; dbg.Starts false halt { perm := some 0 : Need } ∧ (1399#64).toNat < dbg.glob + 400 ∧ res ∈ [res, stT, rd] ∧ (res = res → 1#8 ≠ 0#8) ∧ dbg.named 393216#32 = none ∧ dbg.curArg = 0 ∧ dbg.boot ≠ Boot.bootFail ∧ stT ∈ [res, stT, rd] ∧ (stT = res → 1#8 ≠ 0#8) ∧ rd ∈ [res, stT, rd] ∧ (rd = res → 1#8 ≠ 0#8) ∧ dbg.Starts false stW { perm := some 1 : Need } ∧ (¬(dbg.halted = true ∧ dbg.haltLeft = 0)))
    ∧ (let halt : Instr := Instr.haltAt false 9#32 1400#64; let res : Instr := Instr.resume false 9#32 1400#64 1#8 393216#32; let stT : Instr := Instr.stepTile false 9#32 1#32 393216#32; let rd : Instr := Instr.readState false 9#32 393216#32 0#8 0#8 0#32 4#32 256#64; let stW : Instr := Instr.stepWafer false 9#32 1#32; dstop.Starts false halt { perm := some 0 : Need } ∧ dstop.glob + 400 ≤ (1400#64).toNat ∧ res ∈ [res, stT, rd] ∧ (res = res → 1#8 ≠ 0#8) ∧ dstop.named 393216#32 = none ∧ dstop.curArg = 0 ∧ dstop.boot ≠ Boot.bootFail ∧ stT ∈ [res, stT, rd] ∧ (stT = res → 1#8 ≠ 0#8) ∧ rd ∈ [res, stT, rd] ∧ (rd = res → 1#8 ≠ 0#8) ∧ dstop.Starts false stW { perm := some 1 : Need } ∧ (¬(dstop.halted = true ∧ dstop.haltLeft = 0)))
    ∧ (let halt : Instr := Instr.haltAt false 9#32 1400#64; let res : Instr := Instr.resume false 9#32 1400#64 1#8 0#32; let stT : Instr := Instr.stepTile false 9#32 1#32 0#32; let stW : Instr := Instr.stepWafer false 9#32 1#32; dstop.Starts false halt { perm := some 0 : Need } ∧ dstop.glob + 400 ≤ (1400#64).toNat ∧ dstop.Starts false res { perm := some 0, name := if 1#8 = 0#8 then none else some 0#32 : Need } ∧ 1#8 ≠ 0#8 ∧ dstop.named 0#32 = some 0 ∧ (∃ f, f ∈ (dstop.tile 0).frz ∧ f = (Frz.debug, none)) ∧ dstop.Starts false stT { perm := some 1, name := some 0#32 : Need } ∧ dstop.Starts false stW { perm := some 1 : Need } ∧ (¬(dstop.halted = true ∧ dstop.haltLeft = 0)))
    ∧ (let halt : Instr := Instr.haltAt false 9#32 1400#64; let res : Instr := Instr.resume false 9#32 1400#64 1#8 0#32; let stT : Instr := Instr.stepTile false 9#32 1#32 0#32; let stW : Instr := Instr.stepWafer false 9#32 1#32; let rd : Instr := Instr.readState false 9#32 0#32 2#8 0#8 0#32 64#32 256#64; let rdNeed : Need := { perm := some 2, bufs := [((256#64).toNat, (64#32).toNat + (((64#32).toNat / 4 + 7) / 8 + 63) / 64 * 64)], name := some 0#32 : Need }; (halt, 0) ∈ [(halt, 0), (res, 0), (stT, 1), (stW, 1), (rd, 2)] ∧ w3.Starts false (halt, 0).fst { : Need } ∧ (w3.dbgAuth = false ∨ w3.dbgMask.getLsbD (halt, 0).snd = false) ∧ ((halt, 0).fst = rd ∨ (halt, 0).fst = stT ∨ (halt, 0).fst = res ∧ 1#8 ≠ 0#8 → w3.named 0#32 ≠ none) ∧ (res, 0) ∈ [(halt, 0), (res, 0), (stT, 1), (stW, 1), (rd, 2)] ∧ w3.Starts false (res, 0).fst { : Need } ∧ (w3.dbgAuth = false ∨ w3.dbgMask.getLsbD (res, 0).snd = false) ∧ ((res, 0).fst = rd ∨ (res, 0).fst = stT ∨ (res, 0).fst = res ∧ 1#8 ≠ 0#8 → w3.named 0#32 ≠ none) ∧ (stT, 1) ∈ [(halt, 0), (res, 0), (stT, 1), (stW, 1), (rd, 2)] ∧ w3.Starts false (stT, 1).fst { : Need } ∧ (w3.dbgAuth = false ∨ w3.dbgMask.getLsbD (stT, 1).snd = false) ∧ ((stT, 1).fst = rd ∨ (stT, 1).fst = stT ∨ (stT, 1).fst = res ∧ 1#8 ≠ 0#8 → w3.named 0#32 ≠ none) ∧ (stW, 1) ∈ [(halt, 0), (res, 0), (stT, 1), (stW, 1), (rd, 2)] ∧ w3.Starts false (stW, 1).fst { : Need } ∧ (w3.dbgAuth = false ∨ w3.dbgMask.getLsbD (stW, 1).snd = false) ∧ ((stW, 1).fst = rd ∨ (stW, 1).fst = stT ∨ (stW, 1).fst = res ∧ 1#8 ≠ 0#8 → w3.named 0#32 ≠ none) ∧ w3.Starts false rd rdNeed ∧ w3.named 0#32 = some 0 ∧ (w3.halted = true ∧ w3.haltLeft = 0 ∨ ∃ f, f ∈ (w3.tile 0).frz ∧ f.fst = Frz.debug ∧ ∀ (g : Nat), f.snd = some g → w3.glob < g) ∧ (w3.openJob false (9#32) rd).space 0 (2#8).toNat (0#8).toNat (0#32).toNat (64#32).toNat = some (bytesOf (((w3.openJob false (9#32) rd).tile 0).tmRead (0#32).toNat (64#32).toNat) (64#32).toNat, List.map (fun w ↦ sget false ((w3.openJob false (9#32) rd).tile 0).tmPoi w || ((w3.openJob false (9#32) rd).tile 0).lostWord 0 w) ((fun k ↦ List.map (fun i ↦ (0#32).toNat / 4 + k * i) (upto 0 ((64#32).toNat / 4))) 1)))
    ∧ (let halt : Instr := Instr.haltAt false 9#32 1400#64; let res : Instr := Instr.resume false 9#32 1400#64 1#8 0#32; let stT : Instr := Instr.stepTile false 9#32 1#32 0#32; let stW : Instr := Instr.stepWafer false 9#32 1#32; let rd : Instr := Instr.readState false 9#32 0#32 2#8 0#8 0#32 64#32 256#64; w4.Starts false halt { perm := some 0 : Need } ∧ w4.glob + 400 ≤ (1400#64).toNat ∧ (stT, 1) ∈ [(halt, 0), (res, 0), (stT, 1), (stW, 1), (rd, 2)] ∧ w4.Starts false (stT, 1).fst { : Need } ∧ (w4.dbgAuth = false ∨ w4.dbgMask.getLsbD (stT, 1).snd = false) ∧ ((stT, 1).fst = rd ∨ (stT, 1).fst = stT ∨ (stT, 1).fst = res ∧ 1#8 ≠ 0#8 → w4.named 0#32 ≠ none) ∧ (stW, 1) ∈ [(halt, 0), (res, 0), (stT, 1), (stW, 1), (rd, 2)] ∧ w4.Starts false (stW, 1).fst { : Need } ∧ (w4.dbgAuth = false ∨ w4.dbgMask.getLsbD (stW, 1).snd = false) ∧ ((stW, 1).fst = rd ∨ (stW, 1).fst = stT ∨ (stW, 1).fst = res ∧ 1#8 ≠ 0#8 → w4.named 0#32 ≠ none) ∧ (rd, 2) ∈ [(halt, 0), (res, 0), (stT, 1), (stW, 1), (rd, 2)] ∧ w4.Starts false (rd, 2).fst { : Need } ∧ (w4.dbgAuth = false ∨ w4.dbgMask.getLsbD (rd, 2).snd = false) ∧ ((rd, 2).fst = rd ∨ (rd, 2).fst = stT ∨ (rd, 2).fst = res ∧ 1#8 ≠ 0#8 → w4.named 0#32 ≠ none) ∧ w4.Starts false res { perm := some 0, name := if 1#8 = 0#8 then none else some 0#32 : Need } ∧ 1#8 ≠ 0#8 ∧ w4.named 0#32 = some 0 ∧ (∃ f, f ∈ (w4.tile 0).frz ∧ f = (Frz.debug, none))) := by
  and_intros <;> first | exact name_none | exact name_some (by decide +kernel) | decide +kernel | exact rfl
theorem witness_Reports :
    (let q : Need := { owner := false, bufs := [((256#64).toNat, (64#32).toNat)], query := true : Need }; let att : Instr := Instr.attest false 9#32 512#64 256#64; sh.Starts false (Instr.queryModuleState false 9#32 256#64 64#32) { owner := q.owner, bufs := q.bufs, query := q.query : Need } ∧ sh.Starts false (Instr.queryMirage false 9#32 256#64 64#32) { owner := q.owner, bufs := q.bufs, query := q.query : Need } ∧ sh.Starts false (Instr.queryEnergy false 9#32 256#64 64#32) { owner := q.owner, bufs := q.bufs, query := q.query : Need } ∧ sh.Starts false (Instr.queryOpticalPorts false 9#32 256#64 64#32) { owner := q.owner, bufs := q.bufs, query := q.query : Need } ∧ sh.Starts false (Instr.queryDebugChallenge false 9#32 256#64 64#32) { owner := q.owner, bufs := q.bufs, query := q.query : Need } ∧ sh.named 0#32 = some 0 ∧ sh.Starts false (Instr.queryTileReport false 9#32 0#32 256#64 64#32) { owner := q.owner, bufs := q.bufs, name := some 0#32, query := q.query : Need } ∧ sh.Starts false (Instr.queryRouterCounters false 9#32 0#32 256#64 64#32) { owner := q.owner, bufs := q.bufs, name := some 0#32, query := q.query : Need } ∧ sh.Starts false att { owner := false, bufs := [((512#64).toNat, 64), ((256#64).toNat, 5075)] : Need })
    ∧ (let q : Need := { owner := false, bufs := [((256#64).toNat, (64#32).toNat)], query := true : Need }; w2.Starts true (Instr.queryModuleState true 9#32 256#64 64#32) { owner := q.owner, bufs := q.bufs, query := q.query : Need } ∧ w2.Starts true (Instr.queryMirage true 9#32 256#64 64#32) { owner := q.owner, bufs := q.bufs, query := q.query : Need } ∧ w2.Starts true (Instr.queryEnergy true 9#32 256#64 64#32) { owner := q.owner, bufs := q.bufs, query := q.query : Need } ∧ w2.Starts true (Instr.queryOpticalPorts true 9#32 256#64 64#32) { owner := q.owner, bufs := q.bufs, query := q.query : Need } ∧ w2.Starts true (Instr.queryDebugChallenge true 9#32 256#64 64#32) { owner := q.owner, bufs := q.bufs, query := q.query : Need } ∧ w2.named 4#32 = some 96 ∧ w2.Starts true (Instr.queryTileReport true 9#32 4#32 256#64 64#32) { owner := q.owner, bufs := q.bufs, name := some 4#32, query := q.query : Need } ∧ w2.Starts true (Instr.queryRouterCounters true 9#32 4#32 256#64 64#32) { owner := q.owner, bufs := q.bufs, name := some 4#32, query := q.query : Need })
    ∧ (let q : Need := { owner := false, bufs := [((256#64).toNat, (0#32).toNat)], query := true : Need }; let att : Instr := Instr.attest true 9#32 512#64 256#64; sh.Starts true (Instr.queryModuleState true 9#32 256#64 0#32) { owner := q.owner, bufs := q.bufs, query := q.query : Need } ∧ sh.Starts true (Instr.queryMirage true 9#32 256#64 0#32) { owner := q.owner, bufs := q.bufs, query := q.query : Need } ∧ sh.Starts true (Instr.queryEnergy true 9#32 256#64 0#32) { owner := q.owner, bufs := q.bufs, query := q.query : Need } ∧ sh.Starts true (Instr.queryOpticalPorts true 9#32 256#64 0#32) { owner := q.owner, bufs := q.bufs, query := q.query : Need } ∧ sh.Starts true (Instr.queryDebugChallenge true 9#32 256#64 0#32) { owner := q.owner, bufs := q.bufs, query := q.query : Need } ∧ sh.named 393216#32 = none ∧ sh.curArg = 0 ∧ sh.Starts true att { owner := false, bufs := [((512#64).toNat, 64), ((256#64).toNat, 5075)] : Need }) := by
  and_intros <;> first | exact name_none | exact name_some (by decide +kernel) | decide +kernel

end Reports

namespace TileCycle

/-! States of the witnesses of the events of a tile cycle. -/
def pS : Pend := { at' := 100, flags := 3#11, effs := [.sreg 5 ⟨9#32, true⟩] }
def pT : Pend := { at' := 100, flags := 3#11, traps := true, slot := 2, id := 6, pc := 0x1000, effs := [.sreg 5 ⟨9#32, false⟩] }
def wp (p : Pend) (f : Word := 0#32) : State := at0 { core0 with pend := [p], aflags := f }
def gb (n due : Nat) : GangRow := { n := n, due := due, row := 0, bt := 1, ty := 0, data := 0, poi := 0 }
def pSt : Pend := { at' := 100, effs := [.store 4 0x1004 0x11223344#2048 1#64] }
def qz : Path := { (s0.newPath 0 100 10) with started := false, s := 1000, ty := 0, w := 2, q := none }
def pV : Pend := { at' := 90, effs := [.store 256 0x1000 0x11223344#2048 1#64] }
def lat : SMap Byte := [(12288*2, 1#8)]
def qsb : Path := { qz with ty := 8 }
def w1 : State := (at0 core0 { paths := [qsb], latch := lat })
def w2 : State := (at0 core0 { leaseReq := [(0, 3), (2, 4)], leaseLast := some 0 })
def w3 : State := (at0 core0 { leaseReq := [(0, 3), (2, 4)] })
def w4 : State := (at0 core0 { leaseReq := [(0, 3), (2, 4)], leaseLast := some 3 })
def w5 : State := (at0 core0 { leaseReq := [(0, 3), (2, 4)], leaseLast := some 3, arrSpans := [(990, 1000)] })
def w6 : State := (at0 { core0 with cmds := 64 } { leaseCore := some 0 })
def w7 : State := (at0 { core0 with cmds := 63, lcyc := 4096 } { leaseCore := some 0 })
def w8 : State := (at0 { core0 with cmds := 63, lcyc := 4095 } { leaseCore := some 0 })
def w9 : State := (at0 { core0 with cmds := 63, lcyc := 4096, mode := .monitor } { leaseCore := some 0 })
def w10 : State := (at0 core0 { gangN := 3, gangBuf := [gb 2 990] })
def w11 : State := (at0 core0 { gangN := 3, gangBuf := [gb 3 990] })
def w12 : State := (at0 core0 { gangN := 3, gangBuf := [gb 3 1010] })
def w13 : State := (at0 core0 { gangN := 3, gangBuf := [gb 2 1010] })
def w14 : State := (at0 core0 { gangN := 3, gangBuf := [{ gb 2 1010 with inBuf := true }] })
def w15 : GangRow := { gb 2 1010 with inBuf := true }
def w16 : State := (at0 core0 { gangN := 3, gangBuf := [{ gb 3 1010 with inBuf := true }] })
def w17 : GangRow := { gb 3 1010 with inBuf := true }
def w18 : State := (at0 core0 { gangN := 3, gangBuf := [gb 3 1000] })
def w19 : State := (at0 core0 { gangN := 3, gangBuf := [gb 3 1001] })
def w20 : State := (at0 core0 { gangN := 3, gangBuf := [{ gb 3 990 with inBuf := true }, { gb 4 990 with inBuf := true }, gb 5 990] })
def w21 : GangRow := { gb 3 990 with inBuf := true }
def w22 : GangRow := { gb 4 990 with inBuf := true }
def w23 : State := (at0 core0 { gangN := 3, gangBuf := [{ gb 3 990 with inBuf := true }, { gb 4 990 with inBuf := true }, gb 5 1000] })
def w24 : State := (at0 core0 { gangN := 3, gangBuf := [{ gb 3 990 with inBuf := true }, { gb 4 990 with inBuf := true }, gb 4 1000] })
def w25 : State := (at0 { core0 with cmds := 63, lcyc := 4097 } { leaseCore := some 0 })
def w26 : State := (at0 { core0 with cmds := 63, lcyc := 5, mode := .draining } { leaseCore := some 0 })
def w27 : State := (at0 { core0 with cmds := 63, lcyc := 4097 } { leaseCore := some 0, leaseLast := some 0 })
def w28 : State := (at0 { core0 with cmds := 63, lcyc := 4097 } { leaseLast := some 0 })
def w29 : State := { at0 { core0 with cmds := 63, lcyc := 4097 } { leaseLast := some 0, leaseReq := [(2, 3)] } with curArg := 1 }
def w30 : State := { at0 { core0 with cmds := 63, lcyc := 4097 } { leaseLast := some 0, leaseReq := [(2, 3)] } with curArg := 0 }
def w31 : State := { at0 { core0 with cmds := 63, lcyc := 4097 } { leaseLast := some 0, leaseReq := [(2, 3)], arrSpans := [(990, 1000)] } with curArg := 1 }

theorem witness_TileCycleEvents :
    (let c : Core := (wp pS).core; (wp pS).here.paths = [] ∧ c.mode = Mode.task ∧ c.pend = [pS] ∧ pS.mon = false ∧ pS.at' ≤ c.tsk ∧ pS.effs = [Eff.sreg 5 { val := 9#32, poi := true : PWord }] ∧ (pS.traps = false ∨ enabled c.aflags pS.flags = 0#6))
    ∧ (let c : Core := (wp pT).core; (wp pT).here.paths = [] ∧ c.mode = Mode.task ∧ c.pend = [pT] ∧ pT.mon = false ∧ pT.at' ≤ c.tsk ∧ pT.effs = [Eff.sreg 5 { val := 9#32 : PWord }] ∧ (pT.traps = false ∨ enabled c.aflags pT.flags = 0#6))
    ∧ (let c : Core := (wp pT 131072#32).core; (wp pT 131072#32).here.paths = [] ∧ c.mode = Mode.task ∧ c.pend = [pT] ∧ pT.mon = false ∧ pT.at' ≤ c.tsk ∧ pT.effs = [Eff.sreg 5 { val := 9#32 : PWord }] ∧ pT.traps = true ∧ enabled c.aflags pT.flags ≠ 0#6)
    ∧ (let x : Tile := (wp pSt).here; (wp pSt).curC < 4 ∧ x.paths = [] ∧ x.streams = [] ∧ (∀ (c : Nat), c ≠ (wp pSt).curC → (x.core c).pend = []) ∧ (wp pSt).core.pend = [pSt] ∧ (wp pSt).core.mode = Mode.task ∧ pSt.mon = false ∧ pSt.at' ≤ (wp pSt).core.tsk ∧ pSt.effs = [Eff.store 4 4100 287454020#2048 1#64])
    ∧ (let x : Tile := (wp pV).here; (wp pV).curC < 4 ∧ x.paths = [] ∧ x.streams = [] ∧ (∀ (c : Nat), c ≠ (wp pV).curC → (x.core c).pend = []) ∧ (wp pV).core.pend = [pV] ∧ (wp pV).core.mode = Mode.task ∧ pV.mon = false ∧ pV.at' ≤ (wp pV).core.tsk ∧ pV.effs = [Eff.store 256 4096 287454020#2048 1#64])
    ∧ (let x : Tile := (at0 core0 { paths := [qz] : Tile }).here; let tc : Nat := (at0 core0 { paths := [qz] : Tile }).tcyc (at0 core0 { paths := [qz] : Tile }).curT; x.paths = [qz] ∧ qz.started = false ∧ qz.s = tc ∧ qz.kind ≤ 2 ∧ x.latchFits qz.ty qz.w = true)
    ∧ (let x : Tile := w1.here; let tc : Nat := w1.tcyc w1.curT; x.paths = [qsb] ∧ qsb.started = false ∧ qsb.s = tc ∧ qsb.kind ≤ 2 ∧ x.latchFits qsb.ty qsb.w = false)
    ∧ (let x : Tile := w2.here; let tc : Nat := w2.tcyc w2.curT; let first : Nat := match x.leaseLast with | some c => c + 1 | none => 0; x.leaseCore = none ∧ (∀ (r : Nat × Nat), r ∈ x.arrSpans ++ x.lwtSpans → r.snd < tc) ∧ 2 < 4 ∧ (2, 4) ∈ x.leaseReq ∧ (∀ (j : Nat), (2, j) ∈ x.leaseReq → j = 4) ∧ (∀ (d j : Nat), (d, j) ∈ x.leaseReq → d < 4 → (2 + 8 - first) % 4 ≤ (d + 8 - first) % 4) ∧ first ≤ 4 ∧ w2.curArg ≠ 1 ∧ (∀ (d : Nat), x.leaseLast = some d → (x.core d).lcyc ≠ 4097))
    ∧ (let x : Tile := w3.here; let tc : Nat := w3.tcyc w3.curT; let first : Nat := match x.leaseLast with | some c => c + 1 | none => 0; x.leaseCore = none ∧ (∀ (r : Nat × Nat), r ∈ x.arrSpans ++ x.lwtSpans → r.snd < tc) ∧ 0 < 4 ∧ (0, 3) ∈ x.leaseReq ∧ (∀ (j : Nat), (0, j) ∈ x.leaseReq → j = 3) ∧ (∀ (d j : Nat), (d, j) ∈ x.leaseReq → d < 4 → (0 + 8 - first) % 4 ≤ (d + 8 - first) % 4) ∧ first ≤ 4 ∧ w3.curArg ≠ 1 ∧ (∀ (d : Nat), x.leaseLast = some d → (x.core d).lcyc ≠ 4097))
    ∧ (let x : Tile := w4.here; let tc : Nat := w4.tcyc w4.curT; let first : Nat := match x.leaseLast with | some c => c + 1 | none => 0; x.leaseCore = none ∧ (∀ (r : Nat × Nat), r ∈ x.arrSpans ++ x.lwtSpans → r.snd < tc) ∧ 0 < 4 ∧ (0, 3) ∈ x.leaseReq ∧ (∀ (j : Nat), (0, j) ∈ x.leaseReq → j = 3) ∧ (∀ (d j : Nat), (d, j) ∈ x.leaseReq → d < 4 → (0 + 8 - first) % 4 ≤ (d + 8 - first) % 4) ∧ first ≤ 4 ∧ w4.curArg ≠ 1 ∧ (∀ (d : Nat), x.leaseLast = some d → (x.core d).lcyc ≠ 4097))
    ∧ (let x : Tile := w5.here; let tc : Nat := w5.tcyc w5.curT; x.leaseCore = none ∧ w5.curArg ≠ 1 ∧ ((∃ r, r ∈ x.arrSpans ++ x.lwtSpans ∧ tc ≤ r.snd) ∨ ∀ (d : Nat), d < 4 → ∀ (j : Nat), ¬(d, j) ∈ x.leaseReq))
    ∧ (let x : Tile := (at0 core0 { leaseLast := some 3 : Tile }).here; let tc : Nat := (at0 core0 { leaseLast := some 3 : Tile }).tcyc (at0 core0 { leaseLast := some 3 : Tile }).curT; x.leaseCore = none ∧ (at0 core0 { leaseLast := some 3 : Tile }).curArg ≠ 1 ∧ ((∃ r, r ∈ x.arrSpans ++ x.lwtSpans ∧ tc ≤ r.snd) ∨ ∀ (d : Nat), d < 4 → ∀ (j : Nat), ¬(d, j) ∈ x.leaseReq))
    ∧ (let x : Tile := w6.here; let y : Core := x.core 0; (∀ (d : Nat), x.leaseLast = some d → (x.core d).lcyc ≠ 4097) ∧ x.leaseCore = some 0 ∧ 64 ≤ y.cmds)
    ∧ (let x : Tile := w7.here; let y : Core := x.core 0; (∀ (d : Nat), x.leaseLast = some d → (x.core d).lcyc ≠ 4097) ∧ x.leaseCore = some 0 ∧ y.cmds < 64 ∧ y.inMon = false)
    ∧ (let x : Tile := w8.here; let y : Core := x.core 0; (∀ (d : Nat), x.leaseLast = some d → (x.core d).lcyc ≠ 4097) ∧ x.leaseCore = some 0 ∧ y.cmds < 64 ∧ y.inMon = false)
    ∧ (let x : Tile := w9.here; let y : Core := x.core 0; (∀ (d : Nat), x.leaseLast = some d → (x.core d).lcyc ≠ 4097) ∧ x.leaseCore = some 0 ∧ y.cmds < 64 ∧ y.inMon = true)
    ∧ (let x : Tile := w10.here; x.paths = [] ∧ x.gangBuf = [gb 2 990])
    ∧ (let x : Tile := w11.here; x.paths = [] ∧ x.gangBuf = [gb 3 990])
    ∧ (let x : Tile := w12.here; x.paths = [] ∧ x.gangBuf = [gb 3 1010])
    ∧ (let x : Tile := w13.here; x.paths = [] ∧ x.gangBuf = [gb 2 1010])
    ∧ (let x : Tile := w14.here; x.paths = [] ∧ x.gangBuf = [w15])
    ∧ (let x : Tile := w16.here; x.paths = [] ∧ x.gangBuf = [w17])
    ∧ (let x : Tile := w18.here; x.paths = [] ∧ x.gangBuf = [gb 3 1000])
    ∧ (let x : Tile := w19.here; x.paths = [] ∧ x.gangBuf = [gb 3 1001])
    ∧ (let x : Tile := w20.here; x.paths = [] ∧ x.gangBuf = [w21, w22, gb 5 990] ∧ w21.inBuf = true ∧ w22.inBuf = true ∧ (gb 5 990).inBuf = false ∧ (gb 5 990).due ≤ w20.gcyc ∧ x.gangN ≤ w21.n ∧ x.gangN ≤ w22.n ∧ x.gangN ≤ (gb 5 990).n ∧ w21.n ≠ w22.n ∧ (gb 5 990).n ≠ w21.n ∧ (gb 5 990).n ≠ w22.n)
    ∧ (let x : Tile := w23.here; x.paths = [] ∧ x.gangBuf = [w21, w22, gb 5 1000] ∧ w21.inBuf = true ∧ w22.inBuf = true ∧ (gb 5 1000).inBuf = false ∧ (gb 5 1000).due ≤ w23.gcyc ∧ x.gangN ≤ w21.n ∧ x.gangN ≤ w22.n ∧ x.gangN ≤ (gb 5 1000).n ∧ w21.n ≠ w22.n ∧ (gb 5 1000).n ≠ w21.n ∧ (gb 5 1000).n ≠ w22.n)
    ∧ (let x : Tile := w25.here; let y : Core := x.core 0; (∀ (d : Nat), x.leaseLast = some d → (x.core d).lcyc ≠ 4097) ∧ x.leaseCore = some 0 ∧ y.cmds < 64 ∧ y.inMon = false)
    ∧ (let x : Tile := w26.here; let y : Core := x.core 0; (∀ (d : Nat), x.leaseLast = some d → (x.core d).lcyc ≠ 4097) ∧ x.leaseCore = some 0 ∧ y.cmds < 64 ∧ y.inMon = false)
    ∧ (let x : Tile := w28.here; let tc : Nat := w28.tcyc w28.curT; let y : Core := x.core 0; x.leaseCore = none ∧ w28.curArg ≠ 1 ∧ ((∃ r, r ∈ x.arrSpans ++ x.lwtSpans ∧ tc ≤ r.snd) ∨ ∀ (d : Nat), d < 4 → ∀ (j : Nat), ¬(d, j) ∈ x.leaseReq) ∧ x.leaseLast = some 0 ∧ y.lcyc = 4097)
    ∧ (let x : Tile := w29.here; let y : Core := x.core 0; let tc : Nat := w29.tcyc w29.curT; x.leaseCore = none ∧ x.leaseLast = some 0 ∧ y.lcyc = 4097 ∧ w29.curArg = 1 ∧ (∀ (r : Nat × Nat), r ∈ x.arrSpans ++ x.lwtSpans → r.snd < tc) ∧ x.leaseReq = [(2, 3)] ∧ 2 < 4 ∧ 2 ≠ 0)
    ∧ (let x : Tile := w30.here; let y : Core := x.core 0; x.leaseCore = none ∧ x.leaseLast = some 0 ∧ y.lcyc = 4097 ∧ w30.curArg ≠ 1)
    ∧ (let x : Tile := w31.here; let y : Core := x.core 0; x.leaseCore = none ∧ x.leaseLast = some 0 ∧ y.lcyc = 4097) := by
  and_intros <;> first | exact name_none | decide +kernel | (intro c h; cases c with | zero => exact absurd rfl h | succ n => exact rfl) | (refine mem_val ?_; decide +kernel) | (refine mem_all ?_; decide +kernel) | exact .inl ⟨_, .head _, by decide +kernel⟩ | exact .inr fun d _ j h => nomatch h

end TileCycle

namespace EngineCycle

/-! States of the witnesses of the events of the engines. -/
def q0 : CopyCmd := { dt := true, red := 0, dst := 0x2000, src := 0x100, len := 128, core := 1, k := 3, start := 1000 }
def qg : CopyCmd := { q0 with going := true, wake := 1000, pos := 1 }
def qf : CopyCmd := { q0 with going := true, wake := 1000, pos := 2, flags := 5#11 }
def qb : CopyCmd := { q0 with going := true, wake := 1000, bad := true }
def u0 : SumCmd := { op := 0x10, z := 3, x := 1, y := 4, k := 5 }
def u1 : SumCmd := { op := 0x18, z := 3, addr := 0x1000, k := 5, issue := 998 }
def u2 : SumCmd := { op := 0x1A, z := 3, k := 5, started := true, done := 1000, id := 4 }
def u3 : SumCmd := { op := 0x10, z := 3, x := 1, y := 4, k := 5, started := true, done := 1000, id := 4 }
def j0 : StreamJob := { n := 1, core := 0, k := 5, wr := false, cb := 0x1000, read := true, dva := 0x10000, loc := 0x2000, len := 128, rows := 1, wake := 1000 }
def j1 : StreamJob := { j0 with dva := 0x90000 }
def j2 : StreamJob := { j0 with fin := true, status := 0x10, fail := 3 }
def j3 : StreamJob := { j0 with fin := true }
def mem : SMap Byte := [(0x105, 7#8), (0x145, 8#8), (0x2001, 9#8)]
def rng : SMap (List DWord) := [(0, [0x9000000000010000#64, 0x20000#64, 0x1000#64])]
def jw : StreamJob := { j0 with going := true, wake := 5000 }
def w1 : State := (at0 core0 { copyQ := [qg], ds := mem, tm := mem })
def w2 : State := (at0 core0 { copyQ := [{ qg with dt := false, dst := 0x100, src := 0x2000 }], ds := mem, tm := mem })
def w3 : CopyCmd := { qg with dt := false, dst := 0x100, src := 0x2000 }
def w4 : State := (at0 core0 { copyQ := [q0], ds := mem, tm := mem })
def w5 : State := (at0 core0 { copyQ := [qf], ds := mem, tm := mem })
def w6 : State := (at0 core0 { copyQ := [qb], ds := mem, tm := mem })
def w7 : State := (at0 { core0 with sumQ := [u0, u1] })
def w8 : State := (at0 { core0 with sumQ := [u1, u1] })
def w9 : State := (at0 { core0 with sumQ := [u2, u1] })
def w10 : State := (at0 { core0 with sumQ := [u3, u1] })
def w11 : State := (at0 core0 { laneTest := some (3, 1000), badBus := [(3, 17, none)], busLog := [(3, 0x300#32)] })
def w12 : State := (at0 core0 { laneTest := some (3, 1000), badBus := [(3, 17, none)] })
def w13 : State := (at0 core0 { laneTest := some (3, 1000), badBus := [(3, 17, none)], busLog := [(3, 0x7F00#32)] })
def w14 : State := { at0 core0 { streams := [j0] } with range := rng }
def w15 : State := { at0 core0 { streams := [j1] } with range := rng }
def w16 : State := { at0 core0 { streams := [j2] } with range := rng }
def w17 : State := { at0 core0 { streams := [j3] } with range := rng }
def w18 : State := { at0 core0 { streams := j0 :: List.replicate 512 jw } with range := rng }
def w19 : State := { at0 core0 { streams := j0 :: List.replicate 511 jw } with range := rng }
def w20 : State := (at0 core0 { laneTest := some (3, 1000), badBus := [(3, 17, some 2)], busLog := [(3, 0x300#32)] })

theorem witness_EngineEvents :
    (let x : Tile := w1.here; let tc : Nat := w1.tcyc w1.curT; (x.paths = [] ∧ (∀ (d : Nat), d < 4 → (x.core d).sumQ = [] ∧ (x.core d).crg = []) ∧ x.copyQ = [qg] ∧ qg.going = true ∧ qg.wake ≤ tc ∧ qg.bad = false ∧ 64 * qg.pos < qg.len ∧ qg.red = 0 ∧ x.banks = [] ∧ x.laneTest = none ∧ x.badBus = [] ∧ x.errs = []) ∧ x.copyQ = [qg] ∧ qg.bad = false ∧ 64 * qg.pos < qg.len)
    ∧ (let x : Tile := w2.here; let tc : Nat := w2.tcyc w2.curT; (x.paths = [] ∧ (∀ (d : Nat), d < 4 → (x.core d).sumQ = [] ∧ (x.core d).crg = []) ∧ x.copyQ = [w3] ∧ w3.going = true ∧ w3.wake ≤ tc ∧ w3.bad = false ∧ 64 * w3.pos < w3.len ∧ w3.red = 0 ∧ x.banks = [] ∧ x.laneTest = none ∧ x.badBus = [] ∧ x.errs = []) ∧ x.copyQ = [w3] ∧ w3.bad = false ∧ 64 * w3.pos < w3.len)
    ∧ (let x : Tile := w4.here; let tc : Nat := w4.tcyc w4.curT; x.copyQ = [q0] ∧ q0.going = false ∧ q0.held = false ∧ q0.start ≤ tc ∧ q0.bad = false ∧ 64 * q0.pos < q0.len)
    ∧ (let x : Tile := w5.here; x.copyQ = [qf] ∧ qf.going = true ∧ (qf.bad = true ∨ qf.len ≤ 64 * qf.pos) ∧ qf.node = none ∧ qf.mon = false ∧ w5.curArg ≠ 1)
    ∧ (let x : Tile := w6.here; x.copyQ = [qb] ∧ qb.going = true ∧ (qb.bad = true ∨ qb.len ≤ 64 * qb.pos) ∧ qb.node = none ∧ qb.mon = false ∧ w6.curArg ≠ 1)
    ∧ (let c : Core := w7.core; c.sumQ = [u0, u1] ∧ u0.started = false ∧ (u0.op < 23 ∨ u0.op = 26))
    ∧ (let c : Core := w8.core; c.sumQ = [u1, u1] ∧ u1.started = false ∧ 23 ≤ u1.op ∧ u1.op ≤ 25)
    ∧ (let tc : Nat := w9.tcyc w9.curT; let c : Core := w9.core; c.sumQ = [u2, u1] ∧ u2.started = true ∧ u2.done ≤ tc ∧ c.sumLines u2 ≤ u2.pos ∧ u2.mon = false ∧ c.inMon = false)
    ∧ (let tc : Nat := w10.tcyc w10.curT; let c : Core := w10.core; c.sumQ = [u3, u1] ∧ u3.started = true ∧ u3.done ≤ tc ∧ c.sumLines u3 ≤ u3.pos ∧ u3.mon = false ∧ c.inMon = false)
    ∧ (let x : Tile := w11.here; x.laneTest = some (3, 1000) ∧ 1000 ≤ w11.glob ∧ x.badBus = [(3, 17, none)] ∧ 2 < 8 ∧ (∀ (n : Nat), n < 2 → (sget (0#32) x.busLog 3).getLsbD (8 + n) = true) ∧ (sget (0#32) x.busLog 3).getLsbD (8 + 2) = false)
    ∧ (let x : Tile := w12.here; x.laneTest = some (3, 1000) ∧ 1000 ≤ w12.glob ∧ x.badBus = [(3, 17, none)] ∧ 0 < 8 ∧ (∀ (n : Nat), n < 0 → (sget (0#32) x.busLog 3).getLsbD (8 + n) = true) ∧ (sget (0#32) x.busLog 3).getLsbD (8 + 0) = false)
    ∧ (let x : Tile := w13.here; x.laneTest = some (3, 1000) ∧ 1000 ≤ w13.glob ∧ x.badBus = [(3, 17, none)] ∧ 7 < 8 ∧ (∀ (n : Nat), n < 7 → (sget (0#32) x.busLog 3).getLsbD (8 + n) = true) ∧ (sget (0#32) x.busLog 3).getLsbD (8 + 7) = false)
    ∧ (let x : Tile := w14.here; let tc : Nat := w14.tcyc w14.curT; x.streams = [j0] ∧ j0.held = false ∧ j0.read = true ∧ j0.fin = false ∧ j0.wake ≤ tc ∧ j0.going = false ∧ x.replayTo = none ∧ w14.hubLoad (Config.homeHub w14.curT % 48) < 512)
    ∧ (let x : Tile := w15.here; let tc : Nat := w15.tcyc w15.curT; x.streams = [j1] ∧ j1.held = false ∧ j1.read = true ∧ j1.fin = false ∧ j1.wake ≤ tc ∧ j1.going = false ∧ x.replayTo = none ∧ w15.hubLoad (Config.homeHub w15.curT % 48) < 512)
    ∧ (let x : Tile := w16.here; let tc : Nat := w16.tcyc w16.curT; x.streams = [j2] ∧ j2.fin = true ∧ j2.wake ≤ tc ∧ j2.killed = false ∧ x.banks = [] ∧ j2.status ≠ 33)
    ∧ (let x : Tile := w17.here; let tc : Nat := w17.tcyc w17.curT; x.streams = [j3] ∧ j3.fin = true ∧ j3.wake ≤ tc ∧ j3.killed = false ∧ x.banks = [] ∧ j3.status ≠ 33)
    ∧ (let x : Tile := w18.here; let tc : Nat := w18.tcyc w18.curT; x.streams = j0 :: List.replicate 512 jw ∧ (∀ (k : StreamJob), k ∈ List.replicate 512 jw → tc < k.wake) ∧ j0.held = false ∧ j0.read = true ∧ j0.fin = false ∧ j0.wake ≤ tc ∧ j0.going = false ∧ x.replayTo = none ∧ 512 ≤ w18.hubLoad (Config.homeHub w18.curT % 48))
    ∧ (let x : Tile := w20.here; x.laneTest = some (3, 1000) ∧ 1000 ≤ w20.glob ∧ x.badBus = [(3, 17, some 2)]) := by
  and_intros <;> first | exact name_none | decide +kernel | exact lt_hub (by decide +kernel) (hub_one rfl) | exact le_hub (by decide +kernel) (hub_one rfl)

end EngineCycle

namespace Sending

/-! States of the witnesses of sending. -/
def mem : SMap Byte := [(0x1005, 7#8), (0x1045, 8#8), (0x2001, 9#8)]
def j0 : SendJob := { n := 4, core := 0, kind := 1, cls := 5, dch := 9, dest := 0x1004, tok := some 3, addr := 0x1000, len := 1024, seq := 7, so := 64, ring := 4096, wake := 1000, going := true }
def pk : Packet := { kind := 1, dest := 0x1004, orig := 0, cls := 5, nfl := 1, dch := 9, seq := 7, ofs := 64, slen := 64, data := 0x55AA, poi := 2 }
def pl : Packet := { pk with dest := 0, orig := 0x1004 }
def pa : Packet := { pk with kind := 6, dest := 0, orig := 0x1004 }
def e0 : LeeE := { p := pk, out := 1000, tok := some (0, 3), n := 4 }
def f0 : Flight := { p := pk, tile := 0, at' := 1000 }
def h0 : HoldE := { p := pk, plan := 2, flow := 1, since := 937 }
def fc : Flight := { f0 with via := 1 }
def pc : Packet := { kind := 4, dest := 0, orig := 5, cls := 5, via := 1, ofs := 3 }
def w1 : State := (at0 core0 { sends := [j0], tm := mem, tmPoi := [(0x400, true)] })
def w2 : State := (at0 core0 { sends := [{ j0 with pos := 1 }], tm := mem, tmPoi := [(0x400, true)] })
def w3 : SendJob := { j0 with pos := 1 }
def w4 : State := (at0 core0 { lee := [e0], fence := [(5, 2)] })
def w5 : State := (at0 core0 { lee := [{ e0 with p := pa, tok := none }], fence := [(5, 2)] })
def w6 : LeeE := { e0 with p := pa, tok := none }
def w7 : State := (at0 core0 { lee := [{ e0 with p := { pk with dests := [0x1004, 0x2008] } }], fence := [(5, 2)] })
def w8 : LeeE := { e0 with p := { pk with dests := [0x1004, 0x2008] } }
def w9 : State := (at0 core0 { lee := [{ e0 with out := 1001}] })
def w10 : LeeE := { e0 with out := 1001}
def w11 : State := (at0 core0 { lee := [{ e0 with p := { pk with rel := true } }] })
def w12 : LeeE := { e0 with p := { pk with rel := true } }
def w13 : State := (at0 core0 { lee := [{ e0 with p := { pk with rel := true } }], fence := [(5, 1)] })
def w14 : State := { at0 core0 {} with flights := [f0] }
def w15 : State := { at0 core0 {} with flights := [{ f0 with p := pl }] }
def w16 : Flight := { f0 with p := pl }
def w17 : State := { at0 core0 {} with flights := [{ f0 with p := pa }] }
def w18 : Flight := { f0 with p := pa }
def w19 : State := { at0 core0 {} with flights := [{ f0 with p := {pa with dest := 0x1004} }] }
def w20 : Flight := { f0 with p := {pa with dest := 0x1004} }
def w21 : State := (at0 core0 { hold := [{ h0 with since := 936 }] })
def w22 : HoldE := { h0 with since := 936 }
def w23 : State := (at0 core0 { hold := [h0], routes := [(5120, 8#32), (5120 + 0x108, 0x80000000#32)] })
def w24 : Nat := 0 -- held back: a contribution whose slot is taken, and a caravan with no room
def w25 : State := { at0 core0 { arrq := [{ pc with kind := 7 }], decCfgQ := [(0x1000, 990)] } with flights := [fc] }
def w26 : State := { at0 core0 { arrq := [{ pc with kind := 7, cls := 4 }], decCfgQ := [(0x1000, 990)] } with flights := [fc] }
def w27 : State := { at0 core0 { arrq := [{ pc with kind := 7 }], decCfgQ := [(0x1000, 990)] } with flights := [fc], curArg := 1 }
def w28 : State := { at0 core0 { arrq := [{ pc with kind := 7 }], decCfgQ := [(0x1000, 990)] } with flights := [{ fc with p := { pa with dest := 0x1004 } }], curArg := 1 }
def w29 : Flight := { fc with p := { pa with dest := 0x1004 } }
def w30 : State := { at0 core0 {} with flights := [{ f0 with via := 5 }] }
def w31 : Flight := { f0 with via := 5 }

theorem witness_SendingEvents :
    (let x : Tile := w1.here; let t : Nat := w1.curT; let tc : Nat := w1.tcyc t; x.sends = [j0] ∧ j0.held = false ∧ j0.going = true ∧ j0.wake ≤ tc ∧ j0.rel = false ∧ x.banks = [] ∧ x.errs = [] ∧ x.leeLoad + 64 + j0.size ≤ 262144)
    ∧ (let x : Tile := w2.here; let t : Nat := w2.curT; let tc : Nat := w2.tcyc t; x.sends = [w3] ∧ w3.held = false ∧ w3.going = true ∧ w3.wake ≤ tc ∧ w3.rel = false ∧ x.banks = [] ∧ x.errs = [] ∧ x.leeLoad + 64 + w3.size ≤ 262144)
    ∧ (let x : Tile := w4.here; let t : Nat := w4.curT; let tc : Nat := w4.tcyc t; x.lee = [e0] ∧ e0.out ≤ tc ∧ e0.p.rel = false ∧ x.replayTo = none)
    ∧ (let x : Tile := w5.here; let t : Nat := w5.curT; let tc : Nat := w5.tcyc t; x.lee = [w6] ∧ w6.out ≤ tc ∧ w6.p.rel = false ∧ x.replayTo = none)
    ∧ (let x : Tile := w7.here; let t : Nat := w7.curT; let tc : Nat := w7.tcyc t; x.lee = [w8] ∧ w8.out ≤ tc ∧ w8.p.rel = false ∧ x.replayTo = none)
    ∧ (let x : Tile := w9.here; let t : Nat := w9.curT; let tc : Nat := w9.tcyc t; x.lee = [w10] ∧ tc < w10.out)
    ∧ (let x : Tile := w11.here; let t : Nat := w11.curT; let tc : Nat := w11.tcyc t; x.lee = [w12] ∧ w12.p.ackLane = false ∧ w12.p.rel = true ∧ w12.out ≤ tc ∧ w12.p.cls < 8)
    ∧ (let x : Tile := w13.here; let t : Nat := w13.curT; let tc : Nat := w13.tcyc t; x.lee = [w12] ∧ w12.p.ackLane = false ∧ w12.p.rel = true ∧ w12.out ≤ tc ∧ w12.p.cls < 8)
    ∧ (let x : Tile := w14.here; let t : Nat := w14.curT; let w : Word := x.route0 f0.p.cls; let slot : Nat := if f0.p.ackLane = true then 4 * w14.gcyc else max (4 * w14.gcyc) (sget 0 x.linkFree 0); (w14.flights = [f0] ∧ f0.tile = t ∧ f0.old = none ∧ f0.at' ≤ w14.gcyc ∧ f0.p.dests = [] ∧ x.hold = []) ∧ (f0.p.ackLane = true ∨ w14.curArg ≠ 1 ∧ (f0.via = 5 ∨ x.inputHeld f0.via f0.p.cls = false)) ∧ w14.nextDir t w f0.p.dest = some 0 ∧ 0 < 4 ∧ (f0.via = 5 ∨ w14.planOf t f0.p = none) ∧ wrapsAt t 0 = false ∧ slot < 4 * (w14.gcyc + 1))
    ∧ (let x : Tile := w15.here; let t : Nat := w15.curT; let w : Word := x.route0 w16.p.cls; (w15.flights = [w16] ∧ w16.tile = t ∧ w16.old = none ∧ w16.at' ≤ w15.gcyc ∧ w16.p.dests = [] ∧ x.hold = []) ∧ (w16.p.ackLane = true ∨ w15.curArg ≠ 1 ∧ (w16.via = 5 ∨ x.inputHeld w16.via w16.p.cls = false)) ∧ w15.nextDir t w w16.p.dest = none ∧ x.ps = PState.active ∧ x.replayTo = none ∧ w15.planOf t w16.p = none)
    ∧ (let x : Tile := w17.here; let t : Nat := w17.curT; let w : Word := x.route0 w18.p.cls; (w17.flights = [w18] ∧ w18.tile = t ∧ w18.old = none ∧ w18.at' ≤ w17.gcyc ∧ w18.p.dests = [] ∧ x.hold = []) ∧ (w18.p.ackLane = true ∨ w17.curArg ≠ 1 ∧ (w18.via = 5 ∨ x.inputHeld w18.via w18.p.cls = false)) ∧ w17.nextDir t w w18.p.dest = none ∧ x.ps = PState.active ∧ x.replayTo = none ∧ w17.planOf t w18.p = none)
    ∧ (let x : Tile := w19.here; let t : Nat := w19.curT; let w : Word := x.route0 w20.p.cls; let slot : Nat := if w20.p.ackLane = true then 4 * w19.gcyc else max (4 * w19.gcyc) (sget 0 x.linkFree 0); (w19.flights = [w20] ∧ w20.tile = t ∧ w20.old = none ∧ w20.at' ≤ w19.gcyc ∧ w20.p.dests = [] ∧ x.hold = []) ∧ (w20.p.ackLane = true ∨ w19.curArg ≠ 1 ∧ (w20.via = 5 ∨ x.inputHeld w20.via w20.p.cls = false)) ∧ w19.nextDir t w w20.p.dest = some 0 ∧ 0 < 4 ∧ (w20.via = 5 ∨ w19.planOf t w20.p = none) ∧ wrapsAt t 0 = false ∧ slot < 4 * (w19.gcyc + 1))
    ∧ (let x : Tile := (at0 core0 { hold := [h0] : Tile }).here; x.hold = [h0] ∧ (at0 core0 { hold := [h0] : Tile }).gcyc < h0.since + 64)
    ∧ (let x : Tile := w21.here; x.hold = [w22] ∧ w22.since + 64 ≤ w21.gcyc)
    ∧ (let x : Tile := w23.here; x.hold = [h0] ∧ w23.gcyc < h0.since + 64)
    ∧ (let x : Tile := w25.here; let t : Nat := w25.curT; (w25.flights = [fc] ∧ fc.tile = t ∧ fc.old = none ∧ fc.at' ≤ w25.gcyc ∧ fc.p.dests = [] ∧ x.hold = []) ∧ (fc.p.ackLane = false ∧ fc.via ≠ 5 ∧ x.inputHeld fc.via fc.p.cls = true))
    ∧ (let x : Tile := w27.here; let t : Nat := w27.curT; (w27.flights = [fc] ∧ fc.tile = t ∧ fc.old = none ∧ fc.at' ≤ w27.gcyc ∧ fc.p.dests = [] ∧ x.hold = []) ∧ (fc.p.ackLane = false ∧ fc.via ≠ 5 ∧ x.inputHeld fc.via fc.p.cls = true))
    ∧ (let x : Tile := w28.here; let t : Nat := w28.curT; let w : Word := x.route0 w29.p.cls; let slot : Nat := if w29.p.ackLane = true then 4 * w28.gcyc else max (4 * w28.gcyc) (sget 0 x.linkFree 0); (w28.flights = [w29] ∧ w29.tile = t ∧ w29.old = none ∧ w29.at' ≤ w28.gcyc ∧ w29.p.dests = [] ∧ x.hold = []) ∧ (w29.p.ackLane = true ∨ w28.curArg ≠ 1 ∧ (w29.via = 5 ∨ x.inputHeld w29.via w29.p.cls = false)) ∧ w28.nextDir t w w29.p.dest = some 0 ∧ 0 < 4 ∧ (w29.via = 5 ∨ w28.planOf t w29.p = none) ∧ wrapsAt t 0 = false ∧ slot < 4 * (w28.gcyc + 1))
    ∧ (let x : Tile := w30.here; let t : Nat := w30.curT; let w : Word := x.route0 w31.p.cls; let slot : Nat := if w31.p.ackLane = true then 4 * w30.gcyc else max (4 * w30.gcyc) (sget 0 x.linkFree 0); (w30.flights = [w31] ∧ w31.tile = t ∧ w31.old = none ∧ w31.at' ≤ w30.gcyc ∧ w31.p.dests = [] ∧ x.hold = []) ∧ (w31.p.ackLane = true ∨ w30.curArg ≠ 1 ∧ (w31.via = 5 ∨ x.inputHeld w31.via w31.p.cls = false)) ∧ w30.nextDir t w w31.p.dest = some 0 ∧ 0 < 4 ∧ (w31.via = 5 ∨ w30.planOf t w31.p = none) ∧ wrapsAt t 0 = false ∧ slot < 4 * (w30.gcyc + 1)) := by
  and_intros <;> first | exact name_none | decide +kernel

end Sending

namespace Arrival

/-! States of the witnesses of arrivals. -/
def mem : SMap Byte := [(0x1005, 7#8), (0x1045, 8#8), (0x2001, 9#8)]
def pk : Packet := { kind := 1, dest := 0, orig := 0x1004, cls := 5, nfl := 1, dch := 9, seq := 7, ofs := 4032, slen := 64, data := 0x55AA, poi := 2 }
def c0 : Chan := { rv := true, orig := 0x1004, rbase := 0x2000, rsz := 0, eq := 7 }
def cR : Chan := { c0 with mode := 2 , rop := 0 }
def cD : Chan := { c0 with mode := 1 }
def e0 : CqE := { v := true, kind := 3, idx := 2, st := 1, loc := 0x5000, raddr := 0x3000, len := 2, thr := 3, atok := 4, forced := true, full := [0] }
def r0 : RelWait := { core := 0, k := 3, dch := 9, dest := 0x1004, seq := 7, left := 1 }
def sa (p : Packet) (c : Chan) (x : Tile := {}) : State := at0 core0 { x with arrq := [p], chans := [(p.dch, c)], tm := mem }
def pr : Packet := { pk with kind := 2, ofs := 0 }
def pd : Packet := { pk with kind := 3, ofs := 0x2040, pix := 0 }
def pc : Packet := { pk with kind := 4, ofs := 6 + 256 * 1, pix := 0, slen := 128, nfl := 2 }
def pa : Packet := { pk with kind := 6 }
def pcr : Packet := { pk with kind := 5, dest := 0, orig := 0x1004, ofs := 5000 }
def cs : Chan := { sv := true, dch := 9, dest := 0x1004, cr := 100, win := 0 }
def oa : Nat × Nat × Nat × Nat × Nat := (5, 9, 0x1004, 7, 0)
def w1 : State := (sa { pk with nfl := 8, ofs := 3840, slen := 512 } c0)
def w2 : Packet := { pk with nfl := 8, ofs := 3840, slen := 512 }
def w3 : State := (sa pk { c0 with orig := 5 })
def w4 : Chan := { c0 with orig := 5 }
def w5 : State := (sa pk { c0 with eq := 8 })
def w6 : Chan := { c0 with eq := 8 }
def w7 : State := (sa pr { cR with eq := 6 })
def w8 : Chan := { cR with eq := 6 }
def w9 : State := (sa { pd with ofs := 0x600000 - 64 } cD)
def w10 : Packet := { pd with ofs := 0x600000 - 64 }
def w11 : State := (sa { pd with ofs := 0x600000 } cD)
def w12 : Packet := { pd with ofs := 0x600000 }
def w13 : State := (sa {pc with ofs := 6 + 512, nfl := 1, slen := 64} cD { cq := [(6, { e0 with len := 1 })] })
def w14 : Packet := {pc with ofs := 6 + 512, nfl := 1, slen := 64}
def w15 : State := (sa { pc with ofs := 6 } cD { cq := [(6, e0)] })
def w16 : Packet := { pc with ofs := 6 }
def w17 : State := (sa { pc with ofs := 6 + 768 } cD { cq := [(6, e0)] })
def w18 : Packet := { pc with ofs := 6 + 768 }
def w19 : State := (at0 core0 { cq := [(6, e0)], tm := [(0x3001, 5#8)] ++ mem.take 0 })
def w20 : State := (at0 core0 { cq := [(6, { e0 with forced := false })] })
def w21 : CqE := { e0 with forced := false }
def w22 : State := (at0 { core0 with tok := [(4, ⟨3, 0, 0, 0⟩)] } { cq := [(6, { e0 with forced := false })] })
def w23 : State := (at0 { core0 with tok := [(4, ⟨3, 0, 0, 0⟩)] } { cq := [(6, { e0 with forced := false, kind := 2, ch := 9 })], chans := [(9, {sv := true})] })
def w24 : CqE := { e0 with forced := false, kind := 2, ch := 9 }
def w25 : State := (at0 core0 { cq := [(6, { e0 with kind := 1 })] })
def w26 : CqE := { e0 with kind := 1 }
def w27 : State := (sa pa {} { fence := [(5, 2)], rels := [r0] })
def w28 : State := (sa pa {} { fence := [(5, 2)], rels := [{ r0 with left := 2 }] })
def w29 : RelWait := { r0 with left := 2 }
def w30 : State := (sa { pcr with ofs := 64 } cs)
def w31 : Packet := { pcr with ofs := 64 }
def w32 : State := (sa pa {} { fence := [(5, 2)], rels := [r0], outst := [(1, 2, 3, 4, 5), oa, oa] })
def w33 : State := (sa pa {} { fence := [(5, 2)], rels := [{ r0 with left := 2 }], outst := [oa] })
def w34 : State := (sa { pk with kind := 1, decoded := true } { c0 with eq := 8 })
def w35 : Packet := { pk with kind := 1, decoded := true }

theorem witness_ArrivalEvents :
    (let x : Tile := (sa pk c0).here; (x.banks = [] ∧ x.errs = [] ∧ x.arrq = [pk] ∧ pk.coderAck = false ∧ sget { : Chan } x.chans pk.dch = c0) ∧ pk.kind = 1 ∧ c0.takes pk 0 = true ∧ c0.again pk = false)
    ∧ (let x : Tile := w1.here; (x.banks = [] ∧ x.errs = [] ∧ x.arrq = [w2] ∧ w2.coderAck = false ∧ sget { : Chan } x.chans w2.dch = c0) ∧ w2.kind = 1 ∧ c0.takes w2 0 = true ∧ c0.again w2 = false)
    ∧ (let x : Tile := w3.here; (x.banks = [] ∧ x.errs = [] ∧ x.arrq = [pk] ∧ pk.coderAck = false ∧ sget { : Chan } x.chans pk.dch = w4) ∧ pk.kind = 1 ∧ w4.takes pk 0 = false)
    ∧ (let x : Tile := w5.here; (x.banks = [] ∧ x.errs = [] ∧ x.arrq = [pk] ∧ pk.coderAck = false ∧ sget { : Chan } x.chans pk.dch = w6) ∧ pk.kind = 1 ∧ w6.takes pk 0 = true ∧ w6.again pk = true)
    ∧ (let x : Tile := (sa pr cR).here; (x.banks = [] ∧ x.errs = [] ∧ x.arrq = [pr] ∧ pr.coderAck = false ∧ sget { : Chan } x.chans pr.dch = cR) ∧ pr.kind = 2 ∧ cR.takes pr 2 = true ∧ cR.again pr = false ∧ pr.seq = cR.eq)
    ∧ (let x : Tile := w7.here; (x.banks = [] ∧ x.errs = [] ∧ x.arrq = [pr] ∧ pr.coderAck = false ∧ sget { : Chan } x.chans pr.dch = w8) ∧ pr.kind = 2 ∧ w8.takes pr 2 = true ∧ w8.again pr = false ∧ pr.seq ≠ w8.eq)
    ∧ (let x : Tile := (sa pr c0).here; (x.banks = [] ∧ x.errs = [] ∧ x.arrq = [pr] ∧ pr.coderAck = false ∧ sget { : Chan } x.chans pr.dch = c0) ∧ pr.kind = 2 ∧ c0.takes pr 2 = false)
    ∧ (let x : Tile := (sa pd cD).here; (x.banks = [] ∧ x.errs = [] ∧ x.arrq = [pd] ∧ pd.coderAck = false ∧ sget { : Chan } x.chans pd.dch = cD) ∧ pd.kind = 3 ∧ cD.rv = true ∧ cD.mode = 1 ∧ pd.rangeOk = true)
    ∧ (let x : Tile := w9.here; (x.banks = [] ∧ x.errs = [] ∧ x.arrq = [w10] ∧ w10.coderAck = false ∧ sget { : Chan } x.chans w10.dch = cD) ∧ w10.kind = 3 ∧ cD.rv = true ∧ cD.mode = 1 ∧ w10.rangeOk = true)
    ∧ (let x : Tile := w11.here; (x.banks = [] ∧ x.errs = [] ∧ x.arrq = [w12] ∧ w12.coderAck = false ∧ sget { : Chan } x.chans w12.dch = cD) ∧ w12.kind = 3 ∧ cD.rv = true ∧ cD.mode = 1 ∧ w12.rangeOk = false)
    ∧ (let x : Tile := (sa pc cD { cq := [(6, e0)] : Tile }).here; let e : CqE := sget { : CqE } x.cq (pc.ofs % 256); let i : Nat := pc.ofs / 256 % 64; (x.banks = [] ∧ x.errs = [] ∧ x.arrq = [pc] ∧ pc.coderAck = false ∧ sget { : Chan } x.chans pc.dch = cD) ∧ pc.kind = 4 ∧ cD.rv = true ∧ cD.mode = 1 ∧ (e.v = true ∧ e.kind = 3 ∧ i ≤ e.idx ∧ pc.slen = 64 * e.len) ∧ (¬i ∈ e.full) ∧ e.parts = [])
    ∧ (let x : Tile := w13.here; let e : CqE := sget { : CqE } x.cq (w14.ofs % 256); let i : Nat := w14.ofs / 256 % 64; (x.banks = [] ∧ x.errs = [] ∧ x.arrq = [w14] ∧ w14.coderAck = false ∧ sget { : Chan } x.chans w14.dch = cD) ∧ w14.kind = 4 ∧ cD.rv = true ∧ cD.mode = 1 ∧ (e.v = true ∧ e.kind = 3 ∧ i ≤ e.idx ∧ w14.slen = 64 * e.len) ∧ (¬i ∈ e.full) ∧ e.parts = [])
    ∧ (let x : Tile := w15.here; let e : CqE := sget { : CqE } x.cq (w16.ofs % 256); let i : Nat := w16.ofs / 256 % 64; (x.banks = [] ∧ x.errs = [] ∧ x.arrq = [w16] ∧ w16.coderAck = false ∧ sget { : Chan } x.chans w16.dch = cD) ∧ w16.kind = 4 ∧ cD.rv = true ∧ cD.mode = 1 ∧ (e.v = true ∧ e.kind = 3 ∧ i ≤ e.idx ∧ w16.slen = 64 * e.len) ∧ i ∈ e.full)
    ∧ (let x : Tile := w17.here; let e : CqE := sget { : CqE } x.cq (w18.ofs % 256); let i : Nat := w18.ofs / 256 % 64; (x.banks = [] ∧ x.errs = [] ∧ x.arrq = [w18] ∧ w18.coderAck = false ∧ sget { : Chan } x.chans w18.dch = cD) ∧ w18.kind = 4 ∧ cD.rv = true ∧ cD.mode = 1 ∧ (¬(e.v = true ∧ e.kind = 3 ∧ i ≤ e.idx ∧ w18.slen = 64 * e.len)))
    ∧ (let x : Tile := w19.here; x.banks = [] ∧ x.errs = [] ∧ x.cq = [(6, e0)] ∧ e0.v = true ∧ e0.kind = 3 ∧ e0.st = 1 ∧ e0.forced = true ∧ e0.j = 0 ∧ 0 ∈ e0.full ∧ e0.pos + 1 < e0.len ∧ (e0.forced = true ∨ e0.thr ≤ ((x.core e0.core).token e0.atok).arr))
    ∧ (let x : Tile := w20.here; x.cq = [(6, w21)] ∧ w21.v = true ∧ w21.st = 1 ∧ w21.forced = false ∧ ((x.core w21.core).token w21.atok).arr < w21.thr)
    ∧ (let x : Tile := w22.here; x.cq = [(6, w21)] ∧ w21.v = true ∧ w21.st = 1 ∧ (w21.forced = true ∨ w21.thr ≤ ((x.core w21.core).token w21.atok).arr))
    ∧ (let x : Tile := w23.here; x.cq = [(6, w24)] ∧ w24.v = true ∧ w24.st = 1 ∧ (w24.forced = true ∨ w24.thr ≤ ((x.core w24.core).token w24.atok).arr))
    ∧ (let x : Tile := w25.here; x.cq = [(6, w26)] ∧ w26.v = true ∧ w26.st = 1 ∧ (w26.forced = true ∨ w26.thr ≤ ((x.core w26.core).token w26.atok).arr))
    ∧ (let x : Tile := w27.here; (x.banks = [] ∧ x.errs = [] ∧ x.arrq = [pa] ∧ pa.coderAck = false ∧ sget { : Chan } x.chans pa.dch = { : Chan }) ∧ pa.kind = 6 ∧ (¬(pa.cls, pa.dch, pa.orig, pa.seq, pa.pix) ∈ x.outst))
    ∧ (let x : Tile := w28.here; (x.banks = [] ∧ x.errs = [] ∧ x.arrq = [pa] ∧ pa.coderAck = false ∧ sget { : Chan } x.chans pa.dch = { : Chan }) ∧ pa.kind = 6 ∧ (¬(pa.cls, pa.dch, pa.orig, pa.seq, pa.pix) ∈ x.outst))
    ∧ (let x : Tile := (sa pcr cs).here; (x.banks = [] ∧ x.errs = [] ∧ x.arrq = [pcr] ∧ pcr.coderAck = false ∧ sget { : Chan } x.chans pcr.dch = cs) ∧ pcr.kind = 5 ∧ x.chans = [(pcr.dch, cs)] ∧ cs.sv = true ∧ cs.grp = false ∧ cs.score = nameCore pcr.dest ∧ cs.dch = pcr.dch ∧ nameX cs.dest = nameX pcr.orig ∧ nameY cs.dest = nameY pcr.orig)
    ∧ (let x : Tile := w30.here; (x.banks = [] ∧ x.errs = [] ∧ x.arrq = [w31] ∧ w31.coderAck = false ∧ sget { : Chan } x.chans w31.dch = cs) ∧ w31.kind = 5 ∧ x.chans = [(w31.dch, cs)] ∧ cs.sv = true ∧ cs.grp = false ∧ cs.score = nameCore w31.dest ∧ cs.dch = w31.dch ∧ nameX cs.dest = nameX w31.orig ∧ nameY cs.dest = nameY w31.orig)
    ∧ (let x : Tile := w32.here; (x.banks = [] ∧ x.errs = [] ∧ x.arrq = [pa] ∧ pa.coderAck = false ∧ sget { : Chan } x.chans pa.dch = { : Chan }) ∧ pa.kind = 6 ∧ (pa.cls, pa.dch, pa.orig, pa.seq, pa.pix) ∈ x.outst ∧ pa.entry = none)
    ∧ (let x : Tile := w33.here; (x.banks = [] ∧ x.errs = [] ∧ x.arrq = [pa] ∧ pa.coderAck = false ∧ sget { : Chan } x.chans pa.dch = { : Chan }) ∧ pa.kind = 6 ∧ (pa.cls, pa.dch, pa.orig, pa.seq, pa.pix) ∈ x.outst ∧ pa.entry = none)
    ∧ (let x : Tile := w34.here; (x.banks = [] ∧ x.errs = [] ∧ x.arrq = [w35] ∧ w35.coderAck = false ∧ sget { : Chan } x.chans w35.dch = w6) ∧ w35.kind = 1 ∧ w6.takes w35 0 = true ∧ w6.again w35 = true) := by
  and_intros <;> first | exact name_none | decide +kernel

end Arrival

namespace Caravans

/-! States of the witnesses of caravans. -/
def car : Caravan := { dest2 := 0x1004, orig2 := 0x2008, ofs2 := 0, bid1 := 11#32, bid2 := 22#32, seq2 := 5, slen2 := 64, dch2 := 3, tag2 := 1, pix2 := 0, nfl1 := 1, nfl2 := 1, cx := 98, cent := 255 }
def pc : Packet := { kind := 7, dest := 0, orig := 0x1004, cls := 5, nfl := 1, dch := 9, seq := 7, slen := 64, data := 0x55AA, car := some car }
def d0 : DecCur := { p := pc, wake := 1000, look := some (3, 4), side := some (5, 0) }
def e0 : StoreE := { cent := 7, h1 := some { pc with kind := 1 }, h2 := some { pc with kind := 1 } }
def ca (o : Nat) : Packet := { kind := 6, dest := 0, orig := 0x1004, cls := 5, ofs := 0x8000 + o }
def ev (s : State) (p : Packet) (d : DecCur) (e : StoreE) := (s, p, d, e)
def w1 : State := (at0 core0 { arrq := [pc], decCfgQ := [(0x1000, 5)] })
def w2 : State := (at0 core0 { decCur := some d0, side := [(3, { held := true, gen := 4, bid := 22#32 })] })
def w3 : State := (at0 core0 { decCur := some d0, side := [(3, { held := true, gen := 5, bid := 22#32 })] })
def w4 : State := (at0 core0 { decCur := some d0, side := [] })
def w5 : State := (at0 core0 { arrq := [ca 7], store := [e0] })
def w6 : State := (at0 core0 { arrq := [ca 0x107], store := [e0] })
def w7 : State := (at0 core0 { arrq := [ca 0x107], store := [{ e0 with h1 := none }] })
def w8 : StoreE := { e0 with h1 := none }
def w9 : State := (at0 core0 { decCfgQ := [(0x1000, 1000)], tm := [(0x1003, 0x60#8)], dcar := 5 })
def w10 : State := (at0 core0 { decCfgQ := [(0x1000, 1000)], tm := [(0x1003, 0x61#8)], dcar := 5 })
def w11 : State := (at0 core0 { decCfgQ := [(0x1000, 1000), (5, 6)], tm := [(0x1003, 0xC0#8)], dcar := 5 })

theorem witness_CaravanEvents :
    (let x : Tile := (at0 core0 { arrq := [pc] : Tile }).here; x.arrq = [pc] ∧ pc.kind = 7)
    ∧ (let x : Tile := w1.here; let tc : Nat := w1.tcyc w1.curT; x.arrq = [pc] ∧ pc.kind = 7 ∧ x.decCfgQ = [(4096, 5)] ∧ 5 ≤ tc ∧ x.banks = [] ∧ x.errs = [])
    ∧ (let x : Tile := (at0 core0 { decQ := [pc, pc] : Tile }).here; x.decCur = none ∧ x.decQ = [pc, pc])
    ∧ (let x : Tile := w2.here; let tc : Nat := w2.tcyc w2.curT; x.decCur = some d0 ∧ d0.p.car = some car ∧ car.cent < 256 ∧ d0.wake ≤ tc ∧ d0.look = some (3, 4) ∧ d0.side = some (5, 0))
    ∧ (let x : Tile := w3.here; let tc : Nat := w3.tcyc w3.curT; x.decCur = some d0 ∧ d0.p.car = some car ∧ car.cent < 256 ∧ d0.wake ≤ tc ∧ d0.look = some (3, 4) ∧ d0.side = some (5, 0))
    ∧ (let x : Tile := w4.here; let tc : Nat := w4.tcyc w4.curT; x.decCur = some d0 ∧ d0.p.car = some car ∧ car.cent < 256 ∧ d0.wake ≤ tc ∧ d0.look = some (3, 4) ∧ d0.side = some (5, 0))
    ∧ (let x : Tile := w5.here; x.arrq = [ca 7] ∧ (ca 7).coderAck = true ∧ (ca 7).ofs.testBit 9 = false ∧ x.store = [e0] ∧ e0.cent = (ca 7).ofs % 256)
    ∧ (let x : Tile := w6.here; x.arrq = [ca 263] ∧ (ca 263).coderAck = true ∧ (ca 263).ofs.testBit 9 = false ∧ x.store = [e0] ∧ e0.cent = (ca 263).ofs % 256)
    ∧ (let x : Tile := w7.here; x.arrq = [ca 263] ∧ (ca 263).coderAck = true ∧ (ca 263).ofs.testBit 9 = false ∧ x.store = [w8] ∧ w8.cent = (ca 263).ofs % 256)
    ∧ (let x : Tile := w9.here; let tc : Nat := w9.tcyc w9.curT; x.decCfgQ = [(4096, 1000)] ∧ 1000 ≤ tc ∧ x.banks = [] ∧ x.errs = [])
    ∧ (let x : Tile := w10.here; let tc : Nat := w10.tcyc w10.curT; x.decCfgQ = [(4096, 1000)] ∧ 1000 ≤ tc ∧ x.banks = [] ∧ x.errs = [])
    ∧ (let x : Tile := w11.here; let tc : Nat := w11.tcyc w11.curT; x.decCfgQ = [(4096, 1000), (5, 6)] ∧ 1000 ≤ tc ∧ x.banks = [] ∧ x.errs = []) := by
  and_intros <;> first | exact name_none | decide +kernel

end Caravans

namespace Walker

/-! States of the witnesses of the walker. -/
def mb : BitVec 256 := 0x1122334455667788#256
def nd (pred : Nat) : List Word := [BitVec.ofNat 32 (2^29 + pred * 2^20 + 3 * 2^14), BitVec.ofNat 32 (2 * 2^14), 0x2000#32, 0xFFFFFFFF#32, 0#32]
def nt (thr : Nat) : List Word := [BitVec.ofNat 32 (3 * 2^29 + 2^19), BitVec.ofNat 32 (1 * 2^14), BitVec.ofNat 32 thr, 0#32, 0#32]
def N (r : NodeRt) (l : List Word) (x : Tile := {}) : Tile := { x with nodes := [(2, l)], nrt := [(2, r)], running := true, succ := [(0, 5), (1, 6)] }
def id0 : Core := { core0 with mode := .idle }
def W0 : Word := 0#32
def nb : List Word := [BitVec.ofNat 32 (2^29 + 3 * 2^14), BitVec.ofNat 32 (2 * 2^14), 0x2000#32, 500#32, 0#32]
def bw : Word := 0x84000000#32
def dkc : Core := { mode := .draining, tsk := 100, node := 2, killed := some 7 }
def w1 : State := (at0 core0 { launchQ := [(1000, false, 4, mb)], lcnt := 3 })
def w2 : State := (at0 core0 { launchQ := [(1001, false, 4, mb)], lcnt := 3 })
def w3 : State := (at0 id0 { nodes := [(2, nd 0)], launchQ := [(1000, true, 4, mb)], lcnt := 3 })
def w4 : State := (at0 id0 { nodes := [(2, nd 1)], launchQ := [(1000, true, 4, mb)], lcnt := 3 })
def w5 : State := (at0 { core0 with mode := .draining })
def w6 : State := (at0 { core0 with mode := .draining, pend := [{ at' := 101, counts := true, last := 101, effs := [.sreg 1 {}] }] })
def w7 : State := (at0 core0 (N { st := .running } (nd 1)))
def w8 : State := (at0 core0 { N { count := 2 } (nd 1) with comp := [(1000, 0, 2)] })
def w9 : State := (at0 core0 { N { count := 1 } (nd 1) with comp := [(1000, 0, 2)] })
def w10 : State := (at0 core0 { N { st := .armed } (nt 3) with lcnt := 3 })
def w11 : State := (at0 core0 { N { st := .armed } (nt 3) with lcnt := 2 })
def w12 : State := (at0 id0 (N { st := .ready, ready := 5 } (nd 1)))
def w13 : State := (at0 id0 (N { st := .ready, ready := 5 } nb))
def w14 : State := (at0 { core0 with bars := [(3, 1)] } { barE := [(3, bw)] })
def w15 : State := (at0 { core0 with bars := [(3, 1)] } { barE := [(3, 0x8C000000#32)] })
def w16 : State := { at0 { core0 with bars := [(3, 1)] } with gangRel := [(1000, 0, 3, 1)] }
def w17 : State := { at0 { core0 with bars := [(3, 1)] } with gangRel := [(1001, 0, 3, 1)] }
def w18 : State := (at0 dkc { nrt := [(2, { st := .running, kills := [(1, 3)] })] })
def w19 : State := (at0 { dkc with sumQ := [{ op := 0x1A }] } { nrt := [(2, { st := .running, kills := [(1, 3)] })] })
def w20 : State := (at0 { dkc with tok := [(3, ⟨0, 1, 0, 0⟩)] } { nrt := [(2, { st := .running, kills := [(1, 3)] })] })
def w21 : State := (at0 { core0 with node := 2 } (N { st := .running } (nd 1)))
def w22 : State := (at0 { core0 with node := 5 } (N { st := .running } (nd 1)))
def w23 : State := (at0 id0 (N { st := .running, kills := [(0, 3)] } (nd 1)))

theorem witness_WalkerEvents :
    (let x : Tile := w1.here; x.launchQ = [(1000, false, 4, mb)] ∧ 1000 ≤ w1.gcyc)
    ∧ (let x : Tile := w2.here; x.launchQ = [(1001, false, 4, mb)] ∧ w2.gcyc < 1001)
    ∧ (let x : Tile := w3.here; x.launchQ = [(1000, true, 4, mb)] ∧ 1000 ≤ w3.gcyc ∧ x.nodes = [(2, nd 0)] ∧ x.nKind 2 = 1)
    ∧ (let x : Tile := w4.here; x.launchQ = [(1000, true, 4, mb)] ∧ 1000 ≤ w4.gcyc ∧ x.nodes = [(2, nd 1)] ∧ x.nKind 2 = 1)
    ∧ (w5.core.mode = Mode.draining ∧ w5.core.killed = none)
    ∧ (w6.core.mode = Mode.draining ∧ w6.core.killed = none)
    ∧ (let x : Tile := (at0 id0 (N { st := NState.running : NodeRt } (nd 1))).here; let rt : NodeRt := x.rt 2; (x.nodes = [(2, nd 1)] ∧ x.nKind 2 = 1 ∧ x.running = true) ∧ rt.st = NState.running ∧ rt.restoring = none ∧ rt.lost = false)
    ∧ (let x : Tile := w7.here; let rt : NodeRt := x.rt 2; (x.nodes = [(2, nd 1)] ∧ x.nKind 2 = 1 ∧ x.running = true) ∧ rt.st = NState.running ∧ rt.restoring = none ∧ rt.lost = false)
    ∧ (let x : Tile := w8.here; let tc : Nat := w8.tcyc w8.curT; let rt : NodeRt := x.rt 2; x.running = true ∧ 2 < 256 ∧ x.comp = [(1000, 0, 2)] ∧ 1000 ≤ tc ∧ 2 ≤ rt.count)
    ∧ (let x : Tile := w9.here; let tc : Nat := w9.tcyc w9.curT; let rt : NodeRt := x.rt 2; x.running = true ∧ 2 < 256 ∧ x.comp = [(1000, 0, 2)] ∧ 1000 ≤ tc ∧ rt.count = 1 ∧ rt.st = NState.wait ∧ x.nKind 2 = 1)
    ∧ (let x : Tile := w10.here; let rt : NodeRt := x.rt 2; (x.nodes = [(2, nt 3)] ∧ x.nKind 2 = 3 ∧ x.running = true) ∧ rt.st = NState.armed)
    ∧ (let x : Tile := w11.here; let rt : NodeRt := x.rt 2; (x.nodes = [(2, nt 3)] ∧ x.nKind 2 = 3 ∧ x.running = true) ∧ rt.st = NState.armed)
    ∧ (let x : Tile := w12.here; let rt : NodeRt := x.rt 2; let cs : List Nat := coresOf (x.nMask 2); (x.nodes = [(2, nd 1)] ∧ x.nKind 2 = 1 ∧ x.running = true) ∧ rt.st = NState.ready ∧ rt.saved = none ∧ (∀ (c : Nat), c ∈ cs → (x.core c).mode = Mode.idle))
    ∧ (let x : Tile := w13.here; let rt : NodeRt := x.rt 2; let cs : List Nat := coresOf (x.nMask 2); (x.nodes = [(2, nb)] ∧ x.nKind 2 = 1 ∧ x.running = true) ∧ rt.st = NState.ready ∧ rt.saved = none ∧ (∀ (c : Nat), c ∈ cs → (x.core c).mode = Mode.idle))
    ∧ (let x : Tile := w14.here; x.barE = [(3, bw)] ∧ BitVec.getLsbD bw 31 = true ∧ BitVec.getLsbD bw 30 = false ∧ barCores bw ≠ [])
    ∧ (let x : Tile := w15.here; x.barE = [(3, 2348810240#32)] ∧ (2348810240#32).getLsbD 31 = true ∧ (2348810240#32).getLsbD 30 = false ∧ barCores 2348810240#32 ≠ [])
    ∧ (w16.curArg = 0 ∧ (∀ (e : Nat × Tile), e ∈ w16.tiles → e.snd.barE = []) ∧ w16.gangRel = [(1000, 0, 3, 1)])
    ∧ (w17.curArg = 0 ∧ (∀ (e : Nat × Tile), e ∈ w17.tiles → e.snd.barE = []) ∧ w17.gangRel = [(1001, 0, 3, 1)])
    ∧ (let x : Tile := w18.here; w18.core.mode = Mode.draining ∧ w18.core.killed = some 7 ∧ x.npw w18.curC w18.core.tsk = 0)
    ∧ (let x : Tile := w19.here; w19.core.mode = Mode.draining ∧ w19.core.killed = some 7 ∧ x.npw w19.curC w19.core.tsk = 0)
    ∧ (let x : Tile := w20.here; w20.core.mode = Mode.draining ∧ w20.core.killed = some 7 ∧ x.npw w20.curC w20.core.tsk = 0)
    ∧ (let x : Tile := w21.here; let rt : NodeRt := x.rt 2; (x.nodes = [(2, nd 1)] ∧ x.nKind 2 = 1 ∧ x.running = true) ∧ rt.st = NState.running ∧ rt.restoring = none ∧ rt.lost = false)
    ∧ (let x : Tile := w22.here; let rt : NodeRt := x.rt 2; (x.nodes = [(2, nd 1)] ∧ x.nKind 2 = 1 ∧ x.running = true) ∧ rt.st = NState.running ∧ rt.restoring = none ∧ rt.lost = false)
    ∧ (let x : Tile := w23.here; let rt : NodeRt := x.rt 2; (x.nodes = [(2, nd 1)] ∧ x.nKind 2 = 1 ∧ x.running = true) ∧ rt.st = NState.running ∧ rt.restoring = none ∧ rt.lost = false) := by
  and_intros <;> first | exact name_none | decide +kernel

end Walker

namespace Tasks

/-! States of the witnesses of tasks. -/
def nd (pre : Nat) : List Word := [BitVec.ofNat 32 (2^29 + 1 * 2^14 + pre * 2^13), 0#32, 0x2000#32, 0xFFFFFFFF#32, BitVec.ofNat 32 (49 * 2^16)]
def pA : Pend := { at' := 100, flags := 3#11, traps := true, slot := 2, id := 6, pc := 0x1000, counts := true, last := 101, effs := [.sreg 5 ⟨9#32, false⟩] }
def pQ : Pend := { pA with effs := [.sdq 4 77#2048 0#64] }
def i10 : Info := { cause := 0x10, slot := 2, flg := 3#6, i0 := 0x1000#32 }
def ndr : List Word := [BitVec.ofNat 32 (2^29 + 1 * 2^14), 0#32, 0x2000#32, 0xFFFFFFFF#32, BitVec.ofNat 32 0x100]
def N (r : NodeRt) (l : List Word) (x : Tile := {}) : Tile := { x with nodes := [(2, l)], nrt := [(2, r)], running := true }
def i5 : Info := { cause := 0x21, slot := 3 }
def c2 : Core := { core0 with node := 2 }
def kc : Core := { c2 with mode := .idle, killed := some 5 }
def w1 : State := (at0 { core0 with budget := some 100 })
def w2 : State := (at0 { core0 with budget := some 101 })
def w3 : State := (at0 { core0 with lcause := [(9, i5)] })
def w4 : State := { at0 c2 (N { st := .running } (nd 0)) with curArg := 2 }
def w5 : State := { at0 { c2 with preReq := some ⟨true, 40⟩ } (N { st := .running } (nd 0)) with curArg := 2 }
def w6 : State := { at0 { c2 with preReq := some ⟨true, 50⟩ } (N { st := .running } (nd 1)) with curArg := 2 }
def w7 : State := { at0 { c2 with preReq := some ⟨true, 49⟩ } (N { st := .running } (nd 1)) with curArg := 2 }
def w8 : State := { at0 { c2 with preReq := some ⟨true, 100⟩ } (N { st := .running } (nd 1)) with curArg := 2 }
def w9 : State := (at0 { kc with sideEff := true } (N { st := .running } ndr))
def w10 : State := (at0 kc (N { st := .running, kills := [(0, 5)] } (nd 1)))
def w11 : State := (at0 { c2 with mode := .idle } (N { st := .running, kills := [(0, 5)] } ndr))
def w12 : State := (at0 { c2 with mode := .idle } (N { st := .running, kills := [(0, 5)], replayed := true } ndr))
def w13 : State := { at0 { c2 with mode := .task } (N { st := .running, kills := [(0, 5)] } ndr) with curArg := 2 }
def w14 : State := { at0 { c2 with mode := .task, killed := some 5 } (N { st := .running } ndr) with curArg := 2 }
def w15 : State := (at0 { core0 with lcause := [(50, i10)], pend := [pA] })
def w16 : State := (at0 { core0 with lcause := [(50, i10)], pend := [pQ], task := { bank with sdq := [{ seq := 4, vec := true }, { seq := 5 }] } })
def w17 : State := (at0 { core0 with lcause := [(50, i10)], pend := [pQ], task := { bank with sdq := [{ seq := 4 }, { seq := 5 }] } })
def w18 : State := (at0 { c2 with mode := .task } (N { st := .running, kills := [(1, 5)] } ndr))
def w19 : State := (at0 { c2 with mode := .task } (N { st := .running, kills := [(1, 5)], replayed := true } ndr))
def w20 : State := (at0 { c2 with mode := .task, sideEff := true } (N { st := .running, kills := [(1, 5)] } ndr))

theorem witness_TaskEvents :
    (let c : Core := w1.core; c.mode = Mode.task ∧ c.budget = some 100 ∧ c.lcause = [] ∧ c.deferred = [])
    ∧ (let c : Core := w2.core; c.mode = Mode.task ∧ c.budget = some 101 ∧ c.lcause = [] ∧ c.deferred = [])
    ∧ (let c : Core := w3.core; c.mode = Mode.task ∧ c.lcause = [(9, i5)] ∧ c.deferred = [] ∧ (9, i5).snd.cause ≠ 16)
    ∧ (let c : Core := s0.core; c.mode = Mode.task ∧ c.lcause = [] ∧ c.deferred = [])
    ∧ (let c : Core := w4.core; let x : Tile := w4.here; let cs : List Nat := coresOf (x.nMask 2); c.mode = Mode.task ∧ c.lcause = [] ∧ c.deferred = [] ∧ w4.curArg = 2 ∧ (∀ (d : Nat), d ∈ cs → (x.core d).node = 2 ∧ (x.core d).mode = Mode.task) ∧ x.replayTo = none)
    ∧ (let c : Core := w5.core; let x : Tile := w5.here; let cs : List Nat := coresOf (x.nMask 2); c.mode = Mode.task ∧ c.lcause = [] ∧ c.deferred = [] ∧ w5.curArg = 2 ∧ (∀ (d : Nat), d ∈ cs → (x.core d).node = 2 ∧ (x.core d).mode = Mode.task) ∧ x.replayTo = none)
    ∧ (let c : Core := w6.core; let x : Tile := w6.here; let cs : List Nat := coresOf (x.nMask 2); c.mode = Mode.task ∧ c.lcause = [] ∧ c.deferred = [] ∧ w6.curArg = 2 ∧ (∀ (d : Nat), d ∈ cs → (x.core d).node = 2 ∧ (x.core d).mode = Mode.task) ∧ x.replayTo = none ∧ w6.curC ∈ cs ∧ x.nPre 2 = true)
    ∧ (let c : Core := w7.core; let x : Tile := w7.here; let cs : List Nat := coresOf (x.nMask 2); c.mode = Mode.task ∧ c.lcause = [] ∧ c.deferred = [] ∧ w7.curArg = 2 ∧ (∀ (d : Nat), d ∈ cs → (x.core d).node = 2 ∧ (x.core d).mode = Mode.task) ∧ x.replayTo = none ∧ w7.curC ∈ cs ∧ x.nPre 2 = true)
    ∧ (let c : Core := w8.core; let x : Tile := w8.here; let cs : List Nat := coresOf (x.nMask 2); c.mode = Mode.task ∧ c.lcause = [] ∧ c.deferred = [] ∧ w8.curArg = 2 ∧ (∀ (d : Nat), d ∈ cs → (x.core d).node = 2 ∧ (x.core d).mode = Mode.task) ∧ x.replayTo = none ∧ w8.curC ∈ cs ∧ x.nPre 2 = true)
    ∧ (let x : Tile := w10.here; let cs : List Nat := coresOf (x.nMask 2); x.nodes = [(2, nd 1)] ∧ x.nKind 2 = 1 ∧ x.running = true ∧ (x.rt 2).st = NState.running ∧ (x.rt 2).restoring = none ∧ (x.rt 2).lost = false ∧ (x.rt 2).kills ≠ [] ∧ w10.aborted = false ∧ (x.noReplay 2 = true ∨ (∀ (d : Nat), d ∈ cs → (x.core d).mode = Mode.idle ∨ (x.core d).node ≠ 2) ∧ x.mayReplay 2 = false))
    ∧ (let x : Tile := w11.here; let cs : List Nat := coresOf (x.nMask 2); x.nodes = [(2, ndr)] ∧ x.nKind 2 = 1 ∧ x.running = true ∧ (x.rt 2).st = NState.running ∧ (x.rt 2).restoring = none ∧ (x.rt 2).lost = false ∧ (x.rt 2).kills ≠ [] ∧ w11.aborted = false ∧ (∀ (d : Nat), d ∈ cs → (x.core d).mode = Mode.idle ∨ (x.core d).node ≠ 2) ∧ x.mayReplay 2 = true)
    ∧ (let x : Tile := w12.here; let cs : List Nat := coresOf (x.nMask 2); x.nodes = [(2, ndr)] ∧ x.nKind 2 = 1 ∧ x.running = true ∧ (x.rt 2).st = NState.running ∧ (x.rt 2).restoring = none ∧ (x.rt 2).lost = false ∧ (x.rt 2).kills ≠ [] ∧ w12.aborted = false ∧ (x.noReplay 2 = true ∨ (∀ (d : Nat), d ∈ cs → (x.core d).mode = Mode.idle ∨ (x.core d).node ≠ 2) ∧ x.mayReplay 2 = false))
    ∧ (let c : Core := w13.core; let x : Tile := w13.here; let cs : List Nat := coresOf (x.nMask 2); c.mode = Mode.task ∧ c.lcause = [] ∧ c.deferred = [] ∧ w13.curArg = 2 ∧ (∀ (d : Nat), d ∈ cs → (x.core d).node = 2 ∧ (x.core d).mode = Mode.task) ∧ x.replayTo = none ∧ x.nodes = [(2, ndr)] ∧ x.nKind 2 = 1 ∧ x.running = true ∧ (x.rt 2).st = NState.running ∧ (x.rt 2).restoring = none ∧ (x.rt 2).lost = false ∧ (x.rt 2).kills ≠ [] ∧ w13.aborted = false ∧ x.noReplay 2 = false ∧ (¬∀ (d : Nat), d ∈ cs → (x.core d).mode = Mode.idle ∨ (x.core d).node ≠ 2))
    ∧ (let c : Core := w14.core; let x : Tile := w14.here; let cs : List Nat := coresOf (x.nMask 2); c.mode = Mode.task ∧ c.lcause = [] ∧ c.deferred = [] ∧ w14.curArg = 2 ∧ (∀ (d : Nat), d ∈ cs → (x.core d).node = 2 ∧ (x.core d).mode = Mode.task) ∧ x.replayTo = none)
    ∧ (let c : Core := w15.core; c.mode = Mode.task ∧ c.lcause = [(50, i10)] ∧ c.deferred = [] ∧ (50, i10).snd.cause = 16 ∧ c.pend = [pA] ∧ pA.traps = true ∧ pA.mon = false ∧ pA.at' ≤ c.tsk ∧ (50, i10).fst = 8 * pA.id + pA.slot)
    ∧ (let c : Core := w16.core; c.mode = Mode.task ∧ c.lcause = [(50, i10)] ∧ c.deferred = [] ∧ (50, i10).snd.cause = 16 ∧ c.pend = [pQ] ∧ pQ.traps = true ∧ pQ.mon = false ∧ pQ.at' ≤ c.tsk ∧ (50, i10).fst = 8 * pQ.id + pQ.slot)
    ∧ (let c : Core := w17.core; c.mode = Mode.task ∧ c.lcause = [(50, i10)] ∧ c.deferred = [] ∧ (50, i10).snd.cause = 16 ∧ c.pend = [pQ] ∧ pQ.traps = true ∧ pQ.mon = false ∧ pQ.at' ≤ c.tsk ∧ (50, i10).fst = 8 * pQ.id + pQ.slot)
    ∧ (let c : Core := w18.core; let x : Tile := w18.here; let cs : List Nat := coresOf (x.nMask 2); c.mode = Mode.task ∧ c.lcause = [] ∧ c.deferred = [] ∧ x.nodes = [(2, ndr)] ∧ x.nKind 2 = 1 ∧ x.running = true ∧ (x.rt 2).st = NState.running ∧ (x.rt 2).restoring = none ∧ (x.rt 2).lost = false ∧ (x.rt 2).kills ≠ [] ∧ w18.aborted = false ∧ x.noReplay 2 = false ∧ (¬∀ (d : Nat), d ∈ cs → (x.core d).mode = Mode.idle ∨ (x.core d).node ≠ 2))
    ∧ (let c : Core := w19.core; let x : Tile := w19.here; let cs : List Nat := coresOf (x.nMask 2); c.mode = Mode.task ∧ c.lcause = [] ∧ c.deferred = [] ∧ x.nodes = [(2, ndr)] ∧ x.nKind 2 = 1 ∧ x.running = true ∧ (x.rt 2).st = NState.running ∧ (x.rt 2).restoring = none ∧ (x.rt 2).lost = false ∧ (x.rt 2).kills ≠ [] ∧ w19.aborted = false ∧ (x.noReplay 2 = true ∨ (∀ (d : Nat), d ∈ cs → (x.core d).mode = Mode.idle ∨ (x.core d).node ≠ 2) ∧ x.mayReplay 2 = false))
    ∧ (let c : Core := w20.core; let x : Tile := w20.here; let cs : List Nat := coresOf (x.nMask 2); c.mode = Mode.task ∧ c.lcause = [] ∧ c.deferred = [] ∧ x.nodes = [(2, ndr)] ∧ x.nKind 2 = 1 ∧ x.running = true ∧ (x.rt 2).st = NState.running ∧ (x.rt 2).restoring = none ∧ (x.rt 2).lost = false ∧ (x.rt 2).kills ≠ [] ∧ w20.aborted = false ∧ (x.noReplay 2 = true ∨ (∀ (d : Nat), d ∈ cs → (x.core d).mode = Mode.idle ∨ (x.core d).node ≠ 2) ∧ x.mayReplay 2 = false)) := by
  and_intros <;> first | exact name_none | decide +kernel

end Tasks

namespace Recovery

/-! States of the witnesses of recovery. -/
def v0 : SaveEng := { restore := false, node := 2, cmask := 1, area := 0x10000, len := 0x1000, wake := 1000 }
def vg : SaveEng := { v0 with going := true, pos := 0x1000, bodyEnd := 0x2000 }
def vs : SaveEng := { v0 with going := true, pos := 0x900, bodyEnd := 0x900 }
def rng : SMap (List DWord) := [(0, [0x9000000000010000#64, 0x20000#64, 0x1000#64])]
def k0 : Ckpt := { dva := 0x10000, len := 0x1000, gcyc := 500, tiles := [(0, { held := true, tm := [(5, 6#8)] })], flights := [], runs := [], gangRel := [], ranges := [] }
def B : Nat × Nat := (0, 0)
def ssave (v : SaveEng) (x : Tile := {}) (m : Mode := .idle) : State := { at0 { core0 with mode := m } { x with save := some v } with range := rng }
def zz (s : State) (v : SaveEng) : State := match s.pushDva (Config.homeHub s.curT % 48) v.area 0x40 (recNum (v.header s.glob) 0 0x40) with | .ok z => z | .error _ => s0

/-- A core of a checkpoint. -/
def cpc : Core := { core0 with pc := 0x2000, tsk := 40, aflags := 3#32 }
def cpt : Tile := { held := true, cores := [(0, cpc), (1, { cpc with pc := 0x3000 })], lag := 488 }
def liv : Tile := { lag := 488, frz := [(.undo, some 2000)], ck := [(512, 800, 0), (0, 300, 5)], undo := [⟨0, 64, 0x1122, 5⟩, ⟨1, 3, 9, 1⟩], undoOld := [⟨0, 64, 0x77, 0⟩, ⟨6, 1, 5, 0⟩], tm := [(4096, 0x99#8), (5000, 1#8)], outside := [(512, .release [0] 3), (512, .request 2), (512, .launch (3, true, 5, 0#256)), (513, .release [1] 2)], strikes := [995, 990, 985] }
def lvc : Core := { core0 with v := [(3, ⟨7#2048, 0#64⟩), (4, ⟨8#2048, 1#64⟩)], shadow := [(3, ⟨5#2048, 0#64⟩)], shadowOld := [(3, ⟨4#2048, 0#64⟩), (4, ⟨3#2048, 0#64⟩)] }
def sst (x : Tile := liv) : State := { at0 lvc { x with frz := [] } with snaps := [(0, [cpt, { cpt with lag := 300 }])] }
def rp (r : Nat) : Tile := { liv with lag := 488, replayTo := some r, frz := [(.replay, none), (.undo, some 2000)], late := [.release [0] 3, .request 2, .launch (3, true, 5, 0#256), .packet { kind := 1, dest := 0, orig := 5, cls := 1 }, .row { due := 1, n := 3, row := 2, bt := 1, ty := 2, data := 0, poi := 0 }], toRedo := [(600, .release [0] 3)] }
def srs : State := { at0 core0 { errbank := [(1, 5#32)], badBus := [(1,2,none)] } with range := rng, ckpts := [k0], restoreAt := some (1000, 0) }
def w1 : State := (at0 { core0 with sumQ := [{ op := 0x1A }] } { save := some v0 })
def w2 : State := (at0 core0 { lag := 488, ck := [(0, 488, 0)], undo := [⟨1, 2, 0, 0⟩], journal := 7 })
def w3 : State := (at0 core0 { frz := [(.replay, some 1000), (.undo, some 1001), (.debug, none)], seen := [] })
def w4 : State := (at0 core0 { frz := [(.replay, some 1001), (.undo, some 1000), (.debug, none)], ck := [(512, 512, 0), (0, 0, 5)] , errs := [], seen := [⟨0, 0x1000, false⟩] })
def w5 : State := { s0 with curArg := 65 }
def w6 : State := { s0 with aborted := true }
def w7 : State := { s0 with ckpts := [k0] }
def w8 : State := { s0 with curArg := 1 }
def w9 : State := { s0 with ckpts := [k0], restoreAt := some (1001, 0) }
def w10 : State := { s0 with ckpts := [k0], restoreAt := some (1000, 0) }
def w11 : State := { at0 core0 { frz := [(.migrate, none)], noCode := true } with migs := [(0, 2, 1000, 5)] }
def w12 : State := { s0 with pendOvl := [(1000, 3, 7#32)] }
def w13 : State := { s0 with pendOvl := [(1001, 3, 7#32)] }
def w14 : State := (at0 core0 { ps := .retention, retBad := [(0, 0), (1, 3)], tm := [(5, 6#8)] })
def w15 : State := (at0 core0 { ps := .retention, retBad := [(0, 0), (1, 3)], retLoss := 1 })
def w16 : State := (sst { liv with lag := 400 })
def w17 : State := (sst { liv with ck := [(512, 841, 0), (0, 300, 5)] })
def w18 : Tile := { cpt with lag := 300 }
def w19 : State := (sst { liv with ck := [(512, 840, 0)] })
def w20 : State := (sst { liv with ck := [(512, 841, 0)] })
def w21 : State := (sst { liv with lag := 20 })
def w22 : State := (sst { liv with lag := 488, ck := [(0, 488, 0), (3, 3, 3)] })
def w23 : State := (sst { liv with lag := 488, ck := [(512, 1000, 0), (3, 3, 3)] })
def w24 : State := { sst { liv with lag := 480, ck := [(512, 992, 0), (3, 3, 4095)], frz := [] } with curArg := 1 }
def w25 : State := (at0 lvc { rp 511 with frz := [(.replay, none)] })
def w26 : State := (at0 lvc { rp 512 with frz := [(.replay, none)] })
def w27 : State := (at0 lvc { rp 512 with frz := [] })
def w28 : State := { at0 lvc { errbank := [(0, 7#32), (1, 8#32), (3, 9#32)] } with curArg := 1 }
def w29 : State := { srs with gcyc := 999 }
def w30 : State := { s0 with pendMap := some (1000, [(0, 5#32)], [(3, 7#32)]) }
def w31 : State := { s0 with pendMap := some (1001, [(0, 5#32)], [(3, 7#32)]) }

set_option maxRecDepth 4000 in
theorem witness_RecoveryEvents :
    (let x : Tile := (ssave v0).here; let tc : Nat := (ssave v0).tcyc (ssave v0).curT; let a : Nat := (ssave v0).curArg; x.save = some v0 ∧ v0.restore = false ∧ a = 0 ∧ v0.stopped = false ∧ v0.wake ≤ tc ∧ v0.going = false ∧ a ≠ 1 ∧ (x.ck = [] ∨ x.ck = [(0, 488, 0)] ∧ tc % 512 = 0 ∧ (0, 488, 0).fst ≠ tc) ∧ (ssave v0).aborted = false ∧ (ssave v0).restoreAt = none)
    ∧ (let x : Tile := w1.here; let tc : Nat := w1.tcyc w1.curT; let a : Nat := w1.curArg; x.save = some v0 ∧ v0.restore = false ∧ a = 0 ∧ v0.stopped = false ∧ v0.wake ≤ tc ∧ v0.going = false ∧ a ≠ 1 ∧ (x.ck = [] ∨ x.ck = [(0, 488, 0)] ∧ tc % 512 = 0 ∧ (0, 488, 0).fst ≠ tc) ∧ w1.aborted = false ∧ w1.restoreAt = none)
    ∧ (let x : Tile := (ssave vg).here; let tc : Nat := (ssave vg).tcyc (ssave vg).curT; let a : Nat := (ssave vg).curArg; x.save = some vg ∧ vg.restore = false ∧ a = 0 ∧ vg.stopped = false ∧ vg.wake ≤ tc ∧ vg.going = true ∧ vg.regs = [] ∧ vg.pos < vg.bodyEnd ∧ vg.len ≤ vg.pos ∧ a ≠ 1 ∧ (x.ck = [] ∨ x.ck = [(0, 488, 0)] ∧ tc % 512 = 0 ∧ (0, 488, 0).fst ≠ tc) ∧ (ssave vg).aborted = false ∧ (ssave vg).restoreAt = none)
    ∧ (let x : Tile := (ssave vs).here; let tc : Nat := (ssave vs).tcyc (ssave vs).curT; let a : Nat := (ssave vs).curArg; x.save = some vs ∧ vs.restore = false ∧ vs.stopped = false ∧ vs.going = true ∧ vs.regs = [] ∧ vs.bodyEnd ≤ vs.pos ∧ vs.wake ≤ tc ∧ x.replayTo = none ∧ (ssave vs).pushDva (Config.homeHub (ssave vs).curT % 48) vs.area 64 (recNum (vs.header (ssave vs).glob) 0 64) = Except.ok (zz (ssave vs) vs) ∧ a ≠ 1 ∧ (x.ck = [] ∨ x.ck = [(0, 488, 0)] ∧ tc % 512 = 0 ∧ (0, 488, 0).fst ≠ tc) ∧ (ssave vs).aborted = false ∧ (ssave vs).restoreAt = none)
    ∧ (let x : Tile := (at0 core0 { lag := 488 : Tile }).here; let tc : Nat := (at0 core0 { lag := 488 : Tile }).tcyc (at0 core0 { lag := 488 : Tile }).curT; let a : Nat := (at0 core0 { lag := 488 : Tile }).curArg; a ≠ 1 ∧ (x.ck = [] ∨ x.ck = [(0, 488, 0)] ∧ tc % 512 = 0 ∧ (0, 488, 0).fst ≠ tc) ∧ (at0 core0 { lag := 488 : Tile }).aborted = false ∧ (at0 core0 { lag := 488 : Tile }).restoreAt = none)
    ∧ (let x : Tile := w2.here; let tc : Nat := w2.tcyc w2.curT; let a : Nat := w2.curArg; a ≠ 1 ∧ (x.ck = [] ∨ x.ck = [(0, 488, 0)] ∧ tc % 512 = 0 ∧ (0, 488, 0).fst ≠ tc) ∧ w2.aborted = false ∧ w2.restoreAt = none)
    ∧ (let x : Tile := w3.here; let tc : Nat := w3.tcyc w3.curT; let a : Nat := w3.curArg; a ≠ 1 ∧ (x.ck = [] ∨ x.ck = [(0, 488, 0)] ∧ tc % 512 = 0 ∧ (0, 488, 0).fst ≠ tc) ∧ w3.aborted = false ∧ w3.restoreAt = none)
    ∧ (let a : Nat := w4.curArg; a ≠ 1 ∧ w4.aborted = false ∧ w4.restoreAt = none)
    ∧ (let x : Tile := w5.here; let tc : Nat := w5.tcyc w5.curT; let a : Nat := w5.curArg; a ≠ 1 ∧ (x.ck = [] ∨ x.ck = [(0, 488, 0)] ∧ tc % 512 = 0 ∧ (0, 488, 0).fst ≠ tc) ∧ a = 65 ∧ w5.aborted = false ∧ w5.restoreAt = none)
    ∧ (let x : Tile := w6.here; let tc : Nat := w6.tcyc w6.curT; let a : Nat := w6.curArg; a ≠ 1 ∧ (x.ck = [] ∨ x.ck = [(0, 488, 0)] ∧ tc % 512 = 0 ∧ (0, 488, 0).fst ≠ tc) ∧ w6.aborted = true)
    ∧ (let x : Tile := w7.here; let tc : Nat := w7.tcyc w7.curT; let a : Nat := w7.curArg; a ≠ 1 ∧ (x.ck = [] ∨ x.ck = [(0, 488, 0)] ∧ tc % 512 = 0 ∧ (0, 488, 0).fst ≠ tc) ∧ w7.aborted = false ∧ w7.restoreAt = none)
    ∧ (let a : Nat := w8.curArg; a = 1 ∧ w8.aborted = false)
    ∧ (let x : Tile := w9.here; let tc : Nat := w9.tcyc w9.curT; let a : Nat := w9.curArg; a ≠ 1 ∧ (x.ck = [] ∨ x.ck = [(0, 488, 0)] ∧ tc % 512 = 0 ∧ (0, 488, 0).fst ≠ tc) ∧ w9.aborted = false ∧ w9.restoreAt = some (1001, 0))
    ∧ (let x : Tile := w10.here; let tc : Nat := w10.tcyc w10.curT; let a : Nat := w10.curArg; a ≠ 1 ∧ (x.ck = [] ∨ x.ck = [(0, 488, 0)] ∧ tc % 512 = 0 ∧ (0, 488, 0).fst ≠ tc) ∧ w10.aborted = false ∧ w10.restoreAt = some (1000, 0))
    ∧ (let x : Tile := w11.here; let tc : Nat := w11.tcyc w11.curT; let a : Nat := w11.curArg; a ≠ 1 ∧ (x.ck = [] ∨ x.ck = [(0, 488, 0)] ∧ tc % 512 = 0 ∧ (0, 488, 0).fst ≠ tc) ∧ w11.aborted = false ∧ w11.restoreAt = none ∧ w11.migs = [(0, 2, 1000, 5)] ∧ 2 ≤ 2 ∧ 1000 ≤ w11.gcyc ∧ (∀ (e : Nat × Tile), e ∈ w11.tiles → e.snd.wantMig = false))
    ∧ (let x : Tile := w12.here; let tc : Nat := w12.tcyc w12.curT; let a : Nat := w12.curArg; a ≠ 1 ∧ (x.ck = [] ∨ x.ck = [(0, 488, 0)] ∧ tc % 512 = 0 ∧ (0, 488, 0).fst ≠ tc) ∧ w12.aborted = false ∧ w12.restoreAt = none ∧ w12.pendOvl = [(1000, 3, 7#32)] ∧ w12.pendMap = none)
    ∧ (let x : Tile := w13.here; let tc : Nat := w13.tcyc w13.curT; let a : Nat := w13.curArg; a ≠ 1 ∧ (x.ck = [] ∨ x.ck = [(0, 488, 0)] ∧ tc % 512 = 0 ∧ (0, 488, 0).fst ≠ tc) ∧ w13.aborted = false ∧ w13.restoreAt = none ∧ w13.pendOvl = [(1001, 3, 7#32)] ∧ w13.pendMap = none)
    ∧ (let x : Tile := (at0 core0 { ps := PState.retention : Tile }).here; let tc : Nat := (at0 core0 { ps := PState.retention : Tile }).tcyc (at0 core0 { ps := PState.retention : Tile }).curT; let a : Nat := (at0 core0 { ps := PState.retention : Tile }).curArg; a ≠ 1 ∧ (x.ck = [] ∨ x.ck = [(0, 488, 0)] ∧ tc % 512 = 0 ∧ (0, 488, 0).fst ≠ tc) ∧ (at0 core0 { ps := PState.retention : Tile }).aborted = false ∧ (at0 core0 { ps := PState.retention : Tile }).restoreAt = none ∧ x.ps = PState.retention ∧ a = 0)
    ∧ (let x : Tile := w14.here; let tc : Nat := w14.tcyc w14.curT; let a : Nat := w14.curArg; a ≠ 1 ∧ (x.ck = [] ∨ x.ck = [(0, 488, 0)] ∧ tc % 512 = 0 ∧ (0, 488, 0).fst ≠ tc) ∧ w14.aborted = false ∧ w14.restoreAt = none ∧ x.ps = PState.retention ∧ a = 0)
    ∧ (let x : Tile := w15.here; let tc : Nat := w15.tcyc w15.curT; let a : Nat := w15.curArg; a ≠ 1 ∧ (x.ck = [] ∨ x.ck = [(0, 488, 0)] ∧ tc % 512 = 0 ∧ (0, 488, 0).fst ≠ tc) ∧ w15.aborted = false ∧ w15.restoreAt = none ∧ x.ps = PState.retention ∧ a = 0)
    ∧ (let x : Tile := sst.here; let tc : Nat := sst.tcyc sst.curT; let a : Nat := sst.curArg; a ≠ 1 ∧ x.ck = [(512, 800, 0), (0, 300, 5)] ∧ (tc % 512 ≠ 0 ∨ (512, 800, 0).fst = tc) ∧ a = 0 ∧ (sget [] sst.snaps sst.curT)[0]? = some cpt ∧ sst.stands sst.curT = false ∧ x.replayTo = none ∧ (512, 800, 0).fst ≤ sst.gcyc ∧ (0 = 0 ∧ ([(0, 300, 5)] = [] ∨ (512, 800, 0).snd.fst + 160 ≤ sst.gcyc) ∧ (512, 800, 0) = (512, 800, 0) ∧ liv.undo = x.undo ∨ 0 = 1 ∧ sst.gcyc < (512, 800, 0).snd.fst + 160 ∧ [(0, 300, 5)].head? = some (512, 800, 0) ∧ liv.undo = x.undo ++ x.undoOld) ∧ sst.aborted = false ∧ sst.restoreAt = none)
    ∧ (let x : Tile := w16.here; let tc : Nat := w16.tcyc w16.curT; let a : Nat := w16.curArg; a ≠ 1 ∧ x.ck = [(512, 800, 0), (0, 300, 5)] ∧ (tc % 512 ≠ 0 ∨ (512, 800, 0).fst = tc) ∧ a = 0 ∧ (sget [] w16.snaps w16.curT)[0]? = some cpt ∧ w16.stands w16.curT = false ∧ x.replayTo = none ∧ (512, 800, 0).fst ≤ w16.gcyc ∧ (0 = 0 ∧ ([(0, 300, 5)] = [] ∨ (512, 800, 0).snd.fst + 160 ≤ w16.gcyc) ∧ (512, 800, 0) = (512, 800, 0) ∧ liv.undo = x.undo ∨ 0 = 1 ∧ w16.gcyc < (512, 800, 0).snd.fst + 160 ∧ [(0, 300, 5)].head? = some (512, 800, 0) ∧ liv.undo = x.undo ++ x.undoOld) ∧ w16.aborted = false ∧ w16.restoreAt = none)
    ∧ (let x : Tile := w17.here; let tc : Nat := w17.tcyc w17.curT; let a : Nat := w17.curArg; a ≠ 1 ∧ x.ck = [(512, 841, 0), (0, 300, 5)] ∧ (tc % 512 ≠ 0 ∨ (512, 841, 0).fst = tc) ∧ a = 0 ∧ (sget [] w17.snaps w17.curT)[1]? = some w18 ∧ w17.stands w17.curT = false ∧ x.replayTo = none ∧ (0, 300, 5).fst ≤ w17.gcyc ∧ (1 = 0 ∧ ([(0, 300, 5)] = [] ∨ (512, 841, 0).snd.fst + 160 ≤ w17.gcyc) ∧ (0, 300, 5) = (512, 841, 0) ∧ liv.undo ++ liv.undoOld = x.undo ∨ 1 = 1 ∧ w17.gcyc < (512, 841, 0).snd.fst + 160 ∧ [(0, 300, 5)].head? = some (0, 300, 5) ∧ liv.undo ++ liv.undoOld = x.undo ++ x.undoOld) ∧ w17.aborted = false ∧ w17.restoreAt = none)
    ∧ (let x : Tile := w19.here; let tc : Nat := w19.tcyc w19.curT; let a : Nat := w19.curArg; a ≠ 1 ∧ x.ck = [(512, 840, 0)] ∧ (tc % 512 ≠ 0 ∨ (512, 840, 0).fst = tc) ∧ a = 0 ∧ (sget [] w19.snaps w19.curT)[0]? = some cpt ∧ w19.stands w19.curT = false ∧ x.replayTo = none ∧ (512, 840, 0).fst ≤ w19.gcyc ∧ (0 = 0 ∧ (([] : List (Nat × Nat × Nat)) = [] ∨ (512, 840, 0).snd.fst + 160 ≤ w19.gcyc) ∧ (512, 840, 0) = (512, 840, 0) ∧ liv.undo = x.undo ∨ 0 = 1 ∧ w19.gcyc < (512, 840, 0).snd.fst + 160 ∧ [].head? = some (512, 840, 0) ∧ liv.undo = x.undo ++ x.undoOld) ∧ w19.aborted = false ∧ w19.restoreAt = none)
    ∧ (let x : Tile := w20.here; let tc : Nat := w20.tcyc w20.curT; let a : Nat := w20.curArg; a ≠ 1 ∧ x.ck = [(512, 841, 0)] ∧ (tc % 512 ≠ 0 ∨ (512, 841, 0).fst = tc) ∧ a = 0 ∧ (sget [] w20.snaps w20.curT)[0]? = some cpt ∧ w20.stands w20.curT = false ∧ x.replayTo = none ∧ (512, 841, 0).fst ≤ w20.gcyc ∧ (0 = 0 ∧ (([] : List (Nat × Nat × Nat)) = [] ∨ (512, 841, 0).snd.fst + 160 ≤ w20.gcyc) ∧ (512, 841, 0) = (512, 841, 0) ∧ liv.undo = x.undo ∨ 0 = 1 ∧ w20.gcyc < (512, 841, 0).snd.fst + 160 ∧ [].head? = some (512, 841, 0) ∧ liv.undo = x.undo ++ x.undoOld) ∧ w20.aborted = false ∧ w20.restoreAt = none)
    ∧ (let a : Nat := w21.curArg; a ≠ 1 ∧ w21.aborted = false ∧ w21.restoreAt = none)
    ∧ (let x : Tile := w22.here; let tc : Nat := w22.tcyc w22.curT; let a : Nat := w22.curArg; a ≠ 1 ∧ (x.ck = [] ∨ x.ck = [(0, 488, 0), (3, 3, 3)] ∧ tc % 512 = 0 ∧ (0, 488, 0).fst ≠ tc) ∧ w22.aborted = false ∧ w22.restoreAt = none)
    ∧ (let x : Tile := w23.here; let tc : Nat := w23.tcyc w23.curT; let a : Nat := w23.curArg; a ≠ 1 ∧ x.ck = [(512, 1000, 0), (3, 3, 3)] ∧ (tc % 512 ≠ 0 ∨ (512, 1000, 0).fst = tc) ∧ w23.aborted = false ∧ w23.restoreAt = none)
    ∧ (let x : Tile := w24.here; let a : Nat := w24.curArg; a = 1 ∧ x.ck = [(512, 992, 0), (3, 3, 4095)] ∧ 4096 ≤ x.records ∧ (∀ (f : Frz × Option Nat), f ∈ x.frz → f.fst ≠ Frz.undo) ∧ w24.aborted = false)
    ∧ (let a : Nat := (at0 lvc (rp 511)).curArg; a ≠ 1 ∧ (at0 lvc (rp 511)).aborted = false ∧ (at0 lvc (rp 511)).restoreAt = none)
    ∧ (let a : Nat := w25.curArg; a ≠ 1 ∧ w25.aborted = false ∧ w25.restoreAt = none)
    ∧ (let a : Nat := w26.curArg; a ≠ 1 ∧ w26.aborted = false ∧ w26.restoreAt = none)
    ∧ (let a : Nat := w27.curArg; a ≠ 1 ∧ w27.aborted = false ∧ w27.restoreAt = none)
    ∧ (let a : Nat := w28.curArg; a = 1 ∧ w28.aborted = false)
    ∧ (let x : Tile := srs.here; let tc : Nat := srs.tcyc srs.curT; let a : Nat := srs.curArg; a ≠ 1 ∧ (x.ck = [] ∨ x.ck = [(512, 841, 0)] ∧ tc % 512 = 0 ∧ (512, 841, 0).fst ≠ tc) ∧ srs.aborted = false ∧ srs.restoreAt = some (1000, 0))
    ∧ (let x : Tile := w29.here; let tc : Nat := w29.tcyc w29.curT; let a : Nat := w29.curArg; a ≠ 1 ∧ (x.ck = [] ∨ x.ck = [(512, 841, 0)] ∧ tc % 512 = 0 ∧ (512, 841, 0).fst ≠ tc) ∧ w29.aborted = false ∧ w29.restoreAt = some (1000, 0))
    ∧ (let x : Tile := w30.here; let tc : Nat := w30.tcyc w30.curT; let a : Nat := w30.curArg; a ≠ 1 ∧ (x.ck = [] ∨ x.ck = [(0, 488, 0)] ∧ tc % 512 = 0 ∧ (0, 488, 0).fst ≠ tc) ∧ w30.aborted = false ∧ w30.restoreAt = none ∧ w30.pendOvl = [] ∧ w30.pendMap = some (1000, [(0, 5#32)], [(3, 7#32)]))
    ∧ (let x : Tile := w31.here; let tc : Nat := w31.tcyc w31.curT; let a : Nat := w31.curArg; a ≠ 1 ∧ (x.ck = [] ∨ x.ck = [(0, 488, 0)] ∧ tc % 512 = 0 ∧ (0, 488, 0).fst ≠ tc) ∧ w31.aborted = false ∧ w31.restoreAt = none ∧ w31.pendOvl = [] ∧ w31.pendMap = some (1001, [(0, 5#32)], [(3, 7#32)])) := by
  dsimp only
  and_intros <;> first | exact name_none | decide +kernel | exact rfl

end Recovery

namespace Module

/-! States of the witnesses of the module. -/
def m0 : State := { at0 core0 { frz := [(.balance, some 1000), (.debug, some 1001), (.debug, none)], marks := [5, 6] } with markSet := 32#256, chosen := 3 }
def ckj : HostJob := { n := 3, tag := 7#32, i := .checkpoint false 7#32 1000#64 0x10000#64 0x1000#64 0#64 0#16, started := true, stage := 1, at' := 1000 }
def w1 : State := { m0 with chosen := 4 , clkAt := none}
def w2 : State := { m0 with lowWin := 1, chosen := 3 , markSet := 0#256 }
def w3 : State := { m0 with clkAt := some 1000, clkTo := 2 }
def w4 : State := { m0 with clkAt := some 1001, clkTo := 2 }
def w5 : State := { m0 with boot := .pending, selfFail := [3], recFail := [700] }
def w6 : State := { m0 with boot := .pending, pufOk := false }
def w7 : State := { m0 with sem := [(0, 0x80000001#32)], otmo := 1, idleSince := 5 }
def w8 : State := { m0 with sem := [(0, 0x80000001#32)], otmo := 1, idleSince := 5, gcyc := 2200000000, scrubEnd := none }
def w9 : State := { m0 with sem := [(0, 0x80000001#32)], scrubEnd := some 1000, scrubFree := true }
def w10 : State := { m0 with sem := [(0, 0x80000001#32)], scrubEnd := some 1000 }
def w11 : State := { m0 with sem := [(0, 0x80000001#32)], scrubEnd := some 1001, scrubFree := true }
def w12 : State := { m0 with haltAt := some 1000 }
def w13 : State := { m0 with haltAt := some 1001 }
def w14 : State := { m0 with resumeAt := some 1000, halted := true }
def w15 : State := { m0 with resumeAt := some 1001, halted := true }
def w16 : State := { m0 with cap := 0 }
def w17 : State := { m0 with portA := { enabled := true, jobs := [ckj] } }
def w18 : State := { m0 with portA := { enabled := true, jobs := [{ ckj with at' := 1001 }] }, haltAt := some 1001 }
def w19 : State := { m0 with worked := [3, 7], energy := [(3, 5)] }

theorem witness_ModuleEvents :
    (5 < 256 ∧ (∀ (k : Nat), k < 256 → k ≠ 5 → m0.markSet.getLsbD k = false) ∧ m0.reached 5 = true ∧ m0.changing = false ∧ m0.worked.Nodup)
    ∧ (5 < 256 ∧ (∀ (k : Nat), k < 256 → k ≠ 5 → w1.markSet.getLsbD k = false) ∧ w1.reached 5 = true ∧ w1.changing = false ∧ w1.worked.Nodup)
    ∧ ((∀ (k : Nat), k < 256 → w2.reached k = false) ∧ w2.worked.Nodup)
    ∧ (w3.clkAt = some 1000 ∧ w3.worked.Nodup)
    ∧ (w4.clkAt = some 1001 ∧ w4.worked.Nodup)
    ∧ (5 < 256 ∧ (∀ (k : Nat), k < 256 → k ≠ 5 → w5.markSet.getLsbD k = false) ∧ w5.reached 5 = true ∧ w5.changing = false ∧ w5.worked.Nodup ∧ w5.boot = Boot.pending ∧ w5.flashOk = true ∧ w5.pufOk = true)
    ∧ (5 < 256 ∧ (∀ (k : Nat), k < 256 → k ≠ 5 → w6.markSet.getLsbD k = false) ∧ w6.reached 5 = true ∧ w6.changing = false ∧ w6.worked.Nodup ∧ w6.boot = Boot.pending ∧ (w6.flashOk = false ∨ w6.pufOk = false))
    ∧ (5 < 256 ∧ (∀ (k : Nat), k < 256 → k ≠ 5 → w7.markSet.getLsbD k = false) ∧ w7.reached 5 = true ∧ w7.changing = false ∧ w7.worked.Nodup)
    ∧ (5 < 256 ∧ (∀ (k : Nat), k < 256 → k ≠ 5 → w8.markSet.getLsbD k = false) ∧ w8.reached 5 = true ∧ w8.changing = false ∧ w8.worked.Nodup)
    ∧ (5 < 256 ∧ (∀ (k : Nat), k < 256 → k ≠ 5 → w9.markSet.getLsbD k = false) ∧ w9.reached 5 = true ∧ w9.changing = false ∧ w9.worked.Nodup ∧ w9.scrubEnd = some 1000)
    ∧ (5 < 256 ∧ (∀ (k : Nat), k < 256 → k ≠ 5 → w10.markSet.getLsbD k = false) ∧ w10.reached 5 = true ∧ w10.changing = false ∧ w10.worked.Nodup ∧ w10.scrubEnd = some 1000)
    ∧ (5 < 256 ∧ (∀ (k : Nat), k < 256 → k ≠ 5 → w11.markSet.getLsbD k = false) ∧ w11.reached 5 = true ∧ w11.changing = false ∧ w11.worked.Nodup ∧ w11.scrubEnd = some 1001)
    ∧ (5 < 256 ∧ (∀ (k : Nat), k < 256 → k ≠ 5 → w12.markSet.getLsbD k = false) ∧ w12.reached 5 = true ∧ w12.changing = false ∧ w12.worked.Nodup ∧ w12.haltAt = some 1000 ∧ (∀ (j : HostJob), j ∈ w12.portA.jobs ++ w12.portB.jobs → j.stopsAt = none))
    ∧ (5 < 256 ∧ (∀ (k : Nat), k < 256 → k ≠ 5 → w13.markSet.getLsbD k = false) ∧ w13.reached 5 = true ∧ w13.changing = false ∧ w13.worked.Nodup ∧ w13.haltAt = some 1001 ∧ (∀ (j : HostJob), j ∈ w13.portA.jobs ++ w13.portB.jobs → j.stopsAt = none))
    ∧ (5 < 256 ∧ (∀ (k : Nat), k < 256 → k ≠ 5 → w14.markSet.getLsbD k = false) ∧ w14.reached 5 = true ∧ w14.changing = false ∧ w14.worked.Nodup ∧ w14.resumeAt = some 1000)
    ∧ (5 < 256 ∧ (∀ (k : Nat), k < 256 → k ≠ 5 → w15.markSet.getLsbD k = false) ∧ w15.reached 5 = true ∧ w15.changing = false ∧ w15.worked.Nodup ∧ w15.resumeAt = some 1001)
    ∧ ((∀ (k : Nat), k < 256 → (at0 core0 { stepLeft := 1 : Tile }).reached k = false) ∧ (at0 core0 { stepLeft := 1 : Tile }).worked.Nodup)
    ∧ ((∀ (k : Nat), k < 256 → (at0 core0 { stepLeft := 2 : Tile }).reached k = false) ∧ (at0 core0 { stepLeft := 2 : Tile }).worked.Nodup)
    ∧ (5 < 256 ∧ (∀ (k : Nat), k < 256 → k ≠ 5 → w16.markSet.getLsbD k = false) ∧ w16.reached 5 = true ∧ w16.changing = false ∧ w16.worked.Nodup)
    ∧ (5 < 256 ∧ (∀ (k : Nat), k < 256 → k ≠ 5 → w17.markSet.getLsbD k = false) ∧ w17.reached 5 = true ∧ w17.changing = false ∧ w17.worked.Nodup ∧ (∃ j, j ∈ w17.portA.jobs ++ w17.portB.jobs ∧ ∃ c, j.stopsAt = some c ∧ c ≤ w17.glob))
    ∧ (5 < 256 ∧ (∀ (k : Nat), k < 256 → k ≠ 5 → w18.markSet.getLsbD k = false) ∧ w18.reached 5 = true ∧ w18.changing = false ∧ w18.worked.Nodup)
    ∧ (5 < 256 ∧ (∀ (k : Nat), k < 256 → k ≠ 5 → w19.markSet.getLsbD k = false) ∧ w19.reached 5 = true ∧ w19.changing = false ∧ w19.worked.Nodup) := by
  and_intros <;> first | exact name_none | decide +kernel

end Module

namespace Whole

/-! States of the witnesses of fetching, of a step and of the whole machine: a tile whose code page at 0x1000 begins with the word w. -/
def bundleAt (w : Word) (priv : Bool := false) : State :=
  { at0 core0 { code := ssetBytes [] 0 4 w.toNat, cmap := [(0, if priv then 0xC0001000#32 else 0x80001000#32)] } with agenda := [.issue 0 0] }
def nopAt : State := bundleAt 0xB1400000#32
/-- Two words: a nop without the end bit, and a nop that ends the bundle. -/
def twoAt : Tile := { code := ssetBytes (ssetBytes [] 0 4 0x31400000) 4 4 0xB1400000, cmap := [(0, 0x80001000#32)] }
/-- Four words without the end bit. -/
def fourAt : Tile := { code := ssetBytes (ssetBytes (ssetBytes (ssetBytes [] 0 4 0x31400000) 4 4 0x31400000) 8 4 0x31400000) 12 4 0x31400000
                       cmap := [(0, 0x80001000#32)] }
def entered (s : State) : State :=
  ({ s with agenda := [], curT := 0, curC := 0, curArg := 0, free := drawBase 0 s.restores + (s.tile 0).draws, slot := 1, leaf := none, words := [], before := none, raised := none } : State).upCore
    fun y => { y with loopTest := false }
def words (s : State) : Except FetchFault (List Word) := (entered s).here.fetchBundle (entered s).core.inMon (entered s).core.pc 4
/-- It is a turn to issue, and the core issues in it. -/
def issuing (s : State) : Bool :=
  s.agenda == [.issue 0 0] && (s.tile 0).replayTo == none && (entered s).issues && decide ((entered s).core.due ≤ (entered s).clock) && !(entered s).core.loopTest

def v1 : VRow := ⟨0x0123456789ABCDEF00112233445566778899AABBCCDDEEFF#2048, 0x5#64⟩
/-- NaN in lane 0, infinity in lane 1, 1.0 in lane 2. -/
def v2 : VRow := ⟨0x3F8000007F8000007FC00000#2048, 0#64⟩
def sv : State := at0 { core0 with v := [(1, v1), (2, v2)], m := [(1, ⟨4#128, 0#128⟩)] }

/-- R111, R126: the rows read; a type of each kind; a lane that is NaN, and two that are none, the least and the greatest. -/
theorem witness_VectorCompare :
    (readV 1#7 sv = .ok (v1, sv) ∧ readV 2#7 sv = .ok (v2, sv)) ∧ tyIsF 6#3 = false
    ∧ (tyIsF 0#3 = true ∧ ((tyFmt 0#3).unpack 0x7FC00000).isNan = true)
    ∧ (tyIsF 0#3 = true ∧ 0xFF800000 < 2 ^ tyWidth 0#3 ∧ 0x7F800000 < 2 ^ tyWidth 0#3 ∧ ((tyFmt 0#3).unpack 0xFF800000).isNan = false
      ∧ ((tyFmt 0#3).unpack 0x7F800000).isNan = false) := ⟨⟨rfl, rfl⟩, by decide +kernel⟩

/-- R57, R342: two scalar sources, of which the second is a queue that has nothing, or of which both can be read. -/
theorem witness_SourceOperands :
    (let s := at0 { core0 with qs := true }
     s.core.sAlias 1#6 = false ∧ s.core.sAlias 63#6 = true ∧ ∀ e r, s.core.bank.ldq = e :: r → e.landed = false ∨ e.vec = true)
    ∧ readS 1#6 s0 = .ok (⟨7#32, false⟩, s0) ∧ readS 2#6 s0 = .ok (⟨0xFFFFFFF0#32, false⟩, s0) :=
  ⟨⟨by decide +kernel, by decide +kernel, fun _ _ h => (nomatch h)⟩, rfl, rfl⟩

/-- Channel 5 has credit for one line, group 6 for one line in one of its two, barrier 3 is there. -/
def short : State := { at0 core0 { chans := [(5, { sv := true, score := 0, win := 3, cr := 64 })]
                                   groups := [(6, { v := true, core := 0, dsts := [1, 2], win := 3, cr := [4096, 64] })]
                                   barE := [(3, 0x80000001#32)] } with words := [0#32] }
/-- What a stalled bundle of a task needs besides: no asynchronous cause, also once its core has arrived at the barrier. -/
def calm (s : State) : Bool :=
  s.raised == none && s.leaf == none && s.core.pastLoop 1 == none && (s.here.asyncCause s.curC true).isNone
  && ((s.upCore fun c => { c with bars := sset 0 c.bars 3 1 }).here.asyncCause s.curC true).isNone

/-- R212, R213, R264, R334: a wait, a bar.wait before and behind its arrival and in the monitor, a send and a group send that stall; and each of them one step further. -/
theorem witness_BundleControl :
    let c := short.core
    let d := sget {} short.here.chans 5
    let e := sget {} short.here.groups 6
    calm short = true ∧ calm (short.upCore fun c => { c with bars := [(3, 1)] }) = true ∧ (short.upCore fun c => { c with mode := .monitor }).core.inMon = true
    ∧ ((c.token 4).arr < 1 ∧ ¬(c.token 4).arr < 0)
    ∧ ((sget 0#32 short.here.barE (64 * short.curC + 3)).getLsbD 31 = true ∧ sget 0 c.bars 3 ≠ 2 ∧ (sget 0#32 short.here.barE (64 * short.curC + 4)).getLsbD 31 = false)
    ∧ (d.sv = true ∧ d.score = short.curC ∧ d.grp = false ∧ d.smode = 0 ∧ 64 * 2 ≤ 4096 * 2 ^ d.win ∧ d.cr < 64 * 2 ∧ ¬d.cr < 64 * 1)
    ∧ (e.v = true ∧ e.core = short.curC ∧ e.dsts ≠ [] ∧ 64 * 2 ≤ 4096 * 2 ^ e.win ∧ (∃ c ∈ e.cr, c < 64 * 2) ∧ ¬∃ c ∈ e.cr, c < 64 * 1) := by decide +kernel

/-- R127, R128: an I type; an F type with no lane selected, by m3, and with lane 2 alone, by m1. -/
theorem witness_VectorReduction :
    readV 2#7 sv = .ok (v2, sv) ∧ tyIsI 5#3 = true ∧ tyIsF 0#3 = true ∧ (∀ i < 64, (sv.core.mreg 3).val.getLsbD i = false)
    ∧ ∀ j < 64, (sv.core.mreg 1).val.getLsbD j = decide (j = 2) := ⟨rfl, by decide +kernel⟩

/-- R42, R46, R410: an event at the head of the agenda; an empty agenda; a tile's own turn, in a replay too; a nop due for issue; a bundle that went straight on. -/
theorem witness_StepRunsInstruction :
    State.reset.agenda = .event 0 0 0 .boot :: [] ∧ s0.agenda = []
    ∧ (let s := { s0 with agenda := [.own 0 0 0 .streamPiece] }; s.agenda = .own 0 0 0 .streamPiece :: [] ∧ (s.tile 0).replayTo = none)
    ∧ (let s := { at0 core0 { replayTo := some 700 } with agenda := [.issue 0 0] }; s.agenda = .issue 0 0 :: [] ∧ (s.tile 0).replayTo ≠ none)
    ∧ (issuing nopAt = true ∧ words nopAt = .ok [0xB1400000#32] ∧ decodeBundle [0xB1400000#32] = some ⟨none, [⟨1, 0xB1400000#32, 0#9⟩]⟩
      ∧ decodeSlot 0xB1400000#32 0#9 = .ok .nop ∧ (∀ o, Instr.nop ≠ .brTree o) ∧ (entered nopAt).stalls .nop = false ∧ (entered nopAt).core.repRem = 0
      ∧ (entered nopAt).core.pastLoop 1 = none)
    ∧ core0.jumped = false ∧ core0.loops = [] ∧ core0.repRem ≤ 1 :=
  ⟨rfl, rfl, ⟨rfl, rfl⟩, ⟨rfl, by decide +kernel⟩,
    ⟨by decide +kernel, rfl, rfl, rfl, fun o h => (nomatch h), by decide +kernel, by decide +kernel, by decide +kernel⟩, by decide +kernel⟩

/-- R46, R84: a nop with a bit set that must be zero; a bundle that goes on by one. -/
theorem witness_NopHasNoEffect : (1#21 : BitVec 21) ≠ 0#21 ∧ (core0.begin 0x1004 true []).gap = 1 := by decide +kernel

/-- R37, R87, R344: a page hit, missed and privileged; a bundle of two words, of four, and one that runs off its page; a step on each fault. -/
theorem witness_FetchFaults :
    ((0x80001000#32).getLsbD 31 = true ∧ nopAt.here.cmapAt 0 = 0x80001000#32 ∧ nopAt.here.fetch false 0x2000 = .error (.page 0x2000))
    ∧ (bundleAt 0xB1400000#32 true).here.fetch false 0x1000 = .error (.privilege 0x1000)
    ∧ ((∀ k < 1, twoAt.fetch false ((0x1000 + 4 * k) % 2 ^ 24) = .ok (([0x31400000#32] : List Word).getD k 0#32) ∧ (0x31400000#32).getLsbD 31 = false)
      ∧ twoAt.fetch false 0x1004 = .ok 0xB1400000#32 ∧ (0xB1400000#32).getLsbD 31 = true)
    ∧ ((∀ k < 3, fourAt.fetch false ((0x1000 + 4 * k) % 2 ^ 24) = .ok 0x31400000#32) ∧ fourAt.fetch false 0x100C = .ok 0x31400000#32)
    ∧ (twoAt.fetch false 0x2000 = .error (.page 0x2000) ∧ ([] : List Word).length < 4)
    ∧ (issuing ({ nopAt with tiles := [(0, { nopAt.here with cmap := [] })] }) = true
      ∧ words { nopAt with tiles := [(0, { nopAt.here with cmap := [] })] } = .error (.page 0x1000))
    ∧ (issuing (bundleAt 0xB1400000#32 true) = true ∧ words (bundleAt 0xB1400000#32 true) = .error (.privilege 0x1000))
    ∧ (issuing (bundleAt 0xFFFFFFFF#32) = true ∧ words (bundleAt 0xFFFFFFFF#32) = .ok [0xFFFFFFFF#32] ∧ decodeBundle [0xFFFFFFFF#32] = none
      ∧ (entered (bundleAt 0xFFFFFFFF#32)).core.repRem = 0)
    ∧ (issuing (bundleAt 0xB1400001#32) = true ∧ words (bundleAt 0xB1400001#32) = .ok [0xB1400001#32]
      ∧ decodeBundle [0xB1400001#32] = some ⟨none, [⟨1, 0xB1400001#32, 0#9⟩]⟩ ∧ (entered (bundleAt 0xB1400001#32)).core.repRem = 0
      ∧ slotInstrs (entered (bundleAt 0xB1400001#32)).core.pc none 0 [⟨1, 0xB1400001#32, 0#9⟩] = .error { cause := 0x04, slot := 1 })
    ∧ ((∀ n x y z, (none : Option Instr) ≠ some (.hdrRep n x y z)) ∧ (∃ i, decodeSlot 0#32 0#9 = .ok i ∧ ∀ o, i ≠ .brTree o)
      ∧ decodeSlot 0xB1400001#32 0#9 = .illegalInstruction)
    ∧ (decodeSlot 0xB0400001#32 0#9 = .ok (.brTree 1#21) ∧ (BitVec.ofNat 24 0x1000 + 4#24 * (1#21).signExtend 24).toNat % 16 ≠ 0
      ∧ ∀ a b c d e f g w x y z, (none : Option Instr) ≠ some (.hdrTree a b c d e f g w x y z)) := by
  refine ⟨⟨rfl, rfl, rfl⟩, rfl, ⟨fun k h => ?_, rfl, rfl⟩, ⟨fun k h => ?_, rfl⟩, ⟨rfl, by decide⟩, ⟨by decide +kernel, rfl⟩, ⟨by decide +kernel, rfl⟩,
    ⟨by decide +kernel, rfl, rfl, by decide +kernel⟩, ⟨by decide +kernel, rfl, rfl, by decide +kernel, rfl⟩, ⟨fun _ _ _ _ h => (nomatch h), ⟨_, rfl, fun o h => (nomatch h)⟩, rfl⟩,
    rfl, by decide +kernel, fun _ _ _ _ _ _ _ _ _ _ _ h => (nomatch h)⟩
  · match k, h with
    | 0, _ => exact ⟨rfl, rfl⟩
  · match k, h with
    | 0, _ => rfl
    | 1, _ => rfl
    | 2, _ => rfl

/-- R12, R57, R59: an instruction of a slot runs; there is another tile and another core. -/
theorem witness_IssueAndLandingFrames :
    (encode (.stW 3#4 true 4#24)).isSome = true ∧ (∃ t, exec (.stW 3#4 true 4#24) s0 = .next t) ∧ 1 ≠ s0.curT ∧ 1 ≠ s0.curC :=
  ⟨by decide +kernel, ⟨_, rfl⟩, by decide, by decide⟩

/-- R6: the reset state, and its first step. -/
theorem witness_MemoryCanonical : State.reset.memWf = true ∧ ∃ t, step State.reset = .next t := ⟨by decide +kernel, _, rfl⟩

/-- R37, R43, R380: an instruction with its lent bits, a header and a host command, each at the limits of its fields. -/
theorem witness_DecodeEncode :
    (Instr.wf (.addi 63#6 0#6 0x20000#18) = true ∧ encode (.addi 63#6 0#6 0x20000#18) ≠ none)
    ∧ (Instr.wf (.hdrRep 63#6 15#4 0#4 15#4) = true ∧ encode (.hdrRep 63#6 15#4 0#4 15#4) ≠ none)
    ∧ (Instr.wf (.semaphoreAcquire true 0xFFFFFFFF#32 15#8 0xFFFF#16 0#32) = true
      ∧ encodeCommand (.semaphoreAcquire true 0xFFFFFFFF#32 15#8 0xFFFF#16 0#32) ≠ none) := by decide +kernel

end Whole

end Sys2Proof.Tests
end

/-! PROOFS. Sending: source reads, the lee buffer and its fence, the router's turn with one head, what the coder lets go. -/
namespace Sys2Proof.Machine

/-- A fold whose function leaves its start alone on every element of the list. -/
theorem foldl_of_fixed {α β : Type} {f : α → β → α} {a : α} (l : List β) (h : ∀ b ∈ l, f a b = a) : l.foldl f a = a := by
  induction l with
  | nil => rfl
  | cons b r ih => rw [List.foldl_cons, h b (by simp), ih fun c hc => h c (by simp [hc])]

/-- An event does what its next state shows at the tile whose turn it is and on the links. -/
theorem does_of_next {s v : State} {i : Instr} {x : Tile} {l : List Flight} {P : State → Prop} (h : exec i s = .next v) (hx : v.here = x)
    (hf : v.flights = l) (hp : ∀ u : State, u.here = x → u.flights = l → P u) : s.Does i P := ⟨v, h, hp v hx hf⟩

/-! ### Source reads (R258, R265) -/

/-- The tile once the packet that is next in a job has been read: its banks are claimed, and the errors of its words met. -/
def Tile.sourceRead (x : Tile) (j : SendJob) : Tile := ((linesOf j.src j.size).foldl Tile.claim x).meet 0 j.src j.size
theorem Tile.sourceRead_eq (x : Tile) (j : SendJob) : x.sourceRead j = ((linesOf j.src j.size).foldl Tile.claim x).meet 0 j.src j.size := rfl

/-- Where no error is latent, a read meets none. -/
theorem Tile.meet_of_errs_nil {x : Tile} (h : x.errs = []) (k a n : Nat) : x.meet k a n = x := by
  simp [Tile.meet, Tile.meetWords, h]

theorem Tile.foldl_claim_frame (l : List Nat) (x : Tile) : let y := l.foldl Tile.claim x
    y.lee = x.lee ∧ y.sends = x.sends ∧ y.tm = x.tm ∧ y.tmPoi = x.tmPoi ∧ y.errs = x.errs := by
  induction l generalizing x with
  | nil => exact ⟨rfl, rfl, rfl, rfl, rfl⟩
  | cons a r ih => exact ih (x.claim a)

theorem Tile.sourceRead_frame {x : Tile} (he : x.errs = []) (j : SendJob) : let y := x.sourceRead j
    y.lee = x.lee ∧ y.sends = x.sends ∧ y.tm = x.tm ∧ y.tmPoi = x.tmPoi := by
  obtain ⟨hl, hs, hm, hp, hr⟩ := Tile.foldl_claim_frame (linesOf j.src j.size) x
  dsimp only
  rw [Tile.sourceRead_eq, Tile.meet_of_errs_nil (hr.trans he)]
  exact ⟨hl, hs, hm, hp⟩

/-- With every bank free and room in the lee, a send that has waited its time can be read. -/
theorem Tile.readable_of_free {x : Tile} {tc : Nat} {j : SendJob} (hh : j.held = false) (hg : j.going = true) (hw : j.wake ≤ tc)
    (hb : x.banks = []) (hl : x.leeLoad + 64 + j.size ≤ 262144) : x.readable tc j = true := by
  simp [Tile.readable, Tile.bankFree, leeSize, hh, hg, hw, hb, hl]

/-- The only send of a tile is read: its next packet enters the lee, and after the last one the send is gone. -/
theorem exec_sendSourceRead_single {s : State} {j : SendJob} (hs : s.here.sends = [j]) (hg : j.going = true) (hr : j.rel = false)
    (hread : s.here.readable (s.tcyc s.curT) j = true) (he : s.here.errs = []) :
    exec .sendSourceRead s = .next (s.setTile s.curT { s.here.sourceRead j with
      lee := s.here.lee ++ [{ p := s.packetOf s.curT j (s.here.tmRead j.src j.size) (s.here.tmPoiR j.src j.size), out := s.tcyc s.curT + 160
                              tok := if j.pos + 1 = packetsOf j.len then j.tok.map fun k => (j.core, k) else none, n := j.n }]
      sends := if j.pos + 1 = packetsOf j.len then [] else [{ j with pos := j.pos + 1 }] }) := by
  obtain ⟨hl, hj, hm, hp⟩ := Tile.sourceRead_frame he j
  show execSendSourceRead s = _
  simp only [execSendSourceRead, hs, List.foldl_cons, List.foldl_nil, hg, hr, Bool.or_true, Bool.true_or, if_true, Tile.nextSend, hread,
    Bool.false_and, Bool.not_false, Bool.and_self, ← Tile.sourceRead_eq]
  simp only [Tile.tmRead, Tile.tmPoiR, hl, hj, hm, hp, hs]
  by_cases hlast : j.pos + 1 = packetsOf j.len <;> simp [hlast, hg, hr]

/-! ### The lee buffer and the fence (R265, R266, R408) -/

/-- Of one packet that is no release, what leaves is decided by its time. -/
theorem leaving_single {tc : Nat} {o : SMap Nat} {e : LeeE} (h : e.p.rel = false) : leaving tc o [e] [] = if e.out ≤ tc then [e] else [] := by
  by_cases ha : e.p.ackLane = true <;> by_cases ho : e.out ≤ tc <;> simp [leaving, ha, ho, h]
theorem leaving_early {tc : Nat} {o : SMap Nat} {e : LeeE} (h : tc < e.out) : leaving tc o [e] [] = [] := by
  by_cases ha : e.p.ackLane = true <;> simp [leaving, ha, Nat.not_le.2 h]

/-- A tile that a packet leaves in tile cycle tc, for the first time: the fence counts the packet's replicas, and its send token posts. -/
def Tile.sentOff (x : Tile) (tc : Nat) (e : LeeE) : Tile :=
  let y : Tile := if e.p.ackLane then x else
    { x with fence := sset 0 x.fence e.p.cls (sget 0 x.fence e.p.cls + e.p.targets.length)
             outst := x.outst ++ e.p.targets.map fun d => (e.p.cls, e.p.dch, d, e.p.seq, e.p.pix) }
  let z : Tile := { y with gone := y.gone ++ [(tc, e.p.ident)] }
  match e.tok with | some (c, k) => z.upC c fun y => y.post k 0 | none => z

/-- Outside a replay nothing that leaves has left before. -/
theorem State.leave_eq {s : State} {t : Nat} (hr : (s.tile t).replayTo = none) (e : LeeE) :
    s.leave t e = { s.setTile t ((s.tile t).sentOff (s.tcyc t) e) with flights := s.flights ++ [{ p := e.p, tile := t, at' := s.gcyc }] } := by
  simp only [State.leave, hr, Option.isSome_none, Bool.false_and, Bool.false_eq_true, if_false]
  rfl

theorem Core.token_post_self (c : Core) (k cls : Nat) : (c.post k cls).token k = (c.token k).post cls := sget_sset_self _ _ _ _

theorem Tile.sentOff_frame (x : Tile) (tc : Nat) (e : LeeE) : let y := x.sentOff tc e
    y.lee = x.lee ∧ y.gone = x.gone ++ [(tc, e.p.ident)]
      ∧ y.fence = (if e.p.ackLane then x.fence else sset 0 x.fence e.p.cls (sget 0 x.fence e.p.cls + e.p.targets.length))
      ∧ y.outst = (if e.p.ackLane then x.outst else x.outst ++ e.p.targets.map fun d => (e.p.cls, e.p.dch, d, e.p.seq, e.p.pix)) := by
  unfold Tile.sentOff
  rcases e.tok with _ | ⟨c, k⟩ <;> cases e.p.ackLane <;> exact ⟨rfl, rfl, rfl, rfl⟩
theorem Tile.sentOff_token (x : Tile) (tc c k : Nat) {e : LeeE} (h : e.tok = some (c, k)) :
    ((x.sentOff tc e).core c).token k = ((x.core c).token k).post 0 := by
  unfold Tile.sentOff
  rw [h]
  dsimp only
  rw [Tile.upC_eq, Tile.core_setCore, Core.token_post_self]
  cases e.p.ackLane <;> rfl

/-- The lee buffer is empty. -/
def Tile.emptyLee (x : Tile) : Tile := { x with lee := [] }

/-- The only packet of a lee buffer leaves it for its router. -/
theorem exec_leeExit_due {s : State} {e : LeeE} (hl : s.here.lee = [e]) (ho : e.out ≤ s.tcyc s.curT) (hr : e.p.rel = false) (hn : s.here.replayTo = none) :
    exec .leeExit s = .next { s.setTile s.curT (s.here.emptyLee.sentOff (s.tcyc s.curT) e) with
      flights := s.flights ++ [{ p := e.p, tile := s.curT, at' := s.gcyc }] } := by
  have left : (s.setTile s.curT s.here.emptyLee).tile s.curT = s.here.emptyLee := State.tile_setTile _ _ _
  have cyc : (s.setTile s.curT s.here.emptyLee).tcyc s.curT = s.tcyc s.curT := by rw [State.tcyc, left]; rfl
  have turn : execLeeExit s = .next ((s.setTile s.curT s.here.emptyLee).leave s.curT e) := by
    simp [execLeeExit, hl, leaving_single hr, ho, Tile.emptyLee]
  show execLeeExit s = _
  rw [turn, State.leave_eq (by rw [left]; exact hn), left, cyc, setTile_setTile]
  rfl
/-- Before its time it stays. -/
theorem exec_leeExit_early {s : State} {e : LeeE} (hl : s.here.lee = [e]) (ho : s.tcyc s.curT < e.out) :
    exec .leeExit s = .next (s.setTile s.curT s.here) := by
  show execLeeExit s = _
  simp [execLeeExit, hl, leaving_early ho]
  rw [← hl]

/-- One class's turn of fenceRelease. -/
def Tile.openRelease (tc : Nat) (x : Tile) (c : Nat) : Tile :=
  match x.lee.find? fun e => !e.p.ackLane && e.p.cls == c with
  | some e => if e.p.rel && decide (e.out ≤ tc) && sget 0 x.fence c == 0 then { x with relOpen := sset 0 x.relOpen c (e.n + 1) } else x
  | none => x

theorem exec_fenceRelease (s : State) :
    exec .fenceRelease s = .next (s.setTile s.curT ((upto 0 8).foldl (Tile.openRelease (s.tcyc s.curT)) s.here)) := rfl

theorem Tile.openRelease_lee (x : Tile) (tc c : Nat) : (x.openRelease tc c).lee = x.lee := by
  unfold Tile.openRelease
  split
  · split <;> rfl
  · rfl
/-- The only packet of a lee buffer has its turn in its own class alone. -/
theorem Tile.openRelease_ne {x : Tile} {tc c : Nat} {e : LeeE} (hl : x.lee = [e]) (hc : e.p.cls ≠ c) : x.openRelease tc c = x := by
  simp [Tile.openRelease, hl, hc]
theorem Tile.openRelease_self {x : Tile} {tc : Nat} {e : LeeE} (hl : x.lee = [e]) (ha : e.p.ackLane = false) (hr : e.p.rel = true) (ho : e.out ≤ tc) :
    (x.openRelease tc e.p.cls).relOpen = if sget 0 x.fence e.p.cls = 0 then sset 0 x.relOpen e.p.cls (e.n + 1) else x.relOpen := by
  simp only [Tile.openRelease, hl, List.find?_cons, ha, Bool.not_false, BEq.rfl, Bool.and_self, hr, ho, decide_true, Bool.true_and, beq_iff_eq]
  split <;> rfl

theorem upto_eq_range' (k n : Nat) : upto k n = List.range' k n := by
  induction n generalizing k with
  | zero => rfl
  | succ n ih => rw [upto, ih, List.range'_succ]

theorem Tile.foldl_openRelease {x : Tile} {tc : Nat} {e : LeeE} (hl : x.lee = [e]) (hc : e.p.cls < 8) :
    (upto 0 8).foldl (Tile.openRelease tc) x = x.openRelease tc e.p.cls := by
  have others : ∀ (y : Tile) (l : List Nat), y.lee = [e] → (∀ c ∈ l, e.p.cls ≠ c) → l.foldl (Tile.openRelease tc) y = y := fun y l hy h =>
    foldl_of_fixed l fun c hm => Tile.openRelease_ne hy (h c hm)
  have hy : (x.openRelease tc e.p.cls).lee = [e] := (Tile.openRelease_lee x tc _).trans hl
  have split : upto 0 8 = upto 0 e.p.cls ++ e.p.cls :: upto (e.p.cls + 1) (7 - e.p.cls) := by
    simp only [upto_eq_range']
    rw [show 8 = e.p.cls + ((7 - e.p.cls) + 1) by omega, ← List.range'_append_1, List.range'_succ, Nat.zero_add]
  have apart (k n : Nat) (h : e.p.cls < k ∨ k + n ≤ e.p.cls) : ∀ c ∈ upto k n, e.p.cls ≠ c := fun c hm => by
    rw [upto_eq_range', List.mem_range'_1] at hm; omega
  rw [split, List.foldl_append, others x _ hl (apart _ _ (by omega)), List.foldl_cons, others _ _ hy (apart _ _ (by omega))]

/-! ### Ways out of a router (R259, R260, R267) -/

theorem State.nextDir_lt {s : State} {t d name : Nat} {w : Word} (h : s.nextDir t w name = some d) : d < 4 := by
  have bound {k a b : Nat} (ha : a < 4) (hb : b < 4) (h : (if k = 1 then some a else if k = 2 then some b else none) = some d) : d < 4 := by
    split at h
    · cases h; exact ha
    · split at h <;> cases h; exact hb
  unfold State.nextDir at h
  dsimp only at h
  split at h <;> rcases (Option.orElse_eq_some _ _ _).1 h with h | ⟨-, h⟩ <;> exact bound (by decide) (by decide) h

/-- Every hop takes time. -/
theorem State.one_le_hop (s : State) (t d : Nat) : 1 ≤ s.hop t d := by
  unfold State.hop
  dsimp only
  repeat' split
  all_goals omega

/-- A packet to one destination has one way out. -/
theorem State.branches_single {s : State} {t : Nat} {p : Packet} (hp : p.dests = []) :
    s.branches t p = [((s.nextDir t ((s.tile t).route0 p.cls) p.dest).getD 4, p)] := by
  have pick : ∀ d < 5, (upto 0 5).filter (fun k => d == k) = [d] := by decide
  have hd : (s.nextDir t ((s.tile t).route0 p.cls) p.dest).getD 4 < 5 := by
    rcases h : s.nextDir t ((s.tile t).route0 p.cls) p.dest with _ | d
    · decide
    · exact Nat.lt_succ_of_lt (State.nextDir_lt h)
  simp [State.branches, Packet.targets, hp, pick _ hd]

/-- A head at tile t's router that is due there and has one destination. -/
structure DueHead (s : State) (t : Nat) (f : Flight) : Prop where
  tile : f.tile = t
  old : f.old = none
  due : f.at' ≤ s.gcyc
  dests : f.p.dests = []

theorem State.heads_single {s : State} {t : Nat} {f : Flight} (hs : s.flights = [f]) (h : DueHead s t f) : s.heads t = [f] := by
  obtain rfl := h.tile
  simp [State.heads, hs, h.due, orderBy, insertBy, State.branches_single h.dests]

/-- Every head is off the links. -/
def State.noFlights (s : State) : State := { s with flights := [] }
@[simp] theorem State.noFlights_tile (s : State) (t : Nat) : s.noFlights.tile t = s.tile t := rfl
@[simp] theorem State.noFlights_flights (s : State) : s.noFlights.flights = [] := rfl
@[simp] theorem State.noFlights_gcyc (s : State) : s.noFlights.gcyc = s.gcyc := rfl
@[simp] theorem State.noFlights_curT (s : State) : s.noFlights.curT = s.curT := rfl
@[simp] theorem State.noFlights_wx (s : State) : s.noFlights.wx = s.wx := rfl
@[simp] theorem State.noFlights_wy (s : State) : s.noFlights.wy = s.wy := rfl
@[simp] theorem State.noFlights_domW (s : State) : s.noFlights.domW = s.domW := rfl
@[simp] theorem State.noFlights_domH (s : State) : s.noFlights.domH = s.domH := rfl
@[simp] theorem State.noFlights_ovl (s : State) : s.noFlights.ovl = s.ovl := rfl
@[simp] theorem State.noFlights_seg (s : State) : s.noFlights.seg = s.seg := rfl

theorem State.takeHeads_single {s : State} {t : Nat} {f : Flight} (hs : s.flights = [f]) (h : DueHead s t f) :
    s.takeHeads t = s.noFlights := by
  simp [State.takeHeads, State.noFlights, hs, h.tile, h.due]

theorem State.serveHeads_single (s : State) (t : Nat) (f : Flight) : s.serveHeads t 1 [f] = s.routeHead t f := by
  simp [State.serveHeads, orderBy, insertBy]

/-- A router serves the only head that is due anywhere. -/
theorem State.serve_single {s : State} {t : Nat} {f : Flight} (hs : s.flights = [f]) (h : DueHead s t f) :
    s.serve t = s.noFlights.routeHead t f := by
  simp [State.serve, State.heads_single hs h, State.takeHeads_single hs h, State.serveHeads_single]

/-- Nothing is due at the router of tile t. -/
def State.Idle (s : State) (t : Nat) : Prop := ∀ f ∈ s.flights, f.tile = t → s.gcyc < f.at'

theorem State.serve_idle {s : State} {t : Nat} (h : s.Idle t) : s.serve t = s := by
  have none_due : s.flights.filter (fun f => f.tile == t && decide (f.at' ≤ s.gcyc)) = [] := by
    simpa [State.Idle] using h
  have all_stay : s.flights.filter (fun f => !(f.tile == t && decide (f.at' ≤ s.gcyc))) = s.flights := by
    simpa [State.Idle, imp_iff_not_or] using h
  have no_heads : s.heads t = [] := by rw [State.heads, none_due]; rfl
  have take : s.takeHeads t = s := by rw [State.takeHeads, all_stay]
  rw [State.serve, no_heads, take]; rfl

/-! ### One head (R259, R260, R275, R294) -/

/-- While its class is held back on its input, a head stays. -/
theorem State.routeHead_waits {s : State} {t : Nat} {f : Flight} (ha : f.p.ackLane = false) (hv : f.via ≠ 5)
    (hi : (s.tile t).inputHeld f.via f.p.cls = true) : s.routeHead t f = { s with flights := s.flights ++ [f] } := by
  simp [State.routeHead, ha, hv, hi]

/-- A head that nothing holds back leaves by its one way out. -/
theorem State.routeHead_goes {s : State} {t d : Nat} {f : Flight} (hp : f.p.dests = []) (hd : (s.nextDir t ((s.tile t).route0 f.p.cls) f.p.dest).getD 4 = d)
    (hg : f.p.ackLane = true ∨ f.via = 5 ∨ (s.tile t).inputHeld f.via f.p.cls = false ∧ (d = 4 ∨ (s.tile t).linkAt d < 4 * (s.gcyc + 1))) :
    s.routeHead t f = s.sendOut t f (d, f.p) := by
  have go : (f.p.ackLane || f.via == 5 || (!(s.tile t).inputHeld f.via f.p.cls
      && [(d, f.p)].all fun e => e.1 == 4 || decide ((s.tile t).linkAt e.1 < 4 * (s.gcyc + 1)))) = true := by
    rcases hg with h | h | ⟨h, hd | hd⟩
    · simp [h]
    · simp [h]
    · simp [h, hd]
    · simp [h, hd]
  simp only [State.routeHead, State.branches_single hp, hd, go, if_true, List.foldl_cons, List.foldl_nil]

/-- A tile that packet q has reached in tile cycle tc. -/
def Tile.delivered (x : Tile) (tc : Nat) (q : Packet) : Tile :=
  if q.coderAck then { x with arrq := x.arrq ++ [q] } else x.reached tc (.packet q) fun x => x.takePacket q

/-- Outside a replay the packet waits at the tile, whose state is otherwise as before but for the journal. -/
theorem Tile.delivered_frame {x : Tile} (hr : x.replayTo = none) (tc : Nat) (q : Packet) : let y := x.delivered tc q
    y.arrq = x.arrq ++ [q] ∧ y.hold = x.hold ∧ y.ps = x.ps := by
  unfold Tile.delivered Tile.reached
  cases q.coderAck <;> simp [hr, Tile.takePacket]

/-- A packet to one destination reaches an active tile. -/
theorem State.arrive_active {s : State} {t via : Nat} {p : Packet} (hp : p.dests = []) (ha : (s.tile t).ps = .active) (hr : (s.tile t).replayTo = none) :
    s.arrive t via p = s.setTile t ((s.tile t).delivered (s.nextCyc t) { p with via := via }) := by
  obtain ⟨-, -, hps⟩ := Tile.delivered_frame hr (s.nextCyc t) { p with via := via }
  unfold State.arrive
  generalize hq : ({ p with via := via } : Packet) = q at hps
  have hd : q.dests = [] := hq ▸ hp
  have reach : (if q.coderAck then s.upT t fun x => { x with arrq := x.arrq ++ [q] }
      else s.upT t fun x => [q].foldl (fun x q => x.reached (s.nextCyc t) (.packet q) fun x => x.takePacket q) x)
      = s.setTile t ((s.tile t).delivered (s.nextCyc t) q) := by
    unfold Tile.delivered; cases q.coderAck <;> rfl
  have awake : ((s.setTile t ((s.tile t).delivered (s.nextCyc t) q)).tile t).ps ≠ .retention := by
    rw [State.tile_setTile, hps, ha]; decide
  dsimp only
  rw [if_pos (Or.inr (by rw [hd]; rfl)), reach, if_neg awake]

/-- What a copy that leaves in direction d takes of a link, but on the acknowledgement lane. -/
def Tile.linkTaken (x : Tile) (gc d : Nat) (p : Packet) : Tile :=
  { x with linkFree := sset 0 x.linkFree d (max (4 * gc) (x.linkAt d) + p.flits), rr := sset 0 x.rr (2 * d + p.cls / 4) (p.cls % 4) }

/-- A packet leaves for the next tile on the wafer. -/
theorem State.sendOut_next {s : State} {t d : Nat} {f : Flight} (hd : d < 4) (ho : f.old = none) (hw : wrapsAt t d = false) :
    s.sendOut t f (d, f.p) = { (if f.p.ackLane then s else s.setTile t ((s.tile t).linkTaken s.gcyc d f.p)) with
      flights := s.flights ++ [{ p := f.p, tile := stepTile t d, at' := s.gcyc + s.hop t d, via := d }] } := by
  have h4 : d ≠ 4 := by omega
  simp only [State.sendOut, h4, ho, hw, Bool.false_and, Bool.false_eq_true, if_false]
  cases f.p.ackLane <;> rfl

theorem State.sendOut_next_frame {s : State} {t d : Nat} {f : Flight} (hd : d < 4) (ho : f.old = none) (hw : wrapsAt t d = false) :
    let u := s.sendOut t f (d, f.p)
    u.flights = s.flights ++ [{ p := f.p, tile := stepTile t d, at' := s.gcyc + s.hop t d, via := d }] ∧ u.gcyc = s.gcyc ∧ u.curT = s.curT
      ∧ (u.tile t).arrq = (s.tile t).arrq ∧ (u.tile t).hold = (s.tile t).hold := by
  dsimp only
  rw [State.sendOut_next hd ho hw]
  refine ⟨rfl, ?_⟩
  cases f.p.ackLane
  · show _ ∧ _ ∧ ((s.setTile t ((s.tile t).linkTaken s.gcyc d f.p)).tile t).arrq = _ ∧ ((s.setTile t ((s.tile t).linkTaken s.gcyc d f.p)).tile t).hold = _
    rw [State.tile_setTile]
    exact ⟨rfl, rfl, rfl, rfl⟩
  · exact ⟨rfl, rfl, rfl, rfl⟩

/-- A head at the tile that its packet names is delivered. -/
theorem State.routeHead_delivers {s : State} {t : Nat} {f : Flight} (hp : f.p.dests = []) (ho : f.old = none)
    (hd : s.nextDir t ((s.tile t).route0 f.p.cls) f.p.dest = none) (hg : f.p.ackLane = true ∨ f.via = 5 ∨ (s.tile t).inputHeld f.via f.p.cls = false)
    (ha : (s.tile t).ps = .active) (hr : (s.tile t).replayTo = none) :
    s.routeHead t f = s.setTile t ((s.tile t).delivered (s.nextCyc t) { f.p with via := f.via }) := by
  rw [State.routeHead_goes (d := 4) hp (by rw [hd]; rfl) (hg.imp_right (Or.imp_right fun h => ⟨h, Or.inl rfl⟩)), ← State.arrive_active hp ha hr]
  simp only [State.sendOut, if_true, ho]

/-! ### A router's turn with one head (R285) -/

/-- Where nothing is held, nothing is let go. -/
theorem State.release_of_hold_nil {s : State} {t : Nat} (h : (s.tile t).hold = []) (g : HoldE → Bool) (c : Bool) :
    s.release t g c = s.setTile t (s.tile t) := by
  have same : ({ s.tile t with hold := [] } : Tile) = s.tile t := by rw [← h]
  simp only [State.release, h, List.filter_nil, List.foldl_nil, State.upT_eq, same]

theorem State.codeHeads_nil (s : State) (t : Nat) : s.codeHeads t [] = s := rfl

/-- A head on the acknowledgement lane is served, whatever the turn's argument, and nothing else is due. -/
theorem exec_headFlitRoute_ack {s : State} {f : Flight} (hs : s.flights = [f]) (h : DueHead s s.curT f) (ha : f.p.ackLane = true)
    {u : State} (hu : s.noFlights.routeHead s.curT f = u) (hh : (u.tile s.curT).hold = []) (hi : u.Idle s.curT) :
    exec .headFlitRoute s = .next (u.setTile s.curT (u.tile s.curT)) := by
  have idle : (u.setTile s.curT (u.tile s.curT)).Idle s.curT := hi
  show execHeadFlitRoute s = _
  simp only [execHeadFlitRoute, State.heads_single hs h, State.takeHeads_single hs h, List.filter_cons, List.filter_nil, List.filterMap_cons,
    List.filterMap_nil, ha, Bool.true_or, Bool.not_true, Bool.false_and, Bool.false_eq_true, if_true, if_false, Option.map_none, List.length_cons, List.length_nil,
    Nat.zero_add, State.serveHeads_single, hu, List.append_nil]
  rw [State.codeHeads_nil, State.release_of_hold_nil hh, State.serve_idle idle, ite_self]

/-- Another head that the coder does not take waits for the turn with argument 0, and is served in it. -/
theorem exec_headFlitRoute_uncoded {s : State} {f : Flight} (hs : s.flights = [f]) (h : DueHead s s.curT f) (hh : s.here.hold = []) (ha : f.p.ackLane = false)
    (hp : f.via = 5 ∨ s.here.inputHeld f.via f.p.cls = true ∨ s.planOf s.curT f.p = none) :
    exec .headFlitRoute s = .next (if s.curArg = 1 then s.setTile s.curT s.here
      else (s.setTile s.curT s.here).noFlights.routeHead s.curT f) := by
  have uncoded : (if f.p.ackLane || f.old.isSome || f.via == 5 || s.here.inputHeld f.via f.p.cls then none else s.planOf s.curT f.p) = none := by
    rcases hp with hp | hp | hp <;> simp [hp]
  have back : ({ s.noFlights with flights := s.noFlights.flights ++ [f] } : State) = s := by rw [State.noFlights, List.nil_append, ← hs]
  have due : DueHead (s.setTile s.curT s.here) s.curT f := ⟨h.tile, h.old, h.due, h.dests⟩
  show execHeadFlitRoute s = _
  simp only [execHeadFlitRoute, State.heads_single hs h, State.takeHeads_single hs h, List.filter_cons, List.filter_nil, List.filterMap_cons,
    List.filterMap_nil, uncoded]
  simp only [ha, Bool.not_false, Bool.true_and, Option.isNone_none, Bool.false_eq_true, if_true, if_false, Option.map_none, List.length_nil,
    State.serveHeads, back]
  have hold : (s.tile s.curT).hold = [] := hh
  have flights : (s.setTile s.curT s.here).flights = [f] := hs
  rw [State.codeHeads_nil, State.release_of_hold_nil hold, ← State.serve_single flights due]
  rfl

/-- The lanes and heads that a turn of the router serves: acknowledgements and credits in both turns, other heads in the turn with argument 0,
where what comes from the coder is not held back. -/
def State.Passes (s : State) (f : Flight) : Prop := f.p.ackLane = true ∨ s.curArg ≠ 1 ∧ (f.via = 5 ∨ s.here.inputHeld f.via f.p.cls = false)

/-- State v is as s where a router in its turn looks, and has no heads. -/
structure ServesAs (s v : State) : Prop where
  tile : v.tile s.curT = s.here
  flights : v.flights = []
  gcyc : v.gcyc = s.gcyc
  curT : v.curT = s.curT
  nextDir : v.nextDir s.curT = s.nextDir s.curT
  hop : v.hop s.curT = s.hop s.curT

/-- The way to a name turns on the domain alone, and the length of a hop on the map. -/
theorem State.nextDir_congr {s v : State} (hx : v.wx = s.wx) (hy : v.wy = s.wy) (hw : v.domW = s.domW) (hh : v.domH = s.domH) : v.nextDir = s.nextDir := by
  funext t w name; simp only [State.nextDir, hx, hy, hw, hh]
theorem State.hop_congr {s v : State} (ho : v.ovl = s.ovl) (hg : v.seg = s.seg) : v.hop = s.hop := by
  have phys : v.phys = s.phys := by funext x y; unfold State.phys State.overlay; rw [ho, hg]
  have overflowed : v.overflowed = s.overflowed := by funext x y; unfold State.overflowed; rw [ho]
  funext t d; unfold State.hop; rw [phys, overflowed]

theorem servesAs_noFlights (s : State) : ServesAs s s.noFlights := ⟨rfl, rfl, rfl, rfl, rfl, rfl⟩
theorem servesAs_setTile_noFlights (s : State) : ServesAs s (s.setTile s.curT s.here).noFlights :=
  ⟨by simp, by simp, by simp, by simp, congrFun (State.nextDir_congr (by simp) (by simp) (by simp) (by simp)) _,
    congrFun (State.hop_congr (by simp) (by simp)) _⟩

/-- What is on the links, arrived and held once the router of state s has had its turn. -/
structure RoutedTo (s : State) (l : List Flight) (q : List Packet) (u : State) : Prop where
  flights : u.flights = l
  gcyc : u.gcyc = s.gcyc
  curT : u.curT = s.curT
  arrq : (u.tile s.curT).arrq = q
  hold : (u.tile s.curT).hold = []

theorem RoutedTo.here {s u : State} {l : List Flight} {q : List Packet} (r : RoutedTo s l q u) : u.here.arrq = q ∧ u.here.hold = [] := by
  rw [State.here, r.curT]
  exact ⟨r.arrq, r.hold⟩

section
variable {s v : State} {f : Flight}

theorem routedTo_of_waits (hv : ServesAs s v) (hh : s.here.hold = []) (ha : f.p.ackLane = false) (h5 : f.via ≠ 5)
    (hi : s.here.inputHeld f.via f.p.cls = true) : RoutedTo s [f] s.here.arrq (v.routeHead s.curT f) := by
  rw [State.routeHead_waits ha h5 (by rw [hv.tile, hi])]
  exact ⟨congrArg (· ++ [f]) hv.flights, hv.gcyc, hv.curT, congrArg Tile.arrq hv.tile, (congrArg Tile.hold hv.tile).trans hh⟩

theorem routedTo_of_delivers (hv : ServesAs s v) (h : DueHead s s.curT f) (hh : s.here.hold = []) (hg : s.Passes f)
    (hd : s.nextDir s.curT (s.here.route0 f.p.cls) f.p.dest = none) (ha : s.here.ps = .active) (hr : s.here.replayTo = none) :
    RoutedTo s [] (s.here.arrq ++ [{ f.p with via := f.via }]) (v.routeHead s.curT f) := by
  obtain ⟨harrq, hhold, -⟩ := Tile.delivered_frame hr (v.nextCyc s.curT) { f.p with via := f.via }
  rw [State.routeHead_delivers h.dests h.old (by rw [hv.nextDir, hv.tile, hd]) (by rw [hv.tile]; exact hg.imp_right And.right) (by rw [hv.tile, ha])
    (by rw [hv.tile, hr]), hv.tile]
  exact ⟨hv.flights, hv.gcyc, hv.curT, by rw [State.tile_setTile, harrq], by rw [State.tile_setTile, hhold, hh]⟩

theorem routedTo_of_sends {d : Nat} (hv : ServesAs s v) (h : DueHead s s.curT f) (hh : s.here.hold = []) (hg : s.Passes f)
    (hd : s.nextDir s.curT (s.here.route0 f.p.cls) f.p.dest = some d) (hw : wrapsAt s.curT d = false)
    (hl : f.p.ackLane = true ∨ s.here.linkAt d < 4 * (s.gcyc + 1)) :
    RoutedTo s [{ p := f.p, tile := stepTile s.curT d, at' := s.gcyc + s.hop s.curT d, via := d }] s.here.arrq (v.routeHead s.curT f) := by
  have goes : f.p.ackLane = true ∨ f.via = 5 ∨ (v.tile s.curT).inputHeld f.via f.p.cls = false ∧ (d = 4 ∨ (v.tile s.curT).linkAt d < 4 * (v.gcyc + 1)) := by
    rw [hv.tile, hv.gcyc]
    rcases hg with hg | ⟨-, hg⟩
    · exact .inl hg
    · exact hl.imp_right fun hl => hg.imp_right fun hi => ⟨hi, .inr hl⟩
  rw [State.routeHead_goes h.dests (by rw [hv.nextDir, hv.tile, hd]; rfl) goes]
  obtain ⟨hf, hgc, ht, harrq, hhold⟩ := State.sendOut_next_frame (s := v) (State.nextDir_lt hd) h.old hw
  exact ⟨by rw [hf, hv.flights, hv.gcyc, hv.hop]; rfl, hgc.trans hv.gcyc, ht.trans hv.curT, by rw [harrq, hv.tile], by rw [hhold, hv.tile, hh]⟩

/-- A head that passes and that no plan governs is served once, in the acknowledgement lane's turn or with the other heads. -/
theorem exec_headFlitRoute_passes {l : List Flight} {q : List Packet} (hs : s.flights = [f]) (h : DueHead s s.curT f) (hh : s.here.hold = []) (hg : s.Passes f)
    (hp : f.via = 5 ∨ s.planOf s.curT f.p = none) (hu : ∀ v, ServesAs s v → RoutedTo s l q (v.routeHead s.curT f))
    (hl : ∀ g ∈ l, g.tile = s.curT → s.gcyc < g.at') : s.Does .headFlitRoute fun u => u.flights = l ∧ u.here.arrq = q := by
  have seen (u : State) (r : RoutedTo s l q u) : u.flights = l ∧ u.here.arrq = q := ⟨r.flights, r.here.1⟩
  cases hack : f.p.ackLane
  · obtain ⟨harg, -⟩ : s.curArg ≠ 1 ∧ _ := hg.resolve_left (by rw [hack]; decide)
    refine ⟨_, exec_headFlitRoute_uncoded hs h hh hack (hp.imp_right .inr), ?_⟩
    rw [if_neg harg]
    exact seen _ (hu _ (servesAs_setTile_noFlights s))
  · obtain ⟨hf, hgc, ht, harrq, hhold⟩ := hu _ (servesAs_noFlights s)
    refine ⟨_, exec_headFlitRoute_ack hs h hack rfl hhold (fun g hm hg => ?_), seen _ ⟨hf, hgc, ht, ?_, ?_⟩⟩
    · rw [hgc]; exact hl g (hf ▸ hm) hg
    · rw [State.tile_setTile]; exact harrq
    · rw [State.tile_setTile]; exact hhold

/-- A head whose class is held back on its input stays. -/
theorem exec_headFlitRoute_waits (hs : s.flights = [f]) (h : DueHead s s.curT f) (hh : s.here.hold = []) (ha : f.p.ackLane = false) (hv : f.via ≠ 5)
    (hi : s.here.inputHeld f.via f.p.cls = true) : s.Does .headFlitRoute fun u => u.flights = [f] ∧ u.here.arrq = s.here.arrq ∧ u.here.hold = [] := by
  refine ⟨_, exec_headFlitRoute_uncoded hs h hh ha (.inr (.inl hi)), ?_⟩
  split
  · rw [State.here_setTile]
    exact ⟨hs, rfl, hh⟩
  · have stays := routedTo_of_waits (servesAs_setTile_noFlights s) hh ha hv hi
    exact ⟨stays.flights, stays.here⟩

end

/-! ### What the coder lets go (R284, R285) -/

@[simp] theorem State.forward_tile (s : State) (t u : Nat) (p : Packet) : (s.forward t p).tile u = s.tile u := rfl
@[simp] theorem State.forward_curT (s : State) (t : Nat) (p : Packet) : (s.forward t p).curT = s.curT := rfl
@[simp] theorem State.forward_flights (s : State) (t : Nat) (p : Packet) :
    (s.forward t p).flights = s.flights ++ [{ p := p, tile := t, at' := s.gcyc, via := 5 }] := rfl

/-- An event that lets go what satisfies a test: the only packet that is held stays, or is sent on uncoded and counted. -/
theorem does_release {s : State} {i : Instr} {h : HoldE} {g : HoldE → Bool} (hi : exec i s = .next (s.release s.curT g)) (hh : s.here.hold = [h]) :
    (g h = false → s.Does i fun u => u.here.hold = [h] ∧ u.flights = s.flights)
    ∧ (g h = true → s.Does i fun u => u.here.hold = [] ∧ u.here.cunc = min (s.here.cunc + 1) 0xFFFFFFFF
        ∧ u.flights = s.flights ++ [{ p := h.p, tile := s.curT, at' := s.gcyc, via := 5 }]) := by
  have hold : (s.tile s.curT).hold = [h] := hh
  constructor <;> intro hg <;> refine ⟨_, hi, ?_⟩
  · simp [State.release, State.here, hold, hg]
  · simp [State.release, State.here, hold, hg, Tile.uncoded, incr32]

/-! ### The statement -/

/-- Settles O45, event by event: what the single job, packet, head or held packet of the clause's state does in its turn. -/
theorem sendingEvents : Obligations.SendingEvents := by
  unfold Obligations.SendingEvents
  intro s j e f h d x t tc last w slot due passes waits
  have dueHead (hd : due) : s.flights = [f] ∧ DueHead s s.curT f ∧ s.here.hold = [] :=
    let ⟨hs, ht, ho, ha, hp, hh⟩ := hd
    ⟨hs, ⟨ht, ho, ha, hp⟩, hh⟩
  refine ⟨?read, ?leaves, ?early, ?fence, ?delivers, ?held, ?goes, ?window, ?expires, ?flush⟩
  case read =>
    intro hs hh hg hw hr hb he hl
    obtain ⟨-, -, htm, -⟩ := Tile.sourceRead_frame he j
    refine does_of_next (exec_sendSourceRead_single hs hg hr (Tile.readable_of_free hh hg hw hb hl) he) (State.here_setTile _ _) rfl fun u hu _ => ?_
    rw [hu]
    exact ⟨rfl, rfl, htm⟩
  case leaves =>
    intro hl ho hr hn
    refine does_of_next (exec_leeExit_due hl ho hr hn) (State.here_setTile _ _) rfl fun u hu hf => ?_
    obtain ⟨hlee, hgone, hfence, houtst⟩ := Tile.sentOff_frame s.here.emptyLee (s.tcyc s.curT) e
    rw [hu, hlee, hgone, hfence, houtst]
    refine ⟨rfl, hf, rfl, fun ha => ?_, fun ha => ?_, fun c k hk => Tile.sentOff_token _ _ _ _ hk⟩
    · simp only [ha, Bool.false_eq_true, if_false]
      exact ⟨sget_sset_self _ _ _ _, rfl⟩
    · simp only [ha, if_true]
      exact ⟨rfl, rfl⟩
  case early =>
    intro hl ho
    refine does_of_next (exec_leeExit_early hl ho) (State.here_setTile _ _) rfl fun u hu hf => ?_
    rw [hu]
    exact ⟨hl, hf⟩
  case fence =>
    intro hl ha hr ho hc
    refine does_of_next (exec_fenceRelease s) (State.here_setTile _ _) rfl fun u hu _ => ?_
    rw [hu, Tile.foldl_openRelease hl hc, Tile.openRelease_self hl ha hr ho]
    exact ⟨fun hf => by rw [if_pos hf, sget_sset_self], fun hf => if_neg hf⟩
  case delivers =>
    intro hd hp hn ha hr hpl
    obtain ⟨hs, head, hh⟩ := dueHead hd
    obtain ⟨u, hu, hf, hq⟩ := exec_headFlitRoute_passes hs head hh hp (.inr hpl) (fun v hv => routedTo_of_delivers hv head hh hp hn ha hr) nofun
    exact ⟨u, hu, hq, hf⟩
  case held =>
    intro hd ⟨ha, hv, hi⟩
    obtain ⟨hs, head, hh⟩ := dueHead hd
    exact exec_headFlitRoute_waits hs head hh ha hv hi
  case goes =>
    intro hd hp hn hd4 hpl hw hsl
    obtain ⟨hs, head, hh⟩ := dueHead hd
    have link : f.p.ackLane = true ∨ s.here.linkAt d < 4 * (s.gcyc + 1) := by
      by_cases ha : f.p.ackLane = true
      · exact .inl ha
      · simp only [slot, if_neg ha] at hsl
        exact .inr (lt_of_le_of_lt (le_max_right _ _) hsl)
    refine exec_headFlitRoute_passes hs head hh hp hpl (fun v hv => routedTo_of_sends hv head hh hp hn hw link) fun g hg _ => ?_
    obtain rfl := List.mem_singleton.1 hg
    exact Nat.lt_add_of_pos_right (State.one_le_hop _ _ _)
  case window =>
    intro hh hw
    exact (does_release (g := fun h => decide (h.since + 64 ≤ s.gcyc)) rfl hh).1 (decide_eq_false (Nat.not_le.2 hw))
  case expires =>
    intro hh hw
    exact (does_release (g := fun h => decide (h.since + 64 ≤ s.gcyc)) rfl hh).2 (decide_eq_true hw)
  case flush =>
    intro hh
    obtain ⟨stays, goes⟩ := does_release (i := .heldPacketFlush) (g := fun h => !x.planValid h.p.cls h.plan) rfl hh
    cases hv : x.planValid h.p.cls h.plan
    · obtain ⟨u, hu, gone⟩ := goes (by rw [hv]; rfl)
      exact ⟨u, hu, nofun, fun _ => gone⟩
    · obtain ⟨u, hu, kept⟩ := stays (by rw [hv]; rfl)
      exact ⟨u, hu, fun _ => kept, nofun⟩

end Sys2Proof.Machine

/-! PROOFS. Recovery: a job restore that is due while a rebuilt map is on its way. -/
namespace Sys2Proof.Machine

/-! ### A restore while a rebuilt map is on its way (R427 to R429) -/

/-- A job restore that is due still waits while a rebuilt map is on its way (R429): the turn changes nothing. -/
theorem exec_jobRestore_of_pendMap {s : State} {r : Nat × Nat} (ha : s.aborted = false) (hc : s.curArg ≠ 1)
    (hr : s.restoreAt = some r) (hm : s.pendMap.isSome = true) : exec .jobRestore s = .next s := by
  show execJobRestore s = .next s
  simp [execJobRestore, ha, hc, hr, hm]

/-- A sealed checkpoint without named ranges, of global cycle 500. -/
def sealedAt500 : Ckpt := { dva := 0, len := 0, gcyc := 500, tiles := [], flights := [], runs := [], gangRel := [], ranges := [] }

/-- What a migration without an oasis leaves (R429): the rebuilt map is in force from cycle 1256 on, the restore from the only checkpoint
is due in the present cycle, 1000. -/
def mapAwaited : State := { gcyc := 1000, ckpts := [sealedAt500], restoreAt := some (1000, 0), pendMap := some (1256, [], []) }

/-- Refutes O50: the clause of a restore that is due leaves out that no rebuilt map is on its way. In `mapAwaited` the checkpoint can be
read and the restore is due, and jobRestore changes nothing: it waits for the map, so that restoreAt still stands. -/
theorem not_recoveryEvents : ¬ Obligations.RecoveryEvents := by
  unfold Obligations.RecoveryEvents
  intro h
  have waits : exec .jobRestore mapAwaited = .next mapAwaited := exec_jobRestore_of_pendMap rfl (by decide) rfl rfl
  obtain ⟨-, -, -, -, -, -, -, -, -, -, -, -, -, -, -, restores, -⟩ :=
    h mapAwaited mapAwaited { restore := false, node := 0, cmask := 0, area := 0, len := 0 } sealedAt500 1000 0 0 0 0#32 0 (0, 0) [] (0, 0, 0) (0, 0, 0) [] {} []
  obtain ⟨u, hu, -, restored, -⟩ := restores rfl (by decide) rfl
  obtain rfl : mapAwaited = u := by rw [waits] at hu; exact Host.Outcome.next.inj hu
  obtain ⟨-, -, -, -, -, stands⟩ := restored (by decide) rfl rfl rfl (by decide)
  exact absurd stands (by decide)

end Sys2Proof.Machine
/-! PROOFS. The encoder and the decoder agree (R36 to R83): what a field reads of a word written as a concatenation, then each kind of slot word. -/
namespace Sys2Proof

/-! ### Fields of a concatenation

A word is written with `++`, whose type hides the widths of its parts once they add up to a literal; `BitVec.append` shows them. -/

@[simp] theorem extractLsb'_append_high {v w s n : Nat} {x : BitVec v} {y : BitVec w} (h : w ≤ s) :
    (BitVec.append x y).extractLsb' s n = x.extractLsb' (s - w) n := BitVec.extractLsb'_append_eq_of_le h
@[simp] theorem extractLsb'_append_low {v w s n : Nat} {x : BitVec v} {y : BitVec w} (h : s + n ≤ w) :
    (BitVec.append x y).extractLsb' s n = y.extractLsb' s n := BitVec.extractLsb'_append_eq_of_add_le h
@[simp] theorem getLsbD_append_high {v w i : Nat} {x : BitVec v} {y : BitVec w} (h : w ≤ i) :
    (BitVec.append x y).getLsbD i = x.getLsbD (i - w) := BitVec.getLsbD_append.trans (if_neg (by omega))
@[simp] theorem getLsbD_append_low {v w i : Nat} {x : BitVec v} {y : BitVec w} (h : i < w) :
    (BitVec.append x y).getLsbD i = y.getLsbD i := BitVec.getLsbD_append.trans (if_pos h)
/-- The two parts of a number, put together again. -/
@[simp] theorem append_extractLsb' {v w : Nat} (x : BitVec (v + w)) : BitVec.append (x.extractLsb' w v) (x.extractLsb' 0 w) = x :=
  (BitVec.extractLsb'_append_extractLsb'_eq_extractLsb' (Nat.zero_add w).symm).trans BitVec.extractLsb'_eq_self

/-- The lent bits of a signed field give its value back (R67). -/
@[simp] theorem lendS_lentOf (nl nb : Nat) (v : BitVec (nl + nb)) : lendS nl (lentOf nl nb v) (v.extractLsb' 0 nb) = v := by
  unfold lendS lentOf
  apply BitVec.eq_of_getLsbD_eq
  intro i hi
  rw [BitVec.getLsbD_xor, BitVec.getLsbD_append]
  by_cases h : i < nb
  · simp only [if_pos h, BitVec.getLsbD_signExtend, BitVec.getLsbD_extractLsb', BitVec.getLsbD_zero]
    simp [h, hi]
  · have hj : i - nb < nl := by omega
    have hk : nb + (i - nb) = i := by omega
    simp only [if_neg h, BitVec.getLsbD_extractLsb', BitVec.getLsbD_xor, hj, hk, decide_true, Bool.true_and]
    rw [Bool.xor_left_comm, Bool.xor_self, Bool.xor_false]

/-! ### Slot words -/

@[simp] theorem kindOf_slotWord (k : BitVec 3) (m : BitVec 6) (b : BitVec 21) : kindOf (slotWord k m b) = k.toNat := by
  unfold slotWord kindOf
  dsimp only [HAppend.hAppend]
  simp [-BitVec.append_eq]
@[simp] theorem majOf_slotWord (k : BitVec 3) (m : BitVec 6) (b : BitVec 21) : majOf (slotWord k m b) = m.toNat := by
  unfold slotWord majOf
  dsimp only [HAppend.hAppend]
  simp [-BitVec.append_eq]
@[simp] theorem body_slotWord (k : BitVec 3) (m : BitVec 6) (b : BitVec 21) : (slotWord k m b).extractLsb' 0 21 = b :=
  BitVec.extractLsb'_append_eq_right
theorem slotWord_isSlot (k : BitVec 3) (m : BitVec 6) (b : BitVec 21) : (slotWord k m b).getLsbD 30 = false := by
  unfold slotWord
  dsimp only [HAppend.hAppend]
  simp [-BitVec.append_eq, -BitVec.getLsbD_eq_getElem]

/-- The decoder of a kind (R36). -/
def decodeOf (kind m : Nat) (b : BitVec 21) (l : BitVec 9) : Option Instr :=
  match kind with
  | 0 => decodeS m b l | 1 => decodeA m b l | 2 => decodeV m b l | 3 => decodeM m b l
  | 4 => decodeE m b l | 5 => decodeN m b l | 6 => decodeC m b l | _ => decodeY m b l
theorem decodeBody_eq (w : BitVec 32) (l : BitVec 9) : decodeBody w l = decodeOf (kindOf w) (majOf w) (w.extractLsb' 0 21) l := by
  unfold decodeBody
  generalize kindOf w = k
  rcases k with _ | _ | _ | _ | _ | _ | _ | _ <;> rfl

/-- Word w is a slot word that holds instruction i under the lent bits l, before the operand rules. -/
structure Holds (i : Instr) (l : BitVec 9) (w : BitVec 32) : Prop where
  slot : w.getLsbD 30 = false
  lent : l &&& ~~~lentMask (kindOf w) (majOf w) = 0#9
  body : decodeBody w l = some i

theorem Holds.decodeSlot {i : Instr} {l : BitVec 9} {w : BitVec 32} (h : Holds i l w) (hi : i.wf = true) : decodeSlot w l = .ok i := by
  simp [Sys2Proof.decodeSlot, h.lent, h.body, hi]

theorem holds_slotWord {i : Instr} {l : BitVec 9} {k : BitVec 3} {m : BitVec 6} {b : BitVec 21} (hl : l &&& ~~~lentMask k.toNat m.toNat = 0#9)
    (hb : decodeOf k.toNat m.toNat b l = some i) : Holds i l (slotWord k m b) :=
  ⟨slotWord_isSlot k m b, by rw [kindOf_slotWord, majOf_slotWord, hl], by rw [decodeBody_eq, kindOf_slotWord, majOf_slotWord, body_slotWord, hb]⟩

/-- A form whose fixed fields stand holds the instruction that its other fields give. -/
theorem holds_fixed {i j : Instr} {l : BitVec 9} {k : BitVec 3} {m : BitVec 6} {b : BitVec 21} {c : Bool} (hl : l &&& ~~~lentMask k.toNat m.toNat = 0#9)
    (hb : decodeOf k.toNat m.toNat b l = ck c j) (hc : c = true) (hj : j = i) : Holds i l (slotWord k m b) :=
  holds_slotWord hl (by rw [hb, hc, hj]; rfl)
/-- A form without fixed fields. -/
theorem holds_free {i j : Instr} {l : BitVec 9} {k : BitVec 3} {m : BitVec 6} {b : BitVec 21} (hl : l &&& ~~~lentMask k.toNat m.toNat = 0#9)
    (hb : decodeOf k.toNat m.toNat b l = some j) (hj : j = i) : Holds i l (slotWord k m b) :=
  holds_slotWord hl (by rw [hb, hj])

/-! Which lent bits a format leaves at zero. -/

theorem lent_all (l : BitVec 9) : l &&& ~~~0x1FF#9 = 0#9 := by simp
theorem lent_low {n k : Nat} (x : BitVec k) : (0#n ++ x) &&& ~~~(0#n ++ BitVec.allOnes k) = 0#(n + k) := by
  rw [BitVec.not_append, BitVec.and_append]; simp
theorem lent_tev : ∀ x y : BitVec 1, (0#7 ++ x ++ y) &&& ~~~3#9 = 0#9 := by decide
theorem lent_vcvt : ∀ (sat : Bool) (rm : BitVec 2) (x y : BitVec 1), (b1 sat ++ 0#3 ++ rm ++ 0#1 ++ x ++ y) &&& ~~~0x11B#9 = 0#9 := by decide
/-- Of the vector formats those that read d, a and b, and those that read d and a, a and b, d, a (R74 to R76). -/
theorem lent_vDAB : ∀ (ty : BitVec 3) (rm : BitVec 2) (b a d : BitVec 1), (0#1 ++ ty ++ rm ++ b ++ a ++ d) &&& ~~~0xFF#9 = 0#9 := by decide
theorem lent_vDA : ∀ (ty : BitVec 3) (rm : BitVec 2) (a d : BitVec 1), (0#1 ++ ty ++ rm ++ 0#1 ++ a ++ d) &&& ~~~0xFB#9 = 0#9 := by decide
theorem lent_vAB : ∀ (ty : BitVec 3) (rm : BitVec 2) (b a : BitVec 1), (0#1 ++ ty ++ rm ++ b ++ a ++ 0#1) &&& ~~~0xFE#9 = 0#9 := by decide
theorem lent_vD : ∀ (ty : BitVec 3) (rm : BitVec 2) (d : BitVec 1), (0#1 ++ ty ++ rm ++ 0#1 ++ 0#1 ++ d) &&& ~~~0xF9#9 = 0#9 := by decide
theorem lent_vA : ∀ (ty : BitVec 3) (rm : BitVec 2) (a : BitVec 1), (0#1 ++ ty ++ rm ++ 0#1 ++ a ++ 0#1) &&& ~~~0xFA#9 = 0#9 := by decide

/-! ### What is encoded reads back: the formats that many forms share (R69, R72, R74). -/

theorem holds_S3 {m : BitVec 6} {op : BitVec 6 → BitVec 6 → BitVec 6 → Instr}
    (hd : ∀ b l, decodeS m.toNat b l = ck (fld b 0 3 == 0#3) (op (fld b 15 6) (fld b 9 6) (fld b 3 6))) (d a c : BitVec 6) :
    Holds (op d a c) 0#9 (slotWord 0#3 m (bodyS3 d a c 0#3)) := by
  refine holds_fixed BitVec.zero_and (hd _ _) ?_ ?_ <;>
  · dsimp only [bodyS3, HAppend.hAppend]
    simp [-BitVec.append_eq]
theorem holds_SI {m : BitVec 6} {op : BitVec 6 → BitVec 6 → BitVec 18 → Instr} (hm : lentMask 0 m.toNat = 0x1FF#9)
    (hd : ∀ b l, decodeS m.toNat b l = some (op (fld b 15 6) (fld b 9 6) (lendS 9 l (fld b 0 9)))) (d a : BitVec 6) (i : BitVec 18) :
    Holds (op d a i) (lentOf 9 9 i) (slotWord 0#3 m (bodySI d a i)) := by
  refine holds_free (hm ▸ lent_all _) (hd _ _) ?_
  dsimp only [bodySI, HAppend.hAppend]
  simp [-BitVec.append_eq]
theorem holds_AM {m : BitVec 6} {op : BitVec 4 → Bool → BitVec 24 → Instr} (hm : lentMask 1 m.toNat = 0xFF#9)
    (hd : ∀ b l, decodeA m.toNat b l = some (op (fld b 17 4) (bit b 16) (lendS 8 (lb l 0 8) (fld b 0 16)))) (ar : BitVec 4) (pi : Bool) (off : BitVec 24) :
    Holds (op ar pi off) (0#1 ++ lentOf 8 16 off) (slotWord 1#3 m (ar ++ b1 pi ++ off.extractLsb' 0 16)) := by
  refine holds_free (hm ▸ lent_low _) (hd _ _) ?_
  dsimp only [HAppend.hAppend]
  simp [-BitVec.append_eq, -BitVec.getLsbD_eq_getElem]
theorem holds_V3 {m : BitVec 6} {op : BitVec 7 → BitVec 7 → BitVec 7 → BitVec 3 → BitVec 3 → Instr} (hm : lentMask 2 m.toNat = 0xFF#9)
    (hd : ∀ b l, decodeV m.toNat b l = ck (lb l 3 2 == 0#2)
      (op (vreg l 0 (fld b 15 6)) (vreg l 1 (fld b 9 6)) (vreg l 2 (fld b 3 6)) (fld b 0 3) (lb l 5 3))) (d a c : BitVec 7) (mk ty : BitVec 3) :
    Holds (op d a c mk ty) (0#1 ++ ty ++ 0#2 ++ c.extractLsb' 6 1 ++ a.extractLsb' 6 1 ++ d.extractLsb' 6 1)
      (slotWord 2#3 m (d.extractLsb' 0 6 ++ a.extractLsb' 0 6 ++ c.extractLsb' 0 6 ++ mk)) := by
  refine holds_fixed (hm ▸ lent_vDAB _ _ _ _ _) (hd _ _) ?_ ?_ <;>
  · dsimp only [vreg, HAppend.hAppend]
    simp [-BitVec.append_eq]
theorem holds_V3r {m : BitVec 6} {op : BitVec 7 → BitVec 7 → BitVec 7 → BitVec 3 → BitVec 3 → BitVec 2 → Instr} (hm : lentMask 2 m.toNat = 0xFF#9)
    (hd : ∀ b l, decodeV m.toNat b l = some
      (op (vreg l 0 (fld b 15 6)) (vreg l 1 (fld b 9 6)) (vreg l 2 (fld b 3 6)) (fld b 0 3) (lb l 5 3) (lb l 3 2))) (d a c : BitVec 7) (mk ty : BitVec 3)
    (rm : BitVec 2) : Holds (op d a c mk ty rm) (0#1 ++ ty ++ rm ++ c.extractLsb' 6 1 ++ a.extractLsb' 6 1 ++ d.extractLsb' 6 1)
      (slotWord 2#3 m (d.extractLsb' 0 6 ++ a.extractLsb' 0 6 ++ c.extractLsb' 0 6 ++ mk)) := by
  refine holds_free (hm ▸ lent_vDAB _ _ _ _ _) (hd _ _) ?_
  dsimp only [vreg, HAppend.hAppend]
  simp [-BitVec.append_eq]
theorem fld_bodySP (pd cc : BitVec 3) (a c : BitVec 6) : fld (bodySP pd cc a c false false) 0 3 = 0#3 := by
  apply BitVec.eq_of_getLsbD_eq
  intro i hi
  dsimp only [bodySP, HAppend.hAppend]
  interval_cases i <;> simp [-BitVec.append_eq, -BitVec.getLsbD_eq_getElem]

/-- The kind of a slot instruction (R36); 8 for a header, 9 for what has no word of its own. -/
def Instr.kind : Instr → Nat
  | .add .. | .sub .. | .and .. | .or .. | .xor .. | .andn .. | .shl .. | .shr .. | .sar .. | .rol .. | .min .. | .max .. | .minu ..
  | .maxu .. | .adds .. | .subs .. | .mul .. | .mulh .. | .mulhu .. | .div .. | .divu .. | .rem .. | .remu .. | .abs .. | .clz ..
  | .popc .. | .extB .. | .extH .. | .extBu .. | .extHu .. | .sel .. | .addi .. | .andImm .. | .orImm .. | .xorImm .. | .andnImm ..
  | .shlImm .. | .shrImm .. | .sarImm .. | .rolImm .. | .movi .. | .movhi .. | .cmp .. | .cmpImm .. | .pand .. | .por .. | .pxor ..
  | .pnot .. | .fadd .. | .fsub .. | .fmul .. | .ffma .. | .fmin .. | .fmax .. | .fminn .. | .fmaxn .. | .fcmp .. | .fcvt .. | .fsgn ..
  | .fsgnN .. | .fsgnX .. => 0
  | .ldB .. | .ldH .. | .ldW .. | .ldV .. | .stB .. | .stH .. | .stW .. | .stV .. | .ldDs .. | .stDs .. | .amoAdd .. | .amoMin ..
  | .amoMax .. | .amoSwap .. | .amoCas .. | .aaddImm .. | .aadd .. | .amovA .. | .amovS .. | .streamRd .. | .streamWr .. => 1
  | .vadd .. | .vsub .. | .vmul .. | .vfma .. | .vfms .. | .vmin .. | .vmax .. | .vminn .. | .vmaxn .. | .vadds .. | .vsubs .. | .vand ..
  | .vor .. | .vxor .. | .vshl .. | .vshr .. | .vsar .. | .vsel .. | .vperm .. | .vrot .. | .vslide .. | .vabs .. | .vneg .. | .vmov ..
  | .vshlImm .. | .vshrImm .. | .vsarImm .. | .vcmp .. | .vclamp .. | .vbcast .. | .vext .. | .vredAdd .. | .vredMax .. | .vredMin ..
  | .vcvt .. | .vpackSb .. | .vunpackSb .. => 2
  | .lease .. | .unlease .. | .lwt .. | .mma .. | .mmaz .. | .gmma .. | .accz .. | .accld .. | .accret .. | .amodeWrap .. | .amodeSat .. => 3
  | .tev .. | .tld .. | .tcfg .. | .skinitQs .. | .skinitHh .. | .skinitDc .. | .skseed .. | .skfold .. | .skmerge .. | .skq ..
  | .skrank .. | .skcard .. | .sktop .. | .skld .. | .skst .. | .skclr .. | .cpyTd .. | .cpyDt .. | .cpyRedF32 .. | .cpyRedBf16 ..
  | .cpyRedI32 .. => 4
  | .send .. | .sendRel .. | .sendM .. | .sendr .. | .recvArm .. | .qpost .. | .qarm .. | .sideAdd .. | .sideRel .. | .decCfg ..
  | .barArr .. | .nxt .. | .route .. => 5
  | .br .. | .call .. | .brC .. | .brTree .. | .ret .. | .loop .. | .loopW .. | .loopP .. | .brk .. | .dly .. | .nop .. | .wait ..
  | .barWait .. | .exit .. | .phase .. => 6
  | .csrr .. | .csrw .. | .trap .. | .tret .. | .tks .. | .tkr .. | .tkz .. | .tkp .. | .cycGl .. | .cycGh .. | .cycTl .. | .cycTh ..
  | .sig .. | .bkpt .. | .pwr .. | .ent .. => 7
  | .hdrLend .. | .hdrTree .. | .hdrRep .. => 8
  | _ => 9

theorem holds_encodeS {i : Instr} {l : BitVec 9} {w : BitVec 32} (hk : i.kind = 0) (h : encode i = some (l, w)) : Holds i l w := by
  cases i with
  | add d a b | sub d a b | and d a b | or d a b | xor d a b | andn d a b | shl d a b | shr d a b | sar d a b | rol d a b | min d a b | max d a b
  | minu d a b | maxu d a b | adds d a b | subs d a b | mul d a b | mulh d a b | mulhu d a b | div d a b | divu d a b | rem d a b | remu d a b
  | fmin d a b | fmax d a b | fminn d a b | fmaxn d a b =>
    cases h
    exact holds_S3 (fun _ _ => rfl) d a b
  | abs d a | clz d a | popc d a | fadd d a b rm | fsub d a b rm | fmul d a b rm | fcvt d a k rm =>
    cases h
    refine holds_fixed BitVec.zero_and rfl ?_ ?_ <;>
    · dsimp only [bodyS3, HAppend.hAppend]
      simp [-BitVec.append_eq, -BitVec.getLsbD_eq_getElem]
  | cmp pd cc a b | fcmp pd cc a b =>
    cases h
    refine holds_fixed BitVec.zero_and rfl ?_ ?_
    · rw [fld_bodySP]; rfl
    · dsimp only [bodySP, HAppend.hAppend]
      simp [-BitVec.append_eq]
  | pand pd pa pb na nb | por pd pa pb na nb | pxor pd pa pb na nb | pnot pd pa na =>
    cases h
    refine holds_fixed BitVec.zero_and rfl ?_ ?_ <;>
    · dsimp only [bodySP, HAppend.hAppend]
      simp [-BitVec.append_eq, -BitVec.getLsbD_eq_getElem]
  | extB d a | extH d a | extBu d a | extHu d a | fsgn d a b | fsgnN d a b | fsgnX d a b =>
    cases h
    refine holds_slotWord BitVec.zero_and ?_
    change (if _ then _ else _) = _
    dsimp only [bodyS3, HAppend.hAppend]
    simp [-BitVec.append_eq]
  | sel d a b p =>
    cases h
    refine holds_free BitVec.zero_and rfl ?_
    dsimp only [bodyS3, HAppend.hAppend]
    simp [-BitVec.append_eq]
  | addi d a i | andImm d a i | orImm d a i | xorImm d a i | andnImm d a i | shlImm d a i | shrImm d a i | sarImm d a i | rolImm d a i =>
    cases h
    exact holds_SI rfl (fun _ _ => rfl) d a i
  | movi d i =>
    cases h
    refine holds_free (lent_all _) rfl ?_
    dsimp only [HAppend.hAppend]
    simp [-BitVec.append_eq]
  | movhi d i =>
    cases h
    refine holds_free (lent_low _) rfl ?_
    dsimp only [lendU, HAppend.hAppend]
    simp [-BitVec.append_eq]
  | cmpImm pd cc a i =>
    cases h
    refine holds_fixed (lent_all _) rfl ?_ ?_
    · rw [fld_bodySP]; rfl
    · dsimp only [bodySP, HAppend.hAppend]
      simp [-BitVec.append_eq]
  | ffma d a b c rm =>
    cases h
    refine holds_fixed (lent_low _) rfl ?_ ?_ <;>
    · dsimp only [bodyS3, HAppend.hAppend]
      simp [-BitVec.append_eq, -BitVec.getLsbD_eq_getElem]
  | _ => cases hk
theorem holds_encodeA {i : Instr} {l : BitVec 9} {w : BitVec 32} (hk : i.kind = 1) (h : encode i = some (l, w)) : Holds i l w := by
  cases i with
  | ldB ar pi off | ldH ar pi off | ldW ar pi off | ldV ar pi off | stB ar pi off | stH ar pi off | stW ar pi off | stV ar pi off =>
    cases h
    exact holds_AM rfl (fun _ _ => rfl) ar pi off
  | ldDs v ar pi off | stDs v ar pi off | amoCas ar s c off | aaddImm ad aa i | streamRd k ar off st | streamWr k ar off st =>
    cases h
    refine holds_free (lent_all _) rfl ?_
    dsimp only [vreg, HAppend.hAppend]
    simp [-BitVec.append_eq, -BitVec.getLsbD_eq_getElem]
  | amoAdd ar s off | amoMin ar s off | amoMax ar s off | amoSwap ar s off =>
    cases h
    refine holds_fixed (lent_all _) rfl ?_ ?_ <;>
    · dsimp only [HAppend.hAppend]
      simp [-BitVec.append_eq]
  | aadd ad aa s | amovA ad s | amovS sd aa =>
    cases h
    refine holds_fixed BitVec.zero_and rfl ?_ ?_ <;>
    · dsimp only [HAppend.hAppend]
      simp [-BitVec.append_eq]
  | _ => cases hk
theorem holds_encodeV {i : Instr} {l : BitVec 9} {w : BitVec 32} (hk : i.kind = 2) (h : encode i = some (l, w)) : Holds i l w := by
  cases i with
  | vadd d a b mk ty rm | vsub d a b mk ty rm | vmul d a b mk ty rm | vfma d a b mk ty rm | vfms d a b mk ty rm =>
    cases h
    exact holds_V3r rfl (fun _ _ => rfl) d a b mk ty rm
  | vmin d a b mk ty | vmax d a b mk ty | vminn d a b mk ty | vmaxn d a b mk ty | vadds d a b mk ty | vsubs d a b mk ty | vand d a b mk ty
  | vor d a b mk ty | vxor d a b mk ty | vshl d a b mk ty | vshr d a b mk ty | vsar d a b mk ty | vsel d a b mk ty | vperm d a b mk ty
  | vrot d a b mk ty | vslide d a b mk ty =>
    cases h
    exact holds_V3 rfl (fun _ _ => rfl) d a b mk ty
  | vabs d a mk ty | vneg d a mk ty | vmov d a mk ty | vshlImm d a c mk ty | vshrImm d a c mk ty | vsarImm d a c mk ty | vpackSb d a mw ty rm
  | vunpackSb d a ty rm =>
    cases h
    refine holds_fixed (lent_vDA _ _ _ _) rfl ?_ ?_ <;>
    · dsimp only [vreg, HAppend.hAppend]
      simp [-BitVec.append_eq]
  | vcmp cc md a b mk ty | vext d a lane ty =>
    cases h
    refine holds_fixed (lent_vAB _ _ _ _) rfl ?_ ?_ <;>
    · dsimp only [vreg, HAppend.hAppend]
      simp [-BitVec.append_eq]
  | vclamp d lo hi mk ty | vbcast d s mk ty =>
    cases h
    refine holds_fixed (lent_vD _ _ _) rfl ?_ ?_ <;>
    · dsimp only [vreg, HAppend.hAppend]
      simp [-BitVec.append_eq]
  | vredAdd d a mk ty rm | vredMax d a mk ty | vredMin d a mk ty =>
    cases h
    refine holds_fixed (lent_vA _ _ _) rfl ?_ ?_ <;>
    · dsimp only [vreg, HAppend.hAppend]
      simp [-BitVec.append_eq]
  | vcvt d a dst src mk rm sat =>
    cases h
    refine holds_free (lent_vcvt _ _ _ _) rfl ?_
    dsimp only [vreg, HAppend.hAppend]
    simp [-BitVec.append_eq, -BitVec.getLsbD_eq_getElem]
  | _ => cases hk
theorem holds_encodeM {i : Instr} {l : BitVec 9} {w : BitVec 32} (hk : i.kind = 3) (h : encode i = some (l, w)) : Holds i l w := by
  cases i with
  | unlease | amodeWrap | amodeSat =>
    cases h
    exact holds_slotWord BitVec.zero_and rfl
  | lease k | accz acc =>
    cases h
    refine holds_fixed BitVec.zero_and rfl ?_ ?_ <;>
    · dsimp only [HAppend.hAppend]
      simp [-BitVec.append_eq, -BitVec.getLsbD_eq_getElem]
  | lwt w ar bt st | mma acc w ar bt ty st | mmaz acc w ar bt ty st | gmma acc w ar bt ty st | accld acc ar cv rw st | accret acc ar cv rw st =>
    cases h
    refine holds_fixed (lent_all _) rfl ?_ ?_ <;>
    · dsimp only [HAppend.hAppend]
      simp [-BitVec.append_eq, -BitVec.getLsbD_eq_getElem]
  | _ => cases hk
theorem holds_encodeE {i : Instr} {l : BitVec 9} {w : BitVec 32} (hk : i.kind = 4) (h : encode i = some (l, w)) : Holds i l w := by
  cases i with
  | tev d a fn ty mk =>
    cases h
    refine holds_free (lent_tev _ _) rfl ?_
    dsimp only [vreg, HAppend.hAppend]
    simp [-BitVec.append_eq]
  | skinitQs z size k | skinitHh z size k | skinitDc z size k =>
    cases h
    refine holds_slotWord BitVec.zero_and ?_
    change (if _ then _ else _) = _
    dsimp only [HAppend.hAppend]
    simp [-BitVec.append_eq]
  | tld tb ar k | tcfg tb s | skseed s k | skmerge zd zs k | skq d z s k | skrank d z s k | skcard d z k | sktop z ar k | skld z ar k | skst z ar k
  | skclr z k =>
    cases h
    refine holds_fixed BitVec.zero_and rfl ?_ ?_ <;>
    · dsimp only [HAppend.hAppend]
      simp [-BitVec.append_eq]
  | skfold z v mk k =>
    cases h
    refine holds_fixed (lent_low _) rfl ?_ ?_ <;>
    · dsimp only [vreg, HAppend.hAppend]
      simp [-BitVec.append_eq]
  | cpyTd k ad asr ln st | cpyDt k ad asr ln st | cpyRedF32 k ad asr ln dt st | cpyRedBf16 k ad asr ln dt st | cpyRedI32 k ad asr ln dt st =>
    cases h
    refine holds_fixed (lent_all _) rfl ?_ ?_ <;>
    · dsimp only [HAppend.hAppend]
      simp [-BitVec.append_eq, -BitVec.getLsbD_eq_getElem]
  | _ => cases hk
theorem holds_encodeN {i : Instr} {l : BitVec 9} {w : BitVec 32} (hk : i.kind = 5) (h : encode i = some (l, w)) : Holds i l w := by
  cases i with
  | send ch ar ln st | sendRel ch ar ln st | sendr ch ar ln st =>
    cases h
    refine holds_free (lent_all _) rfl ?_
    dsimp only [HAppend.hAppend]
    simp [-BitVec.append_eq]
  | sendM g ar ln st =>
    cases h
    refine holds_fixed (lent_all _) rfl ?_ ?_ <;>
    · dsimp only [HAppend.hAppend]
      simp [-BitVec.append_eq]
  | recvArm ch s | qpost e | qarm e k s | sideAdd id ar sl | sideRel id | decCfg ar | barArr b | nxt d | route cl si sv =>
    cases h
    refine holds_fixed BitVec.zero_and rfl ?_ ?_ <;>
    · dsimp only [HAppend.hAppend]
      simp [-BitVec.append_eq]
  | _ => cases hk
theorem holds_encodeC {i : Instr} {l : BitVec 9} {w : BitVec 32} (hk : i.kind = 6) (h : encode i = some (l, w)) : Holds i l w := by
  cases i with
  | ret | nop | exit =>
    cases h
    exact holds_slotWord BitVec.zero_and rfl
  | br off | call off | brC n p off =>
    cases h
    refine holds_free (lent_low _) rfl ?_
    dsimp only [HAppend.hAppend]
    simp [-BitVec.append_eq, -BitVec.getLsbD_eq_getElem]
  | brTree off =>
    cases h
    exact holds_free BitVec.zero_and rfl rfl
  | wait k n =>
    cases h
    refine holds_free BitVec.zero_and rfl ?_
    dsimp only [HAppend.hAppend]
    simp [-BitVec.append_eq]
  | loop s len mx | loopP s len mx =>
    cases h
    refine holds_free (lent_all _) rfl ?_
    dsimp only [lendU, HAppend.hAppend]
    simp [-BitVec.append_eq]
  | loopW n p len mx =>
    cases h
    refine holds_fixed (lent_all _) rfl ?_ ?_ <;>
    · dsimp only [lendU, HAppend.hAppend]
      simp [-BitVec.append_eq, -BitVec.getLsbD_eq_getElem]
  | brk n p | dly c | barWait b | phase n =>
    cases h
    refine holds_fixed BitVec.zero_and rfl ?_ ?_ <;>
    · dsimp only [HAppend.hAppend]
      simp [-BitVec.append_eq, -BitVec.getLsbD_eq_getElem]
  | _ => cases hk
theorem holds_encodeY {i : Instr} {l : BitVec 9} {w : BitVec 32} (hk : i.kind = 7) (h : encode i = some (l, w)) : Holds i l w := by
  cases i with
  | tret =>
    cases h
    exact holds_slotWord BitVec.zero_and rfl
  | tkp k n =>
    cases h
    refine holds_free BitVec.zero_and rfl ?_
    dsimp only [HAppend.hAppend]
    simp [-BitVec.append_eq]
  | csrr d c | csrw a c | trap n | tks k s | tkr k s | tkz k | sig c | bkpt n | pwr h' | ent d =>
    cases h
    refine holds_fixed BitVec.zero_and rfl ?_ ?_ <;>
    · dsimp only [HAppend.hAppend]
      simp [-BitVec.append_eq, -BitVec.getLsbD_eq_getElem]
  | cycGl d | cycGh d | cycTl d | cycTh d =>
    cases h
    refine holds_slotWord BitVec.zero_and ?_
    change (if _ then _ else _) = _
    dsimp only [HAppend.hAppend]
    simp [-BitVec.append_eq]
  | _ => cases hk
theorem decodeHeader_encode {i : Instr} {l : BitVec 9} {w : BitVec 32} (hk : i.kind = 8) (h : encode i = some (l, w)) : w.getLsbD 30 = true ∧ decodeHeader w = some i := by
  cases i with
  | hdrLend l2 l3 l4 | hdrTree n0 p0 n1 p1 n2 p2 n3 p3 s2 s3 s4 | hdrRep c s2 s3 s4 =>
    cases h
    refine ⟨?_, ?_⟩ <;>
    · dsimp only [HAppend.hAppend, decodeHeader]
      simp [-BitVec.append_eq, -BitVec.getLsbD_eq_getElem]
  | _ => cases hk
theorem encode_of_kind_high {i : Instr} {n : Nat} (hk : i.kind = n + 9) : encode i = none := by
  cases i with
  | _ => cases hk <;> rfl

/-- What is encoded reads back: a header as a header, a well-formed slot instruction under its lent bits. -/
theorem decode_encode {i : Instr} {l : BitVec 9} {w : BitVec 32} (hi : i.wf = true) (h : encode i = some (l, w)) :
    if w.getLsbD 30 then decodeHeader w = some i else decodeSlot w l = .ok i := by
  have slot (hw : Holds i l w) : if w.getLsbD 30 then decodeHeader w = some i else decodeSlot w l = .ok i := by
    rw [hw.slot]; exact hw.decodeSlot hi
  rcases hk : i.kind with _ | _ | _ | _ | _ | _ | _ | _ | _ | n
  · exact slot (holds_encodeS hk h)
  · exact slot (holds_encodeA hk h)
  · exact slot (holds_encodeV hk h)
  · exact slot (holds_encodeM hk h)
  · exact slot (holds_encodeE hk h)
  · exact slot (holds_encodeN hk h)
  · exact slot (holds_encodeC hk h)
  · exact slot (holds_encodeY hk h)
  · obtain ⟨hh, hd⟩ := decodeHeader_encode hk h
    rw [hh]; exact hd
  · rw [encode_of_kind_high hk] at h; cases h

/-! ### Submission entries (R380, R384) -/

@[simp] theorem entryField_or (a b : BitVec 512) (lo n : Nat) : entryField (a ||| b) lo n = entryField a lo n ||| entryField b lo n :=
  BitVec.extractLsb'_or
/-- A field read where it was put. -/
@[simp] theorem entryField_put_same {w : Nat} (lo n : Nat) (x : BitVec w) (hn : lo + n ≤ 64) :
    entryField (entryPut lo x) lo n = x.setWidth (8 * n) := by
  apply BitVec.eq_of_getLsbD_eq
  intro i hi
  simp only [entryField, entryPut, BitVec.getLsbD_extractLsb', BitVec.getLsbD_shiftLeft, BitVec.getLsbD_setWidth]
  simp [hi, show 8 * lo + i < 512 by omega, show i < 512 by omega]
/-- A field read elsewhere. -/
theorem entryField_put_apart {w : Nat} (lo k n : Nat) (x : BitVec w) (h : k + n ≤ lo ∨ 8 * lo + w ≤ 8 * k) : entryField (entryPut lo x) k n = 0#(8 * n) := by
  apply BitVec.eq_of_getLsbD_eq
  intro i hi
  simp only [entryField, entryPut, BitVec.getLsbD_extractLsb', BitVec.getLsbD_shiftLeft, BitVec.getLsbD_setWidth]
  rcases h with h | h
  · simp [show 8 * k + i < 8 * lo by omega]
  · simp [BitVec.getLsbD_of_ge x (8 * k + i - 8 * lo) (by omega)]
@[simp] theorem entryField_put_below {w : Nat} (lo k n : Nat) (x : BitVec w) (h : k + n ≤ lo) : entryField (entryPut lo x) k n = 0#(8 * n) :=
  entryField_put_apart lo k n x (.inl h)
@[simp] theorem entryField_put_above {w : Nat} (lo k n : Nat) (x : BitVec w) (h : 8 * lo + w ≤ 8 * k) : entryField (entryPut lo x) k n = 0#(8 * n) :=
  entryField_put_apart lo k n x (.inr h)

theorem entryClean_iff (e : BitVec 512) (l : List (Nat × Nat)) : entryClean e l = true ↔
    ∀ k < 64, k = 0 ∨ (4 ≤ k ∧ k < 8) ∨ (∃ r ∈ l, r.1 ≤ k ∧ k < r.1 + r.2) ∨ entryField e k 1 = 0#8 := by
  simp [entryClean, or_assoc]

@[simp] theorem entryClean_or {a b : BitVec 512} {l : List (Nat × Nat)} (ha : entryClean a l = true) (hb : entryClean b l = true) :
    entryClean (a ||| b) l = true := by
  rw [entryClean_iff] at *
  intro k hk
  rcases ha k hk with h | h | h | ha
  · exact .inl h
  · exact .inr (.inl h)
  · exact .inr (.inr (.inl h))
  rcases hb k hk with h | h | h | hb
  · exact .inl h
  · exact .inr (.inl h)
  · exact .inr (.inr (.inl h))
  · exact .inr (.inr (.inr (by rw [entryField_or]; simp [ha, hb])))
/-- A field within an argument that the command names. -/
theorem entryClean_put {w lo : Nat} {l : List (Nat × Nat)} (x : BitVec w) (h : l.any (fun r => decide (r.1 ≤ lo) && decide (8 * lo + w ≤ 8 * (r.1 + r.2))) = true) :
    entryClean (entryPut lo x) l = true := by
  rw [entryClean_iff]
  intro k hk
  obtain ⟨r, hr, hb⟩ := List.any_eq_true.1 h
  simp only [Bool.and_eq_true, decide_eq_true_eq] at hb
  by_cases h1 : k < lo
  · exact .inr (.inr (.inr (entryField_put_below lo k 1 x (by omega))))
  by_cases h2 : 8 * lo + w ≤ 8 * k
  · exact .inr (.inr (.inr (entryField_put_above lo k 1 x h2)))
  · exact .inr (.inr (.inl ⟨r, hr, by omega, by omega⟩))
theorem entryClean_head (op : BitVec 8) (t : Word) (l : List (Nat × Nat)) : entryClean (entryHead op t) l = true := by
  rw [entryClean_iff]
  intro k hk
  by_cases h0 : k = 0
  · exact .inl h0
  by_cases h1 : 4 ≤ k ∧ k < 8
  · exact .inr (.inl h1)
  · refine .inr (.inr (.inr ?_))
    rw [entryHead, entryField_or, entryField_put_above _ _ _ _ (by omega), entryField_put_apart _ _ _ _ (by omega)]; rfl

@[simp] theorem entryField_head_op (op : BitVec 8) (t : Word) : entryField (entryHead op t) 0 1 = op := by
  simp [entryHead]
@[simp] theorem entryField_head_tag (op : BitVec 8) (t : Word) : entryField (entryHead op t) 4 4 = t := by
  simp [entryHead]
@[simp] theorem entryField_head_args (op : BitVec 8) (t : Word) (k n : Nat) (h : 8 ≤ k) : entryField (entryHead op t) k n = 0#(8 * n) := by
  rw [entryHead, entryField_or, entryField_put_above _ _ _ _ (by omega), entryField_put_above _ _ _ _ (by omega), BitVec.or_zero]

/-- On a port the entry holds the command, and nothing beside its arguments. -/
def Submits (e : BitVec 512) (port : Bool) (i : Instr) : Prop := ∃ l, entryCommand port e = some (i, l) ∧ entryClean e l = true
theorem Submits.decodeCommand {e : BitVec 512} {port : Bool} {i : Instr} (h : Submits e port i) (hi : i.wf = true) : decodeCommand port e = i := by
  obtain ⟨l, hr, hc⟩ := h
  simp [Sys2Proof.decodeCommand, hr, hc, hi]

theorem submits_encodeCommand {i : Instr} {e : BitVec 512} (h : encodeCommand i = some e) : ∃ port, Submits e port i := by
  cases i with
  | loadImage port | launchStart port | launchPost port | mapRangeEntry port | mapTableRoot port | mapInvalidate port | queryModuleState port
  | queryMirage port | queryTileReport port | queryEnergy port | queryDebugChallenge port | queryRouterCounters port | queryOpticalPorts port
  | checkpoint port | restore port | preempt port | resume port | haltAt port | stepTile port | stepWafer port | readState port | powerCap port
  | powerDebugOpen port | powerDebugClose port | powerRetentionEnter port | powerRetentionExit port | attest port | scrub port | semaphoreAcquire port
  | semaphoreRelease port | semaphoreRead port =>
    cases h
    refine ⟨port, ?_⟩
    simp [Submits, entryCommand]
    repeat refine entryClean_or ?_ (entryClean_put _ rfl)
    exact entryClean_head _ _ _
  | stream port t host dva len dir =>
    cases h
    refine ⟨port, ?_⟩
    cases dir <;> simp [Submits, entryCommand]
    all_goals
      repeat refine entryClean_or ?_ (entryClean_put _ rfl)
      exact entryClean_head _ _ _
  | _ => cases h
end Sys2Proof

namespace Sys2Proof.Machine

/-- Settles O59: each kind of word by the layout of its forms, each submission entry by the places of its arguments. -/
theorem decodeEncode : Obligations.DecodeEncode := by
  unfold Obligations.DecodeEncode
  refine ⟨fun i l w hi h => decode_encode hi h, fun i e hi h => ?_⟩
  obtain ⟨port, hs⟩ := submits_encodeCommand h
  cases port with
  | false => exact .inl (hs.decodeCommand hi)
  | true => exact .inr (hs.decodeCommand hi)

end Sys2Proof.Machine

/-! PROOFS. Bundles: the words of chapter 3, the fetch of a bundle and the faults of its due turn. -/
namespace Sys2Proof.Machine

/-- A word that encodes a well-formed slot instruction reads back as it. -/
theorem decodeSlot_of_encode {i : Instr} {l : BitVec 9} {w : Word} (h : encode i = some (l, w)) (hw : w.getLsbD 30 = false) (hi : i.wf = true) :
    decodeSlot w l = .ok i := by
  have hd := decode_encode hi h
  rwa [hw] at hd

/-- Settles O60: the words with a stop bit are the encodings of their instructions, which read back; the others are decoded as they stand. -/
theorem workedEncodings : Obligations.WorkedEncodings := by
  unfold Obligations.WorkedEncodings
  refine ⟨?_, rfl, decodeSlot_of_encode rfl rfl rfl, decodeSlot_of_encode rfl rfl rfl, rfl, ?_, ?_⟩
  · decide
  · decide
  · decide

end Sys2Proof.Machine

/-! PROOFS. The fetch of a bundle and the faults of its due turn (R40, R54, R82, R87). -/
namespace Sys2Proof.Machine

/-! ### The words of a bundle -/

/-- The entry that serves a VPN is the lowest valid one that holds it. -/
theorem Tile.pageOf_eq_some (x : Tile) (v i : Nat) : x.pageOf v = some i ↔
    i < 128 ∧ ((x.cmapAt i).getLsbD 31 = true ∧ ((x.cmapAt i).extractLsb' 12 12).toNat = v)
      ∧ ∀ j < i, ¬((x.cmapAt j).getLsbD 31 = true ∧ ((x.cmapAt j).extractLsb' 12 12).toNat = v) := by
  unfold Tile.pageOf
  rw [upto_eq_range', List.find?_range'_eq_some]
  simp only [Bool.and_eq_true, decide_eq_true_eq, List.mem_range'_1, Nat.zero_le, true_and, Nat.zero_add, Bool.not_eq_true', Bool.and_eq_false_iff,
    decide_eq_false_iff_not, forall_const, not_and_or, Bool.not_eq_true]
  tauto
theorem Tile.pageOf_eq_none (x : Tile) (v : Nat) : x.pageOf v = none ↔
    ∀ j < 128, ¬((x.cmapAt j).getLsbD 31 = true ∧ ((x.cmapAt j).extractLsb' 12 12).toNat = v) := by
  unfold Tile.pageOf
  rw [upto_eq_range', List.find?_range'_eq_none]
  simp only [Nat.zero_le, forall_const, Nat.zero_add, Bool.not_eq_true', Bool.and_eq_false_iff, decide_eq_false_iff_not, not_and_or, Bool.not_eq_true]

theorem Tile.fetch_of_no_page {x : Tile} {a : Nat} (m : Bool) (h : x.pageOf (a / 4096 % 4096) = none) : x.fetch m a = .error (.page a) := by
  simp [Tile.fetch, h]
theorem Tile.fetch_of_page {x : Tile} {a i : Nat} (m : Bool) (h : x.pageOf (a / 4096 % 4096) = some i) : x.fetch m a =
    if (x.cmapAt i).getLsbD 30 = true ∧ m = false then .error (.privilege a) else .ok (BitVec.ofNat 32 (sgetBytes x.code (i * 4096 + a % 4096) 4)) := by
  simp [Tile.fetch, h, -BitVec.getLsbD_eq_getElem]

/-- The words ws stand at b, and no stop bit is among them. -/
def Tile.RunsOn (x : Tile) (m : Bool) (b : Nat) (ws : List Word) : Prop :=
  ∀ k < ws.length, x.fetch m ((b + 4 * k) % 2 ^ 24) = .ok (ws.getD k 0#32) ∧ (ws.getD k 0#32).getLsbD 31 = false
theorem Tile.RunsOn.cons {x : Tile} {m : Bool} {b : Nat} {w : Word} {ws : List Word} (h : x.RunsOn m b (w :: ws)) :
    (x.fetch m (b % 2 ^ 24) = .ok w ∧ w.getLsbD 31 = false) ∧ x.RunsOn m (b + 4) ws := by
  refine ⟨h 0 (by simp), fun k hk => ?_⟩
  have := h (k + 1) (by simpa using hk)
  rwa [show b + 4 * (k + 1) = b + 4 + 4 * k by omega] at this

/-- After words without a stop bit the bundle goes on with what is fetched behind them. -/
theorem Tile.fetchBundle_of_runsOn {x : Tile} {m : Bool} {b n : Nat} {ws : List Word} (h : x.RunsOn m b ws) :
    x.fetchBundle m b (ws.length + n) = (x.fetchBundle m (b + 4 * ws.length) n).map (ws ++ ·) := by
  induction ws generalizing b with
  | nil => simp only [List.length_nil, Nat.zero_add, Nat.mul_zero, Nat.add_zero]; cases x.fetchBundle m b n <;> rfl
  | cons w ws ih =>
    obtain ⟨⟨hf, hs⟩, hr⟩ := h.cons
    rw [List.length_cons, Nat.add_right_comm, Tile.fetchBundle, hf]
    simp only [hs, Bool.false_eq_true, if_false, ih hr, show b + 4 * (ws.length + 1) = b + 4 + 4 * ws.length by omega]
    cases x.fetchBundle m (b + 4 + 4 * ws.length) n <;> rfl
theorem Tile.fetchBundle_first_error {x : Tile} {m : Bool} {b n : Nat} {f : FetchFault} (h : x.fetch m (b % 2 ^ 24) = .error f) :
    x.fetchBundle m b (n + 1) = .error f := by rw [Tile.fetchBundle, h]
theorem Tile.fetchBundle_last {x : Tile} {m : Bool} {b n : Nat} {w : Word} (h : x.fetch m (b % 2 ^ 24) = .ok w) (hl : w.getLsbD 31 = true ∨ n = 0) :
    x.fetchBundle m b (n + 1) = .ok [w] := by
  rw [Tile.fetchBundle, h]
  rcases hl with hl | rfl
  · simp only [hl, if_true]
  · cases hw : w.getLsbD 31 <;> simp only [hw, Bool.false_eq_true, if_false, if_true, Tile.fetchBundle]

/-! ### The due turn -/

/-- One of tile t's own turns, outside a replay. -/
theorem asTile_of_no_replay {s : State} {t : Nat} {f : State → Host.Outcome State Fault Refusal} {u : State} (hr : (s.tile t).replayTo = none)
    (h : f { s with free := drawBase t s.restores + (s.tile t).draws } = .next u) :
    s.asTile t f = .next (u.ownEnd t (drawBase t s.restores) s.free) := by
  simp only [State.asTile, hr, Option.isNone_none, if_true, h]
theorem step_issue {s u : State} {r : List Turn} {t c : Nat} (ha : s.agenda = .issue t c :: r) (hr : (s.tile t).replayTo = none)
    (h : State.issueTurn { s with agenda := r, curT := t, curC := c, curArg := 0, free := drawBase t s.restores + (s.tile t).draws } = .next u) :
    step s = .next (u.ownEnd t (drawBase t s.restores) s.free) := by
  unfold step State.turn
  rw [ha]
  exact asTile_of_no_replay (s := { s with agenda := r, curT := t, curC := c, curArg := 0 }) hr h

/-- The core with no loop test left. -/
def Core.testDone (c : Core) : Core := { c with loopTest := false }
theorem Core.testLoop_of_not {c : Core} (h : c.loopTest = false) (k : Nat) : c.testLoop k = (c.testDone, none) := by
  cases k with
  | zero => rfl
  | succ k => simp only [Core.testLoop, h]; rfl

/-- The state as a core's issue turn begins. -/
def State.atIssue (s : State) : State := { s with slot := 1, leaf := none, words := [], before := none, raised := none }
/-- It, once no loop test is left. -/
def State.tested (s : State) : State := s.atIssue.upCore Core.testDone

/-- A bundle that is due, with no loop test left, is read under its repetitions. -/
theorem issueTurn_of_due {s : State} (hi : s.atIssue.issues = true) (hd : s.atIssue.core.due ≤ s.atIssue.clock) (hl : s.atIssue.core.loopTest = false) :
    s.issueTurn = (s.tested.upHere fun x => x.prime s.tested.curC).issueDue := by
  have test := Core.testLoop_of_not hl 7
  unfold State.tested
  unfold State.atIssue at *
  simp only [State.issueTurn, hi, Nat.not_lt.2 hd, test, Bool.not_true, Bool.false_eq_true, if_false]
  rfl

theorem tested_loopTest (s : State) : s.tested.core.loopTest = false := by
  unfold State.tested
  rw [State.upCore_eq, State.core_setTile]; rfl

theorem issueDue_of_error {s : State} {e : Info} (h : s.here.dueBundle s.curC = .error e) : s.issueDue = .next (s.raise e) := by
  rw [State.issueDue, h]

/-- Setting a tile's own value again changes nothing. -/
theorem tested_upHere_of_fixed {s : State} {f : Tile → Tile} (h : f s.tested.here = s.tested.here) : s.tested.upHere f = s.tested := by
  rw [State.upHere_eq, h]
  unfold State.tested
  simp only [State.upCore_eq, State.setTile_curT, State.here_setTile, setTile_setTile]

/-- The turn of a bundle that is due and is refused. -/
theorem issueTurn_of_refused {s : State} {e : Info} (hi : s.atIssue.issues = true) (hd : s.atIssue.core.due ≤ s.atIssue.clock)
    (hl : s.atIssue.core.loopTest = false) (he : (s.tested.here.prime s.tested.curC).dueBundle s.tested.curC = .error e) :
    s.issueTurn = .next ((s.tested.upHere fun x => x.prime s.tested.curC).raise e) := by
  rw [issueTurn_of_due hi hd hl]
  refine issueDue_of_error ?_
  rw [State.upHere_eq, State.here_setTile, State.setTile_curC]; exact he
/-- The same, where no repetition primes the bundle. -/
theorem issueTurn_of_fault {s : State} {e : Info} (hi : s.atIssue.issues = true) (hd : s.atIssue.core.due ≤ s.atIssue.clock)
    (hl : s.atIssue.core.loopTest = false) (hp : s.tested.here.prime s.tested.curC = s.tested.here)
    (he : s.tested.here.dueBundle s.tested.curC = .error e) : s.issueTurn = .next (s.tested.raise e) := by
  rw [issueTurn_of_refused hi hd hl (hp.symm ▸ he), tested_upHere_of_fixed hp]

/-! ### What is due -/

theorem Tile.prime_of_error {x : Tile} {c : Nat} {f : FetchFault} (h : x.fetchBundle (x.core c).inMon (x.core c).pc 4 = .error f) : x.prime c = x := by
  simp only [Tile.prime, h, ite_self]
theorem Tile.prime_of_illegal {x : Tile} {c : Nat} {ws : List Word} (h : x.fetchBundle (x.core c).inMon (x.core c).pc 4 = .ok ws)
    (hd : decodeBundle ws = none) : x.prime c = x := by
  simp only [Tile.prime, h, hd, ite_self]
theorem Tile.dueBundle_of_error {x : Tile} {c : Nat} {f : FetchFault} (h : x.fetchBundle (x.core c).inMon (x.core c).pc 4 = .error f) :
    x.dueBundle c = .error (fetchInfo 0 f) := by
  simp only [Tile.dueBundle, h]

/-- The words of a bundle as a core reads them, under the header that it holds (R348). -/
def Core.readsAs (y : Core) (ws : List Word) : List Word := if y.repRem = 0 then ws else y.repHdr :: ws.tail
theorem Tile.dueBundle_of_illegal {x : Tile} {c : Nat} {ws : List Word} (h : x.fetchBundle (x.core c).inMon (x.core c).pc 4 = .ok ws)
    (hd : decodeBundle ((x.core c).readsAs ws) = none) : x.dueBundle c = .error { cause := cBundle } := by
  unfold Core.readsAs at hd
  simp only [Tile.dueBundle, h, hd]

theorem decodeBundle_nil : decodeBundle [] = none := rfl
/-- Fetch looks at neither core. -/
@[simp] theorem Tile.fetchBundle_setCore (x : Tile) (c : Nat) (y : Core) (m : Bool) (a n : Nat) : (x.setCore c y).fetchBundle m a n = x.fetchBundle m a n := by
  induction n generalizing a with
  | zero => rfl
  | succ n ih => simp only [Tile.fetchBundle, ih]; rfl

/-- The repetition of a bundle with `rem` of them left (R49). -/
def repetitionOf (h : Option Instr) (rem : Nat) : Nat := match h with | some (.hdrRep cnt _ _ _) => cnt.toNat + 1 - rem | _ => 0
theorem Tile.dueBundle_of_slots {x : Tile} {c : Nat} {ws : List Word} {b : Bundle} {e : Info} (h : x.fetchBundle (x.core c).inMon (x.core c).pc 4 = .ok ws)
    (hd : decodeBundle ((x.core c).readsAs ws) = some b)
    (he : slotInstrs (x.core c).pc b.hdr (repetitionOf b.hdr (x.core c).repRem) b.slots = .error e) : x.dueBundle c = .error e := by
  unfold Core.readsAs at hd
  simp only [Tile.dueBundle, h, hd]
  change (match slotInstrs (x.core c).pc b.hdr (repetitionOf b.hdr (x.core c).repRem) b.slots with | .error e => _ | .ok l => _) = _
  rw [he]

/-- The core once its repeat bundle is due: all repetitions are left, and it holds the header. -/
def Core.primed (y : Core) (cnt : BitVec 6) (w : Word) : Core := { y with repRem := cnt.toNat + 1, repHdr := w }
theorem Tile.prime_of_rep {x : Tile} {c : Nat} {ws : List Word} {n : BitVec 6} {p q r : BitVec 4} {l : List Slot}
    (h : x.fetchBundle (x.core c).inMon (x.core c).pc 4 = .ok ws) (hd : decodeBundle ws = some ⟨some (.hdrRep n p q r), l⟩)
    (hr : (x.core c).repRem = 0) (hl : (x.core c).loopTest = false) : x.prime c = x.setCore c ((x.core c).primed n (ws.headD 0#32)) := by
  simp only [Tile.prime, h, hd, hr, hl, ne_eq, not_true_eq_false, decide_false, Bool.or_self, Bool.false_eq_true, if_false]
  rfl
theorem Tile.prime_of_other {x : Tile} {c : Nat} {ws : List Word} {b : Bundle} (h : x.fetchBundle (x.core c).inMon (x.core c).pc 4 = .ok ws)
    (hd : decodeBundle ws = some b) (hb : ∀ n p q r, b.hdr ≠ some (.hdrRep n p q r)) : x.prime c = x := by
  unfold Tile.prime
  simp only [h, hd]
  split
  · rfl
  · split
    · next heq => cases heq; exact absurd rfl (hb _ _ _ _)
    · rfl

/-- A legal bundle of which no repetition has issued is due with its slots as they stand, under its first repetition. -/
theorem Tile.dueBundle_prime {x : Tile} {c : Nat} {ws : List Word} {b : Bundle} {e : Info} (h : x.fetchBundle (x.core c).inMon (x.core c).pc 4 = .ok ws)
    (hd : decodeBundle ws = some b) (hr : (x.core c).repRem = 0) (hl : (x.core c).loopTest = false)
    (he : slotInstrs (x.core c).pc b.hdr 0 b.slots = .error e) : (x.prime c).dueBundle c = .error e := by
  by_cases hb : ∃ n p q r, b.hdr = some (.hdrRep n p q r)
  · obtain ⟨hdr, l⟩ := b
    obtain ⟨n, p, q, r, rfl⟩ := hb
    obtain _ | ⟨w, ws⟩ := ws
    · rw [decodeBundle_nil] at hd; cases hd
    rw [Tile.prime_of_rep h hd hr hl]
    refine Tile.dueBundle_of_slots (ws := w :: ws) (b := ⟨some (.hdrRep n p q r), l⟩) ?_ ?_ ?_
    · rw [Tile.core_setCore, Tile.fetchBundle_setCore]; exact h
    · rw [Tile.core_setCore]; exact hd
    · rw [Tile.core_setCore]
      simpa [repetitionOf, Core.primed] using he
  · push Not at hb
    rw [Tile.prime_of_other h hd hb]
    refine Tile.dueBundle_of_slots h (by rw [Core.readsAs, if_pos hr, hd]) ?_
    have hj (rem : Nat) : repetitionOf b.hdr rem = 0 := by
      unfold repetitionOf
      split
      · next heq => exact absurd heq (hb _ _ _ _)
      · rfl
    rw [hj, he]

/-! ### Slots that hold no instruction -/

/-- A slot as repetition j of its bundle reads it. -/
def steppedSlot (sl : Slot) (h : Option Instr) (j : Nat) : Slot :=
  match h with | some (.hdrRep c s2 s3 s4) => stepSlot sl (stepCodeAt (.hdrRep c s2 s3 s4) sl.pos) j | _ => sl
theorem steppedSlot_of_no_rep {h : Option Instr} (hh : ∀ n x y z, h ≠ some (.hdrRep n x y z)) (sl : Slot) (j : Nat) : steppedSlot sl h j = sl := by
  unfold steppedSlot
  split
  · exact absurd rfl (hh _ _ _ _)
  · rfl
/-- The slot holds no instruction there (R82, R87, R323). -/
def NoInstr (sl : Slot) (pc : Nat) (h : Option Instr) : Prop := decodeSlot sl.word sl.lent = .illegalInstruction
  ∨ ∃ i, decodeSlot sl.word sl.lent = .ok i ∧ (isBrTree i && !isTreeHdr h || strayTree pc i) = true
theorem slotInstrs_cons (pc j : Nat) (h : Option Instr) (sl : Slot) (q : List Slot) : slotInstrs pc h j (sl :: q) =
    match decodeSlot (steppedSlot sl h j).word (steppedSlot sl h j).lent with
    | .illegalBundle => .error { cause := cBundle }
    | .illegalInstruction => .error { cause := cInstr, slot := sl.pos }
    | .ok i => if isBrTree i && !isTreeHdr h || strayTree pc i then .error { cause := cInstr, slot := sl.pos }
      else match slotInstrs pc h j q with | .error e => .error e | .ok l => .ok ((sl.pos, i) :: l) := rfl
theorem slotInstrs_of_noInstr {pc j : Nat} {h : Option Instr} {sl : Slot} {q : List Slot} (hs : NoInstr (steppedSlot sl h j) pc h) :
    slotInstrs pc h j (sl :: q) = .error { cause := cInstr, slot := sl.pos } := by
  rw [slotInstrs_cons]
  rcases hs with hs | ⟨i, hs, ht⟩
  · simp only [hs]
  · simp only [hs, ht, if_true]
theorem slotInstrs_of_instr {pc j : Nat} {h : Option Instr} {sl : Slot} {q : List Slot} {i : Instr} {e : Info}
    (hs : decodeSlot (steppedSlot sl h j).word (steppedSlot sl h j).lent = .ok i) (ht : (isBrTree i && !isTreeHdr h || strayTree pc i) = false)
    (he : slotInstrs pc h j q = .error e) : slotInstrs pc h j (sl :: q) = .error e := by
  rw [slotInstrs_cons]
  simp only [hs, ht, he, Bool.false_eq_true, if_false]

/-- The slots before one that holds no instruction do not hide it: its position is the cause's. -/
theorem slotInstrs_error {pc j : Nat} {h : Option Instr} {l q : List Slot} {sl : Slot} (hh : ∀ n x y z, h ≠ some (.hdrRep n x y z))
    (hl : ∀ k ∈ l, ∃ i, decodeSlot k.word k.lent = .ok i ∧ ∀ o, i ≠ .brTree o) (hs : NoInstr sl pc h) :
    slotInstrs pc h j (l ++ sl :: q) = .error { cause := cInstr, slot := sl.pos } := by
  induction l with
  | nil => exact slotInstrs_of_noInstr (by rwa [steppedSlot_of_no_rep hh])
  | cons k l ih =>
    obtain ⟨i, hi, hb⟩ := hl k (by simp)
    refine slotInstrs_of_instr (i := i) (by rwa [steppedSlot_of_no_rep hh]) ?_ (ih fun k hk => hl k (by simp [hk]))
    cases i with
    | brTree o => exact absurd rfl (hb o)
    | _ => rfl

theorem isTreeHdr_eq_false {h : Option Instr} (hn : ∀ a b c d e f g w x y z, h ≠ some (.hdrTree a b c d e f g w x y z)) : isTreeHdr h = false := by
  unfold isTreeHdr
  split
  · exact absurd rfl (hn _ _ _ _ _ _ _ _ _ _ _)
  · rfl
theorem strayTree_of_mod {pc : Nat} {o : BitVec 21} (h : (BitVec.ofNat 24 pc + 4#24 * o.signExtend 24).toNat % 16 ≠ 0) : strayTree pc (.brTree o) = true := by
  simp only [strayTree, bne_iff_ne, ne_eq, ← BitVec.toNat_inj, BitVec.extractLsb'_toNat, Nat.shiftRight_zero]
  exact h

/-- Settles O54: the code map's search, the walk over the words, the order of the due turn's checks, and the walk over the slots. -/
theorem fetchFaults : Obligations.FetchFaults := by
  unfold Obligations.FetchFaults
  refine ⟨?_, ?_, ?_, ?_⟩
  · intro x m b i hit
    exact ⟨fun h => x.fetch_of_no_page m ((x.pageOf_eq_none _).2 h), fun hi hs hl => x.fetch_of_page m ((x.pageOf_eq_some _ _).2 ⟨hi, hs, hl⟩)⟩
  · intro x m b ws f hn hr
    obtain ⟨n, hn⟩ : ∃ n, ws.length + (n + 1) = 4 := ⟨3 - ws.length, by omega⟩
    have whole := x.fetchBundle_of_runsOn (n := n + 1) hr
    rw [hn] at whole
    rw [whole]
    refine ⟨fun hf => ?_, fun w hw hl => ?_⟩
    · rw [Tile.fetchBundle_first_error hf]; rfl
    · rw [Tile.fetchBundle_last hw (hl.imp_right (by omega))]; rfl
  · intro s r t c a ws b e base close s0 pre read words ha hr hi hd hl
    have turn (u : State) := step_issue (u := u) ha hr
    refine ⟨fun hw => ?_, fun hw => ?_, fun hw hn hn' => ?_, fun hw hb h0 he => ?_⟩
    · exact turn _ (issueTurn_of_fault hi hd hl (Tile.prime_of_error hw) (Tile.dueBundle_of_error hw))
    · exact turn _ (issueTurn_of_fault hi hd hl (Tile.prime_of_error hw) (Tile.dueBundle_of_error hw))
    · exact turn _ (issueTurn_of_fault hi hd hl (Tile.prime_of_illegal hw hn) (Tile.dueBundle_of_illegal hw hn'))
    · exact turn _ (issueTurn_of_refused hi hd hl (Tile.dueBundle_prime hw hb h0 (tested_loopTest _) he))
  · intro pc h l q sl o hh hl hs
    refine slotInstrs_error hh hl ?_
    rcases hs with hs | ⟨hs, ht⟩
    · exact .inl hs
    · refine .inr ⟨_, hs, ?_⟩
      rcases ht with ht | ht
      · rw [strayTree_of_mod ht, Bool.or_true]
      · rw [isTreeHdr_eq_false ht]; rfl

end Sys2Proof.Machine

/-! PROOFS. Predicates: integer comparisons and predicate logic (R118, R119). -/
namespace Sys2Proof.Machine

/-- The relation of a comparison, by its condition code (R118). -/
theorem cmpI_eq (cc : BitVec 3) (u v : Word) : cmpI cc u v = match cc.toNat with
    | 0 => decide (u = v) | 1 => decide (u ≠ v) | 2 => decide (u.toInt < v.toInt) | 3 => decide (v.toInt ≤ u.toInt)
    | 4 => decide (u.toNat < v.toNat) | _ => decide (v.toNat ≤ u.toNat) := by
  unfold cmpI
  generalize cc.toNat = n
  rcases n with _ | _ | _ | _ | _ | _
  · rfl
  · simp [bne, Bool.beq_eq_decide_eq]
  · rfl
  · simp [BitVec.slt, ← decide_not]
  · rfl
  · simp [BitVec.ult, ← decide_not]

/-- Predicate logic: both sources are read as they stand, and nothing can fault. -/
theorem issue_pLogic (f : Bool → Bool → Bool) (pd pa pb : BitVec 3) (na nb : Bool) (s : State) :
    let p := s.core.bank.preg pa.toNat
    let q := s.core.bank.preg pb.toNat
    issue (pLogic f pd pa pb na nb) s = .next (s.putP 1 pd ⟨f (xor p.val na) (xor q.val nb), p.poi || q.poi⟩) := rfl

/-- Settles O5: the relations are `cmpI`, the logic forms one lemma, of which pnot reads p0 beside its source. -/
theorem predicateForms : Obligations.PredicateForms := by
  unfold Obligations.PredicateForms
  intro s s1 s2 d cc pa pb a b i na nb x y rel p q
  have hrel (u v : Word) : rel u v = cmpI cc u v := (cmpI_eq cc u v).symm
  refine ⟨fun ha hb => ?_, fun ha => ?_, ?_, ?_, ?_, ?_⟩
  · rw [hrel]
    exact issue_ok (iss_seq (readS2_ok ha hb) rfl)
  · rw [hrel]
    exact issue_ok (iss_seq ha rfl)
  · exact issue_pLogic _ d pa pb na nb s
  · exact issue_pLogic _ d pa pb na nb s
  · exact issue_pLogic _ d pa pb na nb s
  · refine (issue_pLogic (fun x _ => !x) d pa 0#3 na false s).trans ?_
    simp [p]

end Sys2Proof.Machine

/-! PROOFS. Address registers: their moves and sums, the tile atomics (R239, R240). -/
namespace Sys2Proof.Machine

/-- The lesser and the greater of two words as signed numbers. -/
theorem ofInt_min_toInt (x y : Word) : BitVec.ofInt 32 (min x.toInt y.toInt) = if x.slt y then x else y := by
  rw [BitVec.slt]
  by_cases h : x.toInt < y.toInt
  · simp [h, Int.min_eq_left (Int.le_of_lt h)]
  · simp [h, Int.min_eq_right (Int.not_lt.1 h)]
theorem ofInt_max_toInt (x y : Word) : BitVec.ofInt 32 (max x.toInt y.toInt) = if x.slt y then y else x := by
  rw [BitVec.slt]
  by_cases h : x.toInt < y.toInt
  · simp [h, Int.max_eq_right (Int.le_of_lt h)]
  · simp [h, Int.max_eq_left (Int.not_lt.1 h)]

/-- What an atomic does once its address is in order and its operands are read. -/
def State.amoAt (s : State) (op ea : Nat) (x c : PWord) : State :=
  (s.upCore fun k => k.setBank (k.bank.reserveLdq false)).laterUntil 3 9 [.amoRead op ea x c s.core.bank.ldqSeq]

theorem issue_amoOp_one {s s1 : State} {ar : BitVec 4} {off : BitVec 14} {r : BitVec 6} {x : PWord}
    (ha : Access (s.core.bank.areg ar.toNat) ((s.core.bank.areg ar.toNat).val + 4#32 * off.signExtend 32).toNat 4 4 tmSize) (hr : readS r s = .ok (x, s1))
    (hc : s1.ClearOf 0 ((s.core.bank.areg ar.toNat).val + 4#32 * off.signExtend 32).toNat 4) (op : Nat) :
    issue (amoOp op ar off r none) s = .next (s1.amoAt op ((s.core.bank.areg ar.toNat).val + 4#32 * off.signExtend 32).toNat x {}) :=
  issue_ok (iss_seq (readA_ok ar s) (iss_seq (access_addr ha s) (iss_seq (access_clean ha s) (iss_seq hr (iss_seq (iss_pure _ _) (iss_seq (clear_ok hc) rfl))))))
theorem issue_amoOp_two {s s1 s2 : State} {ar : BitVec 4} {off : BitVec 14} {r c : BitVec 6} {x y : PWord}
    (ha : Access (s.core.bank.areg ar.toNat) ((s.core.bank.areg ar.toNat).val + 4#32 * off.signExtend 32).toNat 4 4 tmSize) (hr : readS r s = .ok (x, s1))
    (hy : readS c s1 = .ok (y, s2)) (hc : s2.ClearOf 0 ((s.core.bank.areg ar.toNat).val + 4#32 * off.signExtend 32).toNat 4) (op : Nat) :
    issue (amoOp op ar off r (some c)) s = .next (s2.amoAt op ((s.core.bank.areg ar.toNat).val + 4#32 * off.signExtend 32).toNat x y) :=
  issue_ok (iss_seq (readA_ok ar s) (iss_seq (access_addr ha s) (iss_seq (access_clean ha s) (iss_seq (readS2_ok hr hy) (iss_seq (clear_ok hc) rfl)))))

/-- Settles O12. -/
theorem addressMovesAndAtomics : Obligations.AddressMovesAndAtomics := by
  unfold Obligations.AddressMovesAndAtomics
  refine ⟨?_, fun s s1 s2 ar off r c x y => ⟨?_, ?_⟩⟩
  · intro s s1 ad aa i r x a
    refine ⟨rfl, fun hr => ⟨?_, ?_⟩, rfl⟩
    · exact issue_ok (iss_seq (readA_ok aa s) (iss_seq hr rfl))
    · exact issue_ok (iss_seq hr rfl)
  · intro ha hr
    refine ⟨fun hc => ?_, fun hy hc => ?_⟩
    · have one := issue_amoOp_one ha hr hc
      exact ⟨one 0, one 1, one 2, one 3⟩
    · exact issue_amoOp_two ha hr hy hc 4
  · intro o v w
    refine ⟨rfl, ?_, ?_, rfl, ?_⟩
    · rw [ofInt_min_toInt]; rfl
    · rw [ofInt_max_toInt]; rfl
    · simp [amoNew]

end Sys2Proof.Machine

/-! PROOFS. Sources and results: what an operand reads, the queue names included (R57, R227, R235 to R237), and where a result goes
(R59, R111, R221). -/
namespace Sys2Proof.Machine

/-! ### Sources -/

/-- No entry of this kind is ready at the head of the queue. -/
def NoneReady (q : List QEntry) (vec : Bool) : Prop := ∀ e r, q = e :: r → e.landed = false ∨ e.vec = !vec
theorem popLdq_error {s : State} {vec : Bool} (h : NoneReady s.core.bank.ldq vec) : popLdq vec s = .error { cause := cQueue, slot := s.slot } := by
  rcases popLdq_cases vec s with ⟨e, r, hq, hl, hv, -⟩ | hp
  · rcases h e r hq with h | h
    · rw [hl] at h; cases h
    · rw [hv] at h; cases vec <;> cases h
  · exact hp
theorem takeS_error {n : BitVec 6} {s : State} (ha : s.core.sAlias n = true) (h : NoneReady s.core.bank.ldq false) :
    takeS n s = .error { cause := cQueue, slot := s.slot } := by
  unfold takeS
  rw [if_pos ha, popLdq_error h]
theorem readS_error {n : BitVec 6} {s : State} (ha : s.core.sAlias n = true) (h : NoneReady s.core.bank.ldq false) :
    readS n s = .error { cause := cQueue, slot := s.slot } := iss_bind_error (takeS_error ha h)
/-- Of two sources, a queue fault of the second comes before an under-wait of the first (R342). -/
theorem readS2_error {m n : BitVec 6} {s : State} (hm : s.core.sAlias m = false) (ha : s.core.sAlias n = true) (h : NoneReady s.core.bank.ldq false) :
    readS2 m n s = .error { cause := cQueue, slot := s.slot } := iss_seq (takeS_plain m s hm) (iss_bind_error (takeS_error ha h))
theorem underS_alias {n : BitVec 6} {s : State} (ha : s.core.sAlias n = true) : underS n s = .ok ((), s) := need_ok (by rw [ha, Bool.true_or]) _ _ _ s
/-- The landed scalar entry at the head of the LDQ is taken: no strict-mode record stands against the queue name. -/
theorem readS_head {n : BitVec 6} {s : State} {e : QEntry} {r : List QEntry} (ha : s.core.sAlias n = true) (h : Ready s.core.bank.ldq false e r) :
    readS n s = .ok (⟨e.val.setWidth 32, e.poi.getLsbD 0⟩, s.upCore fun c => c.setBank { c.bank with ldq := r }) := by
  have ht : takeS n s = .ok (⟨e.val.setWidth 32, e.poi.getLsbD 0⟩, s.upCore fun c => c.setBank { c.bank with ldq := r }) := by
    unfold takeS
    rw [if_pos ha, popLdq_ok h]
  exact iss_seq ht (iss_seq ((takeS_keeps ht n).2 (underS_alias ha)) rfl)
/-- In strict token mode a register is read unless it is tracked (R227). -/
theorem underS_strict {n : BitVec 6} {s : State} (ha : s.core.sAlias n = false) (hs : s.core.strict = true) :
    underS n s = if s.core.ranges.any (fun r => r.space == s.core.sSpace && r.lo == n.toNat) then .error { cause := cUnder, slot := s.slot } else .ok ((), s) := by
  unfold underS
  rw [ha, hs]
  split
  · next h => rw [h]; rfl
  · next h => rw [Bool.not_eq_true] at h; rw [h]; rfl
theorem readS_strict {n : BitVec 6} {s : State} (ha : s.core.sAlias n = false) (hs : s.core.strict = true) :
    readS n s = if s.core.ranges.any (fun r => r.space == s.core.sSpace && r.lo == n.toNat) then .error { cause := cUnder, slot := s.slot }
      else .ok (s.core.bank.sreg n.toNat, s) := by
  refine iss_seq (takeS_plain n s ha) ?_
  rw [iss_bind, underS_strict ha hs]
  cases s.core.ranges.any fun r => r.space == s.core.sSpace && r.lo == n.toNat <;> rfl

theorem readV_head {n : BitVec 7} {s : State} {e : QEntry} {r : List QEntry} (ha : s.core.vAlias n = true) (h : Ready s.core.bank.ldq true e r) :
    readV n s = .ok (⟨e.val, e.poi⟩, s.upCore fun c => c.setBank { c.bank with ldq := r }) := by
  unfold readV
  rw [if_pos ha, popLdq_ok h]
theorem readV_error {n : BitVec 7} {s : State} (ha : s.core.vAlias n = true) (h : NoneReady s.core.bank.ldq true) :
    readV n s = .error { cause := cQueue, slot := s.slot } := by
  unfold readV
  rw [if_pos ha, popLdq_error h]
theorem readVD_error {n : BitVec 7} {s : State} (ha : s.core.vAlias n = true) : readVD n s = .error { cause := cQueue, slot := s.slot } := if_pos ha

/-- Settles O1: the register, the head of the queue, and the two faults, for a scalar and for a vector. -/
theorem sourceOperands : Obligations.SourceOperands := by
  unfold Obligations.SourceOperands
  refine ⟨fun n s => ⟨fun ha hs => readS_plain n s ha hs, fun ha hs => readS_strict ha hs, rfl, fun e r ha hq hl hv => readS_head ha ⟨hq, hl, hv⟩,
      fun ha h => readS_error ha h, fun m hm ha h => readS2_error hm ha h, fun m x y s1 s2 hm hn => readS2_ok hm hn⟩,
    fun n s => ⟨fun ha => ⟨readV_plain n s ha, readVD_ok n s ha⟩, fun ha => readVD_error ha, fun e r ha h => readV_head ha h,
      fun ha h => readV_error ha h⟩⟩

/-! ### Results -/

/-- A core's change of the queues leaves its place in the program and its cycles. -/
theorem Core.setBank_progress (c : Core) (b : Bank) : (c.setBank b).seq = c.seq ∧ (c.setBank b).pc = c.pc ∧ (c.setBank b).tsk = c.tsk := by
  unfold Core.setBank
  split <;> exact ⟨rfl, rfl, rfl⟩
theorem tcyc_setCore (s : State) (y : Core) : (s.setTile s.curT (s.here.setCore s.curC y)).tcyc s.curT = s.tcyc s.curT := by
  simp only [State.tcyc, State.tile_setTile, State.setTile_gcyc]
  rfl
theorem clock_setCore_setBank (s : State) (b : Bank) : (s.setTile s.curT (s.here.setCore s.curC (s.core.setBank b))).clock = s.clock := by
  obtain ⟨-, -, tsk⟩ := s.core.setBank_progress b
  simp only [State.clock, State.core_setTile, Core.setBank_inMon, State.setTile_curT, tcyc_setCore, tsk]

/-- A result without flags, after a change of the queues: one change of the core. -/
theorem later_upCore_setBank (s : State) (b : Bank) (lat : Nat) (effs : List Eff) : (s.upCore fun c => c.setBank b).later lat effs =
    s.setTile s.curT (s.here.setCore s.curC ((s.core.setBank b).push
      { at' := s.clock + lat, mon := s.core.inMon, id := s.core.seq, slot := s.slot, pc := s.core.pc, issue := s.tcyc s.curT, counts := decide (2 ≤ lat)
        last := s.clock + lat, effs := effs })) := by
  obtain ⟨seq, pc, -⟩ := s.core.setBank_progress b
  simp only [State.later, State.upCore_eq, State.core_setTile, State.here_setTile, State.setTile_curT, State.setTile_curC, State.setTile_slot,
    setTile_setTile, setCore_setCore, Core.setBank_inMon, clock_setCore_setBank, tcyc_setCore, seq, pc, ite_self, Bool.false_and]

theorem Core.bank_of_task {c : Core} (h : c.inMon = false) : c.bank = c.task := by rw [Core.bank, h]; rfl
theorem Core.bank_of_mon {c : Core} (h : c.inMon = true) : c.bank = c.mon := if_pos h
theorem Core.setBank_of_task {c : Core} (h : c.inMon = false) (b : Bank) : c.setBank b = { c with task := b } := by rw [Core.setBank, h]; rfl
theorem Core.setBank_of_mon {c : Core} (h : c.inMon = true) (b : Bank) : c.setBank b = { c with mon := b } := if_pos h

/-- Settles O2: a result under a queue name reserves its entry in the bank of the core's mode. -/
theorem resultPlacement : Obligations.ResultPlacement := by
  unfold Obligations.ResultPlacement
  refine ⟨?_, ?_⟩
  · intro s lat d v c p
    have queued (ha : c.sAlias d = true) := (if_pos ha : s.putS lat d v = _).trans (later_upCore_setBank s (c.bank.reserveSdq false) lat _)
    refine ⟨fun ha => ?_, fun ha hm => (queued ha).trans ?_, fun ha hm => (queued ha).trans ?_⟩
    · rw [State.putS, if_neg (by simp [c, ha])]
      simp only [State.later, State.upCore_eq, ite_self, Bool.false_and]
      rfl
    · rw [Core.setBank_of_task hm, Core.bank_of_task hm]
      rfl
    · rw [Core.setBank_of_mon hm, Core.bank_of_mon hm]
      rfl
  · intro s lat d r
    exact ⟨fun ha => if_neg (by simp [ha]), fun ha => if_pos ha⟩

end Sys2Proof.Machine

/-! PROOFS. Loads and stores: their checks, their queue entries and their times (R72, R228, R237, R238). -/
namespace Sys2Proof.Machine

/-! ### Accesses in order -/

theorem Core.setBank_strict (c : Core) (b : Bank) : (c.setBank b).strict = c.strict ∧ (c.setBank b).ranges = c.ranges := by
  unfold Core.setBank
  split <;> exact ⟨rfl, rfl⟩
/-- A pop changes nothing of the tracked destinations. -/
theorem clearOf_upCore_setBank {s : State} {sp lo n : Nat} (h : s.ClearOf sp lo n) (b : Bank) : (s.upCore fun c => c.setBank b).ClearOf sp lo n := by
  obtain ⟨hs, hr⟩ := s.core.setBank_strict b
  unfold State.ClearOf
  rw [State.upCore_eq, State.core_setTile, hs, hr]
  exact h

theorem issue_loadOp {s : State} {ar : BitVec 4} {pi : Bool} {off : BitVec 24} {n al : Nat} (vec : Bool)
    (h : Access (s.core.bank.areg ar.toNat) (eaOf (s.core.bank.areg ar.toNat) pi (off.signExtend 32)).1 n al tmSize
      ∧ s.ClearOf 0 (eaOf (s.core.bank.areg ar.toNat) pi (off.signExtend 32)).1 n) :
    issue (loadOp n al vec ar pi off) s = .next ((s.loadAt vec n (eaOf (s.core.bank.areg ar.toNat) pi (off.signExtend 32)).1).postInc ar pi
      (eaOf (s.core.bank.areg ar.toNat) pi (off.signExtend 32)).2) := by
  obtain ⟨ha, hc⟩ := h
  exact issue_ok (iss_seq (readA_ok ar s) (iss_seq (access_addr ha s) (iss_seq (access_clean ha s) (iss_seq (clear_ok hc) rfl))))
theorem issue_storeOp {s : State} {ar : BitVec 4} {pi : Bool} {off : BitVec 24} {n al : Nat} {vec : Bool} {e : QEntry} {r : List QEntry}
    (h : Access (s.core.bank.areg ar.toNat) (eaOf (s.core.bank.areg ar.toNat) pi (off.signExtend 32)).1 n al tmSize
      ∧ s.ClearOf 0 (eaOf (s.core.bank.areg ar.toNat) pi (off.signExtend 32)).1 n ∧ Ready s.core.bank.sdq vec e r) :
    issue (storeOp n al vec ar pi off) s = .next (((s.upCore fun c => c.setBank { c.bank with sdq := r }).later 3
      [.store n (eaOf (s.core.bank.areg ar.toNat) pi (off.signExtend 32)).1 e.val e.poi]).postInc ar pi
        (eaOf (s.core.bank.areg ar.toNat) pi (off.signExtend 32)).2) := by
  obtain ⟨ha, hc, hq⟩ := h
  exact issue_ok (iss_seq (readA_ok ar s) (iss_seq (access_addr ha s) (iss_seq (access_clean ha s)
    (iss_seq (popSdq_ok hq) (iss_seq (clear_ok (clearOf_upCore_setBank hc _)) rfl)))))

/-! ### Accesses that are refused -/

theorem addrOk_iff {ea n al sp : Nat} : addrOk ea n al sp = true ↔ ea % al = 0 ∧ ea + n ≤ sp := by simp [addrOk]
theorem addrOk_eq_false {ea n al sp : Nat} (h : ea % al ≠ 0 ∨ sp < ea + n) : addrOk ea n al sp = false := by
  rw [← Bool.not_eq_true, addrOk_iff]
  omega

/-- Instruction i checks an access of n bytes, then the poison of its address, before all else (R228, R398). -/
def ChecksAccess (i : Instr) (ar : BitVec 4) (pi : Bool) (off : BitVec 24) (n al : Nat) : Prop := ∃ rest : PWord → Iss Unit, ∀ s, exec i s = issue (do
    let a ← readA ar
    needAddr (eaOf a pi (off.signExtend 32)).1 n al tmSize
    consume a.poi
    rest a) s
theorem ChecksAccess.address {i : Instr} {ar : BitVec 4} {pi : Bool} {off : BitVec 24} {n al : Nat} (h : ChecksAccess i ar pi off n al) {s : State}
    (ha : addrOk (eaOf (s.core.bank.areg ar.toNat) pi (off.signExtend 32)).1 n al tmSize = false) :
    exec i s = .next (s.raise { cause := cAddr, slot := s.slot, i0 := BitVec.ofNat 32 (eaOf (s.core.bank.areg ar.toNat) pi (off.signExtend 32)).1
                                i1 := BitVec.ofNat 32 n }) := by
  obtain ⟨rest, h⟩ := h
  rw [h]
  exact issue_error (iss_seq (readA_ok ar s) (iss_bind_error (needAddr_error ha s)))
theorem ChecksAccess.poison {i : Instr} {ar : BitVec 4} {pi : Bool} {off : BitVec 24} {n al : Nat} (h : ChecksAccess i ar pi off n al) {s : State}
    (ha : addrOk (eaOf (s.core.bank.areg ar.toNat) pi (off.signExtend 32)).1 n al tmSize = true) (hp : (s.core.bank.areg ar.toNat).poi = true) :
    exec i s = .next (s.raise { cause := cPoison, slot := s.slot }) := by
  obtain ⟨rest, h⟩ := h
  rw [h]
  exact issue_error (iss_seq (readA_ok ar s) (iss_seq (needAddr_ok ha s) (iss_bind_error (by rw [hp]; rfl))))

/-- Settles O11: both kinds of access by their common form, and the refusals by the checks that all eight begin with. -/
theorem loadsAndStores : Obligations.LoadsAndStores := by
  unfold Obligations.LoadsAndStores
  refine ⟨?_, ?_, ?_⟩
  · intro s ar pi off a sum ea post out ok
    exact ⟨issue_loadOp false, issue_loadOp false, issue_loadOp false, issue_loadOp true⟩
  · intro s ar pi off e r a sum ea post out ok
    exact ⟨issue_storeOp, issue_storeOp, issue_storeOp, issue_storeOp⟩
  · intro s ar pi off a ea forms i n al hi
    have checks : ChecksAccess i ar pi off n al := by
      simp only [forms, List.mem_cons, List.not_mem_nil, or_false, Prod.mk.injEq] at hi
      rcases hi with ⟨rfl, rfl, rfl⟩ | ⟨rfl, rfl, rfl⟩ | ⟨rfl, rfl, rfl⟩ | ⟨rfl, rfl, rfl⟩ | ⟨rfl, rfl, rfl⟩ | ⟨rfl, rfl, rfl⟩
        | ⟨rfl, rfl, rfl⟩ | ⟨rfl, rfl, rfl⟩ <;>
        exact ⟨_, fun s => rfl⟩
    exact ⟨fun h => checks.address (addrOk_eq_false h), fun hm hn hp => checks.poison (addrOk_iff.2 ⟨hm, hn⟩) hp⟩

end Sys2Proof.Machine

/-! PROOFS. Tables: evaluation, load and configuration (R165 to R173). -/
namespace Sys2Proof.Machine

/-- A lane of a ROM function. -/
theorem tevLane_rom {fn : BitVec 4} (h : fn.toNat < 12) (c : Core) (ty : BitVec 2) (b : Nat) :
    tevLane c fn ty b = ((romFn (tevFmt ty) fn.toNat ty b).1, (romFn (tevFmt ty) fn.toNat ty b).2, false) := if_pos h
/-- A lane of a user table: the result, its flags, and the poison of the segment that was used. -/
theorem tevLane_user {fn : BitVec 4} (h : 12 ≤ fn.toNat) (c : Core) (ty : BitVec 2) (b : Nat) :
    let r := userFn (tevFmt ty) (c.segment (fn.toNat - 12)) (c.tableCfg (fn.toNat - 12)) b
    tevLane c fn ty b = (r.1.1, r.1.2, match r.2 with | some j => c.segPoi (fn.toNat - 12) j | none => false) := if_neg (by omega)
/-- tev lands the lanes in force at issue after 14 cycles, whatever form its lanes take. -/
theorem exec_tev {s s1 : State} {a : BitVec 7} {x : VRow} (h : readV a s = .ok (x, s1)) (d : BitVec 7) (fn : BitVec 4) (ty : BitVec 2) (k : BitVec 3)
    {g : Nat → LRes} (hg : ∀ i, g i = let r := tevLane s1.core fn ty (x.lane (tevFmt ty).width i); ⟨r.1, x.lpoi (tevFmt ty).width i || r.2.2, r.2.1⟩) :
    exec (.tev d a fn ty k) s = .next (s1.putRow 14 d (RowW.of (tevFmt ty).width (maskLanes (2048 / (tevFmt ty).width) (s1.core.mreg k.toNat) g))) := by
  rw [funext hg]
  exact issue_ok (iss_seq h (iss_seq (readM_ok k s1) rfl))

/-- The table's load is pending: its switch, or the end that a conflict left it. -/
def Core.loadsTable (c : Core) (tb : Nat) : Prop := ∃ p ∈ c.pend, ∃ j, Eff.tldSwitch tb j ∈ p.effs ∨ Eff.tldDone tb j ∈ p.effs
/-- The check of tld for it. -/
def needTable (tb : Nat) : Iss Unit := fun s => need (!(s.core.pend.any fun p => p.effs.any fun e =>
  match e with | .tldSwitch t _ => t == tb | .tldDone t _ => t == tb | _ => false)) cSched 0#32 0#32 s
theorem Core.loadsTable_iff (c : Core) (tb : Nat) : c.loadsTable tb ↔ (c.pend.any fun p => p.effs.any fun e =>
    match e with | .tldSwitch t _ => t == tb | .tldDone t _ => t == tb | _ => false) = true := by
  simp only [Core.loadsTable, List.any_eq_true]
  refine exists_congr fun p => and_congr_right fun _ => ⟨?_, ?_⟩
  · rintro ⟨j, h | h⟩
    · exact ⟨_, h, beq_self_eq_true tb⟩
    · exact ⟨_, h, beq_self_eq_true tb⟩
  · rintro ⟨e, he, ht⟩
    split at ht
    · cases beq_iff_eq.1 ht; exact ⟨_, .inl he⟩
    · cases beq_iff_eq.1 ht; exact ⟨_, .inr he⟩
    · cases ht
theorem needTable_ok {s : State} {tb : Nat} (h : ¬s.core.loadsTable tb) : needTable tb s = .ok ((), s) := by
  rw [Core.loadsTable_iff, Bool.not_eq_true] at h
  exact need_ok (by rw [h]; rfl) _ _ _ s
theorem needTable_error {s : State} {tb : Nat} (h : s.core.loadsTable tb) : needTable tb s = .error { cause := cSched, slot := s.slot } := by
  rw [Core.loadsTable_iff] at h
  exact need_error (by rw [h]; rfl) _ _ _ s
/-- A post in flight is no table's load. -/
theorem loadsTable_posting (s : State) (k : BitVec 5) (tb : Nat) : (s.posting k).core.loadsTable tb ↔ s.core.loadsTable tb := by
  rw [posting_core]; rfl

/-- A scalar source that is taken leaves the slot's position. -/
theorem slot_of_takeS {n : BitVec 6} {s s1 : State} {x : PWord} (h : takeS n s = .ok (x, s1)) : s1.slot = s.slot := by
  rcases takeS_cases n s with ⟨-, h'⟩ | ⟨e, r, -, -, -, -, h'⟩ | ⟨-, h'⟩ <;> rw [h'] at h <;> cases h <;> rfl
/-- What tcfg reads before its check. -/
theorem peekS_of_readS {n : BitVec 6} {s s1 : State} {x : PWord} (h : readS n s = .ok (x, s1)) : peekS n s = .ok (some x, s) := by
  rw [peekS, (readS_split h).1]

/-- Settles O25: the lanes by the kind of function, tld by whether its table is being loaded, tcfg by its word. -/
theorem tableForms : Obligations.TableForms := by
  unfold Obligations.TableForms
  refine ⟨?_, ?_⟩
  · intro s s1 d a fn ty k x hx f m put
    refine ⟨fun hf => exec_tev hx d fn ty k fun i => ?_, fun hf => exec_tev hx d fn ty k fun i => ?_⟩
    · rw [tevLane_rom hf]
      simp only [Bool.or_false, f]
    · exact congrArg (fun r => (⟨r.1, x.lpoi f.width i || r.2.2, r.2.1⟩ : LRes)) (tevLane_user hf s1.core ty (x.lane f.width i)).symm
  · intro s s1 tb ar k r x a ea busy
    refine ⟨fun ha hc hk => ⟨fun hb => ?_, fun hb => ?_⟩, fun hr => ⟨fun hp ht => ?_, fun h => ?_⟩⟩
    · exact issue_ok (iss_seq (readA_ok ar s) (iss_seq (access_addr ha s) (iss_seq (access_clean ha s) (iss_seq (clear_ok hc) (iss_seq (token_ok hk)
        (iss_seq (needTable_ok (mt (loadsTable_posting s k _).1 hb)) rfl))))))
    · exact issue_error (iss_seq (readA_ok ar s) (iss_seq (access_addr ha s) (iss_seq (access_clean ha s) (iss_seq (clear_ok hc) (iss_seq (token_ok hk)
        (iss_bind_error (needTable_error ((loadsTable_posting s k _).2 hb))))))))
    · exact issue_ok (iss_seq (peekS_of_readS hr) (iss_seq (need_ok (by simp [hp, ht]) _ _ _ s) (iss_seq hr rfl)))
    · have hs : s1.slot = s.slot := slot_of_takeS (readS_split hr).1
      rw [hs]
      exact issue_error (iss_seq (peekS_of_readS hr) (iss_bind_error (need_error (by rcases h with h | h <;> simp [h]) _ _ _ s)))

end Sys2Proof.Machine

/-! PROOFS. The control of a bundle: waits, exits, headers, and what stalls it (R46, R207, R208, R212, R219, R264, R334). -/
namespace Sys2Proof.Machine

/-! ### wait, exit and the tree header -/

theorem exec_wait (k : BitVec 5) (n : BitVec 16) (s : State) : exec (.wait k n) s =
    if n.toNat ≤ (s.core.token k.toNat).arr ∧ (s.core.token k.toNat).errn ≠ 0 then .next (s.raise
      { cause := classCause (s.core.token k.toNat).errc, slot := s.slot, i0 := tokWord k.toNat (s.core.token k.toNat), tok := some k.toNat })
    else .next s := by
  show execWait k n s = _
  unfold execWait
  by_cases h : n.toNat ≤ (s.core.token k.toNat).arr ∧ (s.core.token k.toNat).errn ≠ 0
  · rw [if_pos h]
    exact issue_error (by exact if_pos h)
  · rw [if_neg h]
    exact issue_ok (by exact if_neg h)

theorem busyTok_eq_none {c : Core} {left : Nat → Nat} {lo n : Nat} (h : ∀ j, lo ≤ j → j < lo + n → (c.token j).infl ≤ left j) : c.busyTok left lo n = none := by
  rw [Core.busyTok, upto_eq_range', List.find?_range'_eq_none]
  intro j hl hu
  simpa using h j hl (by simpa using hu)
theorem needTokens_ok {s : State} {left : Nat → Nat} {lo n : Nat} (h : ∀ j, lo ≤ j → j < lo + n → (s.core.token j).infl ≤ left j) :
    needTokens left lo n s = .ok ((), s) := by
  rw [needTokens, busyTok_eq_none h]

/-- A test that holds selects its leaf; one that does not consults the next. -/
theorem treeLeaf_hit {c : Core} {n : Bool} {p : BitVec 3} {r : List (Bool × BitVec 3)} {i : Nat} (h : ((c.bank.preg p.toNat).val != n) = true) :
    treeLeaf c ((n, p) :: r) i = (i, (c.bank.preg p.toNat).poi) := if_pos h
theorem treeLeaf_miss {c : Core} {n : Bool} {p : BitVec 3} {r : List (Bool × BitVec 3)} {i : Nat} (h : ((c.bank.preg p.toNat).val != n) = false) :
    treeLeaf c ((n, p) :: r) i = ((treeLeaf c r (i + 1)).1, (treeLeaf c r (i + 1)).2 || (c.bank.preg p.toNat).poi) := if_neg (by rw [h]; exact Bool.false_ne_true)
/-- The first test is consulted whatever it gives. -/
theorem treeLeaf_poisoned {c : Core} {n : Bool} {p : BitVec 3} (r : List (Bool × BitVec 3)) (i : Nat) (h : (c.bank.preg p.toNat).poi = true) :
    (treeLeaf c ((n, p) :: r) i).2 = true := by
  cases hb : (c.bank.preg p.toNat).val != n with
  | true => rw [treeLeaf_hit hb, h]
  | false => rw [treeLeaf_miss hb, h, Bool.or_true]
/-- A header's test holds (R46). -/
def Core.testHolds (c : Core) (n : Bool) (p : BitVec 3) : Bool := (c.bank.preg p.toNat).val != n
/-- The four tests of a header select the first that holds, or leaf 4; no test up to it is poisoned, so none is met. -/
theorem treeLeaf_clean {c : Core} {n0 n1 n2 n3 : Bool} {p0 p1 p2 p3 : BitVec 3} {leaf : Nat}
    (hl : leaf = if c.testHolds n0 p0 then 0 else if c.testHolds n1 p1 then 1 else if c.testHolds n2 p2 then 2 else if c.testHolds n3 p3 then 3 else 4)
    (h : ∀ j, j ∈ [(0, p0), (1, p1), (2, p2), (3, p3)] → j.1 ≤ leaf → (c.bank.preg j.2.toNat).poi = false) :
    treeLeaf c [(n0, p0), (n1, p1), (n2, p2), (n3, p3)] 0 = (leaf, false) := by
  simp only [List.forall_mem_cons, List.not_mem_nil, false_implies, implies_true, and_true] at h
  obtain ⟨c0, c1, c2, c3⟩ := h
  cases h0 : c.testHolds n0 p0 with
  | true =>
    simp only [h0, if_true] at hl
    rw [treeLeaf_hit h0, c0 (by omega), hl]
  | false =>
  cases h1 : c.testHolds n1 p1 with
  | true =>
    simp only [h0, h1, if_true, Bool.false_eq_true, if_false] at hl
    rw [treeLeaf_miss h0, treeLeaf_hit h1, c0 (by omega), c1 (by omega), hl]; rfl
  | false =>
  cases h2 : c.testHolds n2 p2 with
  | true =>
    simp only [h0, h1, h2, if_true, Bool.false_eq_true, if_false] at hl
    rw [treeLeaf_miss h0, treeLeaf_miss h1, treeLeaf_hit h2, c0 (by omega), c1 (by omega), c2 (by omega), hl]; rfl
  | false =>
  cases h3 : c.testHolds n3 p3 with
  | true =>
    simp only [h0, h1, h2, h3, if_true, Bool.false_eq_true, if_false] at hl
    rw [treeLeaf_miss h0, treeLeaf_miss h1, treeLeaf_miss h2, treeLeaf_hit h3, c0 (by omega), c1 (by omega), c2 (by omega), c3 (by omega), hl]; rfl
  | false =>
    simp only [h0, h1, h2, h3, Bool.false_eq_true, if_false] at hl
    rw [treeLeaf_miss h0, treeLeaf_miss h1, treeLeaf_miss h2, treeLeaf_miss h3, c0 (by omega), c1 (by omega), c2 (by omega), c3 (by omega), hl]; rfl
theorem exec_hdrTree (n0 n1 n2 n3 : Bool) (p0 p1 p2 p3 : BitVec 3) (x y z : BitVec 4) (s : State) :
    let l := treeLeaf s.core [(n0, p0), (n1, p1), (n2, p2), (n3, p3)] 0
    exec (.hdrTree n0 p0 n1 p1 n2 p2 n3 p3 x y z) s =
      if l.2 then .next (s.raise { cause := cPoison, slot := s.slot }) else .next { s with leaf := some l.1 } := by
  intro l
  cases h : l.2 with
  | true => exact issue_error (iss_seq rfl (iss_bind_error (by rw [h]; rfl)))
  | false => exact issue_ok (iss_seq rfl (iss_seq (by rw [h]; rfl) rfl))

/-! ### Stalls -/

/-- Its channel is in order, and too little credit is left (R263, R264). -/
def Chan.Short (d : Chan) (core size : Nat) : Prop :=
  d.sv = true ∧ d.score = core ∧ d.grp = false ∧ d.smode = 0 ∧ size ≤ 4096 * 2 ^ d.win ∧ d.cr < size
def Group.Short (e : Group) (core size : Nat) : Prop :=
  e.v = true ∧ e.core = core ∧ e.dsts ≠ [] ∧ size ≤ 4096 * 2 ^ e.win ∧ ∃ c ∈ e.cr, c < size

theorem stalls_wait (s : State) (k : BitVec 5) (n : BitVec 16) : s.stalls (.wait k n) = true ↔ (s.core.token k.toNat).arr < n.toNat := decide_eq_true_iff
theorem stalls_barWait (s : State) (b : BitVec 6) : s.stalls (.barWait b) = true ↔
    (s.here.barrier s.curC b.toNat).getLsbD 31 = true ∧ s.core.bar b.toNat ≠ 2 := by
  simp [State.stalls, -BitVec.getLsbD_eq_getElem]
theorem chan_short_iff (d : Chan) (core size : Nat) : (d.sends core 0 size && decide (d.cr < size)) = true ↔ d.Short core size := by
  simp [Chan.sends, Chan.Short, winBytes, and_assoc]
theorem stalls_send (s : State) (ch : BitVec 8) (ar : BitVec 4) (ln st : BitVec 9) : s.stalls (.send ch ar ln st) = true ↔
    (s.here.chan ch.toNat).Short s.curC (64 * ln.toNat) := chan_short_iff _ _ _
theorem stalls_sendRel (s : State) (ch : BitVec 8) (ar : BitVec 4) (ln st : BitVec 9) : s.stalls (.sendRel ch ar ln st) = true ↔
    (s.here.chan ch.toNat).Short s.curC (64 * ln.toNat) := chan_short_iff _ _ _
theorem stalls_sendM (s : State) (g : BitVec 6) (ar : BitVec 4) (ln st : BitVec 9) : s.stalls (.sendM g ar ln st) = true ↔
    (s.here.group g.toNat).Short s.curC (64 * ln.toNat) := by
  show ((s.here.group g.toNat).sends s.curC (64 * ln.toNat) && (s.here.group g.toNat).cr.any fun r => decide (r < 64 * ln.toNat)) = true ↔ _
  simp only [Group.sends, Bool.and_eq_true, beq_iff_eq, Bool.not_eq_true', List.isEmpty_eq_false_iff, decide_eq_true_eq, List.any_eq_true, and_assoc]
  rfl

/-- What a stalled instruction does: a bar.wait arrives at its barrier. -/
def State.heldBy (s : State) (i : Instr) : State := s.stallTurn [(0, i)]
theorem stallTurn_single (s : State) (p : Nat) (i : Instr) : s.stallTurn [(p, i)] = s.heldBy i := by
  cases i <;> rfl

/-- It leaves the core's mode, and whose turn it is. -/
theorem heldBy_frame (s : State) (i : Instr) : (s.heldBy i).core.inMon = s.core.inMon ∧ (s.heldBy i).curC = s.curC := by
  cases i with
  | barWait b =>
    unfold State.heldBy State.stallTurn State.stallTurn
    split
    · rw [State.upCore_eq, State.core_setTile]; exact ⟨rfl, rfl⟩
    · exact ⟨rfl, rfl⟩
  | _ => exact ⟨rfl, rfl⟩

/-- The turn of a lone slot that stalls (R212). -/
theorem issueBundle_stalled {s : State} {i : Instr} {ws : List Word} (pos : Nat) (hi : s.stalls i = true) (ht : isBrTree i = false) (hr : s.raised = none)
    (hl : s.leaf = none) (hp : s.core.pastLoop ws.length = none)
    (ha : (s.heldBy i).core.inMon = true ∨ (s.heldBy i).here.asyncCause (s.heldBy i).curC true = none) :
    s.issueBundle ws none [(pos, i)] = .next (s.heldBy i) := by
  have none' : (if (s.heldBy i).core.inMon then none else (s.heldBy i).here.asyncCause (s.heldBy i).curC true) = none := by
    rcases ha with h | h
    · exact if_pos h
    · rw [h, ite_self]
  simp only [State.issueBundle, List.find?_cons, ht, List.find?_nil, hp, Option.toList_none, List.map_nil, runSlots, hr, State.squashed, hl,
    List.filter_cons, List.filter_nil, Bool.not_false, if_true, List.any_cons, List.any_nil, hi, Bool.or_false, stallTurn_single, none']

/-- Settles O33: each form by its own equation, the stalls by what each of the five waiting forms tests. -/
theorem bundleControl : Obligations.BundleControl := by
  unfold Obligations.BundleControl
  intro s cnt n m k l2 l3 l4 n0 n1 n2 n3 p0 p1 p2 p3 x y z rep ch g br ar ln st ws i pos t d e size short group waits held b poi leaf
  refine ⟨rfl, rfl, rfl, ?_, ?_, ?_, ?_, ?_, ?_, rfl, ?_, ?_⟩
  · show Host.Outcome.next _ = _
    simp only [List.contains_iff_mem]
  · intro h
    rw [exec_wait, if_neg fun hw => ?_]
    rcases h with h | h
    · exact hw.2 h
    · exact absurd hw.1 (Nat.not_le.2 h)
  · intro he hn
    rw [exec_wait, if_pos ⟨hn, he⟩]
    rfl
  · intro h
    exact issue_ok (iss_seq (needTokens_ok fun j _ hj => h j (by omega)) rfl)
  · intro h
    rw [exec_hdrTree, treeLeaf_clean (leaf := leaf) rfl h]
    rfl
  · intro h
    rw [exec_hdrTree, if_pos (treeLeaf_poisoned _ _ h)]
    rfl
  · intro hw
    have isHeld : s.heldBy i = held s := by cases i <;> rfl
    have stalled : s.stalls i = true := by
      rcases hw with ⟨rfl, h⟩ | ⟨rfl, h⟩ | ⟨rfl | rfl, h⟩ | ⟨rfl, h⟩
      · exact (stalls_wait s k n).2 h
      · exact (stalls_barWait s br).2 h
      · exact (stalls_send s ch ar ln st).2 h
      · exact (stalls_sendRel s ch ar ln st).2 h
      · exact (stalls_sendM s g ar ln st).2 h
    have noTree : isBrTree i = false := by
      rcases hw with ⟨rfl, -⟩ | ⟨rfl, -⟩ | ⟨rfl | rfl, -⟩ | ⟨rfl, -⟩ <;> rfl
    refine ⟨stalled, fun hr hl hp ha => ?_⟩
    rw [← isHeld] at ha ⊢
    obtain ⟨hm, hc⟩ := heldBy_frame s i
    exact issueBundle_stalled pos stalled noTree hr hl hp (by rwa [hm, hc])
  · intro hi hw
    simp only [List.mem_cons, List.not_mem_nil, or_false] at hi
    rw [← Bool.not_eq_true]
    rcases hi with rfl | rfl | rfl | rfl | rfl
    · exact fun h => hw (.inl ⟨rfl, (stalls_wait s k n).1 h⟩)
    · exact fun h => hw (.inr (.inl ⟨rfl, (stalls_barWait s br).1 h⟩))
    · exact fun h => hw (.inr (.inr (.inl ⟨.inl rfl, (stalls_send s ch ar ln st).1 h⟩)))
    · exact fun h => hw (.inr (.inr (.inl ⟨.inr rfl, (stalls_sendRel s ch ar ln st).1 h⟩)))
    · exact fun h => hw (.inr (.inr (.inr ⟨rfl, (stalls_sendM s g ar ln st).1 h⟩)))

end Sys2Proof.Machine

/-! PROOFS. A tile cycle: results that land, the lone store, deferred starts, gang rows, the lease (R59, R99, R138, R139, R152, R156, R206, R230). -/
namespace Sys2Proof.Machine

/-! ### Landings -/

/-- The core whose only entry is due, while it lands. -/
def Core.taken (c : Core) : Core := { c with pend := [] }
/-- The entry waits with its write for the arithmetic trap (R99). -/
def Core.trapped (c : Core) (p : Pend) : Core := { c.taken with
  pend := [{ p with counts := true, last := c.tsk + 1 }]
  lcause := c.lcause ++ [(8 * p.id + p.slot, { cause := cArith, slot := p.slot, flg := p.flags.extractLsb' 0 6, i0 := BitVec.ofNat 32 p.pc })] }
/-- The core that runs a task, once its only entry, a scalar result, has had its turn. -/
def Core.landedS (c : Core) (p : Pend) (d : Nat) (v : PWord) : Core :=
  if c.raises p then c.trapped p else (c.taken.flag p.flags).landEff false (.sreg d v)

theorem inMon_of_task {c : Core} (h : c.mode = .task) : c.inMon = false := by rw [Core.inMon, h]; rfl

/-- The only entry of a core is due, and accesses no bank: it lands. -/
theorem landDue_single {s : State} {t c : Nat} {p : Pend} (hp : (s.coreAt t c).pend = [p]) (hd : (s.coreAt t c).dueNow (s.tcyc t) p = true)
    (ha : p.effs.any Eff.isAccess = false) : s.landDue t c = (s.upCoreAt t c Core.taken).landOne t c p := by
  simp only [State.landDue, State.upCoreAt_eq, hp, List.filter_cons, List.filter_nil, hd, ha, Bool.not_false, Bool.and_self, if_true, Bool.not_true,
    Bool.false_eq_true, if_false]
  rfl
/-- A task's landing is not followed by another: the core was not in the monitor. -/
theorem land_of_task {s : State} {t c : Nat} (h : (s.coreAt t c).inMon = false) : s.land t c = s.landDue t c := by
  simp only [State.land, State.landAgain, h, Bool.false_and, Bool.false_eq_true, if_false]

theorem land_sreg {s : State} {p : Pend} {d : Nat} {v : PWord} (hm : s.core.mode = .task) (hp : s.core.pend = [p]) (hn : p.mon = false)
    (hd : p.at' ≤ s.core.tsk) (he : p.effs = [.sreg d v]) :
    s.land s.curT s.curC = s.setTile s.curT (s.here.setCore s.curC (s.core.landedS p d v)) := by
  have task : s.core.inMon = false := inMon_of_task hm
  rw [land_of_task task, landDue_single hp (by simp [Core.dueNow, hn, hd, task, show s.coreAt s.curT s.curC = s.core from rfl]) (by rw [he]; rfl)]
  have turn : (s.upCoreAt s.curT s.curC Core.taken).coreAt s.curT s.curC = s.core.taken := State.coreAt_setTile _ _ _ _ _
  unfold State.landOne Core.landedS
  simp only [turn, show s.core.taken.raises p = s.core.raises p from rfl]
  split
  · simp only [State.upCoreAt_eq, State.coreAt_setTile, State.tile_setTile, setTile_setTile, setCore_setCore]
    rfl
  · rw [he]
    simp only [List.foldl_cons, List.foldl_nil, State.landEff, State.upT_eq, Tile.upC_eq, State.upCoreAt_eq, State.coreAt_setTile, State.tile_setTile,
      setTile_setTile, setCore_setCore, Tile.core_setCore, hn]
    rfl

/-- Without array commands the array reads nothing. -/
theorem runArray_of_no_paths {x : Tile} (h : x.paths = []) (c tc : Nat) : x.runArray c tc = x := by simp [Tile.runArray, h]
theorem exec_resultLanding_sreg {s : State} {p : Pend} {d : Nat} {v : PWord} (hx : s.here.paths = []) (hm : s.core.mode = .task) (hp : s.core.pend = [p])
    (hn : p.mon = false) (hd : p.at' ≤ s.core.tsk) (he : p.effs = [.sreg d v]) :
    exec .resultLanding s = .next (s.setTile s.curT (s.here.setCore s.curC (s.core.landedS p d v))) := by
  show execResultLanding s = _
  rw [execResultLanding, land_sreg hm hp hn hd he, State.upHere_eq, State.setTile_curT, State.here_setTile, setTile_setTile,
    runArray_of_no_paths (by exact hx)]

theorem resultLanding_lands {c : Core} {p : Pend} (d : Nat) (v : PWord) (h : c.raises p = false) :
    c.landedS p d v = (c.taken.flag p.flags).landEff false (.sreg d v) := if_neg (by simp [h])
theorem resultLanding_traps {c : Core} {p : Pend} (d : Nat) (v : PWord) (h : c.raises p = true) : c.landedS p d v = c.trapped p := if_pos h
theorem raises_iff {c : Core} {p : Pend} (hm : c.mode = .task) : c.raises p = true ↔ p.traps = true ∧ enabled c.aflags p.flags ≠ 0#6 := by
  simp [Core.raises, hm]

/-! ### The lone store -/

/-- A fold whose function leaves part of its state alone leaves it alone. -/
theorem foldl_keeps {α β γ : Type} (g : α → γ) {f : α → β → α} (h : ∀ a b, g (f a b) = g a) (l : List β) (a : α) : g (l.foldl f a) = g a := by
  induction l generalizing a with
  | nil => rfl
  | cons b r ih => rw [List.foldl_cons, ih, h]

/-- What a write of tile memory leaves of a tile: its cores and its array commands. -/
theorem touch_sides (x : Tile) (k l : Nat) : (x.touch k l).cores = x.cores ∧ (x.touch k l).paths = x.paths := by
  unfold Tile.touch
  split <;> exact ⟨rfl, rfl⟩
theorem touchRange_sides (x : Tile) (k a n : Nat) : (x.touchRange k a n).cores = x.cores ∧ (x.touchRange k a n).paths = x.paths := by
  unfold Tile.touchRange
  split
  · exact ⟨rfl, rfl⟩
  · exact ⟨foldl_keeps Tile.cores (fun y l => (touch_sides y k l).1) _ x, foldl_keeps Tile.paths (fun y l => (touch_sides y k l).2) _ x⟩
theorem meetWords_sides (x : Tile) (k : Nat) (f : Nat → Bool) : (x.meetWords k f).cores = x.cores ∧ (x.meetWords k f).paths = x.paths := by
  unfold Tile.meetWords
  split
  · exact ⟨rfl, rfl⟩
  · constructor
    · refine (foldl_keeps Tile.cores (fun y e => ?_) _ _).trans (foldl_keeps Tile.cores (fun y e => (touch_sides y _ _).1) _ x)
      split <;> rfl
    · refine (foldl_keeps Tile.paths (fun y e => ?_) _ _).trans (foldl_keeps Tile.paths (fun y e => (touch_sides y _ _).2) _ x)
      split <;> rfl
theorem tmWrite_frame (x : Tile) (a n v p : Nat) : let y := x.tmWrite a n v p
    y.tm = ssetBytes x.tm a n v ∧ y.ds = x.ds ∧ y.cores = x.cores ∧ y.paths = x.paths := by
  obtain ⟨htm, hds, -⟩ := meetWords_mem x 0 fun w => wordTouched (eccWord 0) a n w && !wordFilled (eccWord 0) a n w
  obtain ⟨hc, hp⟩ := meetWords_sides x 0 fun w => wordTouched (eccWord 0) a n w && !wordFilled (eccWord 0) a n w
  obtain ⟨-, rds, -⟩ := touchRange_mem (x.meetParts 0 a n) 0 a n
  obtain ⟨rc, rp⟩ := touchRange_sides (x.meetParts 0 a n) 0 a n
  exact ⟨congrArg (fun m => ssetBytes m a n v) htm, rds.trans hds, rc.trans hc, rp.trans hp⟩

/-- The store's turn on the core: its access leaves the record, and nothing of it stays. -/
theorem takeAcc_single {c : Core} {p : Pend} {e : Eff} (hp : c.pend = [p]) (he : p.effs = [e]) (ha : e.isAccess = true) : c.takeAcc p = c.taken := by
  simp [Core.takeAcc, hp, he, ha, Core.taken]

/-- A requester that is alone gets its banks. -/
theorem arbitrate_alone (r : Req) : arbitrate [] r = ((banksOf r.addr r.len).map fun b => (b, r), none) := by
  simp [arbitrate]

/-- The only static requester of a tile is the store of core c. -/
theorem requests_store {x : Tile} {tc c n ea : Nat} {p : Pend} {v : Bits256} {k : BitVec 64} (hc : c < 4) (hx : x.paths = []) (hs : x.streams = [])
    (ho : ∀ d, d ≠ c → (x.core d).pend = []) (hp : (x.core c).pend = [p]) (hd : (x.core c).dueNow tc p = true) (he : p.effs = [.store n ea v k]) :
    x.requests tc = [(p.req c (.store n ea v k), .entry p (.store n ea v k))] := by
  have entries (d : Nat) : ((x.core d).pend.filter ((x.core d).dueNow tc)).foldl (fun l p =>
      l ++ ((p.effs.filter Eff.isAccess).map fun e => (p.req d e, Acc.entry p e))) [] =
        if d = c then [(p.req c (.store n ea v k), .entry p (.store n ea v k))] else [] := by
    split
    · next h => subst h; simp [hp, hd, he, Eff.isAccess]
    · next h => simp [ho d h]
  simp only [Tile.requests, entries, hx, hs, List.filter_nil, List.foldl_nil, List.map_nil, List.append_nil, upto, List.foldl_cons, List.nil_append]
  interval_cases c <;> rfl

/-- Its turn: it has its banks, its access leaves the record, and its bytes are written. -/
theorem serve_store {x : Tile} {tc c n ea : Nat} {p : Pend} {v : Bits256} {k : BitVec 64} (hb : x.banks = []) (hp : (x.core c).pend = [p])
    (he : p.effs = [.store n ea v k]) : x.serve tc (p.req c (.store n ea v k), .entry p (.store n ea v k)) =
      (({ x with banks := (banksOf ea n).map fun b => (b, p.req c (.store n ea v k)) }.setCore c (x.core c).taken).tmWrite ea n v.toNat k.toNat) := by
  rw [← takeAcc_single hp he rfl]
  unfold Tile.serve
  rw [hb, arbitrate_alone]
  rfl
/-- A tile without array commands as its static requesters' turn begins: every bank is free. -/
def Tile.banksFree (x : Tile) : Tile := { x with banks := [], paths := [] }
theorem staticAccess_of_no_paths {x : Tile} (hx : x.paths = []) (tc : Nat) :
    x.staticAccess tc = (x.banksFree.requests tc).foldl (fun y q => y.serve tc q) x.banksFree := by
  have live : x.livePaths tc = [] := by simp [Tile.livePaths, hx]
  unfold Tile.staticAccess
  rw [live]
  rfl
theorem staticAccess_store {x : Tile} {tc c n ea : Nat} {p : Pend} {v : Bits256} {k : BitVec 64} (hc : c < 4) (hx : x.paths = []) (hs : x.streams = [])
    (ho : ∀ d, d ≠ c → (x.core d).pend = []) (hp : (x.core c).pend = [p]) (hd : (x.core c).dueNow tc p = true) (he : p.effs = [.store n ea v k]) :
    let y := x.staticAccess tc
    y.tm = ssetBytes x.tm ea n v.toNat ∧ y.ds = x.ds ∧ y.paths = [] ∧ (y.core c).pend = [] := by
  dsimp only
  rw [staticAccess_of_no_paths hx, requests_store (x := x.banksFree) hc rfl hs ho hp hd he, List.foldl_cons, List.foldl_nil, serve_store (x := x.banksFree) rfl hp he]
  obtain ⟨tm, ds, cores, paths⟩ := tmWrite_frame ({ x.banksFree with banks := (banksOf ea n).map fun b => (b, p.req c (.store n ea v k)) }.setCore c
    (x.core c).taken) ea n v.toNat k.toNat
  refine ⟨tm, ds, paths, (congrArg (fun m => (sget {} m c).pend) cores).trans ?_⟩
  exact congrArg Core.pend (Tile.core_setCore x.banksFree c (x.core c).taken)
/-- No array command sends its rows on. -/
theorem broadcast_of_no_paths {s : State} {t : Nat} (h : (s.tile t).paths = []) (tc : Nat) : s.broadcast t tc = s := by simp [State.broadcast, h]

theorem exec_staticBankAccess_quiet {s : State} (h : (s.here.staticAccess (s.tcyc s.curT)).paths = []) :
    exec .staticBankAccess s = .next (s.setTile s.curT (s.here.staticAccess (s.tcyc s.curT))) :=
  congrArg Host.Outcome.next (broadcast_of_no_paths (by rw [State.upHere_eq, State.tile_setTile]; exact h) _)

/-! ### Bytes -/

theorem tmRead_one (x : Tile) (a : Nat) : x.tmRead a 1 = (sget 0#8 x.tm a).toNat := by simp [Tile.tmRead, sgetBytes]
theorem tmRead_of_write {x y : Tile} {a n v i : Nat} (h : y.tm = ssetBytes x.tm a n v) (hi : i < n) : y.tmRead (a + i) 1 = v / 2 ^ (8 * i) % 256 := by
  rw [tmRead_one, h, sget_ssetBytes_of_in _ _ _ _ _ hi, BitVec.toNat_ofNat, Nat.pow_mul]
theorem tmRead_of_write_out {x y : Tile} {a n v b : Nat} (h : y.tm = ssetBytes x.tm a n v) (hb : b < a ∨ a + n ≤ b) : y.tmRead b 1 = x.tmRead b 1 := by
  rw [tmRead_one, tmRead_one, h, sget_ssetBytes_of_out _ _ _ _ _ (by omega)]

/-! ### Deferred starts -/

/-- What deferredStart does for one command. -/
def Tile.startPath (tc : Nat) (x : Tile) (p : Path) : Tile :=
  if p.started || p.s != tc || decide (2 < p.kind) then x
  else
    let q := p.begin x (x.core p.core).satm
    let q := if q.latchOk then q else { q with stop := some 0 }
    let x := { x with paths := x.paths.map fun r => if r == p then q else r }
    if q.latchOk then x else x.pathCause p 0 { cause := cFormat, slot := p.slot, i0 := BitVec.ofNat 32 p.pc }
theorem exec_deferredStart (s : State) : exec .deferredStart s =
    .next (s.setTile s.curT (s.here.paths.foldl (Tile.startPath (s.tcyc s.curT)) s.here)) := rfl

section
variable {x : Tile} {q : Path} {tc : Nat} (hx : x.paths = [q]) (hn : q.started = false) (hs : q.s = tc) (hk : q.kind ≤ 2)
include hx hn hs hk
/-- The only command starts with the mode and the latch as they then are. -/
theorem startPath_fits (hf : x.latchFits q.ty q.w = true) : x.startPath tc q = { x with paths := [q.begin x (x.core q.core).satm] } := by
  have now : (q.started || q.s != tc || decide (2 < q.kind)) = false := by simp [hn, hs, hk]
  have ok : (q.begin x (x.core q.core).satm).latchOk = true := hf
  simp only [Tile.startPath, now, ok, hx, Bool.false_eq_true, if_false, if_true, List.map_cons, List.map_nil, beq_self_eq_true]
/-- Where the latch does not fit, it stops before its first row. -/
theorem startPath_misfits (hf : x.latchFits q.ty q.w = false) : (x.startPath tc q).paths = [{ q.begin x (x.core q.core).satm with stop := some 0 }] := by
  have now : (q.started || q.s != tc || decide (2 < q.kind)) = false := by simp [hn, hs, hk]
  have ok : (q.begin x (x.core q.core).satm).latchOk = false := hf
  simp only [Tile.startPath, now, ok, hx, Bool.false_eq_true, if_false, if_true, List.map_cons, List.map_nil, beq_self_eq_true]
  rfl
end

/-! ### Gang rows -/

/-- What gangEnter does for one row that has arrived. -/
def Tile.takeArrived (x : Tile) (e : GangRow) : Tile :=
  let held := x.gangBuf.foldl (fun l f => if f.inBuf && !l.contains f.n then f.n :: l else l) []
  if x.wantsRow e && (held.contains e.n || decide (held.length < 2)) then
    { x with gangBuf := x.gangBuf ++ [{ e with inBuf := true }], journal := x.journal + (arrRowBytes e.ty + 63) / 64 }
  else x
theorem gangEnter_eq (x : Tile) (gc : Nat) : x.gangEnter gc = (x.gangBuf.filter fun e => !e.inBuf && decide (e.due ≤ gc)).foldl Tile.takeArrived
    { x with gangBuf := x.gangBuf.filter fun e => e.inBuf || decide (gc < e.due) } := rfl
theorem wantsRow_of_no_paths {x : Tile} (h : x.paths = []) (e : GangRow) : x.wantsRow e = decide (x.gangN ≤ e.n) := by simp [Tile.wantsRow, h]
/-- A row that enters the buffer changes nothing else that the cycle's other turns see. -/
theorem takeArrived_frame (x : Tile) (e : GangRow) : let y := x.takeArrived e
    y.paths = x.paths ∧ y.gangN = x.gangN ∧ y.cores = x.cores ∧ y.tm = x.tm := by
  unfold Tile.takeArrived
  dsimp only
  split <;> exact ⟨rfl, rfl, rfl, rfl⟩
theorem gangEnter_frame (x : Tile) (gc : Nat) : let y := x.gangEnter gc
    y.paths = x.paths ∧ y.gangN = x.gangN ∧ y.cores = x.cores ∧ y.tm = x.tm := by
  dsimp only
  rw [gangEnter_eq]
  exact ⟨foldl_keeps Tile.paths (fun y e => (takeArrived_frame y e).1) _ _, foldl_keeps Tile.gangN (fun y e => (takeArrived_frame y e).2.1) _ _,
    foldl_keeps Tile.cores (fun y e => (takeArrived_frame y e).2.2.1) _ _, foldl_keeps Tile.tm (fun y e => (takeArrived_frame y e).2.2.2) _ _⟩
/-- Without receivers, a row that has arrived stays in the buffer if it found room there and its command has not yet been issued. -/
theorem exec_gangRowArrival_quiet {s : State} (hx : s.here.paths = []) : exec .gangRowArrival s = .next (s.setTile s.curT
    { s.here.gangEnter s.gcyc with gangBuf := (s.here.gangEnter s.gcyc).gangBuf.filter fun e => !e.inBuf || decide (s.here.gangN ≤ e.n) }) := by
  obtain ⟨hp, hn, -, -⟩ := gangEnter_frame s.here s.gcyc
  have none' : (s.here.gangEnter s.gcyc).paths = [] := hp.trans hx
  show execGangRowArrival s = _
  simp only [execGangRowArrival, State.upHere_eq, none', List.foldl_nil, wantsRow_of_no_paths none', hn]

/-- What the buffer holds of a row alone. -/
theorem gangEnter_one {x : Tile} {e : GangRow} (gc : Nat) (hx : x.paths = []) (hb : x.gangBuf = [e]) : (x.gangEnter gc).gangBuf =
    if e.inBuf = true ∨ gc < e.due then [e] else if x.gangN ≤ e.n then [{ e with inBuf := true }] else [] := by
  rw [gangEnter_eq, hb]
  by_cases hk : e.inBuf = true ∨ gc < e.due
  · have stays : (e.inBuf || decide (gc < e.due)) = true := by simpa using hk
    have late : (!e.inBuf && decide (e.due ≤ gc)) = false := by simpa [imp_iff_not_or, or_comm] using hk
    rw [if_pos hk]
    simp only [List.filter_cons, List.filter_nil, stays, late, if_true, Bool.false_eq_true, if_false, List.foldl_nil]
  · have stays : (e.inBuf || decide (gc < e.due)) = false := by simpa using hk
    have late : (!e.inBuf && decide (e.due ≤ gc)) = true := by simpa using hk
    rw [if_neg hk]
    simp only [List.filter_cons, List.filter_nil, stays, late, if_true, Bool.false_eq_true, if_false, List.foldl_cons, List.foldl_nil]
    unfold Tile.takeArrived
    rw [wantsRow_of_no_paths (by exact hx)]
    by_cases hw : x.gangN ≤ e.n
    · simp [hw]
    · simp [hw]
/-- What of it is left at the end of the cycle. -/
theorem gangKept_one {x : Tile} {e : GangRow} (gc : Nat) (hx : x.paths = []) (hb : x.gangBuf = [e]) :
    ((x.gangEnter gc).gangBuf.filter fun e => !e.inBuf || decide (x.gangN ≤ e.n)) =
      if e.inBuf = false ∧ gc < e.due then [e] else if x.gangN ≤ e.n then [{ e with inBuf := true }] else [] := by
  rw [gangEnter_one gc hx hb]
  cases hi : e.inBuf with
  | true =>
    have same : ({ e with inBuf := true } : GangRow) = e := by rw [← hi]
    rw [if_pos (.inl rfl), if_neg fun h => Bool.false_ne_true h.1.symm, same]
    by_cases hw : x.gangN ≤ e.n <;> simp [hi, hw]
  | false =>
    by_cases hd : gc < e.due
    · rw [if_pos (.inr hd), if_pos ⟨rfl, hd⟩]
      simp [hi]
    · have arrived : ¬(false = true ∨ gc < e.due) := fun h => h.elim Bool.false_ne_true hd
      have here' : ¬(false = false ∧ gc < e.due) := fun h => hd h.2
      rw [if_neg arrived, if_neg here']
      by_cases hw : x.gangN ≤ e.n
      · rw [if_pos hw]; simp [hw]
      · rw [if_neg hw]; rfl
/-- A row of a third command finds no room (log 105). -/
theorem gangEnter_third {x : Tile} {e f g : GangRow} {gc : Nat} (hb : x.gangBuf = [e, f, g]) (he : e.inBuf = true) (hf : f.inBuf = true)
    (hg : g.inBuf = false) (hd : g.due ≤ gc) (hef : e.n ≠ f.n) (hge : g.n ≠ e.n) (hgf : g.n ≠ f.n) : (x.gangEnter gc).gangBuf = [e, f] := by
  rw [gangEnter_eq, hb]
  simp [he, hf, hg, hd, Nat.not_lt.2 hd, Tile.takeArrived, hef.symm, hge, hgf]

/-! ### The lease -/

/-- The cores in round-robin order from `first` on (R138). -/
def rota (first : Nat) : List Nat := (upto 0 4).map fun i => (first + i) % 4
theorem find?_rota {P : Nat → Bool} {first i c : Nat} (hi : i < 4) (hc : (first + i) % 4 = c) (hp : P c = true)
    (hmin : ∀ j < i, P ((first + j) % 4) = false) : (rota first).find? P = some c := by
  subst hc
  unfold rota
  have hf : (List.range' 0 4).find? (P ∘ fun i => (first + i) % 4) = some i := by
    rw [List.find?_range'_eq_some]
    refine ⟨hp, List.mem_range'_1.2 ⟨Nat.zero_le _, by omega⟩, fun j _ hj => ?_⟩
    rw [Function.comp_apply, hmin j hj]; rfl
  rw [upto_eq_range', List.find?_map, hf]; rfl
theorem find?_rota_none {P : Nat → Bool} (first : Nat) (h : ∀ d < 4, P d = false) : (rota first).find? P = none := by
  rw [List.find?_eq_none]
  unfold rota
  intro d hd
  obtain ⟨i, -, rfl⟩ := List.mem_map.1 hd
  simp [h _ (Nat.mod_lt _ (by decide : 0 < 4))]

/-- Core d asks for the lease. -/
def Tile.asks (x : Tile) (d : Nat) : Bool := x.leaseReq.any fun r => r.1 == d
theorem asks_iff (x : Tile) (d : Nat) : x.asks d = true ↔ ∃ j, (d, j) ∈ x.leaseReq := by
  simp only [Tile.asks, List.any_eq_true, beq_iff_eq, Prod.exists]
  exact ⟨fun ⟨a, j, h, e⟩ => ⟨j, e ▸ h⟩, fun ⟨j, h⟩ => ⟨d, j, h, rfl⟩⟩
theorem asks_eq_false {x : Tile} {d : Nat} (h : ∀ j, (d, j) ∉ x.leaseReq) : x.asks d = false := by
  rw [← Bool.not_eq_true, asks_iff]
  exact fun ⟨j, hj⟩ => h j hj
/-- The token of a core's request. -/
theorem find?_request {l : List (Nat × Nat)} {c k : Nat} (hm : (c, k) ∈ l) (hk : ∀ j, (c, j) ∈ l → j = k) : l.find? (fun r => r.1 == c) = some (c, k) := by
  cases hf : l.find? fun r => r.1 == c with
  | none => exact absurd (List.find?_eq_none.1 hf _ hm) (by simp)
  | some r =>
    obtain ⟨d, j⟩ := r
    obtain rfl : d = c := by simpa using List.find?_some hf
    rw [hk j (List.mem_of_find?_eq_some hf)]

/-- The core after the last holder. -/
def Tile.firstAsked (x : Tile) : Nat := match x.leaseLast with | some c => c + 1 | none => 0
/-- The spans of the array and the latch path are over. -/
def Tile.spansOver (x : Tile) (tc : Nat) : Prop := ∀ r ∈ x.arrSpans ++ x.lwtSpans, r.2 < tc
theorem spansOver_iff (x : Tile) (tc : Nat) : ((x.arrSpans ++ x.lwtSpans).any fun r => decide (tc ≤ r.2)) = false ↔ x.spansOver tc := by
  simp only [Tile.spansOver, List.any_eq_false, decide_eq_true_eq, Nat.not_le]

/-- The tile in which core c takes the lease. -/
def Tile.granted (x : Tile) (tc c k : Nat) : Tile :=
  { x with leaseCore := some c, leaseAt := tc, leaseReq := x.leaseReq.filter fun r => r.1 != c }.setCore c { (x.core c).post k 0 with cmds := 0, lcyc := 1 }
theorem grant_eq (x : Tile) (tc : Nat) : x.grant tc =
    if x.leaseCore.isSome || (x.arrSpans ++ x.lwtSpans).any (fun r => decide (tc ≤ r.2)) then x
    else match (rota x.firstAsked).find? x.asks with
      | none => x
      | some c => x.granted tc c ((x.leaseReq.find? fun r => r.1 == c).elim 0 Prod.snd) := rfl
theorem grant_of_find {x : Tile} {tc c k : Nat} (hl : x.leaseCore = none) (ho : x.spansOver tc) (hf : (rota x.firstAsked).find? x.asks = some c)
    (hm : (c, k) ∈ x.leaseReq) (hk : ∀ j, (c, j) ∈ x.leaseReq → j = k) : x.grant tc = x.granted tc c k := by
  rw [grant_eq, hl, (spansOver_iff x tc).2 ho, hf]
  change x.granted tc c ((x.leaseReq.find? fun r => r.1 == c).elim 0 Prod.snd) = _
  rw [find?_request hm hk]
  rfl
theorem grant_of_busy {x : Tile} {tc : Nat} (h : ∃ r ∈ x.arrSpans ++ x.lwtSpans, tc ≤ r.2) : x.grant tc = x := by
  have busy : ((x.arrSpans ++ x.lwtSpans).any fun r => decide (tc ≤ r.2)) = true := by simpa only [List.any_eq_true, decide_eq_true_eq] using h
  rw [grant_eq, busy, Bool.or_true, if_pos rfl]
theorem grant_of_unasked {x : Tile} (tc : Nat) (h : ∀ d < 4, ∀ j, (d, j) ∉ x.leaseReq) : x.grant tc = x := by
  rw [grant_eq, find?_rota_none x.firstAsked fun d hd => asks_eq_false (h d hd)]
  exact ite_self x

theorem ended_eq_false {x : Tile} (h : ∀ d, x.leaseLast = some d → (x.core d).lcyc ≠ 4097) (d : Nat) : x.ended d = false := by
  unfold Tile.ended
  by_cases hd : x.leaseLast = some d
  · simp [h d hd]
  · simp [hd]
theorem ended_eq_true {x : Tile} {c : Nat} (hl : x.leaseCore = none) (hc : x.leaseLast = some c) (hy : (x.core c).lcyc = 4097) : x.ended c = true := by
  simp [Tile.ended, hl, hc, hy]
theorem endStands_of_not {x : Tile} (h : ∀ d, x.ended d = false) : x.endStands = x := by
  unfold Tile.endStands
  split
  · rw [h]; rfl
  · rfl
theorem endStands_of_ended {x : Tile} {c : Nat} (hc : x.leaseLast = some c) (h : x.ended c = true) :
    x.endStands = x.setCore c { x.core c with lcyc := 4096 } := by
  simp only [Tile.endStands, hc, h, if_true]
  rfl

/-- leaseGrant at its own place in the cycle. -/
theorem exec_leaseGrant_plain {s : State} (ha : s.curArg ≠ 1) : exec .leaseGrant s =
    .next (s.setTile s.curT (if s.here.leaseLast.any s.here.ended then s.here else s.here.grant (s.tcyc s.curT))) := by
  show execLeaseGrant s = _
  simp only [execLeaseGrant, State.upHere_eq, if_neg ha]
/-- leaseGrant after the turns of a core whose lease was about to end by time. -/
theorem exec_leaseGrant_settle {s : State} (ha : s.curArg = 1) : exec .leaseGrant s = .next (s.setTile s.curT (s.here.settleLease (s.tcyc s.curT))) := by
  show execLeaseGrant s = _
  simp only [execLeaseGrant, State.upHere_eq, if_pos ha]
/-- A tile in which core c's lease has ended by time, and the only other request is core d's. -/
def Tile.lapsed (x : Tile) (c d k : Nat) : Tile := { x.setCore c { x.core c with lcyc := 4096 } with leaseReq := [(d, k)] }
theorem settleLease_of_ended {x : Tile} {tc c d k : Nat} (hc : x.leaseLast = some c) (he : x.ended c = true) (hr : x.leaseReq = [(d, k)]) (hdc : d ≠ c) :
    x.settleLease tc = { (x.lapsed c d k).grant tc with leaseReq := ((x.lapsed c d k).grant tc).leaseReq ++ x.leaseReq.filter fun r => r.1 == c } := by
  have left : x.leaseReq.filter (fun r => r.1 != c) = [(d, k)] := by simp [hr, hdc]
  simp only [Tile.settleLease, hc, he, if_true, endStands_of_ended hc he, left]
  rfl
/-- Its request is granted, whichever core comes first. -/
theorem grant_lapsed {x : Tile} {tc c d k : Nat} (hl : x.leaseCore = none) (ho : x.spansOver tc) (hd : d < 4) :
    (x.lapsed c d k).grant tc = (x.lapsed c d k).granted tc d k := by
  have only (a : Nat) : (x.lapsed c d k).asks a = (d == a) := by simp [Tile.asks, Tile.lapsed]
  generalize hf : (x.lapsed c d k).firstAsked = first
  have place : (first + (d + 3 * first) % 4) % 4 = d := by omega
  refine grant_of_find hl ho ?_ (List.mem_singleton_self _) fun j hj => ?_
  · rw [hf]
    refine find?_rota (Nat.mod_lt _ (by decide)) place (by rw [only, beq_self_eq_true]) fun j hj => ?_
    rw [only, beq_eq_false_iff_ne]
    omega
  · exact (Prod.mk.inj (List.mem_singleton.1 hj)).2
/-- An end by time stands, and the only other request is granted (log 100). -/
theorem settleLease_grants {x : Tile} {tc c d k : Nat} (hl : x.leaseCore = none) (hc : x.leaseLast = some c) (hy : (x.core c).lcyc = 4097)
    (ho : x.spansOver tc) (hr : x.leaseReq = [(d, k)]) (hd : d < 4) (hdc : d ≠ c) :
    let y := x.settleLease tc
    y.leaseCore = some d ∧ (y.core c).lcyc = 4096 ∧ (y.core d).token k = ((x.core d).token k).post 0 ∧ (y.core d).lcyc = 1 := by
  dsimp only
  rw [settleLease_of_ended hc (ended_eq_true hl hc hy) hr hdc, grant_lapsed hl ho hd]
  have atD : ((x.lapsed c d k).granted tc d k).core d = { (x.core d).post k 0 with cmds := 0, lcyc := 1 } := by
    refine (Tile.core_setCore _ d _).trans ?_
    rw [show (x.lapsed c d k).core d = x.core d from Tile.core_setCore_ne x c d _ hdc]
  have atC : ((x.lapsed c d k).granted tc d k).core c = { x.core c with lcyc := 4096 } :=
    (Tile.core_setCore_ne _ d c _ hdc.symm).trans (Tile.core_setCore x c _)
  refine ⟨rfl, (congrArg Core.lcyc atC).trans rfl, (congrArg (fun y : Core => y.token k) atD).trans ?_, (congrArg Core.lcyc atD).trans rfl⟩
  exact Core.token_post_self (x.core d) k 0

theorem exec_leaseExpiry (s : State) : exec .leaseExpiry s = .next (s.setTile s.curT (match s.here.endStands.leaseCore with
    | none => s.here.endStands
    | some c => if 64 ≤ (s.here.endStands.core c).cmds then { s.here.endStands with leaseCore := none, leaseLast := some c }
      else if (s.here.endStands.core c).inMon then s.here.endStands else s.here.endStands.countLease c)) := rfl

/-- Without an end by time, the holder's cycle is counted, or its lease ends by its commands. -/
theorem exec_leaseExpiry_held {s : State} {c : Nat} (hy : ∀ d, s.here.leaseLast = some d → (s.here.core d).lcyc ≠ 4097) (hl : s.here.leaseCore = some c) :
    exec .leaseExpiry s = .next (s.setTile s.curT (if 64 ≤ (s.here.core c).cmds then { s.here with leaseCore := none, leaseLast := some c }
      else if (s.here.core c).inMon then s.here else s.here.countLease c)) := by
  rw [exec_leaseExpiry, endStands_of_not (ended_eq_false hy), hl]
/-- The holder with one more cycle counted. -/
def Core.counted (y : Core) : Core := { y with lcyc := y.lcyc + 1 }
theorem countLease_eq (x : Tile) (c : Nat) : x.countLease c = if (x.core c).lcyc < 4096 then x.setCore c (x.core c).counted
    else { x.setCore c (x.core c).counted with leaseCore := none, leaseLast := some c } := rfl
theorem countLease_core (x : Tile) (c : Nat) : (x.countLease c).core c = (x.core c).counted := by
  rw [countLease_eq]
  split
  · exact Tile.core_setCore x c _
  · exact Tile.core_setCore x c _
theorem countLease_lease (x : Tile) (c : Nat) : (x.countLease c).leaseCore = (if (x.core c).lcyc < 4096 then x.leaseCore else none)
    ∧ (x.countLease c).leaseLast = if (x.core c).lcyc < 4096 then x.leaseLast else some c := by
  rw [countLease_eq]
  split <;> exact ⟨rfl, rfl⟩
/-- The end by time stands in the next cycle's count. -/
theorem exec_leaseExpiry_ended {s : State} {c : Nat} (hl : s.here.leaseCore = none) (hc : s.here.leaseLast = some c) (hy : (s.here.core c).lcyc = 4097) :
    exec .leaseExpiry s = .next (s.setTile s.curT (s.here.setCore c { s.here.core c with lcyc := 4096 })) := by
  rw [exec_leaseExpiry, endStands_of_ended hc (ended_eq_true hl hc hy), Tile.setCore_leaseCore, hl]
/-- The first requester in round-robin order takes the lease. -/
theorem grant_first {x : Tile} {tc c k : Nat} (hl : x.leaseCore = none) (ho : x.spansOver tc) (hc : c < 4) (hm : (c, k) ∈ x.leaseReq)
    (hk : ∀ j, (c, j) ∈ x.leaseReq → j = k)
    (hmin : ∀ d j, (d, j) ∈ x.leaseReq → d < 4 → (c + 8 - x.firstAsked) % 4 ≤ (d + 8 - x.firstAsked) % 4) (hf : x.firstAsked ≤ 4) :
    x.grant tc = x.granted tc c k := by
  refine grant_of_find hl ho (find?_rota (i := (c + 8 - x.firstAsked) % 4) (Nat.mod_lt _ (by decide)) (by omega) ((asks_iff x c).2 ⟨k, hm⟩) fun j hj =>
    asks_eq_false fun i hi => ?_) hm hk
  have := hmin _ i hi (Nat.mod_lt _ (by decide))
  omega

/-- The tile after the event is all that a claim about it sees. -/
theorem does_here {s : State} {i : Instr} {x : Tile} {P : State → Prop} (h : exec i s = .next (s.setTile s.curT x))
    (hp : ∀ t : State, t.here = x → t.core = x.core s.curC → P t) : s.Does i P :=
  ⟨_, h, hp _ (s.here_setTile x) (congrArg (fun y : Tile => y.core s.curC) (s.here_setTile x))⟩

/-- Settles O43: each event as what it does to a tile where it stands alone; the lease by whom the rota finds first. -/
theorem tileCycleEvents : Obligations.TileCycleEvents := by
  unfold Obligations.TileCycleEvents
  refine ⟨?_, ?_, ?_⟩
  · intro s p d v c hx hm hp hn hd he
    have turn := exec_resultLanding_sreg hx hm hp hn hd he
    refine ⟨fun h => does_here turn fun t ht hc => ?_, fun htr hf => does_here turn fun t ht hc => ?_⟩
    · have lands : c.raises p = false := by
        rw [← Bool.not_eq_true, raises_iff hm]
        rintro ⟨htr, hf⟩
        rcases h with h | h
        · rw [htr] at h; cases h
        · exact hf h
      rw [hc, ht, Tile.core_setCore, resultLanding_lands d v lands]
      refine ⟨rfl, fun n => ?_, rfl, rfl, rfl, rfl⟩
      refine (Bank.sreg_setS c.task d n v).trans (if_congr ?_ rfl rfl)
      exact ⟨fun ⟨h1, h2⟩ => ⟨h1 ▸ h2, h1⟩, fun ⟨h1, h2⟩ => ⟨h2, h2 ▸ h1⟩⟩
    · rw [hc, Tile.core_setCore, resultLanding_traps d v ((raises_iff hm).2 ⟨htr, hf⟩)]
      exact ⟨rfl, rfl, rfl, rfl⟩
  · intro s p q n ea v k e f g x tc
    refine ⟨fun hc hx hs ho hp hm hn hd he => ?_, fun hx hn hs hk hf => does_here (exec_deferredStart s) fun t ht _ => ?_,
      fun hx hn hs hk hf => does_here (exec_deferredStart s) fun t ht _ => ?_, fun hx hb => does_here (exec_gangRowArrival_quiet hx) fun t ht _ => ?_,
      fun hx hb he hf hg hd hne hnf hng hef hge hgf => does_here (exec_gangRowArrival_quiet hx) fun t ht _ => ?_⟩
    · have due : s.core.dueNow tc p = true := by simp [Core.dueNow, hn, hd, inMon_of_task hm]
      obtain ⟨tm, ds, paths, pend⟩ := staticAccess_store (tc := tc) hc hx hs ho hp due he
      refine does_here (exec_staticBankAccess_quiet paths) fun t ht hc => ?_
      rw [ht, hc]
      exact ⟨pend, fun i hi => tmRead_of_write tm hi, fun b hb => tmRead_of_write_out tm hb, ds⟩
    · rw [ht, show s.here.paths = [q] from hx, List.foldl_cons, List.foldl_nil, startPath_fits hx hn hs hk hf]
      exact ⟨rfl, rfl, rfl⟩
    · rw [ht, show s.here.paths = [q] from hx, List.foldl_cons, List.foldl_nil]
      exact startPath_misfits hx hn hs hk hf
    · rw [ht]
      obtain ⟨-, -, hc, ht⟩ := gangEnter_frame s.here s.gcyc
      exact ⟨gangKept_one s.gcyc hx hb, hc, ht⟩
    · rw [ht]
      refine (congrArg (List.filter _) (gangEnter_third hb he hf hg hd hef hge hgf)).trans ?_
      simp [show s.here.gangN ≤ e.n from hne, show s.here.gangN ≤ f.n from hnf]
  · intro s c k x tc y first
    refine ⟨fun hl ho hc hm hk hmin hfirst ha hy => ?_, fun hl ha hn => ?_, fun hl hc hy => ⟨fun ha => ?_, ?_, fun ha ho d hr hd hdc => ?_⟩,
      fun hy hl => ⟨fun h => ?_, fun h hm => ?_, fun h hm => ?_⟩⟩
    · refine does_here (exec_leaseGrant_plain ha) fun t ht _ => ?_
      have running : ¬s.here.leaseLast.any s.here.ended = true := by
        cases s.here.leaseLast with
        | none => exact Bool.false_ne_true
        | some d => rw [Option.any_some, ended_eq_false hy d]; exact Bool.false_ne_true
      rw [ht, if_neg running, grant_first hl ho hc hm hk hmin hfirst]
      have atC : (s.here.granted tc c k).core c = { y.post k 0 with cmds := 0, lcyc := 1 } := Tile.core_setCore _ c _
      exact ⟨rfl, rfl, (congrArg (fun z : Core => z.token k) atC).trans (Core.token_post_self y k 0), congrArg Core.cmds atC, congrArg Core.lcyc atC⟩
    · refine does_here (exec_leaseGrant_plain ha) fun t ht _ => ?_
      rw [ht]
      split
      · rfl
      · rcases hn with h | h
        · exact grant_of_busy h
        · exact grant_of_unasked tc h
    · refine does_here (exec_leaseGrant_plain ha) fun t ht _ => ?_
      rw [ht]
      refine if_pos ?_
      rw [hc]
      exact ended_eq_true hl hc hy
    · refine does_here (exec_leaseExpiry_ended hl hc hy) fun t ht _ => ?_
      rw [ht]
      exact ⟨Tile.core_setCore _ c _, hl⟩
    · refine does_here (exec_leaseGrant_settle ha) fun t ht _ => ?_
      rw [ht]
      exact settleLease_grants hl hc hy ho hr hd hdc
    · refine does_here (exec_leaseExpiry_held hy hl) fun t ht _ => ?_
      rw [ht, if_pos (by exact h)]
      exact ⟨rfl, rfl, rfl⟩
    · refine does_here (exec_leaseExpiry_held hy hl) fun t ht _ => ?_
      rw [ht, if_neg (Nat.not_le.2 h), show (s.here.core c).inMon = false from hm, if_neg Bool.false_ne_true]
      obtain ⟨hcore, hlast⟩ := countLease_lease s.here c
      exact ⟨countLease_core s.here c, hcore.trans (by rw [show s.here.leaseCore = some c from hl]), hlast⟩
    · refine does_here (exec_leaseExpiry_held hy hl) fun t ht _ => ?_
      rw [ht, if_neg (Nat.not_le.2 h), if_pos (by exact hm)]

end Sys2Proof.Machine

/-! PROOFS. Two-source scalar results: the word functions as numbers (R93, R115, R116), and the issue of a form with two sources (R112, R114). -/
namespace Sys2Proof.Machine

/-! ### Flags and clamping -/

theorem cleanFlags_zero (p : Bool) : cleanFlags p 0#11 = 0#11 := by cases p <;> rfl

theorem intMin_le_intMax (w : Nat) (sg : Bool) : intMin w sg ≤ intMax w sg := by
  have := Nat.one_le_two_pow (n := w - 1)
  have := Nat.one_le_two_pow (n := w)
  cases sg <;> simp only [intMin, intMax, Bool.false_eq_true, if_false, if_true] <;> omega

/-- The end of the type's range that is nearest to z, or z (R93). -/
def clampedI (w : Nat) (sg : Bool) (z : Int) : Int := max (intMin w sg) (min (intMax w sg) z)
theorem clampedI_eq_iff (w : Nat) (sg : Bool) (z : Int) : clampedI w sg z = z ↔ intMin w sg ≤ z ∧ z ≤ intMax w sg := by
  have := intMin_le_intMax w sg
  unfold clampedI
  omega
theorem clampI_eq (w : Nat) (sg : Bool) (z : Int) : clampI w sg z = (intBits w (clampedI w sg z), decide (clampedI w sg z ≠ z)) := by
  have hr := intMin_le_intMax w sg
  unfold clampI
  by_cases hlo : z < intMin w sg
  · rw [if_pos hlo, show clampedI w sg z = intMin w sg by unfold clampedI; omega, decide_eq_true (by omega)]
  · by_cases hhi : intMax w sg < z
    · rw [if_neg hlo, if_pos hhi, show clampedI w sg z = intMax w sg by unfold clampedI; omega, decide_eq_true (by omega)]
    · have hz : clampedI w sg z = z := (clampedI_eq_iff w sg z).2 ⟨by omega, by omega⟩
      rw [if_neg hlo, if_neg hhi, hz, decide_eq_false fun h => h rfl]

/-! ### The word functions as numbers -/

theorem fShl_eq (x y : Word) : fShl x y = BitVec.ofNat 32 (x.toNat * 2 ^ (y.toNat % 32)) := by
  apply BitVec.eq_of_toNat_eq
  simp [fShl, cnt5, Nat.shiftLeft_eq]
theorem ushiftRight_eq_ofNat (x : Word) (k : Nat) : x >>> k = BitVec.ofNat 32 (x.toNat / 2 ^ k) := by
  apply BitVec.eq_of_toNat_eq
  have := (Nat.div_le_self x.toNat (2 ^ k)).trans_lt x.isLt
  simp [Nat.shiftRight_eq_div_pow, Nat.mod_eq_of_lt this]
theorem fShr_eq (x y : Word) : fShr x y = BitVec.ofNat 32 (x.toNat / 2 ^ (y.toNat % 32)) := ushiftRight_eq_ofNat x _
theorem fSar_eq (x y : Word) : fSar x y = BitVec.ofInt 32 (x.toInt / 2 ^ (y.toNat % 32)) := by
  simp [fSar, cnt5, BitVec.sshiftRight, Int.shiftRight_eq_div_pow]
theorem fRol_eq (x y : Word) :
    fRol x y = BitVec.ofNat 32 (x.toNat * 2 ^ (y.toNat % 32)) ||| BitVec.ofNat 32 (x.toNat / 2 ^ (32 - y.toNat % 32)) := by
  have left : x <<< (y.toNat % 32) = BitVec.ofNat 32 (x.toNat * 2 ^ (y.toNat % 32)) := fShl_eq x y
  rw [fRol, cnt5, BitVec.rotateLeft_def, Nat.mod_mod, left, ushiftRight_eq_ofNat]

theorem fMinu_eq (x y : Word) : fMinu x y = BitVec.ofNat 32 (min x.toNat y.toNat) := by
  rw [fMinu, BitVec.ult]
  by_cases h : x.toNat < y.toNat
  · simp [h, Nat.min_eq_left h.le]
  · simp [h, Nat.min_eq_right (Nat.not_lt.1 h)]
theorem fMaxu_eq (x y : Word) : fMaxu x y = BitVec.ofNat 32 (max x.toNat y.toNat) := by
  rw [fMaxu, BitVec.ult]
  by_cases h : x.toNat < y.toNat
  · simp [h, Nat.max_eq_right h.le]
  · simp [h, Nat.max_eq_left (Nat.not_lt.1 h)]

theorem ofNat_intBits (z : Int) : BitVec.ofNat 32 (intBits 32 z) = BitVec.ofInt 32 z := by
  apply BitVec.eq_of_toNat_eq
  rw [BitVec.toNat_ofNat, BitVec.toNat_ofInt, intBits]
  exact Nat.mod_eq_of_lt (by omega)
theorem satW_eq (z : Int) : satW z = (BitVec.ofInt 32 (clampedI 32 true z), flagIf (decide (clampedI 32 true z ≠ z)) fSAT) := by
  rw [satW, clampI_eq, ofNat_intBits]

/-- The high half of a product of two words, signed and unsigned. -/
theorem fMulh_eq (x y : Word) : fMulh x y = BitVec.ofInt 32 (x.toInt * y.toInt / 4294967296) := by
  apply BitVec.eq_of_toNat_eq
  simp [fMulh]
  omega
theorem fMulhu_eq (x y : Word) : fMulhu x y = BitVec.ofNat 32 (x.toNat * y.toNat / 4294967296) := by
  apply BitVec.eq_of_toNat_eq
  simp [fMulhu]
  omega

/-- A remainder is that of the division toward zero (R116). -/
theorem fRem_eq (x y : Word) : fRem x y = if y == 0#32 then (x, fIDZ) else (BitVec.ofInt 32 (x.toInt.tmod y.toInt), 0#11) := by
  rw [fRem, Int.tmod_def]

/-! ### The issue of a form with two sources -/

section
variable {s s1 s2 : State} {a b : BitVec 6} {x y : PWord}

theorem issue_sBin (ha : readS a s = .ok (x, s1)) (hb : readS b s1 = .ok (y, s2)) (lat : Nat) (traps : Bool) (f : Word → Word → Word × BitVec 11)
    (d : BitVec 6) : issue (sBin lat traps f d a b) s =
      .next (s2.putS lat d ⟨(f x.val y.val).1, x.poi || y.poi⟩ (cleanFlags (x.poi || y.poi) (f x.val y.val).2) traps) :=
  issue_ok (iss_seq (readS2_ok ha hb) rfl)

/-- A function without flags lands its value. -/
theorem issue_sBin_plain (ha : readS a s = .ok (x, s1)) (hb : readS b s1 = .ok (y, s2)) (lat : Nat) (f : Word → Word → Word) {v : Word}
    (hv : f x.val y.val = v) (d : BitVec 6) : issue (sBin lat false (plain f) d a b) s = .next (s2.putS lat d ⟨v, x.poi || y.poi⟩) := by
  rw [issue_sBin ha hb, plain, hv, cleanFlags_zero]

/-- A saturating form lands the clamped value, and sets SAT where a clean result was clamped. -/
theorem issue_sBin_sat (ha : readS a s = .ok (x, s1)) (hb : readS b s1 = .ok (y, s2)) (f : Word → Word → Word × BitVec 11) {z : Int}
    (hf : f x.val y.val = satW z) (d : BitVec 6) : issue (sBin 1 false f d a b) s =
      .next (s2.putS 1 d ⟨BitVec.ofInt 32 (max (-2147483648) (min 2147483647 z)), x.poi || y.poi⟩
        (if (x.poi || y.poi) = false ∧ (z < -2147483648 ∨ 2147483647 < z) then 0x100#11 else 0#11)) := by
  have hz : clampedI 32 true z ≠ z ↔ z < -2147483648 ∨ 2147483647 < z := by
    rw [ne_eq, clampedI_eq_iff]
    rw [show intMin 32 true = -2147483648 from rfl, show intMax 32 true = 2147483647 from rfl]
    omega
  rw [issue_sBin ha hb, hf, satW_eq]
  congr 2
  cases x.poi || y.poi
  · simp only [cleanFlags, flagIf, fSAT, hz, Bool.false_eq_true, if_false, decide_eq_true_eq, true_and]
  · rfl

/-- A division lands its quotient or remainder, or what stands for it where the divisor is zero; a clean result sets IDZ there. -/
theorem issue_sBin_div (ha : readS a s = .ok (x, s1)) (hb : readS b s1 = .ok (y, s2)) (f : Word → Word → Word × BitVec 11) {u v : Word}
    (hf : f x.val y.val = if y.val == 0#32 then (u, fIDZ) else (v, 0#11)) (d : BitVec 6) : issue (sBin 18 false f d a b) s =
      .next (s2.putS 18 d ⟨if y.val == 0#32 then u else v, x.poi || y.poi⟩ (if y.val == 0#32 && !(x.poi || y.poi) then 0x400#11 else 0#11)) := by
  rw [issue_sBin ha hb, hf]
  cases y.val == 0#32
  · rw [if_neg Bool.false_ne_true, cleanFlags_zero]
    rfl
  · cases x.poi || y.poi <;> rfl

end

/-- Settles O3: each form by its word function as numbers. -/
theorem integerTwoSourceForms : Obligations.IntegerTwoSourceForms := by
  unfold Obligations.IntegerTwoSourceForms
  refine ⟨?_, ?_⟩
  · intro s s1 s2 d a b x y ha hb p k sat
    have lands (f : Word → Word → Word) {v : Word} (hv : f x.val y.val = v) := issue_sBin_plain ha hb 1 f hv d
    exact ⟨lands fAdd rfl, lands fSub rfl, lands fAnd rfl, lands fOr rfl, lands fXor rfl, lands fAndn rfl,
      lands fShl (fShl_eq _ _), lands fShr (fShr_eq _ _), lands fSar (fSar_eq _ _), lands fRol (fRol_eq _ _),
      lands fMin (ofInt_min_toInt _ _).symm, lands fMax (ofInt_max_toInt _ _).symm, lands fMinu (fMinu_eq _ _), lands fMaxu (fMaxu_eq _ _),
      issue_sBin_sat ha hb fAdds rfl d, issue_sBin_sat ha hb fSubs rfl d⟩
  · intro s s1 s2 d a b x y ha hb p xi yi z idz
    have lands (f : Word → Word → Word) {v : Word} (hv : f x.val y.val = v) := issue_sBin_plain ha hb 3 f hv d
    exact ⟨lands fMul rfl, lands fMulh (fMulh_eq _ _), lands fMulhu (fMulhu_eq _ _),
      issue_sBin_div ha hb fDiv rfl d, issue_sBin_div ha hb fDivu rfl d, issue_sBin_div ha hb fRem (fRem_eq _ _) d, issue_sBin_div ha hb fRemu rfl d⟩

end Sys2Proof.Machine

/-! PROOFS. Scalar floating point (R112, R120 to R123): the issue of the forms with three sources and with one, and the sign bit of a word. -/
namespace Sys2Proof.Machine

section
variable {s s1 s2 s3 : State} {a b c : BitVec 6} {x y z : PWord}

/-- Three sources that can be read one after the other: no pop changes what the under-wait checks look at. -/
theorem take3_under3 (ha : readS a s = .ok (x, s1)) (hb : readS b s1 = .ok (y, s2)) (hc : readS c s2 = .ok (z, s3)) :
    takeS a s = .ok (x, s1) ∧ takeS b s1 = .ok (y, s2) ∧ takeS c s2 = .ok (z, s3)
      ∧ underS a s3 = .ok ((), s3) ∧ underS b s3 = .ok ((), s3) ∧ underS c s3 = .ok ((), s3) := by
  obtain ⟨takeA, underA⟩ := readS_split ha
  obtain ⟨takeB, underB⟩ := readS_split hb
  obtain ⟨takeC, underC⟩ := readS_split hc
  have from1 (m : BitVec 6) := takeS_keeps takeA m
  have from2 (m : BitVec 6) := takeS_keeps takeB m
  have from3 (m : BitVec 6) := takeS_keeps takeC m
  exact ⟨takeA, takeB, takeC, (from3 a).2 ((from2 a).2 ((from1 a).2 underA)), (from3 b).2 ((from2 b).2 underB), (from3 c).2 underC⟩

theorem exec_ffma (ha : readS a s = .ok (x, s1)) (hb : readS b s1 = .ok (y, s2)) (hc : readS c s2 = .ok (z, s3)) (d : BitVec 6) (rm : BitVec 2) :
    let r := fp32.fma rm false x.val.toNat y.val.toNat z.val.toNat
    let p := x.poi || y.poi || z.poi
    exec (.ffma d a b c rm) s = .next (s3.putS 4 d ⟨BitVec.ofNat 32 r.1, p⟩ (cleanFlags p r.2) true) := by
  obtain ⟨takeA, takeB, takeC, underA, underB, underC⟩ := take3_under3 ha hb hc
  exact issue_ok (iss_seq takeA (iss_seq takeB (iss_seq takeC (iss_seq underA (iss_seq underB (iss_seq underC rfl))))))

theorem issue_sUn (ha : readS a s = .ok (x, s1)) (lat : Nat) (traps : Bool) (f : Word → Word × BitVec 11) (d : BitVec 6) :
    issue (sUn lat traps f d a) s = .next (s1.putS lat d ⟨(f x.val).1, x.poi⟩ (cleanFlags x.poi (f x.val).2) traps) :=
  issue_ok (iss_seq ha rfl)

theorem getLsbD_31_eq (w : Word) : w.getLsbD 31 = decide (2 ^ 31 ≤ w.toNat) :=
  (BitVec.msb_eq_getLsbD_last w).symm.trans (BitVec.msb_eq_decide w)

/-- Sign injection takes the signs of its sources from their bit 31 (R123). -/
theorem issue_sgnInject (ha : readS a s = .ok (x, s1)) (hb : readS b s1 = .ok (y, s2)) (f : Bool → Bool → Bool) (d : BitVec 6) :
    let r := fp32.setSign x.val.toNat (f (x.val.getLsbD 31) (y.val.getLsbD 31))
    issue (sgnInject f d a b) s = .next (s2.putS 4 d ⟨BitVec.ofNat 32 r.1, x.poi || y.poi⟩ (cleanFlags (x.poi || y.poi) r.2) true) := by
  rw [getLsbD_31_eq, getLsbD_31_eq]
  exact issue_sBin ha hb 4 true _ d

end

/-- Settles O6: two sources by `issue_sBin`, the signs by bit 31, the compare, the fused form and the conversion by their own reads. -/
theorem scalarFloatForms : Obligations.ScalarFloatForms := by
  unfold Obligations.ScalarFloatForms
  intro s s1 s2 s3 d a b c cc k e rm x y z u v p fl out bit q
  refine ⟨fun ha hb => ?_, fun ha => ?_⟩
  · have lands (f : Nat → Nat → Nat × BitVec 11) := issue_sBin ha hb 4 true (fp2 f) d
    have signs (f : Bool → Bool → Bool) := issue_sgnInject ha hb f d
    exact ⟨lands (fp32.addSub rm false), lands (fp32.addSub rm true), lands (fp32.mul rm), lands (fp32.minMax false), lands (fp32.minMax true),
      lands (fp32.minMaxNum false), lands (fp32.minMaxNum true), signs fun _ n => n, signs fun _ n => !n, signs bne,
      issue_ok (iss_seq (readS2_ok ha hb) rfl), fun hc => exec_ffma ha hb hc d rm⟩
  · exact issue_sUn ha 4 true (fFcvt k rm) d

end Sys2Proof.Machine

/-! PROOFS. Two-source lanes (R93, R111, R114, R125): the issue of a form with two rows, and what its lane function gives in each class of types. -/
namespace Sys2Proof.Machine

/-- The saturating lane of an I type (R93): the clamped value, and SAT where it differs. -/
theorem vSat_eq (ty : BitVec 3) (g : Int → Int → Int) (u v : Nat) :
    let z := g (intVal (tyWidth ty) (tySigned ty) u) (intVal (tyWidth ty) (tySigned ty) v)
    let c := clampedI (tyWidth ty) (tySigned ty) z
    vSat ty g u v = (intBits (tyWidth ty) c, if c = z then 0#11 else 0x100#11) := by
  simp [vSat, clampI_eq, flagIf, fSAT]

theorem vAny_of_F {ty : BitVec 3} (h : tyIsF ty = true) (ff : Fmt → Nat → Nat → Nat × BitVec 11) (fi : Nat → Nat → Nat × BitVec 11) :
    vAny ty ff fi = ff (tyFmt ty) := by
  funext x y
  exact if_pos h
theorem vAny_of_I {ty : BitVec 3} (h : tyIsF ty = false) (ff : Fmt → Nat → Nat → Nat × BitVec 11) (fi : Nat → Nat → Nat × BitVec 11) :
    vAny ty ff fi = fi := by
  funext x y
  exact if_neg (by rw [h]; exact Bool.false_ne_true)
theorem vLat_of_F {ty : BitVec 3} (h : tyIsF ty = true) : vLat ty = 5 := if_pos h
theorem vLat_of_I {ty : BitVec 3} (h : tyIsF ty = false) : vLat ty = 2 := if_neg (by rw [h]; exact Bool.false_ne_true)

section
variable {s s1 s2 : State} {a b : BitVec 7} {x y : VRow}

theorem issue_vBin (ha : readV a s = .ok (x, s1)) (hb : readV b s1 = .ok (y, s2)) (lat : Nat) (ty : BitVec 3) (f : Nat → Nat → Nat × BitVec 11)
    (d : BitVec 7) (k : BitVec 3) : issue (vBin lat ty f d a b k) s = .next (s2.putRow lat d
      (RowW.of (tyWidth ty) (maskLanes (tyLanes ty) (s2.core.mreg k.toNat) (lane2 (tyWidth ty) x y f)))) :=
  issue_ok (iss_seq ha (iss_seq hb (iss_seq (readM_ok k s2) rfl)))

end

/-- Settles O15: each form by its class, the saturating ones by `vSat_eq`. -/
theorem vectorArithmetic : Obligations.VectorArithmetic := by
  unfold Obligations.VectorArithmetic
  intro s s1 s2 d a b k ty rm x y ha hb w sg m put int sat
  refine ⟨fun h => ?_, fun h => ?_⟩
  · have lands (ff : Fmt → Nat → Nat → Nat × BitVec 11) (g : Int → Int → Int) :
        issue (vBin (vLat ty) ty (vAny ty ff (vInt ty g)) d a b k) s = .next (put 5 (ff (tyFmt ty))) := by
      rw [vLat_of_F h, vAny_of_F h]
      exact issue_vBin ha hb 5 ty _ d k
    exact ⟨lands (fun f => f.addSub rm false) _, lands (fun f => f.addSub rm true) _, lands (fun f => f.mul rm) _,
      lands (fun f => f.minMax false) _, lands (fun f => f.minMax true) _,
      issue_vBin ha hb 5 ty ((tyFmt ty).minMaxNum false) d k, issue_vBin ha hb 5 ty ((tyFmt ty).minMaxNum true) d k⟩
  · have lands (ff : Fmt → Nat → Nat → Nat × BitVec 11) (g : Int → Int → Int) :
        issue (vBin (vLat ty) ty (vAny ty ff (vInt ty g)) d a b k) s = .next (put 2 (int g)) := by
      rw [vLat_of_I h, vAny_of_I h]
      exact issue_vBin ha hb 2 ty _ d k
    have clamps (g : Int → Int → Int) : issue (vBin 2 ty (vSat ty g) d a b k) s = .next (put 2 (sat g)) := by
      rw [show vSat ty g = sat g from funext fun u => funext fun v => vSat_eq ty g u v]
      exact issue_vBin ha hb 2 ty _ d k
    exact ⟨lands _ (· + ·), lands _ (· - ·), lands _ (· * ·), lands _ min, lands _ max, clamps (· + ·), clamps (· - ·)⟩

end Sys2Proof.Machine

/-! PROOFS. Lane compares: what a row of lane results makes of a mask register (R126). -/
namespace Sys2Proof.Machine

theorem upto_eq_range (n : Nat) : upto 0 n = List.range n := by rw [upto_eq_range', List.range_eq_range']

/-! ### A bit for each lane -/

theorem testBit_spread_one (l : List Bool) (i : Nat) : (spread 1 l).testBit i = l[i]?.getD false := by
  induction l generalizing i with
  | nil => simp [spread]
  | cons b r ih =>
    have step : spread 1 (b :: r) = Nat.bit b (spread 1 r) := by
      rw [spread]
      cases b
      · exact Nat.zero_add _
      · exact Nat.add_comm 1 _
    cases i with
    | zero => rw [step, Nat.testBit_bit_zero]; rfl
    | succ i => rw [step, Nat.testBit_bit_succ, ih]; rfl

/-- The mask register of a bit for each of n lanes. -/
def laneBits (n : Nat) (f : Nat → Bool) : BitVec 128 := BitVec.ofNat 128 (spread 1 ((upto 0 n).map f))
theorem getLsbD_laneBits {n i : Nat} (hn : n ≤ 128) (hi : i < n) (f : Nat → Bool) : (laneBits n f).getLsbD i = f i := by
  rw [laneBits, BitVec.getLsbD_ofNat, testBit_spread_one, upto_eq_range]
  simp [hi, hi.trans_le hn]
theorem getLsbD_laneBits_beyond {n i : Nat} (hi : n ≤ i) (f : Nat → Bool) : (laneBits n f).getLsbD i = false := by
  rw [laneBits, BitVec.getLsbD_ofNat, testBit_spread_one, upto_eq_range, List.getElem?_eq_none (by simpa using hi)]
  exact Bool.and_false _

/-! ### Flags of the lanes together -/

theorem getLsbD_cleanFlags (p : Bool) (f : BitVec 11) (j : Nat) : (cleanFlags p f).getLsbD j = (!p && f.getLsbD j) := by
  cases p
  · rfl
  · exact BitVec.getLsbD_zero

/-- A flag stands if it stood before, or one of the selected elements raises it. -/
theorem getLsbD_foldl_flags {α : Type} (c : α → Bool) (g : α → BitVec 11) (l : List α) (f : BitVec 11) (j : Nat) :
    (l.foldl (fun f r => if c r then f ||| g r else f) f).getLsbD j = (f.getLsbD j || l.any fun r => c r && (g r).getLsbD j) := by
  induction l generalizing f with
  | nil => exact (Bool.or_false _).symm
  | cons r l ih =>
    rw [List.foldl_cons, ih, List.any_cons]
    cases c r
    · rfl
    · rw [if_pos rfl, BitVec.getLsbD_or, Bool.true_and, Bool.or_assoc]

/-! ### The issue of vcmp -/

theorem tyLanes_le (ty : BitVec 3) : tyLanes ty ≤ 128 := by
  unfold tyLanes
  split <;> decide

/-- The result of lane i, with its flags. -/
def cmpLane (cc ty : BitVec 3) (x y : VRow) (i : Nat) : Bool × BitVec 11 := vCompare cc ty (x.lane (tyWidth ty) i) (y.lane (tyWidth ty) i)
/-- Lane i is poisoned if a source lane's word or its mask bit is. -/
def cmpPoi (ty : BitVec 3) (m : MaskReg) (x y : VRow) (i : Nat) : Bool := x.lpoi (tyWidth ty) i || y.lpoi (tyWidth ty) i || m.poi.getLsbD i

theorem exec_vcmp {s s1 s2 : State} {a b : BitVec 7} {x y : VRow} (ha : readV a s = .ok (x, s1)) (hb : readV b s1 = .ok (y, s2)) (cc md k ty : BitVec 3) :
    let n := tyLanes ty
    let m := s2.core.mreg k.toNat
    exec (.vcmp cc md a b k ty) s = .next (s2.later 2
      [.mreg md.toNat (laneBits n fun i => m.val.getLsbD i) (laneBits n fun i => (cmpLane cc ty x y i).1) (laneBits n (cmpPoi ty m x y))]
      ((upto 0 n).foldl (fun f i => if m.val.getLsbD i then f ||| cleanFlags (cmpPoi ty m x y i) (cmpLane cc ty x y i).2 else f) 0#11) true) := by
  refine (issue_ok (iss_seq ha (iss_seq hb (iss_seq (readM_ok k s2) rfl)))).trans ?_
  simp only [List.map_map, List.foldl_map]
  rfl

end Sys2Proof.Machine

/-! PROOFS. Floating-point order (R121, R126): what the patterns of a format are worth, and that the order of numbers is the order of what they
are worth. -/
namespace Sys2Proof.Machine

/-! ### Exact numbers -/

theorem shl_add (m : Int) {i j : Int} (hi : 0 ≤ i) (hj : 0 ≤ j) : shl m (i + j) = shl m i * (2 ^ j.toNat : Nat) := by
  rw [shl, shl, Int.toNat_add hi hj, pow_add, Nat.cast_mul, mul_assoc]
/-- Two exact numbers compare at any exponent that is not above theirs. -/
theorem shl_min_cmp {a b : Dy} {c : Int} (ha : c ≤ a.e) (hb : c ≤ b.e) :
    (shl a.m (a.e - min a.e b.e) < shl b.m (b.e - min a.e b.e) ↔ shl a.m (a.e - c) < shl b.m (b.e - c))
      ∧ (shl a.m (a.e - min a.e b.e) = shl b.m (b.e - min a.e b.e) ↔ shl a.m (a.e - c) = shl b.m (b.e - c)) := by
  have pos : (0 : Int) < (2 ^ (min a.e b.e - c).toNat : Nat) := by positivity
  rw [show a.e - c = (a.e - min a.e b.e) + (min a.e b.e - c) by omega, show b.e - c = (b.e - min a.e b.e) + (min a.e b.e - c) by omega,
    shl_add _ (by omega) (by omega), shl_add _ (by omega) (by omega)]
  exact ⟨(mul_lt_mul_iff_left₀ pos).symm, (mul_left_inj' pos.ne').symm⟩
theorem Dy.lt_eq {a b : Dy} {c : Int} (ha : c ≤ a.e) (hb : c ≤ b.e) : a.lt b = decide (shl a.m (a.e - c) < shl b.m (b.e - c)) :=
  decide_eq_decide.2 (shl_min_cmp ha hb).1
theorem Dy.eqv_eq {a b : Dy} {c : Int} (ha : c ≤ a.e) (hb : c ≤ b.e) : a.eqv b = decide (shl a.m (a.e - c) = shl b.m (b.e - c)) :=
  decide_eq_decide.2 (shl_min_cmp ha hb).2

/-! ### What a number is worth -/

/-- The integer of a sign and a magnitude. -/
def signMag (neg : Bool) (m : Nat) : Int := if neg then -(m : Int) else m
/-- What stands for an infinity: past every finite number of the format. -/
def Fmt.infNum (f : Fmt) : Nat := 2 ^ f.fb * 2 ^ (2 ^ f.eb - 2)

theorem Fmt.infNum_pos (f : Fmt) : 0 < f.infNum := Nat.mul_pos (Nat.two_pow_pos _) (Nat.two_pow_pos _)

/-- Between two magnitudes, the sign of the greater one alone decides. -/
theorem signMag_cmp_of_lt {m n : Nat} (h : m < n) (a b : Bool) : decide (signMag a m < signMag b n) = !b ∧ decide (signMag b n < signMag a m) = b
    ∧ decide (signMag a m = signMag b n) = false ∧ decide (signMag b n = signMag a m) = false := by
  cases a <;> cases b <;> simp [signMag] <;> omega
theorem signMag_cmp_signs {n : Nat} (h : 0 < n) (a b : Bool) : decide (signMag a n < signMag b n) = (a && !b) ∧ decide (signMag a n = signMag b n) = (a == b) := by
  cases a <;> cases b <;> simp [signMag] <;> omega

/-- A number of a format is worth n of its smallest subnormals. -/
inductive Fl.Worth (f : Fmt) : Fl → Int → Prop
  | inf (neg : Bool) : Worth f (.inf neg) (signMag neg f.infNum)
  | fin (neg : Bool) {m k n : Nat} (hn : m * 2 ^ k = n) (h : n < f.infNum) : Worth f (.fin neg m (f.qmin + k)) (signMag neg n)

theorem shl_signMag (neg : Bool) (m k : Nat) (q : Int) : shl (signMag neg m) (q + k - q) = signMag neg (m * 2 ^ k) := by
  cases neg <;> simp [shl, signMag]
/-- Two finite numbers compare at the exponent of the smallest subnormal. -/
theorem Dy.cmp_finite (f : Fmt) (a b : Bool) (m n k l : Nat) :
    (⟨signMag a m, f.qmin + k⟩ : Dy).lt ⟨signMag b n, f.qmin + l⟩ = decide (signMag a (m * 2 ^ k) < signMag b (n * 2 ^ l))
      ∧ (⟨signMag a m, f.qmin + k⟩ : Dy).eqv ⟨signMag b n, f.qmin + l⟩ = decide (signMag a (m * 2 ^ k) = signMag b (n * 2 ^ l)) := by
  have above (k : Nat) : f.qmin ≤ f.qmin + k := Int.le_add_of_nonneg_right (Int.natCast_nonneg k)
  rw [Dy.lt_eq (above k) (above l), Dy.eqv_eq (above k) (above l), shl_signMag, shl_signMag]
  exact ⟨rfl, rfl⟩

theorem Fl.Worth.isNan {f : Fmt} {x : Fl} {p : Int} (h : x.Worth f p) : x.isNan = false := by cases h <;> rfl

/-- The order of numbers is the order of what they are worth. -/
theorem Fl.cmp_of_worth {f : Fmt} {x y : Fl} {p q : Int} (hx : x.Worth f p) (hy : y.Worth f q) :
    x.less y = decide (p < q) ∧ x.same y = decide (p = q) := by
  cases hx with
  | inf a =>
    cases hy with
    | inf b =>
      obtain ⟨less, same⟩ := signMag_cmp_signs f.infNum_pos a b
      exact ⟨less.symm, same.symm⟩
    | fin b hn h =>
      obtain ⟨-, less, -, same⟩ := signMag_cmp_of_lt h b a
      exact ⟨less.symm, same.symm⟩
  | fin a hm h =>
    cases hy with
    | inf b =>
      obtain ⟨less, -, same, -⟩ := signMag_cmp_of_lt h a b
      exact ⟨less.symm, same.symm⟩
    | fin b hn h' =>
      subst hm hn
      exact Dy.cmp_finite f a b _ _ _ _

/-! ### What a pattern is worth -/

/-- The magnitude of a pattern, in units of the smallest subnormal. -/
def Fmt.mag (f : Fmt) (b : Nat) : Nat :=
  let ex := b % f.sgn / 2 ^ f.fb
  if ex = 0 then b % 2 ^ f.fb else (2 ^ f.fb + b % 2 ^ f.fb) * 2 ^ (ex - 1)

/-- A finite pattern is worth less than an infinity. -/
theorem Fmt.significand_lt_infNum {f : Fmt} {ex fr : Nat} (h0 : ex ≠ 0) (hex : ex < 2 ^ f.eb - 1) (hfr : fr < 2 ^ f.fb) :
    (2 ^ f.fb + fr) * 2 ^ (ex - 1) < f.infNum :=
  calc (2 ^ f.fb + fr) * 2 ^ (ex - 1)
    _ < (2 ^ f.fb * 2) * 2 ^ (ex - 1) := Nat.mul_lt_mul_of_pos_right (by omega) (by positivity)
    _ = 2 ^ f.fb * 2 ^ ex := by rw [mul_assoc, ← pow_succ', Nat.sub_add_cancel (by omega)]
    _ ≤ f.infNum := Nat.mul_le_mul_left _ (Nat.pow_le_pow_right (by decide) (by omega))

/-- A pattern that is no NaN stands for a number of its sign, worth its magnitude. -/
theorem Fmt.unpack_worth {f : Fmt} (ho : f.ocp = false) (he : 0 < f.eb) {b : Nat} (hb : b < 2 * f.sgn) (hn : (f.unpack b).isNan = false) :
    (f.unpack b).Worth f (signMag (decide (f.sgn ≤ b)) (f.mag b)) := by
  have sign : (b / f.sgn % 2 == 1) = decide (f.sgn ≤ b) := by
    have pos : 0 < f.sgn := Nat.two_pow_pos _
    by_cases h : f.sgn ≤ b
    · rw [show b / f.sgn = 1 from Nat.div_eq_of_lt_le (by omega) (by omega), decide_eq_true h]; rfl
    · rw [Nat.div_eq_of_lt (by omega), decide_eq_false h]; rfl
  have frac : b % f.sgn % 2 ^ f.fb = b % 2 ^ f.fb := Nat.mod_mod_of_dvd b (pow_dvd_pow 2 (Nat.le_add_left _ _))
  have hfr : b % 2 ^ f.fb < 2 ^ f.fb := Nat.mod_lt _ (Nat.two_pow_pos _)
  have hex : b % f.sgn / 2 ^ f.fb < 2 ^ f.eb := by
    rw [Nat.div_lt_iff_lt_mul (Nat.two_pow_pos _), ← pow_add]
    exact Nat.mod_lt _ (Nat.two_pow_pos _)
  simp only [Fmt.unpack, ho, sign, frac, Bool.false_eq_true, if_false] at hn ⊢
  unfold Fmt.mag
  dsimp only
  generalize b % f.sgn / 2 ^ f.fb = ex at hn hex ⊢
  by_cases htop : ex = 2 ^ f.eb - 1
  · by_cases hzero : b % 2 ^ f.fb = 0
    · have := Nat.pow_le_pow_right (n := 2) (by decide) he
      rw [if_pos htop, if_pos hzero, if_neg (by omega), hzero, htop]
      exact .inf _
    · rw [if_pos htop, if_neg hzero] at hn
      cases hn
  · rw [if_neg htop]
    by_cases hsub : ex = 0
    · rw [if_pos hsub, if_pos hsub, ← Int.add_zero f.qmin]
      exact .fin (k := 0) _ (Nat.mul_one _) (hfr.trans_le (Nat.le_mul_of_pos_right _ (Nat.two_pow_pos _)))
    · rw [if_neg hsub, if_neg hsub]
      exact .fin _ rfl (Fmt.significand_lt_infNum hsub (by omega) hfr)

/-! ### The formats of F types -/

theorem tyFmt_of_F {ty : BitVec 3} (h : tyIsF ty = true) :
    (tyFmt ty).ocp = false ∧ 0 < (tyFmt ty).eb ∧ (tyFmt ty).sgn = 2 ^ (tyWidth ty - 1) ∧ 2 ^ tyWidth ty = 2 * (tyFmt ty).sgn := by
  revert ty
  decide

/-! ### The compares -/

/-- Where an operand is a NaN, un alone holds (R121). -/
theorem Fmt.compare_of_nan {f : Fmt} {u v : Nat} (h : ((f.unpack u).isNan || (f.unpack v).isNan) = true) :
    (f.compare 0 u v).1 = false ∧ (f.compare 1 u v).1 = false ∧ (f.compare 2 u v).1 = false ∧ (f.compare 3 u v).1 = true := by
  unfold Fmt.compare
  dsimp only
  rw [h]
  exact ⟨rfl, rfl, rfl, rfl⟩
/-- Numbers compare by what they are worth. -/
theorem Fmt.compare_of_worth {f : Fmt} {u v : Nat} {p q : Int} (hu : (f.unpack u).Worth f p) (hv : (f.unpack v).Worth f q) :
    (f.compare 0 u v).1 = decide (p = q) ∧ (f.compare 1 u v).1 = decide (p < q) ∧ (f.compare 2 u v).1 = decide (p ≤ q) ∧ (f.compare 3 u v).1 = false := by
  obtain ⟨less, same⟩ := Fl.cmp_of_worth hu hv
  unfold Fmt.compare
  dsimp only
  rw [hu.isNan, hv.isNan, less, same]
  refine ⟨rfl, rfl, ?_, rfl⟩
  rw [decide_eq_decide.2 Int.le_iff_lt_or_eq, Bool.decide_or]
  rfl

/-- A compare of F lanes is one of the four compares of its format, by its condition code: ne inverts eq, gt and ge exchange the operands (R126). -/
theorem vCompare_of_F {ty : BitVec 3} (h : tyIsF ty = true) (u v : Nat) {P : Nat → Bool × BitVec 11 → Prop} (cc : BitVec 3)
    (eq : P 0 ((tyFmt ty).compare 0 u v)) (ne : P 1 (!((tyFmt ty).compare 0 u v).1, ((tyFmt ty).compare 0 u v).2))
    (lt : P 2 ((tyFmt ty).compare 1 u v)) (le : P 3 ((tyFmt ty).compare 2 u v)) (gt : P 4 ((tyFmt ty).compare 1 v u))
    (ge : P 5 ((tyFmt ty).compare 2 v u)) (un : ∀ n, P (n + 6) ((tyFmt ty).compare 3 u v)) : P cc.toNat (vCompare cc ty u v) := by
  unfold vCompare
  rw [if_pos h]
  generalize cc.toNat = n
  rcases n with _ | _ | _ | _ | _ | _ | n
  · exact eq
  · exact ne
  · exact lt
  · exact le
  · exact gt
  · exact ge
  · exact un n

section
variable {ty : BitVec 3} (h : tyIsF ty = true) {u v : Nat}
include h

/-- Where a lane is a NaN, ne and un alone hold (R126). -/
theorem vCompare_of_nan (hn : (((tyFmt ty).unpack u).isNan || ((tyFmt ty).unpack v).isNan) = true) (cc : BitVec 3) :
    (vCompare cc ty u v).1 = (cc.toNat == 1 || decide (6 ≤ cc.toNat)) := by
  obtain ⟨eq, lt, le, un⟩ := Fmt.compare_of_nan hn
  obtain ⟨-, gt, ge, -⟩ := Fmt.compare_of_nan ((Bool.or_comm _ _).trans hn)
  exact vCompare_of_F h u v cc (P := fun n r => r.1 = (n == 1 || decide (6 ≤ n))) eq (congrArg not eq) lt le gt ge
    fun n => un.trans (decide_eq_true (Nat.le_add_left 6 n)).symm

/-- A compare is invalid: lt, le, gt and ge of any NaN, the others of a signalling one (R97). -/
def cmpInvalid (n : Nat) (x y : Fl) : Bool := if 2 ≤ n ∧ n ≤ 5 then x.isNan || y.isNan else x.isSnan || y.isSnan
theorem vCompare_flags (cc : BitVec 3) :
    (vCompare cc ty u v).2 = flagIf (cmpInvalid cc.toNat ((tyFmt ty).unpack u) ((tyFmt ty).unpack v)) fNV := by
  refine vCompare_of_F h u v cc (P := fun n r => r.2 = flagIf (cmpInvalid n ((tyFmt ty).unpack u) ((tyFmt ty).unpack v)) fNV)
    rfl rfl rfl rfl ?gt ?ge fun n => ?un
  case gt =>
    rw [cmpInvalid, Bool.or_comm]
    rfl
  case ge =>
    rw [cmpInvalid, Bool.or_comm]
    rfl
  case un =>
    have late : ¬(2 ≤ n + 6 ∧ n + 6 ≤ 5) := by omega
    rw [cmpInvalid, if_neg late]
    rfl

/-- The relation of a condition code between two numbers; un holds of none. -/
def numRel (n : Nat) (p q : Int) : Bool :=
  match n with
  | 0 => decide (p = q) | 1 => decide (p ≠ q) | 2 => decide (p < q) | 3 => decide (p ≤ q) | 4 => decide (q < p) | 5 => decide (q ≤ p) | _ => false
theorem vCompare_of_worth {p q : Int} (hu : ((tyFmt ty).unpack u).Worth (tyFmt ty) p) (hv : ((tyFmt ty).unpack v).Worth (tyFmt ty) q) (cc : BitVec 3) :
    (vCompare cc ty u v).1 = numRel cc.toNat p q := by
  obtain ⟨eq, lt, le, un⟩ := Fmt.compare_of_worth hu hv
  obtain ⟨-, gt, ge, -⟩ := Fmt.compare_of_worth hv hu
  exact vCompare_of_F h u v cc (P := fun n r => r.1 = numRel n p q) eq ((congrArg not eq).trans (decide_not ..).symm) lt le gt ge fun _ => un

end

/-- Settles O18: each lane's bit by `exec_vcmp`, and the relations and flags of each class of types by the condition code. -/
theorem vectorCompare : Obligations.VectorCompare := by
  unfold Obligations.VectorCompare
  intro s s1 s2 cc md a b k ty x y ha hb w m
  refine ⟨?lanes, fun u v h => ?integers, fun u v h nan => ?nans, fun u v h => ?flags, fun u v h hu hv cleanU cleanV => ?numbers⟩
  case lanes =>
    refine ⟨_, _, _, _, exec_vcmp ha hb cc md k ty, fun i hi => ?_, fun i hi => getLsbD_laneBits_beyond hi _, fun j hj => ?_⟩
    · have bit := getLsbD_laneBits (tyLanes_le ty) hi
      exact ⟨bit _, bit _, bit _⟩
    · rw [getLsbD_foldl_flags, BitVec.getLsbD_zero, Bool.false_or, upto_eq_range]
      simp only [getLsbD_cleanFlags, Bool.and_assoc]
      rfl
  case integers =>
    have ints : tyIsF ty ≠ true := by rw [h]; exact Bool.false_ne_true
    exact ⟨congrArg Prod.snd (if_neg ints), congrArg Prod.fst (if_neg ints)⟩
  case nans => exact vCompare_of_nan h nan cc
  case flags => exact vCompare_flags h cc
  case numbers =>
    intro fb num
    obtain ⟨ocp, eb, sgn, width⟩ := tyFmt_of_F h
    have value (b : Nat) : signMag (decide ((tyFmt ty).sgn ≤ b)) ((tyFmt ty).mag b) = num b := by
      rw [Fmt.mag, sgn]
      rcases Nat.lt_or_ge b (2 ^ (w - 1)) with hlt | hge
      · rw [decide_eq_false (Nat.not_le.2 hlt)]
        exact (if_pos hlt).symm
      · rw [decide_eq_true hge]
        exact (if_neg (Nat.not_lt.2 hge)).symm
    have worth {b : Nat} (hb : b < 2 ^ w) (hn : ((tyFmt ty).unpack b).isNan = false) : ((tyFmt ty).unpack b).Worth (tyFmt ty) (num b) :=
      value b ▸ Fmt.unpack_worth ocp eb (width ▸ hb) hn
    exact vCompare_of_worth h (worth hu cleanU) (worth hv cleanV) cc

end Sys2Proof.Machine

/-! PROOFS. The lease, the latch load, and what clears the accumulators (R137 to R144, R147, R159, R162). -/
namespace Sys2Proof.Machine

/-! ### The lease (R137 to R143) -/

/-- A core that holds the lease or has a request pending, as a further request judges it. -/
theorem leased_or_pending_iff (s : State) :
    (s.leased || s.leasePending) = true ↔ s.here.leaseCore = some s.curC ∨ ∃ j, (s.curC, j) ∈ s.here.leaseReq := by
  rw [Bool.or_eq_true, ← asks_iff s.here s.curC]
  exact or_congr beq_iff_eq Iff.rfl
theorem needLease_ok {s : State} (h : s.here.leaseCore = some s.curC) : needLease s = .ok ((), s) := need_ok (beq_iff_eq.2 h) _ _ _ s

theorem exec_lease_of_free {s : State} {k : BitVec 5} (h : ¬(s.here.leaseCore = some s.curC ∨ ∃ j, (s.curC, j) ∈ s.here.leaseReq)) (hk : s.TokenFree k) :
    exec (.lease k) s = .next ((s.posting k).upHere fun x => { x with leaseReq := x.leaseReq ++ [(s.curC, k.toNat)] }) := by
  rw [← leased_or_pending_iff, Bool.not_eq_true] at h
  exact issue_ok (iss_seq (need_ok (by rw [h]; rfl) _ _ _ s) (iss_seq (token_ok hk) rfl))
theorem exec_lease_of_held {s : State} (k : BitVec 5) (h : s.here.leaseCore = some s.curC ∨ ∃ j, (s.curC, j) ∈ s.here.leaseReq) :
    exec (.lease k) s = .next (s.raise { cause := cLease, slot := s.slot }) := by
  rw [← leased_or_pending_iff] at h
  exact issue_error (iss_bind_error (need_error (by rw [h]; rfl) _ _ _ s))

/-- A request that ends takes 1 from its token's in-flight count. -/
def Core.unpost (c : Core) (k : Nat) : Core := c.setTok k { c.token k with infl := (c.token k).infl - 1 }
/-- What the end of a lease leaves of the tile, but for the tokens of the requests that end with it. -/
def Tile.unheld (x : Tile) (c : Nat) : Tile :=
  { x with leaseCore := if x.leaseCore = some c then none else x.leaseCore, leaseLast := if x.leaseCore = some c then some c else x.leaseLast
           leaseReq := x.leaseReq.filter fun r => r.1 != c }
theorem dropLease_eq (x : Tile) (c : Nat) : x.dropLease c =
    (x.leaseReq.filter fun r => r.1 == c).foldl (fun x r => x.upC c fun y => y.unpost r.2) (x.unheld c) := by
  unfold Tile.dropLease Tile.unheld
  by_cases h : x.leaseCore = some c
  · simp only [h, beq_self_eq_true, if_true]; rfl
  · simp only [beq_eq_false_iff_ne.2 h, if_neg h, Bool.false_eq_true, if_false]; rfl
theorem dropLease_lease (x : Tile) (c : Nat) : (x.dropLease c).leaseCore = (if x.leaseCore = some c then none else x.leaseCore)
    ∧ (x.dropLease c).leaseReq = x.leaseReq.filter fun r => r.1 != c := by
  rw [dropLease_eq]
  constructor
  · exact foldl_keeps Tile.leaseCore (fun y r => Tile.setCore_leaseCore y c _) _ _
  · exact foldl_keeps Tile.leaseReq (fun y r => Tile.setCore_leaseReq y c _) _ _
/-- A core has one request at most: its token alone changes. -/
theorem core_dropLease_of_request {x : Tile} {c n : Nat} (h : x.leaseReq.filter (fun r => r.1 == c) = [(c, n)]) :
    (x.dropLease c).core c = (x.core c).unpost n := by
  rw [dropLease_eq, h]
  exact Tile.core_setCore _ c _

/-- The end of a lease lands (R143). -/
theorem tile_landEff_unlease (s : State) (t c : Nat) (p : Pend) : (s.landEff t c p .unlease).tile t = (s.tile t).dropLease c := State.tile_setTile s t _

/-! ### The accumulators (R147, R159) -/

theorem sget_filter_key {α : Type} (d : α) (f : Nat → Bool) (m : SMap α) (k : Nat) :
    sget d (m.filter fun e => f e.1) k = if f k = true then sget d m k else d := by
  induction m with
  | nil => exact (ite_self d).symm
  | cons e r ih =>
    obtain ⟨a, v⟩ := e
    by_cases hk : a = k
    · subst hk
      cases ha : f a <;> simp [sget, ha, ih]
    · cases ha : f a <;> simp [sget, ha, ih, hk]
/-- Rows 0 to 63 are accumulator 0, rows 64 to 127 accumulator 1: each row of the one that is cleared becomes +0. -/
theorem vreg_clearAcc (c : Core) (acc : Bool) (n : Nat) :
    (c.clearAcc acc).vreg n = if (n < 64 ∧ acc = false) ∨ (64 ≤ n ∧ acc = true) then {} else c.vreg n := by
  have kept : (c.clearAcc acc).vreg n = if (decide (n < 64) == acc) = true then c.vreg n else {} := by
    cases acc
    · exact sget_filter_key {} (fun k => decide (k < 64) == false) c.v n
    · exact sget_filter_key {} (fun k => decide (k < 64) == true) c.v n
  rw [kept]
  rcases Nat.lt_or_ge n 64 with hn | hn
  · cases acc <;> simp [hn, Nat.not_le.2 hn]
  · cases acc <;> simp [hn, Nat.not_lt.2 hn]

theorem coreAt_landEff_accz (s : State) (t c : Nat) (p : Pend) (acc : Bool) :
    (s.landEff t c p (.accz acc)).coreAt t c = (s.coreAt t c).clearAcc acc := State.coreAt_setTile s t c _ _
theorem coreAt_landEff_amode (s : State) (t c : Nat) (p : Pend) (sat : Bool) :
    (s.landEff t c p (.amode sat)).coreAt t c = { s.coreAt t c with satm := sat } := State.coreAt_setTile s t c _ _

/-! ### The latch load (R144, R162) -/

theorem inSpan_eq_false {l : List (Nat × Nat)} {c : Nat} (h : ∀ r ∈ l, ¬(r.1 ≤ c ∧ c ≤ r.2)) : inSpan l c = false := by
  simpa only [inSpan, List.any_eq_false, Bool.and_eq_true, decide_eq_true_eq] using h
theorem mem_upto_zero {j n : Nat} : j ∈ upto 0 n ↔ j < n := by rw [upto_eq_range, List.mem_range]
/-- In tile cycles lo to hi the vertical buses of all 64 slices are free. -/
theorem buses_free {l : List Path} {lo hi : Nat} (h : ∀ p ∈ l, ∀ j < 64, p.onBus j lo hi = false) :
    (l.any fun p => (upto 0 64).any fun j => p.onBus j lo hi) = false := by
  simp only [List.any_eq_false, mem_upto_zero, Bool.not_eq_true]
  exact h

/-- Settles O22: the requests by whether one stands, what lands by the operation on the tile or the core, lwt by its checks in order. -/
theorem leaseLatchAndModes : Obligations.LeaseLatchAndModes := by
  unfold Obligations.LeaseLatchAndModes
  refine ⟨?_, ?_⟩
  · intro s k acc t c n p held
    obtain ⟨ended, requests⟩ := dropLease_lease (s.tile t) c
    have unlease := tile_landEff_unlease s t c p
    refine ⟨exec_lease_of_free, exec_lease_of_held k, rfl, rfl, rfl, rfl, ?_, ?_, ?_, ?_, fun one => ?_⟩
    · rw [coreAt_landEff_accz, vreg_clearAcc]
    · rw [coreAt_landEff_amode]
    · rw [unlease, ended]
    · rw [unlease, requests]
    · have core : (s.landEff t c p .unlease).coreAt t c = (s.coreAt t c).unpost n :=
        (congrArg (Tile.core · c) unlease).trans (core_dropLease_of_request one)
      rw [core]
      exact ⟨(Core.token_setTok _ n n _).trans (if_pos rfl), fun j hj => (Core.token_setTok _ n j _).trans (if_neg hj)⟩
  · intro s w ar bt st c a o n x now b hl ha hs spans latch buses
    have free : (!(inSpan x.lwtSpans b || decide (b < sget 0 x.latchRead w.toNat)
        || x.paths.any fun p => (upto 0 64).any fun j => p.onBus j b (b + n - 1))) = true := by
      rw [inSpan_eq_false spans, decide_eq_false (Nat.not_lt.2 latch), buses_free buses]
      rfl
    exact issue_ok (iss_seq (needLease_ok hl) (iss_seq (readA_ok ar s) (iss_seq (access_addr ha s) (iss_seq (access_clean ha s)
      (iss_seq (starts_ok hs) (iss_seq (need_ok free _ _ _ s) rfl))))))

end Sys2Proof.Machine

/-! PROOFS. Array commands: the check of the latch at issue (R136, R153, R206). -/
namespace Sys2Proof.Machine

/-- A command without a start offset, or whose offset names the present cycle of the issuer's clock, is judged by the latch as it stands: where
that does not fit its type, it takes the format fault. -/
theorem exec_mma_of_misfit {s : State} {ar : BitVec 4} {bt : BitVec 7} {ty : BitVec 4} {st : BitVec 9} {w : BitVec 2}
    (hl : s.here.leaseCore = some s.curC)
    (ha : Access (s.core.bank.areg ar.toNat) (s.core.bank.areg ar.toNat).val.toNat (bt.toNat * arrRowBytes ty.toNat) 64 tmSize)
    (hs : st = 0#9 ∨ s.clock = 16 * st.toNat) (hf : s.here.latchFits ty.toNat w.toNat = false) (acc : Bool) :
    exec (.mma acc w ar bt ty st) s = .next (s.raise { cause := cFormat, slot := s.slot }) := by
  have judged : ((st != 0#9 && decide (s.clock ≠ 16 * st.toNat)) || s.here.latchFits ty.toNat w.toNat) = false := by
    rw [hf]
    rcases hs with h | h <;> simp [h]
  exact issue_error (iss_seq (needLease_ok hl) (iss_seq (need_ok rfl _ _ _ s) (iss_seq (readA_ok ar s) (iss_seq rfl (iss_seq rfl
    (iss_seq (access_addr ha s) (iss_bind_error (need_error judged _ _ _ s))))))))

/-- A column whose block at P0 is no block of the class keeps a latch from fitting. -/
theorem latchFits_eq_false {x : Tile} {ty w j : Nat} (hs : arrSb ty = true) (hj : j < 64)
    (hb : sbOk (sbPos (latchCol x.latch x.latchPoi w j).1 0) (arrM ty) = false) : x.latchFits ty w = false := by
  have fault : (sbRowFault (arrM ty) (latchCol x.latch x.latchPoi w j).1).isNone = false := by
    simp only [sbRowFault, hb, Bool.not_false, if_true, Option.isNone_some]
  rw [Tile.latchFits, hs, Bool.not_true, Bool.false_or, List.all_eq_false]
  exact ⟨j, mem_upto_zero.2 hj, by rw [fault]; exact Bool.false_ne_true⟩

/-- The monitor of a core that holds the lease, in tile cycle 112, its task stopped at task cycle 100. The first byte of latch 0 is 1, the
format byte of no SB block. -/
def monitorAt112 : State :=
  { gcyc := 112, tiles := [(0, { leaseCore := some 0, latch := [(0, 1#8)], cores := [(0, { mode := .monitor, tsk := 100 })] })] }
theorem monitorAt112_misfit : monitorAt112.here.latchFits (8#4).toNat (0#2).toNat = false :=
  latchFits_eq_false (j := 0) rfl (by decide) (by decide +kernel)
/-- Its a0 reads 0, and tile memory there is free to read. -/
theorem monitorAt112_source :
    Access (monitorAt112.core.bank.areg 0) 0 (8 * arrRowBytes 8) 64 tmSize ∧ monitorAt112.ClearOf 0 0 (8 * arrRowBytes 8) :=
  ⟨⟨by decide, by decide, rfl⟩, fun strict => absurd strict (by decide)⟩
/-- The task cycle that offset 7 names is 12 cycles on. -/
theorem monitorAt112_startsAt : monitorAt112.StartsAt 7#9 124 := (if_neg (by decide)).mpr ⟨by decide, rfl⟩

/-- Refutes O23: in the monitor a start offset counts task cycles, but the latch is judged at issue where the offset names the tile cycle.
In `monitorAt112` offset 7 names cycle 124, so that the latch need not fit at issue; yet 16 · 7 is the tile cycle, and the mma takes the format
fault instead of entering the array. -/
theorem not_arrayCommands : ¬ Obligations.ArrayCommands := by
  unfold Obligations.ArrayCommands
  intro h
  have fault : exec (.mma false 0#2 0#4 8#7 8#4 7#9) monitorAt112 = .next (monitorAt112.raise { cause := cFormat, slot := monitorAt112.slot }) :=
    exec_mma_of_misfit rfl monitorAt112_source.1 (.inr rfl) monitorAt112_misfit false
  obtain ⟨enters, -⟩ := h monitorAt112 false 0#2 0#4 8#7 8#4 7#9 124
  obtain ⟨entered, -⟩ := enters ⟨rfl, monitorAt112_startsAt, fun now => absurd now (by decide), by decide, by decide⟩ monitorAt112_source
  have raised : (monitorAt112.raise { cause := cFormat, slot := monitorAt112.slot }).raised = none :=
    congrArg State.raised (Host.Outcome.next.inj (fault.symm.trans entered))
  rw [raise_raised] at raised
  cases raised

end Sys2Proof.Machine

/-! PROOFS. Accumulator moves: accld and accret enter the retire path (R160 to R164, R206). -/
namespace Sys2Proof.Machine

theorem core_setTile_here (s : State) (x : Tile) : (s.setTile s.curT x).core = x.core s.curC := congrArg (Tile.core · s.curC) (s.here_setTile x)
/-- The clock is that of the core, or of the tile where the core is in the monitor: a tile that keeps both keeps it. -/
theorem clock_setTile_here {s : State} {x : Tile} (hl : x.lag = s.here.lag) (hm : (x.core s.curC).inMon = s.core.inMon)
    (ht : (x.core s.curC).tsk = s.core.tsk) : (s.setTile s.curT x).clock = s.clock := by
  have tile : (s.setTile s.curT x).tcyc s.curT = s.tcyc s.curT := by
    rw [State.tcyc, State.tile_setTile, hl]
    rfl
  rw [State.clock, core_setTile_here, hm, ht, State.setTile_curT, tile]
  rfl
theorem clock_addPath (s : State) (p : Path) : (s.addPath p).clock = s.clock := clock_setTile_here rfl rfl rfl
theorem clock_upCore {s : State} {f : Core → Core} (hm : (f s.core).inMon = s.core.inMon) (ht : (f s.core).tsk = s.core.tsk) :
    (s.upCore f).clock = s.clock := by
  have core : (s.here.setCore s.curC (f s.core)).core s.curC = f s.core := Tile.core_setCore _ _ _
  exact clock_setTile_here rfl ((congrArg Core.inMon core).trans hm) ((congrArg Core.tsk core).trans ht)
theorem Core.openAcc_progress (c : Core) (acc : Bool) (n rows : Nat) :
    (c.openAcc acc n rows).inMon = c.inMon ∧ (c.openAcc acc n rows).tsk = c.tsk := by
  unfold Core.openAcc
  split <;> exact ⟨rfl, rfl⟩

/-- Settles O24: the checks in order; the path enters without a change of the clock, so that row 0 is read where the start is the present cycle. -/
theorem accumulatorMoves : Obligations.AccumulatorMoves := by
  unfold Obligations.AccumulatorMoves
  intro s acc ar cv rw st c a ea n len b path no busy open' enter ld ret ha hc hs spans
  have free : (!inSpan s.core.retSpans b) = true := by rw [inSpan_eq_false spans]; rfl
  have passes {kind : Bool} {u : State} (h : act _ s = .ok ((), u)) : issue (retOp kind acc ar cv rw st) s = .next u :=
    issue_ok (iss_seq (readA_ok ar s) (iss_seq (access_addr ha s) (iss_seq (access_clean ha s) (iss_seq (clear_ok hc)
      (iss_seq (starts_ok hs) (iss_seq (need_ok free _ _ _ s) h))))))
  have first {u v : State} (hu : u.clock = s.clock) : (if c = u.clock then v else u) = if c = s.clock then v else u := by rw [hu]
  obtain ⟨mode, tsk⟩ := (busy s.core).openAcc_progress acc no n
  refine ⟨passes (congrArg (fun u => Except.ok ((), u)) (first ?_)), passes (congrArg (fun u => Except.ok ((), u)) (first ?_))⟩
  · exact (clock_addPath _ _).trans (clock_upCore mode tsk)
  · exact (clock_addPath _ _).trans (clock_upCore rfl rfl)

end Sys2Proof.Machine

/-! PROOFS. Summary commands: their way into the queue of sixteen, and the records and destinations they take on it (R176, R179, R198, R226). -/
namespace Sys2Proof.Machine

/-- A summary command that posts k is in its core's queue: what f makes of an entry with its place in the program and its time. -/
def State.enqueued (s : State) (k : BitVec 5) (f : SumCmd → SumCmd) : State := s.upCore fun y => { y with sumQ := y.sumQ ++ [f
  { op := 0, k := k.toNat, mon := s.core.inMon, id := s.core.seq, slot := s.slot, pc := s.core.pc, issue := s.tcyc s.curT }] }

/-- The strict-mode record of a command is taken, and the summary queue is as it was. -/
structure Records (tr : Iss Unit) (s t : State) : Prop where
  run : tr s = .ok ((), t)
  sumQ : t.core.sumQ = s.core.sumQ
  slot : t.slot = s.slot

theorem records_none (s : State) : Records (pure ()) s s := ⟨rfl, rfl, rfl⟩
theorem records_track {s : State} (h : s.RecordFree) (sp lo n m : Nat) (k : BitVec 5) : Records (track sp lo n k m) s (s.tracking sp lo n k m) := by
  refine ⟨record_ok h, ?_, ?_⟩ <;> unfold State.tracking <;> split
  · rw [State.upCore_eq, State.core_setTile]
  · rfl
  · rfl
  · rfl

theorem posting_sumQ (s : State) (k : BitVec 5) : (s.posting k).core.sumQ = s.core.sumQ := by
  rw [posting_core]
  rfl

section
variable {s t : State} {k : BitVec 5} {tr : Iss Unit} (hk : s.TokenFree k) (hr : Records tr (s.posting k) t)
include hk hr

theorem skEnter_of_room (f : State → SumCmd → SumCmd) (hq : s.core.sumQ.length < 16) : skEnter k f tr s = .ok ((), t.enqueued k (f t)) := by
  have room : decide (t.core.sumQ.length < 16) = true := by rw [hr.sumQ, posting_sumQ, decide_eq_true hq]
  exact iss_seq (token_ok hk) (iss_seq hr.run (iss_seq (need_ok room _ _ _ t) rfl))
theorem skEnter_of_full (f : State → SumCmd → SumCmd) (hq : 16 ≤ s.core.sumQ.length) : skEnter k f tr s = .error { cause := cSched, slot := s.slot } := by
  have full : decide (t.core.sumQ.length < 16) = false := by rw [hr.sumQ, posting_sumQ, decide_eq_false (Nat.not_lt.2 hq)]
  have slot : t.slot = s.slot := hr.slot
  rw [← slot]
  exact iss_seq (token_ok hk) (iss_seq hr.run (iss_bind_error (need_error full _ _ _ t)))

end

/-! ### Queries -/

/-- A query is in the queue: an SDQ destination is reserved, and a scalar one tracked (R226, R236). -/
def State.queried (s : State) (d : BitVec 6) (k : BitVec 5) (f : SumCmd → SumCmd) : State :=
  if s.core.sAlias d then ((s.upCore fun c => c.setBank (c.bank.reserveSdq false)).posting k).enqueued k fun c => { f c with q := some s.core.bank.sdqSeq }
  else ((s.posting k).tracking (if s.core.inMon then 3 else 2) d.toNat 1 k).enqueued k f

theorem Core.setBank_commands (c : Core) (b : Bank) : (c.setBank b).tok = c.tok ∧ (c.setBank b).sumQ = c.sumQ := by
  unfold Core.setBank
  split <;> exact ⟨rfl, rfl⟩
/-- A reserved SDQ entry leaves the tokens and the summary queue. -/
theorem tokenFree_upCore_setBank {s : State} {k : BitVec 5} (h : s.TokenFree k) (f : Core → Bank) : (s.upCore fun c => c.setBank (f c)).TokenFree k := by
  unfold State.TokenFree Core.token
  rw [State.upCore_eq, State.core_setTile, (Core.setBank_commands _ _).1]
  exact h
theorem sumQ_upCore_setBank (s : State) (f : Core → Bank) : (s.upCore fun c => c.setBank (f c)).core.sumQ = s.core.sumQ := by
  rw [State.upCore_eq, State.core_setTile, (Core.setBank_commands _ _).2]

section
variable {s : State} {k : BitVec 5} (hk : s.TokenFree k) (hr : s.RecordFree) (d : BitVec 6) (f : SumCmd → SumCmd)
include hk hr

theorem skDest_of_room (hq : s.core.sumQ.length < 16) : skDest d k (fun _ => f) s = .ok ((), s.queried d k f) := by
  unfold skDest State.queried
  split
  · exact skEnter_of_room (tokenFree_upCore_setBank hk _) (records_none _) _ (by rw [sumQ_upCore_setBank]; exact hq)
  · exact skEnter_of_room hk (records_track (posting_record hr) _ _ _ _ _) _ hq
theorem skDest_of_full (hq : 16 ≤ s.core.sumQ.length) : skDest d k (fun _ => f) s = .error { cause := cSched, slot := s.slot } := by
  unfold skDest
  split
  · exact skEnter_of_full (tokenFree_upCore_setBank hk _) (records_none _) _ (by rw [sumQ_upCore_setBank]; exact hq)
  · exact skEnter_of_full hk (records_track (posting_record hr) _ _ _ _ _) _ hq

end

/-! ### Commands with an address -/

/-- A check or read that passes and changes nothing drops out of an issue, whatever the rest comes to. -/
theorem issue_of_passed {α : Type} {m : Iss α} {f : α → Iss Unit} {s : State} {a : α} (h : m s = .ok (a, s)) : issue (m >>= f) s = issue (f a) s := by
  unfold issue
  rw [iss_bind_ok h]

section
variable {s : State} {ar : BitVec 4} (z : BitVec 3) (k : BitVec 5)

theorem exec_skld (ha : Access (s.core.bank.areg ar.toNat) (s.core.bank.areg ar.toNat).val.toNat 4096 64 tmSize)
    (hc : s.ClearOf 0 (s.core.bank.areg ar.toNat).val.toNat 4096) :
    exec (.skld z ar k) s = issue (skEnter k fun _ c => { c with op := 0x18, z := z.toNat, addr := (s.core.bank.areg ar.toNat).val.toNat }) s :=
  (issue_of_passed (readA_ok ar s)).trans ((issue_of_passed (access_addr ha s)).trans ((issue_of_passed (access_clean ha s)).trans (issue_of_passed (clear_ok hc))))
theorem exec_skst (ha : Access (s.core.bank.areg ar.toNat) (s.core.bank.areg ar.toNat).val.toNat 4096 64 tmSize) :
    exec (.skst z ar k) s = issue (skEnter k (fun _ c => { c with op := 0x19, z := z.toNat, addr := (s.core.bank.areg ar.toNat).val.toNat })
      (track 0 (s.core.bank.areg ar.toNat).val.toNat 4096 k)) s :=
  (issue_of_passed (readA_ok ar s)).trans ((issue_of_passed (access_addr ha s)).trans (issue_of_passed (access_clean ha s)))

/-- The record of an sktop of n bytes, under the number by which the command finds it again (log 56). -/
def trackTop (ea n : Nat) (k : BitVec 5) : Iss Unit := fun s => track 0 ea n k (2 * (8 * s.core.seq + s.slot) + 2) s
theorem records_trackTop (hr : s.RecordFree) (ea n : Nat) :
    Records (trackTop ea n k) (s.posting k) ((s.posting k).tracking 0 ea n k (2 * (8 * s.core.seq + s.slot) + 2)) := by
  have seq : (s.posting k).core.seq = s.core.seq := by rw [posting_core]; rfl
  obtain ⟨run, sumQ, slot⟩ := records_track (posting_record hr) 0 ea n (2 * (8 * s.core.seq + s.slot) + 2) k
  refine ⟨?_, sumQ, slot⟩
  rw [← run, ← seq]
  rfl
theorem exec_sktop (h64 : (s.core.bank.areg ar.toNat).val.toNat % 64 = 0) (hp : (s.core.bank.areg ar.toNat).poi = false) :
    exec (.sktop z ar k) s = issue (skEnter k (fun _ c => { c with op := 0x17, z := z.toNat, addr := (s.core.bank.areg ar.toNat).val.toNat })
      (trackTop (s.core.bank.areg ar.toNat).val.toNat (s.core.topAhead z.toNat) k)) s :=
  (issue_of_passed (readA_ok ar s)).trans ((issue_of_passed (need_ok (beq_iff_eq.2 h64) _ _ _ s)).trans
    ((issue_of_passed (by rw [hp]; rfl)).trans (issue_of_passed rfl)))

end

/-! ### The statement -/

/-- Settles O26: what a form reads and checks stands before its way into the queue, which has room or is full. -/
theorem summaryCommands : Obligations.SummaryCommands := by
  unfold Obligations.SummaryCommands
  intro s s1 z zs size k r d v mk ar x row put room enter a ea query
  refine ⟨fun ⟨hk, hq⟩ => ?_, fun hx ⟨hk, hq⟩ => ?_, fun hx ⟨hk, hq⟩ => ?_, fun hk hq i hi => ?_, fun hk hr hq => ?_, fun hk hr hq => ?_⟩
  · have enters (f : SumCmd → SumCmd) : skEnter k (fun _ => f) (pure ()) s = .ok ((), enter f) := skEnter_of_room hk (records_none _) _ hq
    refine ⟨issue_ok (enters _), issue_ok (enters _), issue_ok (enters _), issue_ok (enters _), issue_ok (enters _),
      fun hr => issue_ok (skDest_of_room hk hr d _ hq), fun ha => ⟨fun hc => ?_, fun hr => ?_⟩, fun h64 hp hr => ?_⟩
    · exact (exec_skld z k ha hc).trans (issue_ok (enters _))
    · exact (exec_skst z k ha).trans (issue_ok (skEnter_of_room hk (records_track (posting_record hr) _ _ _ _ _) _ hq))
    · exact (exec_sktop z k h64 hp).trans (issue_ok (skEnter_of_room hk (records_trackTop k hr _ _) _ hq))
  · exact ⟨issue_ok (iss_seq hx (skEnter_of_room hk (records_none _) _ hq)), fun hr =>
      ⟨issue_ok (iss_seq hx (skDest_of_room hk hr d _ hq)), issue_ok (iss_seq hx (skDest_of_room hk hr d _ hq))⟩⟩
  · exact issue_ok (iss_seq hx (iss_seq (readM_ok mk s1) (skEnter_of_room hk (records_none _) _ hq)))
  · have full (f : State → SumCmd → SumCmd) : issue (skEnter k f) s = .next (s.raise { cause := cSched, slot := s.slot }) :=
      issue_error (skEnter_of_full hk (records_none _) f hq)
    simp only [List.mem_cons, List.not_mem_nil, or_false] at hi
    rcases hi with rfl | rfl | rfl | rfl | rfl <;> exact full _
  · refine ⟨issue_error (skDest_of_full hk hr d _ hq), fun ha => ⟨?_, fun hc => ?_⟩, fun h64 hp => ?_⟩
    · exact (exec_skst z k ha).trans (issue_error (skEnter_of_full hk (records_track (posting_record hr) _ _ _ _ _) _ hq))
    · exact (exec_skld z k ha hc).trans (issue_error (skEnter_of_full hk (records_none _) _ hq))
    · exact (exec_sktop z k h64 hp).trans (issue_error (skEnter_of_full hk (records_trackTop k hr _ _) _ hq))
  · refine ⟨fun hx => ⟨?_, ?_, ?_⟩, fun hx => ?_⟩
    · exact issue_error (iss_seq hx (skEnter_of_full hk (records_none _) _ hq))
    · exact issue_error (iss_seq hx (skDest_of_full hk hr d _ hq))
    · exact issue_error (iss_seq hx (skDest_of_full hk hr d _ hq))
    · exact issue_error (iss_seq hx (iss_seq (readM_ok mk s1) (skEnter_of_full hk (records_none _) _ hq)))

end Sys2Proof.Machine

/-! PROOFS. Copies: a block whose transfer has failed four times, on a column whose lane test named no lane (R231, R243, R414). -/
namespace Sys2Proof.Machine

/-- The column whose bus the next block of a copy uses: that of the block's place in the dune store. -/
def CopyCmd.column (q : CopyCmd) : Nat := ((if q.dt then q.src else q.dst) + 64 * q.pos) / sliceSize

/-- A copy is under way alone, and neither its bank nor its bus keeps its next block from moving. -/
structure LoneCopy (x : Tile) (tc : Nat) (q : CopyCmd) : Prop where
  queue : x.copyQ = [q]
  going : q.going = true
  wake : q.wake ≤ tc
  bad : q.bad = false
  left : 64 * q.pos < q.len
  banks : x.banks = []
  paths : x.paths = []
  laneTest : x.laneTest = none

theorem LoneCopy.curCopy {x : Tile} {tc : Nat} {q : CopyCmd} (h : LoneCopy x tc q) : x.curCopy tc = some q := by
  simp [Tile.curCopy, h.queue, h.going]

/-- The fifth attempt on a column whose lane test named no lane fails the command, whatever the lanes then do. -/
theorem Tile.busTry_of_unnamed {x : Tile} {j : Nat} (h : x.laneNone = some j) (gc free : Nat) :
    x.busTry gc free j 4 = ({ x.failBeat j with laneNone := none }.record gc true 0x03 (x.busWord j) none, 0, false, true) := by
  simp [Tile.busTry, h]

/-- What is left of the tile after that attempt: the failure is on record, and the bank of the block has been used. -/
def Tile.lostBlock (x : Tile) (gc : Nat) (q : CopyCmd) : Tile :=
  ({ x.failBeat q.column with laneNone := none }.record gc true 0x03 (x.busWord q.column) none).claim ((if q.dt then q.dst else q.src) + 64 * q.pos)

/-- Its copy has failed, and the block has not moved. -/
theorem LoneCopy.copyBlock_of_unnamed {x : Tile} {tc : Nat} {q : CopyCmd} (h : LoneCopy x tc q) (ht : q.tries = 4) (hn : x.laneNone = some q.column)
    (gc free : Nat) : x.copyBlock gc free tc = (x.lostBlock gc q).putCopy { q with bad := true } := by
  have bank (a : Nat) : x.bankFree a = true := by simp [Tile.bankFree, h.banks]
  have bus : x.busFree q.column tc = true := by simp [Tile.busFree, h.paths]
  unfold CopyCmd.column at hn bus
  simp only [Tile.copyBlock, h.curCopy, h.going, h.bad, bank, bus, h.laneTest, ht, Tile.busTry_of_unnamed hn, Nat.not_lt.2 h.wake, Nat.not_le.2 h.left]
  rfl
theorem LoneCopy.putCopy_lostBlock {x : Tile} {tc : Nat} {q : CopyCmd} (h : LoneCopy x tc q) (gc : Nat) :
    ((x.lostBlock gc q).putCopy { q with bad := true }).copyQ = [{ q with bad := true }]
      ∧ ((x.lostBlock gc q).putCopy { q with bad := true }).paths = [] := by
  have queue : (x.lostBlock gc q).copyQ = x.copyQ := rfl
  have paths : (x.lostBlock gc q).paths = x.paths := rfl
  refine ⟨?_, paths.trans h.paths⟩
  simp [Tile.putCopy, queue, h.queue]

/-- The engines before the copy engine have nothing to do on a core without summary commands and without region descriptors to read. -/
theorem Tile.sumLine_idle {x : Tile} {c : Nat} (h : (x.core c).sumQ = []) (tc : Nat) : x.sumLine c tc = x := by
  simp [Tile.sumLine, h]
theorem Tile.crgRead_idle {x : Tile} {c : Nat} (h : (x.core c).crg = []) : x.crgRead c = x := by
  simp [Tile.crgRead, h]
/-- Of the engines of a cycle, the copy engine alone then has a block to move. -/
theorem exec_asyncBankAccess_of_idle {s : State} (hp : s.here.paths = []) (hc : ∀ d < 4, (s.here.core d).sumQ = [] ∧ (s.here.core d).crg = []) :
    exec .asyncBankAccess s = .next ((s.setTile s.curT ((s.here.copyBlock s.glob s.free (s.tcyc s.curT)).stPerform (s.tcyc s.curT))).draw) := by
  have beats : s.here.beats (s.tcyc s.curT) = s.here := by rw [Tile.beats, hp]; rfl
  have idle : (upto 0 4).foldl (fun x c => (x.sumLine c (s.tcyc s.curT)).crgRead c) s.here = s.here := foldl_of_fixed _ fun c hm => by
    obtain ⟨hsum, hcrg⟩ := hc c (mem_upto_zero.1 hm)
    rw [Tile.sumLine_idle hsum, Tile.crgRead_idle hcrg]
  show execAsyncBankAccess s = _
  rw [execAsyncBankAccess, State.upHere_eq, beats, idle]

/-- R414: after a lane test that named no lane, the next attempt of the copy is its last. -/
theorem exec_asyncBankAccess_of_unnamed {s : State} {q : CopyCmd} (h : LoneCopy s.here (s.tcyc s.curT) q)
    (hc : ∀ d < 4, (s.here.core d).sumQ = [] ∧ (s.here.core d).crg = []) (ht : q.tries = 4) (hn : s.here.laneNone = some q.column) :
    ∃ t, exec .asyncBankAccess s = .next t ∧ t.here.copyQ = [{ q with bad := true }] := by
  obtain ⟨queue, paths⟩ := h.putCopy_lostBlock s.glob
  refine ⟨_, exec_asyncBankAccess_of_idle h.paths hc, ?_⟩
  rw [h.copyBlock_of_unnamed ht hn, Tile.stPerform, paths]
  exact (congrArg Tile.copyQ (State.here_setTile s _)).trans queue

/-- A copy of one block from tile memory, whose transfer has failed four times. -/
def fourFailures : CopyCmd := { dt := false, red := 0, dst := 0, src := 0, len := 64, start := 0, going := true, tries := 4 }
/-- Its tile, where column 0's lane test has named no lane and no lane fails. -/
def unnamedLane : State := { tiles := [(0, { copyQ := [fourFailures], laneNone := some 0 })] }
theorem unnamedLane_lone : LoneCopy unnamedLane.here (unnamedLane.tcyc unnamedLane.curT) fourFailures :=
  ⟨rfl, rfl, Nat.zero_le _, rfl, by decide, rfl, rfl, rfl⟩

/-- Refutes O44: where bank and bus are free and no lane fails, a block moves only if its command has not come to its last attempt. In
`unnamedLane` the transfer has failed four times and the lane test has named no lane, so that the command fails (R414) and its block stays. -/
theorem not_engineEvents : ¬ Obligations.EngineEvents := by
  unfold Obligations.EngineEvents
  intro h
  have quiet : ∀ d < 4, (unnamedLane.here.core d).sumQ = [] ∧ (unnamedLane.here.core d).crg = [] := fun _ _ => ⟨rfl, rfl⟩
  obtain ⟨moves, -⟩ := h unnamedLane fourFailures { op := 0 } [] { core := 0, k := 0, wr := false, cb := 0, n := 0 } 0 0 0 0 0
  obtain ⟨t, ht, moved, -⟩ := moves ⟨rfl, quiet, rfl, rfl, Nat.zero_le _, rfl, by decide, rfl, rfl, rfl, rfl, rfl⟩
  obtain ⟨v, hv, failed⟩ := exec_asyncBankAccess_of_unnamed unnamedLane_lone quiet rfl rfl
  obtain rfl : v = t := Host.Outcome.next.inj (hv.symm.trans ht)
  have bad : true = false := congrArg CopyCmd.bad (List.cons.inj (failed.symm.trans moved)).1
  cases bad

end Sys2Proof.Machine

/-! PROOFS. Slot words in either place of the stop bit (R40, R82, R83): what a word holds does not depend on it. -/
namespace Sys2Proof

/-- A word by its leading bits, of which bit 10 is the stop bit, and its body. -/
theorem decodeBody_append (h : BitVec 11) (b : BitVec 21) (l : BitVec 9) :
    decodeBody (h ++ b) l = decodeOf (h.extractLsb' 6 3).toNat (h.extractLsb' 0 6).toNat b l := by
  have kind : kindOf (BitVec.append h b) = (h.extractLsb' 6 3).toNat := by
    rw [kindOf, extractLsb'_append_high (by decide)]
  have maj : majOf (BitVec.append h b) = (h.extractLsb' 0 6).toNat := by
    rw [majOf, extractLsb'_append_high (by decide)]
  have body : (BitVec.append h b).extractLsb' 0 21 = b := BitVec.extractLsb'_append_eq_right
  show decodeBody (BitVec.append h b) l = _
  rw [decodeBody_eq, kind, maj, body]

theorem decodeSlot_of_body {i : Instr} {w : BitVec 32} (h : decodeBody w 0#9 = some i) (hi : i.wf = true) : decodeSlot w 0#9 = .ok i := by
  simp [decodeSlot, h, hi]
theorem decodeSlot_of_no_body {w : BitVec 32} (h : decodeBody w 0#9 = none) : decodeSlot w 0#9 = .illegalInstruction := by
  simp [decodeSlot, h]

/-- tkp k, n: MAJ 0x07 of Y kind, K above N. -/
theorem decodeY_tkp (k : BitVec 5) (n : BitVec 16) : decodeY 7 (k ++ n) 0#9 = some (.tkp k n) := by
  show some (Instr.tkp ((BitVec.append k n).extractLsb' 16 5) ((BitVec.append k n).extractLsb' 0 16)) = _
  simp [-BitVec.append_eq]
theorem decodeSlot_tkp {h : BitVec 11} (hk : h.extractLsb' 6 3 = 7#3) (hm : h.extractLsb' 0 6 = 7#6) (k : BitVec 5) (n : BitVec 16) :
    decodeSlot (h ++ k ++ n) 0#9 = .ok (.tkp k n) := by
  have word : (h ++ k ++ n : BitVec 32) = h ++ (k ++ n) := BitVec.append_assoc
  rw [word]
  refine decodeSlot_of_body ?_ rfl
  rw [decodeBody_append, hk, hm]
  exact decodeY_tkp k n

end Sys2Proof

/-! PROOFS. Token counts: posts and arrivals, and what a lease request and a landed tkp leave of a core's tokens (R143, R209, R210, R214). -/
namespace Sys2Proof.Machine

/-! ### Counts of one token (R209, R210) -/

/-- The error count goes up to 15. -/
theorem min_15_succ {n : Nat} (h : n ≤ 15) : Nat.min 15 (n + 1) = if n = 15 then 15 else n + 1 := by
  show min 15 (n + 1) = _
  split <;> omega

theorem Token.arrive_of_room {t : Token} {n : Nat} (h : t.arr + n ≤ 0xFFFF) : t.arrive n = { t with arr := t.arr + n } := if_pos h
theorem Token.arrive_of_over {t : Token} {n : Nat} (h : 0xFFFF < t.arr + n) (he : t.errn ≤ 15) :
    t.arrive n = { t with arr := 0xFFFF, errn := if t.errn = 15 then 15 else t.errn + 1, errc := if t.errc = 0 then 6 else t.errc } := by
  rw [Token.arrive, if_neg (Nat.not_le.2 h), min_15_succ he]
theorem Token.arrive_arr (t : Token) (n : Nat) : (t.arrive n).arr = min (t.arr + n) 0xFFFF := by
  rcases Nat.lt_or_ge 0xFFFF (t.arr + n) with h | h
  · rw [Token.arrive, if_neg (Nat.not_le.2 h)]
    exact (Nat.min_eq_right (Nat.le_of_lt h)).symm
  · rw [Token.arrive_of_room h]
    exact (Nat.min_eq_left h).symm
theorem Token.arrive_infl (t : Token) (n : Nat) : (t.arrive n).infl = t.infl := by
  unfold Token.arrive
  split <;> rfl
theorem Token.arrive_errn_le {t : Token} (h : t.errn ≤ 15) (n : Nat) : (t.arrive n).errn ≤ 15 := by
  unfold Token.arrive
  split
  · exact h
  · exact Nat.min_le_left 15 _

theorem Token.fail_arr (t : Token) (cls : Nat) : (t.fail cls).arr = t.arr := by
  unfold Token.fail
  split <;> rfl
theorem Token.fail_infl (t : Token) (cls : Nat) : (t.fail cls).infl = t.infl := by
  unfold Token.fail
  split <;> rfl
theorem Token.fail_errn_le {t : Token} (h : t.errn ≤ 15) (cls : Nat) : (t.fail cls).errn ≤ 15 := by
  unfold Token.fail
  split
  · exact h
  · exact Nat.min_le_left 15 _
theorem Token.fail_of_class {t : Token} {cls : Nat} (hc : cls ≠ 0) (he : t.errn ≤ 15) :
    t.fail cls = { t with errn := if t.errn = 15 then 15 else t.errn + 1, errc := if t.errc = 0 then cls else t.errc } := by
  rw [Token.fail, if_neg hc, min_15_succ he]

theorem Token.post_infl (t : Token) (cls : Nat) : (t.post cls).infl = t.infl - 1 := by
  rw [Token.post, Token.arrive_infl, Token.fail_infl]
theorem Token.post_arr (t : Token) (cls : Nat) : (t.post cls).arr = min (t.arr + 1) 0xFFFF := by
  rw [Token.post, Token.arrive_arr, Token.fail_arr]
theorem Token.post_errn_le {t : Token} (h : t.errn ≤ 15) (cls : Nat) : (t.post cls).errn ≤ 15 :=
  Token.arrive_errn_le (Token.fail_errn_le (t := { t with infl := t.infl - 1 }) h cls) 1
theorem Token.post_clean {t : Token} (h : t.arr < 0xFFFF) : t.post 0 = { t with infl := t.infl - 1, arr := t.arr + 1 } := Token.arrive_of_room h
theorem Token.post_failed {t : Token} {cls : Nat} (hc : cls ≠ 0) (h : t.arr < 0xFFFF) (he : t.errn ≤ 15) : t.post cls =
    { arr := t.arr + 1, infl := t.infl - 1, errn := if t.errn = 15 then 15 else t.errn + 1, errc := if t.errc = 0 then cls else t.errc } := by
  rw [Token.post, Token.fail_of_class (t := { t with infl := t.infl - 1 }) hc he]
  exact Token.arrive_of_room h
/-- Of the arrivals of one cycle their sum counts. -/
theorem Token.arrive_arrive_arr (t : Token) (n m : Nat) : ((t.arrive n).arrive m).arr = (t.arrive (n + m)).arr := by
  rw [Token.arrive_arr, Token.arrive_arr, Token.arrive_arr]
  omega

/-! ### The tokens of a core -/

theorem Core.token_inflight (c : Core) (k j : Nat) :
    (c.inflight k).token j = if j = k then { c.token k with infl := (c.token k).infl + 1 } else c.token j := Core.token_setTok c k j _
theorem Core.token_arrive (c : Core) (k n j : Nat) : (c.arrive k n).token j = if j = k then (c.token k).arrive n else c.token j :=
  Core.token_setTok c k j _
theorem core_upCore (s : State) (f : Core → Core) : (s.upCore f).core = f s.core := State.core_setTile s s.here _
theorem core_landEff_tkp (s : State) (p : Pend) (k n : Nat) : (s.landEff s.curT s.curC p (.tkp k n)).core = s.core.arrive k n := core_upCore s _

/-- A core without a request takes no more than its token can count. -/
theorem exec_lease_of_overflow {s : State} {k : BitVec 5} (h : ¬(s.here.leaseCore = some s.curC ∨ ∃ j, (s.curC, j) ∈ s.here.leaseReq))
    (hk : 0xFFFF ≤ (s.core.token k.toNat).infl) :
    exec (.lease k) s = .next (s.raise { cause := cToken, slot := s.slot, i0 := tokWord k.toNat (s.core.token k.toNat) }) := by
  rw [← leased_or_pending_iff, Bool.not_eq_true] at h
  exact issue_error (iss_seq (need_ok (by rw [h]; rfl) _ _ _ s) (iss_bind_error (takeToken_error k s (by omega))))

/-- Settles O9: a token's counts by the operation on it, the lease request by whether its token has room, tkp by its word, its issue and its landing. -/
theorem tokenCounts : Obligations.TokenCounts := by
  unfold Obligations.TokenCounts
  refine ⟨fun t cls n m ha he => ?_, fun s k free => ⟨fun room => ?_, exec_lease_of_overflow free⟩, decodeSlot_of_encode rfl rfl rfl, fun s k n p => ?_⟩
  · refine ⟨t.post_infl cls, ?_, fun hc h => Token.post_failed hc h he, Token.arrive_of_room, fun h => Token.arrive_of_over h he, ?_, ?_,
      Token.arrive_errn_le he n, Token.post_errn_le he cls, t.arrive_arrive_arr n m⟩
    · rintro rfl h
      exact Token.post_clean h
    · rw [Token.arrive_arr]
      exact Nat.min_le_right _ _
    · rw [Token.post_arr]
      exact Nat.min_le_right _ _
  · have core : ((s.posting k).upHere fun x => { x with leaseReq := x.leaseReq ++ [(s.curC, k.toNat)] }).core = s.core.inflight k.toNat :=
      (core_setTile_here (s.posting k) _).trans (posting_core s k)
    refine ⟨_, exec_lease_of_free free room, ?_, fun j hj => ?_⟩
    · rw [core, Core.token_inflight, if_pos rfl]
    · rw [core, Core.token_inflight, if_neg hj]
  · refine ⟨decodeSlot_tkp (h := 0x5C7#11) rfl rfl k n, decodeSlot_tkp (h := 0x1C7#11) rfl rfl k n, rfl, fun hn => ?_, ?_⟩
    · have moves : (n == 0#16) = false := beq_eq_false_iff_ne.2 hn
      show Host.Outcome.next (if n == 0#16 then s else s.laterPart 1 [.tkp k.toNat n.toNat]) = _
      rw [moves]
      rfl
    · intro y
      have core : y = s.core.arrive k.toNat n.toNat := core_landEff_tkp s p k.toNat n.toNat
      have self : y.token k.toNat = (s.core.token k.toNat).arrive n.toNat := by rw [core, Core.token_arrive, if_pos rfl]
      refine ⟨self, ?_, fun j hj => ?_⟩
      · rw [self, Token.arrive_infl]
      · rw [core, Core.token_arrive, if_neg hj]

end Sys2Proof.Machine

/-! PROOFS. nop and dly: their words, and when the next bundle is due (R207, R208). -/
namespace Sys2Proof.Machine

/-- A word of C kind with the major of nop and another body holds no instruction. -/
theorem decodeSlot_nop_reserved {x : BitVec 21} (hx : x ≠ 0#21) : decodeSlot (0x58A#11 ++ x) 0#9 = .illegalInstruction := by
  refine decodeSlot_of_no_body ((decodeBody_append _ _ _).trans ?_)
  show ck (x == 0#21) .nop = none
  rw [beq_eq_false_iff_ne.2 hx]
  rfl

/-- The end of a loop's iteration leaves the distance of the next bundle. -/
theorem Core.gap_iterEnd (c : Core) (a k : Nat) : (c.iterEnd a k).gap = c.gap := by
  induction k generalizing c with
  | zero => rfl
  | succ k ih =>
    unfold Core.iterEnd
    split
    · rfl
    · split
      · rfl
      · split
        · rfl
        · split
          · rfl
          · exact ih _
theorem Core.begin_gap (c : Core) (a : Nat) (first : Bool) (ws : List Word) : (c.begin a first ws).gap = 1 :=
  (apply_ite Core.gap _ _ _).trans (ite_self _)
/-- A repetition that is left issues one cycle later, another bundle after the distance that this one has set. -/
theorem Core.advance_due (c : Core) (a k : Nat) : (c.advance a k).due = k + if 1 < c.repRem then 1 else c.gap := by
  unfold Core.advance
  by_cases hr : 1 < c.repRem
  · rw [if_pos hr, if_pos hr]
  · rw [if_neg hr, if_neg hr]
    have gap (y : Core) : (if y.jumped then y else y.iterEnd a 6).gap = y.gap := by
      split
      · rfl
      · exact y.gap_iterEnd a 6
    exact (apply_ite Core.due _ _ _).trans ((ite_self _).trans (congrArg (k + ·) (gap _)))

/-- Settles O53: the words by their fields; a bundle begins with distance 1, which nop leaves and dly 1 sets again. -/
theorem nopHasNoEffect : Obligations.NopHasNoEffect := by
  unfold Obligations.NopHasNoEffect
  intro s y a k ws
  have due : ((y.begin a true ws).advance a k).due = k + 1 := by rw [Core.advance_due, Core.begin_gap, ite_self]
  have core : (s.upCore fun c => { c with gap := 1 }).core = { s.core with gap := 1 } := core_upCore s _
  have here : (s.upCore fun c => { c with gap := 1 }).here = s.here.setCore s.curC { s.core with gap := 1 } := State.here_setTile s _
  refine ⟨decodeSlot_of_encode rfl rfl rfl, rfl, decodeSlot_of_encode rfl rfl rfl, fun x hx => decodeSlot_nop_reserved hx, rfl, due,
    _, rfl, core, fun h => core.trans (h ▸ rfl), fun u hu => State.tile_setTile_ne s s.curT u _ hu, fun c hc => ?_,
    (congrArg Tile.tm here).trans (Tile.setCore_tm _ _ _), (congrArg Tile.ds here).trans (Tile.setCore_ds _ _ _)⟩
  exact (congrArg (Tile.core · c) here).trans (Tile.core_setCore_ne _ _ _ _ hc)

end Sys2Proof.Machine

/-! PROOFS. Streams and copies: what a token-posted command leaves of the clock and the mode, the entry that a start offset holds, and the checks
of the issue in their order (R206, R210, R226, R243, R244, R249, R250). -/
namespace Sys2Proof.Machine

/-! ### Commands that a start offset may hold (R206) -/

theorem holdUntil_eq (s : State) (c : Nat) (e : Eff) : s.holdUntil c e = if c = s.clock then s else s.holding c 0 e := rfl
/-- A command that enters the lists of its tile does not move the clock by which its start is judged. -/
theorem holdUntil_upHere {s : State} {f : Tile → Tile} (hl : (f s.here).lag = s.here.lag) (hc : (f s.here).core s.curC = s.core) (c : Nat) (e : Eff) :
    (s.upHere f).holdUntil c e = if c = s.clock then s.upHere f else (s.upHere f).holding c 0 e := by
  have clock : (s.upHere f).clock = s.clock := clock_setTile_here hl (congrArg Core.inMon hc) (congrArg Core.tsk hc)
  rw [holdUntil_eq, clock]
theorem inMon_holdUntil (s : State) (c : Nat) (e : Eff) : (s.holdUntil c e).core.inMon = s.core.inMon := by
  unfold State.holdUntil
  split
  · rfl
  · exact (congrArg Core.inMon (core_upCore s _)).trans rfl
theorem curC_holdUntil (s : State) (c : Nat) (e : Eff) : (s.holdUntil c e).curC = s.curC := by
  unfold State.holdUntil
  split <;> rfl
theorem posting_inMon (s : State) (k : BitVec 5) : (s.posting k).core.inMon = s.core.inMon := (congrArg Core.inMon (posting_core s k)).trans rfl
/-- A record of strict mode leaves alone what no update of the core touches. -/
theorem tracking_keeps {α : Type} {s : State} {g : State → α} (h : ∀ f, g (s.upCore f) = g s) (sp lo n : Nat) (k : BitVec 5) (num : Nat) :
    g (s.tracking sp lo n k num) = g s := by
  unfold State.tracking
  split
  · exact h _
  · rfl

/-! ### Streams (R249, R250) -/

/-- A stream enters with its block's address; the entry of a start offset holds it. -/
theorem addStream_eq (s : State) (wr : Bool) (k cb c : Nat) : s.addStream wr k cb c =
    let n := s.here.cmdSeq
    let j : StreamJob := { n := n, held := decide (c ≠ s.clock), core := s.curC, k := k, issue := s.tcyc s.curT, slot := s.slot
                           id := s.core.seq, pc := s.core.pc, wr := wr, cb := cb, wake := s.tcyc s.curT + (c - s.clock) + 3, mon := s.core.inMon }
    let u := s.upHere fun x => { x with cmdSeq := n + 1, streams := x.streams ++ [j] }
    if c = s.clock then u else u.holding c 0 (.startStream n) := by
  have held : (c != s.clock) = decide (c ≠ s.clock) := (decide_not (p := c = s.clock)).symm
  unfold State.addStream
  dsimp only
  rw [held]
  exact holdUntil_upHere rfl rfl c _
theorem addStream_inMon (s : State) (wr : Bool) (k cb c : Nat) : (s.addStream wr k cb c).core.inMon = s.core.inMon :=
  (inMon_holdUntil _ c _).trans (congrArg Core.inMon (core_setTile_here s _))

/-- Settles O14: the checks in their order, the record of a stream.rd by the block that stands at its issue, then the entry. -/
theorem streams : Obligations.Streams := by
  unfold Obligations.Streams
  intro s k ar off st c a cb enter ha hs hk
  refine ⟨fun hr => ?_, ?_⟩
  · have tracks : (fun t : State => let q := t.here.blockAt cb; track q.space q.local q.span k (2 * t.here.cmdSeq + 1) t) (s.posting k)
        = .ok ((), (s.posting k).tracking (s.here.blockAt cb).space (s.here.blockAt cb).local (s.here.blockAt cb).span k (2 * s.here.cmdSeq + 1)) := by
      have here : (s.posting k).here = s.here.setCore s.curC (s.core.inflight k.toNat) := State.here_setTile s _
      have block : (s.posting k).here.blockAt cb = s.here.blockAt cb := (congrArg (Tile.blockAt · cb) here).trans rfl
      have seq : (s.posting k).here.cmdSeq = s.here.cmdSeq := (congrArg Tile.cmdSeq here).trans rfl
      dsimp only
      rw [block, seq]
      exact record_ok (posting_record hr)
    exact issue_ok (iss_seq (readA_ok ar s) (iss_seq (access_addr ha s) (iss_seq (access_clean ha s) (iss_seq (starts_ok hs)
      (iss_seq (token_ok hk) (iss_seq tracks (congrArg (fun u => Except.ok ((), u)) (addStream_eq _ _ _ _ _))))))))
  · have mode : ((s.posting k).addStream true k.toNat cb c).core.inMon = s.core.inMon := (addStream_inMon _ _ _ _ _).trans (posting_inMon s k)
    have last : ((s.posting k).addStream true k.toNat cb c).sideEffect
        = let t := enter (s.posting k) true; if s.core.inMon then t else t.upCore fun y => { y with sideEff := true } := by
      rw [State.sideEffect, mode, addStream_eq]
    exact issue_ok (iss_seq (readA_ok ar s) (iss_seq (access_addr ha s) (iss_seq (access_clean ha s) (iss_seq (starts_ok hs)
      (iss_seq (token_ok hk) (congrArg (fun u => Except.ok ((), u)) last))))))

/-! ### Copies (R243, R244) -/

theorem access_addrOk {a : PWord} {ea n al sp : Nat} (h : Access a ea n al sp) : addrOk ea n al sp = true := by
  simp [addrOk, h.1, h.2.1]
/-- A source that has been peeked at is then taken, and not under-waited. -/
theorem underS_of_readS {n : BitVec 6} {s s1 : State} {x : PWord} (h : readS n s = .ok (x, s1)) : underS n s1 = .ok ((), s1) := by
  obtain ⟨taken, under⟩ := readS_split h
  exact (takeS_keeps taken n).2 under
theorem copyQ_tracked (s : State) (k : BitVec 5) (sp lo n num : Nat) : ((s.posting k).tracking sp lo n k num).here.copyQ = s.here.copyQ := by
  have upCore (t : State) (f : Core → Core) : (t.upCore f).here.copyQ = t.here.copyQ := (congrArg Tile.copyQ (State.here_setTile t _)).trans rfl
  exact (tracking_keeps (g := fun t => t.here.copyQ) (upCore _) sp lo n k num).trans (upCore s _)

/-- A copy enters the engine's queue under the tile's next number; the entry of a start offset holds it. -/
theorem enterCopy_eq (t : State) (q : CopyCmd) (c : Nat) :
    (t.upHere fun _ => { t.here.nextCmd.2 with copyQ := t.here.nextCmd.2.copyQ ++ [q] }).holdUntil c (.startCopy t.here.nextCmd.1) =
      let n := t.here.cmdSeq
      let u := t.upHere fun x => { x with cmdSeq := n + 1, copyQ := x.copyQ ++ [q] }
      if c = u.clock then u else u.holding c 0 (.startCopy n) :=
  holdUntil_eq (t.upHere fun x => { x with cmdSeq := t.here.cmdSeq + 1, copyQ := x.copyQ ++ [q] }) c _

/-- Settles O27: the checks in their order; the peeked length is then taken, and the queue has the room it had before the token and the record. -/
theorem copies : Obligations.Copies := by
  unfold Obligations.Copies
  intro s s1 k ad asr ln dt st c l hl d a len size ok out
  have passes (dt : Bool) (red : Nat) : ok dt → issue (copyOp dt red k ad asr ln st) s = .next (out dt red) := by
    rintro ⟨h64, hmax, hp, hd, ha, hsrc, hdst, hs, hk, hr, hq⟩
    have target : spaceSize (cpyDst dt) = size dt := by cases dt <;> rfl
    have origin : spaceSize (1 - cpyDst dt) = size !dt := by cases dt <;> rfl
    have read : (if dt then 1 else 0) = 1 - cpyDst dt := by cases dt <;> rfl
    rw [← target] at hd
    rw [← origin] at ha
    rw [read] at hsrc
    have sizes : (len % 64 == 0 && decide (len ≤ 6291456) && addrOk d.val.toNat len 64 (spaceSize (cpyDst dt))) = true := by
      rw [access_addrOk hd, h64, decide_eq_true hmax]
      rfl
    have clean : consume (d.poi || a.poi || l.poi) s = .ok ((), s) := by
      rw [hd.2.2, ha.2.2, hp]
      rfl
    have room : decide (((s1.posting k).tracking (cpyDst dt) d.val.toNat len k).here.copyQ.length < 32) = true := by rw [copyQ_tracked, decide_eq_true hq]
    refine issue_ok (iss_seq (readA_ok ad s) (iss_seq (readA_ok asr s) (iss_seq (peekS_of_readS hl) ?_)))
    refine iss_seq (need_ok sizes _ _ _ s) (iss_seq (need_ok (access_addrOk ha) _ _ _ s) (iss_seq clean ?_))
    refine iss_seq (readS_split hl).1 (iss_seq (underS_of_readS hl) (iss_seq (clear_ok hsrc) (iss_seq (clear_ok hdst) ?_)))
    refine iss_seq (starts_ok hs) (iss_seq (token_ok hk) (iss_seq (record_ok (posting_record hr)) (iss_seq (need_ok room _ _ _ _) ?_)))
    exact congrArg (fun u => Except.ok ((), u)) (ite_congr rfl (fun _ => rfl) fun _ => enterCopy_eq _ _ c)
  exact ⟨passes false 0, passes true 0, fun h => ⟨passes dt 1 h, passes dt 2 h, passes dt 3 h⟩⟩

end Sys2Proof.Machine

/-! PROOFS. Sends: when a channel or a group sends in a form, the checks after it, and the job that enters (R206, R262 to R265). -/
namespace Sys2Proof.Machine

/-! ### The channel (R263) -/

theorem chan_sends_ring_iff (d : Chan) (core n : Nat) : d.sends core 0 n = true ↔
    d.sv = true ∧ d.score = core ∧ d.grp = false ∧ d.smode = 0 ∧ n ≤ 4096 * 2 ^ d.win := by
  simp [Chan.sends, winBytes, and_assoc]
theorem chan_sends_reduce_iff (d : Chan) (core n : Nat) : d.sends core 2 n = true ↔
    d.sv = true ∧ d.score = core ∧ d.grp = false ∧ d.smode = 2 ∧ n ≤ d.ring := by
  simp [Chan.sends, and_assoc]
theorem group_sends_iff (e : Group) (core n : Nat) : e.sends core n = true ↔
    e.v = true ∧ e.core = core ∧ e.dsts ≠ [] ∧ n ≤ 4096 * 2 ^ e.win := by
  simp only [Group.sends, Bool.and_eq_true, beq_iff_eq, Bool.not_eq_true', ne_eq, List.isEmpty_eq_false_iff, decide_eq_true_eq, and_assoc]
  rfl

/-- A channel that does not send in the form is a channel fault, before anything else is looked at. -/
theorem sendOp_error {s : State} {kind : Nat} {rel : Bool} {ch : BitVec 8} {ar : BitVec 4} {ln st : BitVec 9}
    (h : ¬(s.here.chan ch.toNat).sends s.curC (if kind = 1 then 0 else 2) (64 * ln.toNat) = true) :
    issue (sendOp kind rel ch ar ln st) s = .next (s.raise { cause := cChan, slot := s.slot }) :=
  issue_error (iss_seq rfl (iss_bind_error (need_error (Bool.eq_false_iff.2 h) _ _ _ s)))

/-! ### The checks after the channel, and the job (R206, R210, R265) -/

theorem sendChecks_ok {s : State} {ar : BitVec 4} {n c tok : Nat} {st : BitVec 9}
    (ha : Access (s.core.bank.areg ar.toNat) (s.core.bank.areg ar.toNat).val.toNat n 64 tmSize)
    (hc : s.ClearOf 0 (s.core.bank.areg ar.toNat).val.toNat n) (hs : s.StartsAt st c) (hk : s.TokenFree (BitVec.ofNat 5 tok)) :
    sendChecks ar n st tok s = .ok (((s.core.bank.areg ar.toNat).val.toNat, c), s.posting (BitVec.ofNat 5 tok)) :=
  iss_seq (readA_ok ar s) (iss_seq (access_addr ha s) (iss_seq (access_clean ha s) (iss_seq (clear_ok hc) (iss_seq (starts_ok hs) (iss_seq (token_ok hk) rfl)))))

/-- A send's job enters under the tile's next number; the entry of a start offset holds it, and the task that issued it can no longer be replayed (R420). -/
theorem addSend_eq (t : State) (c : Nat) (j : SendJob) : t.addSend c j =
    let m := t.here.cmdSeq
    let j := { j with n := m, held := c != t.clock, wake := t.tcyc t.curT + (c - t.clock) + 3 }
    let u := t.upHere fun x => { x with cmdSeq := m + 1, sends := x.sends ++ [j] }
    let v := if c = u.clock then u else u.holding c 0 (.startSend m)
    if v.core.inMon then v else v.upCore fun y => { y with sideEff := true } :=
  congrArg State.sideEffect (holdUntil_eq (t.upHere fun x =>
    { x with cmdSeq := t.here.cmdSeq + 1
             sends := x.sends ++ [{ j with n := t.here.cmdSeq, held := c != t.clock, wake := t.tcyc t.curT + (c - t.clock) + 3 }] }) c _)
theorem addSend_curC (t : State) (c : Nat) (j : SendJob) : (t.addSend c j).curC = t.curC := by
  have side (u : State) : u.sideEffect.curC = u.curC := by
    unfold State.sideEffect
    split <;> rfl
  exact (side _).trans (curC_holdUntil _ c _)
/-- What an update of the tile after it takes from whose turn it is, it could take before. -/
theorem addSend_upHere_curC (t : State) (c : Nat) (j : SendJob) (f : Nat → Tile → Tile) :
    (t.addSend c j).upHere (f (t.addSend c j).curC) = (t.addSend c j).upHere (f t.curC) := by rw [addSend_curC]

/-- Settles O28: the channel's condition as the form tests it, then the checks in their order, then the job and what the channel becomes. -/
theorem sends : Obligations.Sends := by
  unfold Obligations.Sends
  intro s ch g ar ln st c a ea n d e ring red group ok enter base moved
  have enters (tok : Nat) (j : SendJob) : (s.posting (BitVec.ofNat 5 tok)).addSend c j = enter tok j := addSend_eq _ c j
  refine ⟨fun hr ⟨ha, hc, hs, hk⟩ => ⟨?_, ?_⟩, fun hr ⟨ha, hc, hs, hk⟩ => ?_, fun hg ⟨ha, hc, hs, hk⟩ => ?_,
    fun hr => ⟨?_, ?_⟩, fun hr => ?_, fun hg => ?_⟩
  · refine issue_ok (iss_seq rfl (iss_seq (need_ok ((chan_sends_ring_iff _ _ _).2 hr) _ _ _ s) (iss_seq (sendChecks_ok ha hc hs hk) ?_)))
    exact congrArg (fun u : State => Except.ok ((), u.upHere (moved true))) (enters d.stok base)
  · refine issue_ok (iss_seq rfl (iss_seq (need_ok ((chan_sends_ring_iff _ _ _).2 hr) _ _ _ s) (iss_seq (sendChecks_ok ha hc hs hk) ?_)))
    exact congrArg (fun u => Except.ok ((), u)) ((addSend_upHere_curC _ c _ fun core x =>
      let y := moved true x; { y with rels := y.rels ++ [⟨core, d.stok, d.dch, d.dest, d.sq, (n + 511) / 512⟩] }).trans
      (congrArg (State.upHere · _) (enters d.stok { base with rel := true })))
  · refine issue_ok (iss_seq rfl (iss_seq (need_ok ((chan_sends_reduce_iff _ _ _).2 hr) _ _ _ s) (iss_seq (sendChecks_ok ha hc hs hk) ?_)))
    exact congrArg (fun u : State => Except.ok ((), u.upHere (moved false))) (enters d.stok { base with kind := 2 })
  · refine issue_ok (iss_seq rfl (iss_seq (need_ok ((group_sends_iff _ _ _).2 hg) _ _ _ s) (iss_seq (sendChecks_ok ha hc hs hk) ?_)))
    exact congrArg (fun u : State => Except.ok ((), u.upHere _)) (enters e.stok _)
  · exact sendOp_error (mt (chan_sends_ring_iff _ _ _).1 hr)
  · exact sendOp_error (mt (chan_sends_ring_iff _ _ _).1 hr)
  · exact sendOp_error (mt (chan_sends_reduce_iff _ _ _).1 hr)
  · exact issue_error (iss_seq rfl (iss_bind_error (need_error (Bool.eq_false_iff.2 (mt (group_sends_iff _ _ _).1 hg)) _ _ _ s)))

end Sys2Proof.Machine

/-! PROOFS. Transfers and returns: the loop check of a transfer, what br.c consumes, and the three checks of ret in their order
(R217, R320 to R323, R327, R342). -/
namespace Sys2Proof.Machine

/-! ### The loop check (R327) -/

/-- Outside a loop, or in a body that the bundle does not end and that the target stays in, a transfer passes. -/
theorem needInLoop_ok {s : State} {target : Option Nat}
    (h : ∀ l, s.core.inner = some l → l.stop ≠ s.bundleEnd ∧ ∀ a, target = some a → l.start ≤ a ∧ a < l.stop) : needInLoop target s = .ok ((), s) := by
  unfold needInLoop
  cases hl : s.core.inner with
  | none => rfl
  | some l =>
    obtain ⟨stop, within⟩ := h l hl
    cases target with
    | none => simp [stop]
    | some a => simp [stop, within a rfl]
/-- In the last bundle of a body, or to a target outside it, it is a loop fault. -/
theorem needInLoop_error {s : State} {target : Option Nat} {l : LoopE} (hl : s.core.inner = some l)
    (h : l.stop = s.bundleEnd ∨ ∃ a, target = some a ∧ (a < l.start ∨ l.stop ≤ a)) : needInLoop target s =
      .error { cause := cLoop, slot := s.slot, i0 := BitVec.ofNat 32 l.pc, i1 := BitVec.ofNat 32 s.core.loops.length } := by
  unfold needInLoop
  rw [hl]
  refine if_pos ?_
  rcases h with h | ⟨a, rfl, h⟩
  · simp [h]
  · simp only [Bool.or_eq_true, Bool.not_eq_true', Bool.and_eq_false_iff, decide_eq_false_iff_not, Nat.not_le, Nat.not_lt]
    exact .inr h

/-! ### br.c and br.tree (R321, R323) -/

section
variable {s : State} {n : Bool} {p : BitVec 3} {off : BitVec 24}

/-- A br.c that its predicate does not take only consumes the predicate. -/
theorem exec_brC_not_taken (h : (s.core.bank.preg p.toNat).val = n) :
    exec (.brC n p off) s = issue (consume (s.core.bank.preg p.toNat).poi >>= fun _ => act id) s := by
  have stays : ((s.core.bank.preg p.toNat).val != n) = false := by rw [h, bne_self_eq_false]
  refine (issue_of_passed (readP_ok p s)).trans ((issue_of_passed rfl).trans ?_)
  simp only [stays, Bool.false_eq_true, if_false]
  rfl
/-- One that is taken is checked against the loop before it consumes the predicate (log 59). -/
theorem exec_brC_taken (h : (s.core.bank.preg p.toNat).val ≠ n) : exec (.brC n p off) s =
    issue (needInLoop (some (s.target off)) >>= fun _ => consume (s.core.bank.preg p.toNat).poi >>= fun _ => act fun t => t.goto (s.target off)) s := by
  have leaves : ((s.core.bank.preg p.toNat).val != n) = true := bne_iff_ne.2 h
  refine (issue_of_passed (readP_ok p s)).trans ((issue_of_passed rfl).trans ?_)
  simp only [leaves, if_true]

theorem exec_brTree_of_no_leaf {o : BitVec 21} (h : s.leaf = none) : exec (.brTree o) s = .next (s.raise { cause := cInstr, slot := s.slot }) := by
  have record : s.treeTo o = .error { cause := cInstr, slot := s.slot } := by rw [State.treeTo, h]
  exact issue_error (iss_bind_error (by rw [record]))
theorem exec_brTree_of_target {o : BitVec 21} {leaf a : Nat} (hl : s.leaf = some leaf)
    (ht : treeTarget s.here s.core.inMon s.slot (s.target o) leaf = .ok a) :
    exec (.brTree o) s = issue (needInLoop (some a) >>= fun _ => act fun t => t.goto a) s := by
  have record : s.treeTo o = .ok a := by rw [State.treeTo, hl]; exact ht
  exact issue_of_passed (by rw [record])

/-! ### ret (R217, R322) -/

theorem upCore_congr {f g : Core → Core} (h : f s.core = g s.core) : s.upCore f = s.upCore g :=
  congrArg (fun y => s.setTile s.curT (s.here.setCore s.curC y)) h

/-- The first token with work in flight is the one that the fault names. -/
theorem needTokens_error {left : Nat → Nat} {lo m k : Nat} (h1 : lo ≤ k) (h2 : k < lo + m) (hk : left k < (s.core.token k).infl)
    (hj : ∀ j, lo ≤ j → j < k → (s.core.token j).infl ≤ left j) :
    needTokens left lo m s = .error { cause := cToken, slot := s.slot, i0 := tokWord k (s.core.token k) } := by
  have busy : s.core.busyTok left lo m = some k := by
    rw [Core.busyTok, upto_eq_range', List.find?_range'_eq_some]
    refine ⟨decide_eq_true hk, by simpa using ⟨h1, h2⟩, fun j hl hu => ?_⟩
    simpa using hj j hl hu
  rw [needTokens, busy]
  rfl

/-- The loops of the callee are closed, or ret is a loop fault that names the innermost. -/
def needClosed (d : Nat) : Iss Unit := fun t =>
  if d % 1000 < t.core.loops.length then loopI ((t.core.loops.head?).elim 0 LoopE.pc) t.core.loops.length t else .ok ((), t)
theorem needClosed_ok {d : Nat} (h : s.core.loops.length ≤ d % 1000) : needClosed d s = .ok ((), s) := if_neg (Nat.not_lt.2 h)
theorem needClosed_error {d : Nat} (h : d % 1000 < s.core.loops.length) : needClosed d s =
    .error { cause := cLoop, slot := s.slot, i0 := BitVec.ofNat 32 ((s.core.loops.head?).elim 0 LoopE.pc), i1 := BitVec.ofNat 32 s.core.loops.length } := if_pos h

/-- A call that is open to ret, the monitor's own or a task's (log 28), is returned from after the checks of its loops and its tokens. -/
theorem exec_ret_of_call {a d : Nat} {r : List (Nat × Nat)} (hc : s.core.calls = (a, d) :: r) (hm : s.core.inMon = true → 1000 ≤ d) :
    exec .ret s = issue (needClosed d >>= fun _ => needTokens (fun _ => 0) 16 12 >>= fun _ =>
      act fun t => (t.goto a).upCore fun c => { c with calls := c.calls.tail }) s := by
  have visible : (s.core.inMon && decide (d < 1000)) = false := by
    cases hi : s.core.inMon with
    | false => rfl
    | true => exact decide_eq_false (Nat.not_lt.2 (hm hi))
  refine (issue_of_passed (a := (a, d)) (by simp [hc, visible])).trans (congrArg (fun m : Iss Unit => issue (m >>= fun _ => _) s) (funext fun t => ?_))
  unfold needClosed
  cases t.core.loops <;> rfl
theorem exec_ret_of_no_call (h : ∀ a d r, s.core.calls = (a, d) :: r → s.core.inMon = true ∧ d < 1000) :
    exec .ret s = .next (s.raise { cause := cCall, slot := s.slot }) := by
  refine issue_error (iss_bind_error ?_)
  cases hc : s.core.calls with
  | nil => rfl
  | cons e r =>
    obtain ⟨hm, hd⟩ := h e.1 e.2 r hc
    simp [hm, hd]

end

/-- Settles O31: each transfer by the loop check of its target, br.c by its predicate, ret by its call and then its three checks. -/
theorem transfersAndReturns : Obligations.TransfersAndReturns := by
  unfold Obligations.TransfersAndReturns
  refine ⟨?_, ?_⟩
  · intro s off o21 n p leaf tgt far next go free out fault x
    have pass {a : Nat} (h : free a) : needInLoop (some a) s = .ok ((), s) := needInLoop_ok fun l hl => by
      obtain ⟨stop, lo, hi⟩ := h l hl
      exact ⟨stop, fun b hb => Option.some.inj hb ▸ ⟨lo, hi⟩⟩
    have stray {a : Nat} {l : LoopE} (h : out l a) : needInLoop (some a) s =
        .error { cause := cLoop, slot := s.slot, i0 := BitVec.ofNat 32 l.pc, i1 := BitVec.ofNat 32 s.core.loops.length } :=
      needInLoop_error h.1 (h.2.imp_right fun w => ⟨a, rfl, w⟩)
    have clean (hp : x.poi = false) : consume x.poi s = .ok ((), s) := by rw [hp]; rfl
    have poisoned (hp : x.poi = true) : consume x.poi s = .error { cause := cPoison, slot := s.slot } := by rw [hp]; rfl
    refine ⟨fun h => ?_, fun l h => ?_, fun hp hn => ?_, fun hp hn h => ?_, fun hp h => ?_, fun l hn h => ?_, exec_brTree_of_no_leaf,
      fun hl ht => ⟨fun h => ?_, fun l h => ?_⟩, fun hc hl => ?_, fun hc l hl he => ?_, fun hc => ?_⟩
    · exact issue_ok (iss_seq rfl (iss_seq (pass h) rfl))
    · exact issue_error (iss_seq rfl (iss_bind_error (stray h)))
    · exact (exec_brC_not_taken hn).trans (issue_ok (iss_seq (clean hp) rfl))
    · exact (exec_brC_taken hn).trans (issue_ok (iss_seq (pass h) (iss_seq (clean hp) rfl)))
    · by_cases hn : x.val = n
      · exact (exec_brC_not_taken hn).trans (issue_error (iss_bind_error (poisoned hp)))
      · exact (exec_brC_taken hn).trans (issue_error (iss_seq (pass (h.resolve_left hn)) (iss_bind_error (poisoned hp))))
    · exact (exec_brC_taken hn).trans (issue_error (iss_bind_error (stray h)))
    · exact (exec_brTree_of_target hl ht).trans (issue_ok (iss_seq (pass h) rfl))
    · exact (exec_brTree_of_target hl ht).trans (issue_error (iss_bind_error (stray h)))
    · have within : needInLoop none s = .ok ((), s) := needInLoop_ok fun l h => ⟨hl l h, fun _ hb => nomatch hb⟩
      exact issue_ok (iss_seq (need_ok (decide_eq_true hc) _ _ _ s) (iss_seq within rfl))
    · exact issue_error (iss_seq (need_ok (decide_eq_true hc) _ _ _ s) (iss_bind_error (needInLoop_error hl (.inl he))))
    · exact issue_error (iss_bind_error (need_error (decide_eq_false (Nat.not_lt.2 hc)) _ _ _ s))
  · intro s a d r hc loops out
    refine ⟨fun hm hl ht => ?_, fun hm hl => ?_, fun hm hl k h1 h2 hk hj => ?_, fun hm hd => ?_, fun t ht => ?_⟩
    · refine (exec_ret_of_call hc hm).trans (issue_ok (iss_seq (needClosed_ok hl) (iss_seq (needTokens_ok fun j h1 h2 => Nat.le_of_eq (ht j h1 h2)) ?_)))
      have calls : (s.goto a).core.calls = (a, d) :: r := (congrArg Core.calls (core_upCore s _)).trans hc
      refine congrArg (fun u => Except.ok ((), u)) (upCore_congr ?_)
      rw [calls]
      rfl
    · exact (exec_ret_of_call hc hm).trans (issue_error (iss_bind_error (needClosed_error hl)))
    · exact (exec_ret_of_call hc hm).trans (issue_error (iss_seq (needClosed_ok hl) (iss_bind_error
        (needTokens_error h1 h2 (Nat.pos_of_ne_zero hk) fun j h3 h4 => Nat.le_of_eq (hj j h3 h4)))))
    · exact exec_ret_of_no_call fun a' d' r' h => by
        obtain ⟨⟨rfl, rfl⟩, rfl⟩ := by simpa using hc.symm.trans h
        exact ⟨hm, hd⟩
    · exact exec_ret_of_no_call fun a' d' r' h => nomatch ht.symm.trans h

end Sys2Proof.Machine

/-! PROOFS. Stores: a store of a part of a word that holds a latent double error (R238, R412). -/
namespace Sys2Proof.Machine

/-- The word of a latent double error of tile memory that is met. -/
def Tile.poisonWord (x : Tile) (e : LatentErr) : Tile := { x with tmPoi := sset false x.tmPoi (e.addr / 4) true }
theorem sget_tmPoi_poisonWord (x : Tile) (e : LatentErr) (w : Nat) :
    sget false (x.poisonWord e).tmPoi w = if w = e.addr / 4 then true else sget false x.tmPoi w :=
  sget_sset false x.tmPoi (e.addr / 4) w true

/-- Of several errors each poisons its word, and no other error takes the poison back. -/
theorem poisoned_of_foldl {l : List LatentErr} {x : Tile} {w : Nat} (h : sget false x.tmPoi w = true ∨ ∃ e ∈ l, e.addr / 4 = w) :
    sget false (l.foldl Tile.poisonWord x).tmPoi w = true := by
  induction l generalizing x with
  | nil => simpa using h
  | cons b r ih =>
    refine ih ?_
    rw [sget_tmPoi_poisonWord]
    simp only [List.mem_cons, exists_eq_or_imp] at h
    rcases h with h | rfl | h
    · exact .inl (by rw [h, ite_self])
    · exact .inl (if_pos rfl)
    · exact .inr h

/-- A latent double error of a word that is met poisons it (R412). -/
theorem poisoned_of_meetWords {x : Tile} {f : Nat → Bool} {e : LatentErr} (he : e ∈ x.errs) (hs : e.space = 0) (hd : e.double = true)
    (hf : f (e.addr / 4 * 4) = true) : sget false (x.meetWords 0 f).tmPoi (e.addr / 4) = true := by
  have some : x.errs.isEmpty = false := by rw [List.isEmpty_eq_false_iff_exists_mem]; exact ⟨e, he⟩
  unfold Tile.meetWords
  rw [some]
  exact poisoned_of_foldl (.inr ⟨e, by simp [he, hs, hd, hf, eccWord], rfl⟩)

/-- Bytes of one word that are not the whole of it: it keeps its poison (R238). -/
theorem poisoned_of_setPoiBits {m : SMap Bool} {a n p : Nat} (hn : 0 < n) (h4 : n < 4) (hin : a % 4 + n ≤ 4) (h : sget false m (a / 4) = true) :
    sget false (setPoiBits m 4 a n p) (a / 4) = true := by
  have one : (a + n - 1) / 4 + 1 - a / 4 = 1 := by omega
  simp [setPoiBits, Nat.pos_iff_ne_zero.1 hn, one, upto, h]
  omega

/-- A store of a part of a word meets the word's latent error, and a double error poisons it whatever the store carries (R238, R412). -/
theorem poisoned_of_partial_store {x : Tile} {a n : Nat} {e : LatentErr} (he : e ∈ x.errs) (hs : e.space = 0) (hd : e.double = true)
    (hw : e.addr / 4 = a / 4) (hn : 0 < n) (h4 : n < 4) (hin : a % 4 + n ≤ 4) (v p : Nat) :
    sget false (x.tmWrite a n v p).tmPoi (a / 4) = true := by
  refine poisoned_of_setPoiBits hn h4 hin ?_
  rw [← hw]
  refine poisoned_of_meetWords he hs hd ?_
  simp only [wordTouched, wordFilled, eccWord, if_true, Bool.and_eq_true, Bool.not_eq_true', decide_eq_true_eq, Bool.and_eq_false_iff, decide_eq_false_iff_not]
  omega

theorem entryAcc_store (x : Tile) (c : Nat) (p : Pend) (r : Req) (n a : Nat) (v : Bits256) (k : BitVec 64) :
    x.entryAcc c p r none (.store n a v k) = x.tmWrite a n v.toNat k.toNat := rfl

/-- A tile whose first word of tile memory holds a double error that nothing has met, without poison. -/
def doubleLatent : Tile := { errs := [⟨0, 0, true⟩] }
theorem doubleLatent_errs : ⟨0, 0, true⟩ ∈ doubleLatent.errs := List.mem_singleton_self _
/-- A store of one unpoisoned byte to address 0, as its core's record holds it. -/
def byteStore : Pend := { at' := 3, effs := [.store 1 0 0#2048 0#64] }

/-- Refutes O10: a word written in part keeps more than its own poison where it holds a latent double error. In `doubleLatent` no word is
poisoned, and the store of an unpoisoned byte to the first word meets the error (R412), which leaves the word poisoned. -/
theorem not_storePerforms : ¬ Obligations.StorePerforms := by
  unfold Obligations.StorePerforms
  intro h
  obtain ⟨-, -, -, -, -, -, -, -, -, keeps, -⟩ :=
    h doubleLatent 0 byteStore (byteStore.req 0 (.store 1 0 0#2048 0#64)) 1 0 0 0#2048 0#64 (.inl rfl) rfl
  have own := keeps (by decide)
  rw [entryAcc_store, poisoned_of_partial_store doubleLatent_errs rfl rfl rfl Nat.one_pos (by decide) (by decide)] at own
  exact absurd own (by decide)

end Sys2Proof.Machine

/-! PROOFS. Dune-store vectors: their checks in order, the slice's bus last (R228, R241, R242). -/
namespace Sys2Proof.Machine

/-- No command uses the bus in these cycles. -/
theorem needBus_ok {s : State} {j lo hi : Nat} (h : ∀ p ∈ s.here.paths, p.onBus j lo hi = false) : needBus j lo hi s = .ok ((), s) := by
  refine need_ok ?_ _ _ _ s
  rw [Bool.not_eq_true', List.any_eq_false]
  exact fun p hp => Bool.eq_false_iff.1 (h p hp)

section
variable {s s1 : State} {v : BitVec 7} {ar : BitVec 4} {pi : Bool} {off : BitVec 18} {x : VRow}

/-- The address of a dune-store vector access, and the sum that a post-increment writes back (R72). -/
def State.dsAddr (s : State) (ar : BitVec 4) (pi : Bool) (off : BitVec 18) : Nat × Word :=
  eaOf (s.core.bank.areg ar.toNat) pi (256#32 * off.signExtend 32)

/-- The bus of the slice at ea is free from issue + 2 to issue + 9 (R242). -/
def State.BusFree (s : State) (ea : Nat) : Prop :=
  ∀ p ∈ s.here.paths, p.onBus (ea / sliceSize) (s.tcyc s.curT + 2) (s.tcyc s.curT + 9) = false

theorem exec_ldDs (ha : Access (s.core.bank.areg ar.toNat) (s.dsAddr ar pi off).1 256 256 dsSize) (hc : s.ClearOf 1 (s.dsAddr ar pi off).1 256)
    (hb : s.BusFree (s.dsAddr ar pi off).1) : exec (.ldDs v ar pi off) s =
      .next (((if s.core.vAlias v then s.upCore fun c => c.setBank (c.bank.reserveSdq true) else s).addPath
        { s.newPath 6 s.clock 12 with addr := (s.dsAddr ar pi off).1, ty := v.toNat, q := if s.core.vAlias v then some s.core.bank.sdqSeq else none }).postInc
          ar pi (s.dsAddr ar pi off).2) :=
  issue_ok (iss_seq (readA_ok ar s) (iss_seq (access_addr ha s) (iss_seq (access_clean ha s) (iss_seq (clear_ok hc) (iss_seq (needBus_ok hb) rfl)))))
/-- A store reads its row after the checks of its address and before those of its destination. -/
theorem exec_stDs (ha : Access (s.core.bank.areg ar.toNat) (s.dsAddr ar pi off).1 256 256 dsSize) (hr : readV v s = .ok (x, s1))
    (hc : s1.ClearOf 1 (s.dsAddr ar pi off).1 256) (hb : s1.BusFree (s.dsAddr ar pi off).1) : exec (.stDs v ar pi off) s =
      .next ((s1.addPath { s1.newPath 7 s1.clock 10 with addr := (s.dsAddr ar pi off).1, ty := v.toNat, data := x }).postInc ar pi (s.dsAddr ar pi off).2) :=
  issue_ok (iss_seq (readA_ok ar s) (iss_seq (access_addr ha s) (iss_seq (access_clean ha s) (iss_seq hr (iss_seq (clear_ok hc)
    (iss_seq (needBus_ok hb) rfl))))))

end

/-- Settles O13: the checks in their order, then the path; a load of the queue name reserves its entry first. -/
theorem duneVectors : Obligations.DuneVectors := by
  unfold Obligations.DuneVectors
  intro s s1 v ar pi off x a sum ea post free path add ha
  refine ⟨fun hc hb => ⟨fun hv => ?_, fun hv => ?_⟩, fun hr hc hb => exec_stDs ha hr hc hb⟩
  · refine (exec_ldDs ha hc hb).trans ?_
    rw [hv]
    rfl
  · refine (exec_ldDs ha hc hb).trans ?_
    rw [hv]
    rfl

end Sys2Proof.Machine

/-! PROOFS. Host commands: what entering the list of a port leaves, the turns that end one or leave it under way, and MAP and POWER
(R245, R246, R366, R368, R383, R391, R392, R396). -/
namespace Sys2Proof.Machine

/-! ### A command's entry in its port's list (R381, R383) -/

section
variable (s : State) (port : Bool) (tag : Word) (i : Instr)

theorem openJob_mem : ((s.openJob port tag i).port port).mem = (s.port port).mem := by cases port <;> rfl
theorem openJob_tile (t : Nat) : (s.openJob port tag i).tile t = s.tile t := by cases port <;> rfl
theorem openJob_glob : (s.openJob port tag i).glob = s.glob := by cases port <;> rfl
theorem openJob_named (n : Word) : (s.openJob port tag i).named n = s.named n := by cases port <;> rfl
theorem openJob_hostRead (a n : Nat) : (s.openJob port tag i).hostRead port a n = getList (s.port port).mem a n :=
  congrArg (fun m => getList m a n) (openJob_mem s port tag i)
theorem openJob_hostOk (b : Nat × Nat) : (s.openJob port tag i).hostOk port b = s.hostOk port b := by
  unfold State.hostOk
  rw [openJob_port]
theorem openJob_debug : (s.openJob port tag i).dbgAuth = s.dbgAuth ∧ (s.openJob port tag i).challenge = s.challenge := by
  cases port <;> exact ⟨rfl, rfl⟩

variable {s port tag i} {need : Need} {run : HostAct}

/-- A command that starts does in its first turn what its action does to its entry. -/
theorem starts_act (h : s.Starts port i need) {v : State} {j : HostJob} (hr : run (s.entryOf port tag i) (s.openJob port tag i) = (v, j)) :
    hostCommand port tag i need run s = .next (v.putJob port j) := by
  rw [starts_turn h, State.hostTurn, hr]
theorem starts_ends_eq (h : s.Starts port i need) {f : State → State × Nat × Nat} {r : State × Nat × Nat} (hf : f (s.openJob port tag i) = r) :
    hostCommand port tag i need (atOnce f) s = .next (s.ends port tag i r) := by
  rw [starts_ends h, hf]

/-- A command against which a condition stands ends with the condition's status (R383). -/
theorem hostCommand_refused {st : Nat} (hc : s.curArg = 0) (hb : s.boot ≠ .bootFail) (hs : s.firstStatus port i need = st + 1) :
    hostCommand port tag i need run s = .next (s.refuses port tag i (st + 1)) := by
  unfold hostCommand
  rw [if_neg fun h => hb h.1, if_pos hc]
  unfold State.commandTurn
  rw [openJob_status, hs]
  rfl
/-- What names no tile of this wafer is refused before anything else. -/
theorem hostCommand_unnamed {name : Word} (hn : s.named name = none) (hc : s.curArg = 0) (hb : s.boot ≠ .bootFail) (hw : need.name = some name) :
    hostCommand port tag i need run s = .next (s.refuses port tag i 0x01) := by
  refine hostCommand_refused (st := 0) hc hb ?_
  unfold State.firstStatus
  rw [hw, Option.any_some, hn, Option.isNone_none, Bool.or_true, if_pos rfl]

end

/-! ### MAP (R245, R246) -/

theorem mapEntry_eq (s : State) (e : Nat) (w0 w1 w2 : BitVec 64) : let l := rangeWords w0 w1 w2
    s.mapEntry e w0 w1 w2 = ({ s with range := sset [] s.range e (if l = [0#64, 0#64, 0#64] then [] else l) }, 0, 0) := by
  have clear : ((rangeWords w0 w1 w2).all (· == 0#64) = true) = (rangeWords w0 w1 w2 = [0#64, 0#64, 0#64]) := by simp [rangeWords]
  unfold State.mapEntry
  simp only [clear]
theorem dropTlb_eq (s : State) (dva len : Nat) : s.dropTlb dva len = { s with tlb := s.tlb.filter fun x =>
    len ≠ 0 ∧ (x.1 % 2 ^ 36 * 4096 + 4096 ≤ dva ∨ dva + len ≤ x.1 % 2 ^ 36 * 4096) } := by
  unfold State.dropTlb
  congr 2
  funext e
  rw [Bool.eq_iff_iff]
  simp only [Bool.not_eq_true', Bool.or_eq_false_iff, Bool.and_eq_false_iff, beq_eq_false_iff_ne, decide_eq_false_iff_not, decide_eq_true_eq, Nat.not_lt]
  omega

/-! ### POWER (R366, R368, R391, R392, R396) -/

theorem openDebug_eq (s : State) (cert : List Byte) : let f := Config.certificateFields cert
    s.openDebug cert = if Config.certificateVerifies cert && decide (f.1 = Config.identityDigest) && decide (s.challenge = some f.2.2)
      then ({ s with dbgAuth := true, dbgEver := true, dbgMask := f.2.1, challenge := none }, 0, 0) else (s, 0x09, 0) := by
  unfold State.openDebug
  simp only [beq_eq_decide]
theorem mayRetain_of_idle {x : Tile} (hh : x.held = true) (hr : x.replayTo = none) (hc : ∀ c < 4, (x.core c).mode = .idle) : x.mayRetain = true := by
  have idle : (upto 0 4).all (fun c => (x.core c).mode == .idle) = true := by
    rw [List.all_eq_true]
    exact fun c hm => beq_iff_eq.2 (hc c (mem_upto_zero.1 hm))
  unfold Tile.mayRetain
  rw [hh, hr, idle]
  rfl

/-- Settles O39: each command by what its one turn does to the state; the retention commands by the tile that they name. -/
theorem mapAndPower : Obligations.MapAndPower := by
  unfold Obligations.MapAndPower
  intro s port tag name len e point w0 w1 w2 ta dva dl cert cap marks u ok set l doc f opn enter leave good
  refine ⟨fun h => ?_, fun h => starts_ends h tag _, fun h => ?_, fun h => starts_ends h tag _, fun h => ?_, fun hd h => ?_, fun hd h => ?_,
    fun t ht => ⟨fun hh hr hc h => ?_, fun hh h => ?_⟩, fun hn hc hb i hi => ?_⟩
  · exact starts_ends_eq h (mapEntry_eq _ _ _ _ _)
  · exact starts_ends_eq h (by rw [dropTlb_eq])
  · refine starts_ends_eq h ?_
    rw [openJob_hostRead, openDebug_eq, (openJob_debug s port tag opn).2]
  · exact starts_ends_eq h (by rw [(openJob_debug s port tag _).1, hd]; rfl)
  · exact starts_ends_eq h (by rw [(openJob_debug s port tag _).1, hd]; rfl)
  · refine starts_ends_eq h ?_
    simp only [openJob_named, ht, openJob_tile, mayRetain_of_idle hh hr hc, if_true]
    rfl
  · refine starts_ends_eq h ?_
    simp only [openJob_named, ht, openJob_tile, openJob_glob, hh, if_true]
    rfl
  · simp only [List.mem_cons, List.not_mem_nil, or_false] at hi
    rcases hi with rfl | rfl
    · exact hostCommand_unnamed hn hc hb rfl
    · exact hostCommand_unnamed hn hc hb rfl

end Sys2Proof.Machine

/-! PROOFS. The commands that run a job: what the turn of each does, by the case of its conditions (R251, R303, R313, R354, R384, R426, R428). -/
namespace Sys2Proof.Machine

section
variable {s : State} {port : Bool} {tag : Word} {i : Instr} {need : Need} {run : HostAct}

/-- A first turn that ends the command. -/
theorem starts_done (h : s.Starts port i need) {v : State} {st r : Nat}
    (hr : run (s.entryOf port tag i) (s.openJob port tag i) = (v, (s.entryOf port tag i).done st r)) :
    hostCommand port tag i need run s = .next (s.ends port tag i (v, st, r)) := starts_act h hr

theorem openJob_still : (s.openJob port tag i).still = s.still := by cases port <;> rfl
theorem openJob_ckpts : (s.openJob port tag i).ckpts = s.ckpts := by cases port <;> rfl
end

/-! ### LOAD_IMAGE (R303, R384) -/

theorem hostOk_iff {s : State} {port : Bool} {b : Nat × Nat} :
    s.hostOk port b = true ↔ (b.2 ≠ 0 → (s.port port).enabled = true ∧ b.1 + b.2 ≤ 2 ^ 52) := by
  simp only [State.hostOk, Bool.or_eq_true, beq_iff_eq, Bool.and_eq_true, decide_eq_true_eq]
  exact or_iff_not_imp_left

/-- Every image of the list can be reached through the port. -/
def State.reachesAll (s : State) (port : Bool) (l : List (Nat × Nat × Nat × Nat)) : Bool := l.all fun e => s.hostOk port (e.2.2.2, e.2.2.1)
theorem reachesAll_iff {s : State} {port : Bool} {l : List (Nat × Nat × Nat × Nat)} :
    s.reachesAll port l = true ↔ ∀ e ∈ l, e.2.2.1 ≠ 0 → (s.port port).enabled = true ∧ e.2.2.2 + e.2.2.1 ≤ 2 ^ 52 := by
  simp only [State.reachesAll, List.all_eq_true, hostOk_iff]

/-- The list is read from the host; its images are loaded if all of them can be reached. -/
theorem exec_loadImage {s : State} {port : Bool} {tag count : Word} {list : BitVec 64}
    (h : s.Starts port (.loadImage port tag list count) { map := true, bufs := [(list.toNat, 16 * count.toNat)] }) :
    let l := imageList (getList (s.port port).mem list.toNat (16 * count.toNat)) count.toNat
    let v := s.openJob port tag (.loadImage port tag list count)
    exec (.loadImage port tag list count) s =
      .next (s.ends port tag (.loadImage port tag list count) (if s.reachesAll port l then v.loadAll port l else (v, 0x0C, 0))) := by
  refine starts_ends_eq h ?_
  simp only [openJob_hostRead, openJob_hostOk]
  rfl

/-! ### LAUNCH (R313) -/

section
variable {s : State} {start port : Bool} {x0 y0 w h : BitVec 16} {mb : BitVec 256} {j : HostJob}

/-- The tiles of a rectangle that hold the job. -/
def State.heldIn (s : State) (x0 y0 w h : BitVec 16) : List Nat :=
  (rectTiles x0.toNat y0.toNat w.toNat h.toNat).filter fun t => (s.tile t).held
theorem openJob_heldIn (s : State) (port : Bool) (tag : Word) (i : Instr) (x0 y0 w h : BitVec 16) :
    (s.openJob port tag i).heldIn x0 y0 w h = s.heldIn x0 y0 w h := by
  unfold State.heldIn
  simp only [openJob_tile]

theorem launchAct_nowhere (hj : j.stage = 0) (hl : s.heldIn x0 y0 w h = []) : launchAct start port x0 y0 w h mb j s = (s, j.done 0x01 0) := by
  unfold State.heldIn at hl
  simp [launchAct, hj, hl]

variable {l : List Nat}
theorem launchAct_busy (hj : j.stage = 0) (hl : s.heldIn x0 y0 w h = l) (hn : l ≠ []) (hb : ∃ t ∈ l, (s.tile t).busy = true) :
    launchAct true port x0 y0 w h mb j s = (s, j.done 0x06 0) := by
  rw [← List.any_eq_true] at hb
  rw [← List.isEmpty_eq_false_iff] at hn
  unfold State.heldIn at hl
  simp only [launchAct, hj, hl, hn, hb, if_true, Bool.and_self, Bool.false_eq_true, if_false]
theorem launchAct_goes (hj : j.stage = 0) (hl : s.heldIn x0 y0 w h = l) (hn : l ≠ []) (hb : start = true → ∀ t ∈ l, (s.tile t).busy = false) :
    launchAct start port x0 y0 w h mb j s =
      ((if start then { s with runs := s.runs ++ [l] } else s).launchTo start (2 * j.n + b2n port) mb l 170, { j with stage := 1 }) := by
  have idle : (start && l.any fun t => (s.tile t).busy) = false := by
    cases start with
    | false => rfl
    | true => exact (Bool.true_and _).trans (List.any_eq_false.2 fun t ht => Bool.eq_false_iff.1 (hb rfl t ht))
  rw [← List.isEmpty_eq_false_iff] at hn
  unfold State.heldIn at hl
  simp only [launchAct, hj, hl, hn, idle, if_true, Bool.false_eq_true, if_false]

/-- A START or a POST takes its turn. -/
theorem exec_launch {tag : Word} {i : Instr} (hi : i = if start then .launchStart port tag x0 y0 w h mb else .launchPost port tag x0 y0 w h mb)
    (hs : s.Starts port i { map := true }) {v : State} (ha : launchAct start port x0 y0 w h mb (s.entryOf port tag i) (s.openJob port tag i) = (v, j)) :
    exec i s = .next (v.putJob port j) := by
  subst hi
  cases start <;> exact starts_act hs ha
end

/-! ### STREAM (R251, R384, R394) -/

/-- What a TLB keeps is no byte of host memory. -/
theorem fillTlb_port (s : State) (hub dva : Nat) (port : Bool) : (s.fillTlb hub dva).port port = s.port port := by
  have add (e : Nat × Nat) : (s.addTlb hub e).port port = s.port port := by
    unfold State.addTlb
    dsimp only
    split <;> rfl
  unfold State.fillTlb
  dsimp only
  split
  · rfl
  · split
    · exact add _
    · rfl

section
variable {s : State} {port : Bool} {host dva len : Nat} {j : HostJob} {y : Target}

theorem still_iff : s.still = true ↔ s.halted = true ∧ s.haltLeft = 0 := by simp [State.still]

theorem streamPart_toHost (ht : s.translate 0 dva false = .ok y) (hm : (s.fillTlb 0 dva).media y (pieceLen dva y.addr len) = [])
    (hb : (s.fillTlb 0 dva).tagBad y (pieceLen dva y.addr len) = false) : let z := s.fillTlb 0 dva; let n := pieceLen dva y.addr len
    s.streamPart port true host dva len = (z.hostWrite port host (bytesOf (z.readAt y n) n), n, 0) := by
  simp only [State.streamPart, Bool.not_true, ht, hm, hb, if_true, List.isEmpty_nil, Bool.false_eq_true, if_false]
theorem streamPart_fromHost (ht : s.translate 0 dva true = .ok y) (hc : (s.fillTlb 0 dva).partCheck y (pieceLen dva y.addr len) = 0) :
    let z := s.fillTlb 0 dva; let n := pieceLen dva y.addr len
    s.streamPart port false host dva len = (z.writeAt y n (recNum (s.hostRead port host n) 0 n), n, 0) := by
  simp only [State.streamPart, Bool.not_false, ht, hc, Bool.false_eq_true, if_false, State.hostRead, fillTlb_port]
/-- The stream whose bytes have all moved ends. -/
theorem streamAct_last {toHost : Bool} {v : State} {n : Nat} (hs : s.still = false) (hj : j.pos = 0) (hp : s.streamPart port toHost host dva len = (v, n, 0))
    (hn : n = len) : streamAct port toHost host dva len j s = (v, j.done 0 n) := by
  subst hn
  simp [streamAct, hs, hj, hp]
theorem streamAct_waits {toHost : Bool} (hs : s.still = true) : streamAct port toHost host dva len j s = (s, j) := if_pos hs
end

/-! ### CHECKPOINT (R426) -/

/-- The named ranges lie at multiples of 4,096 bytes. -/
def paged (l : List (Nat × Nat)) : Bool := l.all fun e => e.1 % 4096 == 0 && e.2 % 4096 == 0
theorem paged_iff {l : List (Nat × Nat)} : paged l = true ↔ ∀ e ∈ l, e.1 % 4096 = 0 ∧ e.2 % 4096 = 0 := by simp [paged]
theorem paged_eq_false_iff {l : List (Nat × Nat)} : paged l = false ↔ ∃ e ∈ l, e.1 % 4096 ≠ 0 ∨ e.2 % 4096 ≠ 0 := by
  rw [← Bool.not_eq_true, paged_iff]
  simp only [not_forall, Classical.not_and_iff_not_or_not, exists_prop]

/-- When it is taken, its ranges, its cycle and its area are checked in order (R383). -/
theorem checkpointAct_taken (s : State) (port : Bool) (tag : Word) (i : Instr) (at' dva dlen list count : Nat) :
    let l := rangeList (getList (s.port port).mem list (16 * count)) count
    let j := s.entryOf port tag i
    let v := s.openJob port tag i
    checkpointAct port at' dva dlen list count j v =
      if paged l = false then (v, j.done 0x01 0)
      else if at' < s.glob + 400 then (v, j.done 0x08 0)
      else if v.writeCkpt dva dlen l = none then (v, j.done 0x01 0)
      else (v, { j with stage := 1, at' := at', ranges := l }) := by
  unfold checkpointAct
  simp only [Bool.not_eq_true', Option.isNone_iff_eq_none, openJob_hostRead, openJob_glob]
  rfl

/-! ### RESTORE (R428) -/

theorem msCycles_pos (p : Nat) : 0 < msCycles p := by
  unfold msCycles
  split <;> decide

section
variable {s : State} {dva : Nat} {j : HostJob}
theorem restoreAct_unknown (h : ∀ c ∈ s.ckpts, c.dva ≠ dva) : restoreAct dva j s = (s, j.done 0x01 0) := by
  have none : (s.ckpts.findIdx? fun c => c.dva == dva) = none := by simpa [List.findIdx?_eq_none_iff] using h
  unfold restoreAct
  rw [none]
/-- A checkpoint that stands has its restore follow the end of the job. -/
theorem restoreAct_follows {k : Nat} {c : Ckpt} (hj : j.stage = 0) (hk : (s.ckpts.findIdx? fun c => c.dva == dva) = some k) (hc : s.ckpts[k]? = some c)
    (ha : ({ s.stopJob with aborted := false } : State).areaStatus c = 0) (hw : ({ s.stopJob with aborted := false } : State).rangesWrite c = true) :
    let v : State := { s.stopJob with aborted := false }
    restoreAct dva j s = ({ v with restoreAt := some (v.gcyc + 1 + Config.delay v.free % (3000 * msCycles v.point), k), free := v.free + 1 },
      { j with stage := 1 }) := by
  simp only [restoreAct, hk, hj, List.getD_eq_getElem?_getD, hc, Option.getD_some, ha, hw, if_true]
  rfl
end

/-! ### PREEMPT (R354) -/

section
variable {s : State} {name : Word} {node t : Nat} {j : HostJob}
theorem preemptAct_refused (hn : s.named name = some t) (h : (s.tile t).held = false ∨ (s.tile t).nKind node ≠ 1) :
    preemptAct name node j s = (s, j.done 0x01 0) := by
  have no : ((s.tile t).held && (s.tile t).nKind node == 1) = false := by
    rw [Bool.and_eq_false_iff, beq_eq_false_iff_ne]
    exact h
  simp only [preemptAct, hn, no, Bool.not_false, if_true]
theorem preemptAct_request (hj : j.stage = 0) (hn : s.named name = some t) (hh : (s.tile t).held = true) (hk : (s.tile t).nKind node = 1) :
    let g := s.gcyc + 1 + Config.delay s.free % 1024
    preemptAct name node j s = ({ s with inputs := s.inputs ++ [(g, Turn.event t 0 node .preemptRequest)], free := s.free + 1 },
      { j with stage := 1, at' := g }) := by
  have yes : ((s.tile t).held && (s.tile t).nKind node == 1) = true := by rw [hh, hk]; rfl
  simp only [preemptAct, hn, yes, hj, Bool.not_true, Bool.false_eq_true, if_false, if_true]
  rfl
end

/-- Settles O40: each command by what the case of its conditions makes of its entry in the first turn. -/
theorem jobCommands : Obligations.JobCommands := by
  unfold Obligations.JobCommands
  intro s port tag name count len x0 y0 w h mb list host dva at' dlen node n16 b t k y u goes load start st ck re pre ims here no still
  refine ⟨fun hs => ?load, fun hs => ?launch, fun hs => ?stream, fun hs hst => ?waits, fun hs => ?checkpoint, fun hs => ?restore,
    fun hn hc hb => hostCommand_unnamed hn hc hb rfl, fun hs => ?preempt⟩
  case load =>
    refine ⟨fun hi => ?_, fun ⟨e, he, h0, h1⟩ => ?_⟩
    · exact (exec_loadImage hs).trans (by rw [if_pos (reachesAll_iff.2 hi)])
    · have far : ¬s.reachesAll port ims = true := fun hr => Nat.not_le.2 h1 (reachesAll_iff.1 hr e he h0).2
      exact (exec_loadImage hs).trans (by rw [if_neg far])
  case launch =>
    have held : (u start).heldIn x0 y0 w h = here := openJob_heldIn s port tag start x0 y0 w h
    have busy (t : Nat) : ((u start).tile t).busy = (s.tile t).busy := congrArg Tile.busy (openJob_tile s port tag start t)
    refine ⟨fun hh => exec_launch rfl hs (launchAct_nowhere rfl (held.trans hh)), fun hh hb ⟨t, ht, hx⟩ => ?_, fun hh hb => ?_⟩
    · subst hb
      exact exec_launch rfl hs (launchAct_busy rfl held hh ⟨t, ht, (busy t).trans hx⟩)
    · exact exec_launch rfl hs (launchAct_goes rfl held hh fun hb' t ht => (busy t).trans (hb hb' t ht))
  case stream =>
    intro v z n hst ht hn
    have moving : v.still = false := (openJob_still.trans (Bool.eq_false_iff.2 (mt still_iff.1 hst)) :)
    refine ⟨fun hb hm hg => ?_, fun hb hc => ?_⟩
    · subst hb
      exact starts_done hs (streamAct_last moving rfl (streamPart_toHost ht hm hg) hn)
    · subst hb
      refine starts_done hs (streamAct_last moving rfl ((streamPart_fromHost ht hc).trans ?_) hn)
      rw [openJob_hostRead]
      rfl
  case waits => exact starts_act hs (streamAct_waits (openJob_still.trans (still_iff.2 hst)))
  case checkpoint =>
    have taken := checkpointAct_taken s port tag ck at'.toNat dva.toNat dlen.toNat list.toNat n16.toNat
    have inPages {l : List (Nat × Nat)} (hl : ∀ e ∈ l, e.1 % 4096 = 0 ∧ e.2 % 4096 = 0) : ¬paged l = false := ne_false_of_eq_true (paged_iff.2 hl)
    refine ⟨fun hl => starts_done hs (taken.trans (if_pos (paged_eq_false_iff.2 hl))),
      fun hl ha => starts_done hs (taken.trans ((if_neg (inPages hl)).trans (if_pos ha))), fun hl ha hw => ?_, fun hl ha hw => ?_⟩
    · exact starts_done hs (taken.trans ((if_neg (inPages hl)).trans ((if_neg (Nat.not_lt.2 ha)).trans (if_pos hw))))
    · exact starts_act hs (taken.trans ((if_neg (inPages hl)).trans ((if_neg (Nat.not_lt.2 ha)).trans (if_neg hw))))
  case restore =>
    refine ⟨fun hc => starts_done hs (restoreAct_unknown (by rwa [openJob_ckpts])), fun c hk hc => ?_⟩
    intro v ha hw
    exact ⟨_, Nat.mod_lt _ (Nat.mul_pos (by decide) (msCycles_pos _)),
      starts_act hs (restoreAct_follows rfl (by rwa [openJob_ckpts]) (by rwa [openJob_ckpts]) ha hw)⟩
  case preempt =>
    have named {t : Nat} (hn : s.named name = some t) : (u pre).named name = some t := (openJob_named s port tag pre name).trans hn
    refine ⟨fun hn hx => starts_done hs (preemptAct_refused (named hn) (by rwa [openJob_tile])), fun hn hh hk => ?_⟩
    intro v
    exact ⟨_, Nat.mod_lt _ (by decide), starts_act hs (preemptAct_request rfl (named hn) (by rwa [openJob_tile]) (by rwa [openJob_tile]))⟩

end Sys2Proof.Machine

/-! PROOFS. Arrivals: what writing the lines of a packet leaves of a tile, then each arrival by the case of its checks, the collective queue, and
what acknowledgements and credits change (R256, R266, R269 to R275, R299). -/
namespace Sys2Proof.Machine

/-! ### One packet's turn -/

/-- The tile as its only arrived packet has its turn. -/
def Tile.noArrivals (x : Tile) : Tile := { x with arrq := [] }

/-- Nothing is held back behind a packet that arrived alone. -/
theorem eachOf_single {x : Tile} {p : Packet} (hq : x.arrq = [p]) (hc : p.coderAck = false) (f : Packet → Tile → Tile) :
    x.eachOf p.kind f = f p x.noArrivals := by
  have clear : x.noArrivals.heldBack [] p = false := by simp [Tile.heldBack]
  unfold Tile.eachOf
  rw [hq, List.foldl_cons, List.foldl_nil, hc]
  simp only [bne_self_eq_false, Bool.false_or]
  exact if_neg (ne_true_of_eq_false clear)

/-- An event that changes the tile whose turn it is does what that tile shows. -/
theorem does_upHere {s : State} {i : Instr} {f : Tile → Tile} {P : State → Prop} (hi : exec i s = .next (s.upHere f))
    (hp : ∀ u : State, u.here = f s.here → P u) : s.Does i P := ⟨_, hi, hp _ (s.here_setTile _)⟩
theorem does_eachOf {s : State} {i : Instr} {p : Packet} {k : Nat} {f : Packet → Tile → Tile} {P : State → Prop} (hi : exec i s = .next (s.eachOf k f))
    (hq : s.here.arrq = [p]) (hc : p.coderAck = false) (hk : p.kind = k) (hp : ∀ u : State, u.here = f p s.here.noArrivals → P u) : s.Does i P := by
  subst hk
  exact does_upHere hi fun u hu => hp u (hu.trans (eachOf_single hq hc f))

/-! ### What the turn of a packet leaves alone -/

/-- What a packet's turn shows of a tile apart from its channels: the memories, the lee buffer, the packets that wait, and the collective queue. -/
def Tile.sides (x : Tile) : Memory × Memory × List LeeE × List Packet × SMap CqE := (x.tm, x.ds, x.lee, x.arrq, x.cq)
theorem Tile.sides_eq_iff {x y : Tile} : y.sides = x.sides ↔ y.tm = x.tm ∧ y.ds = x.ds ∧ y.lee = x.lee ∧ y.arrq = x.arrq ∧ y.cq = x.cq := by
  simp only [Tile.sides, Prod.mk.injEq]

theorem Tile.sides_touch (x : Tile) (k l : Nat) : (x.touch k l).sides = x.sides := by
  unfold Tile.touch
  split <;> rfl
theorem Tile.sides_touchRange (x : Tile) (k a n : Nat) : (x.touchRange k a n).sides = x.sides := by
  unfold Tile.touchRange
  split
  · rfl
  · exact foldl_keeps Tile.sides (fun y l => y.sides_touch k l) _ x
theorem Tile.sides_meetWords (x : Tile) (k : Nat) (f : Nat → Bool) : (x.meetWords k f).sides = x.sides := by
  unfold Tile.meetWords
  split
  · rfl
  · refine (foldl_keeps Tile.sides (fun y e => ?_) _ _).trans (foldl_keeps Tile.sides (fun y e => y.sides_touch _ _) _ x)
    split <;> rfl
theorem Tile.sides_arrival (x : Tile) (tc c k cls : Nat) (fl : BitVec 11) : (x.arrival tc c k cls fl).sides = x.sides := by
  unfold Tile.arrival
  split <;> rfl
theorem Tile.sides_postDeposits (x : Tile) (tc n k : Nat) : (x.postDeposits tc n k).sides = x.sides := by
  induction k generalizing x with
  | zero => rfl
  | succ k ih =>
    unfold Tile.postDeposits
    dsimp only
    split
    · rfl
    · rw [ih, Tile.sides_arrival]; rfl

/-- A packet that has performed leaves its acknowledgement. -/
theorem Tile.sides_performed (x : Tile) (tc : Nat) (p : Packet) (fl : BitVec 11) : (x.performed tc p fl).sides = (x.ackOf tc p false).sides := by
  unfold Tile.performed
  refine (Tile.sides_postDeposits _ _ _ _).trans ?_
  split <;> rfl

/-! ### Lines (R258) -/

/-- In all that `Tile.sides` holds, y is x but for the bytes of the 64-byte lines l. -/
structure Tile.WritesLines (l : List Nat) (x y : Tile) : Prop where
  outside : ∀ a, (∀ b ∈ l, a < b ∨ b + 64 ≤ a) → y.tmRead a 1 = x.tmRead a 1
  ds : y.ds = x.ds
  lee : y.lee = x.lee
  arrq : y.arrq = x.arrq
  cq : y.cq = x.cq

theorem Tile.WritesLines.of_sides {x y : Tile} (h : y.sides = x.sides) : Tile.WritesLines [] x y := by
  obtain ⟨tm, ds, lee, arrq, cq⟩ := Tile.sides_eq_iff.1 h
  exact ⟨fun a _ => congrArg (sgetBytes · a 1) tm, ds, lee, arrq, cq⟩
theorem Tile.WritesLines.trans {k l : List Nat} {x y z : Tile} (h : Tile.WritesLines k x y) (h' : Tile.WritesLines l y z) :
    Tile.WritesLines (k ++ l) x z where
  outside a ha := (h'.outside a fun b hb => ha b (List.mem_append_right k hb)).trans (h.outside a fun b hb => ha b (List.mem_append_left l hb))
  ds := h'.ds.trans h.ds
  lee := h'.lee.trans h.lee
  arrq := h'.arrq.trans h.arrq
  cq := h'.cq.trans h.cq

theorem Tile.WritesLines.of_sides_before {l : List Nat} {x y z : Tile} (hs : y.sides = x.sides) (h : Tile.WritesLines l y z) :
    Tile.WritesLines l x z := by
  have both := (Tile.WritesLines.of_sides hs).trans h
  exact both

theorem Tile.writesLines_tmWrite (x : Tile) (a v p : Nat) : Tile.WritesLines [a] x (x.tmWrite a 64 v p) := by
  obtain ⟨tm, ds, -, -⟩ := tmWrite_frame x a 64 v p
  obtain ⟨-, -, lee, arrq, cq⟩ := Tile.sides_eq_iff.1 (((x.meetParts 0 a 64).sides_touchRange 0 a 64).trans (x.sides_meetWords 0 _))
  exact ⟨fun b hb => tmRead_of_write_out tm (hb a (List.mem_singleton_self a)), ds, lee, arrq, cq⟩
theorem Tile.writesLines_redLine (x : Tile) (rop a : Nat) (v : Nat × Nat) : Tile.WritesLines [a] x (x.redLine rop a v).1 :=
  .of_sides_before ((x.claim a).sides_meetWords 0 _) (Tile.writesLines_tmWrite _ a _ _)

/-- Lines that are written one after the other. -/
theorem Tile.WritesLines.foldl {α : Type} {t : α → Tile} {f : α → Nat × Nat → α} (h : ∀ r e, Tile.WritesLines [e.2] (t r) (t (f r e)))
    (l : List (Nat × Nat)) (r : α) : Tile.WritesLines (l.map Prod.snd) (t r) (t (l.foldl f r)) := by
  induction l generalizing r with
  | nil => exact .of_sides rfl
  | cons e l ih => exact (h r e).trans (ih (f r e))
theorem map_snd_zip_upto (l : List Nat) {n : Nat} (h : l.length = n) : ((upto 0 n).zip l).map Prod.snd = l :=
  List.map_snd_zip (by rw [upto_eq_range, List.length_range, h])

/-- The tile has n more writes in its journal (R406). -/
def Tile.journaled (x : Tile) (n : Nat) : Tile := { x with journal := x.journal + n }
/-- Line e.1 of a packet goes to address e.2. -/
def Tile.putLine (p : Packet) (x : Tile) (e : Nat × Nat) : Tile := (x.claim e.2).tmWrite e.2 64 (p.line e.1).1 (p.line e.1).2
theorem Tile.putLines_eq (x : Tile) (p : Packet) (l : List Nat) :
    x.putLines p l = ((upto 0 l.length).zip l).foldl (Tile.putLine p) (x.journaled l.length) := rfl
theorem Tile.writesLines_putLines (x : Tile) (p : Packet) (l : List Nat) : Tile.WritesLines l x (x.putLines p l) := by
  have each (y : Tile) (e : Nat × Nat) : Tile.WritesLines [e.2] y (y.putLine p e) := .of_sides_before (y := y.claim e.2) rfl (Tile.writesLines_tmWrite _ _ _ _)
  have turns := Tile.WritesLines.foldl (t := id) each ((upto 0 l.length).zip l) (x.journaled l.length)
  rw [map_snd_zip_upto l rfl] at turns
  rw [Tile.putLines_eq]
  exact .of_sides_before (y := x.journaled l.length) rfl turns

theorem length_linesOf (a n : Nat) : (linesOf a (64 * n)).length = n := by
  rw [linesOf, List.length_map, upto_eq_range, List.length_range]
  omega
theorem linesOf_single (a : Nat) : linesOf a (64 * 1) = [a] := rfl
theorem ringLines_single {p : Packet} (c : Chan) (h : p.nfl = 1) : c.ringLines p = [(c.ringLines p).headD 0] := by
  simp only [Chan.ringLines, h]
  rfl

theorem Tile.tmRead_tmWrite_self (x : Tile) (a v p : Nat) : (x.tmWrite a 64 v p).tmRead a 64 = v % 2 ^ 512 := by
  obtain ⟨tm, -⟩ := tmWrite_frame x a 64 v p
  rw [Tile.tmRead, tm, sgetBytes_ssetBytes, Nat.pow_mul 2 8 64]
theorem sgetBytes_lt (m : SMap Byte) (k n : Nat) : sgetBytes m k n < 256 ^ n := by
  induction n generalizing k with
  | zero => exact Nat.one_pos
  | succ n ih =>
    have low := (sget 0#8 m k).isLt
    have high := ih (k + 1)
    simp only [sgetBytes, Nat.pow_succ]
    omega
theorem Tile.tmRead_putLines_single (x : Tile) (p : Packet) (a : Nat) : (x.putLines p [a]).tmRead a 64 = (p.line 0).1 % 2 ^ 512 :=
  Tile.tmRead_tmWrite_self _ _ _ _

/-- No bank is in use before the first access of a cycle. -/
theorem Tile.all_bankFree {x : Tile} (h : x.banks = []) (l : List Nat) : l.all x.bankFree = true := by
  simp [Tile.bankFree, h]

/-- Line e.1 of a packet is combined into address e.2, with the flags that were. -/
def Tile.reduceLine (rop : Nat) (p : Packet) (r : Tile × BitVec 11) (e : Nat × Nat) : Tile × BitVec 11 :=
  let q := r.1.redLine rop e.2 (p.line e.1)
  (q.1, r.2 ||| q.2)
/-- The lines of a reduce deposit, each combined with what stands there; the flags of all. -/
def Tile.reduceLines (x : Tile) (rop : Nat) (p : Packet) (l : List Nat) : Tile × BitVec 11 :=
  ((upto 0 p.nfl).zip l).foldl (Tile.reduceLine rop p) (x.journaled p.nfl, 0#11)
theorem Tile.writesLines_reduceLines (x : Tile) (rop : Nat) (p : Packet) {l : List Nat} (h : l.length = p.nfl) :
    Tile.WritesLines l x (x.reduceLines rop p l).1 := by
  have each (r : Tile × BitVec 11) (e : Nat × Nat) : Tile.WritesLines [e.2] r.1 (Tile.reduceLine rop p r e).1 := Tile.writesLines_redLine _ _ _ _
  have turns := Tile.WritesLines.foldl (t := Prod.fst) each ((upto 0 p.nfl).zip l) (x.journaled p.nfl, 0#11)
  rw [map_snd_zip_upto l h] at turns
  exact .of_sides_before (y := x.journaled p.nfl) rfl turns
/-- One line is combined with the 64 bytes that stand there, where no error is latent in them. -/
theorem Tile.tmRead_reduceLines_single {x : Tile} (he : x.errs = []) (rop : Nat) {p : Packet} (h : p.nfl = 1) (a : Nat) :
    (x.reduceLines rop p [a]).1.tmRead a 64 = (redBytes rop 64 (x.tmRead a 64) (x.tmPoiR a 64) (p.line 0).1 (p.line 0).2).1 % 2 ^ 512 := by
  have clear : ((x.journaled 1).claim a).meet 0 a 64 = (x.journaled 1).claim a := Tile.meet_of_errs_nil (by exact he) 0 a 64
  have one : (x.reduceLines rop p [a]).1 = ((x.journaled 1).redLine rop a (p.line 0)).1 := by rw [Tile.reduceLines, h]; rfl
  rw [one, Tile.redLine, clear]
  exact Tile.tmRead_tmWrite_self _ _ _ _

/-! ### A packet that performs (R266, R269, R274) -/

/-- A packet that changed only its lines, and then put one entry into the lee buffer: what it leaves of the tile. -/
theorem took_of_writes {l : List Nat} {x z y : Tile} {e : LeeE} (hw : Tile.WritesLines l x.noArrivals z) (tm : y.tm = z.tm) (ds : y.ds = z.ds)
    (lee : y.lee = z.lee ++ [e]) (arrq : y.arrq = z.arrq) :
    y.arrq = [] ∧ y.lee = x.lee ++ [e] ∧ (∀ a, (∀ b ∈ l, a < b ∨ b + 64 ≤ a) → y.tmRead a 1 = x.tmRead a 1) ∧ y.ds = x.ds :=
  ⟨arrq.trans hw.arrq, lee.trans (congrArg (· ++ [e]) hw.lee), fun a ha => (congrArg (sgetBytes · a 1) tm).trans (hw.outside a ha), ds.trans hw.ds⟩
theorem tmRead_of_sides {x y : Tile} (h : y.sides = x.sides) (a n : Nat) : y.tmRead a n = x.tmRead a n :=
  congrArg (sgetBytes · a n) (Tile.sides_eq_iff.1 h).1

theorem entry_upEntry (x : Tile) (n : Nat) (f : CqE → CqE) : (x.upEntry n f).entry n = f (x.entry n) := sget_sset_self _ _ _ _

/-! ### Deposits, direct writes, contributions (R269, R270, R274, R275) -/

section
variable {x : Tile} {gc tc : Nat} {p : Packet} {c : Chan} (hc : x.chan p.dch = c)
include hc

theorem ringDeposit_not_taken (ht : c.takes p 0 = false) : x.ringDeposit gc tc p = x.discard gc p := by
  simp [Tile.ringDeposit, hc, ht]
theorem ringDeposit_again (ht : c.takes p 0 = true) (ha : c.again p = true) : x.ringDeposit gc tc p = x.ackOf tc p false := by
  simp [Tile.ringDeposit, hc, ht, ha, Tile.repeated]
theorem ringDeposit_performs (ht : c.takes p 0 = true) (ha : c.again p = false) (hb : x.banks = []) :
    x.ringDeposit gc tc p = (x.putLines p (c.ringLines p)).performed tc p 0#11 := by
  simp only [Tile.ringDeposit, hc, ht, ha, x.all_bankFree hb, Bool.not_true, Bool.false_eq_true, if_false, if_true]

theorem reduceDeposit_not_taken (ht : c.takes p 2 = false) : x.reduceDeposit gc tc p = x.discard gc p := by
  simp [Tile.reduceDeposit, hc, ht]
theorem reduceDeposit_waits (ht : c.takes p 2 = true) (ha : c.again p = false) (hs : p.seq ≠ c.eq) : x.reduceDeposit gc tc p = x.keep p := by
  simp [Tile.reduceDeposit, hc, ht, ha, hs]
theorem reduceDeposit_performs (ht : c.takes p 2 = true) (ha : c.again p = false) (hs : p.seq = c.eq) (hb : x.banks = []) :
    let r := x.reduceLines c.rop p (linesOf (c.rbase + 512 * p.pix) (64 * p.nfl))
    x.reduceDeposit gc tc p = r.1.performed tc p r.2 := by
  simp only [Tile.reduceDeposit, hc, ht, ha, x.all_bankFree hb, Bool.not_true, Bool.false_eq_true, if_false, hs, and_self, if_true]
  rfl

theorem directWrite_refused (hv : c.rv = true) (hm : c.mode = 1) (hr : p.rangeOk = false) : x.directWrite gc tc p = x.ackOf tc p true := by
  simp [Tile.directWrite, hc, hv, hm, hr]
/-- A direct write that is taken: its lines, its acknowledgement, then what its channel notes or posts. -/
theorem directWrite_performs (hv : c.rv = true) (hm : c.mode = 1) (hr : p.rangeOk = true) (hb : x.banks = []) :
    (x.directWrite gc tc p).sides = ((x.putLines p (linesOf p.ofs (64 * p.nfl))).ackOf tc p false).sides := by
  simp only [Tile.directWrite, hc, hv, hm, hr, x.all_bankFree hb, Bool.not_true, Bool.false_eq_true, if_false, beq_self_eq_true, Bool.and_self]
  split
  · exact Tile.sides_arrival _ _ _ _ _ _
  · rfl

section
variable {e : CqE} (he : x.entry (p.ofs % 256) = e)
include he
theorem contribution_refused (hv : c.rv = true) (hm : c.mode = 1) (hg : ¬(e.v = true ∧ e.kind = 3 ∧ p.ofs / 256 % 64 ≤ e.idx ∧ p.slen = 64 * e.len)) :
    x.contribution gc tc p = x.ackOf tc p true := by
  have bad : (e.v && e.kind == 3 && decide (p.ofs / 256 % 64 ≤ e.idx) && p.slen == 64 * e.len) = false := by
    rw [Bool.eq_false_iff]
    simpa [and_assoc] using hg
  simp only [Tile.contribution, hc, he, hv, hm, bad, beq_self_eq_true, Bool.and_self, Bool.not_true, Bool.not_false, Bool.false_eq_true, if_false, if_true]

variable (hv : c.rv = true) (hm : c.mode = 1) (hg : e.v = true ∧ e.kind = 3 ∧ p.ofs / 256 % 64 ≤ e.idx ∧ p.slen = 64 * e.len)
include hv hm hg
theorem contribution_waits (hf : p.ofs / 256 % 64 ∈ e.full) : x.contribution gc tc p = x.keep p := by
  obtain ⟨h1, h2, h3, h4⟩ := hg
  have taken : x.slotTaken p = true := by simp [Tile.slotTaken, he, hf]
  simp [Tile.contribution, hc, he, hv, hm, h1, h2, h3, h4, taken]
/-- A contribution into a free slot, the first packet of its send: its lines, its acknowledgement, and the entry that counts it. -/
theorem contribution_performs (hf : p.ofs / 256 % 64 ∉ e.full) (hp : e.parts = []) (hb : x.banks = []) :
    let z := (x.putLines p (linesOf (e.raddr + p.ofs / 256 % 64 * 64 * e.len + 512 * p.pix) (64 * p.nfl))).ackOf tc p false
    let y := x.contribution gc tc p
    y.tm = z.tm ∧ y.ds = z.ds ∧ y.lee = z.lee ∧ y.arrq = z.arrq
      ∧ (1 = packetsOf p.slen → (y.entry (p.ofs % 256)).full = e.full ++ [p.ofs / 256 % 64]) := by
  intro z y
  obtain ⟨h1, h2, h3, h4⟩ := hg
  have free : x.slotTaken p = false := by simp [Tile.slotTaken, he, hf, hp]
  have performs : y = z.upEntry (p.ofs % 256) fun f => if 1 = packetsOf p.slen then { f with parts := [], full := f.full ++ [p.ofs / 256 % 64] }
      else { f with parts := [(p.ofs / 256 % 64 + 64 * (p.orig * 2 ^ 32 + p.seq), 1)] } := by
    simp [y, z, Tile.contribution, hc, he, hv, hm, h1, h2, h3, h4, free, hp, x.all_bankFree hb]
  have same : z.entry (p.ofs % 256) = e := (congrArg (fun q : SMap CqE => sget {} q (p.ofs % 256)) (Tile.writesLines_putLines x p _).cq).trans he
  rw [performs]
  refine ⟨rfl, rfl, rfl, rfl, fun h => ?_⟩
  rw [entry_upEntry, same, if_pos h]
end
end

/-! ### The collective queue (R273, R275) -/

theorem entry_single {x : Tile} {n : Nat} {e : CqE} (h : x.cq = [(n, e)]) : x.entry n = e := by
  simp [Tile.entry, h, sget]

/-- A collective queue of one entry has one turn. -/
theorem exec_reduceTargetCombine_single {s : State} {n : Nat} {e : CqE} (h : s.here.cq = [(n, e)]) :
    exec .reduceTargetCombine s = .next (s.upHere fun x => x.combine (s.tcyc s.curT) n) := by
  show execReduceTargetCombine s = _
  simp only [execReduceTargetCombine, State.upHere_eq, h, List.map_cons, List.map_nil, List.foldl_cons, List.foldl_nil]
theorem exec_cqEntryFire_single {s : State} {n : Nat} {e : CqE} (h : s.here.cq = [(n, e)]) :
    exec .cqEntryFire s = .next (s.upHere fun x => x.fire (s.tcyc s.curT) n) := by
  show execCqEntryFire s = _
  simp only [execCqEntryFire, State.upHere_eq, h, List.map_cons, List.map_nil, List.foldl_cons, List.foldl_nil]

/-- A block of slot 0 is copied to the target, where it is not the slot's last one. -/
theorem combine_copies {x : Tile} {tc n : Nat} {e : CqE} (hn : x.entry n = e) (hb : x.banks = []) (hr : x.errs = []) (hv : e.v = true) (hk : e.kind = 3)
    (hs : e.st = 1) (hf : e.forced = true) (hj : e.j = 0) (h0 : 0 ∈ e.full) (hl : e.pos + 1 < e.len) : x.combine tc n =
      (((x.claim (e.raddr + 64 * e.pos)).claim (e.loc + 64 * e.pos)).tmWrite (e.loc + 64 * e.pos) 64 (x.tmRead (e.raddr + 64 * e.pos) 64)
        (x.tmPoiR (e.raddr + 64 * e.pos) 64)).upEntry n fun _ => { e with pos := e.pos + 1 } := by
  have free (a : Nat) : x.bankFree a = true := by simp [Tile.bankFree, hb]
  have clear (a : Nat) : (x.claim a).meet 0 a 64 = x.claim a := Tile.meet_of_errs_nil (by exact hr) 0 a 64
  simp [Tile.combine, hn, hv, hk, hs, hf, hj, h0, hl, free, clear]
  rfl

/-- Its bytes stand at the target, the entry has moved on, and nothing else of the memories has changed. -/
theorem combine_copies_leaves {x : Tile} {tc n : Nat} {e : CqE} (hn : x.entry n = e) (hb : x.banks = []) (hr : x.errs = []) (hv : e.v = true)
    (hk : e.kind = 3) (hs : e.st = 1) (hf : e.forced = true) (hj : e.j = 0) (h0 : 0 ∈ e.full) (hl : e.pos + 1 < e.len) :
    (x.combine tc n).tmRead (e.loc + 64 * e.pos) 64 = x.tmRead (e.raddr + 64 * e.pos) 64 ∧ (x.combine tc n).entry n = { e with pos := e.pos + 1 }
      ∧ (∀ a, (∀ b ∈ [e.loc + 64 * e.pos], a < b ∨ b + 64 ≤ a) → (x.combine tc n).tmRead a 1 = x.tmRead a 1) ∧ (x.combine tc n).ds = x.ds := by
  rw [combine_copies hn hb hr hv hk hs hf hj h0 hl]
  have writes := Tile.writesLines_tmWrite ((x.claim (e.raddr + 64 * e.pos)).claim (e.loc + 64 * e.pos)) (e.loc + 64 * e.pos)
    (x.tmRead (e.raddr + 64 * e.pos) 64) (x.tmPoiR (e.raddr + 64 * e.pos) 64)
  refine ⟨?_, entry_upEntry _ _ _, writes.outside, writes.ds⟩
  refine (Tile.tmRead_tmWrite_self _ _ _ (x.tmPoiR (e.raddr + 64 * e.pos) 64)).trans (Nat.mod_eq_of_lt ?_)
  rw [Nat.pow_mul 2 8 64]
  exact sgetBytes_lt _ _ _

theorem armedNow_iff (x : Tile) (e : CqE) : x.armedNow e = true ↔ e.v = true ∧ e.st = 1 ∧ (e.forced = true ∨ e.thr ≤ ((x.core e.core).token e.atok).arr) := by
  simp [Tile.armedNow, and_assoc]
theorem fire_not_armed {x : Tile} {tc n : Nat} {e : CqE} (hn : x.entry n = e) (h : x.armedNow e = false) : x.fire tc n = x := by
  simp [Tile.fire, hn, h]
theorem fire_target {x : Tile} {tc n : Nat} {e : CqE} (hn : x.entry n = e) (h : x.armedNow e = true) (hk : e.kind = 3) :
    (x.fire tc n).entry n = { e with forced := true } ∧ (x.fire tc n).sends = x.sends := by
  have fires : x.fire tc n = x.upEntry n fun e => { e with forced := true } := by simp [Tile.fire, hn, h, hk]
  rw [fires, entry_upEntry, hn]
  exact ⟨rfl, rfl⟩
/-- The send that an entry other than a target becomes (R273, R275), with number m. -/
def CqE.job (e : CqE) (c : Chan) (n m tc : Nat) : SendJob :=
  { n := m, core := e.core, kind := if e.kind = 1 then 3 else 4, cls := c.cls + 4, dch := c.dch, dest := c.dest, entry := some n
    addr := e.loc, len := 64 * e.len, seq := c.sq, raddr := e.raddr, pix := e.idx, wake := tc + 3 }
theorem fire_sends {x : Tile} {tc n : Nat} {e : CqE} (hn : x.entry n = e) (h : x.armedNow e = true) (hk : e.kind ≠ 3) :
    ((x.fire tc n).entry n).st = 2 ∧ ((x.fire tc n).entry n).left = packetsOf (64 * e.len)
      ∧ (x.fire tc n).sends = x.sends ++ [e.job (x.chan e.ch) n x.cmdSeq tc] := by
  let y : Tile := ({ x with cmdSeq := x.cmdSeq + 1, sends := x.sends ++ [e.job (x.chan e.ch) n x.cmdSeq tc] } : Tile).upChan e.ch
    fun c => { c with sq := (c.sq + 1) % 2 ^ 32 }
  have fires : x.fire tc n = y.upEntry n fun e => { e with st := 2, forced := false, left := packetsOf (64 * e.len), bad := false } := by
    simp only [Tile.fire, hn, h, hk, Bool.not_true, Bool.false_eq_true, if_false]
    rfl
  have same : y.entry n = e := hn
  rw [fires, entry_upEntry, same]
  exact ⟨rfl, rfl, rfl⟩

theorem pend_postLater (x : Tile) (tc c k : Nat) :
    ((x.postLater tc c k).core c).pend = (x.core c).pend ++ [{ at' := tc + 1, mon := true, effs := [.post k 0] }] :=
  congrArg Core.pend (Tile.core_setCore x c _)

/-! ### Acknowledgements and credits at their sender (R262, R266, R271, R299) -/

/-- What the fence knows a packet by. -/
def Packet.fenceKey (p : Packet) : Nat × Nat × Nat × Nat × Nat := (p.cls, p.dch, p.orig, p.seq, p.pix)
/-- The fence has counted the acknowledgement of p. -/
def Tile.fenced (x : Tile) (p : Packet) : Tile :=
  { x with outst := x.outst.erase p.fenceKey, fence := sset 0 x.fence p.cls (sget 0 x.fence p.cls - 1) }

section
variable {x : Tile} {tc : Nat} {p : Packet}
theorem acked_not_outstanding (h : p.fenceKey ∉ x.outst) : x.acked tc p = x := by
  unfold Packet.fenceKey at h
  simp [Tile.acked, h]

variable (h : p.fenceKey ∈ x.outst) (he : p.entry = none)
include h he
/-- What becomes of the fence does not turn on a send.rel. -/
theorem acked_fence (tc : Nat) : (x.acked tc p).arrq = x.arrq ∧ (x.acked tc p).outst = x.outst.erase p.fenceKey
    ∧ sget 0 (x.acked tc p).fence p.cls = sget 0 x.fence p.cls - 1 := by
  have counted : sget 0 (x.fenced p).fence p.cls = sget 0 x.fence p.cls - 1 := sget_sset_self _ _ _ _
  have inOutst : x.outst.contains (p.cls, p.dch, p.orig, p.seq, p.pix) = true := List.contains_iff_mem.2 h
  simp only [Tile.acked, inOutst, he, Bool.not_true, Bool.false_eq_true, if_false]
  split
  · split
    · exact ⟨rfl, rfl, counted⟩
    · exact ⟨rfl, rfl, counted⟩
  · exact ⟨rfl, rfl, counted⟩

variable {r : RelWait} (hr : x.rels = [r]) (hd : r.dch = p.dch) (ho : r.dest = p.orig) (hs : r.seq = p.seq)
include hr hd ho hs
/-- The last acknowledgement of the only send.rel posts its token. -/
theorem acked_release_ends (tc : Nat) (hl : r.left ≤ 1) : (x.acked tc p).rels = []
    ∧ ((x.acked tc p).core r.core).pend = (x.core r.core).pend ++ [{ at' := tc + 1, mon := true, effs := [.post r.k 0] }] := by
  have inOutst : x.outst.contains (p.cls, p.dch, p.orig, p.seq, p.pix) = true := List.contains_iff_mem.2 h
  have posts : x.acked tc p = { x.fenced p with rels := [] }.postLater tc r.core r.k := by
    simp only [Tile.acked, inOutst, he, hr, hd, ho, hs, hl, Bool.not_true, Bool.false_eq_true, if_false, List.find?_cons, beq_self_eq_true, Bool.and_self, if_true,
      List.filter_cons, bne_self_eq_false, List.filter_nil]
    rfl
  rw [posts]
  exact ⟨rfl, pend_postLater { x.fenced p with rels := [] } tc r.core r.k⟩
theorem acked_release_waits (tc : Nat) (hl : 1 < r.left) : x.acked tc p = { x.fenced p with rels := [{ r with left := r.left - 1 }] } := by
  have inOutst : x.outst.contains (p.cls, p.dch, p.orig, p.seq, p.pix) = true := List.contains_iff_mem.2 h
  simp only [Tile.acked, inOutst, he, hr, hd, ho, hs, Nat.not_le.2 hl, Bool.not_true, Bool.false_eq_true, if_false, List.find?_cons, beq_self_eq_true,
    Bool.and_self, if_true, List.map_cons, List.map_nil]
  rfl
end

/-- A credit reaches the send side that it matches. -/
theorem credited_single {x : Tile} {p : Packet} {c : Chan} (hx : x.chans = [(p.dch, c)]) (hv : c.sv = true) (hg : c.grp = false)
    (hc : c.score = nameCore p.dest) (hd : c.dch = p.dch) (hX : nameX c.dest = nameX p.orig) (hY : nameY c.dest = nameY p.orig) :
    (x.credited p).chans = [(p.dch, { c with cr := min (c.cr + p.ofs) (4096 * 2 ^ c.win) })] := by
  simp [Tile.credited, hx, hv, hg, hc, hd, sameTile, hX, hY, winBytes]

/-- Settles O46: each arrival by the case of its checks; where it performs, its lines are written and its acknowledgement follows. -/
theorem arrivalEvents : Obligations.ArrivalEvents := by
  unfold Obligations.ArrivalEvents
  intro s p c e r n x tc quiet ack only one dropped refused took
  have discards {u : State} (hu : u.here = x.noArrivals.discard s.glob p) : dropped u := by
    simp only [dropped, hu]
    exact ⟨rfl, rfl, rfl, rfl⟩
  have refuses {u : State} (hu : u.here = x.noArrivals.ackOf tc p true) : refused u := by
    simp only [refused, hu]
    exact ⟨rfl, rfl, rfl, rfl⟩
  have takes {u : State} {l : List Nat} {z : Tile} (hw : Tile.WritesLines l x.noArrivals z) (hu : u.here.sides = (z.ackOf tc p false).sides) : took l u := by
    obtain ⟨tm, ds, lee, arrq, -⟩ := Tile.sides_eq_iff.1 hu
    exact took_of_writes hw tm ds lee arrq
  refine ⟨fun hq hk => ?ring, fun hq hk => ?reduce, fun hq hk => ?direct, fun hq hk hv hm => ?contribution, fun hb hr hx hv hk hs hf hj h0 hl => ?combine,
    fun hx hv hs ha => ?fire, fun hx hv hs hf ha => ?waits, fun hq hk hp => ?acked, fun hq hk hp he => ?fence, fun hq hk hx hv hg hc hd hX hY => ?credit⟩
  case ring =>
    obtain ⟨hb, -, hq, ha, hc⟩ := hq
    refine ⟨fun ht hg => does_eachOf rfl hq ha hk fun u hu => ?_, fun ht => does_eachOf rfl hq ha hk fun u hu => ?_,
      fun ht hg => does_eachOf rfl hq ha hk fun u hu => ?_⟩
    · rw [ringDeposit_performs (x := x.noArrivals) hc ht hg hb] at hu
      have sides := (congrArg Tile.sides hu).trans (Tile.sides_performed _ _ _ _)
      refine ⟨takes (Tile.writesLines_putLines _ _ _) sides, fun h1 => ?_⟩
      rw [tmRead_of_sides sides, ringLines_single c h1]
      exact Tile.tmRead_putLines_single _ _ _
    · exact discards (hu.trans (ringDeposit_not_taken (x := x.noArrivals) hc ht))
    · rw [ringDeposit_again (x := x.noArrivals) hc ht hg] at hu
      exact takes (.of_sides rfl) (congrArg Tile.sides hu)
  case reduce =>
    obtain ⟨hb, he, hq, ha, hc⟩ := hq
    refine ⟨fun ht hg hs => does_eachOf rfl hq ha hk fun u hu => ?_, fun ht hg hs => does_eachOf rfl hq ha hk fun u hu => ?_,
      fun ht => does_eachOf rfl hq ha hk fun u hu => ?_⟩
    · rw [reduceDeposit_performs (x := x.noArrivals) hc ht hg hs hb] at hu
      have sides := (congrArg Tile.sides hu).trans (Tile.sides_performed _ _ _ _)
      refine ⟨takes (Tile.writesLines_reduceLines _ _ _ (length_linesOf _ _)) sides, fun h1 => ?_⟩
      rw [tmRead_of_sides sides, h1, linesOf_single]
      exact Tile.tmRead_reduceLines_single (x := x.noArrivals) he _ h1 _
    · rw [hu, reduceDeposit_waits (x := x.noArrivals) hc ht hg hs]
      exact ⟨rfl, rfl⟩
    · exact discards (hu.trans (reduceDeposit_not_taken (x := x.noArrivals) hc ht))
  case direct =>
    obtain ⟨hb, -, hq, ha, hc⟩ := hq
    refine ⟨fun hv hm hr => does_eachOf rfl hq ha hk fun u hu => ?_, fun hv hm hr => does_eachOf rfl hq ha hk fun u hu => ?_⟩
    · have sides := (congrArg Tile.sides hu).trans (directWrite_performs (x := x.noArrivals) hc hv hm hr hb)
      refine ⟨takes (Tile.writesLines_putLines _ _ _) sides, fun h1 => ?_⟩
      rw [tmRead_of_sides sides, h1, linesOf_single]
      exact Tile.tmRead_putLines_single _ _ _
    · exact refuses (hu.trans (directWrite_refused (x := x.noArrivals) hc hv hm hr))
  case contribution =>
    obtain ⟨hb, -, hq, ha, hc⟩ := hq
    intro e i good a
    refine ⟨fun hg hf hp => does_eachOf rfl hq ha hk fun u hu => ?_, fun hg hf => does_eachOf rfl hq ha hk fun u hu => ?_,
      fun hg => does_eachOf rfl hq ha hk fun u hu => ?_⟩
    · obtain ⟨tm, ds, lee, arrq, full⟩ := contribution_performs (x := x.noArrivals) (gc := s.glob) (tc := tc) hc (e := e) rfl hv hm hg hf hp hb
      simp only [took, only, hu]
      refine ⟨took_of_writes (Tile.writesLines_putLines _ _ _) tm ds lee arrq, fun hmax h0 => full ?_, fun h1 => ?_⟩
      · unfold packetsOf
        omega
      · refine (congrArg (sgetBytes · a 64) tm).trans ?_
        rw [h1, linesOf_single]
        exact Tile.tmRead_putLines_single _ _ _
    · rw [hu, contribution_waits (x := x.noArrivals) hc (e := e) rfl hv hm hg hf]
      exact ⟨rfl, rfl⟩
    · exact refuses (hu.trans (contribution_refused (x := x.noArrivals) hc (e := e) rfl hv hm hg))
  case combine =>
    refine does_upHere (exec_reduceTargetCombine_single hx) fun u hu => ?_
    simp only [only, hu]
    exact combine_copies_leaves (entry_single hx) hb hr hv hk hs hf hj h0 hl
  case fire =>
    refine does_upHere (exec_cqEntryFire_single hx) fun u hu => ?_
    have armed : x.armedNow e = true := (armedNow_iff x e).2 ⟨hv, hs, ha⟩
    rw [hu]
    refine ⟨fire_target (entry_single hx) armed, fun hk => ?_⟩
    obtain ⟨st, left, sends⟩ := fire_sends (tc := tc) (entry_single hx) armed hk
    exact ⟨st, left, _, sends, rfl, rfl, rfl, rfl, rfl⟩
  case waits =>
    refine does_upHere (exec_cqEntryFire_single hx) fun u hu => ?_
    have idle : x.armedNow e = false := by
      rw [Bool.eq_false_iff, ne_eq, armedNow_iff]
      rintro ⟨-, -, h | h⟩
      · exact absurd h (ne_true_of_eq_false hf)
      · exact absurd h (Nat.not_le.2 ha)
    rw [hu, fire_not_armed (entry_single hx) idle]
    exact ⟨rfl, rfl⟩
  case acked =>
    obtain ⟨-, -, hq, ha, -⟩ := hq
    exact does_eachOf rfl hq ha hk fun u hu => hu.trans (acked_not_outstanding hp)
  case fence =>
    obtain ⟨-, -, hq, ha, -⟩ := hq
    refine does_eachOf rfl hq ha hk fun u hu => ?_
    obtain ⟨arrq, outst, fence⟩ := acked_fence (x := x.noArrivals) hp he tc
    rw [hu]
    refine ⟨arrq, outst, fence, fun hr hd ho hs => ⟨fun hl => ?_, fun hl => ?_⟩⟩
    · exact acked_release_ends (x := x.noArrivals) hp he hr hd ho hs tc hl
    · rw [acked_release_waits (x := x.noArrivals) hp he hr hd ho hs tc hl]
      exact ⟨rfl, rfl⟩
  case credit =>
    obtain ⟨-, -, hq, ha, -⟩ := hq
    refine does_eachOf rfl hq ha hk fun u hu => ?_
    rw [hu, credited_single (x := x.noArrivals) hx hv hg hc hd hX hY]
    exact ⟨if_pos rfl, rfl⟩

end Sys2Proof.Machine

/-! PROOFS. Route words, barriers and the work generator: what each checks at issue, and what it leaves (R260, R261, R283, R318, R319, R330 to R334). -/
namespace Sys2Proof.Machine

/-! ### route (R260, R261, R283) -/

theorem peekS2_of_readS {a b : BitVec 6} {s s1 s2 : State} {x y : PWord} (ha : readS a s = .ok (x, s1)) (hb : readS b s1 = .ok (y, s2)) :
    peekS2 a b s = .ok ((some x, some y), s) := by
  rw [peekS2, (readS_split ha).1]
  dsimp only
  rw [(readS_split hb).1]

/-- The check of a route, by what is reserved in a word that it may write. -/
theorem routeOk_iff {i v : PWord} {res : Word} (hr : i.val = 0#32 ∨ 0x100 ≤ i.val.toNat → routeReserved i.val.toNat = res) : routeOk i v = true ↔
    i.poi = false ∧ v.poi = false ∧ (i.val = 0#32 ∨ 0x100 ≤ i.val.toNat ∧ i.val.toNat ≤ 0x1FF) ∧ v.val &&& res = 0#32 := by
  have plain : routeOk i v = true ↔ i.poi = false ∧ v.poi = false ∧ (i.val = 0#32 ∨ 0x100 ≤ i.val.toNat ∧ i.val.toNat ≤ 0x1FF)
      ∧ v.val &&& routeReserved i.val.toNat = 0#32 := by
    simp [routeOk, and_assoc]
  rw [plain]
  refine and_congr_right fun _ => and_congr_right fun _ => and_congr_right fun hi => ?_
  rw [hr (hi.imp_right And.left)]

/-! ### Barriers (R330, R332, R334) -/

theorem needBarrier_ok {s : State} {b : BitVec 6} (h : (sget 0#32 s.here.barE (64 * s.curC + b.toNat)).getLsbD 31 = true) :
    needBarrier b s = .ok ((), s) := need_ok h _ _ _ s
theorem needBarrier_error {s : State} {b : BitVec 6} (h : (sget 0#32 s.here.barE (64 * s.curC + b.toNat)).getLsbD 31 = false) :
    needBarrier b s = .error { cause := cBarrier, slot := s.slot } := need_error h _ _ _ s

/-- bar.arr at a barrier that is not valid, or from another state than NONE, is a barrier fault. -/
theorem exec_barArr_error {s : State} {b : BitVec 6} (h : (sget 0#32 s.here.barE (64 * s.curC + b.toNat)).getLsbD 31 = false ∨ sget 0 s.core.bars b.toNat ≠ 0) :
    exec (.barArr b) s = .next (s.raise { cause := cBarrier, slot := s.slot }) := by
  by_cases hv : (sget 0#32 s.here.barE (64 * s.curC + b.toNat)).getLsbD 31 = true
  · have hn : sget 0 s.core.bars b.toNat ≠ 0 := h.resolve_left (ne_false_of_eq_true hv)
    exact issue_error (iss_seq (needBarrier_ok hv) (iss_bind_error (need_error (beq_eq_false_iff_ne.2 hn) _ _ _ s)))
  · exact issue_error (iss_bind_error (needBarrier_error (Bool.eq_false_iff.2 hv)))

/-- bar.wait at a valid barrier: what it does to the core's state of it. -/
theorem exec_barWait_of_valid {s : State} {b : BitVec 6} (hv : (sget 0#32 s.here.barE (64 * s.curC + b.toNat)).getLsbD 31 = true) :
    exec (.barWait b) s = .next (if s.core.bar b.toNat = 0 then s.upCore fun c => c.setBar b.toNat 1
      else if s.core.bar b.toNat = 1 then s else s.upCore fun c => c.setBar b.toNat 0) := by
  refine issue_ok (iss_seq (needBarrier_ok hv) (congrArg (fun t => Except.ok ((), t)) ?_))
  dsimp only
  by_cases h0 : s.core.bar b.toNat = 0
  · simp only [h0, if_true]
  by_cases h1 : s.core.bar b.toNat = 1
  · simp only [h1, one_ne_zero, if_false, if_true]
  · obtain ⟨n, hn⟩ : ∃ n, s.core.bar b.toNat = n + 2 := ⟨s.core.bar b.toNat - 2, by omega⟩
    rw [if_neg h0, if_neg h1]
    simp only [hn]

/-! ### The work generator (R318, R319) -/

theorem workItem_of_left {next lim cfg : Word} (hl : next.toNat < lim.toNat) (hr : next.toNat / (cfg.toNat % 65536 + 1) ≤ 0xFFFE) :
    workItem next lim cfg = (BitVec.ofNat 32 (next.toNat / (cfg.toNat % 65536 + 1) * 65536 + next.toNat % (cfg.toNat % 65536 + 1)),
      some (BitVec.ofNat 32 (min (next.toNat + cfg.toNat / 65536 + 1) 0xFFFFFFFF))) := if_pos ⟨hl, hr⟩
theorem workItem_of_end {next lim cfg : Word} (h : lim.toNat ≤ next.toNat ∨ 0xFFFF ≤ next.toNat / (cfg.toNat % 65536 + 1)) :
    workItem next lim cfg = (0xFFFFFFFF#32, none) := if_neg (by omega)
theorem exec_nxt (d : BitVec 6) (s : State) : exec (.nxt d) s =
    .next ((match (workItem s.core.wnext s.core.wlim s.core.wcfg).2 with | some v => s.laterPart 1 [.wnext v] | none => s).putS 24 d
      ⟨(workItem s.core.wnext s.core.wlim s.core.wcfg).1, false⟩) := rfl

/-- Settles O30: the check of a route word, the state of a barrier, and whether the work generator has an item left. -/
theorem routesBarriersAndWork : Obligations.RoutesBarriersAndWork := by
  unfold Obligations.RoutesBarriersAndWork
  refine ⟨fun s s1 s2 cl i v b x y => ⟨fun hi hv => ?_, ?_⟩, fun s d => ⟨fun hl hr => ?_, fun h => ?_⟩⟩
  · intro res ok
    have reserved (hx : x.val = 0#32 ∨ 0x100 ≤ x.val.toNat) : routeReserved x.val.toNat = res := by
      by_cases h0 : x.val = 0#32
      · exact (congrArg (fun w : Word => routeReserved w.toNat) h0).trans (if_pos h0).symm
      · exact (if_neg (Nat.not_lt.2 (hx.resolve_left h0))).trans (if_neg h0).symm
    have slot : s2.slot = s.slot := (slot_of_takeS (readS_split hv).1).trans (slot_of_takeS (readS_split hi).1)
    refine ⟨fun h => ?_, fun h => ?_⟩
    · exact issue_ok (iss_seq (peekS2_of_readS hi hv) (iss_seq (need_ok ((routeOk_iff reserved).2 h) _ _ _ s) (iss_seq (readS2_ok hi hv) rfl)))
    · rw [slot]
      exact issue_error (iss_seq (peekS2_of_readS hi hv) (iss_bind_error (need_error (Bool.eq_false_iff.2 (mt (routeOk_iff reserved).1 h)) _ _ _ s)))
  · intro valid st bar
    refine ⟨fun hv hs => ⟨?_, ?_⟩, fun hv hs => ?_, fun hv hs => ?_, exec_barArr_error, fun hv => ?_⟩
    · exact issue_ok (iss_seq (needBarrier_ok hv) (iss_seq (need_ok (beq_iff_eq.2 hs) _ _ _ s) rfl))
    · exact (exec_barWait_of_valid hv).trans (congrArg _ (if_pos hs))
    · exact (exec_barWait_of_valid hv).trans (congrArg _ ((if_neg (hs.trans_ne one_ne_zero)).trans (if_pos hs)))
    · exact (exec_barWait_of_valid hv).trans (congrArg _ ((if_neg (Nat.ne_of_gt (Nat.lt_of_lt_of_le Nat.two_pos hs))).trans (if_neg (Nat.ne_of_gt hs))))
    · exact issue_error (iss_bind_error (needBarrier_error hv))
  · rw [exec_nxt, workItem_of_left hl hr]
  · rw [exec_nxt, workItem_of_end h]

end Sys2Proof.Machine

/-! PROOFS. Side blocks: a side.rel is checked against the ids held before its operand is read (R292). -/
namespace Sys2Proof.Machine

/-- A side.rel of an id that is not held as it issues is a side fault. -/
theorem exec_sideRel_of_absent {s s1 : State} {id : BitVec 6} {x : PWord} (hr : readS id s = .ok (x, s1)) (hx : x.val ∉ s.here.sideBids) :
    exec (.sideRel id) s = .next (s.raise { cause := cSide, slot := s.slot }) :=
  issue_error (iss_seq (peekS_of_readS hr) (iss_bind_error (need_error (by simp [hx]) _ _ _ s)))

/-- Block 7, landed, at the head of the LDQ. -/
def headSeven : QEntry := { seq := 0, landed := true, val := 7#2048 }
/-- A core that has issued the side.rel of block 7, and is about to issue it again with the id from its LDQ. -/
def releasingCore : Core := { qs := true, task := { ldq := [headSeven] }, pend := [{ at' := 1, effs := [.sideRel 7#32] }] }
/-- A core that has issued the side.add of block 7. -/
def addingCore : Core := { pend := [{ at' := 1, effs := [.sideAdd 7#32 0 1] }] }
/-- Core 0's turn, in a tile whose list of cores has core 1 first. -/
def fallingCores : State := { tiles := [(0, { cores := [(1, addingCore), (0, releasingCore)] })] }
/-- The same tile once core 0 has read its operand: the write of core 0 has put its key before the larger one. -/
def risingCores : State := fallingCores.upCore fun c => c.setBank { c.bank with ldq := [] }

theorem fallingCores_reads : readS 63#6 fallingCores = .ok (⟨7#32, false⟩, risingCores) := by
  have value : (⟨headSeven.val.setWidth 32, headSeven.poi.getLsbD 0⟩ : PWord) = ⟨7#32, false⟩ := by simp [headSeven]
  rw [readS_head (e := headSeven) (r := []) rfl ⟨rfl, rfl, rfl⟩, value]
  rfl
theorem fallingCores_sideBids : fallingCores.here.sideBids = [] := by decide
theorem risingCores_sideBids : risingCores.here.sideBids = [7#32] := by decide

/-- Refutes O29: its clauses of side.add and side.rel judge the ids held after the operands are read, and the model judges them before. The ids held
are gathered in the order in which the tile lists its cores, and a pop of the LDQ writes the popping core to its place in rising order. In
`fallingCores`, which is a state though its list of cores is not in the canonical form (log 110), block 7 is not held before the pop and is after it. -/
theorem not_fabricControls : ¬ Obligations.FabricControls := by
  unfold Obligations.FabricControls
  intro h
  obtain ⟨-, -, -, side, -⟩ := h fallingCores risingCores risingCores 0 0 0 0 63#6 0 0 ⟨7#32, false⟩ {}
  obtain ⟨-, -, releases, -⟩ := side fallingCores_reads
  have held : 7#32 ∈ risingCores.here.sideBids := by rw [risingCores_sideBids]; exact List.mem_singleton_self _
  have absent : 7#32 ∉ fallingCores.here.sideBids := by rw [fallingCores_sideBids]; exact List.not_mem_nil
  have same := Host.Outcome.next.inj ((exec_sideRel_of_absent fallingCores_reads absent).symm.trans (releases rfl held))
  have noted := congrArg State.raised same
  rw [raise_raised] at noted
  exact absurd noted (by decide)

end Sys2Proof.Machine

/-! PROOFS. Reports: a query that names no tile of this wafer, and one about a tile that it names (R300, R372, R384, R386, R388, R391). -/
namespace Sys2Proof.Machine

section
variable {s : State} {port : Bool} {tag : Word} {buf : BitVec 64} {len name : Word} {i : Instr}

/-- A QUERY that names no tile of this wafer is refused, after a failed boot too (R386). -/
theorem hostCommand_unnamed_query {need : Need} {run : HostAct} (hn : s.named name = none) (hc : s.curArg = 0) (hq : need.query = true)
    (hw : need.name = some name) : hostCommand port tag i need run s = .next (s.refuses port tag i 0x01) := by
  have status : s.firstStatus port i need = 0x01 := by
    unfold State.firstStatus
    rw [hw, Option.any_some, hn, Option.isNone_none, Bool.or_true, if_pos rfl]
  unfold hostCommand
  rw [if_neg fun h => by simp [hq] at h, if_pos hc]
  unfold State.commandTurn
  rw [openJob_status, status]
  rfl

/-- A query about a tile answers with that tile's report. -/
theorem hostCommand_tileQuery {need : Need} {t : Nat} {f : State → Nat → State × List Byte} (hn : s.named name = some t) (hs : s.Starts port i need) :
    hostCommand port tag i need (tileQuery port name buf len f) s = .next (s.ends port tag i
      ((f (s.openJob port tag i) t).1.answer port buf.toNat len.toNat (f (s.openJob port tag i) t).2)) :=
  starts_ends_eq hs (by rw [openJob_named, hn])
end

/-- Settles O42: each report by the one turn of its command; those about a tile by whether the command names a tile of this wafer. -/
theorem reports : Obligations.Reports := by
  unfold Obligations.Reports
  intro s port tag name len buf nonce t u q answers reportsOn byTile att
  refine ⟨fun h => starts_ends h tag _, fun h => starts_ends h tag _, fun h => starts_ends h tag _, fun h => starts_ends h tag _,
    fun h => starts_ends h tag _, ?tileReport, ?counters, fun h => ?attest⟩
  case tileReport => exact ⟨fun hn h => hostCommand_tileQuery hn h, fun hn hc => hostCommand_unnamed_query hn hc rfl rfl⟩
  case counters => exact ⟨fun hn h => hostCommand_tileQuery hn h, fun hn hc => hostCommand_unnamed_query hn hc rfl rfl⟩
  case attest => exact starts_ends_eq h (by rw [openJob_hostRead])

end Sys2Proof.Machine

/-! PROOFS. Caravans: the coder's acknowledgement of a half, what a decode and a decode fault leave of the tile, the coder store when a half is
acknowledged, and a dec.cfg record in force (R288, R293 to R297, R300). -/
namespace Sys2Proof.Machine

theorem not_coderAck_of_caravan {p : Packet} (hk : p.kind = 7) : p.coderAck = false := by
  simp [Packet.coderAck, hk]

/-! ### Acceptance (R294, R295) -/

theorem Tile.accept_enters {x : Tile} {p : Packet} (hq : x.arrq = []) (hd : x.decCfgQ = []) (hb : x.decBytes + p.carBytes ≤ 65536) :
    x.accept p = { x with decQ := x.decQ ++ [p] } := by
  simp [Tile.accept, decSize, hq, hd, hb]
theorem Tile.accept_waits {x : Tile} {p : Packet} (h : x.decCfgQ ≠ [] ∨ 65536 < x.decBytes + p.carBytes) : x.accept p = x.keep p := by
  refine if_neg fun ha => ?_
  simp only [Bool.and_eq_true, List.isEmpty_iff] at ha
  obtain ⟨⟨hd, hb⟩, -⟩ := ha
  exact h.elim (absurd hd) (Nat.not_lt.2 (of_decide_eq_true hb))

/-! ### The acknowledgement of a half (R288) -/

/-- The coder acknowledgement of one half of a caravan, as it enters the lee buffer. -/
def State.coderAckEntry (s : State) (tc : Nat) (p : Packet) (c : Caravan) (two nak : Bool) (orig : Nat) : LeeE :=
  { out := tc + 160
    p := { kind := 6, dest := s.nameOf c.cx 0, orig := orig, cls := p.cls, tag := if two then c.tag2 else p.tag
           ofs := 32768 + b2n nak * 512 + b2n two * 256 + c.cent } }
/-- The tile from which it leaves. -/
def Tile.acksCoder (x : Tile) (e : LeeE) : Tile := { x with lee := x.lee ++ [e] }
theorem coderAckTo_eq (s : State) (t tc : Nat) (p : Packet) (c : Caravan) (two nak : Bool) (orig : Nat) :
    s.coderAckTo t tc p c two nak orig = s.setTile t ((s.tile t).acksCoder (s.coderAckEntry tc p c two nak orig)) := rfl

/-- The bits of its OFS that tell a coder acknowledgement and a NAK, above those of the half and the coder-store entry. -/
theorem ofs_testBits {n : Nat} (hn : n < 256) (two nak : Bool) :
    (32768 + b2n nak * 512 + b2n two * 256 + n).testBit 15 = true ∧ (32768 + b2n nak * 512 + b2n two * 256 + n).testBit 9 = nak := by
  cases nak <;> cases two <;> simp [b2n, Nat.testBit_eq_decide_div_mod_eq] <;> omega
theorem coderAckEntry_tells (s : State) (tc : Nat) (p : Packet) {c : Caravan} (hc : c.cent < 256) (two nak : Bool) (orig : Nat) :
    let k := s.coderAckEntry tc p c two nak orig
    k.p.coderAck = true ∧ k.p.ofs.testBit 9 = nak ∧ k.out = tc + 160 := by
  obtain ⟨coder, bit9⟩ := ofs_testBits hc two nak
  exact ⟨(Bool.true_and _).trans coder, bit9, rfl⟩

/-! ### The start of a decode (R295) -/

theorem exec_caravanDecode_begins {s : State} {p : Packet} {l : List Packet} (hd : s.here.decCur = none) (hq : s.here.decQ = p :: l) :
    exec .caravanDecode s = .next (s.setTile s.curT
      { s.here with decQ := l, decCur := some { p := p, wake := s.tcyc s.curT + Config.delay s.free % 64 } }).draw := by
  show execCaravanDecode s = _
  simp only [execCaravanDecode, hd, hq, State.upHere_eq]

/-! ### The judgement of a decoded caravan (R295, R296) -/

section
variable (s : State) (d : DecCur) (c : Caravan)

/-- What a decode fault leaves: no caravan under way, its two counts, and the NAK of the wanted half. -/
theorem decodeFault_leaves : let y := (s.decodeFault s.curT (s.tcyc s.curT) d c).here
    let h := s.halves s.curT d.p c
    y.decCur = none ∧ y.dflt = incr32 s.here.dflt ∧ y.dnak = incr32 s.here.dnak ∧ y.dcar = s.here.dcar ∧ y.arrq = s.here.arrq
      ∧ y.lee = s.here.lee ++ [s.coderAckEntry (s.tcyc s.curT) d.p c h.1 true h.2.1.dest] := by
  simp only [State.decodeFault, coderAckTo_eq, State.upT_eq, setTile_setTile, State.here_setTile, State.tile_setTile]
  split
  · exact ⟨rfl, rfl, rfl, rfl, rfl, rfl⟩
  · exact ⟨rfl, rfl, rfl, rfl, rfl, rfl⟩

variable {s d c} {i g : Nat} {v : Nat × Nat} (hd : s.here.decCur = some d) (hp : d.p.car = some c) (hw : d.wake ≤ s.tcyc s.curT)
include hd hp hw
theorem exec_caravanDecode_of_wake : exec .caravanDecode s = .next (s.decodeTurn s.curT (s.tcyc s.curT) d c) := by
  show execCaravanDecode s = _
  simp only [execCaravanDecode, hd, hp, hw, if_true]

variable (hl : d.look = some (i, g)) (hv : d.side = some v)
include hl hv
/-- The side block stands: the wanted packet joins the arrivals, and its half is acknowledged. -/
theorem exec_caravanDecode_decodes (hh : (sget {} s.here.side i).held = true) (hg : (sget {} s.here.side i).gen = g) :
    let h := s.halves s.curT d.p c
    let z := s.here.acksCoder (s.coderAckEntry (s.tcyc s.curT) d.p c h.1 false h.2.1.dest)
    exec .caravanDecode s = .next (s.setTile s.curT
      { z with decCur := none, dcar := incr32 z.dcar, arrq := z.arrq ++ [d.p.decode h.2.1 h.2.2 v] }) := by
  have stands : (!(sget {} (s.tile s.curT).side i).held || (sget {} (s.tile s.curT).side i).gen != g) = false := by
    rw [Bool.or_eq_false_iff, Bool.not_eq_false', bne_eq_false_iff_eq]
    exact ⟨hh, hg⟩
  rw [exec_caravanDecode_of_wake hd hp hw]
  simp only [State.decodeTurn, hl, hv, stands, Bool.false_eq_true, if_false, coderAckTo_eq, State.upT_eq, setTile_setTile, State.tile_setTile]
  rfl
/-- It has been released since its lookup: a decode fault. -/
theorem exec_caravanDecode_faults (h : (sget {} s.here.side i).held = false ∨ (sget {} s.here.side i).gen ≠ g) :
    exec .caravanDecode s = .next (s.decodeFault s.curT (s.tcyc s.curT) d c) := by
  have gone : (!(sget {} (s.tile s.curT).side i).held || (sget {} (s.tile s.curT).side i).gen != g) = true := by
    rw [Bool.or_eq_true, Bool.not_eq_true', bne_iff_ne]
    exact h
  rw [exec_caravanDecode_of_wake hd hp hw]
  simp only [State.decodeTurn, hl, hv, gone, if_true]
end

/-! ### The coder store (R288) -/

/-- The store's only entry once its half of flow 2, or of flow 1, is free; it goes with its last half. -/
def StoreE.freed (e : StoreE) (two : Bool) : List StoreE :=
  [if two then { e with h2 := none } else { e with h1 := none }].filter fun r => r.h1.isSome || r.h2.isSome
theorem StoreE.freed_one (e : StoreE) : e.freed false = if e.h2 = none then [] else [{ e with h1 := none }] := by
  cases h : e.h2 <;> simp [StoreE.freed, h]
theorem StoreE.freed_two (e : StoreE) : e.freed true = if e.h1 = none then [] else [{ e with h2 := none }] := by
  cases h : e.h1 <;> simp [StoreE.freed, h]

/-- The store of one entry, once an acknowledgement has freed a half of it. -/
theorem store_single_freed {e : StoreE} {n : Nat} (he : e.cent = n) (two : Bool) :
    (([e].map fun r => if r.cent = n then (if two then { e with h2 := none } else { e with h1 := none } : StoreE) else r).filter
      fun r => r.h1.isSome || r.h2.isSome) = e.freed two := by
  rw [List.map_cons, List.map_nil, if_pos he]
  rfl

/-- An acknowledgement that is no NAK frees its half, and resends nothing. -/
theorem exec_coderAckArrival_ack {s : State} {p : Packet} {e : StoreE} (hq : s.here.arrq = [p]) (hc : p.coderAck = true) (h9 : p.ofs.testBit 9 = false)
    (hs : s.here.store = [e]) (he : e.cent = p.ofs % 256) :
    exec .coderAckArrival s = .next (s.setTile s.curT { s.here.noArrivals with store := e.freed (p.ofs.testBit 8) }) := by
  have arrived : s.here.arrq.filter Packet.coderAck = [p] := by rw [hq, List.filter_cons_of_pos hc, List.filter_nil]
  have others : s.here.arrq.filter (fun p => !p.coderAck) = [] := by simp [hq, hc]
  have found : [e].find? (fun e => e.cent == p.ofs % 256) = some e := List.find?_cons_of_pos (beq_iff_eq.2 he)
  show execCoderAckArrival s = _
  simp only [execCoderAckArrival, State.upHere_eq, arrived, others, List.foldl_cons, List.foldl_nil, State.tile_setTile, hs, found, h9, State.upT_eq,
    setTile_setTile, store_single_freed he]
  split
  · rfl
  · rfl

/-! ### A record of dec.cfg (R294, R300) -/

/-- The record at a. -/
def Tile.decRecord (x : Tile) (a : Nat) : BitVec 128 := BitVec.ofNat 128 (x.tmRead a 16)
/-- It has no poison and no reserved bit. -/
def Tile.goodRecord (x : Tile) (a : Nat) : Bool :=
  x.tmPoiR a 16 == 0 && (x.decRecord a).extractLsb' 0 29 == 0#29 && (x.decRecord a).extractLsb' 32 96 == 0#96
theorem Tile.goodRecord_iff {x : Tile} {a : Nat} : x.goodRecord a = true ↔
    x.tmPoiR a 16 = 0 ∧ (x.decRecord a).extractLsb' 0 29 = 0#29 ∧ (x.decRecord a).extractLsb' 32 96 = 0#96 := by
  simp only [Tile.goodRecord, Bool.and_eq_true, beq_iff_eq, and_assoc]

/-- The tile that has read the record. -/
def Tile.readRecord (x : Tile) (a : Nat) : Tile := { x.claim a with decCfgQ := x.decCfgQ.tail }
/-- The tile in which a record is in force. -/
def Tile.obeys (x : Tile) (w : BitVec 128) : Tile :=
  let y := { x with decEn := w.getLsbD 31, decStrict := w.getLsbD 30 }
  if w.getLsbD 29 then { y with dcar := 0, dflt := 0, dnak := 0, dres := 0 } else y
theorem Tile.obeys_leaves (x : Tile) (w : BitVec 128) : let y := x.obeys w
    y.decCfgQ = x.decCfgQ ∧ y.decEn = w.getLsbD 31 ∧ y.decStrict = w.getLsbD 30 ∧ y.decBad = x.decBad
      ∧ (w.getLsbD 29 = true → y.dcar = 0 ∧ y.dflt = 0) := by
  unfold Tile.obeys
  cases w.getLsbD 29
  · exact ⟨rfl, rfl, rfl, rfl, nofun⟩
  · exact ⟨rfl, rfl, rfl, rfl, fun _ => ⟨rfl, rfl⟩⟩

/-- Where no error is latent, a record is read, judged and in force. -/
theorem Tile.configure_eq {x : Tile} (he : x.errs = []) (a : Nat) :
    x.configure a = if x.goodRecord a then (x.readRecord a).obeys (x.decRecord a) else { x.readRecord a with decBad := true } := by
  have clear : (x.claim a).meet 0 a 16 = x.claim a := Tile.meet_of_errs_nil (by exact he) 0 a 16
  have judged : (decide (x.tmPoiR a 16 ≠ 0) || (x.decRecord a).extractLsb' 0 29 != 0#29 || (x.decRecord a).extractLsb' 32 96 != 0#96) = !x.goodRecord a := by
    simp only [Tile.goodRecord, Bool.not_and, bne, beq_eq_decide, decide_not]
  unfold Tile.configure
  rw [clear]
  refine (if_congr (Bool.eq_iff_iff.1 judged) rfl rfl).trans ?_
  cases x.goodRecord a
  · rfl
  · rfl

/-- The oldest record of dec.cfg is due, and its bank is free. -/
theorem exec_decCfgTakesEffect_due {s : State} {a c : Nat} {q : List (Nat × Nat)} (hq : s.here.decCfgQ = (a, c) :: q) (hc : c ≤ s.tcyc s.curT)
    (hb : s.here.banks = []) : exec .decCfgTakesEffect s = .next (s.upHere fun x => x.configure a) := by
  have due : (decide (c ≤ s.tcyc s.curT) && s.here.bankFree a) = true := by simp [Tile.bankFree, hb, hc]
  show execDecCfgTakesEffect s = _
  simp only [execDecCfgTakesEffect, State.upHere_eq, hq, due, if_true]

/-! ### The statement -/

/-- Settles O47: each event by the case of its checks. -/
theorem caravanEvents : Obligations.CaravanEvents := by
  unfold Obligations.CaravanEvents
  intro s p l d c i g a at' v q e x tc w hv
  refine ⟨fun hq hk => ?accept, fun hd hq => ?begins, fun hd hp hc hw hl hs => ?judged, fun hq hc h9 hs he => ?freed, fun hq ha hb he => ?config⟩
  case accept =>
    refine does_eachOf rfl hq (not_coderAck_of_caravan hk) hk fun u hu => ⟨fun hd hb => ?_, fun hw => ?_⟩
    · rw [hu, Tile.accept_enters (x := x.noArrivals) rfl hd hb]
      exact ⟨rfl, rfl⟩
    · rw [hu, Tile.accept_waits (x := x.noArrivals) hw]
      exact ⟨rfl, rfl⟩
  case begins =>
    refine does_of_next (exec_caravanDecode_begins hd hq) (State.here_setTile _ _) rfl fun u hu _ => ?_
    rw [hu]
    exact ⟨rfl, _, Nat.mod_lt _ (by decide), rfl⟩
  case judged =>
    by_cases gone : (sget {} x.side i).held = false ∨ (sget {} x.side i).gen ≠ g
    · obtain ⟨ended, dflt, dnak, dcar, arrq, lee⟩ := decodeFault_leaves s d c
      refine ⟨_, exec_caravanDecode_faults hd hp hw hl hs gone, fun hh hg => ?_, fun _ => ⟨ended, dflt, dnak, dcar, arrq, _, lee, ?_⟩⟩
      · exact absurd gone (by simp [hh, hg])
      · obtain ⟨coder, nak, -⟩ := coderAckEntry_tells s tc d.p hc hv.1 true hv.2.1.dest
        exact ⟨coder, nak⟩
    · obtain ⟨held, gen⟩ : (sget {} x.side i).held = true ∧ (sget {} x.side i).gen = g := by simpa using gone
      refine ⟨_, exec_caravanDecode_decodes hd hp hw hl hs held gen, fun _ _ => ?_, fun h => absurd h gone⟩
      rw [State.here_setTile]
      exact ⟨rfl, rfl, rfl, rfl, _, rfl, coderAckEntry_tells s tc d.p hc hv.1 false hv.2.1.dest⟩
  case freed =>
    refine does_of_next (exec_coderAckArrival_ack hq hc h9 hs he) (State.here_setTile _ _) rfl fun u hu hf => ?_
    rw [hu]
    refine ⟨rfl, hf, fun h8 => ?_, fun h8 => ?_⟩
    · rw [h8]; exact e.freed_one
    · rw [h8]; exact e.freed_two
  case config =>
    refine does_upHere (exec_decCfgTakesEffect_due hq ha hb) fun u hu => ?_
    have rest : (x.readRecord a).decCfgQ = q := congrArg List.tail hq
    rw [hu, Tile.configure_eq he]
    by_cases good : x.goodRecord a = true
    · obtain ⟨cfgQ, en, strict, bad, counts⟩ := (x.readRecord a).obeys_leaves (x.decRecord a)
      rw [if_pos good]
      exact ⟨cfgQ.trans rest, fun _ => ⟨en, strict, bad, counts⟩, fun h => absurd (Tile.goodRecord_iff.1 good) h⟩
    · rw [if_neg good]
      exact ⟨rest, fun h => absurd (Tile.goodRecord_iff.2 h) good, fun _ => ⟨rfl, rfl, rfl⟩⟩

end Sys2Proof.Machine

/-! PROOFS. Loops: what a loop bundle checks before it reads its count, and what brk leaves (R324 to R328, R342). -/
namespace Sys2Proof.Machine

/-! ### What a scalar source leaves of the core -/

/-- A scalar source that is read changes nothing of its core but the bank. -/
theorem core_of_readS {n : BitVec 6} {s s1 : State} {x : PWord} (h : readS n s = .ok (x, s1)) :
    s1.core = s.core ∨ ∃ b, s1.core = s.core.setBank b := by
  rcases readS_cases n s with ⟨-, h'⟩ | ⟨e, r, -, -, -, -, h'⟩ | ⟨-, h'⟩ | ⟨-, -, h'⟩ <;> rw [h'] at h <;> cases h
  · exact .inl rfl
  · refine .inr ⟨{ s.core.bank with ldq := r }, ?_⟩
    rw [State.upCore_eq, State.core_setTile]
theorem slot_of_readS {n : BitVec 6} {s s1 : State} {x : PWord} (h : readS n s = .ok (x, s1)) : s1.slot = s.slot := slot_of_takeS (readS_split h).1
theorem Core.setBank_control (c : Core) (b : Bank) : (c.setBank b).loops = c.loops ∧ (c.setBank b).pc = c.pc ∧ (c.setBank b).crg = c.crg := by
  unfold Core.setBank; split <;> exact ⟨rfl, rfl, rfl⟩
/-- The loop stack, the PC, the context regions and the mode stand. -/
theorem control_of_readS {n : BitVec 6} {s s1 : State} {x : PWord} (h : readS n s = .ok (x, s1)) :
    s1.core.loops = s.core.loops ∧ s1.core.pc = s.core.pc ∧ s1.core.crg = s.core.crg ∧ s1.core.inMon = s.core.inMon := by
  rcases core_of_readS h with h | ⟨b, h⟩ <;> rw [h]
  · exact ⟨rfl, rfl, rfl, rfl⟩
  · obtain ⟨loops, pc, crg⟩ := s.core.setBank_control b
    exact ⟨loops, pc, crg, Core.setBank_inMon _ _⟩

/-! ### Loops (R324 to R326) -/

/-- A check that a condition makes needless. -/
theorem iss_unless {α : Type} {c : Prop} [Decidable c] {m : Iss Unit} {f : Unit → Iss α} {s : State} {r : Except Info (α × State)}
    (h : c ∨ m s = .ok ((), s)) (h' : f () s = r) : (if c then f () else m >>= f) s = r := by
  split
  · exact h'
  · rename_i hc; exact iss_seq (h.resolve_left hc) h'

theorem needDepth_ok {s : State} (h : s.core.loops.length < 6) : needDepth s = .ok ((), s) := if_neg (Nat.not_le.2 h)
theorem needDepth_error {s : State} (h : 6 ≤ s.core.loops.length) :
    needDepth s = .error { cause := cLoop, slot := s.slot, i0 := BitVec.ofNat 32 s.core.pc, i1 := 6#32 } := if_pos h

section
variable {s s1 : State} {r : BitVec 6} {x : PWord} (pre : Bool) (len : BitVec 10) (mx : BitVec 14)

/-- A count other than zero needs room on the loop stack, before anything else is checked. -/
theorem countLoop_deep (hr : readS r s = .ok (x, s1)) (h0 : x.val.toNat ≠ 0) (h6 : 6 ≤ s.core.loops.length) : countLoop pre r len mx s =
    .error { cause := cLoop, slot := s.slot, i0 := BitVec.ofNat 32 s.core.pc, i1 := 6#32 } :=
  iss_seq (peekS_of_readS hr) ((congrFun (if_neg h0) s).trans (iss_bind_error (needDepth_error h6)))
/-- Then it must not be above MAX. -/
theorem countLoop_above (hr : readS r s = .ok (x, s1)) (h6 : x.val.toNat = 0 ∨ s.core.loops.length < 6) (hm : mx.toNat < x.val.toNat) :
    countLoop pre r len mx s =
    .error { cause := cBound, slot := s.slot, i0 := BitVec.ofNat 32 s.core.pc, i1 := BitVec.ofNat 32 (s.core.loops.length + 1) } :=
  iss_seq (peekS_of_readS hr) (iss_unless (h6.imp_right needDepth_ok) (iss_bind_error (need_error (decide_eq_false (Nat.not_le.2 hm)) _ _ _ s)))
/-- Then its poison is consumed; a clean count is read, and the loop is opened, or passed where the count is zero. -/
theorem countLoop_within (hr : readS r s = .ok (x, s1)) (h6 : x.val.toNat = 0 ∨ s.core.loops.length < 6) (hm : x.val.toNat ≤ mx.toNat) :
    countLoop pre r len mx s = if x.poi then .error { cause := cPoison, slot := s.slot }
      else (if x.val.toNat = 0 then act fun s => s.skipLoop len else pushLoop len x.val.toNat mx none pre : Iss Unit) s1 := by
  refine iss_seq (peekS_of_readS hr) (iss_unless (h6.imp_right needDepth_ok) (iss_seq (need_ok (decide_eq_true hm) _ _ _ s) ?_))
  cases hp : x.poi
  · exact iss_seq (by rw [Option.any_some, hp, consume_false]) (iss_seq hr rfl)
  · exact iss_bind_error (by rw [Option.any_some, hp, consume_true])
end

section
variable {s : State} {n : Bool} {p : BitVec 3} (len : BitVec 10) (mx : BitVec 14)

/-- A loop.w whose test fails consumes its predicate, and is passed. -/
theorem exec_loopW_fails (h : (s.core.bank.preg p.toNat).val = n) : exec (.loopW n p len mx) s =
    issue (consume (s.core.bank.preg p.toNat).poi >>= fun _ => act fun t => t.skipLoop len) s := by
  have fails : ((s.core.bank.preg p.toNat).val != n) = false := by rw [h, bne_self_eq_false]
  refine (issue_of_passed (readP_ok p s)).trans ?_
  simp only [fails, Bool.false_eq_true, if_false]
/-- One whose test holds needs room on the loop stack before it consumes its predicate (log 59). -/
theorem exec_loopW_holds (h : (s.core.bank.preg p.toNat).val ≠ n) : exec (.loopW n p len mx) s =
    issue (needDepth >>= fun _ => consume (s.core.bank.preg p.toNat).poi >>= fun _ => pushLoop len 0 mx (some (p.toNat, n)) false) s := by
  have holds : ((s.core.bank.preg p.toNat).val != n) = true := bne_iff_ne.2 h
  refine (issue_of_passed (readP_ok p s)).trans ?_
  simp only [holds, if_true]

/-! ### brk (R328) -/

theorem exec_brk_outside (h : s.core.inner = none) : exec (.brk n p) s =
    .next (s.raise { cause := cLoop, slot := s.slot, i0 := BitVec.ofNat 32 s.core.pc, i1 := BitVec.ofNat 32 s.core.loops.length }) :=
  issue_error (iss_bind_error (by rw [h]; rfl))
theorem exec_brk_inside {l : LoopE} (h : s.core.inner = some l) : exec (.brk n p) s =
    issue (consume (s.core.bank.preg p.toNat).poi >>= fun _ => act fun t => if (s.core.bank.preg p.toNat).val != n
      then t.upCore fun c => { c with loops := c.loops.tail, npc := l.stop, preBoundary := l.pre } else t) s :=
  (issue_of_passed (a := l) (by rw [h])).trans (issue_of_passed (readP_ok p s))
end

/-! ### The statement -/

theorem issue_consumed {b : Bool} (hb : b = true) (m : Iss Unit) (s : State) :
    issue (consume b >>= fun _ => m) s = .next (s.raise { cause := cPoison, slot := s.slot }) := issue_error (iss_bind_error (by rw [hb, consume_true]))
theorem issue_clean {b : Bool} (hb : b = false) (m : Iss Unit) (s : State) : issue (consume b >>= fun _ => m) s = issue m s :=
  issue_of_passed (by rw [hb, consume_false])

/-- Settles O32: a counted loop by the first of its checks that fails, a loop.w and a brk by what their predicate asks for. -/
theorem loops : Obligations.Loops := by
  unfold Obligations.Loops
  intro s s1 r len mx n p x l next go opened count q
  refine ⟨fun hr => ?counted, fun hp hq h6 => ?opens, fun hp hq => ?passes, fun hq h6 => ?deep, fun hp h => ?poisoned,
    fun hl hp hq => ?leaves, fun hl hp hq => ?stays, fun hl hp => ?consumed, exec_brk_outside⟩
  case counted =>
    obtain ⟨stack, pc, -, -⟩ := control_of_readS hr
    have slot := slot_of_readS hr
    rw [stack, pc, slot]
    refine ⟨fun h0 hm hp h6 => ?_, fun h0 hp => ?_, fun i hi => ?_⟩
    · have opens (pre : Bool) : issue (countLoop pre r len mx) s = .next (opened s1 count none pre) :=
        issue_ok ((countLoop_within pre len mx hr (.inr h6) hm).trans (by rw [hp]; exact congrFun (if_neg h0) s1))
      exact ⟨opens false, opens true⟩
    · have passes (pre : Bool) : issue (countLoop pre r len mx) s = .next (go s1 (next s1 + 4 * len.toNat)) :=
        issue_ok ((countLoop_within pre len mx hr (.inl h0) (h0.trans_le (Nat.zero_le _))).trans (by rw [hp]; exact congrFun (if_pos h0) s1))
      exact ⟨passes false, passes true⟩
    · obtain ⟨pre, hi⟩ : ∃ pre, exec i s = issue (countLoop pre r len mx) s := by
        rcases List.mem_pair.1 hi with rfl | rfl
        · exact ⟨false, rfl⟩
        · exact ⟨true, rfl⟩
      rw [hi]
      refine ⟨fun hm h6 => ?_, fun h0 h6 => ?_, fun hp hm h6 => ?_⟩
      · exact issue_error (countLoop_above pre len mx hr (.inr h6) hm)
      · exact issue_error (countLoop_deep pre len mx hr h0 h6)
      · exact issue_error ((countLoop_within pre len mx hr h6 hm).trans (if_pos hp))
  case opens => exact (exec_loopW_holds len mx hq).trans ((issue_of_passed (needDepth_ok h6)).trans (issue_clean hp _ s))
  case passes => exact (exec_loopW_fails len mx hq).trans (issue_clean hp _ s)
  case deep => exact (exec_loopW_holds len mx hq).trans (issue_error (iss_bind_error (needDepth_error h6)))
  case poisoned =>
    by_cases hq : q.val = n
    · exact (exec_loopW_fails len mx hq).trans (issue_consumed hp _ s)
    · exact (exec_loopW_holds len mx hq).trans ((issue_of_passed (needDepth_ok (h.resolve_left hq))).trans (issue_consumed hp _ s))
  case leaves => exact (exec_brk_inside hl).trans ((issue_clean hp _ s).trans (congrArg _ (if_pos (bne_iff_ne.2 hq))))
  case stays => exact (exec_brk_inside hl).trans ((issue_clean hp _ s).trans (congrArg _ (if_neg (mt bne_iff_ne.1 (not_not.2 hq)))))
  case consumed => exact (exec_brk_inside hl).trans (issue_consumed hp _ s)

end Sys2Proof.Machine

/-! PROOFS. Control registers: the checks of csrr and csrw in their order, the context regions and the monitor's control (R350, R357, R359). -/
namespace Sys2Proof.Machine

/-! ### Reading and writing a register (R350) -/

section
variable {s s1 : State} {n : Nat} {wr : Bool}

theorem needCsr_ok (hn : csrAssigned n = true) (hw : wr = true → csrIx n = false) (hm : n < 0x800 ∨ s.core.inMon = true) : needCsr n wr s = .ok ((), s) :=
  iss_seq (need_ok (by cases wr <;> simp_all) _ _ _ s) (need_ok (by simpa using hm) _ _ _ s)
/-- A number that is not assigned, or that csrw may not name, is an illegal instruction. -/
theorem needCsr_illegal (h : csrAssigned n = false ∨ wr = true ∧ csrIx n = true) : needCsr n wr s = .error { cause := cInstr, slot := s.slot } :=
  iss_bind_error (need_error (by rcases h with h | ⟨h, h'⟩ <;> simp [*]) _ _ _ s)
/-- An assigned number that asks for the monitor is a privilege fault in a task. -/
theorem needCsr_privilege (hn : csrAssigned n = true) (hw : wr = true → csrIx n = false) (hm : ¬(n < 0x800 ∨ s.core.inMon = true)) :
    needCsr n wr s = .error { cause := cPriv, slot := s.slot, i0 := BitVec.ofNat 32 n } :=
  iss_seq (need_ok (by cases wr <;> simp_all) _ _ _ s) (need_error (by simpa using hm) _ _ _ s)

theorem csrPoi_iff : csrPoi n = true ↔ (0x10 ≤ n ∧ n ≤ 0x17) ∨ (0x20 ≤ n ∧ n ≤ 0x2F) := by simp [csrPoi]
end

/-- What csrw does with the value that it has read. -/
def csrWrite (n : Nat) (x : PWord) : Iss Unit :=
  if n = 0x60 then crgaddOp x.val
  else if n = 0x809 then mctlOp x.val
  else act fun s => (if 0x20 ≤ n ∧ n < 0x30 then s.sideEffect else s).laterPart 1 [.csr n x]

section
variable {s s1 t : State} {a : BitVec 6} {csr : BitVec 12} {x : PWord}

/-- With its number in order, csrw checks the address of a context region and consumes poison, but for a register that carries it; then it reads and writes. -/
theorem exec_csrw_of_read (hn : csrAssigned csr.toNat = true) (hi : csrIx csr.toNat = false) (hm : csr.toNat < 0x800 ∨ s.core.inMon = true)
    (hr : readS a s = .ok (x, s1)) (hx : csr.toNat = 0x60 → x.val.toNat % 32 = 0 ∧ x.val.toNat + 32 ≤ 0x600000) :
    exec (.csrw a csr) s = issue (consume (!csrPoi csr.toNat && x.poi) >>= fun _ => readS a >>= csrWrite csr.toNat) s := by
  refine (issue_of_passed (needCsr_ok hn (fun _ => hi) hm)).trans ((issue_of_passed (peekS_of_readS hr)).trans ?_)
  by_cases h : csr.toNat = 0x60
  · exact (congrArg (issue · s) (if_pos h)).trans (issue_of_passed (needAddr_ok (addrOk_iff.2 (hx h)) s))
  · exact congrArg (issue · s) (if_neg h)
/-- The write lands from the state in which the value is read. -/
theorem exec_csrw_writes (hn : csrAssigned csr.toNat = true) (hi : csrIx csr.toNat = false) (hm : csr.toNat < 0x800 ∨ s.core.inMon = true)
    (hr : readS a s = .ok (x, s1)) (hx : csr.toNat = 0x60 → x.val.toNat % 32 = 0 ∧ x.val.toNat + 32 ≤ 0x600000)
    (hp : x.poi = false ∨ csrPoi csr.toNat = true) (hw : csrWrite csr.toNat x s1 = .ok ((), t)) : exec (.csrw a csr) s = .next t :=
  (exec_csrw_of_read hn hi hm hr hx).trans ((issue_clean (by rcases hp with h | h <;> simp [h]) _ s).trans (issue_ok (iss_seq hr hw)))
end

/-! ### Context regions (R357, R359) -/

section
variable {s : State} {v : Word} (ha : v.toNat % 32 = 0 ∧ v.toNat + 32 ≤ 0x600000)
include ha
theorem crgaddOp_ok (hl : s.core.crg.length < 16) : crgaddOp v s = .ok ((), s.laterPart 1 [.csr 0x60 ⟨v, false⟩]) :=
  iss_seq (needAddr_ok (addrOk_iff.2 ha) s) (iss_seq (need_ok (decide_eq_true hl) _ _ _ s) rfl)
theorem crgaddOp_full (hl : 16 ≤ s.core.crg.length) : crgaddOp v s = .error { cause := cSched, slot := s.slot } :=
  iss_seq (needAddr_ok (addrOk_iff.2 ha) s) (iss_bind_error (need_error (decide_eq_false (Nat.not_lt.2 hl)) _ _ _ s))
end

/-- Settles O34: a read and a write by the number's assignment and privilege, then a write by what its register is. -/
theorem controlRegisters : Obligations.ControlRegisters := by
  unfold Obligations.ControlRegisters
  intro s s1 d a csr x sa n may carries mark
  refine ⟨fun hn hm => ?reads, fun hn hm => ⟨?_, fun hi => ?_⟩, fun hn => ⟨?_, ?_⟩, fun lo hi => ?ix, fun hn hi hm hr => ?writes,
    fun al hi hl => ?_, fun al hi hl => ?_, rfl⟩
  case reads => exact issue_ok (iss_seq (needCsr_ok hn nofun hm) rfl)
  · exact issue_error (iss_bind_error (needCsr_privilege hn nofun hm))
  · exact issue_error (iss_bind_error (needCsr_privilege hn (fun _ => hi) hm))
  · exact issue_error (iss_bind_error (needCsr_illegal (.inl hn)))
  · exact issue_error (iss_bind_error (needCsr_illegal (.inl hn)))
  case ix => exact issue_error (iss_bind_error (needCsr_illegal (.inr ⟨rfl, by simp [csrIx, n, lo, hi]⟩)))
  case writes =>
    obtain ⟨-, -, regions, mode⟩ := control_of_readS hr
    refine ⟨fun h60 h809 hp => ?plain, fun h60 ⟨al, fit, hp⟩ hl => ?region, fun h809 hp h31 => ?monitor, fun hp hc hx => ?poisoned⟩
    case plain =>
      exact exec_csrw_writes hn hi hm hr (fun h => absurd h h60) (hp.imp_right csrPoi_iff.2)
        (by rw [csrWrite, if_neg h60, if_neg h809]; rfl)
    case region =>
      have word : x = ⟨x.val, false⟩ := congrArg (PWord.mk x.val) hp
      refine exec_csrw_writes hn hi hm hr (fun _ => ⟨al, fit⟩) (.inl hp) ?_
      rw [csrWrite, if_pos h60, word]
      exact crgaddOp_ok ⟨al, fit⟩ (by rw [regions]; exact hl)
    case monitor =>
      have inMon : s1.core.inMon = true := mode.trans (hm.resolve_left (by omega))
      refine exec_csrw_writes hn hi hm hr (by omega) (.inl hp) ?_
      rw [csrWrite, if_neg (by omega), if_pos h809]
      exact iss_seq (need_ok inMon _ _ _ s1) ((congrFun (if_neg (ne_true_of_eq_false h31)) s1).trans rfl)
    case poisoned =>
      rw [slot_of_readS hr]
      exact (exec_csrw_of_read hn hi hm hr hx).trans
        (issue_consumed (by rw [hp, Bool.and_true, Bool.not_eq_true', Bool.eq_false_iff]; exact mt csrPoi_iff.1 hc) _ s)
  · exact issue_ok (crgaddOp_ok ⟨al, hi⟩ hl)
  · exact issue_error (crgaddOp_full ⟨al, hi⟩ hl)

end Sys2Proof.Machine

/-! PROOFS. Traps: the cause word, what a trap and a monitor fault leave of the tile, and the error event of a monitor fault (R337, R338, R345, R347,
R417). -/
namespace Sys2Proof.Machine

/-! ### The cause word (R345) -/

theorem Info.toNat_word (i : Info) (rem : Nat) : (i.word rem).toNat =
    i.cause % 256 * 16777216 + i.slot % 8 * 2097152 + b2n i.defd * 1048576 + i.mult % 8 * 131072 + i.flg.toNat * 2048 + rem % 128 * 16 := by
  have flg := i.flg.isLt
  have defd : (if i.defd then 2 ^ 20 else 0) = b2n i.defd * 1048576 := by cases i.defd <;> rfl
  have bit : b2n i.defd ≤ 1 := by cases i.defd <;> decide
  rw [Info.word, defd, BitVec.toNat_ofNat]
  omega
/-- The fields of a cause word, from the highest. -/
theorem Info.word_fields (i : Info) (rem : Nat) :
    ((i.word rem).extractLsb' 24 8).toNat = i.cause % 256 ∧ ((i.word rem).extractLsb' 21 3).toNat = i.slot % 8 ∧ (i.word rem).getLsbD 20 = i.defd
    ∧ ((i.word rem).extractLsb' 17 3).toNat = i.mult % 8 ∧ (i.word rem).extractLsb' 11 6 = i.flg ∧ ((i.word rem).extractLsb' 4 7).toNat = rem % 128 := by
  have word := i.toNat_word rem
  have flg := i.flg.isLt
  have field (lo n : Nat) : ((i.word rem).extractLsb' lo n).toNat = (i.word rem).toNat / 2 ^ lo % 2 ^ n := by
    rw [BitVec.extractLsb'_toNat, Nat.shiftRight_eq_div_pow]
  have bit : b2n i.defd ≤ 1 := by cases i.defd <;> decide
  have defd : (i.word rem).toNat / 1048576 % 2 = b2n i.defd := by omega
  refine ⟨?_, ?_, ?_, ?_, BitVec.eq_of_toNat_eq ?_, ?_⟩
  · rw [field]; omega
  · rw [field]; omega
  · rw [BitVec.getLsbD, Nat.testBit_eq_decide_div_mod_eq, defd]
    cases i.defd <;> rfl
  · rw [field]; omega
  · rw [field]; omega
  · rw [field]; omega

/-! ### Taking a trap (R337, R338) -/

/-- The core with a cycle count of its lease. -/
def Core.withLease (c : Core) (n : Nat) : Core := { c with lcyc := n }
/-- The lease's cycle count is all of a core that the trap's own cycle takes back, and of its core alone (R139). -/
theorem Tile.core_uncount (x : Tile) (c : Nat) : ∃ n, (x.uncount c).core c = (x.core c).withLease n := by
  unfold Tile.uncount
  split
  · exact ⟨_, Tile.core_setCore ..⟩
  · split
    · exact ⟨_, Tile.core_setCore ..⟩
    · exact ⟨_, rfl⟩
theorem Tile.uncount_frame (x : Tile) (c : Nat) : (x.uncount c).tm = x.tm ∧ (x.uncount c).ds = x.ds ∧ ∀ e, e ≠ c → (x.uncount c).core e = x.core e := by
  have other (y : Core) (e : Nat) (h : e ≠ c) : (x.setCore c y).core e = x.core e := Tile.core_setCore_ne _ _ _ _ h
  unfold Tile.uncount
  split
  · exact ⟨rfl, rfl, other _⟩
  · split
    · exact ⟨rfl, rfl, other _⟩
    · exact ⟨rfl, rfl, fun _ _ => rfl⟩

/-- The tile of a task that takes a trap. -/
theorem here_raise {s : State} (h : s.core.inMon = false) (i : Info) :
    (s.raise i).here = (s.here.uncount s.curC).upC s.curC fun c => c.enter (s.tcyc s.curT) i := by
  rw [raise_task s i h]
  exact State.here_setTile s _
@[simp] theorem raise_curC (s : State) (i : Info) : (s.raise i).curC = s.curC := by
  unfold State.raise; split <;> rfl
/-- Its core has entered the monitor; the lease's count may differ by the cycle of the trap. -/
theorem core_raise {s : State} (h : s.core.inMon = false) (i : Info) : ∃ n, (s.raise i).core = (s.core.withLease n).enter (s.tcyc s.curT) i := by
  obtain ⟨n, hn⟩ := s.here.core_uncount s.curC
  refine ⟨n, ?_⟩
  rw [State.core, raise_curC, here_raise h, Tile.upC_eq, Tile.core_setCore, hn, State.core]

/-- A trap clears the error of the token that a wait reports, and of no other (R212). -/
theorem Core.enter_token (c : Core) (tc : Nat) (i : Info) (k : Nat) :
    (c.enter tc i).token k = if i.tok = some k then { c.token k with errn := 0, errc := 0 } else c.token k := by
  unfold Core.enter
  cases i.tok with
  | none => rfl
  | some j =>
    refine (Core.token_setTok c j k _).trans ?_
    by_cases h : k = j
    · rw [if_pos h, if_pos (by rw [h]), h]
    · rw [if_neg h, if_neg (by simpa using Ne.symm h)]
/-- The trap state of R345. -/
theorem Core.enter_saves (c : Core) (tc : Nat) (i : Info) : let y := c.enter tc i
    y.tpc = BitVec.ofNat 32 c.pc ∧ y.tcause = i.word c.repRem ∧ y.ttask = BitVec.ofNat 32 c.tsk ∧ y.trep = (if c.repRem = 0 then 0#32 else c.repHdr)
    ∧ y.tdlr = BitVec.ofNat 32 ((c.due - c.tsk) % 65536) := by
  unfold Core.enter
  cases i.tok <;> exact ⟨rfl, rfl, rfl, rfl, rfl⟩
theorem Core.enter_tinfo (c : Core) (tc : Nat) (i : Info) : let y := c.enter tc i
    sget 0#32 y.tinfo 0 = i.i0 ∧ sget 0#32 y.tinfo 1 = i.i1 ∧ sget 0#32 y.tinfo 2 = i.i2 ∧ sget 0#32 y.tinfo 3 = i.i3 := by
  simp [Core.enter, sget_sset]
/-- What a task has of its own stands. -/
theorem Core.enter_keeps (c : Core) (tc : Nat) (i : Info) : let y := c.enter tc i
    y.task = c.task ∧ y.mon = c.mon ∧ y.v = c.v ∧ y.m = c.m ∧ y.pend = c.pend ∧ y.aflags = c.aflags ∧ y.tsk = c.tsk ∧ y.calls = c.calls := by
  unfold Core.enter
  cases i.tok <;> exact ⟨rfl, rfl, rfl, rfl, rfl, rfl, rfl, rfl⟩

/-! ### The monitor fault (R347, R417) -/

/-- The tile of a core that takes a monitor fault. -/
def Tile.stopped (x : Tile) (c glo : Nat) (pc : Word) : Tile := (x.upC c fun y => { y with mode := .stopped }).record glo true 0x08 pc (some c)
theorem here_raise_mon {s : State} (h : s.core.inMon = true) (i : Info) :
    (s.raise i).here = s.here.stopped s.curC s.glob (BitVec.ofNat 32 s.core.pc) := by
  rw [raise_mon s i h]
  exact sget_sset_self _ _ _ _

/-- The first event of its cycle is recorded against the bank as it stands. -/
theorem Tile.record_first {x : Tile} {glo : Nat} (h : x.errAt ≠ glo) (ue : Bool) (src : Nat) (a : Word) (c : Option Nat) :
    (x.record glo ue src a c).errbank = bankEvent glo x.errbank ⟨ue, src, a, c⟩ := by
  simp [Tile.record, h, insertBy]

section
variable (glo : Nat) (b : SMap Word) (a : Word)

/-- The header of an uncorrectable event of source 8. -/
theorem bankEvent_header {c : Nat} (hc : c < 4) : let v : Word := BitVec.ofNat 32 (2 ^ 31 + 2 ^ 30 + 8 * 2 ^ 24 + (c * 2 ^ 22 + 2 ^ 21))
    v.getLsbD 31 = true ∧ v.getLsbD 30 = true ∧ (v.extractLsb' 24 6).toNat = 8 := by
  interval_cases c <;> decide
/-- A bank that holds no uncorrectable event takes one. -/
theorem bankEvent_taken {c : Nat} (hc : c < 4) (h : (sget 0#32 b 0).getLsbD 31 = false ∨ (sget 0#32 b 0).getLsbD 30 = false) :
    let d := bankEvent glo b ⟨true, 8, a, some c⟩
    let v := sget 0#32 d 0
    v.getLsbD 31 = true ∧ v.getLsbD 30 = true ∧ (v.extractLsb' 24 6).toNat = 8 ∧ sget 0#32 d 1 = a := by
  have free : ((sget 0#32 b 0).getLsbD 31 && (sget 0#32 b 0).getLsbD 30) = false := Bool.and_eq_false_iff.2 h
  obtain ⟨valid, ue, src⟩ := bankEvent_header hc
  simp only [bankEvent, free, if_true, Bool.false_eq_true, if_false, sget_sset]
  exact ⟨valid, ue, src, rfl⟩
/-- One that holds one counts it as lost. -/
theorem bankEvent_lost (c : Option Nat) (hv : (sget 0#32 b 0).getLsbD 31 = true) (hu : (sget 0#32 b 0).getLsbD 30 = true) :
    let d := bankEvent glo b ⟨true, 8, a, c⟩
    (sget 0#32 d 0).getLsbD 29 = true ∧ sget 0#32 d 1 = sget 0#32 b 1 := by
  simp [bankEvent, hv, hu, sget_sset]
end

/-! ### The return (R348) -/

theorem Core.leaveMon_open (c : Core) : (∀ l, l ∈ c.leaveMon.loops ↔ l ∈ c.loops ∧ l.depth < 1000) ∧ ∀ e, e ∈ c.leaveMon.calls ↔ e ∈ c.calls ∧ e.2 < 1000 := by
  simp [Core.leaveMon]

/-- Settles O37: the trap by what the core saves, what it keeps and what of its tile stands; the return; the monitor fault by the bank it meets. -/
theorem trapEntryAndReturn : Obligations.TrapEntryAndReturn := by
  unfold Obligations.TrapEntryAndReturn
  refine ⟨fun s i hm => ?trap, fun c => ?back, fun s i hm hc => ?fault⟩
  case trap =>
    intro c t y
    obtain ⟨n, hy⟩ := core_raise hm i
    have hx : t.here = _ := here_raise hm i
    obtain ⟨tm, ds, cores⟩ := s.here.uncount_frame s.curC
    have memories : t.here.tm = s.here.tm ∧ t.here.ds = s.here.ds := by rw [hx]; exact ⟨tm, ds⟩
    have tiles (u : Nat) (hu : u ≠ s.curT) : t.tile u = s.tile u := by
      show (s.raise i).tile u = _
      rw [raise_task s i hm]
      exact State.tile_setTile_ne s _ _ _ hu
    have others (e : Nat) (he : e ≠ s.curC) : t.here.core e = s.here.core e := by
      rw [hx, Tile.upC_eq, Tile.core_setCore_ne _ _ _ _ he, cores e he]
    replace hy : y = _ := hy
    clear_value y
    subst hy
    obtain ⟨tpc, tcause, ttask, trep, tdlr⟩ := Core.enter_saves (s.core.withLease n) (s.tcyc s.curT) i
    obtain ⟨cause, slot, defd, mult, flg, rem⟩ := i.word_fields s.core.repRem
    obtain ⟨i0, i1, i2, i3⟩ := Core.enter_tinfo (s.core.withLease n) (s.tcyc s.curT) i
    obtain ⟨task, mon, v, m, pend, aflags, tsk, calls⟩ := Core.enter_keeps (s.core.withLease n) (s.tcyc s.curT) i
    rw [tcause]
    refine ⟨rfl, rfl, rfl, rfl, tpc, ttask, cause, slot, defd, mult, flg, rem, i0, i1, i2, i3, trep, tdlr, rfl, task, mon, v, m, pend, aflags, tsk, calls,
      fun k hk => ?_, fun k hk => ?_, memories.1, memories.2, tiles, others⟩
    · rw [Core.enter_token, if_neg hk]; rfl
    · rw [Core.enter_token, if_pos hk]; rfl
  case back =>
    obtain ⟨loops, calls⟩ := c.leaveMon_open
    exact ⟨rfl, rfl, rfl, rfl, rfl, rfl, rfl, rfl, rfl, rfl, rfl, rfl, rfl, rfl, rfl, rfl, loops, calls⟩
  case fault =>
    intro t
    have hx : t.here = s.here.stopped s.curC s.glob (BitVec.ofNat 32 s.core.pc) := here_raise_mon hm i
    have core : t.core = { s.core with mode := .stopped } := by
      rw [State.core, show t.curC = s.curC from raise_curC s i, hx]
      exact sget_sset_self _ _ _ _
    have inputs : t.inputs = s.inputs ++ [(s.gcyc, .event s.curT s.curC 0 .jobRestore)] := by
      show (s.raise i).inputs = _
      rw [raise_mon s i hm]
      rfl
    rw [core, hx]
    refine ⟨rfl, rfl, rfl, rfl, rfl, inputs, fun first => ?_⟩
    rw [Tile.stopped, Tile.record_first (by exact first)]
    refine ⟨fun free => bankEvent_taken _ _ _ hc free, fun hv hu => bankEvent_lost _ _ _ _ hv hu⟩

end Sys2Proof.Machine

/-! PROOFS. The semaphore, and the debug commands: what each does by the word, the time and the stop that it meets (R374, R375, R377, R380, R383, R391,
R393 to R395). -/
namespace Sys2Proof.Machine

/-! ### The semaphore (R374, R375, R377) -/

section
variable (s : State) (port : Bool)

theorem openJob_semaphore (tag : Word) (i : Instr) : let u := s.openJob port tag i
    u.sem = s.sem ∧ u.scrubEnd = s.scrubEnd ∧ u.scrubFree = s.scrubFree := by cases port <;> exact ⟨rfl, rfl, rfl⟩

variable {s} {port} {n : Nat} {tag : BitVec 16}

theorem semAcquire_scrubbed (otmo : Nat) (h0 : n = 0) (h : s.scrubEnd.isSome = true) :
    s.semAcquire port n tag otmo = (s, 0x0A, (sget 0#32 s.sem n).toNat + 2 ^ 32) := by
  subst h0
  exact if_pos ⟨rfl, h⟩
theorem semAcquire_taken (otmo : Nat) (h : n = 0 → s.scrubEnd = none) (hw : (sget 0#32 s.sem n).getLsbD 31 = true) :
    s.semAcquire port n tag otmo = (s, 0, (sget 0#32 s.sem n).toNat + 2 ^ 32) :=
  (if_neg fun k => by simp [h k.1] at k).trans (if_pos hw)
/-- A free word is the port's, with its tag; of sem0 ownership with it. -/
theorem semAcquire_free (otmo : Nat) (h : n = 0 → s.scrubEnd = none) (hw : (sget 0#32 s.sem n).getLsbD 31 = false) :
    let taken : Word := 1#1 ++ BitVec.ofBool port ++ 0#14 ++ tag
    let v : State := { s with sem := sset 0#32 s.sem n taken }
    s.semAcquire port n tag otmo = (if n = 0 then v.takeOwner otmo else v, 0, taken.toNat) := by
  intro taken v
  have answer (u : State) (hu : u.sem = v.sem) : u.semAnswer n false = (u, 0, taken.toNat) := by
    rw [State.semAnswer, hu, sget_sset_self]
    rfl
  refine (if_neg fun k => by simp [h k.1] at k).trans ((if_neg (ne_true_of_eq_false hw)).trans (answer _ ?_))
  split
  · rfl
  · rfl

/-- The port and the tag hold the word. -/
def HeldBy (w : Word) (port : Bool) (tag : BitVec 16) : Prop := w.getLsbD 31 = true ∧ w.getLsbD 30 = port ∧ w.extractLsb' 0 16 = tag
theorem heldBy_iff (w : Word) (port : Bool) (tag : BitVec 16) :
    HeldBy w port tag ↔ (w.getLsbD 31 && w.getLsbD 30 == port && w.extractLsb' 0 16 == tag) = true := by
  simp only [HeldBy, Bool.and_eq_true, beq_iff_eq, and_assoc]
theorem semRelease_refused (h : ¬HeldBy (sget 0#32 s.sem n) port tag) : s.semRelease port n tag = (s, 0, (sget 0#32 s.sem n).toNat + 2 ^ 32) :=
  if_pos (by rw [Bool.eq_false_iff.2 (mt (heldBy_iff ..).2 h)]; rfl)
/-- A release by the holder frees the word; of sem0 it ends ownership, once. -/
theorem semRelease_held (h : HeldBy (sget 0#32 s.sem n) port tag) : s.semRelease port n tag =
    (if n = 0 then (if s.scrubFree then s else s.stopJob.endOwnership) else { s with sem := sset 0#32 s.sem n 0#32 }).semAnswer n false :=
  if_neg (by rw [(heldBy_iff ..).1 h]; exact Bool.false_ne_true)
end

/-- Settles O38: each operation of the semaphore by the word it meets. -/
theorem semaphoreCommands : Obligations.SemaphoreCommands := by
  unfold Obligations.SemaphoreCommands
  intro s port tag word st otmo n acq rel rd u w taken mine free
  have kept (i : Instr) : (u i).sem = s.sem ∧ (u i).scrubEnd = s.scrubEnd ∧ (u i).scrubFree = s.scrubFree := openJob_semaphore s port tag i
  have word (i : Instr) : sget 0#32 (u i).sem n = w := congrArg (sget 0#32 · n) (kept i).1
  refine ⟨fun h => ?acquire, fun h => ?release, fun h => ?_, fun h => starts_act h rfl, fun h => starts_ends h tag _⟩
  case acquire =>
    have acquires {r : State × Nat × Nat} (hr : (u acq).semAcquire port n st otmo.toNat = r) : exec acq s = .next (s.ends port tag acq r) :=
      starts_ends_eq h hr
    obtain ⟨sem, scrub, -⟩ := kept acq
    refine ⟨fun h0 hs => ?_, fun h0 hs hw => ?_, fun h0 hw => ?_, fun hs hw => ?_⟩
    · exact acquires ((semAcquire_scrubbed _ h0 (by rw [scrub]; exact hs)).trans (by rw [word]))
    · exact acquires ((semAcquire_free _ (fun _ => scrub.trans hs) (by rw [word]; exact hw)).trans (by rw [if_pos h0, sem, h0]))
    · exact acquires ((semAcquire_free _ (fun k => absurd k h0) (by rw [word]; exact hw)).trans (by rw [if_neg h0, sem]))
    · exact acquires ((semAcquire_taken _ (fun k => scrub.trans (hs k)) (by rw [word]; exact hw)).trans (by rw [word]))
  case release =>
    have releases {r : State × Nat × Nat} (hr : (u rel).semRelease port n st = r) : exec rel s = .next (s.ends port tag rel r) := starts_ends_eq h hr
    obtain ⟨sem, -, scrub⟩ := kept rel
    have held (hm : mine) := semRelease_held (s := u rel) (port := port) (n := n) (tag := st) (by rw [word]; exact hm)
    refine ⟨fun hm => ?_, fun hm h0 => ?_, fun hm h0 hs => ?_, fun hm h0 hs => ?_⟩
    · exact releases ((semRelease_refused (by rw [word]; exact hm)).trans (by rw [word]))
    · exact releases ((held hm).trans (by rw [if_neg h0, sem, State.semAnswer, sget_sset_self]; rfl))
    · exact releases ((held hm).trans (by rw [if_pos h0, scrub, hs, h0]; rfl))
    · exact releases ((held hm).trans (by rw [if_pos h0, scrub, hs, if_pos rfl, State.semAnswer, word]; rfl))
  · exact starts_ends_eq h (by rw [State.semAnswer, word]; rfl)

/-! ### Debug commands (R391, R393 to R395) -/

theorem Tile.debugStop_iff {x : Tile} : x.debugStop = true ↔ ∃ f ∈ x.frz, f = (.debug, none) := by
  simp [Tile.debugStop]
theorem debugStands_iff {s : State} {t : Nat} : s.debugStands t = true ↔ ∃ f ∈ (s.tile t).frz, f.1 = .debug ∧ ∀ g, f.2 = some g → s.glob < g := by
  rw [State.debugStands, List.any_eq_true]
  refine exists_congr fun f => and_congr_right fun _ => ?_
  obtain ⟨k, o⟩ := f
  cases o with
  | none => simp
  | some g => simp

section
variable {s : State} {port : Bool} {tag : Word} {i : Instr} {need : Need} {run : HostAct}

theorem starts_named (h : s.Starts port i need) {w : Word} (hw : need.name = some w) : s.named w ≠ none := by
  obtain ⟨-, -, -, -, -, -, -, named⟩ := h
  exact named w hw
/-- A command that its session does not permit is refused, once it is well formed, names a tile where it names one, and is its owner's (R383, R391). -/
theorem hostCommand_forbidden {k : Nat} (h : s.Starts port i {}) (ho : need.owner = true) (hm : need.map = false) (hp : need.perm = some k)
    (hk : s.dbgAuth = false ∨ s.dbgMask.getLsbD k = false) (hn : ∀ w, need.name = some w → s.named w ≠ none) :
    hostCommand port tag i need run s = .next (s.refuses port tag i 0x07) := by
  obtain ⟨boot, first, wf, owner, -⟩ := h
  obtain ⟨owns, scrub⟩ := owner rfl
  have named : (need.name.any fun w => (s.named w).isNone) = false := by
    cases hw : need.name with
    | none => rfl
    | some w => simpa [Option.ne_none_iff_isSome] using hn w hw
  have forbidden : (need.perm.any fun k => !(s.dbgAuth && s.dbgMask.getLsbD k)) = true := by
    rw [hp, Option.any_some, Bool.and_eq_false_iff.2 hk]
    rfl
  refine hostCommand_refused (st := 6) first (fun hb => Bool.false_ne_true (boot hb)) ?_
  simp only [State.firstStatus, State.owns, wf, named, ho, owns, scrub, hm, forbidden, if_true, Bool.not_true, Bool.or_self, Bool.false_eq_true, if_false,
    beq_self_eq_true, Bool.and_false, Bool.false_and, Option.isSome_none]
end

section
variable {s : State} {n sc u : Nat} {name : Word} {t : Nat} {j : HostJob}

theorem haltAct_late {a : Nat} (hj : j.stage = 0) (h : a < s.glob + 400) : haltAct a j s = (s, j.done 0x08 0) := (if_pos hj).trans (if_pos h)
theorem haltAct_set {a : Nat} (hj : j.stage = 0) (h : s.glob + 400 ≤ a) : haltAct a j s = ({ s with haltAt := some a }, { j with stage := 1 }) :=
  (if_pos hj).trans (if_neg (Nat.not_lt.2 h))
theorem stepTileAct_stopped (hj : j.stage = 0) (hn : s.named name = some t) (h : (s.tile t).debugStop = true) : stepTileAct n name j s =
    (s.upT t fun x => { x with stepLeft := n, frz := x.frz.filter fun f => !(f.1 == .debug && f.2.isNone) }, { j with stage := 1 }) := by
  simp only [stepTileAct, hn, hj, h, if_true]
theorem stepTileAct_running (hj : j.stage = 0) (hn : s.named name = some t) (h : (s.tile t).debugStop = false) :
    stepTileAct n name j s = (s, j.done 0x0D 0) := by
  simp only [stepTileAct, hn, hj, h, if_true, Bool.false_eq_true, if_false]
theorem stepWaferAct_first (hj : j.stage = 0) :
    stepWaferAct n j s = if s.still then ({ s with haltLeft := n + 1 }, { j with stage := 1 }) else (s, j.done 0x0D 0) := if_pos hj
end

/-- What a RESUME ends, and with which status, where the name it needs is a tile of this wafer. -/
def State.resumes (s : State) (u sc : Nat) (name : Word) : State × Nat × Nat :=
  if u < s.glob + 400 then (s, 0x08, 0)
  else if sc = 0 then (if s.still then ({ s with resumeAt := some u }, 0, 0) else (s, 0x0D, 0))
  else match s.named name with
    | some t => if (s.tile t).debugStop then (s.upT t fun x => x.resumeOn u, 0, 0) else (s, 0x0D, 0)
    | none => (s, 0x01, 0)
theorem resumeAct_eq {s : State} {sc : Nat} {name : Word} (h : sc ≠ 0 → s.named name ≠ none) (u : Nat) (j : HostJob) :
    resumeAct u sc name j s = atOnce (fun s => s.resumes u sc name) j s := by
  have named : ¬(sc ≠ 0 ∧ s.named name = none) := fun k => h k.1 k.2
  simp only [resumeAct, atOnce, if_neg named]
  rfl

section
variable {s : State} {u sc : Nat} {name : Word} {t : Nat}

theorem resumes_late (h : u < s.glob + 400) : s.resumes u sc name = (s, 0x08, 0) := if_pos h
theorem resumes_domain (h : s.glob + 400 ≤ u) (h0 : sc = 0) :
    s.resumes u sc name = if s.still then ({ s with resumeAt := some u }, 0, 0) else (s, 0x0D, 0) := (if_neg (Nat.not_lt.2 h)).trans (if_pos h0)
theorem resumes_tile (h : s.glob + 400 ≤ u) (h0 : sc ≠ 0) (hn : s.named name = some t) :
    s.resumes u sc name = if (s.tile t).debugStop then (s.upT t fun x => x.resumeOn u, 0, 0) else (s, 0x0D, 0) := by
  rw [State.resumes, if_neg (Nat.not_lt.2 h), if_neg h0, hn]
end

section
variable {s : State} {port : Bool} {name : Word} {t space c off len buf : Nat} (hn : s.named name = some t)
include hn
theorem readState_refused (h : ¬(s.still = true ∨ s.debugStands t = true)) : s.readState port name space c off len buf = (s, 0x0D, 0) := by
  have runs : (!(s.still || s.debugStands t)) = true := by simpa using h
  simp only [State.readState, hn, runs, if_true]
theorem readState_outside (h : s.still = true ∨ s.debugStands t = true) (hs : s.space t space c off len = none) :
    s.readState port name space c off len buf = (s, 0x01, 0) := by
  have stands : (!(s.still || s.debugStands t)) = false := by simpa [or_iff_not_imp_left] using h
  simp only [State.readState, hn, stands, Bool.false_eq_true, if_false, hs]
theorem readState_read {d : List Byte × List Bool} (h : s.still = true ∨ s.debugStands t = true) (hs : s.space t space c off len = some d) :
    s.readState port name space c off len buf = ((s.hostWrite port buf (withBitmap d)).draw, 0, (withBitmap d).length) := by
  have stands : (!(s.still || s.debugStands t)) = false := by simpa [or_iff_not_imp_left] using h
  simp only [State.readState, hn, stands, Bool.false_eq_true, if_false, hs]
end

/-- Settles O41: the permission of each command, then each by the time it names and whether its domain or its tile stands. -/
theorem debugCommands : Obligations.DebugCommands := by
  unfold Obligations.DebugCommands
  intro s port tag name n off len at' buf sc space core t u goes halt res stT stW rd stopped stands still rdNeed
  have glob (i : Instr) : (u i).glob = s.glob := openJob_glob s port tag i
  have tile (i : Instr) : (u i).tile t = s.tile t := openJob_tile s port tag i t
  have names (i : Instr) : (u i).named name = s.named name := openJob_named s port tag i name
  have stills (i : Instr) : (u i).still = true ↔ still := by rw [openJob_still]; exact still_iff
  have stops (i : Instr) : ((u i).tile t).debugStop = true ↔ stopped := by rw [tile]; exact Tile.debugStop_iff
  have scope : sc ≠ 0#8 ↔ sc.toNat ≠ 0 := not_congr (BitVec.toNat_inj (y := 0#8)).symm
  refine ⟨fun h => ?halts, fun c hc h hk hn => ?forbidden, fun i hi hs hn hc hb => ?unnamed, fun h => ?resumes, fun h hn => ?steps, fun h => ?stepsWafer,
    fun h hn => ?reads⟩
  case halts =>
    refine ⟨fun hl => ?_, fun hl => ?_⟩
    · exact starts_done h (haltAct_late rfl (by rw [glob]; exact hl))
    · exact starts_act h (haltAct_set rfl (by rw [glob]; exact hl))
  case forbidden =>
    simp only [List.mem_cons, List.not_mem_nil, or_false] at hc
    rcases hc with rfl | rfl | rfl | rfl | rfl
    · exact hostCommand_forbidden h rfl rfl rfl hk nofun
    · refine hostCommand_forbidden h rfl rfl rfl hk fun w hw => ?_
      obtain ⟨hs, hw⟩ : sc ≠ 0#8 ∧ name = w := by simpa using hw
      exact hw ▸ hn (.inr (.inr ⟨rfl, hs⟩))
    · exact hostCommand_forbidden h rfl rfl rfl hk fun w hw => by cases hw; exact hn (.inr (.inl rfl))
    · exact hostCommand_forbidden h rfl rfl rfl hk nofun
    · exact hostCommand_forbidden h rfl rfl rfl hk fun w hw => by cases hw; exact hn (.inl rfl)
  case unnamed =>
    simp only [List.mem_cons, List.not_mem_nil, or_false] at hi
    rcases hi with rfl | rfl | rfl
    · exact hostCommand_unnamed hn hc hb (if_neg (hs rfl))
    · exact hostCommand_unnamed hn hc hb rfl
    · exact hostCommand_unnamed hn hc hb rfl
  case resumes =>
    have needed : sc.toNat ≠ 0 → (u res).named name ≠ none := fun k => by rw [names]; exact starts_named h (if_neg (scope.2 k))
    have ends {v : State} {st r : Nat} (hr : (u res).resumes at'.toNat sc.toNat name = (v, st, r)) : exec res s = .next (s.ends port tag res (v, st, r)) :=
      starts_done h ((resumeAct_eq needed _ _).trans (by rw [atOnce, hr]))
    have zero : sc = 0#8 → sc.toNat = 0 := fun h0 => by rw [h0]; rfl
    refine ⟨fun hl => ?_, fun hl h0 hd => ?_, fun hl h0 hd => ?_, fun hl h0 ht hd => ?_, fun hl h0 ht hd => ?_⟩
    · exact ends (resumes_late (by rw [glob]; exact hl))
    · exact ends ((resumes_domain (by rw [glob]; exact hl) (zero h0)).trans (if_pos ((stills _).2 hd)))
    · exact ends ((resumes_domain (by rw [glob]; exact hl) (zero h0)).trans (if_neg (mt (stills _).1 hd)))
    · exact ends ((resumes_tile (by rw [glob]; exact hl) (scope.1 h0) ((names _).trans ht)).trans (if_pos ((stops _).2 hd)))
    · exact ends ((resumes_tile (by rw [glob]; exact hl) (scope.1 h0) ((names _).trans ht)).trans (if_neg (mt (stops _).1 hd)))
  case steps =>
    refine ⟨fun hd => ?_, fun hd => ?_⟩
    · exact starts_act h (stepTileAct_stopped rfl ((names _).trans hn) ((stops _).2 hd))
    · exact starts_done h (stepTileAct_running rfl ((names _).trans hn) (Bool.eq_false_iff.2 (mt (stops _).1 hd)))
  case stepsWafer =>
    refine ⟨fun hd => ?_, fun hd => ?_⟩
    · exact starts_act h ((stepWaferAct_first rfl).trans (if_pos ((stills _).2 hd)))
    · exact starts_done h ((stepWaferAct_first rfl).trans (if_neg (mt (stills _).1 hd)))
  case reads =>
    have stopsHere : ((u rd).still = true ∨ (u rd).debugStands t = true) ↔ still ∨ stands :=
      or_congr (stills rd) (debugStands_iff.trans (by rw [tile, glob]))
    have tileNamed := (names rd).trans hn
    refine ⟨fun hs hd => ?_, fun d hs hd => ?_, fun hs hd => ?_⟩
    · exact starts_ends_eq h (readState_refused tileNamed (mt stopsHere.1 (not_or.2 ⟨hs, hd⟩)))
    · exact starts_ends_eq h (readState_read tileNamed (stopsHere.2 hs) hd)
    · exact starts_ends_eq h (readState_outside tileNamed (stopsHere.2 hs) hd)

end Sys2Proof.Machine

/-! PROOFS. The task walker: launches, idle cores, the states of a node, dispatch and barriers (R304 to R308, R313, R317, R332, R333). -/
namespace Sys2Proof.Machine

/-! ### Folds -/

/-- A fold whose function acts at one element of the list alone. -/
theorem foldl_of_one {α β : Type} {f : α → β → α} {n : β} {l : List β} (hl : l.Nodup) (hn : n ∈ l) (h : ∀ a m, m ≠ n → f a m = a) (a : α) :
    l.foldl f a = f a n := by
  induction l with
  | nil => exact absurd hn List.not_mem_nil
  | cons b r ih =>
    obtain ⟨hb, hr⟩ := List.nodup_cons.1 hl
    by_cases hbn : b = n
    · subst hbn
      exact foldl_of_fixed r fun c hc => h _ c fun e => hb (e ▸ hc)
    · rw [List.foldl_cons, h a b hbn]
      exact ih hr ((List.mem_cons.1 hn).resolve_left (Ne.symm hbn))

theorem nodup_upto (k n : Nat) : (upto k n).Nodup := by
  rw [upto_eq_range']
  exact List.nodup_range'
theorem nodup_coresOf (m : Nat) : (coresOf m).Nodup := (nodup_upto 0 4).filter _
theorem lt_of_mem_coresOf {m c : Nat} (h : c ∈ coresOf m) : c < 4 := mem_upto_zero.1 (List.mem_filter.1 h).1

/-- The tile with these cores. -/
def Tile.withCores (x : Tile) (m : SMap Core) : Tile := { x with cores := m }

/-- The same change at every core of a list. -/
theorem core_foldl {f : Tile → Nat → Tile} {g : Core → Core} (h : ∀ x c d, (f x c).core d = if d = c then g (x.core d) else x.core d)
    {l : List Nat} (hl : l.Nodup) (x : Tile) (d : Nat) : (l.foldl f x).core d = if d ∈ l then g (x.core d) else x.core d := by
  induction l generalizing x with
  | nil => simp
  | cons c r ih =>
    obtain ⟨hc, hr⟩ := List.nodup_cons.1 hl
    rw [List.foldl_cons, ih hr, h]
    by_cases hd : d = c
    · subst hd; simp [hc]
    · simp [hd]

section
variable (f : Core → Core)

theorem core_upC (x : Tile) (c d : Nat) : (x.upC c f).core d = if d = c then f (x.core d) else x.core d := by
  rw [Tile.upC_eq, Tile.core_setCore_if]
  split
  · rename_i h; rw [h]
  · rfl
theorem core_foldl_upC {l : List Nat} (hl : l.Nodup) (x : Tile) (d : Nat) :
    (l.foldl (fun x c => x.upC c f) x).core d = if d ∈ l then f (x.core d) else x.core d := core_foldl (core_upC f) hl x d
theorem foldl_upC_eq (l : List Nat) (x : Tile) : ∃ m, l.foldl (fun x c => x.upC c f) x = x.withCores m := by
  induction l generalizing x with
  | nil => exact ⟨x.cores, rfl⟩
  | cons c r ih => exact ih _
end

theorem core_allCores (x : Tile) (f : Core → Core) {c : Nat} (hc : c < 4) : (x.allCores f).core c = f (x.core c) := by
  rw [Tile.allCores, core_foldl_upC f (nodup_upto 0 4), if_pos (mem_upto_zero.2 hc)]

theorem allCores_eq (x : Tile) (f : Core → Core) : ∃ m, x.allCores f = x.withCores m := foldl_upC_eq f (upto 0 4) x

/-! ### Launches (R313) -/

theorem sget_foldl_sset {α : Type} [DecidableEq α] (d : α) (g : Nat → α) {l : List Nat} (m : SMap α) {i : Nat} (hi : i ∈ l) :
    sget d (l.foldl (fun m i => sset d m i (g i)) m) i = g i := by
  induction l using List.reverseRecOn with
  | nil => exact absurd hi List.not_mem_nil
  | append_singleton r j ih =>
    rw [List.foldl_append, List.foldl_cons, List.foldl_nil, sget_sset]
    split
    · rename_i h; rw [h]
    · rename_i h; exact ih (by simpa [h] using hi)

def Tile.noLaunches (x : Tile) : Tile := { x with launchQ := [] }
/-- The tile whose one launch is due: its queue is empty, and every core has the arguments. -/
@[irreducible] def Tile.mailed (x : Tile) (mb : BitVec 256) : Tile := x.noLaunches.allCores fun c => c.mail mb
theorem Tile.mailed_core (x : Tile) (mb : BitVec 256) {c i : Nat} (hc : c < 4) (hi : i < 8) :
    sget {} ((x.mailed mb).core c).mb i = ⟨mb.extractLsb' (32 * i) 32, false⟩ := by
  rw [Tile.mailed, core_allCores _ _ hc]
  exact sget_foldl_sset _ _ _ (mem_upto_zero.2 hi)
theorem Tile.mailed_eq (x : Tile) (mb : BitVec 256) : ∃ m, x.mailed mb = x.noLaunches.withCores m := by
  rw [Tile.mailed]
  exact allCores_eq _ _

theorem Tile.mailed_frame (x : Tile) (mb : BitVec 256) : let y := x.mailed mb
    y.launchQ = [] ∧ y.lcnt = x.lcnt ∧ y.nrt = x.nrt ∧ ∀ n, y.nPred n = x.nPred n := by
  obtain ⟨m, eq⟩ := x.mailed_eq mb
  rw [eq]
  exact ⟨rfl, rfl, rfl, fun _ => rfl⟩
theorem exec_launchDelivery_due {s : State} {a no : Nat} {b : Bool} {mb : BitVec 256} (hq : s.here.launchQ = [(a, b, no, mb)]) (ha : a ≤ s.gcyc) :
    exec .launchDelivery s = .next (if b then (s.setTile s.curT (s.here.mailed mb)).startRun s.curT
      else s.setTile s.curT { s.here.mailed mb with lcnt := min ((s.here.mailed mb).lcnt + 1) 0xFFFFFFFF }) := by
  show execLaunchDelivery s = _
  simp only [execLaunchDelivery, hq, List.filter_cons, List.filter_nil, decide_eq_true ha, decide_eq_false (Nat.not_lt.2 ha), if_true, Bool.false_eq_true, if_false,
    List.foldl_cons, List.foldl_nil, State.upHere_eq, State.upT_eq, State.tile_setTile, setTile_setTile, Tile.mailed]
  rfl

/-- A tile whose graph is one node. -/
theorem used_single {x : Tile} {n : Nat} {l : List Word} (hn : x.nodes = [(n, l)]) (h1 : 1 ≤ x.nKind n) (h5 : x.nKind n ≤ 5) : x.used = [n] := by
  simp [Tile.used, hn, h1, h5]
/-- A compute node whose count is zero is ready. -/
theorem actNode_compute {s : State} {t n : Nat} (hk : (s.tile t).nKind n = 1) :
    s.actNode t n = s.setTile t ((s.tile t).upRt n fun r => { r with st := .ready, ready := s.tcyc t }) := by
  simp only [State.actNode, hk, State.upT_eq]
@[simp] theorem Tile.rt_upRt (x : Tile) (n : Nat) (f : NodeRt → NodeRt) : (x.upRt n f).rt n = f (x.rt n) := sget_sset_self _ _ _ _

/-- The tile whose run begins, with node n alone in its graph. -/
def Tile.begun (x : Tile) (n : Nat) : Tile :=
  { x with lcnt := 0, comp := [], marks := [], running := true, nrt := sset {} [] n { count := x.nPred n } }
theorem Tile.begun_frame (x : Tile) (n : Nat) : (x.begun n).nKind n = x.nKind n ∧ (x.begun n).lag = x.lag ∧ (x.begun n).launchQ = x.launchQ
    ∧ (x.begun n).cores = x.cores := ⟨rfl, rfl, rfl, rfl⟩
theorem Tile.rt_begun (x : Tile) (n : Nat) : (x.begun n).rt n = { count := x.nPred n } := sget_sset_self _ _ _ _
theorem startRun_single {s : State} {t n : Nat} (hu : (s.tile t).used = [n]) : s.startRun t =
    if (s.tile t).nPred n = 0 then (s.setTile t ((s.tile t).begun n)).actNode t n else s.setTile t ((s.tile t).begun n) := by
  have begun : (({ s.tile t with
      lcnt := 0, comp := [], marks := [], running := !(s.tile t).used.isEmpty
      nrt := (s.tile t).used.foldl (fun m n => sset {} m n { count := (s.tile t).nPred n }) [] }) : Tile) = (s.tile t).begun n := by rw [hu]; rfl
  unfold State.startRun
  simp only [State.upT_eq, begun, State.tile_setTile, show ((s.tile t).begun n).used = [n] from hu, List.isEmpty_cons, Bool.false_eq_true, if_false]
  by_cases h : (s.tile t).nPred n = 0
  · have zero : (((s.tile t).begun n).nPred n == 0) = true := beq_iff_eq.2 h
    have runs : ((s.setTile t ((s.tile t).begun n)).tile t).running = true := by rw [State.tile_setTile]; rfl
    simp only [List.filter_cons, List.filter_nil, zero, if_true, List.foldl_cons, List.foldl_nil, runs, h]
  · have waits : (((s.tile t).begun n).nPred n == 0) = false := beq_eq_false_iff_ne.2 h
    simp only [List.filter_cons, List.filter_nil, waits, Bool.false_eq_true, if_false, List.foldl_nil, h]

/-- A launch that starts a run of one compute node. -/
theorem exec_launchDelivery_start {s : State} {a no n : Nat} {mb : BitVec 256} (hq : s.here.launchQ = [(a, true, no, mb)]) (ha : a ≤ s.gcyc)
    (hu : s.here.used = [n]) (hk : s.here.nKind n = 1) : let y := (s.here.mailed mb).begun n
    exec .launchDelivery s = .next (s.setTile s.curT
      (if s.here.nPred n = 0 then y.upRt n fun r => { r with st := .ready, ready := s.tcyc s.curT } else y)) := by
  intro y
  obtain ⟨m, mailed⟩ := s.here.mailed_eq mb
  have used : ((s.setTile s.curT (s.here.mailed mb)).tile s.curT).used = [n] := by rw [State.tile_setTile, mailed]; exact hu
  have pred : (s.here.mailed mb).nPred n = s.here.nPred n := by rw [mailed]; rfl
  obtain ⟨kept, lag, -, -⟩ := (s.here.mailed mb).begun_frame n
  have kind : ((s.setTile s.curT y).tile s.curT).nKind n = 1 := by
    rw [State.tile_setTile, kept, mailed]
    exact hk
  have now : (s.setTile s.curT y).tcyc s.curT = s.tcyc s.curT := by
    rw [State.tcyc, State.tile_setTile, State.setTile_gcyc, lag, mailed]
    rfl
  rw [exec_launchDelivery_due hq ha, if_pos rfl, startRun_single used, State.tile_setTile, pred, setTile_setTile]
  split
  · rw [actNode_compute kind, State.tile_setTile, setTile_setTile, now]
  · rfl
theorem exec_launchDelivery_early {s : State} {a no : Nat} {b : Bool} {mb : BitVec 256} (hq : s.here.launchQ = [(a, b, no, mb)]) (ha : s.gcyc < a) :
    exec .launchDelivery s = .next (s.setTile s.curT s.here) := by
  show execLaunchDelivery s = _
  simp only [execLaunchDelivery, hq, List.filter_cons, List.filter_nil, decide_eq_true ha, decide_eq_false (Nat.not_le.2 ha), if_true, Bool.false_eq_true, if_false,
    List.foldl_nil, State.upHere_eq]
  rw [← hq]

/-! ### The states of a node (R305, R306) -/

theorem nodeIdle_iff {x : Tile} {n : Nat} : x.nodeIdle n = true ↔ ∀ c ∈ coresOf (x.nMask n), (x.core c).mode = .idle ∨ (x.core c).node ≠ n := by
  simp only [Tile.nodeIdle, List.all_eq_true, Bool.or_eq_true, beq_iff_eq, bne_iff_ne]

/-- The core that has become idle. -/
def Core.idled (c : Core) : Core := { c with mode := .idle, killed := none }
/-- Its tile: its node keeps the kill and whether a replay could repeat its task. -/
def Tile.idled (x : Tile) (c : Nat) : Tile :=
  (x.setCore c (x.core c).idled).upRt (x.core c).node fun r =>
    { r with kills := r.kills ++ ((x.core c).killed.map fun k => (c, k)).toList, sideEff := r.sideEff || (x.core c).sideEff }
theorem Tile.idled_core (x : Tile) (c : Nat) : (x.idled c).core c = (x.core c).idled := sget_sset_self _ _ _ _
theorem Tile.idled_kills (x : Tile) (c : Nat) : ((x.idled c).rt (x.core c).node).kills =
    (x.rt (x.core c).node).kills ++ ((x.core c).killed.map fun k => (c, k)).toList := congrArg NodeRt.kills (sget_sset_self _ _ _ _)
theorem exec_coreIdle (s : State) : exec .coreIdle s = .next (s.setTile s.curT
    (if s.core.mode = .draining ∧ s.here.npw s.curC s.core.tsk = 0 ∧ (s.core.killed = none ∨ s.core.quiet = true) then s.here.idled s.curC else s.here)) := by
  have goesIdle : (s.core.mode == .draining && decide (s.here.npw s.curC s.core.tsk = 0) && (s.core.killed.isNone || s.core.quiet)) = true ↔
      s.core.mode = .draining ∧ s.here.npw s.curC s.core.tsk = 0 ∧ (s.core.killed = none ∨ s.core.quiet = true) := by
    simp only [Bool.and_eq_true, beq_iff_eq, decide_eq_true_eq, Bool.or_eq_true, Option.isNone_iff_eq_none, and_assoc]
  show execCoreIdle s = _
  exact congrArg (fun x => Host.Outcome.next (s.setTile s.curT x)) (if_congr goesIdle rfl rfl)

theorem Tile.done_leaves (x : Tile) (tc n : Nat) (l : List Nat) :
    ((x.done tc n l).rt n).st = .done ∧ (x.done tc n l).comp = x.comp ++ l.map fun i => (tc + 1, 0, i) :=
  ⟨congrArg NodeRt.st (Tile.rt_upRt x n fun r => { r with st := .done }), rfl⟩
theorem exec_nodeComplete_single {s : State} {n : Nat} (hu : s.here.used = [n]) (hr : s.here.running = true) (hk : s.here.nKind n = 1)
    (hs : (s.here.rt n).st = .running) (ho : (s.here.rt n).restoring = none) (hl : (s.here.rt n).lost = false) :
    exec .nodeComplete s = .next (s.upHere fun x => if s.here.nodeIdle n && (s.here.rt n).kills.isEmpty then x.done (s.tcyc s.curT) n (x.succs n) else x) := by
  show execNodeComplete s = _
  have goesIdle : s.here.nodesOver = if s.here.nodeIdle n then [n] else [] := by
    simp [Tile.nodesOver, hr, hu, hk, hs, ho, hl, List.filter_cons]
  simp only [execNodeComplete, State.upHere_eq, goesIdle]
  cases s.here.nodeIdle n
  · rfl
  · simp [Tile.nodeKilled]

theorem exec_triggerFire_single {s : State} {n : Nat} (hu : s.here.used = [n]) (hr : s.here.running = true) (hs : (s.here.rt n).st = .armed) :
    exec .triggerFire s = .next (s.upHere fun x => if s.here.triggered n then x.done (s.tcyc s.curT) n (x.succs n) else x) := by
  show execTriggerFire s = _
  simp only [execTriggerFire, State.upHere_eq, hr, hu, hs, List.filter_cons, List.filter_nil, beq_self_eq_true, Bool.true_and, if_true]
  cases s.here.triggered n
  · rfl
  · rfl

/-- The tile once what was due has gone. -/
def Tile.noDecrements (x : Tile) : Tile := { x with comp := [] }
/-- One decrement is due: the count of its node falls, and a node that waits acts at zero. -/
theorem decrement_single {s : State} {t n a : Nat} (hr : (s.tile t).running = true) (hn : n < 256) (hc : (s.tile t).comp = [(a, 0, n)])
    (ha : a ≤ s.tcyc t) (h1 : 1 ≤ ((s.tile t).rt n).count) :
    let v := s.setTile t ((s.tile t).noDecrements.upRt n fun r => { r with count := r.count - 1 })
    s.decrement t = if ((s.tile t).rt n).count = 1 ∧ ((s.tile t).rt n).st = .wait then v.actNode t n else v := by
  intro v
  have due : decide (a ≤ s.tcyc t) = true := decide_eq_true ha
  have kept : decide (s.tcyc t < a) = false := decide_eq_false (Nat.not_lt.2 ha)
  unfold State.decrement
  simp only [hc, List.filter_cons, List.filter_nil, due, kept, if_true, Bool.false_eq_true, if_false, State.upT_eq, Nat.reduceBEq, List.map_cons, List.map_nil,
    List.flatMap_nil, List.append_nil, List.foldl_nil, List.contains_nil]
  change List.foldl _ (s.setTile t (s.tile t).noDecrements) _ = _
  refine (foldl_of_one (n := n) (nodup_upto 0 256) (mem_upto_zero.2 hn) (fun u m hm => ?_) _).trans ?_
  · simp [Ne.symm hm]
  · have run : (s.tile t).noDecrements.running = true := hr
    have count : (s.tile t).noDecrements.rt n = (s.tile t).rt n := rfl
    have enough : ¬((s.tile t).rt n).count < 1 := Nat.not_lt.2 h1
    simp only [beq_self_eq_true, if_true, List.length_cons, List.length_nil, Nat.zero_add, one_ne_zero, false_and, if_false, State.tile_setTile, setTile_setTile,
      run, count, enough, Bool.not_true, Bool.false_eq_true, Tile.rt_upRt]
    rfl

theorem exec_successorDecrement_running {s : State} (hr : s.here.running = true) : exec .successorDecrement s = .next (s.decrement s.curT) :=
  congrArg Host.Outcome.next (if_pos hr)

/-! ### Dispatch (R307, R308) -/

/-- While a node runs, the run is not over. -/
theorem checkEnd_busy {s : State} {t n : Nat} (hu : n ∈ (s.tile t).used) (hs : ((s.tile t).rt n).st = .running) : s.checkEnd t = s := by
  refine if_pos ?_
  rw [Bool.or_eq_true]
  exact .inr (List.any_eq_true.2 ⟨n, hu, by rw [hs]⟩)

/-- The budget of a compute node in task cycles (R304). -/
def Tile.budgetOf (x : Tile) (n : Nat) : Option Nat := if (x.node n 3).toNat = 0xFFFFFFFF then none else some (x.node n 3).toNat
/-- The node runs. -/
def Tile.runsNode (x : Tile) (n : Nat) : Tile := x.upRt n fun r => { r with st := .running, kills := [], sideEff := false }
/-- Each core finds the node's first bundle in the table as the dispatch finds it. -/
theorem foldl_start_eq {x : Tile} (n : Nat) (b : Option Nat) (l : List Nat) {y : Tile} (h : y.nodes = x.nodes) :
    l.foldl (fun z c => z.upC c fun k => k.start n (z.nf n 2 0 24) b) y = l.foldl (fun z c => z.upC c fun k => k.start n (x.nf n 2 0 24) b) y := by
  induction l generalizing y with
  | nil => rfl
  | cons c r ih =>
    have first : y.nf n 2 0 24 = x.nf n 2 0 24 := by rw [Tile.nf, Tile.node, h]; rfl
    rw [List.foldl_cons, List.foldl_cons, first]
    exact ih h
theorem dispatch_fresh {x : Tile} {n : Nat} (hv : (x.rt n).saved = none) : x.dispatch n =
    (coresOf (x.nMask n)).foldl (fun z c => z.upC c fun y => y.start n (x.nf n 2 0 24) (x.budgetOf n)) (x.runsNode n) := by
  rw [Tile.dispatch, hv]
  exact foldl_start_eq n (x.budgetOf n) _ rfl
theorem dispatch_eq {x : Tile} {n : Nat} (hv : (x.rt n).saved = none) : ∃ m, x.dispatch n = (x.runsNode n).withCores m := by
  rw [dispatch_fresh hv]
  exact foldl_upC_eq _ _ _
theorem core_dispatch {x : Tile} {n c : Nat} (hv : (x.rt n).saved = none) (hc : c ∈ coresOf (x.nMask n)) :
    (x.dispatch n).core c = (x.core c).start n (x.nf n 2 0 24) (x.budgetOf n) := by
  rw [dispatch_fresh hv, core_foldl_upC _ (nodup_coresOf _), if_pos hc]
  rfl
theorem exec_taskDispatch_single {s : State} {n : Nat} (hu : s.here.used = [n]) (hr : s.here.running = true) (hk : s.here.nKind n = 1)
    (hs : (s.here.rt n).st = .ready) (hv : (s.here.rt n).saved = none) (hi : ∀ c ∈ coresOf (s.here.nMask n), (s.here.core c).mode = .idle) :
    exec .taskDispatch s = .next (s.upHere fun x => x.dispatch n) := by
  show execTaskDispatch s = _
  have order : s.here.readyOrder = [n] := by
    simp [Tile.readyOrder, hu, hk, hs, orderBy, insertBy]
  have free : ((coresOf (s.here.nMask n)).all fun c => (s.here.core c).mode == .idle && !Nat.testBit 0 c) = true := by
    simpa using hi
  have all : s.here.dispatchAll 0 [n] = s.here.dispatch n := by
    simp only [Tile.dispatchAll, free, hv, Option.isNone_none, Bool.true_or, Bool.and_self, if_true]
  obtain ⟨m, dispatched⟩ := dispatch_eq hv
  have runs : ((s.here.dispatch n).rt n).st = .running := by
    rw [dispatched]
    show ((s.here.runsNode n).rt n).st = _
    rw [Tile.runsNode, Tile.rt_upRt]
  have used : (s.here.dispatch n).used = [n] := by rw [dispatched]; exact hu
  have started : (((s.here.dispatch n).rt n).st == .ready) = false := by rw [runs]; rfl
  simp only [execTaskDispatch, State.upHere_eq, hr, if_true, order, all, started, Bool.false_eq_true, if_false]
  refine congrArg Host.Outcome.next (checkEnd_busy (n := n) ?_ ?_)
  · rw [State.setTile_curT, State.tile_setTile, used]; exact List.mem_singleton_self n
  · rw [State.setTile_curT, State.tile_setTile, runs]

/-! ### Barriers (R332, R333) -/

theorem allAt_iff {x : Tile} {l : List Nat} {b : Nat} : x.allAt l b = true ↔ ∀ c ∈ l, (x.core c).bar b = 1 := by simp [Tile.allAt]
theorem Core.bar_setBar (c : Core) (b v : Nat) : (c.setBar b v).bar b = v := sget_sset_self _ _ _ _
theorem bar_releaseBar {x : Tile} {l : List Nat} (hl : l.Nodup) (b : Nat) {c : Nat} (hc : c ∈ l) : ((x.releaseBar l b).core c).bar b = 2 := by
  rw [Tile.releaseBar, core_foldl_upC _ hl, if_pos hc, Core.bar_setBar]
theorem exec_barrierRelease_single {s : State} {b : Nat} {w : Word} (hb : s.here.barE = [(b, w)]) (hv : w.getLsbD 31 = true) (hg : w.getLsbD 30 = false)
    (hc : barCores w ≠ []) :
    exec .barrierRelease s = .next (s.upHere fun x => if s.here.allAt (barCores w) (b % 64) then x.releaseBar (barCores w) (b % 64) else x) := by
  have cores : (barCores w).isEmpty = false := List.isEmpty_eq_false_iff.2 hc
  show execBarrierRelease s = _
  simp only [execBarrierRelease, State.upHere_eq, hb, List.filter_cons, List.filter_nil, hv, hg, cores, Bool.not_false, Bool.and_self, Bool.true_and]
  cases s.here.allAt (barCores w) (b % 64)
  · rfl
  · rfl

/-- Outside a replay an effect from outside takes place at once (R406). -/
theorem Tile.reached_now {x : Tile} (h : x.replayTo = none) (tc : Nat) (e : Outside) (f : Tile → Tile) :
    x.reached tc e f = f { x with outside := x.outside ++ [(tc, e)] } := by
  rw [Tile.reached, h]
  rfl
/-- Where no barrier of this wafer has its last arrival now, the one release under way takes place once it is due and its tile does not stand. -/
theorem exec_gangBarrierRelease_single {s : State} {r : Nat × Nat × Nat × Nat} (ha : s.curArg = 0) (hb : ∀ e ∈ s.tiles, e.2.barE = []) (hr : s.gangRel = [r]) :
    exec .gangBarrierRelease s = .next (if r.1 ≤ s.gcyc ∧ s.frozen r.2.1 = false then
      ({ s with gangRel := [] } : State).upT r.2.1 fun x => x.reached (s.nextCyc r.2.1) (.release (coresOf r.2.2.2) r.2.2.1) fun x => x.releaseBar (coresOf r.2.2.2) r.2.2.1
      else s) := by
  have none : s.tiles.foldl (fun s e => e.2.barE.foldl (fun s w => { s with gangRel := s.gangRel ++ s.gangDone e.1 w }) s) s = s :=
    foldl_of_fixed _ fun e he => by rw [hb e he, List.foldl_nil]
  show execGangBarrierRelease s = _
  unfold execGangBarrierRelease
  rw [if_neg (not_not.2 ha)]
  obtain ⟨g, u, b, m⟩ := r
  simp only [none, hr, List.filter_cons, List.filter_nil]
  by_cases h : g ≤ s.gcyc ∧ s.frozen u = false
  · simp only [h, and_self, decide_true, Bool.not_false, if_true]
    rfl
  · have later : (decide (g ≤ s.gcyc) && !s.frozen u) = false := by simpa using h
    simp only [later, h, Bool.false_eq_true, if_false, Bool.not_false, if_true, List.foldl_nil]
    rw [← hr]

/-! ### The statement -/

/-- Settles O48: each event by what it leaves of the tile whose turn it is. -/
theorem walkerEvents : Obligations.WalkerEvents := by
  unfold Obligations.WalkerEvents
  intro s n at' no b l mb w g u m x tc rt cs only mailed after
  have used {k : Nat} (h : only k) (h1 : 1 ≤ k) (h5 : k ≤ 5) : x.used = [n] := used_single h.1 (h.2.1.symm ▸ h1) (h.2.1.symm ▸ h5)
  refine ⟨fun hq ha => ?argued, fun hq ha hn hk => ?started, fun hq ha => ?early, fun hm hk => ?idle, fun k hm hk hp => ?killed, fun h hs ho hl => ?complete,
    fun hr hn hc ha h2 => ?falls, fun hr hn hc ha h1 hs hk => ?ready, fun h hs => ?trigger, fun h hs hv hi => ?dispatch, fun hb hv hg hc => ?barrier,
    fun ha hb hr => ?gang⟩
  case argued =>
    obtain ⟨launchQ, lcnt, nrt, -⟩ := x.mailed_frame mb
    refine does_here (exec_launchDelivery_due hq ha) fun t ht _ => ?_
    rw [ht]
    refine ⟨launchQ, fun c hc i hi => ?_, ?_, nrt⟩
    · rw [ht]; exact x.mailed_core mb hc hi
    · exact congrArg (fun n => min (n + 1) 0xFFFFFFFF) lcnt
  case started =>
    obtain ⟨none, -, -, pred⟩ := x.mailed_frame mb
    have node := (x.mailed mb).rt_begun n
    rw [pred] at node
    refine does_here (exec_launchDelivery_start hq ha (used_single hn (hk.symm ▸ Nat.le_refl 1) (hk.symm ▸ by decide)) hk) fun t ht _ => ?_
    have mail (h : t.here.cores = (x.mailed mb).cores) : mailed t := fun c hc i hi => by
      rw [Tile.core, h]
      exact x.mailed_core mb hc hi
    by_cases h0 : x.nPred n = 0
    · rw [if_pos h0] at ht
      have node : t.here.rt n = { st := .ready, count := x.nPred n, ready := tc } := by rw [ht, Tile.rt_upRt, node]
      rw [node]
      refine ⟨?_, mail (by rw [ht]; rfl), ?_, ?_, rfl, fun _ => ⟨rfl, rfl⟩, fun h => absurd h0 h⟩
      · rw [ht]; exact none
      · rw [ht]; rfl
      · rw [ht]; rfl
    · rw [if_neg h0] at ht
      rw [ht, node]
      exact ⟨none, mail (by rw [ht]; rfl), rfl, rfl, rfl, fun h => absurd h h0, fun _ => rfl⟩
  case early => exact does_here (exec_launchDelivery_early hq ha) fun t ht _ => ht
  case idle =>
    refine does_here (exec_coreIdle s) fun t ht hc => ⟨fun hp => ?_, fun hp => ?_⟩
    · rw [hc, if_pos ⟨hm, hp, .inl hk⟩, Tile.idled_core]
      exact congrArg (fun k => ({ s.core with mode := .idle, killed := k } : Core)) hk.symm
    · rw [hc, if_neg fun h => hp h.2.1]
      exact hm
  case killed =>
    refine does_here (exec_coreIdle s) fun t ht hc => ⟨fun hq => ?_, fun hq => ?_⟩
    · rw [if_pos ⟨hm, hp, .inr hq⟩] at hc ht
      refine ⟨hc.trans (Tile.idled_core _ _), ?_⟩
      rw [ht]
      refine (Tile.idled_kills _ _).trans ?_
      rw [show (s.here.core s.curC).killed = some k from hk]
      rfl
    · rw [hc, if_neg (by simp [hk, hq])]
      exact hm
  case complete =>
    refine does_upHere (exec_nodeComplete_single (used h (Nat.le_refl 1) (by decide)) h.2.2 h.2.1 hs ho hl) fun t ht => ⟨fun hi hr => ?_, fun ⟨c, hc, hb⟩ => ?_⟩
    · rw [if_pos (by rw [nodeIdle_iff.2 hi, show (s.here.rt n).kills = [] from hr]; rfl)] at ht
      obtain ⟨done, comp⟩ := x.done_leaves tc n (x.succs n)
      exact ⟨by rw [ht]; exact done, (congrArg Tile.comp ht).trans comp⟩
    · have stays : s.here.nodeIdle n = false := Bool.eq_false_iff.2 fun h => (nodeIdle_iff.1 h c hc).elim hb.1 fun k => k hb.2
      rw [ht, stays]
      rfl
  case falls =>
    refine does_here ((exec_successorDecrement_running hr).trans (congrArg _ ((decrement_single hr hn hc ha (Nat.le_of_succ_le h2)).trans
      (if_neg fun h => Nat.ne_of_gt h2 h.1)))) fun t ht _ => ?_
    rw [ht]
    exact ⟨rfl, Tile.rt_upRt _ _ _⟩
  case ready =>
    refine does_here ((exec_successorDecrement_running hr).trans (congrArg _ ((decrement_single hr hn hc ha (Nat.le_of_eq h1.symm)).trans
      ((if_pos ⟨h1, hs⟩).trans ((actNode_compute (by rw [State.tile_setTile]; exact hk)).trans (setTile_setTile _ _ _ _)))))) fun t ht _ => ?_
    rw [State.tcyc, State.tile_setTile] at ht
    rw [ht]
    refine ⟨rfl, ?_⟩
    rw [Tile.rt_upRt, Tile.rt_upRt]
    show ({ rt with count := rt.count - 1, st := .ready, ready := tc } : NodeRt) = _
    rw [h1]
  case trigger =>
    refine does_upHere (exec_triggerFire_single (used h (by decide) (by decide)) h.2.2 hs) fun t ht => ⟨fun hf => ?_, fun hf => ?_⟩
    · rw [show s.here.triggered n = true from hf] at ht
      obtain ⟨done, comp⟩ := x.done_leaves tc n (x.succs n)
      exact ⟨by rw [ht]; exact done, (congrArg Tile.comp ht).trans comp⟩
    · rw [show s.here.triggered n = false from hf] at ht
      exact ht
  case dispatch =>
    refine does_upHere (exec_taskDispatch_single (used h (Nat.le_refl 1) (by decide)) h.2.2 h.2.1 hs hv hi) fun t ht => ?_
    obtain ⟨m, eq⟩ := dispatch_eq hv
    rw [ht]
    refine ⟨?_, fun c hc => ?_⟩
    · rw [eq]
      exact congrArg NodeRt.st (Tile.rt_upRt x n fun r => { r with st := .running, kills := [], sideEff := false })
    · intro y
      have start : y = (x.core c).start n (x.nf n 2 0 24) (x.budgetOf n) := core_dispatch hv hc
      rw [start]
      exact ⟨rfl, rfl, rfl, rfl, rfl, rfl, rfl, rfl, rfl, rfl, rfl, rfl⟩
  case barrier =>
    refine does_upHere (exec_barrierRelease_single hb hv hg hc) fun t ht => ⟨fun hall c hm => ?_, fun ⟨c, hm, hn⟩ => ?_⟩
    · rw [ht, if_pos (allAt_iff.2 hall)]
      exact bar_releaseBar (nodup_coresOf _) _ hm
    · rw [ht, if_neg fun h => hn (allAt_iff.1 h c hm)]
  case gang =>
    refine ⟨_, exec_gangBarrierRelease_single ha hb hr, fun hd hf hp => ?_, fun hd => ?_⟩
    · have free : s.frozen u = false := by rw [State.frozen, hf]; rfl
      rw [if_pos ⟨hd, free⟩]
      refine ⟨rfl, fun c hc => ?_⟩
      rw [State.upT_eq, State.coreAt, State.tile_setTile, Tile.reached_now (by exact hp)]
      exact bar_releaseBar (nodup_coresOf m) b hc
    · rw [if_neg fun h => Nat.not_le.2 hd h.1]
      exact ⟨rfl, rfl⟩

end Sys2Proof.Machine

/-! PROOFS. The events of a task: what taking a cause leaves of it, the cause that a landed entry raises, pre-emption requests, and the replay of a
killed node (R99, R315, R342, R343, R354, R355, R381, R420). -/
namespace Sys2Proof.Machine

/-! ### What a cause that is taken leaves of a task (R337, R343) -/

/-- What no test of a loop and no trap touches. -/
def Core.works (c : Core) : Bank × List Pend × Word × SMap VRow × List (Nat × Info) × List (Nat × Info) :=
  (c.task, c.pend, c.aflags, c.v, c.lcause, c.deferred)
theorem Core.works_eq_iff {c y : Core} : y.works = c.works ↔
    y.task = c.task ∧ y.pend = c.pend ∧ y.aflags = c.aflags ∧ y.v = c.v ∧ y.lcause = c.lcause ∧ y.deferred = c.deferred := by
  simp only [Core.works, Prod.mk.injEq]

theorem Core.works_iterEnd (c : Core) (a k : Nat) : (c.iterEnd a k).works = c.works := by
  induction k generalizing c with
  | zero => rfl
  | succ k ih =>
    unfold Core.iterEnd
    split
    · rfl
    · split
      · rfl
      · split
        · rfl
        · split
          · rfl
          · exact ih _
theorem Core.works_testLoop (c : Core) (k : Nat) : (c.testLoop k).1.works = c.works := by
  induction k generalizing c with
  | zero => rfl
  | succ k ih =>
    unfold Core.testLoop
    split
    · split
      · dsimp only
        split
        · rfl
        · split
          · refine (ih _).trans ?_
            exact Core.works_iterEnd _ _ _
          · split
            · rfl
            · rfl
      · rfl
    · rfl
theorem Core.works_tested (c : Core) : c.tested.works = c.works := by
  unfold Core.tested
  split
  · rfl
  · have test := c.works_testLoop 7
    split
    · rename_i h; rw [h] at test; exact test
    · rfl
theorem works_prime (x : Tile) (c : Nat) : ((x.prime c).core c).works = (x.core c).works := by
  unfold Tile.prime
  dsimp only
  split
  · rfl
  · split
    · rfl
    · split
      · rw [Tile.upC_eq, Tile.core_setCore]; rfl
      · rfl
theorem Core.works_withLease (c : Core) (n : Nat) : (c.withLease n).works = c.works := rfl
theorem works_enter (c : Core) (tc : Nat) (i : Info) : (c.enter tc i).works = c.works := by
  unfold Core.enter
  cases i.tok <;> rfl

/-- The tile with these freezes. -/
def Tile.withFrz (x : Tile) (f : List (Frz × Option Nat)) : Tile := { x with frz := f }
theorem Tile.core_withFrz (x : Tile) (f : List (Frz × Option Nat)) (c : Nat) : (x.withFrz f).core c = x.core c := rfl
theorem Tile.withFrz_frz (x : Tile) : x.withFrz x.frz = x := rfl
/-- The tile whose core c has the test of a loop.w read, with its issue counted. -/
def Tile.atTrap (x : Tile) (c : Nat) : Tile := ((x.upC c Core.tested).prime c).uncount c
/-- The cause is taken at the trap point of the core; a breakpoint freezes the tile. -/
theorem takeCause_eq (s : State) (t c : Nat) (i : Info) : s.takeCause t c i = s.upT t fun x =>
    let y := (x.atTrap c).upC c fun y => y.enter (s.tcyc t) i
    y.withFrz (if i.cause = cBkpt then y.frz ++ [(.debug, none)] else y.frz) := by
  unfold State.takeCause
  by_cases h : i.cause = cBkpt
  · simp only [h, if_true]; rfl
  · simp only [h, if_false, Tile.withFrz_frz]; rfl
theorem works_atTrap (x : Tile) (c : Nat) : ((x.atTrap c).core c).works = (x.core c).works := by
  obtain ⟨n, hn⟩ := ((x.upC c Core.tested).prime c).core_uncount c
  rw [Tile.atTrap, hn, Core.works_withLease, works_prime, Tile.upC_eq, Tile.core_setCore, Core.works_tested]

/-- The core that takes a cause: it enters the monitor from a core with the same work. -/
theorem coreAt_takeCause (s : State) (t c : Nat) (i : Info) :
    ∃ y : Core, y.works = (s.coreAt t c).works ∧ (s.takeCause t c i).coreAt t c = y.enter (s.tcyc t) i := by
  refine ⟨_, works_atTrap (s.tile t) c, ?_⟩
  rw [takeCause_eq, State.upT_eq, State.coreAt, State.tile_setTile, Tile.core_withFrz, Tile.upC_eq, Tile.core_setCore]

theorem core_takeCause (s : State) (i : Info) :
    ∃ y : Core, y.works = s.core.works ∧ (s.takeCause s.curT s.curC i).core = y.enter (s.tcyc s.curT) i := coreAt_takeCause s s.curT s.curC i
/-- The monitor begins at 0xFF8000 with the cause, and the task's work stands. -/
theorem enter_leaves (y : Core) (tc : Nat) (i : Info) : let z := y.enter tc i
    z.mode = .monitor ∧ z.pc = 0xFF8000 ∧ (z.tcause.extractLsb' 24 8).toNat = i.cause % 256 ∧ z.tcause.extractLsb' 11 6 = i.flg ∧ z.works = y.works := by
  obtain ⟨-, tcause, -, -, -⟩ := y.enter_saves tc i
  obtain ⟨cause, -, -, -, flg, -⟩ := i.word_fields y.repRem
  exact ⟨rfl, rfl, by rw [tcause]; exact cause, by rw [tcause]; exact flg, works_enter _ _ _⟩

/-! ### The deadline (R315) -/

theorem exec_deadlineFault_task {s : State} {b : Nat} (hm : s.core.mode = .task) (hb : s.core.budget = some b) : exec .deadlineFault s =
    .next (if b ≤ s.core.tsk then s.takeCause s.curT s.curC { cause := cDeadline, i0 := BitVec.ofNat 32 b } else s) := by
  show execDeadlineFault s = _
  simp only [execDeadlineFault, hm, hb]

/-! ### L causes (R99, R342, R343) -/

/-- A task's turn at its trap point: the monitor does nothing. -/
theorem exec_trapEntry_task {s : State} (hm : s.core.mode = .task) : exec .trapEntry s = .next (s.takeL s.curT s.curC) := by
  have mode : (s.coreAt s.curT s.curC).mode = .task := hm
  have task : (s.coreAt s.curT s.curC).inMon = false := inMon_of_task hm
  have waits : s.monitor s.curT s.curC = s := by simp [State.monitor, mode]
  show execTrapEntry s = _
  simp only [execTrapEntry, waits, State.landAgain, task, Bool.false_and, Bool.false_eq_true, if_false]
theorem lCauses_single {c : Core} {e : Nat × Info} (hl : c.lcause = [e]) (hd : c.deferred = []) : c.lCauses = [e] := by
  simp [Core.lCauses, hl, hd, orderBy, insertBy]
theorem lCauses_nil {c : Core} (hl : c.lcause = []) (hd : c.deferred = []) : c.lCauses = [] := by
  simp [Core.lCauses, hl, hd, orderBy]
theorem takeL_none {s : State} {t c : Nat} (h : (s.coreAt t c).lCauses = []) : s.takeL t c = s := by
  unfold State.takeL
  simp only [h]
  split
  · rename_i h; exact absurd h (List.cons_ne_nil _ _).symm
  · rfl
/-- The task once the only cause that has landed is taken. -/
def State.deferred (s : State) (t c : Nat) (e : Nat × Info) : State :=
  let u := s.upCoreAt t c fun y => y.defer (Config.trappedEntry s.free) e []
  if e.2.cause = cArith then u.draw else u
theorem takeL_single {s : State} {t c : Nat} {e : Nat × Info} (hm : (s.coreAt t c).mode = .task) (h : (s.coreAt t c).lCauses = [e]) :
    s.takeL t c = (s.deferred t c e).takeCause t c e.2 := by
  unfold State.takeL
  simp only [hm, h]
  rfl
theorem coreAt_deferred (s : State) (t c : Nat) (e : Nat × Info) : (s.deferred t c e).coreAt t c = (s.coreAt t c).defer (Config.trappedEntry s.free) e [] := by
  unfold State.deferred
  dsimp only
  split
  · exact State.coreAt_setTile _ _ _ _ _
  · exact State.coreAt_setTile _ _ _ _ _

/-- A task with one cause enters the monitor from a core that has the cause behind it. -/
theorem trapEntry_takes {s : State} {e : Nat × Info} (hm : s.core.mode = .task) (hl : s.core.lcause = [e]) (hd : s.core.deferred = []) :
    ∃ (u : State) (y : Core) (tc : Nat), exec .trapEntry s = .next u ∧ u.core = y.enter tc e.2 ∧ y.works = (s.core.defer (Config.trappedEntry s.free) e []).works := by
  obtain ⟨y, works, enters⟩ := coreAt_takeCause (s.deferred s.curT s.curC e) s.curT s.curC e.2
  have at' : (s.deferred s.curT s.curC e).curT = s.curT ∧ (s.deferred s.curT s.curC e).curC = s.curC := by
    by_cases h : e.2.cause = cArith
    · rw [State.deferred, if_pos h]; exact ⟨rfl, rfl⟩
    · rw [State.deferred, if_neg h]; exact ⟨rfl, rfl⟩
  have turn := (exec_trapEntry_task hm).trans (congrArg _ (takeL_single (t := s.curT) (c := s.curC) hm (lCauses_single hl hd)))
  refine ⟨_, y, (s.deferred s.curT s.curC e).tcyc s.curT, turn, ?_, works.trans (congrArg Core.works (coreAt_deferred s s.curT s.curC e))⟩
  refine Eq.trans ?_ enters
  show State.coreAt _ (s.deferred s.curT s.curC e).curT (s.deferred s.curT s.curC e).curC = _
  rw [at'.1, at'.2]

/-- A core that has no cause left. -/
def Core.uncaused (c : Core) : Core := { c with lcause := [], deferred := [] }
theorem defer_other {c : Core} {v : Bits256} {e : Nat × Info} (h : e.2.cause ≠ cArith) : c.defer v e [] = c.uncaused := by
  simp [Core.defer, h, Core.uncaused]
/-- The trapped entry is gone; its queue entry lands with a free value. -/
theorem defer_arith {c : Core} {v : Bits256} {e : Nat × Info} {p : Pend} (h : e.2.cause = cArith) (hp : c.pend = [p]) (ht : p.traps = true) (hm : p.mon = false)
    (ha : p.at' ≤ c.tsk) (he : e.1 = 8 * p.id + p.slot) : c.defer v e [] = (p.effs.foldl (fun y f => y.landTrapped v f) c.taken).uncaused := by
  have taken : (p.traps && !p.mon && 8 * p.id + p.slot == e.1 && decide (p.at' ≤ c.tsk)) = true := by simp [ht, hm, he, ha]
  simp only [Core.defer, h, if_true, hp, List.filter_cons, List.filter_nil, taken, Bool.not_true, Bool.false_eq_true, if_false, List.flatMap_cons, List.flatMap_nil,
    List.append_nil]
  rfl

theorem Core.landTrapped_frame (c : Core) (v : Bits256) (f : Eff) :
    let y := c.landTrapped v f
    (y.pend, y.aflags, y.v) = (c.pend, c.aflags, c.v) := by
  unfold Core.landTrapped
  split
  · rfl
  · rfl
theorem landTrapped_sdq (c : Core) (v row : Bits256) (d : Nat) (k : BitVec 64) : (c.landTrapped v (.sdq d row k)).task = { c.task with
    sdq := c.task.sdq.map fun q => if q.seq = d then { q with landed := true, val := if q.vec then v else (v.setWidth 32).setWidth 2048, poi := 0#64 } else q } := rfl

/-! ### Pre-emption requests (R354, R355) -/

/-- The node's last request is forgotten. -/
def Tile.unasked (x : Tile) (n : Nat) : Tile := x.upRt n fun r => { r with asked := none }
theorem Tile.unasked_frame (x : Tile) (n : Nat) : (x.unasked n).cores = x.cores ∧ (x.unasked n).nMask n = x.nMask n := ⟨rfl, rfl⟩
theorem Tile.unasked_kills (x : Tile) (n : Nat) : ((x.unasked n).rt n).kills = (x.rt n).kills := by rw [Tile.unasked, Tile.rt_upRt]
def Core.asked (y : Core) (host : Bool) : Core := { y with preReq := some ⟨host, y.tsk⟩ }
/-- Nothing holds a request of node n off: none is pending, and no kill has ended part of the task. -/
def Tile.askable (x : Tile) (n : Nat) : Bool := ((coresOf (x.nMask n)).all fun d => (x.core d).preReq.isNone && (x.core d).killed.isNone) && (x.rt n).kills.isEmpty
theorem askable_iff {x : Tile} {n : Nat} : x.askable n = true ↔ (∀ d ∈ coresOf (x.nMask n), (x.core d).preReq = none ∧ (x.core d).killed = none) ∧ (x.rt n).kills = [] := by
  simp [Tile.askable]
theorem request_task {x : Tile} {n : Nat} (h : ∀ d ∈ coresOf (x.nMask n), (x.core d).node = n ∧ (x.core d).mode = .task) :
    x.request n true = if x.askable n then (coresOf (x.nMask n)).foldl (fun x c => x.upC c fun y => y.asked true) (x.unasked n) else x.unasked n := by
  have all : ((coresOf (x.nMask n)).filter fun c => (x.core c).node == n && ((x.core c).mode == .task || (x.core c).mode == .monitor)) = coresOf (x.nMask n) :=
    List.filter_eq_self.2 fun d hd => by
      obtain ⟨node, mode⟩ := h d hd
      simp [node, mode]
  have held : ((coresOf (x.nMask n)).any (fun c => (x.core c).preReq.isSome) || (coresOf (x.nMask n)).any (fun c => (x.core c).node == n && (x.core c).killed.isSome)
      || !((x.unasked n).rt n).kills.isEmpty) = false ↔ x.askable n = true := by
    simp only [Tile.unasked_kills, askable_iff, Bool.or_eq_false_iff, List.any_eq_false, Bool.and_eq_true, beq_iff_eq, not_and, Bool.not_eq_eq_eq_not, Bool.not_false,
      List.isEmpty_iff, Option.not_isSome_iff_eq_none]
    constructor
    · rintro ⟨⟨pre, killed⟩, kills⟩
      exact ⟨fun d hd => ⟨pre d hd, killed d hd (h d hd).1⟩, kills⟩
    · rintro ⟨free, kills⟩
      exact ⟨⟨fun d hd => (free d hd).1, fun d hd _ => (free d hd).2⟩, kills⟩
  unfold Tile.request
  rw [if_pos rfl]
  show (let cs := (coresOf (x.nMask n)).filter fun c => (x.core c).node == n && ((x.core c).mode == .task || (x.core c).mode == .monitor)
    if cs.any (fun c => (x.core c).preReq.isSome) || (coresOf (x.nMask n)).any (fun c => (x.core c).node == n && (x.core c).killed.isSome)
      || !((x.unasked n).rt n).kills.isEmpty then x.unasked n else cs.foldl (fun x c => x.upC c fun y => y.asked true) (x.unasked n)) = _
  rw [all]
  cases free : x.askable n with
  | true => exact if_neg (Bool.eq_false_iff.1 (held.2 free))
  | false => exact if_pos (Bool.eq_true_of_not_eq_false fun e => Bool.false_ne_true (free.symm.trans (held.1 e)))

theorem request_leaves {x : Tile} {n : Nat} (h : ∀ d ∈ coresOf (x.nMask n), (x.core d).node = n ∧ (x.core d).mode = .task) :
    (x.askable n = true → ∀ d ∈ coresOf (x.nMask n), (x.request n true).core d = (x.core d).asked true) ∧ (x.askable n = false → (x.request n true).cores = x.cores) := by
  rw [request_task h]
  refine ⟨fun free d hd => ?_, fun held => ?_⟩
  · rw [if_pos free, core_foldl_upC _ (nodup_coresOf _), if_pos hd, Tile.core, (x.unasked_frame n).1, Tile.core]
  · rw [if_neg (Bool.eq_false_iff.1 held), (x.unasked_frame n).1]
def Tile.withOutside (x : Tile) (l : List (Nat × Outside)) : Tile := { x with outside := l }
theorem Tile.withOutside_frame (x : Tile) (l : List (Nat × Outside)) (n : Nat) : (x.withOutside l).askable n = x.askable n ∧ (x.withOutside l).nMask n = x.nMask n
    ∧ (x.withOutside l).core = x.core ∧ (x.withOutside l).cores = x.cores := ⟨rfl, rfl, rfl, rfl⟩
/-- Outside a replay Rotrum's request reaches every core of the node's task, or none. -/
theorem request_reaches {x : Tile} {n : Nat} (hr : x.replayTo = none) (h : ∀ d ∈ coresOf (x.nMask n), (x.core d).node = n ∧ (x.core d).mode = .task) (tc : Nat) (e : Outside) :
    let y := x.reached tc e fun x => x.request n true
    (x.askable n = true → ∀ d ∈ coresOf (x.nMask n), y.core d = (x.core d).asked true) ∧ (x.askable n = false → y.cores = x.cores) := by
  obtain ⟨askable, mask, core, cores⟩ := x.withOutside_frame (x.outside ++ [(tc, e)]) n
  have leaves := request_leaves (x := x.withOutside (x.outside ++ [(tc, e)])) (by rw [mask, core]; exact h)
  rw [askable, mask, core, cores] at leaves
  rw [Tile.reached_now hr]
  exact leaves
theorem exec_preemptRequest (s : State) :
    exec .preemptRequest s = .next (s.upHere fun x => x.reached (s.nextCyc s.curT) (.request s.curArg) fun x => x.request s.curArg true) := rfl

/-! ### The bound of a request (R355, R356) -/

/-- A core of node n goes back from its request. -/
def Core.goesBack (n : Nat) (y : Core) : Core := if y.node = n ∧ y.preReq.isSome then { y with preReq := none, recalled := y.inMon } else y
theorem Core.goesBack_preReq {n : Nat} {y : Core} (h : y.node = n) : (y.goesBack n).preReq = none := by
  unfold Core.goesBack
  split
  · rfl
  · rename_i hn
    exact Option.not_isSome_iff_eq_none.1 fun hs => hn ⟨h, hs⟩
def Tile.recalling (x : Tile) (n how : Nat) : Tile := { x with nrt := sset {} x.nrt n { sget {} x.nrt n with asked := some how } }
theorem recall_asked {x : Tile} {n c : Nat} (hc : c < 4) (hn : (x.core c).node = n) (hr : (x.core c).preReq.isSome = true) (how : Nat) {d : Nat} (hd : d < 4) :
    (x.recall n how).core d = (x.core d).goesBack n := by
  have asked : ((upto 0 4).any fun c => (x.core c).node == n && (x.core c).preReq.isSome) = true :=
    List.any_eq_true.2 ⟨c, mem_upto_zero.2 hc, by simp [hn, hr]⟩
  unfold Tile.recall
  rw [if_pos asked]
  refine (core_foldl (g := Core.goesBack n) (fun x c d => ?_) (nodup_upto 0 4) (x.recalling n how) d).trans (if_pos (mem_upto_zero.2 hd))
  by_cases h : (x.core c).node = n ∧ (x.core c).preReq.isSome
  · rw [if_pos h, core_upC]
    split
    · rename_i e; rw [e, Core.goesBack, if_pos h]
    · rfl
  · rw [if_neg h]
    split
    · rename_i e; rw [e, Core.goesBack, if_neg h]
    · rfl

theorem overran_iff {x : Tile} {c : Nat} (hm : (x.core c).mode = .task) (hp : x.nPre (x.core c).node = true) :
    x.overran c = true ↔ ∃ r, (x.core c).preReq = some r ∧ r.q + x.nRun (x.core c).node < (x.core c).tsk := by
  unfold Tile.overran
  cases hr : (x.core c).preReq with
  | none => simp [hr]
  | some r => simp [hr, hm, hp]
theorem exec_preemptOverrun (s : State) :
    exec .preemptOverrun s = .next (s.upHere fun x => if x.overran s.curC = true then x.recall (x.core s.curC).node 2 else x) := rfl

/-! ### Kills and replays (R381, R420) -/

/-- What a record to Rotrum leaves alone. -/
theorem report_frame (s : State) (code name node reason : Nat) : let u := s.report code name node reason
    (u.tiles, u.curT, u.inputs, u.aborted, u.gcyc) = (s.tiles, s.curT, s.inputs, s.aborted, s.gcyc) := by
  unfold State.report
  cases s.owner with
  | none => rfl
  | some b => cases b <;> rfl
/-- Rotrum is told of every kill of node n. -/
def State.toldOf (s : State) (t n : Nat) (l : List (Nat × Nat)) : State := l.foldl (fun s k => s.report 0x82 (s.nameOf t 0) n k.2) s
theorem State.toldOf_frame (s : State) (t n : Nat) (l : List (Nat × Nat)) : let u := s.toldOf t n l
    u.tiles = s.tiles ∧ u.curT = s.curT ∧ u.inputs = s.inputs ∧ u.aborted = s.aborted ∧ u.gcyc = s.gcyc := by
  have frame : ((s.toldOf t n l).tiles, (s.toldOf t n l).curT, (s.toldOf t n l).inputs, (s.toldOf t n l).aborted, (s.toldOf t n l).gcyc) = (s.tiles, s.curT, s.inputs, s.aborted, s.gcyc) :=
    foldl_keeps (fun u : State => (u.tiles, u.curT, u.inputs, u.aborted, u.gcyc)) (fun u (k : Nat × Nat) => report_frame u 0x82 (u.nameOf t 0) n k.2) l s
  simpa only [Prod.mk.injEq] using frame
/-- The node that is lost. -/
def NodeRt.gone (r : NodeRt) : NodeRt := { r with kills := [], lost := true }
theorem lose_eq {s : State} {n : Nat} (ha : s.aborted = false) (hl : (s.here.rt n).lost = false) :
    s.lose s.curT n = ((s.upHere fun x => x.upRt n NodeRt.gone).toldOf s.curT n (s.here.rt n).kills).escalate s.curT 0 := by
  obtain ⟨-, -, -, aborted, -⟩ := (s.upHere fun x => x.upRt n NodeRt.gone).toldOf_frame s.curT n (s.here.rt n).kills
  have open' : (((s.upHere fun x => x.upRt n NodeRt.gone).toldOf s.curT n (s.here.rt n).kills).aborted || (s.here.rt n).lost) = false := by
    rw [aborted, hl]
    exact congrArg (· || false) ha
  exact if_neg (Bool.eq_false_iff.1 open')
theorem lose_leaves {s : State} {n : Nat} (ha : s.aborted = false) (hl : (s.here.rt n).lost = false) : let u := s.lose s.curT n
    u.here.rt n = (s.here.rt n).gone ∧ u.inputs = s.inputs ++ [(s.gcyc, Turn.event s.curT 0 0 .jobRestore)] := by
  obtain ⟨tiles, curT, inputs, -, gcyc⟩ := (s.upHere fun x => x.upRt n NodeRt.gone).toldOf_frame s.curT n (s.here.rt n).kills
  rw [lose_eq ha hl]
  constructor
  · show (sget {} ((_ : State).toldOf s.curT n _).tiles ((_ : State).toldOf s.curT n _).curT).rt n = _
    rw [tiles, curT]
    exact (congrArg (fun y : Tile => y.rt n) (s.here_setTile _)).trans (Tile.rt_upRt _ _ _)
  · show ((_ : State).toldOf s.curT n _).inputs ++ [(((_ : State).toldOf s.curT n _).gcyc, _)] = _
    rw [inputs, gcyc]
    rfl
theorem nodesKilled_single {x : Tile} {n : Nat} (hu : x.used = [n]) (hk : x.nKind n = 1) (hr : x.running = true) (hs : (x.rt n).st = .running)
    (hn : (x.rt n).restoring = none) (hk' : (x.rt n).kills ≠ []) : x.nodesKilled = [n] := by
  have killed : (x.nodeKilled n).isEmpty = false := by simpa [Tile.nodeKilled] using hk'
  simp only [Tile.nodesKilled, hr, if_true, hu, List.filter_cons, List.filter_nil, hk, hs, hn, killed, BEq.rfl, Option.isNone_none, Bool.not_false, Bool.and_self]
theorem noReplay_of_mayReplay {x : Tile} {n : Nat} (h : x.mayReplay n = true) : x.noReplay n = false := by
  rw [Tile.mayReplay, Bool.and_eq_true] at h
  simpa using h.1
/-- The node starts afresh. -/
def NodeRt.afresh (r : NodeRt) (tc : Nat) : NodeRt := { r with kills := [], st := .ready, ready := tc, replayed := true, sideEff := false }
/-- A node whose only kills are of this run is lost where a replay is ruled out, and otherwise starts afresh once its cores are idle. -/
theorem exec_taskReplay_single {s : State} {n : Nat} (h : s.here.nodesKilled = [n]) (ha : s.aborted = false) (hl : (s.here.rt n).lost = false) :
    exec .taskReplay s = .next (if s.here.noReplay n = true then s.lose s.curT n else if s.here.nodeIdle n = false then s
      else if s.here.mayReplay n = true then s.upHere fun x => x.upRt n fun r => r.afresh (s.tcyc s.curT) else s.lose s.curT n) := by
  show execTaskReplay s = _
  unfold execTaskReplay
  simp only [h, List.foldl_cons, List.foldl_nil, ha, show ((s.tile s.curT).rt n).lost = false from hl, Bool.false_or, Bool.not_eq_true']
  rfl

/-! ### The statement -/

/-- Settles O49: each event by what it leaves of the task, or of the node whose task it is. -/
theorem taskEvents : Obligations.TaskEvents := by
  unfold Obligations.TaskEvents
  intro s b n e l p d v row k x c code cs ofNode
  refine ⟨fun hm hb => ?deadline, fun hm hl hd he => ?other, fun hm hl hd he hp ht hpm ha hseq => ?arith, fun hm hl hd => ?quiet, fun hn hof hr => ?request,
    fun hc hof hpre => ?overrun, fun hx hk hrun hs hrest hlost hkills ha => ?replay⟩
  case deadline =>
    refine ⟨_, exec_deadlineFault_task hm hb, fun h => ?_, fun h => if_neg (Nat.not_le.2 h)⟩
    rw [if_pos h]
    obtain ⟨y, works, enters⟩ := core_takeCause s { cause := cDeadline, i0 := BitVec.ofNat 32 b }
    obtain ⟨mode, -, cause, -, left⟩ := enter_leaves y (s.tcyc s.curT) { cause := cDeadline, i0 := BitVec.ofNat 32 b }
    obtain ⟨tinfo, -⟩ := y.enter_tinfo (s.tcyc s.curT) { cause := cDeadline, i0 := BitVec.ofNat 32 b }
    obtain ⟨task, pend, -⟩ := Core.works_eq_iff.1 (left.trans works)
    have at' (P : Core → Prop) (h : P (y.enter (s.tcyc s.curT) { cause := cDeadline, i0 := BitVec.ofNat 32 b })) :
        P (s.takeCause s.curT s.curC { cause := cDeadline, i0 := BitVec.ofNat 32 b }).core := by rw [enters]; exact h
    exact at' (fun z => z.mode = .monitor ∧ (z.tcause.extractLsb' 24 8).toNat = 0x05 ∧ sget 0#32 z.tinfo 0 = BitVec.ofNat 32 b ∧ z.task = c.task ∧ z.pend = c.pend)
      ⟨mode, cause, tinfo, task, pend⟩
  case other =>
    obtain ⟨u, y, tc, turn, enters, works⟩ := trapEntry_takes hm hl hd
    rw [defer_other he] at works
    obtain ⟨mode, pc, cause, -, left⟩ := enter_leaves y tc e.2
    obtain ⟨task, -, -, -, lcause, deferred⟩ := Core.works_eq_iff.1 (left.trans works)
    rw [← enters] at mode pc cause task lcause deferred
    exact ⟨u, turn, mode, pc, cause, lcause, deferred, task⟩
  case arith =>
    obtain ⟨u, y, tc, turn, enters, works⟩ := trapEntry_takes hm hl hd
    rw [defer_arith he hp ht hpm ha hseq] at works
    obtain ⟨mode, pc, cause, flg, left⟩ := enter_leaves y tc e.2
    obtain ⟨task, pend, aflags, rows, lcause, deferred⟩ := Core.works_eq_iff.1 (left.trans works)
    rw [← enters] at mode pc cause flg task pend aflags rows lcause deferred
    have frame := foldl_keeps (fun y : Core => (y.pend, y.aflags, y.v)) (fun y f => y.landTrapped_frame (Config.trappedEntry s.free) f) p.effs s.core.taken
    simp only [Prod.mk.injEq] at frame
    obtain ⟨pend', aflags', rows'⟩ := frame
    refine ⟨u, turn, mode, pc, cause.trans (by rw [he]), flg, lcause, deferred, pend.trans pend', aflags.trans aflags', rows.trans rows', fun hp => ?_, fun hp => ?_⟩
    · rw [hp] at task
      exact task
    · rw [hp] at task
      rw [task]
      exact ⟨rfl, _, rfl⟩
  case quiet => exact ⟨_, exec_trapEntry_task hm, takeL_none (lCauses_nil hl hd)⟩
  case request =>
    subst hn
    refine does_upHere (exec_preemptRequest s) fun t ht => ?_
    obtain ⟨free, held⟩ := request_reaches hr hof (s.nextCyc s.curT) (.request s.curArg)
    rw [← ht] at free held
    refine ⟨fun hf hk => free (askable_iff.2 ⟨hf, hk⟩), fun hh => held (Bool.eq_false_iff.2 fun h => ?_)⟩
    obtain ⟨unasked, kills⟩ := askable_iff.1 h
    rcases hh with ⟨d, hd, hp⟩ | hk
    · exact hp.elim (· (unasked d hd).1) (· (unasked d hd).2)
    · exact hk kills
  case overrun =>
    obtain ⟨node, mode⟩ := hof s.curC hc
    refine does_upHere (exec_preemptOverrun s) fun t ht => ⟨fun ⟨r, hr, hlate⟩ d hd => ?_, fun hr => ?_⟩
    · rw [if_pos ((overran_iff mode (by rw [node]; exact hpre)).2 ⟨r, hr, by rw [node]; exact hlate⟩)] at ht
      rw [ht, recall_asked (lt_of_mem_coresOf hc) rfl (Option.isSome_iff_exists.2 ⟨r, hr⟩) 2 (lt_of_mem_coresOf hd)]
      exact Core.goesBack_preReq ((hof d hd).1.trans node.symm)
    · rw [if_neg fun h => ?_] at ht
      · exact ht
      · obtain ⟨r, hp, hlate⟩ := (overran_iff mode (by rw [node]; exact hpre)).1 h
        rw [node] at hlate
        exact Nat.not_lt.2 (hr r hp) hlate
  case replay =>
    intro idle
    have killed := nodesKilled_single (used_single hx (hk.symm ▸ Nat.le_refl 1) (hk.symm ▸ by decide)) hk hrun hs hrest hkills
    have turn := exec_taskReplay_single killed ha hlost
    refine ⟨fun h => ?_, fun hn hi => ?_, fun hi hm => ?_⟩
    · obtain ⟨rt, inputs⟩ := lose_leaves ha hlost
      have loses : exec .taskReplay s = .next (s.lose s.curT n) := by
        refine turn.trans (congrArg _ ?_)
        rcases h with hn | ⟨hi, hm⟩
        · exact if_pos hn
        · split
          · rfl
          · rw [if_neg (by rw [nodeIdle_iff.2 hi]; exact Bool.noConfusion), if_neg (Bool.eq_false_iff.1 hm)]
      exact ⟨_, loses, congrArg NodeRt.kills rt, congrArg NodeRt.lost rt, inputs⟩
    · refine ⟨_, turn, ?_⟩
      rw [if_neg (Bool.eq_false_iff.1 hn), if_pos (Bool.eq_false_iff.2 (mt nodeIdle_iff.1 hi))]
    · have may : s.here.noReplay n = false := noReplay_of_mayReplay hm
      rw [if_neg (Bool.eq_false_iff.1 may), if_neg (by rw [nodeIdle_iff.2 hi]; exact Bool.noConfusion), if_pos hm] at turn
      have rt : ((s.upHere fun x => x.upRt n fun r => r.afresh (s.tcyc s.curT)).here.rt n) = (s.here.rt n).afresh (s.tcyc s.curT) :=
        (congrArg (fun y : Tile => y.rt n) (s.here_setTile _)).trans (Tile.rt_upRt _ _ _)
      exact ⟨_, turn, congrArg NodeRt.kills rt, congrArg NodeRt.st rt, congrArg NodeRt.ready rt, congrArg NodeRt.replayed rt, rfl⟩

end Sys2Proof.Machine

/-! PROOFS. The end of a STEP in a replay (R393, R410). -/
namespace Sys2Proof.Machine

/-- At the end of its last step a tile has the debug stop besides the freezes it had, that of a replay among them, although the replay ends with its checkpoints. -/
theorem exec_stepEnd_last {s : State} (h : s.here.stepLeft = 1) :
    ∃ x, exec .stepEnd s = .next (s.setTile s.curT x) ∧ x.frz = s.here.frz ++ [(.debug, none)] := by
  have steps : ¬s.here.stepLeft = 0 := by rw [h]; decide
  exact ⟨_, congrArg (fun x => Host.Outcome.next (s.setTile s.curT x)) ((if_neg steps).trans (if_pos h)), rfl⟩

/-- A tile whose last step ends in a replay. -/
def steppedTile : Tile := { stepLeft := 1, frz := [(.replay, none)], replayTo := some 0 }
def stepsInReplay : State := ({} : State).setTile 0 steppedTile
theorem stepsInReplay_here : stepsInReplay.here = steppedTile := State.here_setTile _ _

/-- Refutes O51: a tile whose last step ends in a replay keeps the freeze of the replay beside that of the debug stop. -/
theorem not_moduleEvents : ¬ Obligations.ModuleEvents := by
  unfold Obligations.ModuleEvents
  intro h
  obtain ⟨-, -, -, -, -, -, -, -, -, -, -, -, -, -, -, u, turn, -, -, -, last⟩ := h stepsInReplay 0 0
  have step : stepsInReplay.here.stepLeft = 1 := congrArg Tile.stepLeft stepsInReplay_here
  obtain ⟨-, frz, -⟩ := last step (congrArg Tile.late stepsInReplay_here)
  obtain ⟨x, turn', kept⟩ := exec_stepEnd_last step
  obtain rfl : u = stepsInReplay.setTile stepsInReplay.curT x := Host.Outcome.next.inj (turn.symm.trans turn')
  rw [State.here_setTile, kept, stepsInReplay_here] at frz
  exact absurd frz (by decide)

end Sys2Proof.Machine
